-- ==== Sys2Proof/Word.lean ====
section
/-! DEFINITION. The word types of the SY-740 (R9): a byte is 8 bits, a half 16, a word 32. -/
namespace Sys2Proof

/-- 8 bits (R9). -/
abbrev Byte := BitVec 8
/-- 16 bits (R9). -/
abbrev Half := BitVec 16
/-- 32 bits (R9): one lane of a v register, one s register, one instruction word. -/
abbrev Word := BitVec 32
/-- 64 bits: a lane mask, a p register, a page-table entry. -/
abbrev DWord := BitVec 64
/-- 128 bits: a capability (R153), a 16 B granule, a gutter entry. -/
abbrev QWord := BitVec 128

end Sys2Proof
end

