-- ==== Sys2Proof/Syntax.lean ====
section
/-! DEFINITION. The syntax of Dyold: operands, codes and one constructor per row of spec/opcode_table.json.
The first 123 constructors are the rows that have a word (the clause header and the instructions), the other 62
are the steps of the device that have no word. -/
namespace Sys2Proof

/-- Special operand values (R15, Table 2.3). -/
inductive Special where
  | lane | group | team | gidx | gidy | gidz | inst | path | width | core | die
  deriving DecidableEq, Repr

/-- A source operand (R26, Table 2.9). `vLast` is a v register with the last-read bit. -/
inductive Src where
  | v (n : Fin 64)
  | vLast (n : Fin 64)
  | s (n : Fin 64)
  | p (n : Fin 8)
  | special (sp : Special)
  /-- Inline constant 0xE0 + k (Table 2.10). -/
  | const (k : Fin 32)
  deriving DecidableEq, Repr

/-- A destination operand (R26): a v or an s register. -/
inductive Dst where
  | v (n : Fin 64)
  | s (n : Fin 64)
  deriving DecidableEq, Repr

/-- A destination that may be in predicate form (R27, R123: VOTE and ELECT with PD = 1). -/
inductive PDst where
  | reg (d : Dst)
  | pred (n : Fin 8)
  deriving DecidableEq, Repr

/-- An s quad s4k to s4k+3, named by k (R155, R182). -/
abbrev SQuad := Fin 16

/-- Conditions (R36, Table 2.13). -/
inductive Cond where
  | eq | ne | lt | le | gt | ge | ord | uno | ltu | leu | gtu | geu | equ | neo | tr | fl
  deriving DecidableEq, Repr

/-- Scopes (R37, Table 2.14a). -/
inductive Scope where
  | lane | group | team | core | cluster | section_ | die | device | board | domain | system
  deriving DecidableEq, Repr

/-- Path classes (R38, Table 2.14b). -/
inductive PathClass where
  | v | c | m | t | y | k | h | p
  deriving DecidableEq, Repr

/-- Kinds of FENCE and XFENCE (R189). -/
inductive FenceKind where
  | acq | rel | full
  deriving DecidableEq, Repr

/-- Element types (R31, Table 2.12). -/
inductive ElemType where
  | f32 | f16x2 | bf16x2 | i32 | n32 | i16x2 | n16x2 | i8x4 | n8x4 | e4m3x4 | e5m2x4 | e2m1x8
  deriving DecidableEq, Repr

/-- Access sizes of LD, ST, LDS and STS (Table 10.1). -/
inductive MemSize where
  | i8 | n8 | i16 | n16 | w32 | w64 | w128
  deriving DecidableEq, Repr

/-- Cache hints (Table 10.1, R170). -/
inductive Hint where
  | normal | stream | keep | bypass
  deriving DecidableEq, Repr

/-- Atomic operations (Table 10.2). -/
inductive AtomOp where
  | add | min | max | and | or | xor | exch | cas | fadd | umin | umax
  deriving DecidableEq, Repr

/-- Reduction operations (Table 7.5). -/
inductive RedOp where
  | iadd | imin | imax | and | or | xor | fadd | fmin | fmax
  deriving DecidableEq, Repr

/-- Votes with one result bit (R125): any, all, eq. -/
inductive VoteKind where
  | any | all | eq | ballot
  deriving DecidableEq, Repr

/-- Kinds of TRACE (R267). -/
inductive TraceKind where
  | closest | any | cand
  deriving DecidableEq, Repr

/-- Where PREF brings a line (R188). -/
inductive PrefKind where
  | cacheAndL2 | l2Only | l2Keep
  deriving DecidableEq, Repr

/-- Sizes of LDLOD (R201): 4, 8 or 16 bytes. -/
inductive LodSize where
  | b4 | b8 | b16
  deriving DecidableEq, Repr

/-- Space of a scratchpad access (R165, R181). -/
inductive Space where
  | team | peer
  deriving DecidableEq, Repr

/-- The operand of WAITA's word (R191): a word through xN or of the own team's scratchpad. -/
inductive WaitSpace where
  | global (x : Fin 8)
  | team
  deriving DecidableEq, Repr

/-- The runtime's answer to a service trap (R302): a well-formed entry at a physical address, the sector
rewritten whole at a physical address, or a refusal. -/
inductive ServiceAnswer where
  | mapped (entryAt : Nat) (entry : DWord)
  | rewritten (sector : Nat) (bytes : List Byte)
  | declined
  deriving DecidableEq, Repr

/-- What a host or peer access does at the home slice (R328, R331, R332). -/
inductive OutsideAccess where
  | read (n : Nat)
  | write (bytes : List Byte)
  | atom (op : AtomOp) (wide : Bool) (cmp value : DWord)
  deriving DecidableEq, Repr

/-- Where an uncorrectable error stands (R172, R346). -/
inductive ErrorPlace where
  | memory (sector : Nat)
  | scratchWord (team : Nat) (offset : Nat)
  | vWord (group : Nat) (name : Fin 64) (lane : Nat)
  deriving DecidableEq, Repr

/-- What LOAD_SECTOR_RETURN returns: the sector, and which of the values that are due it writes (R22): all for part 0, the lane
l of the e-th destination for part 64 × e + l + 1. -/
structure SectorPart where
  sector : Nat
  part : Nat
  deriving DecidableEq, Repr

/-- What UNIT_RESULT_WRITTEN writes: the instruction's number, and which of the values that are due (R22), as for a sector. -/
structure ResultPart where
  id : Nat
  part : Nat
  deriving DecidableEq, Repr

/-- Whose gutter entry is performed: a context's, accepted by the texture unit of a core (R200). -/
structure GutterUnit where
  ctx : Nat
  core : Nat
  deriving DecidableEq, Repr

/-- What a budget of a context rations (R327, Table 23.3): a valley link on behalf of a core, the Calven link and a Ranaris port,
each per direction; the channels of a stack; the copy engine of a core; the ridge units and the composer of a die. -/
inductive Resource where
  | valley (core : Nat) (out : Bool)
  | calven (out : Bool)
  | ranaris (port : Nat) (out : Bool)
  | channels (stack : Nat)
  | copyEngine (core : Nat)
  | ridge (die : Nat)
  | composer (die : Nat)
  deriving DecidableEq, Repr

/-- What the runtime asks for at CONTEXT_CREATE (R199, R313, R316, R318). A queue comes with the values that the
firmware writes to its CQPERIOD and CQBUDGET; a slot of the context capability table with its tagged capability. -/
structure ContextSpec where
  ctxid : Nat
  root : Nat
  queues : List (Nat × Word × Word)
  slots : List (Nat × QWord)
  feature : Word
  watchdogMs : Nat
  watchdogAction : Nat
  gutterBase : Nat
  gutterSize : Nat
  /-- Budgets of the period (R242, R327). -/
  budgets : List (Resource × Nat)
  deriving DecidableEq, Repr

/-- What the runtime sets at QUEUE_CREATE (R329). -/
structure QueueSpec where
  ctxid : Nat
  queue : Nat
  base : Nat
  size : Nat
  ordered : Bool
  deriving DecidableEq, Repr

/-- What the runtime gives the loader at CODE_OBJECT_BIND (R340): the file's bytes, the slot of the code
capability, for each section the virtual address it is placed at, the leaf entries (physical address, entry) that map
the pages of the sections, and the symbols of the read-only section that it asks to be writable (R352): offset there,
bytes, and offset in the writable section. -/
structure BindSpec where
  ctxid : Nat
  file : List Byte
  codeSlot : Nat
  places : List Nat
  leaves : List (Nat × DWord)
  moves : List (Nat × Nat × Nat)
  deriving DecidableEq, Repr

/-- Fuse results and the step that fails, for RESET (R348). -/
structure ResetSpec where
  failAt : Option (Fin 13)
  spareCores : List Nat
  spareChannels : List Nat
  spareLanes : List Nat
  deriving DecidableEq, Repr

/-- Instructions and steps: one constructor per row of spec/opcode_table.json. -/
inductive Instr where
  -- words: clause header and control (R18, R70)
  | clauseStart (wait : BitVec 12) (seta setb : Option (Fin 12)) (len : Fin 16)
  | nop
  | exit
  | bra (off : BitVec 24)
  | bc (neg : Bool) (p : Fin 8) (all : Bool) (off : BitVec 19)
  | bdiv (neg : Bool) (p : Fin 8) (off : BitVec 19)
  | setj (off : BitVec 24)
  | join
  | call (off : BitVec 24)
  | ret
  | brx (a : Src)
  | callx (a : Src)
  | yield_
  | trap (n : Byte)
  | tret
  | mode (imm : Half)
  -- integer, logic, shift, bit field (R61 to R65)
  | iadd (u : Bool) (d : Dst) (a b : Src)
  | isub (u : Bool) (d : Dst) (a b : Src)
  | imul (u : Bool) (d : Dst) (a b : Src)
  | imulh (u : Bool) (d : Dst) (a b : Src)
  | imad (u : Bool) (d : Dst) (a b : Src)
  | imin (u : Bool) (d : Dst) (a b : Src)
  | imax (u : Bool) (d : Dst) (a b : Src)
  | iabs (u : Bool) (d : Dst) (a : Src)
  | and (u : Bool) (d : Dst) (a b : Src)
  | or (u : Bool) (d : Dst) (a b : Src)
  | xor (u : Bool) (d : Dst) (a b : Src)
  | andn (u : Bool) (d : Dst) (a b : Src)
  | shl (u : Bool) (d : Dst) (a b : Src)
  | shr (u : Bool) (d : Dst) (a b : Src)
  | sar (u : Bool) (d : Dst) (a b : Src)
  | rol (u : Bool) (d : Dst) (a b : Src)
  | bfe (u : Bool) (d : Dst) (a b : Src)
  | bfi (u : Bool) (d : Dst) (a b : Src)
  | popc (u : Bool) (d : Dst) (a : Src)
  | clz (u : Bool) (d : Dst) (a : Src)
  | brev (u : Bool) (d : Dst) (a : Src)
  -- compare, select, move, immediates (R66 to R68)
  | sel (u : Bool) (d : Dst) (a b : Src)
  | icmp (u : Bool) (c : Cond) (p : Fin 8) (a b : Src)
  | mov (u : Bool) (d : Dst) (a : Src)
  | iaddi (u : Bool) (d : Dst) (imm : Half)
  | movi (u : Bool) (d : Dst) (imm : Half)
  | movhi (u : Bool) (d : Dst) (imm : Half)
  | andi (u : Bool) (d : Dst) (imm : Half)
  | ori (u : Bool) (d : Dst) (imm : Half)
  | xori (u : Bool) (d : Dst) (imm : Half)
  | imuli (u : Bool) (d : Dst) (imm : Half)
  -- float and conversion (R82 to R95)
  | fadd (u : Bool) (d : Dst) (a b : Src)
  | fsub (u : Bool) (d : Dst) (a b : Src)
  | fmul (u : Bool) (d : Dst) (a b : Src)
  | ffma (u : Bool) (d : Dst) (a b : Src)
  | fmin (u : Bool) (d : Dst) (a b : Src)
  | fmax (u : Bool) (d : Dst) (a b : Src)
  | fabs (u : Bool) (d : Dst) (a : Src)
  | fneg (u : Bool) (d : Dst) (a : Src)
  | fcmp (u : Bool) (c : Cond) (p : Fin 8) (a b : Src)
  | frcp (u : Bool) (d : Dst) (a : Src)
  | frsq (u : Bool) (d : Dst) (a : Src)
  | fsqrt (u : Bool) (d : Dst) (a : Src)
  | fexp2 (u : Bool) (d : Dst) (a : Src)
  | flog2 (u : Bool) (d : Dst) (a : Src)
  | fsin (u : Bool) (d : Dst) (a : Src)
  | fcos (u : Bool) (d : Dst) (a : Src)
  | frnd (u : Bool) (d : Dst) (a : Src)
  | ffrac (u : Bool) (d : Dst) (a : Src)
  | cvt (u : Bool) (d : Dst) (a : Src) (pos : Fin 8) (dst : ElemType)
  | pack (u : Bool) (d : Dst) (a b : Src)
  | unpk (u : Bool) (d : Dst) (a : Src) (i4 hi : Bool)
  | fdot2 (u : Bool) (d : Dst) (a b : Src)
  | fclass (u : Bool) (d : Dst) (a : Src)
  | fmulb (u : Bool) (d : Dst) (imm : Half)
  -- lane operations (R123 to R127)
  | shfl (d : Dst) (a b : Src)
  | shflx (d : Dst) (a b : Src)
  | shflup (d : Dst) (a b : Src)
  | vote (d : PDst) (a : Src) (k : VoteKind)
  | lred (d : Dst) (a : Src) (op : RedOp)
  | lscan (d : Dst) (a : Src) (ex : Bool) (op : RedOp)
  | elect (d : PDst)
  -- barriers, freeze, launches (R128 to R138)
  | barArrive (a b : Src)
  | barWait (a : Src)
  | barSync (a b : Src)
  | freeze (a : Src)
  | lnchW (u : Bool) (x : Fin 8) (a : Src)
  | lnchN (u : Bool) (x : Fin 8) (a : Src)
  | enq (u : Bool) (x : Fin 8) (a : Src)
  -- ordering and control registers (R189 to R192)
  | fence (k : FenceKind) (sc : Scope)
  | xfence (k : FenceKind) (after before : PathClass) (sc : Scope)
  | waita (u : Bool) (ne : Bool) (sc : Scope) (sp : WaitSpace) (a : Fin 64)
  | ckick (u : Bool) (a b : Src)
  | csrr (u : Bool) (d : Dst) (n : BitVec 12)
  | csrw (u : Bool) (d : Src) (n : BitVec 12)
  | mint (u : Bool) (d a b : SQuad)
  | xlat (u : Bool) (n : Fin 8) (a : SQuad)
  -- memory (R177 to R188)
  | ld (u : Bool) (d : Dst) (x : Fin 8) (sz : MemSize) (h : Hint) (a : Src)
  | st (u : Bool) (d : Src) (x : Fin 8) (sz : MemSize) (h : Hint) (a : Src)
  | atom (u : Bool) (d : Dst) (x : Fin 8) (op : AtomOp) (w64 : Bool) (a : Src)
  | atomNoreturn (u : Bool) (x : Fin 8) (op : AtomOp) (w64 : Bool) (a : Src)
  | lds (u : Bool) (d : Dst) (sp : Space) (sz : MemSize) (a : Src)
  | sts (u : Bool) (d : Src) (sp : Space) (sz : MemSize) (a : Src)
  | atoms (u : Bool) (d : Dst) (sp : Space) (op : AtomOp) (w64 : Bool) (a : Src)
  | atomsNoreturn (u : Bool) (sp : Space) (op : AtomOp) (w64 : Bool) (a : Src)
  | ldcTable (u : Bool) (d : SQuad) (a : Src)
  | ldcMemory (u : Bool) (d : SQuad) (x : Fin 8) (a : Src)
  | stc (u : Bool) (d : SQuad) (x : Fin 8) (a : Src)
  | tlook (u : Bool) (d : Dst) (a b : Src)
  | tset (u : Bool) (a b : Src)
  | ldlod (u : Bool) (d : Dst) (sz : LodSize) (a : Src)
  | sample (u : Bool) (d : Dst) (a b : Src)
  | sampleg (u : Bool) (d : Dst) (a b : Src)
  | pref (u : Bool) (x : Fin 8) (k : PrefKind) (a : Src)
  -- engines (R249 to R283)
  | mloadb (a : Fin 64)
  | mloop (a : Fin 64)
  | mdrain (a : Fin 64)
  | mdrainv (d : Fin 64) (a b : Src)
  | mzero (a b : Src)
  | mscale (q : Fin 8) (a : Src)
  | vxm (d : Fin 64) (a : Fin 64) (last : Bool) (b : Src)
  | trace (mask : Byte) (a : Fin 64) (k : TraceKind) (d : Fin 64)
  | hitret (a : Src) (d : Fin 64)
  | repack (k : Fin 16) (nm1 : Fin 16) (a b : Fin 64)
  | visb (clear : Bool) (a : Fin 64) (mask : Byte)
  | cover (a : Fin 64) (b : Src)
  | compose (d : Fin 64) (a : Src)
  -- steps without a word: register behaviours and completions
  | waitaReread (g id : Nat)
  | resdrain (u : Bool) (d : Src)
  | guttail (ctx : Nat) (value : Word)
  | guthead (ctx : Nat) (value : Word)
  | gutovf (ctx : Nat) (value : Word)
  | queueWrite (ctx queue : Nat) (budget : Bool) (value : Word)
  | sectionGrant (sec grant : Nat)
  | gutterEntryPerformed (unit : GutterUnit)
  | engineCommandComplete (g id : Nat)
  | unitResultWritten (g : Nat) (result : ResultPart)
  | composeOptimise (die : Nat)
  | optimiseBoundExpiry (die : Nat)
  | loadSectorReturn (g id : Nat) (sector : SectorPart)
  | storePerformed (g id : Nat)
  | shootDown (ctx page : Nat)
  -- placement and scheduling
  | teamStart (core : Nat)
  | steal (core : Nat)
  | launchWaitComplete (g id : Nat)
  | groupExchange (gOut gIn : Nat)
  | starvationTimeout (gIn : Nat)
  | groupEvict (core slot : Nat)
  | groupReturn (g : Nat)
  | sheafMiss (core sheaf : Nat)
  | watchdog (core slot g : Nat)
  | overrun (ctx queue : Nat)
  | periodStart (ctx queue : Nat)
  | preempt (groups teams : List Nat)
  | switchIn (team : Nat)
  -- traps and copies
  | trapDelivery (g half : Nat)
  | pathStopTimeout (g slot : Nat)
  | serviceResponse (g id : Nat) (answer : ServiceAnswer)
  | copyRequestFetch (g id : Nat)
  | copyRequestPerform (core req : Nat)
  | copyCompletion (core req part : Nat)
  | budgetPeriod
  -- host, links and peers
  | drawRecord (die queueCtx queue : Nat)
  | doorbell (ctx queue : Nat) (tail : Nat)
  | gridCompletion (grid : Nat)
  | rangeRelease (ctx range : Nat)
  | rangeAcquire (ctx range : Nat)
  | hostAccess (pa : Nat) (acc : OutsideAccess)
  | peerAccess (peer pa : Nat) (acc : OutsideAccess)
  | flitRetry (link dir : Nat)
  | linkRetrain (link dir : Nat) (laneFailed : Bool)
  | linkRetrainEnd (link : Nat)
  | calvenFailover
  | channelSpare (stack channel : Nat)
  | coreSpare (core : Nat)
  | coreLost (core : Nat)
  | uncorrectableError (sec : Nat) (place : ErrorPlace)
  | undervoltWindowEnd (sec : Nat) (clean : Bool)
  | thermalSample (temps : List Nat)
  | sectionReassign (sec cls : Nat)
  | energyApportion (steps : List (Nat × Nat))
  | liveMigration (ctx : Nat)
  | contextCreate (spec : ContextSpec)
  | queueCreate (spec : QueueSpec)
  | domainForm (own count : Nat)
  | reset (spec : ResetSpec)
  | plainJoinWritten (g id : Nat)
  | sectionRampEnd (sec : Nat)
  | channelCopyEnd (stack channel : Nat)
  | deviceLeavesDomain (peer : Nat)
  | codeObjectBind (spec : BindSpec)
  | managementFirmwareLoad (good : Bool)
  deriving DecidableEq, Repr

end Sys2Proof
end

