-- ==== Sys2Proof/WellFormed.lean ====
section
/-! DEFINITION. Which instructions are well-formed: the range, alignment and code checks that the encodings of
R25 to R41 and each description leave after the fields are read. -/
namespace Sys2Proof

/-- A range of `n` registers that begins at `r` ends at register 63 at the latest (R27). -/
def rangeOk (r n : Nat) : Bool := r + n ≤ 64

/-- The destination names a range of `n` registers (R27). -/
def Dst.rangeOk : Dst → Nat → Bool
  | .v r, n => Sys2Proof.rangeOk r.val n
  | .s r, n => Sys2Proof.rangeOk r.val n

/-- The source is a v or s register that begins a range of `n` registers (R27, R174). -/
def Src.rangeOk : Src → Nat → Bool
  | .v r, n => Sys2Proof.rangeOk r.val n
  | .vLast r, n => Sys2Proof.rangeOk r.val n
  | .s r, n => Sys2Proof.rangeOk r.val n
  | .p _, _ => false
  | .special _, _ => false
  | .const _, _ => false

/-- Registers an access size fills (Table 10.1). -/
def MemSize.regs : MemSize → Nat
  | .i8 | .n8 | .i16 | .n16 | .w32 => 1
  | .w64 => 2
  | .w128 => 4

/-- Bytes of an access size (Table 10.1). -/
def MemSize.bytes : MemSize → Nat
  | .i8 | .n8 => 1
  | .i16 | .n16 => 2
  | .w32 => 4
  | .w64 => 8
  | .w128 => 16

/-- Data words of an LDLOD (R201). -/
def LodSize.words : LodSize → Nat
  | .b4 => 1
  | .b8 => 2
  | .b16 => 4

/-- Registers that `a` of an atomic names: the offset and the values (R179, Table 10.2). -/
def AtomOp.regs (op : AtomOp) (w64 : Bool) : Nat :=
  1 + (if op = .cas then 2 else 1) * (if w64 then 2 else 1)

/-- fadd has no 64-bit form (R179). -/
def AtomOp.widthOk (op : AtomOp) (w64 : Bool) : Bool := !(op = .fadd && w64)

/-- Conditions that ICMP accepts (R36). -/
def Cond.isInteger : Cond → Bool
  | .eq | .ne | .lt | .le | .gt | .ge | .tr | .fl => true
  | .ord | .uno | .ltu | .leu | .gtu | .geu | .equ | .neo => false

/-- A MODE imm16 that R30 accepts: TYPE 0 to 11, RND 0 to 4, GUARD not 8. -/
def modeOk (imm : Half) : Bool :=
  (imm.extractLsb' 0 4).toNat ≤ 11 && (imm.extractLsb' 4 3).toNat ≤ 4 && (imm.extractLsb' 8 4).toNat ≠ 8

/-- CSR numbers a group's CSRR may name (R17, Table 2.4). -/
def csrReadable (n : BitVec 12) : Bool := n.toNat ≤ 8

/-- CSR numbers a group's CSRW may name, other than RESDRAIN (R17, Table 2.4). -/
def csrWritable (n : BitVec 12) : Bool := n.toNat ≤ 3

/-- CSRR of CLOCK fills a pair (R192). -/
def csrRegs (n : BitVec 12) : Nat := if n.toNat = 4 then 2 else 1

/-- The checks that remain after an instruction's fields are read. -/
def Instr.wf : Instr → Bool
  | .mode imm => modeOk imm
  | .icmp _ c _ _ _ => c.isInteger
  | .vote (.pred _) _ .ballot => false
  | .vote (.reg d) _ .ballot => d.rangeOk 2
  | .csrr _ d n => csrReadable n && d.rangeOk (csrRegs n)
  | .csrw _ _ n => csrWritable n
  | .waita _ _ _ _ a => rangeOk a.val 2
  | .ld _ d _ sz _ _ => d.rangeOk sz.regs
  | .st _ d _ sz _ _ => sz.regs = 1 || d.rangeOk sz.regs
  | .lds _ d _ sz _ => d.rangeOk sz.regs
  | .sts _ d _ sz _ => sz.regs = 1 || d.rangeOk sz.regs
  | .atom _ d _ op w a => op.widthOk w && d.rangeOk (if w then 2 else 1) && a.rangeOk (op.regs w)
  | .atomNoreturn _ _ op w a => op.widthOk w && a.rangeOk (op.regs w)
  | .atoms _ d _ op w a => op.widthOk w && d.rangeOk (if w then 2 else 1) && a.rangeOk (op.regs w)
  | .atomsNoreturn _ _ op w a => op.widthOk w && a.rangeOk (op.regs w)
  | .tset _ _ b => b.rangeOk 2
  | .ldlod _ d sz a => d.rangeOk (sz.words + 1) && a.rangeOk 3
  | .sample _ d a _ => d.rangeOk 5 && a.rangeOk 3
  | .sampleg _ d a _ => d.rangeOk 5 && a.rangeOk 7
  | .mloadb a => rangeOk a.val 2
  | .mloop a => rangeOk a.val 4
  | .mdrain a => rangeOk a.val 3
  | .vxm d a _ _ => rangeOk d.val 16 && rangeOk a.val 16
  | .trace _ a _ d => rangeOk a.val 8 && rangeOk d.val 6
  | .hitret _ d => rangeOk d.val 6
  | .repack _ n a b => rangeOk b.val (n.val + 1) && !(b.val ≤ a.val && a.val ≤ b.val + n.val)
  | .visb _ a _ => rangeOk a.val 4
  | .cover a _ => rangeOk a.val 7
  | _ => true

end Sys2Proof
end

