-- ==== Sys2Proof/Decode.lean ====
section
/-! DEFINITION. Decoding of a 32-bit word (R18, R23 to R41) into an instruction, total and rejecting by name, and the
encoder written from the same tables. A rejected word raises ILLEGAL when it is reached (R41); a header marker in an
instruction position raises CLAUSE instead (R21), which the step decides. -/
namespace Sys2Proof

/-- Why a word is no instruction (R41): all of these are ILLEGAL. -/
inductive Reject where
  /-- A reserved opcode, or opcode 0x7F with U = 0 (R39, R41). -/
  | reservedOpcode
  /-- A reserved field that is nonzero (R25). -/
  | reservedField
  /-- U = 1 where Table 2.16 forbids it (R40). -/
  | uniformBit
  /-- An operand encoding that Table 2.9 or the description forbids (R26). -/
  | operand
  /-- A code, range or alignment that the description forbids. -/
  | code
  /-- Fewer than four bytes. -/
  | short
  deriving DecidableEq, Repr


/-- The code of a Special. -/
def Special.code : Special → BitVec 8
  | .lane => 208
  | .group => 209
  | .team => 210
  | .gidx => 211
  | .gidy => 212
  | .gidz => 213
  | .inst => 214
  | .path => 215
  | .width => 216
  | .core => 217
  | .die => 218

/-- The Special of a code. -/
def Special.ofCode (c : BitVec 8) : Except Reject Special :=
  match c.toNat with
  | 208 => .ok .lane
  | 209 => .ok .group
  | 210 => .ok .team
  | 211 => .ok .gidx
  | 212 => .ok .gidy
  | 213 => .ok .gidz
  | 214 => .ok .inst
  | 215 => .ok .path
  | 216 => .ok .width
  | 217 => .ok .core
  | 218 => .ok .die
  | _ => .error .code

/-- The code of a Cond. -/
def Cond.code : Cond → BitVec 4
  | .eq => 0
  | .ne => 1
  | .lt => 2
  | .le => 3
  | .gt => 4
  | .ge => 5
  | .ord => 6
  | .uno => 7
  | .ltu => 8
  | .leu => 9
  | .gtu => 10
  | .geu => 11
  | .equ => 12
  | .neo => 13
  | .tr => 14
  | .fl => 15

/-- The Cond of a code. -/
def Cond.ofCode (c : BitVec 4) : Except Reject Cond :=
  match c.toNat with
  | 0 => .ok .eq
  | 1 => .ok .ne
  | 2 => .ok .lt
  | 3 => .ok .le
  | 4 => .ok .gt
  | 5 => .ok .ge
  | 6 => .ok .ord
  | 7 => .ok .uno
  | 8 => .ok .ltu
  | 9 => .ok .leu
  | 10 => .ok .gtu
  | 11 => .ok .geu
  | 12 => .ok .equ
  | 13 => .ok .neo
  | 14 => .ok .tr
  | _ => .ok .fl

/-- The code of a Scope. -/
def Scope.code : Scope → BitVec 4
  | .lane => 0
  | .group => 1
  | .team => 2
  | .core => 3
  | .cluster => 4
  | .section_ => 5
  | .die => 6
  | .device => 7
  | .board => 8
  | .domain => 9
  | .system => 10

/-- The Scope of a code. -/
def Scope.ofCode (c : BitVec 4) : Except Reject Scope :=
  match c.toNat with
  | 0 => .ok .lane
  | 1 => .ok .group
  | 2 => .ok .team
  | 3 => .ok .core
  | 4 => .ok .cluster
  | 5 => .ok .section_
  | 6 => .ok .die
  | 7 => .ok .device
  | 8 => .ok .board
  | 9 => .ok .domain
  | 10 => .ok .system
  | _ => .error .code

/-- The code of a PathClass. -/
def PathClass.code : PathClass → BitVec 4
  | .v => 0
  | .c => 1
  | .m => 2
  | .t => 3
  | .y => 4
  | .k => 5
  | .h => 6
  | .p => 7

/-- The PathClass of a code. -/
def PathClass.ofCode (c : BitVec 4) : Except Reject PathClass :=
  match c.toNat with
  | 0 => .ok .v
  | 1 => .ok .c
  | 2 => .ok .m
  | 3 => .ok .t
  | 4 => .ok .y
  | 5 => .ok .k
  | 6 => .ok .h
  | 7 => .ok .p
  | _ => .error .code

/-- The code of a FenceKind. -/
def FenceKind.code : FenceKind → BitVec 2
  | .acq => 0
  | .rel => 1
  | .full => 2

/-- The FenceKind of a code. -/
def FenceKind.ofCode (c : BitVec 2) : Except Reject FenceKind :=
  match c.toNat with
  | 0 => .ok .acq
  | 1 => .ok .rel
  | 2 => .ok .full
  | _ => .error .code

/-- The code of a ElemType. -/
def ElemType.code : ElemType → BitVec 4
  | .f32 => 0
  | .f16x2 => 1
  | .bf16x2 => 2
  | .i32 => 3
  | .n32 => 4
  | .i16x2 => 5
  | .n16x2 => 6
  | .i8x4 => 7
  | .n8x4 => 8
  | .e4m3x4 => 9
  | .e5m2x4 => 10
  | .e2m1x8 => 11

/-- The ElemType of a code. -/
def ElemType.ofCode (c : BitVec 4) : Except Reject ElemType :=
  match c.toNat with
  | 0 => .ok .f32
  | 1 => .ok .f16x2
  | 2 => .ok .bf16x2
  | 3 => .ok .i32
  | 4 => .ok .n32
  | 5 => .ok .i16x2
  | 6 => .ok .n16x2
  | 7 => .ok .i8x4
  | 8 => .ok .n8x4
  | 9 => .ok .e4m3x4
  | 10 => .ok .e5m2x4
  | 11 => .ok .e2m1x8
  | _ => .error .code

/-- The code of a MemSize. -/
def MemSize.code : MemSize → BitVec 3
  | .i8 => 0
  | .n8 => 1
  | .i16 => 2
  | .n16 => 3
  | .w32 => 4
  | .w64 => 5
  | .w128 => 6

/-- The MemSize of a code. -/
def MemSize.ofCode (c : BitVec 3) : Except Reject MemSize :=
  match c.toNat with
  | 0 => .ok .i8
  | 1 => .ok .n8
  | 2 => .ok .i16
  | 3 => .ok .n16
  | 4 => .ok .w32
  | 5 => .ok .w64
  | 6 => .ok .w128
  | _ => .error .code

/-- The code of a Hint. -/
def Hint.code : Hint → BitVec 2
  | .normal => 0
  | .stream => 1
  | .keep => 2
  | .bypass => 3

/-- The Hint of a code. -/
def Hint.ofCode (c : BitVec 2) : Except Reject Hint :=
  match c.toNat with
  | 0 => .ok .normal
  | 1 => .ok .stream
  | 2 => .ok .keep
  | _ => .ok .bypass

/-- The code of a AtomOp. -/
def AtomOp.code : AtomOp → BitVec 4
  | .add => 0
  | .min => 1
  | .max => 2
  | .and => 3
  | .or => 4
  | .xor => 5
  | .exch => 6
  | .cas => 7
  | .fadd => 8
  | .umin => 9
  | .umax => 10

/-- The AtomOp of a code. -/
def AtomOp.ofCode (c : BitVec 4) : Except Reject AtomOp :=
  match c.toNat with
  | 0 => .ok .add
  | 1 => .ok .min
  | 2 => .ok .max
  | 3 => .ok .and
  | 4 => .ok .or
  | 5 => .ok .xor
  | 6 => .ok .exch
  | 7 => .ok .cas
  | 8 => .ok .fadd
  | 9 => .ok .umin
  | 10 => .ok .umax
  | _ => .error .code

/-- The code of a RedOp. -/
def RedOp.code : RedOp → BitVec 4
  | .iadd => 0
  | .imin => 1
  | .imax => 2
  | .and => 3
  | .or => 4
  | .xor => 5
  | .fadd => 8
  | .fmin => 9
  | .fmax => 10

/-- The RedOp of a code. -/
def RedOp.ofCode (c : BitVec 4) : Except Reject RedOp :=
  match c.toNat with
  | 0 => .ok .iadd
  | 1 => .ok .imin
  | 2 => .ok .imax
  | 3 => .ok .and
  | 4 => .ok .or
  | 5 => .ok .xor
  | 8 => .ok .fadd
  | 9 => .ok .fmin
  | 10 => .ok .fmax
  | _ => .error .code

/-- The code of a VoteKind. -/
def VoteKind.code : VoteKind → BitVec 2
  | .any => 0
  | .all => 1
  | .eq => 2
  | .ballot => 3

/-- The VoteKind of a code. -/
def VoteKind.ofCode (c : BitVec 2) : Except Reject VoteKind :=
  match c.toNat with
  | 0 => .ok .any
  | 1 => .ok .all
  | 2 => .ok .eq
  | _ => .ok .ballot

/-- The code of a TraceKind. -/
def TraceKind.code : TraceKind → BitVec 2
  | .closest => 0
  | .any => 1
  | .cand => 2

/-- The TraceKind of a code. -/
def TraceKind.ofCode (c : BitVec 2) : Except Reject TraceKind :=
  match c.toNat with
  | 0 => .ok .closest
  | 1 => .ok .any
  | 2 => .ok .cand
  | _ => .error .code

/-- The code of a PrefKind. -/
def PrefKind.code : PrefKind → BitVec 2
  | .cacheAndL2 => 0
  | .l2Only => 1
  | .l2Keep => 2

/-- The PrefKind of a code. -/
def PrefKind.ofCode (c : BitVec 2) : Except Reject PrefKind :=
  match c.toNat with
  | 0 => .ok .cacheAndL2
  | 1 => .ok .l2Only
  | 2 => .ok .l2Keep
  | _ => .error .code

/-- The code of a LodSize. -/
def LodSize.code : LodSize → BitVec 2
  | .b4 => 0
  | .b8 => 1
  | .b16 => 2

/-- The LodSize of a code. -/
def LodSize.ofCode (c : BitVec 2) : Except Reject LodSize :=
  match c.toNat with
  | 0 => .ok .b4
  | 1 => .ok .b8
  | 2 => .ok .b16
  | _ => .error .code

/-- The space code of LDS, STS, ATOMS (R181). -/
def Space.code : Space → BitVec 3
  | .team => 0
  | .peer => 1

/-- The space of a code; 2 to 7 are ILLEGAL (R181). -/
def Space.ofCode (c : BitVec 3) : Except Reject Space :=
  match c.toNat with
  | 0 => .ok .team
  | 1 => .ok .peer
  | _ => .error .code

/-- A flag field of a clause header: 0 to 11, or 0xF for none (Table 2.6). -/
def flagCode : Option (Fin 12) → BitVec 4
  | some f => BitVec.ofNat 4 f.val
  | none => 15

/-- 0xC to 0xE raise ILLEGAL (Table 2.6). -/
def flagOfCode (c : BitVec 4) : Except Reject (Option (Fin 12)) :=
  if h : c.toNat < 12 then .ok (some ⟨c.toNat, h⟩) else if c.toNat = 15 then .ok none else .error .code

/-- A 6-bit register number. -/
def reg6 (b : BitVec 8) : Fin 64 := ⟨b.toNat % 64, Nat.mod_lt _ (by decide)⟩

/-- The encoding of a source operand (Table 2.9). -/
def Src.encode : Src → BitVec 8
  | .v n => BitVec.ofNat 8 n.val
  | .vLast n => BitVec.ofNat 8 (64 + n.val)
  | .s n => BitVec.ofNat 8 (128 + n.val)
  | .p n => BitVec.ofNat 8 (192 + n.val)
  | .special sp => sp.code
  | .const k => BitVec.ofNat 8 (224 + k.val)

/-- Table 2.9, source column. -/
def Src.decode (b : BitVec 8) : Except Reject Src :=
  let n := b.toNat
  if n < 64 then .ok (.v (reg6 b))
  else if n < 128 then .ok (.vLast (reg6 b))
  else if n < 192 then .ok (.s (reg6 b))
  else if n < 200 then .ok (.p ⟨n % 8, Nat.mod_lt _ (by decide)⟩)
  else if n < 208 then .error .operand
  else if n < 219 then (Special.ofCode b).map .special
  else if n < 224 then .error .operand
  else .ok (.const ⟨n % 32, Nat.mod_lt _ (by decide)⟩)

/-- The encoding of a destination operand (Table 2.9). -/
def Dst.encode : Dst → BitVec 8
  | .v n => BitVec.ofNat 8 n.val
  | .s n => BitVec.ofNat 8 (128 + n.val)

/-- Table 2.9, destination column. -/
def Dst.decode (b : BitVec 8) : Except Reject Dst :=
  let n := b.toNat
  if n < 64 then .ok (.v (reg6 b))
  else if n < 128 then .error .operand
  else if n < 192 then .ok (.s (reg6 b))
  else .error .operand

/-- VOTE and ELECT: d in predicate form when PD = 1, COND and bit 3 reserved (R123, R27). -/
def PDst.encode : PDst → BitVec 8
  | .reg d => d.encode
  | .pred n => BitVec.ofNat 8 n.val

/-- The PD bit (R123). -/
def PDst.pd : PDst → Bool
  | .reg _ => false
  | .pred _ => true

/-- d of VOTE and ELECT, given PD. -/
def PDst.decode (pd : Bool) (b : BitVec 8) : Except Reject PDst :=
  if pd then
    if h : b.toNat < 8 then .ok (.pred ⟨b.toNat, h⟩) else .error .reservedField
  else (Dst.decode b).map .reg

/-- An s quad's encoding 0x80 + 4k (R182). -/
def quadEncode (k : SQuad) : BitVec 8 := BitVec.ofNat 8 (128 + 4 * k.val)

/-- Any encoding other than s4k is ILLEGAL (R182, R184, R185). -/
def quadDecode (b : BitVec 8) : Except Reject SQuad :=
  let n := b.toNat
  if 128 ≤ n ∧ n < 192 ∧ n % 4 = 0 then .ok ⟨n / 4 % 16, Nat.mod_lt _ (by decide)⟩ else .error .operand

/-- A field that names an s register and nothing else (R191, R249, R283). -/
def sregDecode (b : BitVec 8) : Except Reject (Fin 64) :=
  let n := b.toNat
  if 128 ≤ n ∧ n < 192 then .ok (reg6 b) else .error .operand

/-- The encoding of s(n). -/
def sregEncode (n : Fin 64) : BitVec 8 := BitVec.ofNat 8 (128 + n.val)

/-- A field that names a v register without last-read bit and nothing else (R253, R267, R271, R275). -/
def vregDecode (b : BitVec 8) : Except Reject (Fin 64) :=
  if b.toNat < 64 then .ok (reg6 b) else .error .operand

/-- The encoding of v(n). -/
def vregEncode (n : Fin 64) : BitVec 8 := BitVec.ofNat 8 n.val

/-- A condition that the decoder needs. -/
def need (c : Bool) (e : Reject) : Except Reject Unit := if c then .ok () else .error e

/-- A 3-bit register number. -/
def reg3 (b : BitVec 3) : Fin 8 := ⟨b.toNat, b.isLt⟩
/-- The bits of a 3-bit register number. -/
def bits3 (n : Fin 8) : BitVec 3 := BitVec.ofNat 3 n.val
/-- A 4-bit number. -/
def reg4 (b : BitVec 4) : Fin 16 := ⟨b.toNat, b.isLt⟩
/-- The bits of a 4-bit number. -/
def bits4 (n : Fin 16) : BitVec 4 := BitVec.ofNat 4 n.val
/-- One bit as a truth value. -/
def bit1 (b : BitVec 1) : Bool := b = 1
/-- A truth value as one bit. -/
def bool1 (b : Bool) : BitVec 1 := if b then 1 else 0

/-- Fields of an instruction word (R23). -/
def fU (w : Word) : BitVec 1 := w.extractLsb' 31 1
/-- Opcode. -/
def fOp (w : Word) : BitVec 7 := w.extractLsb' 24 7
/-- d[23:16]. -/
def fD (w : Word) : BitVec 8 := w.extractLsb' 16 8
/-- a[15:8] of format A. -/
def fA (w : Word) : BitVec 8 := w.extractLsb' 8 8
/-- b[7:0] of format A; a[7:0] of format M. -/
def fB (w : Word) : BitVec 8 := w.extractLsb' 0 8
/-- imm16[15:0] of format I. -/
def fImm (w : Word) : Half := w.extractLsb' 0 16
/-- x[15:13] of format M. -/
def fX (w : Word) : BitVec 3 := w.extractLsb' 13 3
/-- CTL[12:8] of format M. -/
def fCtl (w : Word) : BitVec 5 := w.extractLsb' 8 5

/-- Format A word. -/
def wordA (u : Bool) (op : BitVec 7) (d a b : BitVec 8) : Word := bool1 u ++ op ++ d ++ a ++ b
/-- Format I word. -/
def wordI (u : Bool) (op : BitVec 7) (d : BitVec 8) (imm : Half) : Word := bool1 u ++ op ++ d ++ imm
/-- Format J word. -/
def wordJ (op : BitVec 7) (off : BitVec 24) : Word := (0 : BitVec 1) ++ op ++ off
/-- Format C word. -/
def wordC (op : BitVec 7) (neg : Bool) (p : Fin 8) (all : Bool) (off : BitVec 19) : Word :=
  (0 : BitVec 1) ++ op ++ bool1 neg ++ bits3 p ++ bool1 all ++ off
/-- Format M word. -/
def wordM (u : Bool) (op : BitVec 7) (d : BitVec 8) (x : BitVec 3) (ctl : BitVec 5) (a : BitVec 8) : Word :=
  bool1 u ++ op ++ d ++ x ++ ctl ++ a

/-- d, a, b: destination and two sources. -/
def decABC (mk : Bool → Dst → Src → Src → Instr) (w : Word) : Except Reject Instr := do
  let d ← Dst.decode (fD w)
  let a ← Src.decode (fA w)
  let b ← Src.decode (fB w)
  return mk (bit1 (fU w)) d a b

/-- d, a: destination and one source, b reserved. -/
def decAB (mk : Bool → Dst → Src → Instr) (w : Word) : Except Reject Instr := do
  let d ← Dst.decode (fD w)
  let a ← Src.decode (fA w)
  need (fB w = 0) .reservedField
  return mk (bit1 (fU w)) d a

/-- d, imm16. -/
def decDI (mk : Bool → Dst → Half → Instr) (w : Word) : Except Reject Instr := do
  let d ← Dst.decode (fD w)
  return mk (bit1 (fU w)) d (fImm w)

/-- COND and P in d, two sources; bit 3 of d reserved (R27). -/
def decCmp (mk : Bool → Cond → Fin 8 → Src → Src → Instr) (w : Word) : Except Reject Instr := do
  need ((fD w).extractLsb' 3 1 = 0) .reservedField
  let c ← Cond.ofCode ((fD w).extractLsb' 4 4)
  let a ← Src.decode (fA w)
  let b ← Src.decode (fB w)
  return mk (bit1 (fU w)) c (reg3 ((fD w).extractLsb' 0 3)) a b

/-- U = 1 is ILLEGAL (R40). -/
def noU (w : Word) : Except Reject Unit := need (fU w = 0) .uniformBit

/-- A word without fields (R71, R77, R78, R121, R311). -/
def decBare (i : Instr) (w : Word) : Except Reject Instr := do
  noU w
  need (w.extractLsb' 0 24 = 0) .reservedField
  return i

/-- a alone, no U, d and b reserved. -/
def decSrcA (mk : Src → Instr) (w : Word) : Except Reject Instr := do
  noU w
  need (fD w = 0 && fB w = 0) .reservedField
  let a ← Src.decode (fA w)
  return mk a

/-- a names an s register, no U, d and b reserved (R249, R250, R252). -/
def decSregA (mk : Fin 64 → Instr) (w : Word) : Except Reject Instr := do
  noU w
  need (fD w = 0 && fB w = 0) .reservedField
  let a ← sregDecode (fA w)
  return mk a

/-- d, a, b with U = 1 forbidden. -/
def decLane3 (mk : Dst → Src → Src → Instr) (w : Word) : Except Reject Instr := do
  noU w
  let d ← Dst.decode (fD w)
  let a ← Src.decode (fA w)
  let b ← Src.decode (fB w)
  return mk d a b

/-- x in d[2:0], a; d[7:3] fixed by the caller's `d`, b reserved (R130). -/
def decLaunch (mk : Bool → Fin 8 → Src → Instr) (w : Word) : Except Reject Instr := do
  need (fB w = 0) .reservedField
  let a ← Src.decode (fA w)
  return mk (bit1 (fU w)) (reg3 ((fD w).extractLsb' 0 3)) a

/-- LD, with a v or s destination (R177). -/
def decLd (w : Word) : Except Reject Instr := do
  let d ← Dst.decode (fD w)
  let sz ← MemSize.ofCode ((fCtl w).extractLsb' 2 3)
  let h ← Hint.ofCode ((fCtl w).extractLsb' 0 2)
  let a ← Src.decode (fB w)
  return .ld (bit1 (fU w)) d (reg3 (fX w)) sz h a

/-- ST, whose d is a source (R178). -/
def decSt (w : Word) : Except Reject Instr := do
  let d ← Src.decode (fD w)
  let sz ← MemSize.ofCode ((fCtl w).extractLsb' 2 3)
  let h ← Hint.ofCode ((fCtl w).extractLsb' 0 2)
  let a ← Src.decode (fB w)
  return .st (bit1 (fU w)) d (reg3 (fX w)) sz h a

/-- LDS: HINT reserved (R181). -/
def decLds (w : Word) : Except Reject Instr := do
  let d ← Dst.decode (fD w)
  let sp ← Space.ofCode (fX w)
  let sz ← MemSize.ofCode ((fCtl w).extractLsb' 2 3)
  need ((fCtl w).extractLsb' 0 2 = 0) .reservedField
  let a ← Src.decode (fB w)
  return .lds (bit1 (fU w)) d sp sz a

/-- STS (R181). -/
def decSts (w : Word) : Except Reject Instr := do
  let d ← Src.decode (fD w)
  let sp ← Space.ofCode (fX w)
  let sz ← MemSize.ofCode ((fCtl w).extractLsb' 2 3)
  need ((fCtl w).extractLsb' 0 2 = 0) .reservedField
  let a ← Src.decode (fB w)
  return .sts (bit1 (fU w)) d sp sz a

/-- ATOM: d = 0xFF names no return (R179). -/
def decAtom (w : Word) : Except Reject Instr := do
  let op ← AtomOp.ofCode ((fCtl w).extractLsb' 1 4)
  let w64 := bit1 ((fCtl w).extractLsb' 0 1)
  let a ← Src.decode (fB w)
  if fD w = 255 then return .atomNoreturn (bit1 (fU w)) (reg3 (fX w)) op w64 a
  else
    let d ← Dst.decode (fD w)
    return .atom (bit1 (fU w)) d (reg3 (fX w)) op w64 a

/-- ATOMS (R179). -/
def decAtoms (w : Word) : Except Reject Instr := do
  let op ← AtomOp.ofCode ((fCtl w).extractLsb' 1 4)
  let w64 := bit1 ((fCtl w).extractLsb' 0 1)
  let sp ← Space.ofCode (fX w)
  let a ← Src.decode (fB w)
  if fD w = 255 then return .atomsNoreturn (bit1 (fU w)) sp op w64 a
  else
    let d ← Dst.decode (fD w)
    return .atoms (bit1 (fU w)) d sp op w64 a

/-- LDC: SRC in CTL[4], CTL[3:0] reserved, x reserved for the context table (R182). -/
def decLdc (w : Word) : Except Reject Instr := do
  need ((fCtl w).extractLsb' 0 4 = 0) .reservedField
  let d ← quadDecode (fD w)
  let a ← Src.decode (fB w)
  if (fCtl w).extractLsb' 4 1 = 1 then return .ldcMemory (bit1 (fU w)) d (reg3 (fX w)) a
  else
    need (fX w = 0) .reservedField
    return .ldcTable (bit1 (fU w)) d a

/-- WAITA: space in CTL[4], x = 0 for scratchpad, a an s register (R191). -/
def decWaita (w : Word) : Except Reject Instr := do
  need ((fD w).extractLsb' 5 3 = 0 && (fCtl w).extractLsb' 0 4 = 0) .reservedField
  let sc ← Scope.ofCode ((fD w).extractLsb' 0 4)
  let a ← sregDecode (fB w)
  if (fCtl w).extractLsb' 4 1 = 1 then
    need (fX w = 0) .reservedField
    return .waita (bit1 (fU w)) (bit1 ((fD w).extractLsb' 4 1)) sc .team a
  else return .waita (bit1 (fU w)) (bit1 ((fD w).extractLsb' 4 1)) sc (.global (reg3 (fX w))) a

/-- BAR: the form in d[1:0], d[7:2] reserved, b reserved in wait (R128). -/
def decBar (w : Word) : Except Reject Instr := do
  noU w
  need ((fD w).extractLsb' 2 6 = 0) .reservedField
  let a ← Src.decode (fA w)
  match (fD w).toNat with
  | 0 =>
    let b ← Src.decode (fB w)
    return .barArrive a b
  | 1 =>
    need (fB w = 0) .reservedField
    return .barWait a
  | 2 =>
    let b ← Src.decode (fB w)
    return .barSync a b
  | _ => .error .code

/-- LNCH: W in d[3], d[7:4] reserved (R130). -/
def decLnch (w : Word) : Except Reject Instr := do
  need ((fD w).extractLsb' 4 4 = 0) .reservedField
  if (fD w).extractLsb' 3 1 = 1 then decLaunch .lnchW w else decLaunch .lnchN w

/-- CSRW; RESDRAIN, CSR 0x009, has a row of its own in the opcode table (R192). -/
def decCsrw (w : Word) : Except Reject Instr := do
  need ((fImm w).extractLsb' 12 4 = 0) .reservedField
  let d ← Src.decode (fD w)
  if (fImm w).extractLsb' 0 12 = 9 then return .resdrain (bit1 (fU w)) d
  else return .csrw (bit1 (fU w)) d ((fImm w).extractLsb' 0 12)

/-- VXM: a is a v register, last-read bit allowed (R256). -/
def decVxm (w : Word) : Except Reject Instr := do
  noU w
  let d ← vregDecode (fD w)
  need ((fA w).toNat < 128) .operand
  let b ← Src.decode (fB w)
  return .vxm d (reg6 (fA w)) (64 ≤ (fA w).toNat) b

/-- The clause header (R18, Table 2.6). -/
def decHeader (w : Word) : Except Reject Instr := do
  let sa ← flagOfCode (w.extractLsb' 8 4)
  let sb ← flagOfCode (w.extractLsb' 4 4)
  return .clauseStart (w.extractLsb' 12 12) sa sb (reg4 (w.extractLsb' 0 4))

/-- The word carries the header marker: bits 31:24 are 0xFF (R18). -/
def isHeader (w : Word) : Bool := w.extractLsb' 24 8 = 255


/-- Opcodes 0x00 to 0x0F (Table 2.15). -/
def decRow0 (w : Word) : Except Reject Instr :=
  match (fOp w).toNat with
  | 0x00 => decBare .nop w
  | 0x01 => decBare .exit w
  | 0x02 => do noU w; return .bra (w.extractLsb' 0 24)
  | 0x03 => do noU w; return .bc (bit1 (w.extractLsb' 23 1)) (reg3 (w.extractLsb' 20 3)) (bit1 (w.extractLsb' 19 1)) (w.extractLsb' 0 19)
  | 0x04 => do noU w; need (w.extractLsb' 19 1 = 0) .code; return .bdiv (bit1 (w.extractLsb' 23 1)) (reg3 (w.extractLsb' 20 3)) (w.extractLsb' 0 19)
  | 0x05 => do noU w; return .setj (w.extractLsb' 0 24)
  | 0x06 => decBare .join w
  | 0x07 => do noU w; return .call (w.extractLsb' 0 24)
  | 0x08 => decBare .ret w
  | 0x09 => decSrcA .brx w
  | 0x0A => decSrcA .callx w
  | 0x0B => decBare .yield_ w
  | 0x0C => do noU w; need (fD w = 0 && fA w = 0) .reservedField; return .trap (fB w)
  | 0x0D => decBare .tret w
  | 0x0E => do noU w; need (fD w = 0) .reservedField; return .mode (fImm w)
  | _ => .error .reservedOpcode

/-- Opcodes 0x10 to 0x1F (Table 2.15). -/
def decRow1 (w : Word) : Except Reject Instr :=
  match (fOp w).toNat with
  | 0x10 => decABC .iadd w
  | 0x11 => decABC .isub w
  | 0x12 => decABC .imul w
  | 0x13 => decABC .imulh w
  | 0x14 => decABC .imad w
  | 0x15 => decABC .imin w
  | 0x16 => decABC .imax w
  | 0x17 => decAB .iabs w
  | 0x18 => decABC .and w
  | 0x19 => decABC .or w
  | 0x1A => decABC .xor w
  | 0x1B => decABC .andn w
  | 0x1C => decABC .shl w
  | 0x1D => decABC .shr w
  | 0x1E => decABC .sar w
  | 0x1F => decABC .rol w
  | _ => .error .reservedOpcode

/-- Opcodes 0x20 to 0x2F (Table 2.15). -/
def decRow2 (w : Word) : Except Reject Instr :=
  match (fOp w).toNat with
  | 0x20 => decABC .bfe w
  | 0x21 => decABC .bfi w
  | 0x22 => decAB .popc w
  | 0x23 => decAB .clz w
  | 0x24 => decAB .brev w
  | 0x25 => decABC .sel w
  | 0x26 => decCmp .icmp w
  | 0x27 => decAB .mov w
  | 0x28 => decDI .iaddi w
  | 0x29 => decDI .movi w
  | 0x2A => decDI .movhi w
  | 0x2B => decDI .andi w
  | 0x2C => decDI .ori w
  | 0x2D => decDI .xori w
  | 0x2E => decDI .imuli w
  | _ => .error .reservedOpcode

/-- Opcodes 0x30 to 0x3F (Table 2.15). -/
def decRow3 (w : Word) : Except Reject Instr :=
  match (fOp w).toNat with
  | 0x30 => decABC .fadd w
  | 0x31 => decABC .fsub w
  | 0x32 => decABC .fmul w
  | 0x33 => decABC .ffma w
  | 0x34 => decABC .fmin w
  | 0x35 => decABC .fmax w
  | 0x36 => decAB .fabs w
  | 0x37 => decAB .fneg w
  | 0x38 => decCmp .fcmp w
  | 0x39 => decAB .frcp w
  | 0x3A => decAB .frsq w
  | 0x3B => decAB .fsqrt w
  | 0x3C => decAB .fexp2 w
  | 0x3D => decAB .flog2 w
  | 0x3E => decAB .fsin w
  | 0x3F => decAB .fcos w
  | _ => .error .reservedOpcode

/-- Opcodes 0x40 to 0x4F (Table 2.15). -/
def decRow4 (w : Word) : Except Reject Instr :=
  match (fOp w).toNat with
  | 0x40 => decAB .frnd w
  | 0x41 => decAB .ffrac w
  | 0x42 => do let d ← Dst.decode (fD w); let a ← Src.decode (fA w); need ((fB w).extractLsb' 7 1 = 0) .reservedField; let t ← ElemType.ofCode ((fB w).extractLsb' 0 4); return .cvt (bit1 (fU w)) d a (reg3 ((fB w).extractLsb' 4 3)) t
  | 0x43 => decABC .pack w
  | 0x44 => do let d ← Dst.decode (fD w); let a ← Src.decode (fA w); need ((fB w).extractLsb' 2 6 = 0) .reservedField; return .unpk (bit1 (fU w)) d a (bit1 ((fB w).extractLsb' 1 1)) (bit1 ((fB w).extractLsb' 0 1))
  | 0x45 => decABC .fdot2 w
  | 0x46 => decAB .fclass w
  | 0x47 => decDI .fmulb w
  | 0x48 => decLane3 .shfl w
  | 0x49 => decLane3 .shflx w
  | 0x4A => decLane3 .shflup w
  | 0x4B => do noU w; need ((fB w).extractLsb' 5 3 = 0 && (fB w).extractLsb' 2 2 = 0) .reservedField; let d ← PDst.decode (bit1 ((fB w).extractLsb' 4 1)) (fD w); let a ← Src.decode (fA w); let k ← VoteKind.ofCode ((fB w).extractLsb' 0 2); return .vote d a k
  | 0x4C => do noU w; need ((fB w).extractLsb' 4 4 = 0) .reservedField; let d ← Dst.decode (fD w); let a ← Src.decode (fA w); let o ← RedOp.ofCode ((fB w).extractLsb' 0 4); return .lred d a o
  | 0x4D => do noU w; need ((fB w).extractLsb' 4 3 = 0) .reservedField; let d ← Dst.decode (fD w); let a ← Src.decode (fA w); let o ← RedOp.ofCode ((fB w).extractLsb' 0 4); return .lscan d a (bit1 ((fB w).extractLsb' 7 1)) o
  | 0x4E => do noU w; need (fA w = 0 && (fB w).extractLsb' 5 3 = 0 && (fB w).extractLsb' 0 4 = 0) .reservedField; let d ← PDst.decode (bit1 ((fB w).extractLsb' 4 1)) (fD w); return .elect d
  | _ => .error .reservedOpcode

/-- Opcodes 0x50 to 0x5F (Table 2.15). -/
def decRow5 (w : Word) : Except Reject Instr :=
  match (fOp w).toNat with
  | 0x50 => decBar w
  | 0x51 => decSrcA .freeze w
  | 0x52 => decLnch w
  | 0x53 => do need ((fD w).extractLsb' 3 5 = 0) .reservedField; decLaunch .enq w
  | 0x54 => do noU w; need (fD w = 0 && (fImm w).extractLsb' 6 10 = 0) .reservedField; let k ← FenceKind.ofCode ((fImm w).extractLsb' 4 2); let sc ← Scope.ofCode ((fImm w).extractLsb' 0 4); return .fence k sc
  | 0x55 => do noU w; need (fD w = 0 && (fImm w).extractLsb' 14 2 = 0) .reservedField; let k ← FenceKind.ofCode ((fImm w).extractLsb' 12 2); let ca ← PathClass.ofCode ((fImm w).extractLsb' 8 4); let cb ← PathClass.ofCode ((fImm w).extractLsb' 4 4); let sc ← Scope.ofCode ((fImm w).extractLsb' 0 4); return .xfence k ca cb sc
  | 0x56 => decWaita w
  | 0x57 => do need (fD w = 0) .reservedField; let a ← Src.decode (fA w); let b ← Src.decode (fB w); return .ckick (bit1 (fU w)) a b
  | 0x58 => do need ((fImm w).extractLsb' 12 4 = 0) .reservedField; let d ← Dst.decode (fD w); return .csrr (bit1 (fU w)) d ((fImm w).extractLsb' 0 12)
  | 0x59 => decCsrw w
  | 0x5A => do let d ← quadDecode (fD w); let a ← quadDecode (fA w); let b ← quadDecode (fB w); return .mint (bit1 (fU w)) d a b
  | 0x5B => do need ((fD w).extractLsb' 3 5 = 0 && fB w = 0) .reservedField; let a ← quadDecode (fA w); return .xlat (bit1 (fU w)) (reg3 ((fD w).extractLsb' 0 3)) a
  | _ => .error .reservedOpcode

/-- Opcodes 0x60 to 0x6F (Table 2.15). -/
def decRow6 (w : Word) : Except Reject Instr :=
  match (fOp w).toNat with
  | 0x60 => decLd w
  | 0x61 => decSt w
  | 0x62 => decAtom w
  | 0x63 => decLds w
  | 0x64 => decSts w
  | 0x65 => decAtoms w
  | 0x66 => decLdc w
  | 0x67 => do need (fCtl w = 0) .reservedField; let d ← quadDecode (fD w); let a ← Src.decode (fB w); return .stc (bit1 (fU w)) d (reg3 (fX w)) a
  | 0x68 => decABC .tlook w
  | 0x69 => do need (fD w = 0) .reservedField; let a ← Src.decode (fA w); let b ← Src.decode (fB w); return .tset (bit1 (fU w)) a b
  | 0x6A => do need (fX w = 0 && (fCtl w).extractLsb' 0 3 = 0) .reservedField; let d ← Dst.decode (fD w); let sz ← LodSize.ofCode ((fCtl w).extractLsb' 3 2); let a ← Src.decode (fB w); return .ldlod (bit1 (fU w)) d sz a
  | 0x6B => decABC .sample w
  | 0x6C => decABC .sampleg w
  | 0x6D => do need (fD w = 0 && (fCtl w).extractLsb' 2 3 = 0) .reservedField; let k ← PrefKind.ofCode ((fCtl w).extractLsb' 0 2); let a ← Src.decode (fB w); return .pref (bit1 (fU w)) (reg3 (fX w)) k a
  | _ => .error .reservedOpcode

/-- Opcodes 0x70 to 0x7F (Table 2.15). -/
def decRow7 (w : Word) : Except Reject Instr :=
  match (fOp w).toNat with
  | 0x70 => decSregA .mloadb w
  | 0x71 => decSregA .mloop w
  | 0x72 => decSregA .mdrain w
  | 0x73 => do noU w; let d ← vregDecode (fD w); let a ← Src.decode (fA w); let b ← Src.decode (fB w); return .mdrainv d a b
  | 0x74 => do noU w; need (fD w = 0) .reservedField; let a ← Src.decode (fA w); let b ← Src.decode (fB w); return .mzero a b
  | 0x75 => do noU w; need ((fD w).extractLsb' 3 5 = 0 && fB w = 0) .reservedField; let a ← Src.decode (fA w); return .mscale (reg3 ((fD w).extractLsb' 0 3)) a
  | 0x76 => decVxm w
  | 0x78 => do noU w; let a ← vregDecode (fA w); let k ← TraceKind.ofCode ((fB w).extractLsb' 6 2); return .trace (fD w) a k (reg6 (fB w))
  | 0x79 => do noU w; need (fD w = 0 && (fB w).extractLsb' 6 2 = 0) .reservedField; let a ← Src.decode (fA w); return .hitret a (reg6 (fB w))
  | 0x7A => do noU w; let a ← vregDecode (fA w); let b ← vregDecode (fB w); return .repack (reg4 ((fD w).extractLsb' 4 4)) (reg4 ((fD w).extractLsb' 0 4)) a b
  | 0x7B => do noU w; need ((fD w).extractLsb' 1 7 = 0) .reservedField; let a ← sregDecode (fA w); return .visb (bit1 ((fD w).extractLsb' 0 1)) a (fB w)
  | 0x7C => do noU w; need (fD w = 0) .reservedField; let a ← vregDecode (fA w); let b ← Src.decode (fB w); return .cover a b
  | 0x7D => do noU w; need (fB w = 0) .reservedField; let d ← sregDecode (fD w); let a ← Src.decode (fA w); return .compose d a
  | _ => .error .reservedOpcode

/-- The fields of a word by its opcode (R39), before the checks of Instr.wf. -/
def decFields (w : Word) : Except Reject Instr :=
  if isHeader w then decHeader w
  else
    match (fOp w).toNat / 16 with
    | 0 => decRow0 w
    | 1 => decRow1 w
    | 2 => decRow2 w
    | 3 => decRow3 w
    | 4 => decRow4 w
    | 5 => decRow5 w
    | 6 => decRow6 w
    | 7 => decRow7 w
    | _ => .error .reservedOpcode

/-- The instruction a word encodes (R23 to R41). -/
def decodeWord (w : Word) : Except Reject Instr :=
  match decFields w with
  | .ok i => if i.wf then .ok i else .error .code
  | .error e => .error e

/-- The word of four bytes, little-endian (R8). -/
def wordOfBytes (b0 b1 b2 b3 : Byte) : Word := b3 ++ b2 ++ b1 ++ b0

/-- The instruction at the head of a list of bytes, and the bytes that follow. -/
def decodeBytes : List Byte → Except Reject (Instr × List Byte)
  | b0 :: b1 :: b2 :: b3 :: rest => (decodeWord (wordOfBytes b0 b1 b2 b3)).map fun i => (i, rest)
  | _ => .error .short

/-- The decoder's answer for a word numbered as spec/opcode_table.json numbers it (every row of a word is 32 bits). -/
def decodeTableWord (_nbits w : Nat) : Option Instr :=
  let x := BitVec.ofNat 32 w
  match decodeBytes [x.extractLsb' 0 8, x.extractLsb' 8 8, x.extractLsb' 16 8, x.extractLsb' 24 8] with
  | .ok (i, _) => some i
  | .error _ => none

/-- The word of an instruction (R18, R23, and the encodings of each description); zero for a step without a word. -/
def encode : Instr → Word
  | .clauseStart wait sa sb len => (255 : BitVec 8) ++ wait ++ flagCode sa ++ flagCode sb ++ bits4 len
  | .nop => wordA false 0x00 0 0 0
  | .exit => wordA false 0x01 0 0 0
  | .bra off => wordJ 0x02 off
  | .bc n p a off => wordC 0x03 n p a off
  | .bdiv n p off => wordC 0x04 n p false off
  | .setj off => wordJ 0x05 off
  | .join => wordA false 0x06 0 0 0
  | .call off => wordJ 0x07 off
  | .ret => wordA false 0x08 0 0 0
  | .brx a => wordA false 0x09 0 a.encode 0
  | .callx a => wordA false 0x0A 0 a.encode 0
  | .yield_ => wordA false 0x0B 0 0 0
  | .trap n => wordA false 0x0C 0 0 n
  | .tret => wordA false 0x0D 0 0 0
  | .mode imm => wordI false 0x0E 0 imm
  | .iadd u d a b => wordA u 0x10 d.encode a.encode b.encode
  | .isub u d a b => wordA u 0x11 d.encode a.encode b.encode
  | .imul u d a b => wordA u 0x12 d.encode a.encode b.encode
  | .imulh u d a b => wordA u 0x13 d.encode a.encode b.encode
  | .imad u d a b => wordA u 0x14 d.encode a.encode b.encode
  | .imin u d a b => wordA u 0x15 d.encode a.encode b.encode
  | .imax u d a b => wordA u 0x16 d.encode a.encode b.encode
  | .iabs u d a => wordA u 0x17 d.encode a.encode 0
  | .and u d a b => wordA u 0x18 d.encode a.encode b.encode
  | .or u d a b => wordA u 0x19 d.encode a.encode b.encode
  | .xor u d a b => wordA u 0x1A d.encode a.encode b.encode
  | .andn u d a b => wordA u 0x1B d.encode a.encode b.encode
  | .shl u d a b => wordA u 0x1C d.encode a.encode b.encode
  | .shr u d a b => wordA u 0x1D d.encode a.encode b.encode
  | .sar u d a b => wordA u 0x1E d.encode a.encode b.encode
  | .rol u d a b => wordA u 0x1F d.encode a.encode b.encode
  | .bfe u d a b => wordA u 0x20 d.encode a.encode b.encode
  | .bfi u d a b => wordA u 0x21 d.encode a.encode b.encode
  | .popc u d a => wordA u 0x22 d.encode a.encode 0
  | .clz u d a => wordA u 0x23 d.encode a.encode 0
  | .brev u d a => wordA u 0x24 d.encode a.encode 0
  | .sel u d a b => wordA u 0x25 d.encode a.encode b.encode
  | .icmp u c p a b => wordA u 0x26 (c.code ++ (0 : BitVec 1) ++ bits3 p) a.encode b.encode
  | .mov u d a => wordA u 0x27 d.encode a.encode 0
  | .iaddi u d imm => wordI u 0x28 d.encode imm
  | .movi u d imm => wordI u 0x29 d.encode imm
  | .movhi u d imm => wordI u 0x2A d.encode imm
  | .andi u d imm => wordI u 0x2B d.encode imm
  | .ori u d imm => wordI u 0x2C d.encode imm
  | .xori u d imm => wordI u 0x2D d.encode imm
  | .imuli u d imm => wordI u 0x2E d.encode imm
  | .fadd u d a b => wordA u 0x30 d.encode a.encode b.encode
  | .fsub u d a b => wordA u 0x31 d.encode a.encode b.encode
  | .fmul u d a b => wordA u 0x32 d.encode a.encode b.encode
  | .ffma u d a b => wordA u 0x33 d.encode a.encode b.encode
  | .fmin u d a b => wordA u 0x34 d.encode a.encode b.encode
  | .fmax u d a b => wordA u 0x35 d.encode a.encode b.encode
  | .fabs u d a => wordA u 0x36 d.encode a.encode 0
  | .fneg u d a => wordA u 0x37 d.encode a.encode 0
  | .fcmp u c p a b => wordA u 0x38 (c.code ++ (0 : BitVec 1) ++ bits3 p) a.encode b.encode
  | .frcp u d a => wordA u 0x39 d.encode a.encode 0
  | .frsq u d a => wordA u 0x3A d.encode a.encode 0
  | .fsqrt u d a => wordA u 0x3B d.encode a.encode 0
  | .fexp2 u d a => wordA u 0x3C d.encode a.encode 0
  | .flog2 u d a => wordA u 0x3D d.encode a.encode 0
  | .fsin u d a => wordA u 0x3E d.encode a.encode 0
  | .fcos u d a => wordA u 0x3F d.encode a.encode 0
  | .frnd u d a => wordA u 0x40 d.encode a.encode 0
  | .ffrac u d a => wordA u 0x41 d.encode a.encode 0
  | .pack u d a b => wordA u 0x43 d.encode a.encode b.encode
  | .fdot2 u d a b => wordA u 0x45 d.encode a.encode b.encode
  | .fclass u d a => wordA u 0x46 d.encode a.encode 0
  | .fmulb u d imm => wordI u 0x47 d.encode imm
  | .shfl d a b => wordA false 0x48 d.encode a.encode b.encode
  | .shflx d a b => wordA false 0x49 d.encode a.encode b.encode
  | .shflup d a b => wordA false 0x4A d.encode a.encode b.encode
  | .tlook u d a b => wordA u 0x68 d.encode a.encode b.encode
  | .sample u d a b => wordA u 0x6B d.encode a.encode b.encode
  | .sampleg u d a b => wordA u 0x6C d.encode a.encode b.encode
  | .mloadb a => wordA false 0x70 0 (sregEncode a) 0
  | .mloop a => wordA false 0x71 0 (sregEncode a) 0
  | .mdrain a => wordA false 0x72 0 (sregEncode a) 0
  | .cvt u d a pos t => wordA u 0x42 d.encode a.encode ((0 : BitVec 1) ++ bits3 pos ++ t.code)
  | .unpk u d a i4 hi => wordA u 0x44 d.encode a.encode ((0 : BitVec 6) ++ bool1 i4 ++ bool1 hi)
  | .vote d a k => wordA false 0x4B d.encode a.encode ((0 : BitVec 3) ++ bool1 d.pd ++ (0 : BitVec 2) ++ k.code)
  | .lred d a op => wordA false 0x4C d.encode a.encode ((0 : BitVec 4) ++ op.code)
  | .lscan d a ex op => wordA false 0x4D d.encode a.encode (bool1 ex ++ (0 : BitVec 3) ++ op.code)
  | .elect d => wordA false 0x4E d.encode 0 ((0 : BitVec 3) ++ bool1 d.pd ++ (0 : BitVec 4))
  | .barArrive a b => wordA false 0x50 0 a.encode b.encode
  | .barWait a => wordA false 0x50 1 a.encode 0
  | .barSync a b => wordA false 0x50 2 a.encode b.encode
  | .freeze a => wordA false 0x51 0 a.encode 0
  | .lnchW u x a => wordA u 0x52 ((0 : BitVec 4) ++ (1 : BitVec 1) ++ bits3 x) a.encode 0
  | .lnchN u x a => wordA u 0x52 ((0 : BitVec 4) ++ (0 : BitVec 1) ++ bits3 x) a.encode 0
  | .enq u x a => wordA u 0x53 ((0 : BitVec 5) ++ bits3 x) a.encode 0
  | .fence k sc => wordI false 0x54 0 ((0 : BitVec 10) ++ k.code ++ sc.code)
  | .xfence k ca cb sc => wordI false 0x55 0 ((0 : BitVec 2) ++ k.code ++ ca.code ++ cb.code ++ sc.code)
  | .waita u ne sc sp a =>
    match sp with
    | .global x => wordM u 0x56 ((0 : BitVec 3) ++ bool1 ne ++ sc.code) (bits3 x) 0 (sregEncode a)
    | .team => wordM u 0x56 ((0 : BitVec 3) ++ bool1 ne ++ sc.code) 0 0x10 (sregEncode a)
  | .ckick u a b => wordA u 0x57 0 a.encode b.encode
  | .csrr u d n => wordI u 0x58 d.encode ((0 : BitVec 4) ++ n)
  | .csrw u d n => wordI u 0x59 d.encode ((0 : BitVec 4) ++ n)
  | .resdrain u d => wordI u 0x59 d.encode 9
  | .mint u d a b => wordA u 0x5A (quadEncode d) (quadEncode a) (quadEncode b)
  | .xlat u n a => wordA u 0x5B ((0 : BitVec 5) ++ bits3 n) (quadEncode a) 0
  | .ld u d x sz h a => wordM u 0x60 d.encode (bits3 x) (sz.code ++ h.code) a.encode
  | .st u d x sz h a => wordM u 0x61 d.encode (bits3 x) (sz.code ++ h.code) a.encode
  | .atom u d x op w a => wordM u 0x62 d.encode (bits3 x) (op.code ++ bool1 w) a.encode
  | .atomNoreturn u x op w a => wordM u 0x62 255 (bits3 x) (op.code ++ bool1 w) a.encode
  | .lds u d sp sz a => wordM u 0x63 d.encode sp.code (sz.code ++ (0 : BitVec 2)) a.encode
  | .sts u d sp sz a => wordM u 0x64 d.encode sp.code (sz.code ++ (0 : BitVec 2)) a.encode
  | .atoms u d sp op w a => wordM u 0x65 d.encode sp.code (op.code ++ bool1 w) a.encode
  | .atomsNoreturn u sp op w a => wordM u 0x65 255 sp.code (op.code ++ bool1 w) a.encode
  | .ldcTable u d a => wordM u 0x66 (quadEncode d) 0 0 a.encode
  | .ldcMemory u d x a => wordM u 0x66 (quadEncode d) (bits3 x) 0x10 a.encode
  | .stc u d x a => wordM u 0x67 (quadEncode d) (bits3 x) 0 a.encode
  | .tset u a b => wordA u 0x69 0 a.encode b.encode
  | .ldlod u d sz a => wordM u 0x6A d.encode 0 (sz.code ++ (0 : BitVec 3)) a.encode
  | .pref u x k a => wordM u 0x6D 0 (bits3 x) ((0 : BitVec 3) ++ k.code) a.encode
  | .mdrainv d a b => wordA false 0x73 (vregEncode d) a.encode b.encode
  | .mzero a b => wordA false 0x74 0 a.encode b.encode
  | .mscale q a => wordA false 0x75 ((0 : BitVec 5) ++ bits3 q) a.encode 0
  | .vxm d a last b => wordA false 0x76 (vregEncode d) (BitVec.ofNat 8 ((if last then 64 else 0) + a.val)) b.encode
  | .trace m a k d => wordA false 0x78 m (vregEncode a) (k.code ++ BitVec.ofNat 6 d.val)
  | .hitret a d => wordA false 0x79 0 a.encode (vregEncode d)
  | .repack k n a b => wordA false 0x7A (bits4 k ++ bits4 n) (vregEncode a) (vregEncode b)
  | .visb c a m => wordA false 0x7B ((0 : BitVec 7) ++ bool1 c) (sregEncode a) m
  | .cover a b => wordA false 0x7C 0 (vregEncode a) b.encode
  | .compose d a => wordA false 0x7D (sregEncode d) a.encode 0
  | _ => 0

/-- The row of spec/opcode_table.json is a step of the device, which has no word. -/
def Instr.isStep : Instr → Bool
  | .waitaReread _ _ => true
  | .guttail _ _ => true
  | .guthead _ _ => true
  | .gutovf _ _ => true
  | .queueWrite _ _ _ _ => true
  | .sectionGrant _ _ => true
  | .gutterEntryPerformed _ => true
  | .engineCommandComplete _ _ => true
  | .unitResultWritten _ _ => true
  | .composeOptimise _ => true
  | .optimiseBoundExpiry _ => true
  | .loadSectorReturn _ _ _ => true
  | .storePerformed _ _ => true
  | .shootDown _ _ => true
  | .teamStart _ => true
  | .steal _ => true
  | .launchWaitComplete _ _ => true
  | .groupExchange _ _ => true
  | .starvationTimeout _ => true
  | .groupEvict _ _ => true
  | .groupReturn _ => true
  | .sheafMiss _ _ => true
  | .watchdog _ _ _ => true
  | .overrun _ _ => true
  | .periodStart _ _ => true
  | .preempt _ _ => true
  | .switchIn _ => true
  | .trapDelivery _ _ => true
  | .pathStopTimeout _ _ => true
  | .serviceResponse _ _ _ => true
  | .copyRequestFetch _ _ => true
  | .copyRequestPerform _ _ => true
  | .copyCompletion _ _ _ => true
  | .budgetPeriod => true
  | .drawRecord _ _ _ => true
  | .doorbell _ _ _ => true
  | .gridCompletion _ => true
  | .rangeRelease _ _ => true
  | .rangeAcquire _ _ => true
  | .hostAccess _ _ => true
  | .peerAccess _ _ _ => true
  | .flitRetry _ _ => true
  | .linkRetrain _ _ _ => true
  | .linkRetrainEnd _ => true
  | .calvenFailover => true
  | .channelSpare _ _ => true
  | .coreSpare _ => true
  | .coreLost _ => true
  | .uncorrectableError _ _ => true
  | .undervoltWindowEnd _ _ => true
  | .thermalSample _ => true
  | .sectionReassign _ _ => true
  | .energyApportion _ => true
  | .liveMigration _ => true
  | .contextCreate _ => true
  | .queueCreate _ => true
  | .domainForm _ _ => true
  | .reset _ => true
  | .plainJoinWritten _ _ => true
  | .sectionRampEnd _ => true
  | .channelCopyEnd _ _ => true
  | .deviceLeavesDomain _ => true
  | .codeObjectBind _ => true
  | .managementFirmwareLoad _ => true
  | _ => false

end Sys2Proof
end

