-- ==== Sys2Proof/Machine/Bits.lean ====
section
/-! DEFINITION. Plain helpers over numbers and bit vectors: lane masks, elements of a word, little-endian bytes,
integer square root, insertion into rising lists. -/
namespace Sys2Proof.Machine

/-- The value at `i`, or `d`. -/
def nth {α : Type} (l : List α) (i : Nat) (d : α) : α := (l[i]?).getD d

/-- The list with position `i` replaced. -/
def setNth {α : Type} : List α → Nat → α → List α
  | [], _, _ => []
  | _ :: l, 0, a => a :: l
  | b :: l, n + 1, a => b :: setNth l n a

/-- The list with position `i` set, made as long as that takes with `d`: read by `nth` with the same `d`, every other position
is as before. -/
def putNth {α : Type} (d : α) : List α → Nat → α → List α
  | [], 0, a => [a]
  | [], n + 1, a => d :: putNth d [] n a
  | _ :: l, 0, a => a :: l
  | b :: l, n + 1, a => b :: putNth d l n a

/-- Positions 0 to n − 1 in rising order. -/
def upto (n : Nat) : List Nat := List.range n

/-- The lanes of a mask, in rising order. -/
def lanesIn (m : DWord) : List Nat := (upto 64).filter (fun i => m.getLsbD i)

/-- The mask of the lanes below 64 for which `f` holds. -/
def maskOf (f : Nat → Bool) : DWord :=
  BitVec.ofNat 64 ((upto 64).foldl (fun acc i => if f i then acc + 2 ^ i else acc) 0)

/-- The mask of a list of lanes. -/
def maskFrom (l : List Nat) : DWord := maskOf (fun i => l.contains i)

/-- The lowest lane of a mask; 0 for an empty one. -/
def lowestLane (m : DWord) : Nat := (lanesIn m).headD 0

/-- 64 lane words from a function. -/
def tabulate (f : Nat → Word) : List Word := (upto 64).map f

/-- Low `n` bits of a number. -/
def lowBits (x n : Nat) : Nat := x % 2 ^ n

/-- Bits h down to l of a number. -/
def bits (x h l : Nat) : Nat := (x / 2 ^ l) % 2 ^ (h + 1 - l)

/-- Element `e` of width `w` of a word, as a binary value. -/
def elemNat (x : Word) (w e : Nat) : Nat := (x.toNat / 2 ^ (w * e)) % 2 ^ w

/-- The two's-complement value of an n-bit number. -/
def toSigned (n x : Nat) : Int := if x < 2 ^ (n - 1) then (x : Int) else (x : Int) - (2 ^ n : Nat)

/-- The low n bits of an integer. -/
def ofInt (n : Nat) (x : Int) : Nat := (x % ((2 ^ n : Nat) : Int)).toNat

/-- A word from its elements of width w, element 0 first. -/
def ofElems (w : Nat) (l : List Nat) : Word :=
  BitVec.ofNat 32 ((l.foldr (fun x acc => acc * 2 ^ w + x % 2 ^ w) 0))

/-- Little-endian value of bytes. -/
def leValue (l : List Byte) : Nat := l.foldr (fun b acc => acc * 256 + b.toNat) 0

/-- The n little-endian bytes of a value. -/
def leBytes : Nat → Nat → List Byte
  | 0, _ => []
  | n + 1, x => BitVec.ofNat 8 x :: leBytes n (x / 256)

/-- Largest r with r × r ≤ n, found from bit `k` downwards. -/
def isqrtFrom (n : Nat) : Nat → Nat → Nat
  | 0, r => if (r + 1) * (r + 1) ≤ n then r + 1 else r
  | k + 1, r => isqrtFrom n k (if (r + 2 ^ (k + 1)) * (r + 2 ^ (k + 1)) ≤ n then r + 2 ^ (k + 1) else r)

/-- Integer square root. -/
def isqrt (n : Nat) : Nat := isqrtFrom n (Nat.log2 n / 2 + 1) 0

/-- Insertion of a number into a strictly rising list. -/
def insertRising (x : Nat) : List Nat → List Nat
  | [] => [x]
  | y :: l => if x < y then x :: y :: l else if x = y then y :: l else y :: insertRising x l

/-- A number removed from a list. -/
def removeNat (x : Nat) (l : List Nat) : List Nat := l.filter (fun y => y ≠ x)

/-- Numbers without repeats, in order of first appearance. -/
def distinct : List Nat → List Nat
  | [] => []
  | x :: l => x :: (distinct l).filter (fun y => y ≠ x)

/-- `a` divided by `b`, rounded up. -/
def ceilDiv (a b : Nat) : Nat := (a + b - 1) / b

/-- `a` rounded up to a multiple of `b`. -/
def roundUpTo (a b : Nat) : Nat := ceilDiv a b * b

/-- Population count of the low n bits. -/
def popcount (n x : Nat) : Nat := (upto n).foldl (fun acc i => if x.testBit i then acc + 1 else acc) 0

/-- Sum of a list. -/
def sumNat (l : List Nat) : Nat := l.foldl (· + ·) 0

/-- `f` applied `n` times. -/
def iter {α : Type} (f : α → α) : Nat → α → α
  | 0, a => a
  | n + 1, a => iter f n (f a)

/-- The value stored for a key, or a default. -/
def assoc {β : Type} (l : List (Nat × β)) (k : Nat) (d : β) : β :=
  match l with
  | [] => d
  | (k', b) :: l => if k' = k then b else assoc l k d

/-- A key's value set in a list kept rising by key. -/
def assocSet {β : Type} (k : Nat) (b : β) : List (Nat × β) → List (Nat × β)
  | [] => [(k, b)]
  | (k', b') :: l => if k < k' then (k, b) :: (k', b') :: l else if k = k' then (k, b) :: l
    else (k', b') :: assocSet k b l

/-- A key removed. -/
def assocErase {β : Type} (k : Nat) (l : List (Nat × β)) : List (Nat × β) := l.filter (fun e => e.1 ≠ k)

/-- The first position at which a test holds. -/
def position {α : Type} (f : α → Bool) (l : List α) : Option Nat := l.findIdx? f

/-- Consecutive blocks of n, the last one shorter where the length is no multiple. `fuel` is the number of blocks. -/
def blocks {α : Type} (n : Nat) : Nat → List α → List (List α)
  | 0, _ => []
  | fuel + 1, l => l.take n :: blocks n fuel (l.drop n)

end Sys2Proof.Machine
end

