-- ==== Sys2Proof/Machine/Float.lean ====
section
/-! DEFINITION. Floating-point formats, exact values and the one rounding of every result (R43 to R49, R54, R55). -/
namespace Sys2Proof.Machine

/-- FPSTAT flags (Table 3.4). -/
abbrev FFlags := BitVec 6

/-- SATD. -/
def flSATD : FFlags := 32
/-- NV. -/
def flNV : FFlags := 16
/-- DZ. -/
def flDZ : FFlags := 8
/-- OF. -/
def flOF : FFlags := 4
/-- UF. -/
def flUF : FFlags := 2
/-- NX. -/
def flNX : FFlags := 1

/-- The six formats (Table 3.1). -/
inductive FFmt where
  | fp32 | fp16 | bf16 | e5m2 | e4m3 | e2m1
  deriving DecidableEq, Repr

/-- Bits of an encoding. -/
def FFmt.width : FFmt → Nat
  | .fp32 => 32 | .fp16 => 16 | .bf16 => 16 | .e5m2 => 8 | .e4m3 => 8 | .e2m1 => 4

/-- Fraction bits F. -/
def FFmt.frac : FFmt → Nat
  | .fp32 => 23 | .fp16 => 10 | .bf16 => 7 | .e5m2 => 2 | .e4m3 => 3 | .e2m1 => 1

/-- Bias. -/
def FFmt.bias : FFmt → Nat
  | .fp32 => 127 | .fp16 => 15 | .bf16 => 127 | .e5m2 => 15 | .e4m3 => 7 | .e2m1 => 1

/-- Encoding of the largest finite value, sign clear. -/
def FFmt.maxEnc : FFmt → Nat
  | .fp32 => 0x7F7FFFFF | .fp16 => 0x7BFF | .bf16 => 0x7F7F | .e5m2 => 0x7B | .e4m3 => 0x7E | .e2m1 => 0x7

/-- The canonical NaN; E2M1 has none and takes +0 (Table 3.6). -/
def FFmt.nan : FFmt → Nat
  | .fp32 => 0x7FC00000 | .fp16 => 0x7E00 | .bf16 => 0x7FC0 | .e5m2 => 0x7E | .e4m3 => 0x7F | .e2m1 => 0

/-- Whether the format has infinities. -/
def FFmt.hasInf : FFmt → Bool
  | .fp32 | .fp16 | .bf16 | .e5m2 => true
  | .e4m3 | .e2m1 => false

/-- Sign bit of an encoding, as a value. -/
def FFmt.signBit (f : FFmt) : Nat := 2 ^ (f.width - 1)

/-- Encoding of infinity, sign clear, in a format that has one. -/
def FFmt.infEnc (f : FFmt) : Nat := f.maxEnc + 1

/-- An exact value: a NaN (signalling or not), an infinity, or (−1)^neg × m × 2^e. -/
inductive FVal where
  | nan (signalling : Bool)
  | inf (neg : Bool)
  | fin (neg : Bool) (m : Nat) (e : Int)
  deriving DecidableEq, Repr

/-- A sign put on an encoding. -/
def FFmt.signed (f : FFmt) (neg : Bool) (x : Nat) : Nat := if neg then f.signBit + x else x

/-- The value of an encoding (R43, R47). -/
def FFmt.value (f : FFmt) (x : Nat) : FVal :=
  let neg := decide (f.signBit ≤ x % 2 ^ f.width)
  let mag := x % f.signBit
  if f.maxEnc < mag then
    if f.hasInf then
      if mag = f.infEnc then .inf neg
      else .nan (mag % 2 ^ f.frac < 2 ^ (f.frac - 1))
    else .nan false
  else
    let ex := mag / 2 ^ f.frac
    let fr := mag % 2 ^ f.frac
    if ex = 0 then .fin neg fr (1 - (f.bias : Int) - f.frac)
    else .fin neg (2 ^ f.frac + fr) ((ex : Int) - f.bias - f.frac)

/-- Whether a magnitude with quotient q and remainder state rounds up (Table 3.2). `rem` is compared with `half`:
below, equal or above. -/
def roundsUp (rnd : Nat) (neg : Bool) (q : Nat) (exact : Bool) (below tie : Bool) : Bool :=
  if exact then false
  else match rnd with
    | 0 => if below then false else if tie then q % 2 = 1 else true
    | 1 => false
    | 2 => neg
    | 3 => !neg
    | _ => !below

/-- m × 2^e, and a little more when `sticky`, rounded to a multiple of 2^lsb: the multiple and whether it is exact. -/
def roundAt (rnd : Nat) (neg : Bool) (m : Nat) (e lsb : Int) (sticky : Bool) : Nat × Bool :=
  if lsb ≤ e then
    let q := m * 2 ^ (e - lsb).toNat
    (q + (if roundsUp rnd neg q (!sticky) true false then 1 else 0), !sticky)
  else
    let sh := (lsb - e).toNat
    let q := m / 2 ^ sh
    let r := m % 2 ^ sh
    let half := 2 ^ (sh - 1)
    let exact := r = 0 && !sticky
    let up := roundsUp rnd neg q exact (r < half) (r = half && !sticky)
    (q + (if up then 1 else 0), exact)

/-- Overflow results (Table 3.3, R46). -/
def overflowed (f : FFmt) (rnd : Nat) (sat neg : Bool) : Nat × FFlags :=
  let toMax := match rnd with
    | 1 => true
    | 2 => !neg
    | 3 => neg
    | _ => false
  if sat then (f.signed neg f.maxEnc, flSATD ||| flOF ||| flNX)
  else if f = .e2m1 then (f.signed neg f.maxEnc, flSATD ||| flOF ||| flNX)
  else if toMax then (f.signed neg f.maxEnc, flOF ||| flNX)
  else if f.hasInf then (f.signed neg f.infEnc, flOF ||| flNX)
  else (f.nan, flOF ||| flNX)

/-- A nonzero exact value rounded once (R44 to R46). `sticky` says that the magnitude lies strictly between m and
m + 1 units of 2^e; m then has more bits than the format. -/
def roundFin (f : FFmt) (rnd : Nat) (sat neg : Bool) (m : Nat) (e : Int) (sticky : Bool) : Nat × FFlags :=
  if m = 0 && !sticky then (f.signed neg 0, 0)
  else
    let top := e + (Nat.log2 m : Int)
    let emin := 1 - (f.bias : Int) - f.frac
    let free := top - f.frac
    let lsb := if free < emin then emin else free
    let (q, exact) := roundAt rnd neg m e lsb sticky
    let enc := (lsb - emin).toNat * 2 ^ f.frac + q
    if f.maxEnc < enc then overflowed f rnd sat neg
    else
      let (qu, _) := roundAt rnd neg m e free sticky
      -- tiny: qu × 2^free is below 2^(emin + F)
      let tiny := decide (free < emin) && decide (qu * 1 < 2 ^ (emin + f.frac - free).toNat)
      (f.signed neg enc, (if exact then 0 else flNX) ||| (if tiny && !exact then flUF else 0))

/-- NaN result, with NV where asked. -/
def nanResult (f : FFmt) (nv : Bool) : Nat × FFlags := (f.nan, if nv then flNV else 0)

/-- Infinite result of infinite operands: SAT leaves it (R46). -/
def infResult (f : FFmt) (neg : Bool) : Nat × FFlags := (f.signed neg f.infEnc, 0)

/-- Infinite result of finite operands: SAT makes it the largest finite value (R46). -/
def poleResult (f : FFmt) (sat neg : Bool) (fl : FFlags) : Nat × FFlags :=
  if sat then (f.signed neg f.maxEnc, flSATD ||| fl) else (f.signed neg f.infEnc, fl)

/-- Signalling NaN operand. -/
def FVal.sig : FVal → Bool
  | .nan s => s
  | .inf _ => false
  | .fin _ _ _ => false

/-- A NaN. -/
def FVal.isNan : FVal → Bool
  | .nan _ => true
  | .inf _ => false
  | .fin _ _ _ => false

/-- Signed integer m of a finite value. -/
def sgn (neg : Bool) (m : Nat) : Int := if neg then -(m : Int) else m

/-- The sum of two exact finite values: sign, magnitude and exponent; the sign of a zero sum follows R45. -/
def exactSum (rnd : Nat) (n1 : Bool) (m1 : Nat) (e1 : Int) (n2 : Bool) (m2 : Nat) (e2 : Int) : Bool × Nat × Int :=
  let e := min e1 e2
  let t := sgn n1 (m1 * 2 ^ (e1 - e).toNat) + sgn n2 (m2 * 2 ^ (e2 - e).toNat)
  if t = 0 then (if n1 = n2 then n1 else rnd = 2, 0, e)
  else (decide (t < 0), t.natAbs, e)

/-- x × y + z with one rounding (R83, Table 5.2). -/
def fmaVal (f : FFmt) (rnd : Nat) (sat : Bool) (x y z : FVal) : Nat × FFlags :=
  let sig := x.sig || y.sig || z.sig
  let invalid := match x, y with
    | .inf _, .fin _ 0 _ => true
    | .fin _ 0 _, .inf _ => true
    | _, _ => false
  if x.isNan || y.isNan then nanResult f sig
  else if invalid then nanResult f true
  else if z.isNan then nanResult f sig
  else match x, y, z with
    | .fin n1 m1 e1, .fin n2 m2 e2, .fin n3 m3 e3 =>
      let (n, m, e) := exactSum rnd (n1 != n2) (m1 * m2) (e1 + e2) n3 m3 e3
      roundFin f rnd sat n m e false
    | .fin _ _ _, .fin _ _ _, .inf n => infResult f n
    | x, y, z =>
      let neg := match x, y with
        | .inf a, .inf b => a != b
        | .inf a, .fin b _ _ => a != b
        | .fin a _ _, .inf b => a != b
        | _, _ => false
      match z with
      | .inf n => if n = neg then infResult f neg else nanResult f true
      | _ => infResult f neg

/-- x + y (R83). -/
def addVal (f : FFmt) (rnd : Nat) (sat : Bool) (x y : FVal) : Nat × FFlags :=
  if x.isNan || y.isNan then nanResult f (x.sig || y.sig)
  else match x, y with
    | .fin n1 m1 e1, .fin n2 m2 e2 =>
      let (n, m, e) := exactSum rnd n1 m1 e1 n2 m2 e2
      roundFin f rnd sat n m e false
    | .inf a, .inf b => if a = b then infResult f a else nanResult f true
    | .inf a, _ => infResult f a
    | _, .inf b => infResult f b
    | _, _ => nanResult f false

/-- −x of a value. -/
def FVal.neg : FVal → FVal
  | .nan s => .nan s
  | .inf n => .inf (!n)
  | .fin n m e => .fin (!n) m e

/-- x × y (R83). -/
def mulVal (f : FFmt) (rnd : Nat) (sat : Bool) (x y : FVal) : Nat × FFlags :=
  if x.isNan || y.isNan then nanResult f (x.sig || y.sig)
  else match x, y with
    | .fin n1 m1 e1, .fin n2 m2 e2 => roundFin f rnd sat (n1 != n2) (m1 * m2) (e1 + e2) false
    | .inf a, .fin b m _ => if m = 0 then nanResult f true else infResult f (a != b)
    | .fin a m _, .inf b => if m = 0 then nanResult f true else infResult f (a != b)
    | .inf a, .inf b => infResult f (a != b)
    | _, _ => nanResult f false

/-- Order of two values that are no NaN: x < y, with −0 equal to +0 (R36). -/
def ltVal (x y : FVal) : Bool :=
  match x, y with
  | .nan _, _ => false
  | _, .nan _ => false
  | .inf a, .inf b => a && !b
  | .inf a, .fin _ _ _ => a
  | .fin _ _ _, .inf b => !b
  | .fin n1 m1 e1, .fin n2 m2 e2 =>
    let e := min e1 e2
    sgn n1 (m1 * 2 ^ (e1 - e).toNat) < sgn n2 (m2 * 2 ^ (e2 - e).toNat)

/-- Equality of two values (−0 = +0); false for NaN. -/
def eqVal (x y : FVal) : Bool :=
  !x.isNan && !y.isNan && !ltVal x y && !ltVal y x

/-- Sign of a value. -/
def FVal.isNeg : FVal → Bool
  | .nan _ => false
  | .inf n => n
  | .fin n _ _ => n

/-- FMIN (R84): −0 below +0, a NaN yields the other operand. -/
def minEnc (f : FFmt) (x y : Nat) : Nat × FFlags :=
  let vx := f.value x
  let vy := f.value y
  let fl := if vx.sig || vy.sig then flNV else 0
  if vx.isNan && vy.isNan then (f.nan, fl)
  else if vx.isNan then (y, fl)
  else if vy.isNan then (x, fl)
  else if ltVal vy vx || (eqVal vx vy && vy.isNeg) then (y, fl) else (x, fl)

/-- FMAX (R84). -/
def maxEnc (f : FFmt) (x y : Nat) : Nat × FFlags :=
  let vx := f.value x
  let vy := f.value y
  let fl := if vx.sig || vy.sig then flNV else 0
  if vx.isNan && vy.isNan then (f.nan, fl)
  else if vx.isNan then (y, fl)
  else if vy.isNan then (x, fl)
  else if ltVal vx vy || (eqVal vx vy && vx.isNeg) then (y, fl) else (x, fl)

/-- A float condition (Table 2.13). -/
def fcond (c : Cond) (x y : FVal) : Bool :=
  let un := x.isNan || y.isNan
  match c with
  | .eq => eqVal x y
  | .ne => !un && !eqVal x y
  | .lt => ltVal x y
  | .le => !un && !ltVal y x
  | .gt => ltVal y x
  | .ge => !un && !ltVal x y
  | .ord => !un
  | .uno => un
  | .ltu => un || ltVal x y
  | .leu => un || !ltVal y x
  | .gtu => un || ltVal y x
  | .geu => un || !ltVal x y
  | .equ => un || eqVal x y
  | .neo => !un && !eqVal x y
  | .tr => true
  | .fl => false

/-- 1/a (Table 5.3, R49). -/
def rcpVal (f : FFmt) (rnd : Nat) (sat : Bool) (x : FVal) : Nat × FFlags :=
  match x with
  | .nan s => nanResult f s
  | .inf n => (f.signed n 0, 0)
  | .fin n m e =>
    if m = 0 then poleResult f sat n flDZ
    else
      let k := Nat.log2 m + f.frac + 6
      roundFin f rnd sat n (2 ^ k / m) (-e - k) (2 ^ k % m != 0)

/-- √a. -/
def sqrtVal (f : FFmt) (rnd : Nat) (sat : Bool) (x : FVal) : Nat × FFlags :=
  match x with
  | .nan s => nanResult f s
  | .inf n => if n then nanResult f true else infResult f false
  | .fin n m e =>
    if m = 0 then (f.signed n 0, 0)
    else if n then nanResult f true
    else
      let odd := e % 2 != 0
      let e2 := if odd then e - 1 else e
      let m2 := (if odd then 2 * m else m) * 2 ^ (2 * (f.frac + 6))
      let r := isqrt m2
      roundFin f rnd sat false r (e2 / 2 - (f.frac + 6)) (r * r != m2)

/-- 1/√a. -/
def rsqVal (f : FFmt) (rnd : Nat) (sat : Bool) (x : FVal) : Nat × FFlags :=
  match x with
  | .nan s => nanResult f s
  | .inf n => if n then nanResult f true else (0, 0)
  | .fin n m e =>
    if m = 0 then poleResult f sat n flDZ
    else if n then nanResult f true
    else
      let odd := e % 2 != 0
      let e2 := if odd then e - 1 else e
      let m2 := if odd then 2 * m else m
      let k := Nat.log2 m2 + f.frac + 6
      let r := isqrt (2 ^ (2 * k) / m2)
      roundFin f rnd sat false r (-(e2 / 2) - k) (r * r * m2 != 2 ^ (2 * k))

/-- The integer that RND selects for m × 2^e: magnitude and whether it is exact. -/
def roundInt (rnd : Nat) (neg : Bool) (m : Nat) (e : Int) : Nat × Bool := roundAt rnd neg m e 0 false

/-- FRND (R89). -/
def rndVal (f : FFmt) (rnd : Nat) (x : FVal) : Nat × FFlags :=
  match x with
  | .nan s => nanResult f s
  | .inf n => infResult f n
  | .fin n m e =>
    let (q, exact) := roundInt rnd n m e
    ((roundFin f 1 false n q 0 false).1, if exact then 0 else flNX)

/-- FFRAC (R89): round(a − floor(a)). -/
def fracVal (f : FFmt) (rnd : Nat) (sat : Bool) (x : FVal) : Nat × FFlags :=
  match x with
  | .nan s => nanResult f s
  | .inf _ => nanResult f true
  | .fin n m e =>
    if 0 ≤ e then (0, 0)
    else
      let unit : Nat := 2 ^ (-e).toNat
      let r := m % unit
      let r := if n && r != 0 then unit - r else r
      roundFin f rnd sat false r e false

/-- Class mask of Table 5.5. -/
def classOf (f : FFmt) (x : Nat) : Nat :=
  match f.value x with
  | .nan s => if s then 256 else 512
  | .inf n => if n then 1 else 128
  | .fin n m _ =>
    if m = 0 then (if n then 8 else 16)
    else if m < 2 ^ f.frac then (if n then 4 else 32)
    else (if n then 2 else 64)

/-- Conversion of a value to a float format (Table 3.6). -/
def toFloat (f : FFmt) (rnd : Nat) (sat : Bool) (x : FVal) : Nat × FFlags :=
  match x with
  | .nan s => (f.nan, if s || f = .e2m1 then flNV else 0)
  | .inf n =>
    match f with
    | .e4m3 => if sat then (f.signed n f.maxEnc, flSATD) else (f.nan, flNV)
    | .e2m1 => (f.signed n f.maxEnc, flSATD)
    | .fp32 | .fp16 | .bf16 | .e5m2 => infResult f n
  | .fin n m e => roundFin f rnd sat n m e false

/-- Range of an integer element. -/
def intMin (signed : Bool) (w : Nat) : Int := if signed then -((2 ^ (w - 1) : Nat) : Int) else 0
/-- Range of an integer element. -/
def intMax (signed : Bool) (w : Nat) : Int :=
  if signed then ((2 ^ (w - 1) : Nat) : Int) - 1 else ((2 ^ w : Nat) : Int) - 1

/-- Conversion of a value to an integer element (R55, Table 3.6). -/
def toInteger (signed : Bool) (w rnd : Nat) (x : FVal) : Nat × FFlags :=
  match x with
  | .nan _ => (0, flNV ||| flSATD)
  | .inf n => (ofInt w (if n then intMin signed w else intMax signed w), flNV ||| flSATD)
  | .fin n m e =>
    let (q, exact) := roundInt rnd n m e
    let v := sgn n q
    if v < intMin signed w then (ofInt w (intMin signed w), flNV ||| flSATD)
    else if intMax signed w < v then (ofInt w (intMax signed w), flNV ||| flSATD)
    else (ofInt w v, if exact then 0 else flNX)

/-- The integer-to-integer conversion and clamp of R51 and R55. -/
def narrow (signed : Bool) (w : Nat) (sat : Bool) (x : Int) : Nat × FFlags :=
  if sat && decide (x < intMin signed w) then (ofInt w (intMin signed w), flSATD)
  else if sat && decide (intMax signed w < x) then (ofInt w (intMax signed w), flSATD)
  else (ofInt w x, 0)

/-- An integer as an exact value. -/
def intVal (x : Int) : FVal := .fin (decide (x < 0)) x.natAbs 0

/-- x rounded to FP32 with rne, no saturation (rne32 of R56). -/
def rne32 (neg : Bool) (m : Nat) (e : Int) : Word := BitVec.ofNat 32 (roundFin .fp32 0 false neg m e false).1

/-- The value of an FP32 word. -/
def f32 (w : Word) : FVal := FFmt.fp32.value w.toNat

/-- FP32 product, rne. -/
def mul32 (a b : Word) : Word := BitVec.ofNat 32 (mulVal .fp32 0 false (f32 a) (f32 b)).1
/-- FP32 sum, rne. -/
def add32 (a b : Word) : Word := BitVec.ofNat 32 (addVal .fp32 0 false (f32 a) (f32 b)).1
/-- FP32 difference, rne. -/
def sub32 (a b : Word) : Word := BitVec.ofNat 32 (addVal .fp32 0 false (f32 a) (f32 b).neg).1
/-- FP32 a × b + c, one rounding, rne. -/
def fma32 (a b c : Word) : Word := BitVec.ofNat 32 (fmaVal .fp32 0 false (f32 a) (f32 b) (f32 c)).1
/-- FP32 quotient, rne: the exact quotient rounded once. -/
def div32 (a b : Word) : Word :=
  match f32 a, f32 b with
  | .nan _, _ => 0x7FC00000
  | _, .nan _ => 0x7FC00000
  | .inf _, .inf _ => 0x7FC00000
  | .inf n, .fin k _ _ => BitVec.ofNat 32 (FFmt.fp32.signed (n != k) FFmt.fp32.infEnc)
  | .fin n _ _, .inf k => BitVec.ofNat 32 (FFmt.fp32.signed (n != k) 0)
  | .fin n m e, .fin k d g =>
    if d = 0 then
      if m = 0 then 0x7FC00000 else BitVec.ofNat 32 (FFmt.fp32.signed (n != k) FFmt.fp32.infEnc)
    else if m = 0 then BitVec.ofNat 32 (FFmt.fp32.signed (n != k) 0)
    else
      let sh := Nat.log2 d + 32
      BitVec.ofNat 32 (roundFin .fp32 0 false (n != k) (m * 2 ^ sh / d) (e - g - sh) (m * 2 ^ sh % d != 0)).1

/-- a < b on FP32 words; false with a NaN. -/
def lt32 (a b : Word) : Bool := ltVal (f32 a) (f32 b)
/-- a ≤ b on FP32 words; false with a NaN. -/
def le32 (a b : Word) : Bool := fcond .le (f32 a) (f32 b)

/-- The group total of R56 and R58: exact sum of aligned products, as an FP32 word and its flags. `wb` is the number of
magnitude bits of a B cell (8, or 16 in FDOT2). -/
def dotAlign (w : Nat) (l : List FVal) : Int × List Int :=
  let top := l.foldl (fun acc v => match v with
    | .fin _ m e => if m = 0 then acc else
        let t := e + (Nat.log2 m : Int)
        match acc with
        | none => some t
        | some u => some (max t u)
    | .inf _ => acc
    | .nan _ => acc) (none : Option Int)
  let ea := top.getD 0
  (ea, l.map (fun v => match v with
    | .fin n m e =>
      let sh := e + (w - 1 : Int) - ea
      let q := if 0 ≤ sh then m * 2 ^ sh.toNat else m / 2 ^ (-sh).toNat
      sgn n q
    | .inf _ => 0
    | .nan _ => 0))

/-- The exact sum of products of two aligned groups. -/
def dotSum : List Int → List Int → Int
  | a :: as, b :: bs => a * b + dotSum as bs
  | _, _ => 0

/-- g of R56 before the scale q: canonical NaN where an element is a NaN or infinite. -/
def groupTotal (wa wb : Nat) (a b : List FVal) : Nat × FFlags :=
  let special := fun (v : FVal) => match v with
    | .nan _ => true
    | .inf _ => true
    | .fin _ _ _ => false
  if a.any special || b.any special then (0x7FC00000, 0)
  else
    let (ea, ia) := dotAlign wa a
    let (eb, ib) := dotAlign wb b
    let s := dotSum ia ib
    roundFin .fp32 0 false (decide (s < 0)) s.natAbs (ea - wa + 1 + eb - wb + 1) false

end Sys2Proof.Machine
end

