-- ==== Sys2Proof/Config.lean ====
section
/-! DEFINITION. What the manual leaves open, as constants without a body: nothing can be proved of their values. -/
namespace Sys2Proof.Config

/-- Whether a cache or TLB entry is still held (R161, R170, R195): a free value per use, numbered by the state's
counter. (DESIGN CHOICE, log 8.) -/
opaque stillHeld : Nat → Bool

/-- Whether an early read sees, in a lane of a name with two pending returns, the value of the earlier one (R22), and whether an MLOOP
saw a byte of A before a later write of it (R251): a free choice per use and place. (DESIGN CHOICE, log 16.) -/
opaque showsEarlier : Nat → Nat → Bool

/-- Which hit an `any` TRACE returns, when several qualify (R265): an index per use. (DESIGN CHOICE, log 9.) -/
opaque anyHit : Nat → Nat

/-- Whether a walk visits a node or record under a box that its ray does not meet (R262): a free choice per use and
byte offset. (DESIGN CHOICE, log 9.) -/
opaque visits : Nat → Nat → Bool

/-- Last resort of a transcendental function whose interval does not settle the rounding: operation and encoding. (DESIGN CHOICE, log 15.) -/
opaque unsettled : Nat → Nat → Nat

/-- Reference clocks that pass in one idle step (R16: CLOCK is a count of a 1 GHz reference). (DESIGN CHOICE, log 10.) -/
opaque clockTick : Nat → Nat

/-- Instruction words of a yealm that the composer lays down (R350 gives their bounds, not their words): the
inputs' bytes and the word's index. (DEDUCED, log 14.) -/
opaque yealmWord : List Byte → Nat → Word

/-- Number of words that the composer lays down for a fragment, as a share of what R350 allows. (DEDUCED, log 14.) -/
opaque yealmWords : List Byte → Nat → Nat

/-- A number that the device is free to choose, one per use: a core among those that fit, the size of a save image, a tap count that no rule states. (DESIGN CHOICE, log 11.) -/
opaque freeNat : Nat → Nat

end Sys2Proof.Config
end

