-- ==== Sys2Proof/Machine/State.lean ====
section
/-! DEFINITION. The state of one SY-740, as plain data: paths, groups, teams, grids, cores, contexts, memory, the
engines' work in flight, sections, links and the host's queues; and the state after reset (R348). -/
namespace Sys2Proof.Machine

/-- Trap causes (R301, Table 21.1). -/
inductive Cause where
  | illegal | illtype | clause | misalign | bounds | perm | captag | page | discard | spill
  | template | tcopy | lnchwait | window | barrier | matrix | watchdog | overrun | poison
  | trap (n : Byte)
  deriving DecidableEq, Repr

/-- The clause in force on a path: SETA, SETB and the words still to issue, the next one included (R18, R306). -/
structure ClauseState where
  seta : Option (Fin 12)
  setb : Option (Fin 12)
  left : Nat
  deriving DecidableEq, Repr

/-- A cause with what a frame says of it (R176, R306). `pc` is the word that raised it (R307). -/
structure Trap where
  cause : Cause
  sub : Byte := 0
  fmask : DWord := 0
  faddr : DWord := 0
  pc : Word := 0
  /-- Place among the faults of the device, in the order they were raised (R305). -/
  seq : Nat := 0
  /-- For a user trap: its path's slot, and the clause that it stands in (R79). -/
  user : Option (Nat × ClauseState) := none
  deriving DecidableEq, Repr

/-- A translation register (R156, Table 9.3). -/
structure XReg where
  base : BitVec 56 := 0
  perm : Byte := 0
  bound : BitVec 40 := 0
  type : Byte := 0
  frame : BitVec 48 := 0
  extent : BitVec 40 := 0
  deriving DecidableEq, Repr

/-- One mapping of a v name: its 64 lane words, the sheaf it is shared with, and the physical register it is (R107, R143,
R151): a number of its own, the maker's and a count. -/
structure VMap where
  lanes : List Word
  sheaf : Option Nat := none
  reg : Nat × Nat := (0, 0)
  deriving DecidableEq, Repr

/-- A path set: what BDIV places or pushes (R102, Table 6.3 kind 0). `pjoin` none is 0xFFFF_FFFF (R118). -/
structure PathSet where
  pc : Word
  pjoin : Option Word
  mask : DWord
  mode : Half
  /-- Instructions in flight that the set issued and that count on no flag (R105, R129), and the T-path reads that a RESDRAIN
  of it waits for (R192). -/
  owns : List Nat := []
  drain : List Nat := []
  deriving DecidableEq, Repr

/-- A spill stack entry (R103, Table 6.3): a path set, or a pending join saved by SETJ. -/
inductive SpillEntry where
  | pathSet (p : PathSet)
  | savedJoin (pc : Word)
  deriving DecidableEq, Repr

/-- Where a path is parked (R101). The number is the instruction it waits for. -/
inductive Park where
  | running
  | join (since : Nat)
  | barrier (id : Nat)
  | waita (id : Nat)
  | launchWait (id : Nat)
  | sheafMiss
  /-- EXIT has issued; the path leaves its slot once nothing that it issued can fault (R77). -/
  | exit
  deriving DecidableEq, Repr

/-- A path slot's state (R11, Table 2.1). `flags` are f0 to f11. `stopped` holds after a fault (R304). -/
structure Path where
  pc : Word
  mask : DWord
  mode : Half := 0
  pjoin : Option Word := none
  flags : List (BitVec 6)
  clause : Option ClauseState := none
  park : Park := .running
  stopped : Bool := false
  /-- RESDRAIN issued and not yet drained: the T-path reads that it waits for (R192). -/
  drain : List Nat := []
  deriving DecidableEq, Repr

/-- How far a store has gone (R178): in the group's store queue, or performed at core scope. -/
inductive Stage where
  | queued | atCore
  deriving DecidableEq, Repr

/-- Where an instruction in flight stands. -/
inductive PendStatus where
  | inFlight
  /-- A service trap is with the management cores (R302). -/
  | service (t : Trap)
  /-- It faulted and waits for its frame (R305). -/
  | faulted (t : Trap)
  /-- A restored entry that only waits (R305, R311). -/
  | waitOnly
  deriving DecidableEq, Repr

/-- Consecutive physical bytes of one access, with the memory type of their page (R160). A page that is discarded
has no address: it reads zero (R164). -/
structure Run where
  pa : Option Nat
  len : Nat
  mtype : Nat
  deriving DecidableEq, Repr

/-- The access of one lane: its offset and the physical bytes, in order. -/
structure LaneAccess where
  lane : Nat
  off : Word
  runs : List Run
  deriving DecidableEq, Repr

/-- An element of a resource: its byte offset through the resource's capability, and its bytes in memory (R198). -/
structure TexElem where
  off : Nat
  runs : List Run
  deriving DecidableEq, Repr

/-- One term of a filter sum (R209): a texel with its weight, FORMAT, element and index in the element; a border texel; FLOOR. -/
inductive TexTerm where
  | texel (w format : Nat) (e : TexElem) (t : Nat)
  | border (w : Nat)
  | floor (w : Nat) (word : Word)
  deriving DecidableEq, Repr

/-- What a lane's registers receive from a T-path read: given words; the first words of an element; or the sums over N samples. -/
inductive TexData where
  | words (l : List Word)
  | element (e : TexElem) (n : Nat)
  | filter (n : Nat) (l : List TexTerm)
  deriving DecidableEq, Repr

/-- A gutter entry to produce: descriptor index, wanted level, status, page of the wanted level (R200). -/
structure GutterWant where
  desc : Word
  want : Nat
  served : Nat
  page : Nat
  deriving DecidableEq, Repr

/-- What a lane of a T-path read has resolved and is still to read: its data, its status word, its gutter entries, and the 64 KiB
virtual pages whose translation it uses (R162, R195). -/
structure TexLane where
  lane : Nat
  data : TexData
  status : Word
  entries : List GutterWant
  pages : List Nat
  deriving DecidableEq, Repr

/-- A variable-latency instruction in flight (R19, R303, R308): the operands it read at issue, the registers it
still writes, and what remains of it. -/
structure Pend where
  id : Nat
  instr : Instr
  pc : Word
  mode : Half
  lmask : DWord
  half : Nat
  owner0 : Bool
  owner1 : Bool
  flag : Option (Fin 12)
  /-- The translation register used (R307, XCAP). -/
  xcap : Option XReg := none
  /-- v registers read, in the order of R308. -/
  vops : List (List Word) := []
  /-- Scalar and special values read, in the order of R308, and the tag of a captured quad. -/
  sops : List Word := []
  stag : Bool := false
  /-- q[Q] captured at issue (R250). -/
  qcap : Word := 0
  /-- v destinations with the lanes that are still this instruction's to write (R22). -/
  vdst : List (Nat × DWord) := []
  sdst : List Nat := []
  lanes : List LaneAccess := []
  /-- Lane elements not yet returned or performed: (lane, element). -/
  todo : List (Nat × Nat) := []
  /-- Physical registers that the return writes (R107). -/
  regs : List (Nat × Nat) := []
  /-- The lanes of a T-path read that has consulted the residency map and is still to read its data (R195). -/
  tex : List TexLane := []
  /-- Scratchpad cells and copied lines as an MLOOP has seen them so far (R251). -/
  seen : Option (List Host.Cell × List Nat) := none
  /-- Values read and not yet written: the destination's place, its lanes still to write, and the 64 lane words (R22). -/
  due : List (Nat × DWord × List Word) := []
  /-- The tag bit that a returned quad takes (R155). -/
  dueTag : Bool := false
  /-- Gutter entries that a T-path read gives as it completes: descriptor, wanted level, status and page (R200, R232). -/
  gutters : List GutterWant := []
  /-- Sector entries that it took at issue (R173). -/
  sectors : Nat := 0
  /-- The trap that a service has answered last: the replay that meets it again has it forwarded (R302). -/
  served : Option Trap := none
  stage : Stage := .queued
  status : PendStatus := .inFlight
  /-- Grids launched (R133), the barrier index and phase recorded (R128), or a copy kick's list. -/
  aux : List Nat := []
  deriving DecidableEq, Repr

/-- The private copy of a live frame (R309). -/
structure LiveFrame where
  frame : Nat
  /-- The trap it delivered (R307). -/
  trap : Trap
  entries : List Pend
  ssave : List Word
  stag : Bool
  spillDepth : Nat
  /-- What a RESDRAIN of the path in slot 0, and of that in slot 1, waits for (R192). -/
  drains : List Nat × List Nat := ([], [])
  /-- The path in slot 0, and that in slot 1, waits at its pending join without a JOIN word (R122). -/
  joined : Bool × Bool := (false, false)
  deriving DecidableEq, Repr

/-- A copy request that stopped and waits to be delivered (R310). -/
structure AsyncStop where
  trap : Trap
  reqOffset : Word
  delivered : Word
  deriving DecidableEq, Repr

/-- The scalar state of a group, or of one half of a ganged group (R12, R110). -/
structure Bank where
  s : List Word
  /-- Tag bit of each aligned quad (R155). -/
  stag : List Bool
  x : List XReg
  q : List Word
  unmapped : Bool := false
  fpstat : BitVec 6 := 0
  trapvec : Word := 0xFFFFFFFC
  trapframe : BitVec 24 := 0
  /-- Spill stack, the top first (R103). -/
  spill : List SpillEntry := []
  /-- Precise faults raised and not yet delivered, the earliest first (R304). -/
  raised : List Trap := []
  asyncStops : List AsyncStop := []
  /-- The live frame, from delivery until TRET completes (R306). -/
  live : Option LiveFrame := none
  deriving DecidableEq, Repr

/-- A hit of a ray (R265). Values are FP32 encodings. -/
structure RayHit where
  t : Word
  u : Word
  v : Word
  prim : Nat
  inst : Nat
  det : Bool
  deriving DecidableEq, Repr

/-- A hit with what identifies its triangle. -/
structure TriHit where
  hit : RayHit
  alpha : Bool
  tag : Nat × Nat
  deriving DecidableEq, Repr

/-- A box: low and high bounds by axis, FP32 (R261). -/
structure Box where
  lo : List Word
  hi : List Word
  deriving DecidableEq, Repr

/-- An instance: its record's offset, id and transform (Table 17.3). -/
structure InstRec where
  off : Nat
  id : Nat
  t : List Word
  deriving DecidableEq, Repr

/-- What a part of a walk starts at (R260). -/
inductive WalkKind where
  | node | triangle | instanceRecord
  deriving DecidableEq, Repr

/-- A part of a walk that is still to be made (R268): a node or record of x6, the instance it lies in, the box it lies under in
the world (none counts as met), and how many nodes deeper the walk may go. -/
structure WalkItem where
  kind : WalkKind
  off : Nat
  inst : Option InstRec
  box : Option Box
  depth : Nat
  deriving DecidableEq, Repr

/-- Candidate state of a lane (R268): its walk, which is the BVH's register, the parts still to visit, and the hits of the parts
visited; of the hits, `shown` holds the record offset and the instance of each candidate presented. `unit` is the ridge
unit that holds the state, 8 for each die. -/
structure Candidate where
  lane : Nat
  ray : List Word
  mask : Byte
  x6 : XReg
  unit : Nat
  tcur : Word
  best : Option RayHit
  pending : RayHit
  shown : List (Nat × Nat)
  left : List WalkItem
  hits : List TriHit
  deriving DecidableEq, Repr

/-- An interface entry of a stage (Table 18.2). -/
structure IfaceEntry where
  name : Word
  reg : Nat
  sys : Bool
  opt : Bool
  out : Bool
  interp : Nat
  comps : Nat
  type : Nat
  deriving DecidableEq, Repr

/-- A state reference (Table 18.3): fragment, lowest bit, width, s register. -/
structure StateRef where
  frag : Nat
  pos : Nat
  len : Nat
  sreg : Nat
  deriving DecidableEq, Repr

/-- A stage object as COMPOSE has read it (R277 to R280). -/
structure ComposeStage where
  code : List Word
  iface : List IfaceEntry
  refs : List StateRef
  deriving DecidableEq, Repr

/-- A vertex attribute (Table 18.7). -/
structure Attr where
  name : Word
  offset : Nat
  fmt : Nat
  comps : Nat
  deriving DecidableEq, Repr

/-- State fragments (R281), each as its bits; the vertex format's attributes read out. -/
structure Fragments where
  raster : Nat := 0
  depth : Nat := 0
  blend : Nat := 0
  vfmt : Nat := 0
  stride : Nat := 0
  attrs : List Attr := []
  deriving DecidableEq, Repr

/-- A body of a yealm (R285, R289): its offset from the head, its words, the places of its stretches of glue and of the pieces of
code that stand between them, and the outputs that it keeps, in the order of their areas (R350). -/
structure YealmBody where
  off : Nat
  words : List Word
  glueAt : List Nat
  codeAt : List Nat
  slots : List IfaceEntry
  deriving DecidableEq, Repr

/-- A yealm that a composer has written: its bodies, and what they do (R287). The words of the glue are the composer's own choice
(R350); a draw of the same words has this effect. -/
structure Yealm where
  id : Nat
  vs : ComposeStage
  fs : ComposeStage
  frags : Fragments
  plain : YealmBody
  comp : Option YealmBody := none
  deriving DecidableEq, Repr

/-- Where a group of a draw stands in its body (R287): what the glue does next. -/
inductive GluePhase where
  | prologue
  | vertex
  | vertexDone (mask : DWord)
  | firstBar
  | cover
  | secondBar
  | load
  | tri (k : Nat)
  | passed (k : Nat)
  | triDone (k : Nat) (mask : DWord)
  | finish
  deriving DecidableEq, Repr

/-- The glue of a group of a draw: its yealm, which body it runs, the code offset of its head, its phase, the code offset where that
step is made, the JOIN that a called stage returns to, the draw block that it has loaded, and per lane the depth and
colour it holds. -/
structure Glue where
  yealm : Nat
  composed : Bool
  head : Word
  phase : GluePhase := .prologue
  here : Word
  join : Option Word := none
  block : Nat := 0
  depth : List Word := []
  colour : List Word := []
  deriving DecidableEq, Repr

/-- Where a group is (R109, R111, R314). -/
inductive Residency where
  | active | pending | evicted | preempted
  deriving DecidableEq, Repr

/-- A group (R12, R97). A native group uses `bank0`; each half of a ganged group uses its own (R110). -/
structure Group where
  id : Nat
  grid : Nat
  team : Nat
  /-- Index in the team, counted in native groups (R98). -/
  index : Nat
  core : Nat
  pos : Nat
  res : Residency := .active
  ganged : Bool := false
  opclass : BitVec 2 := 0
  v : List (Option VMap)
  p : List DWord
  bank0 : Bank
  bank1 : Bank
  slot0 : Option Path
  slot1 : Option Path
  /-- Record per barrier nb0 to nb31 and cb0 to cb3: the phase of the latest arrival, and whether it has completed
  (R128). -/
  bars : List (Option (Bool × Bool))
  depth : Nat := 0
  /-- The sheaf it was stamped from (R139), and the nested sheaf it holds (R147). -/
  sheaf : Option Nat := none
  nested : Option Nat := none
  cands : List Candidate := []
  /-- The glue of a draw's body (R287). -/
  glue : Option Glue := none
  pend : List Pend := []
  /-- Groups that must issue a whole clause before this one issues again (R113), and whether the path of slot 0, and that of
  slot 1, has started one since. -/
  owed : List (Nat × Bool × Bool) := []
  /-- The slot whose SETJ waits to demote the other path, which starts no further clause (R119). -/
  demote : Option Nat := none
  /-- Words issued in the watchdog period (R114), and the place of its last word among those of the device (R112). -/
  issued : Nat := 0
  /-- It has had an eligible path since the watchdog period began (R114). -/
  hungry : Bool := false
  lastIssue : Nat := 0
  /-- Free registers that its slot must hold before the device admits it: a stamped group's VREGS hint (R109). -/
  roomFor : Nat := 0
  /-- Physical registers taken so far (R107). -/
  nextReg : Nat := 0
  /-- CLOCK before which an evicted group does not return (R316). -/
  awayUntil : Nat := 0
  /-- Poisoned words of v registers: name and lane (R346). -/
  poisonV : List (Nat × Nat) := []
  /-- It waits for a sheaf that its core or its slot does not hold, whatever its paths wait for beside (R144, R151). -/
  missing : Bool := false
  deriving DecidableEq, Repr

/-- A named barrier (R128). -/
structure Barrier where
  phase : Bool := false
  count : Option Nat := none
  arrivals : Nat := 0
  deriving DecidableEq, Repr

/-- A 32 × 32 region of the loft (R243): cell (i, j) is at index 32i + j. -/
structure LoftRegion where
  plane : Nat
  k : Nat
  n : Nat
  integer : Bool
  cells : List Int
  eb : List Int
  exceptional : List Bool
  deriving DecidableEq, Repr

/-- A team (R97, R98). -/
structure Team where
  id : Nat
  grid : Nat
  index : Nat
  gx : Nat
  gy : Nat
  gz : Nat
  core : Nat
  /-- Scratchpad window; an unlisted offset reads zero (R165). -/
  scratch : List Host.Cell := []
  scratchSize : Nat
  cow : Nat
  /-- Poisoned words, by word number (R346). -/
  poisonWords : List Nat := []
  /-- The sheaf whose lines are frozen in the window, and the lines copied so far (R145, R146). -/
  frozen : Option Nat := none
  copied : List Nat := []
  nbar : Nat
  bars : List Barrier
  accrows : Nat
  /-- Accumulator cells, key 512 × row + column; an unlisted cell is zero (R245). -/
  acc : List (Nat × Word) := []
  loftMode : Nat
  /-- Regions written since team start; any other holds zero cells, EB 0, no mark, float (R243). -/
  loft : List LoftRegion := []
  tags : Nat
  /-- Tag-table entries (R166); an unlisted one is zero. -/
  tagTab : List (Nat × DWord) := []
  preempted : Bool := false
  /-- While it is saved it keeps its places on its core, to which alone it returns: the core's index goes to a spare (R333), or it
  was moved there for heat (R347). -/
  keeps : Bool := false
  /-- The save image's VERSION and SIZE while one is held (R258). -/
  image : Option (Nat × Nat) := none
  ended : Bool := false
  /-- Samples since it was last migrated for heat (R347: 20 ms is 200). -/
  cool : Nat := 200
  deriving DecidableEq, Repr

/-- The cluster barriers cb0 to cb3 of one cluster (R128), named by the team indices it is made of. -/
structure ClusterBars where
  grid : Nat
  cx : Nat
  cy : Nat
  cz : Nat
  bars : List Barrier
  deriving DecidableEq, Repr

/-- A launch parameter block (R115, Table 6.7). -/
structure Lpb where
  param : QWord := 0
  paramTag : Bool := false
  tags : Nat := 0
  queue : Nat := 0
  sheaf : Nat := 0
  opclass : Nat := 0
  width32 : Bool := false
  loft : Nat := 0
  vregs : Nat := 0
  accrows : Nat := 0
  cow : Nat := 0
  scratch : Nat := 0
  nbar : Nat := 0
  clh : Nat := 1
  clw : Nat := 1
  groups : Nat := 1
  gz : Nat := 1
  gy : Nat := 1
  gx : Nat := 1
  entryOff : Word := 0
  entrySlot : Nat := 0
  deriving DecidableEq, Repr

/-- What launched a grid (R115, R130, R329). -/
inductive Launcher where
  | hostQueue (ctx queue entry : Nat)
  | program (g id : Nat) (wait : Bool)
  deriving DecidableEq, Repr

/-- A grid (R97). -/
structure Grid where
  id : Nat
  ctx : Nat
  lpb : Lpb
  codeCap : QWord
  /-- The header where its groups start: ENTRY_OFF, or the target of DISPATCH for a draw (R286). -/
  start : Word
  launcher : Launcher
  draw : Bool := false
  /-- The yealm whose words a draw runs, where a composer wrote them. -/
  yealm : Option Nat := none
  /-- The host queue's grid that it descends from, by which best-effort work is placed (R313). -/
  launch : Nat := 0
  /-- The payload of an ENQ, copied to the team's scratchpad (R131). -/
  payload : List Byte := []
  /-- The sheaf its groups are stamped from: inherited (R147), or captured by instance 0 (R141). -/
  sheaf : Option Nat := none
  /-- SHEAF = 1 and no prologue freeze yet (R138). -/
  prologue : Bool := false
  /-- Teams not started. -/
  waiting : Nat := 0
  /-- Status of R329: 0 done, 1 refused, 2 double fault, 3 core lost. -/
  status : Nat := 0
  /-- Tile teams of an ordered draw: its SEQ (R325). -/
  seq : Option Nat := none
  completed : Bool := false
  deriving DecidableEq, Repr

/-- A deque record: teams `first` to `first + count - 1` of a grid (R134); for a draw, the die that owns them (R324). -/
structure DequeRecord where
  grid : Nat
  first : Nat
  count : Nat
  die : Option Nat := none
  deriving DecidableEq, Repr

/-- A sheaf (R139, R148, R149, R152). -/
structure Sheaf where
  id : Nat
  ctx : Nat
  grid : Nat
  v : List (Option VMap)
  s : List Word
  stag : List Bool
  p : List DWord
  x : List XReg
  mode : Half
  pjoin : Option Word
  mask : DWord
  trapvec : Word
  lines : Nat
  scratch : List Host.Cell
  /-- Poisoned words that it captured: of v registers, name and lane; of the frozen lines, by word number (R346). -/
  poisonV : List (Nat × Nat) := []
  poisonWords : List Nat := []
  depth : Nat
  /-- Where a stamped group starts: the header after FREEZE (R141). -/
  start : Word
  /-- Core and issue slot of the group that froze it, where its registers are (R143, R144). -/
  home : Nat × Nat := (0, 0)
  /-- The TYPE 5 capability that names its image (R152). -/
  imageCap : QWord
  /-- Discarded by its group; kept while a launch or a group uses it (R147, R151). -/
  dropped : Bool := false
  deriving DecidableEq, Repr

/-- A copy request fetched and not finished (R235, R238): the 512 bits, and how far it has gone. -/
structure CopyReq where
  id : Nat
  ctx : Nat
  grid : Nat
  team : Nat
  group : Nat
  half : Nat
  offset : Nat
  bits : BitVec 512
  src : QWord
  dst : QWord
  /-- Source bytes delivered, and the stretches of the request that are not: first source byte, in the order of the rows, and
  length (R238). -/
  done : Nat := 0
  gaps : List (Nat × Nat) := []
  /-- The stretch that its service trap holds back (R302). -/
  piece : Option (Nat × Nat) := none
  /-- Destination bytes counted down on the barrier object (R239). -/
  mapDone : Bool := false
  counted : Nat := 0
  service : Option Trap := none
  deriving DecidableEq, Repr

/-- A translation held in a TLB (R161). -/
structure TlbEntry where
  ctx : Nat
  page : Nat
  /-- Leaf entry and its level. -/
  leaf : DWord
  level : Nat
  deriving DecidableEq, Repr

/-- A key of a texture unit's gutter filter (R200). -/
structure FilterKey where
  ctx : Nat
  desc : Word
  want : Nat
  page : Nat
  deriving DecidableEq, Repr

/-- A store performed at core scope and not yet at its coherence point (R178): its group and instruction, or the group and
number of the copy request that made it (R240), with its grid; its bytes by physical address, in order, and the granules whose
tag it sets. The core's loads do not see what its copy engine wrote before it is there (R170). -/
structure CoreWrite where
  group : Nat
  pend : Nat
  bytes : List (Nat × Byte)
  tagged : List Nat := []
  engine : Bool := false
  grid : Nat := 0
  deriving DecidableEq, Repr

/-- A core (R97, R134, R149, R161, R170, R200, R333, R347). -/
structure Core where
  deque : List DequeRecord := []
  /-- Sectors held by the read cache, by physical sector number (R170), and by the texture unit (R195). -/
  readCache : List (Nat × List Byte) := []
  /-- Stores performed at core scope, the oldest first. -/
  buffer : List CoreWrite := []
  texCache : List (Nat × List Byte) := []
  tlb : List TlbEntry := []
  /-- Sheaves installed, the latest use first; at most 8 (R149). -/
  store : List Nat := []
  filter : List FilterKey := []
  copies : List CopyReq := []
  /-- Logical core marked absent (R335), and remapped to a spare (R333). -/
  absent : Bool := false
  remapped : Bool := false
  temp : Nat := 0
  deriving DecidableEq, Repr

/-- An optimisation that a die's composer has queued (R289). -/
structure OptJob where
  yealm : Nat
  /-- The group that issued the COMPOSE. -/
  group : Nat := 0
  /-- The context, and the 64 KiB pages of the output. -/
  ctx : Nat := 0
  pages : List Nat := []
  /-- The output's bytes, and how many there are. -/
  runs : List Run
  outLen : Nat
  /-- Writes made so far: the body, DISPATCH, COMP_OFF. -/
  step : Nat := 0
  deriving DecidableEq, Repr

/-- A die: its shared TLB (R161), sectors that its ridge units hold (R227, R276), the composer's optimisation queue
(R289), spare cores in use (R337). -/
structure Die where
  tlb : List TlbEntry := []
  ridge : List (Nat × List Byte) := []
  /-- Sectors that the composer holds (R227, R291). -/
  comp : List (Nat × List Byte) := []
  optQueue : List OptJob := []
  sparesUsed : Nat := 0
  deriving DecidableEq, Repr

/-- A section (R341, R344, R345, R346, R347). Supplies in mV. -/
structure Section where
  cls : Nat := 0
  supply : Nat := 350
  floor : Nat := 310
  grant : Nat := 8
  ramping : Bool := false
  /-- Stopped above 105 degrees (R347). -/
  hot : Bool := false
  /-- Samples since the section took its class (R347: 20 ms is 200). -/
  dwell : Nat := 200
  /-- Classes that it lost for its heat and has not regained (R347). -/
  dropped : Nat := 0
  deriving DecidableEq, Repr

/-- A valley link (R322, R323): spare lanes in use per direction, flits sent again in this ms. -/
structure Link where
  spare0 : Nat := 0
  spare1 : Nat := 0
  narrow0 : Bool := false
  narrow1 : Bool := false
  retries : Nat := 0
  retraining : Bool := false
  deriving DecidableEq, Repr

/-- A context queue's scheduling registers (R313, Table 21.8) and, for a host queue, its ring (R329). -/
structure Queue where
  id : Nat
  period : Word := 0
  budget : Word := 0
  consumed : Nat := 0
  overrun : Bool := false
  host : Bool := false
  base : Nat := 0
  size : Nat := 0
  ordered : Bool := false
  /-- Tail count the host last wrote, and entries launched so far. -/
  tail : Nat := 0
  next : Nat := 0
  /-- Per die, the SEQ whose record it takes next (R325). -/
  dieSeq : List Nat := [0, 0, 0, 0]
  deriving DecidableEq, Repr

/-- A context (R155, R199, R313, R316, R317, R318). -/
structure Context where
  id : Nat
  ctxid : Nat
  root : Nat
  feature : Word
  miggen : Word := 0
  energy : Word := 0
  /-- Context capability table: slot, capability, tag; an unlisted slot is empty (R155). -/
  slots : List (Nat × QWord × Bool) := []
  /-- Slots whose code capability the loader recorded with width 32 (R340). -/
  width32 : List Nat := []
  queues : List Queue := []
  overflow : List DequeRecord := []
  gutBase : Nat := 0
  gutSize : Nat := 64
  guthead : Word := 0
  guttail : Word := 0
  gutovf : Word := 0
  /-- Gutter entries accepted and not yet performed at board scope, the oldest first: the instruction that gave rise to it, its
  core, and the entry (R200). -/
  gutPending : List (Nat × Nat × QWord) := []
  watchdogMs : Nat := 10
  watchdogAction : Nat := 1
  /-- 64 KiB virtual ranges held by the host (R330). -/
  hostRanges : List Nat := []
  /-- Budgets set, source and value (R327, R242); none by default. -/
  budgets : List (Resource × Nat) := []
  /-- Budget used in the current period. -/
  spent : List (Resource × Nat) := []
  deriving DecidableEq, Repr

/-- What takes the next step: an event of the device or of the outside world, or the issue slot of a number
(4 × core + slot), which gets a clock (R111). -/
inductive Turn where
  | event (i : Instr)
  | slot (n : Nat)
  deriving DecidableEq, Repr

/-- The management cores' log (R301, R307, R316, R346). -/
inductive LogEntry where
  | watchdog (ctx queue core slot group : Nat) (clock : DWord)
  | overrun (ctx queue die core : Nat) (clock : DWord)
  /-- `paths` are the path records of Table 21.4. -/
  | doubleFault (grid : Nat) (first second : Trap) (paths : List Nat)
  | forwarded (group : Nat) (t : Trap)
  | poison (ctx : Nat)
  | refusedObject (ctx : Nat)
  deriving DecidableEq, Repr

/-- The health record (R337, Table 23.7). -/
structure Health where
  rststep : Nat := 0
  standby : Bool := false
  chspare : List Nat
  coresLost : List (BitVec 16)
  sparesUsed : List Nat
  deriving DecidableEq, Repr

/-- The machine. -/
structure State where
  /-- Device memory, the host's window and the peers' window by physical address (R171, R328); an unlisted byte
  reads zero (R348, step 6). -/
  mem : List Host.Cell
  /-- Granules whose validity tag is set (R154), and sectors marked poisoned (R172); both rising. -/
  tags : List Nat
  poison : List Nat
  contexts : List Context
  grids : List Grid
  teams : List Team
  clusters : List ClusterBars
  groups : List Group
  sheaves : List Sheaf
  /-- Records of clusters of more than one team, which the management cores place (R134). -/
  placements : List DequeRecord
  /-- The yealms that composers have written. -/
  yealms : List Yealm
  cores : List Core
  dies : List Die
  sections : List Section
  links : List Link
  /-- Channels being copied onto a spare: (stack, channel) (R336). -/
  channelCopies : List (Nat × Nat)
  health : Health
  /-- Load-store domain: own index, and the members (R331). -/
  domain : Option Nat
  members : List Nat
  clock : DWord
  /-- The boundary of CLOCK, in ms, at which ENERGY last rose (R343). -/
  energyAt : Nat
  log : List LogEntry
  /-- Reset has been completed and the firmware is loaded (R348). -/
  ready : Bool
  firmware : Bool
  /-- The step of the reset sequence in progress that will fail; 0 for none. -/
  resetFail : Nat
  /-- The path that issued the last word, or issues the next: group and slot; and the path that issued the previous
  word of each issue slot (R111). -/
  cur : Option (Nat × Nat)
  slotLast : List (Nat × (Nat × Nat))
  /-- Words issued so far. -/
  issues : Nat
  /-- What takes the next steps, the first first; empty, the machine chooses itself. -/
  agenda : List Turn
  /-- Numbers for new instructions, groups, teams, grids, sheaves and requests. -/
  fresh : Nat
  /-- The model's own counter of free values (Config). -/
  freeCount : Nat
  deriving DecidableEq, Repr

/-- Why the machine stops. -/
inductive Fault where
  /-- Raised by HOST_ACCESS and PEER_ACCESS for a physical address that is no device memory (R171, R328): the manual
  gives no such address. Safe: the model stops where the hardware has no such access. -/
  | noSuchAddress (pa : Nat)
  deriving DecidableEq, Repr

/-- Why the model gives no meaning. -/
inductive Refusal where
  /-- Raised by an arm of exec whose instruction has no meaning yet. Safe: nothing is claimed of it. -/
  | notModelled (mnemonic : String)
  deriving DecidableEq, Repr

/-- The state after the twelve steps of R348: every memory byte zero, no tag, no poison, every section at class 0 with
its floor lowest and grant 8, no context; the device is ready. (DESIGN CHOICE where the rules give no value, logs 6 and 7.) -/
def State.reset : State where
  mem := []
  tags := []
  poison := []
  contexts := []
  grids := []
  teams := []
  clusters := []
  groups := []
  sheaves := []
  placements := []
  yealms := []
  cores := List.replicate 256 {}
  dies := List.replicate 4 {}
  sections := List.replicate 8 {}
  links := List.replicate 6 {}
  channelCopies := []
  health := { chspare := List.replicate 8 0, coresLost := List.replicate 4 0, sparesUsed := List.replicate 4 0 }
  domain := none
  members := []
  clock := 0
  energyAt := 0
  log := []
  ready := true
  firmware := true
  resetFail := 0
  cur := none
  slotLast := []
  issues := 0
  agenda := []
  fresh := 0
  freeCount := 0

end Sys2Proof.Machine
end

