-- ==== Sys2Proof/Machine/Memory.lean ====
section
/-! DEFINITION. Memory by physical address in one canonical form, validity tags and poison (R154, R171, R172),
capabilities and translation registers (R153 to R158), pages, walks and TLBs (R159 to R164), caches (R170, R195) and
scratchpad (R165, R145, R146). -/
namespace Sys2Proof.Machine

/-- What an unlisted address reads as (R348, step 6: every byte of memory is zero after reset). (DESIGN CHOICE outside device memory, log 4.) -/
def unlisted : Byte := 0

/-- One byte of memory. -/
def memGet : List Host.Cell → Nat → Byte
  | [], _ => unlisted
  | (k, b) :: m, a => if k = a then b else memGet m a

/-- One byte written; a byte equal to what an unlisted address reads as is not listed. -/
def memSet (a : Nat) (b : Byte) : List Host.Cell → List Host.Cell
  | [] => if b = unlisted then [] else [(a, b)]
  | (k, c) :: m =>
    if a < k then (if b = unlisted then (k, c) :: m else (a, b) :: (k, c) :: m)
    else if a = k then (if b = unlisted then m else (a, b) :: m)
    else (k, c) :: memSet a b m

/-- Addresses at or above `lo`, strictly rising, and no listed byte equal to the unlisted one. -/
def Memory.wfFrom (lo : Nat) : List Host.Cell → Bool
  | [] => true
  | (k, b) :: m => decide (lo ≤ k) && decide (b ≠ unlisted) && Memory.wfFrom (k + 1) m

/-- The canonical form of a memory. -/
def Memory.wf (m : List Host.Cell) : Bool := Memory.wfFrom 0 m

/-- Consecutive bytes. -/
def memRead (m : List Host.Cell) (a : Nat) : Nat → List Byte
  | 0 => []
  | n + 1 => memGet m a :: memRead m (a + 1) n

/-- Consecutive bytes written. -/
def memWrite (m : List Host.Cell) (a : Nat) : List Byte → List Host.Cell
  | [] => m
  | b :: l => memWrite (memSet a b m) (a + 1) l

/-- Bytes written at listed addresses, the first first. -/
def memWriteList (m : List Host.Cell) : List (Nat × Byte) → List Host.Cell
  | [] => m
  | (a, b) :: l => memWriteList (memSet a b m) l

/-- Sector of a physical address (R172). -/
def sectorOf (pa : Nat) : Nat := pa / 32

/-- Last byte of device memory, plus one (R171). -/
def deviceMemoryEnd : Nat := 0x6000000000

/-- Exclusive or of the three-bit fields of an address that start at `lo + step × k`, for k below n. -/
def foldBits (pa lo step : Nat) : Nat → Nat
  | 0 => 0
  | n + 1 => (pa / 2 ^ (lo + step * n) % 8) ^^^ foldBits pa lo step n

/-- The home index of a 4 KiB granule (R171): its die is bits 2:1, its stack on the die bit 0. -/
def homeIndex (pa : Nat) : Nat := foldBits pa 12 3 12

/-- The L2 slice of a line (R171). -/
def homeSlice (pa : Nat) : Nat := foldBits pa 7 9 5

/-- The logical channel of a sector within its stack (R171). (PRESUMED, log 44.) -/
def channelOf (pa : Nat) : Nat := pa / 32 % 128

/-- Memory type that a physical address has by its window, with the leaf's 0 or 1 inside device memory (Table 23.4a). -/
def windowType (pa leafType : Nat) : Option Nat :=
  if pa < deviceMemoryEnd then (if leafType ≤ 1 then some leafType else none)
  else if 0x400000000000 ≤ pa ∧ pa < 0x800000000000 then (if leafType = 2 then some 2 else none)
  else if 0x800000000000 ≤ pa ∧ pa < 0x900000000000 ∧ pa % 0x8000000000 < deviceMemoryEnd then
    (if leafType = 3 then some 3 else none)
  else none

/-- Domain index of a peer-window address. -/
def peerOf (pa : Nat) : Nat := pa / 0x8000000000 % 32

/-- A peer-window address that names the device itself is served from its own memory (R331). -/
def State.homeAddress (s : State) (pa : Nat) : Nat :=
  if 0x800000000000 ≤ pa ∧ s.domain = some (peerOf pa) then pa % 0x8000000000 else pa

/-- The address lies in the window of a device that is no member of the domain (R332). -/
def State.peerGone (s : State) (pa : Nat) : Bool :=
  decide (0x800000000000 ≤ pa) && !(s.members.contains (peerOf pa)) && !(s.domain = some (peerOf pa))

/-- The channel of an address is being copied onto a spare: accesses to it wait (R336). -/
def State.channelBusy (s : State) (pa : Nat) : Bool :=
  decide (pa < deviceMemoryEnd) && s.channelCopies.contains (homeIndex pa, channelOf pa)

/-- The valley link between two dies: links are 0–1, 0–2, 0–3, 1–2, 1–3, 2–3 (R337). -/
def linkBetween (a b : Nat) : Option Nat :=
  match min a b, max a b with
  | 0, 1 => some 0 | 0, 2 => some 1 | 0, 3 => some 2 | 1, 2 => some 3 | 1, 3 => some 4 | 2, 3 => some 5
  | _, _ => none

/-- The link between two dies retrains: what crosses it is held (R323). -/
def State.linkHeld (s : State) (a b : Nat) : Bool :=
  match linkBetween a b with
  | some l => (nth s.links l {}).retraining
  | none => false

/-- An access of a core to an address waits: its channel is being copied (R336), or the link to its home die retrains (R323). -/
def State.pathHeld (s : State) (core pa : Nat) : Bool :=
  s.channelBusy pa || (decide (pa < deviceMemoryEnd) && s.linkHeld (core / 64) (homeIndex pa / 2))

/-- Some access of a die waits: a channel is being copied, or a link of the die retrains. What a unit or a long walk is to read is
not known before it reads, so that it waits whatever it is to read. (DESIGN CHOICE, log 72.) -/
def State.dieHeld (s : State) (die : Nat) : Bool :=
  !s.channelCopies.isEmpty || (upto 4).any (fun d => s.linkHeld die d)

/-- Bytes at their coherence point. -/
def State.readPhys (s : State) (pa n : Nat) : List Byte := memRead s.mem pa n

/-- Little-endian value at the coherence point. -/
def State.physValue (s : State) (pa n : Nat) : Nat := leValue (s.readPhys pa n)

/-- A sector is poisoned (R172). -/
def State.poisoned (s : State) (pa n : Nat) : Bool :=
  s.poison.any (fun x => decide (sectorOf pa ≤ x) && decide (x ≤ sectorOf (pa + n - 1)))

/-- Bytes written at their coherence point: granule tags are cleared (R154), a sector whose every byte is written is no
longer poisoned (R172), and every read-cache copy is left as it is (R170). -/
def State.writePhys (s : State) (l : List (Nat × Byte)) : State :=
  let granules := distinct (l.map (fun e => e.1 / 16))
  let whole := (distinct (l.map (fun e => sectorOf e.1))).filter (fun x =>
    (upto 32).all (fun i => l.any (fun e => e.1 = 32 * x + i)))
  { s with
    mem := memWriteList s.mem l
    tags := s.tags.filter (fun g => !granules.contains g)
    poison := s.poison.filter (fun x => !whole.contains x) }

/-- Consecutive addresses for a list of bytes. -/
def withAddresses (a : Nat) : List Byte → List (Nat × Byte)
  | [] => []
  | b :: l => (a, b) :: withAddresses (a + 1) l

/-- Consecutive bytes written at their coherence point. -/
def State.writeBytes (s : State) (pa : Nat) (l : List Byte) : State := s.writePhys (withAddresses pa l)

/-- The tag of the granule that holds an address. -/
def State.tagAt (s : State) (pa : Nat) : Bool := s.tags.contains (pa / 16)

/-- A granule's tag set, after its bytes are written. -/
def State.setTag (s : State) (pa : Nat) : State := { s with tags := insertRising (pa / 16) s.tags }

/-! ### Capabilities (R153) -/

/-- Permission bits (Table 9.2). -/
def permR : Byte := 1
/-- W. -/
def permW : Byte := 2
/-- X. -/
def permX : Byte := 4
/-- A. -/
def permA : Byte := 8
/-- L. -/
def permL : Byte := 16
/-- K. -/
def permK : Byte := 32
/-- M. -/
def permM : Byte := 64
/-- G. -/
def permG : Byte := 128

/-- Base. -/
def capBase (c : QWord) : BitVec 56 := c.extractLsb' 0 56
/-- Permissions. -/
def capPerm (c : QWord) : Byte := c.extractLsb' 56 8
/-- Length. -/
def capLength (c : QWord) : BitVec 40 := c.extractLsb' 64 40
/-- Object type. -/
def capType (c : QWord) : Byte := c.extractLsb' 104 8
/-- A capability from its fields. -/
def mkCap (type : Byte) (len : BitVec 40) (perm : Byte) (base : BitVec 56) : QWord :=
  (0 : BitVec 16) ++ type ++ len ++ perm ++ base

/-- Validity (R153). -/
def capValid (c : QWord) : Bool :=
  decide ((capBase c).toNat + (capLength c).toNat ≤ 2 ^ 56) && decide ((capType c).toNat ≤ 5) &&
    decide (c.extractLsb' 112 16 = 0)

/-- Has every bit of a permission set. -/
def hasPerm (p need : Byte) : Bool := p &&& need = need

/-- The four words of a capability, low first. -/
def capWords (c : QWord) : List Word :=
  [c.extractLsb' 0 32, c.extractLsb' 32 32, c.extractLsb' 64 32, c.extractLsb' 96 32]

/-- 128 bits of four words. -/
def quadBits (w : List Word) : QWord := nth w 3 0 ++ nth w 2 0 ++ nth w 1 0 ++ nth w 0 0

/-- 128 bits at a physical address. -/
def State.physQuad (s : State) (pa : Nat) : QWord := BitVec.ofNat 128 (s.physValue pa 16)

/-! ### Pages and walks (R159, R160) -/

/-- Outcome of a walk. -/
inductive Walk where
  | leaf (entryAt : Nat) (entry : DWord) (level : Nat)
  | absent
  | malformed
  deriving DecidableEq, Repr

/-- Index field of a virtual address at a level (Table 9.5). -/
def vaIndex (va level : Nat) : Nat := va / 2 ^ (16 + 10 * level) % 1024

/-- Bytes a leaf of a level maps. -/
def leafSpan (level : Nat) : Nat := 2 ^ (16 + 10 * level)

/-- Physical base of a leaf. -/
def leafFrame (e : DWord) : Nat := bits e.toNat 47 16 * 65536

/-- Memory type of a leaf. -/
def leafMtype (e : DWord) : Nat := bits e.toNat 11 10

/-- A well-formed leaf at a level (R159, R160, R328). -/
def leafOk (e : DWord) (level : Nat) : Bool :=
  bits e.toNat 63 48 = 0 && bits e.toNat 15 12 = 0 && bits e.toNat 9 9 = 0 && level ≤ 2 &&
    leafFrame e % leafSpan level = 0 && (windowType (leafFrame e) (leafMtype e)).isSome

/-- A walk from level `n − 1` down, reading table entries at the L2. An entry with V = 0 is absent whatever its other bits are.
(DESIGN CHOICE, log 69.) -/
def walkFrom (m : List Host.Cell) (va : Nat) : Nat → Nat → Walk
  | 0, _ => .malformed
  | level + 1, table =>
    let at_ := table + 8 * vaIndex va level
    let e : DWord := BitVec.ofNat 64 (leValue (memRead m at_ 8))
    if !e.getLsbD 0 then .absent
    else if e.getLsbD 1 then
      if leafOk e level then .leaf at_ e level else .malformed
    else if bits e.toNat 63 48 = 0 && bits e.toNat 12 2 = 0 && level ≠ 0 then
      walkFrom m va level (bits e.toNat 47 13 * 8192)
    else .malformed

/-- The walk of a context. -/
def State.walk (s : State) (c : Context) (va : Nat) : Walk := walkFrom s.mem va 4 c.root

/-- The table entries that a walk reads. -/
def walkPlaces (m : List Host.Cell) (va : Nat) : Nat → Nat → List Nat
  | 0, _ => []
  | level + 1, table =>
    let at_ := table + 8 * vaIndex va level
    let e : DWord := BitVec.ofNat 64 (leValue (memRead m at_ 8))
    if e.getLsbD 0 && !e.getLsbD 1 then at_ :: walkPlaces m va level (bits e.toNat 47 13 * 8192) else [at_]

/-- Leaf bits (Table 9.6). -/
def leafR (e : DWord) : Bool := e.getLsbD 2
/-- W. -/
def leafW (e : DWord) : Bool := e.getLsbD 3
/-- X. -/
def leafX (e : DWord) : Bool := e.getLsbD 4
/-- AC. -/
def leafAC (e : DWord) : Bool := e.getLsbD 5
/-- D. -/
def leafD (e : DWord) : Bool := e.getLsbD 6
/-- DISC. -/
def leafDisc (e : DWord) : Bool := e.getLsbD 7
/-- LOD. -/
def leafLod (e : DWord) : Bool := e.getLsbD 8

/-! ### Contexts -/

/-- A context by number. -/
def State.context? (s : State) (c : Nat) : Option Context := s.contexts.find? (fun x => x.id = c)

/-- A context replaced. -/
def State.setContext (s : State) (c : Context) : State :=
  { s with contexts := s.contexts.map (fun x => if x.id = c.id then c else x) }

/-- A core. -/
def State.coreAt (s : State) (c : Nat) : Core := nth s.cores c {}

/-- A core replaced. -/
def State.setCore (s : State) (c : Nat) (v : Core) : State := { s with cores := setNth s.cores c v }

/-- A die. -/
def State.dieAt (s : State) (d : Nat) : Die := nth s.dies d {}

/-- A die replaced. -/
def State.setDie (s : State) (d : Nat) (v : Die) : State := { s with dies := setNth s.dies d v }

/-- A new number. -/
def State.newId (s : State) : Nat × State := (s.fresh, { s with fresh := s.fresh + 1 })

/-- The next free value's number. -/
def State.nextFree (s : State) : State := { s with freeCount := s.freeCount + 1 }

/-! ### Translation (R156 to R164) -/

/-- The permission an access needs of its translation register, and of a leaf. -/
inductive Need where
  | load | store | fetch | atomic | lod
  deriving DecidableEq, Repr

/-- The register permission (R158, step 2). -/
def Need.perm : Need → Byte
  | .load => permR | .store => permW | .fetch => permX | .atomic => permA | .lod => permL

/-- The access writes (R161, R164). -/
def Need.writes : Need → Bool
  | .store | .atomic => true
  | .load | .fetch | .lod => false

/-- The leaf's check (R158, step 4): its R, W or X, for the permission named; an ATOM, which names two, needs none of them.
(DESIGN CHOICE, log 70.) -/
def Need.leafOk (n : Need) (e : DWord) : Bool :=
  match n with
  | .load => leafR e
  | .store => leafW e
  | .fetch => leafX e
  | .atomic => true
  | .lod => leafR e

/-- What one page gives an access. -/
inductive PageRes where
  | ok (run : Run) (entryAt : Option Nat)
  | perm (sub : Byte)
  | page (sub : Byte)
  | discard (entryAt : Option Nat)
  deriving DecidableEq, Repr

/-- A held translation of a page that the access is free to use (R161, R162). -/
def tlbFind (l : List TlbEntry) (ctx page : Nat) (writes : Bool) : Option TlbEntry :=
  l.find? (fun t => t.ctx = ctx && t.page = page && (!writes || leafD t.leaf || leafDisc t.leaf))

/-- Translation of the bytes va to va + n − 1, all in one 64 KiB page. A TLB entry, where one is held, stands for the
walk; whether it is still held is free. -/
def State.translatePage (s : State) (core : Nat) (c : Context) (need : Need) (va n : Nat) : PageRes :=
  let page := va / 65536
  let held := match tlbFind ((s.coreAt core).tlb ++ (s.dieAt (core / 64)).tlb) c.id page need.writes with
    | some t => if Config.stillHeld s.freeCount then some t else none
    | none => none
  let w := match held with
    | some t => Walk.leaf 0 t.leaf t.level
    | none => s.walk c va
  if c.hostRanges.contains page then .perm 1
  else
    match w with
    | .absent => .page 1
    | .malformed => .page 2
    | .leaf at_ e level =>
      let marks := if held.isSome then none else some at_
      if !need.leafOk e then .perm 0
      else if leafDisc e then
        if need.writes then .discard marks else .ok { pa := none, len := n, mtype := leafMtype e } marks
      else .ok { pa := some (s.homeAddress (leafFrame e + va % leafSpan level)), len := n, mtype := leafMtype e } marks

/-- What the bytes o to o + n − 1 through a register reach waits: a table entry that their walks read, or a byte of them (R323,
R336). -/
def State.rangeHeld (s : State) (core : Nat) (c : Context) (x : XReg) (o n : Nat) : Bool :=
  (!s.channelCopies.isEmpty || s.links.any Link.retraining) &&
    (upto ((x.base.toNat + o + n - 1) / 65536 - (x.base.toNat + o) / 65536 + 1)).any (fun i =>
      let va := max (x.base.toNat + o) (65536 * ((x.base.toNat + o) / 65536 + i))
      let len := min (x.base.toNat + o + n) (65536 * (va / 65536 + 1)) - va
      (walkPlaces s.mem va 4 c.root).any (s.pathHeld core) || (match s.walk c va with
        | .leaf _ e level => (upto (va % 32 + len)).any (fun j =>
            s.pathHeld core (leafFrame e + va / 32 * 32 % leafSpan level + j))
        | .absent => false
        | .malformed => false))

/-- The physical address of a byte through the run of a translation register (R158, step 3), with the memory type of its
window; inside device memory the leaf's own type, where it stands. -/
def State.runAt (s : State) (c : Context) (x : XReg) (o n : Nat) : Run :=
  let pa := x.frame.toNat + o
  let mt := match s.walk c (x.base.toNat + o) with
    | .leaf _ e _ => leafMtype e
    | .absent => 0
    | .malformed => 0
  { pa := some (s.homeAddress pa), len := n,
    mtype := if pa < deviceMemoryEnd then (if mt = 1 then 1 else 0) else if pa < 0x800000000000 then 2 else 3 }

/-- AC, and D for a write, set in a leaf by an atomic update at its L2 home (R161). -/
def State.markLeaf (s : State) (entryAt : Nat) (dirty : Bool) : State :=
  let e : DWord := BitVec.ofNat 64 (s.physValue entryAt 8)
  let e' := e ||| (if dirty then 0x60 else 0x20)
  if e = e' then s else s.writeBytes entryAt (leBytes 8 e'.toNat)

/-- The TLBs after a walk that an access used (R161): the core's and the die's hold the leaf. -/
def State.installTlb (s : State) (core : Nat) (ctx va entryAt : Nat) : State :=
  let e : DWord := BitVec.ofNat 64 (s.physValue entryAt 8)
  let level := if e.getLsbD 0 then
      (match s.context? ctx with
        | some c => (match s.walk c va with
          | .leaf _ _ l => l
          | .absent => 0
          | .malformed => 0)
        | none => 0)
    else 0
  let t : TlbEntry := { ctx := ctx, page := va / 65536, leaf := e, level := level }
  let keep := fun (l : List TlbEntry) => l.filter (fun u => !(u.ctx = t.ctx && u.page = t.page))
  let k := s.coreAt core
  let d := s.dieAt (core / 64)
  ((s.setCore core { k with tlb := (t :: keep k.tlb).take 1024 }).setDie (core / 64)
    { d with tlb := (t :: keep d.tlb).take 16384 })

/-- What a lane's access meets (R158, R176): its bytes, and the leaves to mark; or the place of its cause in the order
of R176, with the cause. -/
inductive LaneCheck where
  | ok (runs : List Run) (leaves : List (Nat × Nat))
  | bad (order : Nat) (cause : Cause) (sub : Byte) (faddr : Nat) (leaves : List (Nat × Nat))
  deriving DecidableEq, Repr

/-- Order of a cause in R176. -/
def causeOrder : Cause → Nat
  | .misalign => 1
  | .bounds => 2
  | .perm => 3
  | .captag => 4
  | .window => 4
  | .tcopy => 4
  | .page => 5
  | .discard => 6
  | .poison => 7
  | _ => 0

/-- A check that fails. -/
def badLane (c : Cause) (sub : Byte) (faddr : Nat) : LaneCheck := .bad (causeOrder c) c sub faddr []

/-- Two parts of one access joined; the earlier cause of R176 stands. -/
def LaneCheck.join (a b : LaneCheck) : LaneCheck :=
  match a, b with
  | .ok r l, .ok r' l' => .ok (r ++ r') (l ++ l')
  | .bad o c u f l, .bad o' c' u' f' l' => if o ≤ o' then .bad o c u f l else .bad o' c' u' f' l'
  | .bad o c u f l, .ok _ l' => .bad o c u f (l ++ l')
  | .ok _ l, .bad o c u f l' => .bad o c u f (l ++ l')

/-- One page's answer as a lane check; `reads` says that the data is read, so that poison counts. The leaf of a page whose
check passed is used, whatever the access meets after it (R161). -/
def State.pageCheck (s : State) (reads : Bool) (off va : Nat) (r : PageRes) : LaneCheck :=
  match r with
  | .ok run l =>
    match run.pa with
    | none => .ok [run] ((l.toList).map (fun a => (a, va)))
    | some pa =>
      if s.peerGone pa then .bad 7 .poison 0xFF off ((l.toList).map (fun a => (a, va)))
      else if reads && s.poisoned pa run.len then .bad 7 .poison 0 off ((l.toList).map (fun a => (a, va)))
      else .ok [run] ((l.toList).map (fun a => (a, va)))
  | .perm sub => badLane .perm sub off
  | .page sub => badLane .page sub va
  | .discard l => .bad 6 .discard 0 off ((l.toList).map (fun a => (a, va)))

/-- The checks of R158 and R176 for n bytes at offset o, for one lane; alignment to `align`. -/
def State.checkAccess (s : State) (core : Nat) (c : Context) (x : XReg) (need : Need) (reads : Bool)
    (align n o : Nat) : LaneCheck :=
  if o % align ≠ 0 then badLane .misalign 0 o
  else if x.bound.toNat < o + n then badLane .bounds 0 o
  else if !hasPerm x.perm need.perm then badLane .perm 0 o
  else if o + n ≤ x.extent.toNat then s.pageCheck reads o (x.base.toNat + o) (.ok (s.runAt c x o n) none)
  else
    let va := x.base.toNat + o
    let here := min n (65536 - va % 65536)
    let first := s.pageCheck reads o va (s.translatePage core c need va here)
    if here = n then first
    else first.join (s.pageCheck reads o (va + here) (s.translatePage core c need (va + here) (n - here)))

/-- Leaves marked and TLBs filled after checks that passed. -/
def State.markLeaves (s : State) (core ctx : Nat) (dirty : Bool) (l : List (Nat × Nat)) : State :=
  l.foldl (fun s e => (s.markLeaf e.1 dirty).installTlb core ctx e.2 e.1) s

/-- The longest run from a base (R157), page by page; `pages` bounds the search. (DEDUCED, log 27.) -/
def State.runFrom (s : State) (c : Context) (perm : Byte) (first : Option (Nat × Nat)) (va left : Nat) :
    Nat → Nat × Nat
  | 0 => (0, 0)
  | pages + 1 =>
    if left = 0 then (0, 0)
    else match s.walk c va with
      | .absent => (0, 0)
      | .malformed => (0, 0)
      | .leaf _ e level =>
        let pa := leafFrame e + va % leafSpan level
        let follows := match first with
          | none => true
          | some (pa', mt) => decide (pa = pa') && decide (leafMtype e = mt)
        let ok := leafAC e && (!hasPerm perm permW || leafD e) && !leafDisc e && !leafLod e && follows &&
          (!hasPerm perm permR || leafR e) && (!hasPerm perm permW || leafW e) && (!hasPerm perm permX || leafX e) &&
          !c.hostRanges.contains (va / 65536)
        if ok then
          let here := min left (65536 - va % 65536)
          let (n, _) := s.runFrom c perm (some (pa + here, leafMtype e)) (va + here) (left - here) pages
          (here + n, pa)
        else (0, 0)

/-- XLAT's result for a capability (R156, R157). -/
def State.xlatOf (s : State) (c : Context) (cap : QWord) : XReg :=
  let bound := min (capLength cap).toNat (2 ^ 32)
  let (ext, fr) := s.runFrom c (capPerm cap) none (capBase cap).toNat bound (bound / 65536 + 2)
  { base := capBase cap, perm := capPerm cap, bound := BitVec.ofNat 40 bound, type := capType cap,
    frame := BitVec.ofNat 48 (if ext = 0 then 0 else fr), extent := BitVec.ofNat 40 ext }

/-- A capability as a register of R158 that has no run: every access walks (step 4). -/
def capRegister (cap : QWord) : XReg :=
  { base := capBase cap, perm := capPerm cap, bound := BitVec.ofNat 40 (min (capLength cap).toNat (2 ^ 32)),
    type := capType cap }

/-- Table 9.3. -/
def XReg.pack (x : XReg) : Nat :=
  x.base.toNat + x.perm.toNat * 2 ^ 56 + x.bound.toNat * 2 ^ 64 + x.type.toNat * 2 ^ 104 +
    x.frame.toNat * 2 ^ 128 + x.extent.toNat * 2 ^ 176

/-! ### Checks with a state effect, for accesses of n bytes through a register -/

/-- The leaves that a lane's check used are marked: AC, and D for a write, where the leaf's check passed; DISCARD sets AC only;
an access that failed its leaf's check, or found no leaf, marks none (R161). -/
def State.markCheck (s : State) (core ctx : Nat) (writes : Bool) (r : LaneCheck) : State :=
  match r with
  | .ok _ l => s.markLeaves core ctx writes l
  | .bad _ cause _ _ l => if cause = .discard then s.markLeaves core ctx false l
    else if cause = .poison then s.markLeaves core ctx writes l else s

/-- A check, with what it marks (R161). -/
def State.access (s : State) (core : Nat) (c : Context) (x : XReg) (need : Need) (reads : Bool)
    (align n o : Nat) : LaneCheck × State :=
  let r := s.checkAccess core c x need reads align n o
  (r, (s.markCheck core c.id need.writes r).nextFree)

/-- The bytes of runs at their coherence point. -/
def State.readRuns (s : State) : List Run → List Byte
  | [] => []
  | r :: l => (match r.pa with
      | none => List.replicate r.len 0
      | some pa => s.readPhys pa r.len) ++ s.readRuns l

/-- Addresses of the bytes of runs; none for a discarded page. -/
def runAddresses : List Run → List (Option Nat)
  | [] => []
  | r :: l => (match r.pa with
      | none => List.replicate r.len none
      | some pa => (upto r.len).map (fun i => some (pa + i))) ++ runAddresses l

/-- Bytes set beside the addresses of runs. -/
def pairBytes : List (Option Nat) → List Byte → List (Nat × Byte)
  | some a :: as, b :: bs => (a, b) :: pairBytes as bs
  | none :: as, _ :: bs => pairBytes as bs
  | _, _ => []

/-- The bytes of runs written at their coherence point. -/
def State.writeRuns (s : State) (r : List Run) (l : List Byte) : State :=
  s.writePhys (pairBytes (runAddresses r) l)

/-! ### Read cache (R170) -/

/-- A sector put into a core's read cache, the newest first. -/
def Core.fill (k : Core) (sector : Nat) (bytes : List Byte) : Core :=
  { k with readCache := (sector, bytes) :: k.readCache.filter (fun e => e.1 ≠ sector) }

/-- A copy that the core holds is replaced by what it reads at the L2 (R170). -/
def Core.refresh (k : Core) (sector : Nat) (bytes : List Byte) : Core :=
  if k.readCache.any (fun e => e.1 = sector) then k.fill sector bytes else k

/-- The whole read cache invalidated (R170). -/
def State.invalidate (s : State) (core : Nat) : State :=
  s.setCore core { s.coreAt core with readCache := [] }

/-- A byte of the newest store of the core that has not reached its coherence point. -/
def bufferByte : List CoreWrite → Nat → Option Byte
  | [], _ => none
  | w :: l, a =>
    match bufferByte l a with
    | some b => some b
    | none => ((w.bytes.reverse.find? (fun e => e.1 = a)).map (·.2))

/-- Written bytes of a sector put over a copy of it. -/
def overlay (sector : Nat) (l : List (Nat × Byte)) (bytes : List Byte) : List Byte :=
  (upto 32).map (fun i =>
    match l.reverse.find? (fun e => e.1 = 32 * sector + i) with
    | some e => e.2
    | none => nth bytes i 0)

/-- Copies that a store of the core hits are updated (R170). -/
def Core.update (k : Core) (l : List (Nat × Byte)) : Core :=
  { k with readCache := k.readCache.map (fun e => (e.1, overlay e.1 l e.2)) }

/-- A sector as the core sees it that reads it at the L2: the stores of the core that are still on their way stand over it
(R178, R221), and what its copy engine wrote once it is there (R170). -/
def State.sectorSeen (s : State) (core sector : Nat) : List Byte :=
  (s.coreAt core).buffer.foldl (fun b w => if w.engine then b else overlay sector w.bytes b) (s.readPhys (32 * sector) 32)

/-- A sector that the core has read at the L2 replaces the copy that it holds (R170). -/
def State.refreshSector (s : State) (core sector : Nat) : State :=
  s.setCore core ((s.coreAt core).refresh sector (s.sectorSeen core sector))

/-- The bytes of one sector as a load of the core receives them: from the read cache, where a copy is held and still
there, else from the L2, under the core's own stores. -/
def State.loadSector (s : State) (core sector : Nat) (cacheable : Bool) : List Byte × State :=
  let k := s.coreAt core
  let seen := s.sectorSeen core sector
  match k.readCache.find? (fun e => e.1 = sector) with
  | some e =>
    if cacheable && Config.stillHeld s.freeCount then (e.2, s.nextFree)
    else (seen, (s.setCore core (k.refresh sector seen)).nextFree)
  | none => (seen, if cacheable then s.setCore core (k.fill sector seen) else s)

/-- Some sectors as a load of the core receives them, each once. -/
def State.loadSectors (s : State) (core : Nat) (cacheable : Bool) : List Nat → List (Nat × List Byte) × State
  | [] => ([], s)
  | x :: l =>
    let (b, s) := s.loadSector core x cacheable
    let (r, s) := s.loadSectors core cacheable l
    ((x, b) :: r, s)

/-- Sectors of the physical bytes of runs. -/
def runSectors (l : List Run) : List Nat :=
  distinct (l.flatMap (fun r => match r.pa with
    | none => []
    | some pa => (upto ((pa % 32 + r.len + 31) / 32)).map (fun i => sectorOf pa + i)))

/-- Bytes of runs that the core reads at the L2, where no store of the core to their sectors is on its way; held copies are
replaced (R170). -/
def State.readL2 (s : State) (core : Nat) (l : List Run) : List Byte × State :=
  (s.readRuns l, (runSectors l).foldl (fun s x => s.refreshSector core x) s)

/-- A byte of runs lies in a poisoned sector (R172). -/
def State.runsPoisoned (s : State) (l : List Run) : Bool :=
  l.any (fun r => match r.pa with
    | none => false
    | some pa => s.poisoned pa r.len)

/-- The texture units of some cores drop the map words and data lines that they hold (R194, R195). Lines are held by
physical sector, so that a unit drops all of them. -/
def State.dropTexture (s : State) (within : Nat → Bool) : State :=
  { s with cores := ((upto s.cores.length).zip s.cores).map (fun e =>
    if within e.1 then { e.2 with texCache := [] } else e.2) }

/-- The ridge units of some dies drop the lines that they hold (R276). -/
def State.dropRidge (s : State) (within : Nat → Bool) : State :=
  { s with dies := ((upto s.dies.length).zip s.dies).map (fun e =>
    if within e.1 then { e.2 with ridge := [] } else e.2) }

/-- The composers of some dies drop the lines that they hold (R291). -/
def State.dropComposer (s : State) (within : Nat → Bool) : State :=
  { s with dies := ((upto s.dies.length).zip s.dies).map (fun e =>
    if within e.1 then { e.2 with comp := [] } else e.2) }

/-! ### Teams and scratchpad (R165, R145, R146) -/

/-- A team by number. -/
def State.team? (s : State) (t : Nat) : Option Team := s.teams.find? (fun x => x.id = t)

/-- A team replaced. -/
def State.setTeam (s : State) (t : Team) : State :=
  { s with teams := s.teams.map (fun x => if x.id = t.id then t else x) }

/-- A sheaf by number. -/
def State.sheaf? (s : State) (k : Nat) : Option Sheaf := s.sheaves.find? (fun x => x.id = k)

/-- A sheaf replaced. -/
def State.setSheaf (s : State) (k : Sheaf) : State :=
  { s with sheaves := s.sheaves.map (fun x => if x.id = k.id then k else x) }

/-- The offset lies in a frozen line that the team has not copied (R145). -/
def State.isFrozen (s : State) (t : Team) (off : Nat) : Bool :=
  match t.frozen with
  | none => false
  | some k =>
    match s.sheaf? k with
    | none => false
    | some sh => decide (off / 128 < sh.lines) && !t.copied.contains (off / 128)

/-- A byte of a team's window. -/
def State.scratchByte (s : State) (t : Team) (off : Nat) : Byte :=
  if s.isFrozen t off then
    match t.frozen with
    | none => 0
    | some k =>
      match s.sheaf? k with
      | none => 0
      | some sh => memGet sh.scratch off
  else memGet t.scratch off

/-- Bytes of a team's window. -/
def State.scratchRead (s : State) (t : Team) (off n : Nat) : List Byte :=
  (upto n).map (fun i => s.scratchByte t (off + i))

/-- Lines that a write touches and the team must copy first (R146). (DEDUCED, log 55.) -/
def State.linesToCopy (s : State) (t : Team) (off n : Nat) : List Nat :=
  (distinct ((upto n).map (fun i => (off + i) / 128))).filter (fun l => s.isFrozen t (128 * l))

/-- One more line fits the reserve (R146). -/
def Team.reserveFor (t : Team) (more : Nat) : Bool := t.copied.length * 128 + 128 * more ≤ t.cow

/-- Frozen lines copied into the team's reserve (R146). -/
def State.copyLines (s : State) (t : Team) (lines : List Nat) : Team :=
  lines.foldl (fun t l =>
    let bytes := s.scratchRead t (128 * l) 128
    { t with scratch := memWrite t.scratch (128 * l) bytes, copied := insertRising l t.copied }) t

/-- A word of a window is poisoned (R346). -/
def Team.poisoned (t : Team) (off n : Nat) : Bool :=
  t.poisonWords.any (fun w => decide (off / 4 ≤ w) && decide (w ≤ (off + n - 1) / 4))

/-- A write into a team's window whose copies have been made or fit (R146). -/
def State.scratchWrite (s : State) (team : Nat) (off : Nat) (l : List Byte) : State :=
  match s.team? team with
  | none => s
  | some t =>
    let t := s.copyLines t (s.linesToCopy t off l.length)
    s.setTeam { t with
      scratch := memWrite t.scratch off l
      poisonWords := t.poisonWords.filter (fun w => !(decide (off ≤ 4 * w) && decide (4 * w + 4 ≤ off + l.length))) }

end Sys2Proof.Machine
end

