-- ==== Sys2Proof/Machine/Operands.lean ====
section
/-! DEFINITION. Groups, paths and their registers; what each instruction reads and writes; operand delivery (R15, R26 to
R29), the mode register (R30 to R34), last reads (R108) and register writes (R107). -/
namespace Sys2Proof.Machine

/-! ### The mode register -/

/-- TYPE (Table 2.11). -/
def modeType (m : Half) : ElemType :=
  match (m.extractLsb' 0 4).toNat with
  | 0 => .f32 | 1 => .f16x2 | 2 => .bf16x2 | 3 => .i32 | 4 => .n32 | 5 => .i16x2 | 6 => .n16x2 | 7 => .i8x4
  | 8 => .n8x4 | 9 => .e4m3x4 | 10 => .e5m2x4 | _ => .e2m1x8

/-- RND. -/
def modeRnd (m : Half) : Nat := (m.extractLsb' 4 3).toNat
/-- SAT. -/
def modeSat (m : Half) : Bool := m.getLsbD 7
/-- GUARD. -/
def modeGuard (m : Half) : Nat := (m.extractLsb' 8 4).toNat
/-- SEL; values 8 to 15 act as their low three bits. (DESIGN CHOICE, log 28.) -/
def modeSel (m : Half) : Nat := (m.extractLsb' 12 3).toNat

/-- Effective integer type: signedness and element width; none under types 9 to 11 (R33, R60). -/
def intType : ElemType → Option (Bool × Nat)
  | .f32 => some (false, 32)
  | .f16x2 => some (false, 16)
  | .bf16x2 => some (false, 16)
  | .i32 => some (true, 32)
  | .n32 => some (false, 32)
  | .i16x2 => some (true, 16)
  | .n16x2 => some (false, 16)
  | .i8x4 => some (true, 8)
  | .n8x4 => some (false, 8)
  | .e4m3x4 => none
  | .e5m2x4 => none
  | .e2m1x8 => none

/-- Float element format of a float instruction; none where it raises ILLTYPE (R82). -/
def floatType : ElemType → Option FFmt
  | .f32 => some .fp32
  | .f16x2 => some .fp16
  | .bf16x2 => some .bf16
  | .i32 => none
  | .n32 => none
  | .i16x2 => none
  | .n16x2 => none
  | .i8x4 => none
  | .n8x4 => none
  | .e4m3x4 => none
  | .e5m2x4 => none
  | .e2m1x8 => none

/-- Integer-under-float rule on a type (R33). -/
def intTypeOf : ElemType → ElemType
  | .f32 => .n32
  | .f16x2 => .n16x2
  | .bf16x2 => .n16x2
  | t => t

/-! ### Groups and paths -/

/-- A group by number. -/
def State.group? (s : State) (g : Nat) : Option Group := s.groups.find? (fun x => x.id = g)

/-- A group replaced. -/
def State.setGroup (s : State) (g : Group) : State :=
  { s with groups := s.groups.map (fun x => if x.id = g.id then g else x) }

/-- A grid by number. -/
def State.grid? (s : State) (g : Nat) : Option Grid := s.grids.find? (fun x => x.id = g)

/-- A grid replaced. -/
def State.setGrid (s : State) (g : Grid) : State :=
  { s with grids := s.grids.map (fun x => if x.id = g.id then g else x) }

/-- The path of a slot. -/
def Group.slot (g : Group) (k : Nat) : Option Path := if k = 0 then g.slot0 else g.slot1

/-- A slot replaced. -/
def Group.setSlot (g : Group) (k : Nat) (p : Option Path) : Group :=
  if k = 0 then { g with slot0 := p } else { g with slot1 := p }

/-- Half that a slot belongs to: always 0 in a native group (R110). -/
def Group.half (g : Group) (k : Nat) : Nat := if g.ganged then k else 0

/-- Scalar state of a half. -/
def Group.bank (g : Group) (half : Nat) : Bank := if half = 0 then g.bank0 else g.bank1

/-- Scalar state of a half replaced. -/
def Group.setBank (g : Group) (half : Nat) (b : Bank) : Group :=
  if half = 0 then { g with bank0 := b } else { g with bank1 := b }

/-- Lanes of a group's width that a half holds (R110). -/
def Group.fullMask (g : Group) (half : Nat) : DWord :=
  if g.ganged then (if half = 0 then 0x00000000FFFFFFFF else 0xFFFFFFFF00000000) else 0xFFFFFFFFFFFFFFFF

/-- `$width`. -/
def Group.width (g : Group) : Nat := if g.ganged then 32 else 64

/-- Lane index within the width. -/
def Group.laneIndex (g : Group) (lane : Nat) : Nat := if g.ganged then lane % 32 else lane

/-- First lane of a half. -/
def Group.laneBase (g : Group) (half : Nat) : Nat := if g.ganged ∧ half = 1 then 32 else 0

/-- The path that issues: the group, the slot and the path. -/
structure Issue where
  s : State
  g : Group
  k : Nat
  p : Path
  deriving DecidableEq, Repr

/-- Half of the issuing path. -/
def Issue.half (c : Issue) : Nat := c.g.half c.k

/-- Scalar state of the issuing path. -/
def Issue.bank (c : Issue) : Bank := c.g.bank c.half

/-- Scalar state replaced. -/
def Issue.setBank (c : Issue) (b : Bank) : Issue := { c with g := c.g.setBank c.half b }

/-- The path may issue: it runs, and no fault has stopped it. -/
def Path.canIssue (p : Path) : Bool := decide (p.park = .running) && !p.stopped

/-- A service trap of the group is with the management cores: the group is held (R302). -/
def Group.inService (g : Group) : Bool := g.pend.any (fun p => match p.status with
  | .service _ => true
  | .inFlight => false
  | .faulted _ => false
  | .waitOnly => false)

/-- The current path, where it may issue. -/
def State.issue? (s : State) : Option Issue :=
  match s.cur with
  | none => none
  | some (g, k) =>
    match s.group? g with
    | none => none
    | some G =>
      match G.slot k with
      | none => none
      | some p => if p.canIssue && !G.inService then some { s := s, g := G, k := k, p := p } else none

/-- The state with the issuing path and its group written back. -/
def Issue.state (c : Issue) : State := c.s.setGroup (c.g.setSlot c.k (some c.p))

/-- The team of the group. -/
def Issue.team? (c : Issue) : Option Team := c.s.team? c.g.team

/-- The grid of the group. -/
def Issue.grid? (c : Issue) : Option Grid := c.s.grid? c.g.grid

/-- The context of a group. -/
def State.contextOf (s : State) (g : Group) : Option Context :=
  match s.grid? g.grid with
  | none => none
  | some d => s.context? d.ctx

/-- Bit of a predicate. -/
def Group.pbit (g : Group) (n lane : Nat) : Bool := (nth g.p n 0).getLsbD lane

/-- Effective mask of a path with a mode (R34). -/
def Group.guarded (g : Group) (mask : DWord) (mode : Half) : DWord :=
  let n := modeGuard mode
  if n = 0 then mask
  else if n < 8 then mask &&& nth g.p n 0
  else mask &&& ~~~(nth g.p (n - 8) 0)

/-- Effective mask of the issuing path. -/
def Issue.emask (c : Issue) : DWord := c.g.guarded c.p.mask c.p.mode

end Sys2Proof.Machine

namespace Sys2Proof
open Sys2Proof.Machine

/-! ### What an instruction reads and writes -/

/-- A quad as a source. -/
def quadSrc (k : SQuad) : Src := .s ⟨4 * k.val, by have := k.isLt; omega⟩
/-- A quad as a destination. -/
def quadDst (k : SQuad) : Dst := .s ⟨4 * k.val, by have := k.isLt; omega⟩

/-- A destination read as a source (R60, R82). -/
def Dst.asSrc : Dst → Src
  | .v n => .v n
  | .s n => .s n

/-- Registers that CVT's destination is read for: those of R93, when it inserts. -/
def ElemType.elems : ElemType → Nat
  | .f32 | .i32 | .n32 => 1
  | .f16x2 | .bf16x2 | .i16x2 | .n16x2 => 2
  | .i8x4 | .n8x4 | .e4m3x4 | .e5m2x4 => 4
  | .e2m1x8 => 8

/-- Sources of an instruction with the registers each names, in the order d, a, b (R308). `mode` is the mode at issue:
CVT reads d only when it inserts (R93). -/
def Instr.reads (mode : Half) : Instr → List (Src × Nat)
  | .brx a | .callx a => [(a, 1)]
  | .ret => [(.s 63, 1)]
  | .iadd _ _ a b | .isub _ _ a b | .imul _ _ a b | .imulh _ _ a b | .imin _ _ a b | .imax _ _ a b => [(a, 1), (b, 1)]
  | .and _ _ a b | .or _ _ a b | .xor _ _ a b | .andn _ _ a b => [(a, 1), (b, 1)]
  | .shl _ _ a b | .shr _ _ a b | .sar _ _ a b | .rol _ _ a b => [(a, 1), (b, 1)]
  | .imad _ d a b | .bfi _ d a b => [(d.asSrc, 1), (a, 1), (b, 1)]
  | .bfe _ _ a b | .sel _ _ a b => [(a, 1), (b, 1)]
  | .iabs _ _ a | .popc _ _ a | .clz _ _ a | .brev _ _ a | .mov _ _ a => [(a, 1)]
  | .icmp _ _ _ a b | .fcmp _ _ _ a b => [(a, 1), (b, 1)]
  | .iaddi _ d _ | .movhi _ d _ | .andi _ d _ | .ori _ d _ | .xori _ d _ | .imuli _ d _ | .fmulb _ d _ =>
    [(d.asSrc, 1)]
  | .fadd _ _ a b | .fsub _ _ a b | .fmul _ _ a b | .fmin _ _ a b | .fmax _ _ a b => [(a, 1), (b, 1)]
  | .ffma _ d a b | .fdot2 _ d a b => [(d.asSrc, 1), (a, 1), (b, 1)]
  | .fabs _ _ a | .fneg _ _ a | .frcp _ _ a | .frsq _ _ a | .fsqrt _ _ a | .fexp2 _ _ a | .flog2 _ _ a
  | .fsin _ _ a | .fcos _ _ a | .frnd _ _ a | .ffrac _ _ a | .fclass _ _ a | .unpk _ _ a _ _ => [(a, 1)]
  | .cvt _ d a _ dst => if (modeType mode).elems < dst.elems then [(d.asSrc, 1), (a, 1)] else [(a, 1)]
  | .pack _ _ a b => [(a, 1), (b, 1)]
  | .shfl _ a b | .shflx _ a b | .shflup _ a b => [(a, 1), (b, 1)]
  | .vote _ a _ | .lred _ a _ | .lscan _ a _ _ => [(a, 1)]
  | .barArrive a b | .barSync a b => [(a, 1), (b, 1)]
  | .barWait a | .freeze a => [(a, 1)]
  | .lnchW _ _ a | .lnchN _ _ a | .enq _ _ a => [(a, 1)]
  | .waita _ _ _ _ a => [(.s a, 2)]
  | .ckick _ a b => [(a, 1), (b, 1)]
  | .csrw _ d _ | .resdrain _ d => [(d, 1)]
  | .mint _ _ a b => [(quadSrc a, 4), (quadSrc b, 4)]
  | .xlat _ _ a => [(quadSrc a, 4)]
  | .ld _ _ _ _ _ a | .lds _ _ _ _ a => [(a, 1)]
  | .st _ d _ sz _ a | .sts _ d _ sz a => [(d, sz.regs), (a, 1)]
  | .atom _ _ _ op w a | .atomNoreturn _ _ op w a | .atoms _ _ _ op w a | .atomsNoreturn _ _ op w a =>
    [(a, op.regs w)]
  | .ldcTable _ _ a | .ldcMemory _ _ _ a | .pref _ _ _ a => [(a, 1)]
  | .stc _ d _ a => [(quadSrc d, 4), (a, 1)]
  | .tlook _ _ a b => [(a, 1), (b, 1)]
  | .tset _ a b => [(a, 1), (b, 2)]
  | .ldlod _ _ _ a => [(a, 3)]
  | .sample _ _ a b => [(a, 3), (b, 1)]
  | .sampleg _ _ a b => [(a, 7), (b, 1)]
  | .mloadb a => [(.s a, 2)]
  | .mloop a => [(.s a, 4)]
  | .mdrain a => [(.s a, 3)]
  | .mdrainv _ a b | .mzero a b => [(a, 1), (b, 1)]
  | .mscale _ a => [(a, 1)]
  | .vxm _ a last b => [((if last then .vLast a else .v a), 16), (b, 1)]
  | .trace _ a _ _ => [(.v a, 8)]
  | .hitret a _ => [(a, 1)]
  | .repack _ n a b => [(.v a, 1), (.v b, n.val + 1)]
  | .visb _ a _ => [(.s a, 4)]
  | .cover a b => [(.v a, 7), (b, 1)]
  | .compose _ a => [(a, 1)]
  | _ => []

/-- The next destination register. -/
def Dst.next (d : Dst) (i : Nat) : Dst :=
  match d with
  | .v n => .v ⟨(n.val + i) % 64, Nat.mod_lt _ (by decide)⟩
  | .s n => .s ⟨(n.val + i) % 64, Nat.mod_lt _ (by decide)⟩

/-- A range of destination registers. -/
def Dst.range (d : Dst) (n : Nat) : List Dst := (upto n).map d.next

/-- Registers that a register-returning instruction writes, in order. -/
def Instr.returns : Instr → List Dst
  | .mint _ d _ _ | .ldcTable _ d _ | .ldcMemory _ d _ _ => (quadDst d).range 4
  | .ld _ d _ sz _ _ | .lds _ d _ sz _ => d.range sz.regs
  | .atom _ d _ _ w _ | .atoms _ d _ _ w _ => d.range (if w then 2 else 1)
  | .tlook _ d _ _ => [d]
  | .ldlod _ d sz _ => d.range (sz.words + 1)
  | .sample _ d _ _ | .sampleg _ d _ _ => d.range 5
  | .mdrainv d _ _ => [.v d]
  | .vxm d _ _ _ => (Dst.v d).range 16
  | .trace _ _ _ d | .hitret _ d => (Dst.v d).range 6
  | .repack _ n a b => .v a :: (Dst.v b).range (n.val + 1)
  | .compose d _ => [.s d]
  | _ => []

/-- s registers that a fixed-latency or control instruction writes (R22, R74, R75). -/
def Instr.fixedDst : Instr → List Dst
  | .call _ | .callx _ => [.s 63]
  | .iadd _ d _ _ | .isub _ d _ _ | .imul _ d _ _ | .imulh _ d _ _ | .imad _ d _ _ | .imin _ d _ _ | .imax _ d _ _
  | .and _ d _ _ | .or _ d _ _ | .xor _ d _ _ | .andn _ d _ _ | .shl _ d _ _ | .shr _ d _ _ | .sar _ d _ _
  | .rol _ d _ _ | .bfe _ d _ _ | .bfi _ d _ _ | .sel _ d _ _ => [d]
  | .iabs _ d _ | .popc _ d _ | .clz _ d _ | .brev _ d _ | .mov _ d _ => [d]
  | .iaddi _ d _ | .movi _ d _ | .movhi _ d _ | .andi _ d _ | .ori _ d _ | .xori _ d _ | .imuli _ d _
  | .fmulb _ d _ => [d]
  | .fadd _ d _ _ | .fsub _ d _ _ | .fmul _ d _ _ | .ffma _ d _ _ | .fmin _ d _ _ | .fmax _ d _ _ | .pack _ d _ _
  | .fdot2 _ d _ _ => [d]
  | .fabs _ d _ | .fneg _ d _ | .frcp _ d _ | .frsq _ d _ | .fsqrt _ d _ | .fexp2 _ d _ | .flog2 _ d _
  | .fsin _ d _ | .fcos _ d _ | .frnd _ d _ | .ffrac _ d _ | .fclass _ d _ | .unpk _ d _ _ _ | .cvt _ d _ _ _ => [d]
  | .shfl d _ _ | .shflx d _ _ | .shflup d _ _ | .lred d _ _ | .lscan d _ _ _ => [d]
  | .vote (.reg d) _ k => d.range (if k = .ballot then 2 else 1)
  | .elect (.reg d) => [d]
  | .csrr _ d n => d.range (csrRegs n)
  | _ => []

/-- s registers of a destination list. -/
def sRegs : List Dst → List Nat
  | [] => []
  | .s n :: l => n.val :: sRegs l
  | .v _ :: l => sRegs l

/-- v registers of a destination list. -/
def vRegs : List Dst → List Nat
  | [] => []
  | .v n :: l => n.val :: vRegs l
  | .s _ :: l => vRegs l

/-- Latency classes (R40), and the steps that have no word. -/
inductive Latency where
  | header | fixed | vr | vn | ends | deviceStep
  deriving DecidableEq, Repr

/-- Table 2.16. -/
def Instr.latency : Instr → Latency
  | .clauseStart _ _ _ _ => .header
  | .exit | .bra _ | .bc _ _ _ _ | .bdiv _ _ _ | .join | .call _ | .ret | .brx _ | .callx _ | .yield_ | .tret
  | .freeze _ => .ends
  | .mint _ _ _ _ | .ld _ _ _ _ _ _ | .atom _ _ _ _ _ _ | .lds _ _ _ _ _ | .atoms _ _ _ _ _ _
  | .ldcTable _ _ _ | .ldcMemory _ _ _ _ | .tlook _ _ _ _ | .ldlod _ _ _ _ | .sample _ _ _ _ | .sampleg _ _ _ _
  | .mdrainv _ _ _ | .vxm _ _ _ _ | .trace _ _ _ _ | .hitret _ _ | .repack _ _ _ _ | .compose _ _ => .vr
  | .barArrive _ _ | .barWait _ | .barSync _ _ | .lnchW _ _ _ | .lnchN _ _ _ | .enq _ _ _ | .fence _ _
  | .xfence _ _ _ _ | .waita _ _ _ _ _ | .ckick _ _ _ | .xlat _ _ _ | .st _ _ _ _ _ _ | .atomNoreturn _ _ _ _ _
  | .sts _ _ _ _ _ | .atomsNoreturn _ _ _ _ _ | .stc _ _ _ _ | .tset _ _ _ | .pref _ _ _ _ | .mloadb _ | .mloop _
  | .mdrain _ | .mzero _ _ | .mscale _ _ | .visb _ _ _ | .cover _ _ => .vn
  | .nop | .setj _ | .trap _ | .mode _ => .fixed
  | .iadd _ _ _ _ | .isub _ _ _ _ | .imul _ _ _ _ | .imulh _ _ _ _ | .imad _ _ _ _ | .imin _ _ _ _
  | .imax _ _ _ _ | .iabs _ _ _ | .and _ _ _ _ | .or _ _ _ _ | .xor _ _ _ _ | .andn _ _ _ _ | .shl _ _ _ _
  | .shr _ _ _ _ | .sar _ _ _ _ | .rol _ _ _ _ | .bfe _ _ _ _ | .bfi _ _ _ _ | .popc _ _ _ | .clz _ _ _
  | .brev _ _ _ | .sel _ _ _ _ | .icmp _ _ _ _ _ | .mov _ _ _ | .iaddi _ _ _ | .movi _ _ _ | .movhi _ _ _
  | .andi _ _ _ | .ori _ _ _ | .xori _ _ _ | .imuli _ _ _ => .fixed
  | .fadd _ _ _ _ | .fsub _ _ _ _ | .fmul _ _ _ _ | .ffma _ _ _ _ | .fmin _ _ _ _ | .fmax _ _ _ _ | .fabs _ _ _
  | .fneg _ _ _ | .fcmp _ _ _ _ _ | .frcp _ _ _ | .frsq _ _ _ | .fsqrt _ _ _ | .fexp2 _ _ _ | .flog2 _ _ _
  | .fsin _ _ _ | .fcos _ _ _ | .frnd _ _ _ | .ffrac _ _ _ | .cvt _ _ _ _ _ | .pack _ _ _ _ | .unpk _ _ _ _ _
  | .fdot2 _ _ _ _ | .fclass _ _ _ | .fmulb _ _ _ => .fixed
  | .shfl _ _ _ | .shflx _ _ _ | .shflup _ _ _ | .vote _ _ _ | .lred _ _ _ | .lscan _ _ _ _ | .elect _ => .fixed
  | .csrr _ _ _ | .csrw _ _ _ | .resdrain _ _ => .fixed
  | _ => .deviceStep

/-- A word that uses the full active mask whatever GUARD says (R34). -/
def Instr.ignoresGuard : Instr → Bool
  | .clauseStart _ _ _ _ | .nop | .exit | .bra _ | .bc _ _ _ _ | .bdiv _ _ _ | .setj _ | .join | .call _ | .ret | .brx _
  | .callx _ | .yield_ | .trap _ | .tret | .mode _ => true
  | .barArrive _ _ | .barWait _ | .barSync _ _ | .freeze _ | .fence _ _ | .xfence _ _ _ _ | .csrr _ _ _ | .csrw _ _ _
  | .resdrain _ _ => true
  | .mloadb _ | .mloop _ | .mdrain _ | .mdrainv _ _ _ | .mzero _ _ | .mscale _ _ | .compose _ _ => true
  | _ => false

/-- A word that reads its v sources in the lowest lane only, whatever its U bit. -/
def Instr.readsLowest : Instr → Bool
  | .brx _ | .callx _ | .barArrive _ _ | .barWait _ | .barSync _ _ | .freeze _ | .csrw _ _ _ | .resdrain _ _ | .mdrainv _ _ _
  | .mzero _ _ | .mscale _ _ | .ldcTable _ _ _ | .ldcMemory _ _ _ _ | .ckick _ _ _ | .compose _ _ => true
  | _ => false

/-- A memory instruction (R304, R189), WAITA included. -/
def Instr.isMemory : Instr → Bool
  | .ld _ _ _ _ _ _ | .st _ _ _ _ _ _ | .atom _ _ _ _ _ _ | .atomNoreturn _ _ _ _ _ | .lds _ _ _ _ _
  | .sts _ _ _ _ _ | .atoms _ _ _ _ _ _ | .atomsNoreturn _ _ _ _ _ | .ldcTable _ _ _ | .ldcMemory _ _ _ _
  | .stc _ _ _ _ | .tlook _ _ _ _ | .tset _ _ _ | .ldlod _ _ _ _ | .sample _ _ _ _ | .sampleg _ _ _ _
  | .pref _ _ _ _ | .waita _ _ _ _ _ => true
  | _ => false

/-- A launch instruction. -/
def Instr.isLaunch : Instr → Bool
  | .lnchW _ _ _ | .lnchN _ _ _ | .enq _ _ _ => true
  | _ => false

/-- An engine instruction: copy, matrix, ridge, coverage or composer. -/
def Instr.isEngine : Instr → Bool
  | .ckick _ _ _ | .mloadb _ | .mloop _ | .mdrain _ | .mdrainv _ _ _ | .mzero _ _ | .mscale _ _ | .vxm _ _ _ _
  | .trace _ _ _ _ | .hitret _ _ | .repack _ _ _ _ | .visb _ _ _ | .cover _ _ | .compose _ _ => true
  | _ => false

/-- Predicate registers that an instruction reads: those of its sources, of BC, BDIV and SEL, and the one that GUARD names
where the effective mask governs it (R34). -/
def Instr.readsP (mode : Half) (i : Instr) : List Nat :=
  ((i.reads mode).filterMap (fun e => match e.1 with
    | .p n => some n.val
    | _ => none)) ++
  (match i with
    | .bc _ p _ _ => [p.val]
    | .bdiv _ p _ => [p.val]
    | .sel _ _ _ _ => [modeSel mode]
    | _ => []) ++
  (if i.ignoresGuard || modeGuard mode = 0 then [] else [modeGuard mode % 8])

/-- The scalar-pipe bit (R29); false where U = 1 is ILLEGAL. -/
def Instr.uniform : Instr → Bool
  | .iadd u _ _ _ | .isub u _ _ _ | .imul u _ _ _ | .imulh u _ _ _ | .imad u _ _ _ | .imin u _ _ _ | .imax u _ _ _
  | .and u _ _ _ | .or u _ _ _ | .xor u _ _ _ | .andn u _ _ _ | .shl u _ _ _ | .shr u _ _ _ | .sar u _ _ _
  | .rol u _ _ _ | .bfe u _ _ _ | .bfi u _ _ _ | .sel u _ _ _ | .pack u _ _ _ | .fdot2 u _ _ _ => u
  | .fadd u _ _ _ | .fsub u _ _ _ | .fmul u _ _ _ | .ffma u _ _ _ | .fmin u _ _ _ | .fmax u _ _ _ => u
  | .iabs u _ _ | .popc u _ _ | .clz u _ _ | .brev u _ _ | .mov u _ _ | .iaddi u _ _ | .movi u _ _ | .movhi u _ _
  | .andi u _ _ | .ori u _ _ | .xori u _ _ | .imuli u _ _ | .fmulb u _ _ => u
  | .fabs u _ _ | .fneg u _ _ | .frcp u _ _ | .frsq u _ _ | .fsqrt u _ _ | .fexp2 u _ _ | .flog2 u _ _ | .fsin u _ _
  | .fcos u _ _ | .frnd u _ _ | .ffrac u _ _ | .fclass u _ _ => u
  | .icmp u _ _ _ _ | .fcmp u _ _ _ _ | .cvt u _ _ _ _ | .unpk u _ _ _ _ => u
  | .ld u _ _ _ _ _ | .st u _ _ _ _ _ | .lds u _ _ _ _ | .sts u _ _ _ _ => u
  | .atom u _ _ _ _ _ | .atomNoreturn u _ _ _ _ | .atoms u _ _ _ _ _ | .atomsNoreturn u _ _ _ _ => u
  | .ldcTable u _ _ | .ldcMemory u _ _ _ | .stc u _ _ _ | .tlook u _ _ _ | .tset u _ _ | .ldlod u _ _ _ => u
  | .sample u _ _ _ | .sampleg u _ _ _ | .pref u _ _ _ | .lnchW u _ _ | .lnchN u _ _ | .enq u _ _ => u
  | .ckick u _ _ | .waita u _ _ _ _ | .mint u _ _ _ | .xlat u _ _ => u
  | _ => false

end Sys2Proof

namespace Sys2Proof.Machine

/-! ### Operand delivery -/

/-- How a constant or a predicate is delivered (R28). -/
inductive Delivery where
  | typed (t : ElemType)
  | control
  deriving DecidableEq, Repr

/-- Inline constants (Table 2.10): an integer, or sign, m and e of (−1)^neg × m × 2^e. -/
def constInt (k : Fin 32) : Option Int :=
  if k.val ≤ 16 then some k.val else if k.val ≤ 24 then some (16 - (k.val : Int)) else none

/-- The exact value of an inline constant. -/
def constVal (k : Fin 32) : FVal :=
  match constInt k with
  | some x => intVal x
  | none =>
    match k.val with
    | 25 => .fin false 1 (-1)
    | 26 => .fin false 1 0
    | 27 => .fin false 1 1
    | 28 => .fin false 1 2
    | 29 => .fin true 1 (-1)
    | 30 => .fin true 1 0
    | _ => .fin true 1 1

/-- An exact value in every element of a word. -/
def splat (f : FFmt) (v : FVal) : Word :=
  let e := (toFloat f 0 false v).1
  ofElems f.width (List.replicate (32 / f.width) e)

/-- Delivery of an inline constant (R28). -/
def constWord (dl : Delivery) (k : Fin 32) : Word :=
  let v := constVal k
  let plain := match constInt k with
    | some x => BitVec.ofInt 32 x
    | none => BitVec.ofNat 32 (toFloat .fp32 0 false v).1
  match dl with
  | .control => plain
  | .typed t =>
    match floatType t with
    | some f => splat f v
    | none =>
      match intType t, constInt k with
      | some (_, w), some x => ofElems w (List.replicate (32 / w) (ofInt w x))
      | _, _ => plain

/-- Delivery of a predicate bit: the integer 0 or 1 (R28). -/
def boolWord (dl : Delivery) (b : Bool) : Word := constWord dl (if b then 1 else 0)

/-- Special values (Table 2.3). -/
def State.special (s : State) (g : Group) (half lane : Nat) (sp : Special) : Word :=
  let t := s.team? g.team
  let tx := (t.map (fun t => t.gx)).getD 0
  let ty := (t.map (fun t => t.gy)).getD 0
  let tz := (t.map (fun t => t.gz)).getD 0
  let lpb := ((s.grid? g.grid).map (fun d => d.lpb)).getD {}
  let team := tx + lpb.gx * (ty + lpb.gy * tz)
  let gi := if g.ganged then 2 * g.index + half else g.index
  match sp with
  | .lane => BitVec.ofNat 32 (g.laneIndex lane)
  | .group => BitVec.ofNat 32 gi
  | .team => BitVec.ofNat 32 team
  | .gidx => BitVec.ofNat 32 tx
  | .gidy => BitVec.ofNat 32 ty
  | .gidz => BitVec.ofNat 32 tz
  | .inst => BitVec.ofNat 32 (team * lpb.groups + gi)
  | .path => BitVec.ofNat 32 half
  | .width => BitVec.ofNat 32 g.width
  | .core => BitVec.ofNat 32 (g.core % 64)
  | .die => BitVec.ofNat 32 (g.core / 64)

/-- A lane of a v register; an unmapped name delivers zero (R26, R108). -/
def Group.vLane (g : Group) (n lane : Nat) : Word :=
  match nth g.v n none with
  | none => 0
  | some m => nth m.lanes lane 0

/-- A v name is mapped. -/
def Group.mapped (g : Group) (n : Nat) : Bool := (nth g.v n none).isSome

/-- An s register. -/
def Bank.sreg (b : Bank) (n : Nat) : Word := nth b.s n 0

/-- A source in one lane. `k` is the slot that issues. -/
def Issue.src (c : Issue) (dl : Delivery) (a : Src) (lane : Nat) : Word :=
  match a with
  | .v n => c.g.vLane n.val lane
  | .vLast n => c.g.vLane n.val lane
  | .s n => c.bank.sreg n.val
  | .p n => boolWord dl (c.g.pbit n.val lane)
  | .special sp =>
    match sp with
    | .path => BitVec.ofNat 32 c.k
    | sp => c.s.special c.g c.half lane sp
  | .const k => constWord dl k

/-- A source of the lowest lane of a mask, as a control value. -/
def Issue.control (c : Issue) (a : Src) (mask : DWord) : Word := c.src .control a (lowestLane mask)

/-- The v registers that a source range reads. -/
def vNames : Src × Nat → List Nat
  | (.v n, k) => (upto k).map (fun i => n.val + i)
  | (.vLast n, k) => (upto k).map (fun i => n.val + i)
  | (.s _, _) => []
  | (.p _, _) => []
  | (.special _, _) => []
  | (.const _, _) => []

/-- The v registers that a source range releases (R27). -/
def lastNames : Src × Nat → List Nat
  | (.vLast n, k) => (upto k).map (fun i => n.val + i)
  | (.v _, _) => []
  | (.s _, _) => []
  | (.p _, _) => []
  | (.special _, _) => []
  | (.const _, _) => []

/-- The s registers that a source range reads. -/
def sNames : Src × Nat → List Nat
  | (.s n, k) => (upto k).map (fun i => n.val + i)
  | (.v _, _) => []
  | (.vLast _, _) => []
  | (.p _, _) => []
  | (.special _, _) => []
  | (.const _, _) => []

/-- A spill entry is a path set (R108). -/
def SpillEntry.isSet : SpillEntry → Bool
  | .pathSet _ => true
  | .savedJoin _ => false

/-- Whether a last read releases its name (R108). -/
def Group.honoursLast (g : Group) (k : Nat) : Bool :=
  (g.slot (1 - k)).isNone && !(g.bank0.spill.any SpillEntry.isSet) && !(g.bank1.spill.any SpillEntry.isSet)

/-- Lanes of a v name taken from the instructions that were still to write them (R22). -/
def Pend.claim (n : Nat) (mask : DWord) (p : Pend) : Pend :=
  { p with vdst := p.vdst.map (fun e => if e.1 = n then (e.1, e.2 &&& ~~~mask) else e) }

/-- Poison leaves the lanes of a v name that are written whole (R346). -/
def cleanse (n : Nat) (mask : DWord) (l : List (Nat × Nat)) : List (Nat × Nat) :=
  l.filter (fun e => !(e.1 = n && mask.getLsbD e.2))

/-- A v register written in the lanes of a mask: a new mapping, the other lanes copied (R107). -/
def Group.writeV (g : Group) (n : Nat) (mask : DWord) (f : Nat → Word) : Group :=
  let old := nth g.v n none
  let lanes := tabulate (fun i => if mask.getLsbD i then f i
    else (match old with
      | none => 0
      | some m => nth m.lanes i 0))
  { g with v := putNth none g.v n (some { lanes := lanes, reg := (g.id, g.nextReg) }), nextReg := g.nextReg + 1,
           pend := g.pend.map (Pend.claim n mask), poisonV := cleanse n mask g.poisonV }

/-- A v register renamed for a return to come: a new physical register that holds the previous mapping's values (R22). -/
def Group.renameV (g : Group) (n : Nat) : Group :=
  { g with v := putNth none g.v n (some { lanes := tabulate (g.vLane n), reg := (g.id, g.nextReg) }),
           nextReg := g.nextReg + 1 }

/-- A v name released: unmapped until it is next written (R108). -/
def Group.release (g : Group) (n : Nat) : Group :=
  { g with v := putNth none g.v n none, pend := g.pend.map (Pend.claim n 0xFFFFFFFFFFFFFFFF),
           poisonV := cleanse n 0xFFFFFFFFFFFFFFFF g.poisonV }

/-- An s register written; the quad's tag bit is cleared (R155). -/
def Bank.writeS (b : Bank) (n : Nat) (w : Word) : Bank :=
  { b with s := putNth 0 b.s n w, stag := putNth false b.stag (n / 4) false }

/-- Consecutive s registers written. -/
def Bank.writeSList (b : Bank) (n : Nat) : List Word → Bank
  | [] => b
  | w :: l => (b.writeS n w).writeSList (n + 1) l

/-- A quad written with its tag bit (R155, R182). -/
def Bank.writeQuad (b : Bank) (k : Nat) (c : QWord) (tag : Bool) : Bank :=
  let b := b.writeSList (4 * k) (capWords c)
  { b with stag := putNth false b.stag k tag }

/-- The bits of a quad. -/
def Bank.quad (b : Bank) (k : Nat) : QWord :=
  quadBits [b.sreg (4 * k), b.sreg (4 * k + 1), b.sreg (4 * k + 2), b.sreg (4 * k + 3)]

/-- The tag bit of a quad. -/
def Bank.quadTag (b : Bank) (k : Nat) : Bool := nth b.stag k false

/-- Predicate bits written in the lanes of a mask. -/
def Group.writeP (g : Group) (n : Nat) (mask : DWord) (f : Nat → Bool) : Group :=
  { g with p := putNth 0 g.p n ((nth g.p n 0 &&& ~~~mask) ||| (maskOf f &&& mask)) }

/-- A destination written: every lane of the mask of a v register, or the s register with the lowest lane's result
(R29). -/
def Issue.write (c : Issue) (d : Dst) (mask : DWord) (f : Nat → Word) : Issue :=
  match d with
  | .v n => { c with g := c.g.writeV n.val mask f }
  | .s n => c.setBank (c.bank.writeS n.val (f (lowestLane mask)))

/-- STATUS.UNMAPPED set where a source names an unmapped v register (R108). -/
def Issue.noteReads (c : Issue) (l : List (Src × Nat)) : Issue :=
  if (l.any (fun e => (vNames e).any (fun n => !c.g.mapped n))) then
    c.setBank { c.bank with unmapped := true }
  else c

/-- Names that last reads release, those that the instruction writes apart (R108). -/
def Issue.releaseReads (c : Issue) (l : List (Src × Nat)) (written : List Nat) : Issue :=
  if c.g.honoursLast c.k then
    let names := (l.flatMap lastNames).filter (fun n => !written.contains n)
    { c with g := names.foldl Group.release c.g }
  else c

/-- FPSTAT flags merged (R48). -/
def Issue.mergeFlags (c : Issue) (fl : FFlags) : Issue :=
  c.setBank { c.bank with fpstat := c.bank.fpstat ||| fl }

end Sys2Proof.Machine
end

