-- ==== Sys2Proof/Machine/Ops.lean ====
section
/-! DEFINITION. The shared operations of the machine: issue of one word, instructions in flight and their flags (R19,
R105), holds (R22, R189), joins and the spill stack (R103, R121, R122), ends of groups, teams and grids (R77, R133),
taking a trap (R304 to R310) and ending a grid by a double fault (R307). -/
namespace Sys2Proof.Machine

/-- The outcome type of a step. -/
abbrev Result := Host.Outcome State Fault Refusal

/-- What an instruction does at issue. -/
inductive Eff where
  /-- A precise fault: no effect; the frame's PC names the word. -/
  | raise (t : Trap)
  /-- A trap after which the path goes on with the next word (R79). -/
  | raiseAfter (t : Trap)
  /-- A fault of a read that the word itself makes, in the state that its checks leave: TRET's of its frame (R311). -/
  | meets (c : Issue) (t : Trap)
  /-- The word waits: the group is as given and the path stays at the word. -/
  | wait (g : Group)
  /-- The path goes on with its next word. -/
  | done (c : Issue)
  /-- The path goes to a header; its clause ends. -/
  | goto (c : Issue) (pc : Word)
  /-- The group's paths are as given: the path has left its slot or is parked. -/
  | final (c : Issue) (g : Group)

/-! ### Time -/

/-- Cores on which teams of a queue are resident (R313). -/
def State.queueCores (s : State) (ctx queue : Nat) : List Nat :=
  distinct ((s.teams.filter (fun t => !t.ended && !t.preempted && (match s.grid? t.grid with
    | some d => decide (d.ctx = ctx) && decide (d.lpb.queue = queue)
    | none => false))).map Team.core)

/-- Time passes, by a free number of CLOCK steps; each queue is charged the nanoseconds for every core on which its
teams are resident (R16, R313). (DESIGN CHOICE, log 10.) -/
def State.tick (s : State) : State :=
  let n := Config.clockTick s.freeCount
  { s with
    clock := s.clock + BitVec.ofNat 64 n
    freeCount := s.freeCount + 1
    contexts := s.contexts.map (fun c => { c with queues := c.queues.map (fun q =>
      { q with consumed := q.consumed + n * (s.queueCores c.id q.id).length }) }) }

/-! ### Flags (R19, R105) -/

/-- A flag of a path. -/
def Path.flag (p : Path) (f : Nat) : Nat := (nth p.flags f 0).toNat

/-- A flag rises by one. -/
def Path.rise (f : Option (Fin 12)) (p : Path) : Path :=
  match f with
  | none => p
  | some f => { p with flags := putNth 0 p.flags f.val (nth p.flags f.val 0 + 1) }

/-- A flag falls by one. -/
def Path.fall (f : Option (Fin 12)) (p : Path) : Path :=
  match f with
  | none => p
  | some f => { p with flags := putNth 0 p.flags f.val (nth p.flags f.val 0 - 1) }

/-- Twelve zero flags. -/
def noFlags : List (BitVec 6) := List.replicate 12 0

/-- Every flag is zero. -/
def Path.flagsZero (p : Path) : Bool := p.flags.all (fun f => f = 0)

/-- Number of instructions of a list that count on a flag. -/
def countFlag (l : List Pend) (f : Nat) : Nat :=
  (l.filter (fun p => match p.flag with
    | some x => x.val = f
    | none => false)).length

/-- The twelve flags that instructions give (R105). -/
def flagsOf (l : List Pend) : List (BitVec 6) := (upto 12).map (fun f => BitVec.ofNat 6 (countFlag l f))

/-- The path in slot k owns the instruction. -/
def Pend.owner (p : Pend) (k : Nat) : Bool := if k = 0 then p.owner0 else p.owner1

/-- Group change of one path. -/
def Group.mapSlot (g : Group) (k : Nat) (f : Path → Path) : Group := g.setSlot k ((g.slot k).map f)

/-- An instruction leaves the group: its flag falls in every path that owns it (R19, R105). -/
def Group.complete (g : Group) (id : Nat) : Group :=
  match g.pend.find? (fun p => p.id = id) with
  | none => g
  | some p =>
    let g : Group := { g with pend := g.pend.filter (fun q => q.id ≠ id) }
    let g := if p.owner0 then g.mapSlot 0 (Path.fall p.flag) else g
    if p.owner1 then g.mapSlot 1 (Path.fall p.flag) else g

/-- A path parked on an instruction runs again. -/
def Park.waitsFor : Park → Nat → Bool
  | .barrier i, id => i = id
  | .waita i, id => i = id
  | .launchWait i, id => i = id
  | .running, _ => false
  | .join _, _ => false
  | .sheafMiss, _ => false
  | .exit, _ => false

/-- Paths parked on an instruction run again. -/
def Group.wake (g : Group) (id : Nat) : Group :=
  let f := fun (p : Path) => if p.park.waitsFor id then { p with park := .running } else p
  (g.mapSlot 0 f).mapSlot 1 f

/-- A pending instruction replaced. -/
def Group.setPend (g : Group) (p : Pend) : Group :=
  { g with pend := g.pend.map (fun q => if q.id = p.id then p else q) }

/-- The latest instruction in flight replaced: the one that has just been issued. -/
def Group.setLast (g : Group) (p : Pend) : Group := { g with pend := g.pend.dropLast ++ [p] }

/-- A pending instruction by number. -/
def Group.pend? (g : Group) (id : Nat) : Option Pend := g.pend.find? (fun p => p.id = id)

/-! ### Joins and the spill stack -/

/-- Free entries of a half's stack (R103). -/
def Group.spillRoom (g : Group) (half : Nat) : Nat :=
  (if g.ganged then 32 else 64) - (g.bank half).spill.length

/-- A push, the entry on top. -/
def Group.push (g : Group) (half : Nat) (e : SpillEntry) : Group :=
  g.setBank half { g.bank half with spill := e :: (g.bank half).spill }

/-- The top removed. -/
def Group.pop (g : Group) (half : Nat) : Group :=
  g.setBank half { g.bank half with spill := (g.bank half).spill.drop 1 }

/-- An entry of the spill stack as its 256 bits (Table 6.3); the code 0xFFFFFFFF stands for no pending join, as in a path record. -/
def SpillEntry.pack : SpillEntry → Nat
  | .pathSet e => e.pc.toNat + (e.pjoin.getD 0xFFFFFFFF).toNat * 2 ^ 32 + e.mask.toNat * 2 ^ 64 + e.mode.toNat * 2 ^ 128
  | .savedJoin j => j.toNat + 2 ^ 144

/-- The entries of a half's stack in their places of the group's spill area (R103): place and bits, the oldest first; the second
half of a ganged group begins at place 32. -/
def Group.spillPlaces (g : Group) (half : Nat) : List (Nat × Nat) :=
  let l := (g.bank half).spill.reverse
  ((upto l.length).map (fun n => 32 * half + n)).zip (l.map SpillEntry.pack)

/-- The spill area of a group in context memory (R103): entry n at byte 32n; what lies past the stacks reads as zeros. -/
def Group.spillArea (g : Group) : List Byte :=
  let l := g.spillPlaces 0 ++ (if g.ganged then g.spillPlaces 1 else [])
  (upto 64).flatMap (fun n => leBytes 32 (((l.find? (fun e => e.1 = n)).map (fun e => e.2)).getD 0))

/-- A path set starts in a slot with every flag zero. -/
def PathSet.start (e : PathSet) : Path :=
  { pc := e.pc, mask := e.mask, mode := e.mode, pjoin := e.pjoin, flags := noFlags, drain := e.drain }

/-- The instructions in flight that the path of a slot owns. -/
def Group.ownedBy (g : Group) (k : Nat) : List Nat := (g.pend.filter (fun p => p.owner k)).map (fun p => p.id)

/-- The path of a slot takes over instructions in flight (R105). -/
def Group.adopt (g : Group) (k : Nat) (ids : List Nat) : Group :=
  if ids.isEmpty then g
  else { g with pend := g.pend.map (fun p => if ids.contains p.id then
      (if k = 0 then { p with owner0 := true } else { p with owner1 := true }) else p) }

/-- A path set starts in a slot, with the instructions that it owns. -/
def Group.startSet (g : Group) (k : Nat) (e : PathSet) : Group := (g.adopt k e.owns).setSlot k (some e.start)

/-- The path of a slot owns nothing any more: its set has gone to the spill stack. -/
def Group.disown (g : Group) (k : Nat) : Group :=
  { g with pend := g.pend.map (fun r => if k = 0 then { r with owner0 := false } else { r with owner1 := false }) }

/-- Whether a path is parked at JOIN, and since when. -/
def Path.atJoin (p : Path) : Option Nat :=
  match p.park with
  | .join n => some n
  | .running => none
  | .barrier _ => none
  | .waita _ => none
  | .launchWait _ => none
  | .sheafMiss => none
  | .exit => none

/-- The other slot holds no path and may take one (R102, R110). -/
def Group.otherFree (g : Group) (k : Nat) : Bool := !g.ganged && (g.slot (1 - k)).isNone

/-- The top of a half's stack, where it is a set with this pending join. -/
def Group.matching (g : Group) (half : Nat) (pj : Word) : Option PathSet :=
  match (g.bank half).spill.head? with
  | some (.pathSet e) => if e.pjoin = some pj then some e else none
  | some (.savedJoin _) => none
  | none => none

/-- The other path of a native group. -/
def Group.rival (g : Group) (k : Nat) : Option Path := if g.ganged then none else g.slot (1 - k)

/-- Row 1 of Table 7.1: the set on top waits at the same join; its lanes join the path. -/
def Group.joinSet (g : Group) (k : Nat) (p : Path) (e : PathSet) : Group :=
  ((g.pop (g.half k)).adopt k e.owns).setSlot k
    (some { p with mask := p.mask ||| e.mask, mode := e.mode, drain := p.drain ++ e.drain })

/-- Row 2: the two paths are one, at the place of the one that parked first. A merged flag counts the distinct instructions of both
paths in its six bits: of more than 63 it holds the count modulo 64. (DESIGN CHOICE, log 74.) -/
def Group.joinPaths (g : Group) (p q : Path) (since qs : Nat) : Group :=
  let first := if qs < since then q else p
  let pend := g.pend.map (fun r => { r with owner0 := r.owner0 || r.owner1, owner1 := false })
  let merged : Path := { p with
    mask := p.mask ||| q.mask, mode := first.mode, park := .join 0,
    flags := flagsOf (pend.filter (fun r => r.owner0)),
    pc := first.pc, drain := p.drain ++ q.drain, stopped := p.stopped || q.stopped }
  { g with pend := pend, slot0 := some merged, slot1 := none }

/-- Row 5: the path waits on the stack at its join, and the set on top runs. -/
def Group.joinSwap (g : Group) (k : Nat) (p : Path) (pj : Word) (e : PathSet) : Option Group :=
  if p.flagsZero then
    let waiting : PathSet :=
      { pc := pj, pjoin := some pj, mask := p.mask, mode := p.mode, owns := g.ownedBy k, drain := p.drain }
    some ((((g.pop (g.half k)).push (g.half k) (.pathSet waiting)).disown k).startSet k e)
  else none

/-- Row 7: the path goes on after its join, with the pending join that was saved. -/
def Group.joinDone (g : Group) (k : Nat) (p : Path) (pj : Word) : Group :=
  let resumed := fun (j : Option Word) =>
    some { p with pc := pj, pjoin := j, park := Park.running, clause := none }
  match (g.bank (g.half k)).spill.head? with
  | some (.savedJoin j) => (g.pop (g.half k)).setSlot k (resumed (some j))
  | some (.pathSet _) => g.setSlot k (resumed none)
  | none => g.setSlot k (resumed none)

/-- One row of Table 7.1 applied to the path parked at JOIN in slot k; none when it stays as it is. -/
def Group.joinRow (g : Group) (k : Nat) (p : Path) (since : Nat) : Option Group :=
  match p.pjoin with
  | none => none
  | some pj =>
    match g.matching (g.half k) pj, g.rival k with
    | some e, some q =>
      if e.pc = pj then some (g.joinSet k p e)
      else if q.pjoin = some pj then q.atJoin.map (g.joinPaths p q since) -- rows 2 and 4
      else g.joinSwap k p pj e
    | some e, none =>
      if e.pc = pj then some (g.joinSet k p e)
      else if g.ganged then g.joinSwap k p pj e
      else some ((g.pop (g.half k)).startSet (1 - k) e) -- row 3
    | none, some q => if q.pjoin = some pj then q.atJoin.map (g.joinPaths p q since) else none -- rows 2, 4, 6
    | none, none => some (g.joinDone k p pj)

/-- The JOIN test of one slot. -/
def Group.tryJoin (g : Group) (k : Nat) : Option Group :=
  match g.slot k with
  | none => none
  | some p =>
    match p.atJoin with
    | none => none
    | some since => g.joinRow k p since

/-- The JOIN test of both slots, repeated while a row applies (R121). -/
def Group.joins : Nat → Group → Group
  | 0, g => g
  | n + 1, g =>
    match g.tryJoin 0 with
    | some g' => Group.joins n g'
    | none =>
      match g.tryJoin 1 with
      | some g' => Group.joins n g'
      | none => g

/-- Entries popped into the slot that an EXIT frees, until a path exists or the stack is empty (R122). -/
def Group.refill (g : Group) (k : Nat) : List SpillEntry → Group
  | [] => g.setBank (g.half k) { g.bank (g.half k) with spill := [] }
  | .savedJoin _ :: l => g.refill k l
  | .pathSet e :: l =>
    let p := e.start
    let p := if e.pjoin = some e.pc then { p with park := .join 0 } else p
    ((g.setBank (g.half k) { g.bank (g.half k) with spill := l }).adopt k e.owns).setSlot k (some p)

/-- The path of slot k leaves the group (R77, R122): its instructions lose that owner, its register returns are
discarded. -/
def Group.exitPath (g : Group) (k : Nat) (mask : DWord) : Group :=
  let g : Group := { g with pend := g.pend.map (fun r =>
    let r := if k = 0 then { r with owner0 := false } else { r with owner1 := false }
    { r with vdst := r.vdst.map (fun e => (e.1, e.2 &&& ~~~mask)) }) }
  let g := { g with demote := none }.setSlot k none
  let empty := if g.ganged then true else (g.slot (1 - k)).isNone
  if empty then g.refill k (g.bank (g.half k)).spill else g

/-- Status of a faulted instruction. -/
def Pend.isFaulted (p : Pend) : Bool :=
  match p.status with
  | .faulted _ => true
  | .inFlight => false
  | .service _ => false
  | .waitOnly => false

/-- An access of the instruction lies in the peers' window, whose device may leave (R332). -/
def Pend.toPeer (p : Pend) : Bool :=
  p.lanes.any (fun a => a.runs.any (fun r => match r.pa with
    | some pa => decide (0x800000000000 ≤ pa)
    | none => false))

/-- An instruction in flight can still fault: it has not passed every check that is left to it (R176, R303). Loads and
atomics meet POISON where they read, a scratchpad write TCOPY, a store of the window a group that left, one to a peer a device
that left; a launch reads its blocks later; textures and engines report at their end. -/
def Pend.mayFault (p : Pend) : Bool :=
  match p.status with
  | .faulted _ => true
  | .service _ => true
  | .waitOnly => false
  | .inFlight =>
    match p.instr with
    | .ld _ _ _ _ _ _ => !p.todo.isEmpty
    | .lds _ _ _ _ _ => !p.todo.isEmpty
    | .atom _ _ _ _ _ _ => !p.todo.isEmpty
    | .atoms _ _ _ _ _ _ => !p.todo.isEmpty
    | .ldcMemory _ _ _ _ => !p.todo.isEmpty
    | .sts _ _ _ _ _ => true
    | .atomNoreturn _ _ _ _ _ => true
    | .atomsNoreturn _ _ _ _ _ => true
    | .st _ _ _ _ _ _ => decide (p.stage = .queued) && (decide ((p.xcap.getD {}).type = 4) || p.toPeer)
    | .stc _ _ _ _ => decide (p.stage = .queued) && p.toPeer
    | .lnchW _ _ _ => decide (p.stage = .queued)
    | .lnchN _ _ _ => true
    | .enq _ _ _ => true
    | .waita _ _ _ _ _ => true
    | .barArrive _ _ => false
    | .barWait _ => false
    | .barSync _ _ => false
    | .ldlod _ _ _ _ => p.due.isEmpty
    | .sample _ _ _ _ => p.due.isEmpty
    | .sampleg _ _ _ _ => p.due.isEmpty
    | i => i.isEngine && p.due.isEmpty

/-- A path at its EXIT leaves once no instruction that it owns can fault (R77). -/
def Group.mayLeave (g : Group) (k : Nat) : Bool :=
  match g.slot k with
  | none => false
  | some p => decide (p.park = .exit) && !g.pend.any (fun q => q.owner k && q.mayFault)

/-- EXIT in slot k (R77): it does not wait, and what its path issued is performed in its own time; the path keeps its slot while
some of that can still fault, since a frame would name the EXIT as its next PC, and leaves then. (DEDUCED, log 51.) -/
def Group.exitFrom (g : Group) (k : Nat) (p : Path) : Group :=
  if g.pend.any (fun q => q.owner k && q.mayFault) then g.setSlot k (some { p with park := .exit })
  else g.exitPath k p.mask

/-- The paths that wait at EXIT and may leave now. -/
def Group.exits (g : Group) : Group :=
  let go := fun (g : Group) (k : Nat) =>
    if g.mayLeave k then (match g.slot k with
      | some p => g.exitPath k p.mask
      | none => g) else g
  go (go g 0) 1

/-- Path set `q` demoted to the spill stack (R119): at its next header, or at its pending join when parked at JOIN. -/
def Path.asSet (q : Path) : PathSet :=
  { pc := match q.atJoin with
      | some _ => q.pjoin.getD q.pc
      | none => q.pc,
    pjoin := q.pjoin, mask := q.mask, mode := q.mode, drain := q.drain }

/-! ### Ends of groups, teams and grids (R77, R99, R133, R141, R151) -/

/-- No path, no spilled set and no instruction in flight. -/
def Group.ended (g : Group) : Bool :=
  g.slot0.isNone && g.slot1.isNone && g.bank0.spill.isEmpty && g.bank1.spill.isEmpty && g.pend.isEmpty &&
    g.bank0.raised.isEmpty && g.bank1.raised.isEmpty

/-- A group is resident on its core. -/
def Group.onCore (g : Group) : Bool := decide (g.res = .active) || decide (g.res = .pending)

/-- A group was stamped from a sheaf, holds it as its nested one, or is saved with registers of it by reference (R151). -/
def Group.needsSheaf (g : Group) (k : Nat) : Bool :=
  decide (g.sheaf = some k) || decide (g.nested = some k) ||
    (!g.onCore && g.v.any (fun m => (m.bind (fun m => m.sheaf)) = some k))

/-- Sheaves that nothing uses any more are discarded with their images (R151); the registers that a resident group shares with
one are its own from then on. -/
def State.dropSheaves (s : State) : State :=
  let live := fun (k : Sheaf) => !k.dropped || s.groups.any (fun g => g.needsSheaf k.id) ||
    s.grids.any (fun d => d.sheaf = some k.id && !d.completed)
  let gone := (s.sheaves.filter (fun k => !live k)).map Sheaf.id
  if gone.isEmpty then s
  else { s with
    sheaves := s.sheaves.filter live
    groups := s.groups.map (fun g => { g with v := g.v.map (fun m => m.map (fun x =>
      if gone.any (fun k => x.sheaf = some k) then { x with sheaf := none } else x)) }) }

/-- Teams of one cluster (R99). -/
def State.clusterTeams (s : State) (t : Team) : List Team :=
  match s.grid? t.grid with
  | none => [t]
  | some d => s.teams.filter (fun u => u.grid = t.grid && u.gx / d.lpb.clw = t.gx / d.lpb.clw &&
      u.gy / d.lpb.clh = t.gy / d.lpb.clh && u.gz = t.gz)

/-- Whether a grid has ended: nothing waits to start, no group lives (R133). -/
def State.gridEnded (s : State) (d : Grid) : Bool :=
  (d.waiting = 0 || d.prologue) && !s.groups.any (fun g => g.grid = d.id)

/-- The group slot number of a group (R168). -/
def Group.gslot (g : Group) : Nat := 16 * (g.index % 4) + g.pos

/-- A group is resident. -/
def Group.resident (g : Group) : Bool := decide (g.res = .active) || decide (g.res = .pending)

/-- The group that a window address names, where it is resident and of the context. BASEHI is R168's, bits 55:28 equal to 0xFE00000,
which is not what Table 9.9's 0x00F_E000_0 reads as. (DESIGN CHOICE, log 75.) -/
def State.windowGroup (s : State) (ctx va : Nat) : Option Group :=
  if bits va 55 28 ≠ 0x0FE00000 then none
  else
    let core := bits va 27 26 * 64 + bits va 25 20
    (s.groups.find? (fun g => g.core = core && g.gslot = bits va 19 14 && g.resident)).bind (fun g =>
      match s.grid? g.grid with
      | some d => if d.ctx = ctx then some g else none
      | none => none)

/-- A grid is marked complete when it has ended; a prologue grid whose instance 0 ended without a freeze starts no
other group (R141). Its sheaf is dropped. -/
def State.closeGrid (s : State) (gid : Nat) : State :=
  match s.grid? gid with
  | none => s
  | some d =>
    if !d.completed && s.gridEnded d then
      let s : State := s.setGrid { d with completed := true, waiting := 0, prologue := false }
      let busy := fun (t : Team) => s.cores.any (fun k => k.copies.any (fun r => r.team = t.id))
      let s : State := { s with
        sheaves := s.sheaves.map (fun k => if k.grid = gid && d.sheaf = some k.id then { k with dropped := true } else k)
        clusters := s.clusters.filter (fun c => c.grid ≠ gid)
        teams := (s.teams.map (fun t => if t.grid = gid then { t with ended := true } else t)).filter (fun t =>
          t.grid ≠ gid || busy t) }
      s.dropSheaves
    else s

/-- Teams all of whose groups have ended are marked; their windows go with their cluster (R99), once no copy request of one of
them is outstanding (R238). -/
def State.closeTeam (s : State) (tid : Nat) : State :=
  match s.team? tid with
  | none => s
  | some t =>
    let alive := s.groups.any (fun g => g.team = tid)
    let waitsFreeze := ((s.grid? t.grid).map (fun d => d.prologue)).getD false
    if alive || (waitsFreeze && t.index ≠ 0) then s
    else
      let s := s.setTeam { t with ended := true }
      let gone := (s.clusterTeams t).all (fun u => u.ended || (u.id = tid))
      let ids := (s.clusterTeams t).map (fun u => u.id)
      let busy := s.cores.any (fun k => k.copies.any (fun r => ids.contains r.team))
      if gone && !busy then
        { s with teams := s.teams.filter (fun u => !ids.contains u.id) }
      else s

/-- A group that has ended leaves the device, and its team and grid with it where they end (R77). -/
def State.reap (s : State) (gid : Nat) : State :=
  match s.group? gid with
  | none => s
  | some g =>
    if !g.ended then s
    else
      let s : State := { s with
        groups := (s.groups.filter (fun h => h.id ≠ gid)).map (fun h =>
          { h with owed := h.owed.filter (fun e => e.1 ≠ gid) })
        sheaves := s.sheaves.map (fun k => if g.nested = some k.id then { k with dropped := true } else k)
        cur := match s.cur with
          | some (x, k) => if x = gid then none else some (x, k)
          | none => none }
      ((s.dropSheaves.closeTeam g.team).closeGrid g.grid)

/-- Every existing path of the group is parked. -/
def Group.allParked (g : Group) : Bool :=
  (g.slot0.toList ++ g.slot1.toList).all (fun p => decide (p.park ≠ .running))

/-- A group that yielding groups waited for is no longer waited for (R113). -/
def State.leaveOwed (s : State) (gid : Nat) : State :=
  { s with groups := s.groups.map (fun h => { h with owed := h.owed.filter (fun e => e.1 ≠ gid) }) }

/-- A group written back after an event: joins are tested again, a group whose paths are all parked is no longer owed a
clause (R113), and the group is reaped when it has ended. -/
def State.settle (s : State) (g : Group) : State :=
  let g := g.joins 80
  let s := s.setGroup g
  let s := if g.allParked then s.leaveOwed g.id else s
  s.reap g.id

/-- A group written back after an event of its own instructions: what waited for them at EXIT leaves (R77). -/
def State.landed (s : State) (g : Group) : State := s.settle g.exits

/-- An instruction completes (R19). -/
def State.completePend (s : State) (gid id : Nat) : State :=
  match s.group? gid with
  | none => s
  | some g => s.landed ((g.wake id).complete id)

/-! ### Faults (R304) -/

/-- A trap with its cause; the issuing word's PC and the order of raising are filled in. -/
def mkTrap (c : Cause) (sub : Byte := 0) : Trap := { cause := c, sub := sub }

/-- ILLEGAL. -/
def trIllegal : Trap := mkTrap .illegal
/-- ILLTYPE. -/
def trIlltype : Trap := mkTrap .illtype
/-- CLAUSE. -/
def trClause : Trap := mkTrap .clause

/-- A precise fault: the word has no effect, the path stops at it, and the fault waits for its frame (R304, R305). -/
def Issue.raise (c : Issue) (t : Trap) : State :=
  let t := { t with pc := c.p.pc, seq := c.s.fresh }
  let b := c.bank
  let c := c.setBank { b with raised := b.raised ++ [t] }
  { c with s := { c.s with fresh := c.s.fresh + 1 }, p := { c.p with stopped := true } }.state

/-- Faults of an instruction in flight: PAGE and POISON go to service (R302); any other cause waits for its frame. -/
def pendFault (t : Trap) : PendStatus :=
  match t.cause with
  | .page => if t.sub = 0xFF then .faulted t else .service t
  | .poison => if t.sub = 0xFF then .faulted t else .service t
  | _ => .faulted t

/-- A word whose fetch, or a TRET whose frame, is with the management cores: its path stops until they answer (R302). -/
def Issue.serviceFetch (c : Issue) (i : Instr) (t : Trap) : State :=
  let t := { t with pc := c.p.pc, seq := c.s.fresh }
  let p : Pend :=
    { id := c.s.fresh, instr := i, pc := c.p.pc, mode := c.p.mode, lmask := c.p.mask, half := c.half,
      owner0 := decide (c.k = 0), owner1 := decide (c.k ≠ 0), flag := none, status := .service t }
  { c with s := { c.s with fresh := c.s.fresh + 1 }, g := { c.g with pend := c.g.pend ++ [p] },
           p := { c.p with stopped := true } }.state

/-- A fault of a fetch, or of TRET's read of its frame: PAGE and POISON go to service (R302, R311). -/
def Issue.fetchFault (c : Issue) (i : Instr) (t : Trap) : State :=
  match pendFault t with
  | .service t => c.serviceFetch i t
  | .faulted t => c.raise t
  | .inFlight => c.raise t
  | .waitOnly => c.raise t

/-- An instruction of the half has faulted, or a fault waits for its frame; a stopped copy request does, one per TRET
(R310). -/
def Group.faulting (g : Group) (half : Nat) : Bool :=
  !(g.bank half).raised.isEmpty || ((g.bank half).live.isNone && !(g.bank half).asyncStops.isEmpty) ||
    g.pend.any (fun p => p.half = half && (match p.status with
      | .faulted _ => true
      | .inFlight => false
      | .service _ => false
      | .waitOnly => false))

/-- A word that reads a register which a faulted instruction writes (R304); VXM writes p6 beside its v range. -/
def Issue.readsFaulted (c : Issue) (i : Instr) : Bool :=
  let rs := i.reads c.p.mode
  let vs := rs.flatMap vNames
  let ss := rs.flatMap sNames
  c.g.pend.any (fun p => p.half = c.half && p.isFaulted &&
    (p.vdst.any (fun e => vs.contains e.1) || p.sdst.any (fun n => ss.contains n) ||
      (match p.instr with
        | .vxm _ _ _ _ => (i.readsP c.p.mode).contains 6
        | _ => false)))

/-- A TRAP. -/
def isTrap : Instr → Bool
  | .trap _ => true
  | _ => false

/-- The word before which a path of a faulting half stops (R304). EXIT and TRAP are among them: the fault is delivered as if
they had not issued (R77, R79). (DEDUCED for TRAP, log 51.) -/
def Issue.mustStop (c : Issue) (i : Instr) : Bool :=
  c.g.faulting c.half &&
    (i.isMemory || i.isEngine || i.isLaunch || decide (i = .exit) || isTrap i || c.readsFaulted i)

/-! ### Holds -/

/-- An s register of the half still has a return to come (R22). -/
def Issue.pendingS (c : Issue) (l : List Nat) : Bool :=
  c.g.pend.any (fun p => p.half = c.half && p.sdst.any (fun n => l.contains n))

/-- A fence of the path that is outstanding. -/
def Pend.isFence (p : Pend) : Bool :=
  match p.instr with
  | .fence _ _ => true
  | .xfence _ _ _ _ => true
  | _ => false

/-- A T-path read (R38). -/
def isTexture : Instr → Bool
  | .ldlod _ _ _ _ => true
  | .sample _ _ _ _ => true
  | .sampleg _ _ _ _ => true
  | _ => false

/-- A V-path access. -/
def isV (i : Instr) : Bool := (i.isMemory && !isTexture i) || i.isLaunch

/-- A word that releases what was ordered before it: an arrival or a launch (R216). FREEZE, which releases too, has a hold of its
own, after its faults (R138). -/
def isRelease : Instr → Bool
  | .barArrive _ _ => true
  | .barSync _ _ => true
  | .repack _ _ _ _ => true
  | .lnchW _ _ _ => true
  | .lnchN _ _ _ => true
  | .enq _ _ _ => true
  | _ => false

/-- The path class of a word's accesses (R38): an XFENCE that names the class after holds it. The link agents' accesses, H and
P, arise from the V accesses. -/
def inClass (ca : PathClass) (i : Instr) : Bool :=
  match ca with
  | .v => isV i || isRelease i
  | .h => isV i
  | .p => isV i
  | .t => isTexture i
  | .c => (match i with
      | .ckick _ _ _ => true
      | _ => false)
  | .m => (match i with
      | .mloadb _ => true
      | .mloop _ => true
      | .mdrain _ => true
      | .mdrainv _ _ _ => true
      | .mzero _ _ => true
      | .mscale _ _ => true
      | .vxm _ _ _ _ => true
      | _ => false)
  | .y => (match i with
      | .trace _ _ _ _ => true
      | .hitret _ _ => true
      | .repack _ _ _ _ => true
      | .visb _ _ _ => true
      | .cover _ _ => true
      | _ => false)
  | .k => (match i with
      | .compose _ _ => true
      | _ => false)

/-- Later accesses that an outstanding FENCE of the path holds, and those that an outstanding XFENCE of the group holds: the
accesses of its class after, on the group's behalf (R189, R190, R216, R218). -/
def Issue.fenced (c : Issue) (i : Instr) : Bool :=
  c.g.pend.any (fun p => match p.instr with
    | .fence _ _ => p.owner c.k && (i.isMemory || isRelease i)
    | .xfence _ ca _ _ => inClass ca i
    | _ => false)

/-- What an arrival at a barrier releases is performed (R129, R217): no V access that the path owns is outstanding, but
for a team barrier a store that is performed at core scope. For a wider scope no store of the core is on its way, so that what
happened before on the core is released too. -/
def Issue.released (c : Issue) (team : Bool) : Bool :=
  !c.g.pend.any (fun q => q.owner c.k && isV q.instr &&
    !(team && decide (q.stage = .atCore) && (match q.instr with
      | .st _ _ _ _ _ _ => true
      | .stc _ _ _ _ => true
      | _ => false))) && (team || (c.s.coreAt c.g.core).buffer.isEmpty)

/-- The flag that an instruction counts on in a clause (R18). -/
def flagFor (i : Instr) (cl : ClauseState) : Option (Fin 12) :=
  match i.latency with
  | .vr => cl.seta
  | .vn => cl.setb
  | .header => none
  | .fixed => none
  | .ends => none
  | .deviceStep => none

/-- Operand-log entries an instruction reserves (R303). -/
def logEntries (i : Instr) (mode : Half) : Nat := ((i.reads mode).flatMap vNames).length + 1

/-- Operand-log entries that an instruction in flight still holds (R303): until it can no longer fault. -/
def Pend.logHeld (p : Pend) : Nat := if p.mayFault then p.vops.length + 1 else 0

/-- Operand-log entries in use in an issue slot: those of its resident groups (R303). -/
def State.logUsed (s : State) (core slot : Nat) : Nat :=
  sumNat ((s.groups.filter (fun g => g.core = core && g.index % 4 = slot &&
    (decide (g.res = .active) || decide (g.res = .pending)))).map (fun g => sumNat (g.pend.map Pend.logHeld)))

/-- An instruction of a group is unfinished: in flight, or an entry of a live frame (R305). -/
def Group.unfinished (g : Group) (id : Nat) : Bool :=
  g.pend.any (fun q => q.id = id) ||
    [g.bank0, g.bank1].any (fun b => (b.live.map (fun l => l.entries.any (fun q => q.id = id))).getD false)

/-- T-path reads that a RESDRAIN of the path waits for (R192). -/
def State.draining (s : State) (p : Path) : Bool := p.drain.any (fun id => s.groups.any (fun g => g.unfinished id))

/-- The lanes whose v sources a word reads: its effective mask, of which only the lowest lane under U = 1 or where the word
takes one value for all (R29, R34). -/
def Issue.readMask (c : Issue) (i : Instr) : DWord :=
  let m := if i.ignoresGuard then c.p.mask else c.emask
  if (i.uniform || i.readsLowest) && m != 0 then maskFrom [lowestLane m] else m

/-- Offsets of the lanes of a V access that go to memory through a translation register, with their bytes (R173). -/
def sectorOffsets (i : Instr) : Option (Fin 8 × Src × Nat) :=
  match i with
  | .ld _ _ x sz _ a => some (x, a, sz.bytes)
  | .st _ _ x sz _ a => some (x, a, sz.bytes)
  | .atom _ _ x _ w a => some (x, a, if w then 8 else 4)
  | .atomNoreturn _ x _ w a => some (x, a, if w then 8 else 4)
  | .ldcMemory _ _ x a => some (x, a, 16)
  | .stc _ _ x a => some (x, a, 16)
  | .lnchW _ x a => some (x, a, 128)
  | .lnchN _ x a => some (x, a, 128)
  | .enq _ x a => some (x, a, 64)
  | .waita _ _ _ (.global x) a => some (x, .s a, 4)
  | _ => none

/-- Sectors that a word would ask for, by virtual address (R173). -/
def Issue.sectorsAsked (c : Issue) (i : Instr) : Nat :=
  match sectorOffsets i with
  | none => 0
  | some (x, a, n) =>
    let base := (nth c.bank.x x.val {}).base.toNat
    (distinct ((lanesIn (c.readMask i)).flatMap (fun l =>
      let va := base + (c.src .control a l).toNat
      (upto ((va % 32 + n + 31) / 32)).map (fun j => va / 32 + j)))).length

/-- The accesses of an instruction in flight that are not yet served or performed; of a launch that is pushed, and of a WAITA
between its reads, none. -/
def Pend.openLanes (p : Pend) : List LaneAccess :=
  match p.instr with
  | .ld _ _ _ _ _ _ => p.lanes.filter (fun a => p.todo.any (fun t => t.1 = a.lane))
  | .atom _ _ _ _ _ _ => p.lanes.filter (fun a => p.todo.any (fun t => t.1 = a.lane))
  | .atomNoreturn _ _ _ _ _ => p.lanes.filter (fun a => p.todo.any (fun t => t.1 = a.lane))
  | .ldcMemory _ _ _ _ => if p.todo.isEmpty then [] else p.lanes
  | .lnchW _ _ _ => if p.stage = .atCore then [] else p.lanes
  | .waita _ _ _ _ _ => []
  | _ => p.lanes

/-- An instruction in flight has no accesses yet: its checks have not all passed. -/
def Pend.unchecked (p : Pend) : Bool :=
  p.lanes.isEmpty && (match p.status with
    | .faulted _ => true
    | .service _ => true
    | .inFlight => false
    | .waitOnly => false)

/-- Sector entries that an instruction in flight holds: those of the sectors it has not been served or performed in, and while a
check of it faults all that it took at issue (R173). -/
def Pend.sectorsHeld (p : Pend) : Nat :=
  if p.unchecked then p.sectors
  else (distinct (p.openLanes.flatMap (fun a => a.runs.flatMap (fun r => match r.pa with
    | none => []
    | some pa => (upto ((pa % 32 + r.len + 31) / 32)).map (fun j => pa / 32 + j))))).length

/-- Sector entries that instructions take which are put back into flight (R311, R314). -/
def sectorsBack (l : List Pend) : Nat := sumNat (l.map (fun p => max p.sectorsHeld (if p.lanes.isEmpty then p.sectors else 0)))

/-- Sector entries of a core in use (R173, R242): those of the instructions of the groups on it, and of what its copy engine has
written and not yet performed. -/
def State.sectorEntries (s : State) (core : Nat) : Nat :=
  sumNat ((s.groups.filter (fun g => g.core = core && g.onCore)).map (fun g => sumNat (g.pend.map Pend.sectorsHeld))) +
    ((s.coreAt core).buffer.filter (fun w => !s.groups.any (fun g => g.id = w.group && g.pend.any (fun p => p.id = w.pend)))).length

/-- Too few of a core's 2,048 sector entries are free for a word (R2, R173). -/
def Issue.sectorsFull (c : Issue) (i : Instr) : Bool :=
  let n := c.sectorsAsked i
  n != 0 && decide (2048 < n + c.s.sectorEntries c.g.core)

/-- The other path of a native group, which a SETJ demotes (R119). -/
def Issue.other (c : Issue) : Option Path := if c.g.ganged then none else c.g.slot (1 - c.k)

/-- A path may be demoted: between clauses, flags zero, not parked elsewhere than at JOIN (R119), and not stopped by a fault or a
TRAP that is to be delivered (R79, R304). -/
def Path.demotable (q : Path) : Bool :=
  q.clause.isNone && q.flagsZero && !q.stopped && (match q.park with
    | .running => true
    | .join _ => true
    | .barrier _ => false
    | .waita _ => false
    | .launchWait _ => false
    | .sheafMiss => false
    | .exit => false)

/-- An instruction belongs to the live handler or to the group's own program: all of them (R311's hold). -/
def Issue.nothingInFlight (c : Issue) : Bool := !c.g.pend.any (fun p => p.half = c.half)

/-- Sets of a BDIV (R120): T and F. -/
def Issue.split (c : Issue) (neg : Bool) (p : Fin 8) : DWord × DWord :=
  let t := c.p.mask &&& (if neg then ~~~(nth c.g.p p.val 0) else nth c.g.p p.val 0)
  (t, c.p.mask &&& ~~~t)

/-- Requests that a core's copy engine has fetched and not finished, and those that kicks in flight on it name
(R237). -/
def State.kicked (s : State) (core : Nat) : Nat :=
  (s.coreAt core).copies.length + sumNat ((s.groups.filter (fun g => g.core = core)).map (fun g =>
    sumNat (g.pend.map (fun p => match p.instr with
      | .ckick _ _ _ => nth p.aux 0 0
      | _ => 0))))

/-- The faults of FREEZE, which come before its hold (R138). -/
def Issue.freezeFault (c : Issue) (a : Src) : Option Trap :=
  let n := (c.control a c.p.mask).toNat
  match c.team?, c.grid? with
  | some t, some _ =>
    if c.g.ganged || (c.g.slot (1 - c.k)).isSome || !c.bank.spill.isEmpty then some trIllegal
    else if 65536 < n ∨ t.scratchSize < n then some (mkTrap .template 2)
    else if c.g.depth = 4 then some (mkTrap .template 1)
    else none
  | _, _ => some trIllegal

/-- A group waits for a sheaf: its registers of it are not yet loaded (R144, R151). -/
def Group.waitsSheaf (g : Group) : Bool :=
  g.missing || (g.slot0.toList ++ g.slot1.toList).any (fun p => decide (p.park = .sheafMiss))

/-- Physical registers that a group holds: those of its mapped names, of a sheaf's once they are loaded, and those that a return
is still to write (R107, R108, R144). -/
def Group.heldRegs (g : Group) : List (Nat × Nat) :=
  g.v.filterMap (fun m => m.bind (fun x => if g.waitsSheaf && x.sheaf.isSome then none else some x.reg)) ++
    g.pend.flatMap Pend.regs

/-- The groups resident on an issue slot of a core. -/
def State.slotGroups (s : State) (core slot : Nat) : List Group :=
  s.groups.filter (fun g => g.core = core && g.index % 4 = slot && (decide (g.res = .active) || decide (g.res = .pending)))

/-- Physical registers of a sheaf on an issue slot (R143, R144): on the slot where it was captured its own reference keeps
them; on any other slot the loaded copies stand while a group of the slot refers to one of them. -/
def State.sheafRegs (s : State) (core slot : Nat) (k : Sheaf) : List (Nat × Nat) :=
  if k.home = (core, slot) then k.v.filterMap (fun m => m.map VMap.reg)
  else if (s.slotGroups core slot).any (fun g => g.heldRegs.any (fun x => x.1 = k.id)) then
    (upto 64).filterMap (fun n => (nth k.v n none).map (fun _ => (k.id, n)))
  else []

/-- Each register once. -/
def distinctRegs : List (Nat × Nat) → List (Nat × Nat)
  | [] => []
  | r :: l => r :: (distinctRegs l).filter (fun x => x ≠ r)

/-- Physical vector registers of an issue slot in use (R107, R108, R143, R144): each one once, whoever refers to it. Those
that a sheaf holds, or that a group holds of another maker, may have several holders; the others belong to one group. -/
def State.poolUsed (s : State) (core slot : Nat) : Nat :=
  let held := (s.slotGroups core slot).map (fun g => (g.id, g.heldRegs))
  let shared := distinctRegs (s.sheaves.flatMap (s.sheafRegs core slot) ++
    held.flatMap (fun e => e.2.filter (fun r => r.1 ≠ e.1)))
  shared.length + sumNat (held.map (fun e =>
    (distinctRegs (e.2.filter (fun r => r.1 = e.1 && !shared.contains r))).length))

/-- Free registers of an issue slot's 512. -/
def State.poolFree (s : State) (core slot : Nat) : Nat := 512 - s.poolUsed core slot

/-- A write finds its slot's pool empty (R109). -/
def Issue.poolEmpty (c : Issue) (i : Instr) : Bool :=
  let n := (vRegs i.returns).length + (vRegs i.fixedDst).length
  decide (0 < n) && decide (c.s.poolFree c.g.core (c.g.index % 4) < n)

/-- The other path has issued its EXIT and keeps its slot for the frame of a late fault alone (R77): a word that looks for a free
slot, or for a path to demote, waits until it is free. -/
def Issue.otherLeaves (c : Issue) : Bool := (c.other.map (fun q => decide (q.park = .exit))).getD false

/-- v names of an instruction that are not mapped. -/
def Group.unmappedOf (g : Group) (p : Pend) : List Nat := (p.vdst.map (fun e => e.1)).filter (fun n => (nth g.v n none).isNone)

/-- Entries that a TRET has room to put back into flight: sector entries of the core, and registers for destinations that are not
mapped any more (R107, R173). -/
def Issue.roomBack (c : Issue) (l : List Pend) : Bool :=
  decide (c.s.sectorEntries c.g.core + sectorsBack l ≤ 2048) &&
    decide ((distinct (l.flatMap c.g.unmappedOf)).length ≤ c.s.poolFree c.g.core (c.g.index % 4))

/-- Holds that a description states for its own instruction: BDIV, SETJ, TRET, FREEZE and CKICK (R119, R120, R311,
R138, R237); VXM waits for the return of an earlier p6 (R22); an arrival waits for what it releases (R129, R275). -/
def Issue.ownHold (c : Issue) (i : Instr) : Bool :=
  match i with
  | .bdiv neg p _ =>
    let (t, f) := c.split neg p
    t != 0 && f != 0 && (c.otherLeaves || (!c.g.otherFree c.k && !c.p.flagsZero))
  | .setj _ =>
    c.otherLeaves || (match c.g.demote, c.other with
      | some k, some q => k = c.k && !q.demotable
      | _, _ => false)
  | .barArrive a _ => !c.released (decide ((c.control a c.p.mask).toNat < 32))
  | .barSync a _ => !c.released (decide ((c.control a c.p.mask).toNat < 32))
  | .repack _ _ _ _ => !c.released true
  | .freeze a => (c.freezeFault a).isNone && (!c.g.pend.isEmpty || !(c.s.coreAt c.g.core).buffer.isEmpty)
  | .vxm _ _ _ _ => c.g.pend.any (fun p => p.half = c.half && (match p.instr with
      | .vxm _ _ _ _ => true
      | _ => false))
  | .ckick _ _ b =>
    let n := (c.control b c.emask).toNat
    c.emask != 0 && decide (n ≤ 64) && decide (1024 < c.s.kicked c.g.core + n)
  | .tret =>
    match c.bank.live, c.other with
    | some l, none => c.bank.spill.length = l.spillDepth &&
        (!c.nothingInFlight || !c.roomBack l.entries || c.s.dieHeld (c.g.core / 64))
    | _, _ => false
  | _ => false

/-- The window registers of its own group that an earlier load or store of the group is still to read or write (R169). -/
def Issue.windowNames (c : Issue) (writes : Bool) : List Nat :=
  c.g.pend.flatMap (fun q =>
    let x := q.xcap.getD {}
    let open_ := match q.instr with
      | .st _ _ _ _ _ _ => decide (q.stage = .queued)
      | .ld _ _ _ _ _ _ => writes && !q.todo.isEmpty
      | _ => false
    if x.type = 4 && decide (q.status = .inFlight) && open_ then
      q.lanes.filterMap (fun a =>
        let va := x.base.toNat + a.off.toNat
        if bits va 27 26 * 64 + bits va 25 20 = c.g.core && bits va 19 14 = c.g.gslot then some (bits va 13 8) else none)
    else [])

/-- The word reads or writes a v register that an earlier window access of its own group is still to write, or writes one that it is
still to read: the accesses of one place keep program order (R212, R221). -/
def Issue.windowHeld (c : Issue) (i : Instr) : Bool :=
  let names := (i.reads c.p.mode).flatMap vNames
  let dsts := vRegs i.returns ++ vRegs i.fixedDst
  (c.windowNames false).any names.contains || (c.windowNames true).any dsts.contains

/-- A word that makes accesses through a translation register waits where a walk of them, or one of their bytes, is held (R323,
R336). -/
def Issue.pathHeld (c : Issue) (i : Instr) : Bool :=
  match sectorOffsets i, c.s.contextOf c.g with
  | some (x, a, n), some ctx =>
    (lanesIn (c.readMask i)).any (fun l =>
      c.s.rangeHeld c.g.core ctx (nth c.bank.x x.val {}) (c.src .control a l).toNat n)
  | _, _ => false

/-- No instruction issues in the core's section: it ramps, or it is too hot (R342, R346, R347). -/
def State.sectionStopped (s : State) (core : Nat) : Bool :=
  let x := nth s.sections (core / 32) {}
  x.ramping || x.hot

/-- The word reads a poisoned word of a v register, in a lane that it reads (R346). -/
def Issue.meetsPoison (c : Issue) (i : Instr) : Bool :=
  let names := (i.reads c.p.mode).flatMap vNames
  c.g.poisonV.any (fun e => names.contains e.1 && (c.readMask i).getLsbD e.2)

/-- A POISON that no service answers is forwarded to the context that owns the word, and the management log records that context
(R346). -/
def State.notePoison (s : State) (g : Group) (t : Trap) : State :=
  if t.cause = .poison ∧ t.sub = 0xFF then { s with log := s.log ++ [.poison (((s.grid? g.grid).map Grid.ctx).getD 0)] } else s

/-- ILLEGAL or ILLTYPE, which come before a POISON (R41). -/
def Eff.isForm : Eff → Bool
  | .raise t => decide (t.cause = .illegal) || decide (t.cause = .illtype)
  | .raiseAfter _ => false
  | .meets _ _ => false
  | .wait _ => false
  | .done _ => false
  | .goto _ _ => false
  | .final _ _ => false

/-- The word does not issue yet (R19, R20, R22, R113, R189, R192, R221, R303, R323). A fixed-latency write of p6 while the return of
a VXM to it is pending issues, and the return then overwrites it: R22 states a wait for s registers only. (DESIGN CHOICE, log
73.) -/
def Issue.holds (c : Issue) (i : Instr) (cl : ClauseState) : Bool :=
  (match flagFor i cl with
    | some f => c.p.flag f.val = 63
    | none => false) ||
  c.pendingS (sRegs i.returns) || c.pendingS (sRegs i.fixedDst) ||
  c.fenced i || c.s.draining c.p || !c.g.owed.isEmpty ||
  ((i.latency = .vr || i.latency = .vn) && decide (48 < c.s.logUsed c.g.core (c.g.index % 4) + logEntries i c.p.mode)) ||
  c.poolEmpty i || c.sectorsFull i || c.s.sectionStopped c.g.core || c.windowHeld i || c.pathHeld i || c.ownHold i

/-- Clause position and SETA (R21): a clause-ending word stands last, a returning one needs SETA. -/
def misplaced (i : Instr) (cl : ClauseState) : Bool :=
  (i.latency = .ends && decide (1 < cl.left)) || (i.latency = .vr && cl.seta.isNone)

/-! ### Issue -/

/-- The path after its word: the next word of the clause, or the next header. -/
def Path.advance (p : Path) : Path :=
  { p with
    pc := p.pc + 4
    clause := match p.clause with
      | none => none
      | some cl => if cl.left ≤ 1 then none else some { cl with left := cl.left - 1 } }

/-- The path of slot k has ended a clause: groups that this group owed a whole clause, and that saw that path start it, are
no longer held by it (R113). -/
def State.clauseIssued (s : State) (gid k : Nat) : State :=
  { s with groups := s.groups.map (fun h =>
    { h with owed := h.owed.filter (fun e => !(e.1 = gid && (if k = 0 then e.2.1 else e.2.2))) }) }

/-- The issuing path and its group written back. -/
def Issue.commit (c : Issue) (g : Group) (ended : Bool) : State :=
  let g : Group := { g with issued := g.issued + 1, lastIssue := c.s.issues }
  let s : State := { c.s with issues := c.s.issues + 1 }
  let s := s.settle g
  if ended then s.clauseIssued g.id c.k else s

/-- The state after an effect. -/
def Eff.apply (c0 : Issue) (e : Eff) : State :=
  match e with
  | .raise t => c0.raise t
  | .raiseAfter t =>
    let t := { t with pc := c0.p.pc, seq := c0.s.fresh, user := c0.p.clause.map (fun cl => (c0.k, cl)) }
    let c := c0.setBank { c0.bank with raised := c0.bank.raised ++ [t] }
    { c with s := { c.s with fresh := c.s.fresh + 1 }, p := { c.p.advance with stopped := true } }.state
  | .meets c t => c.fetchFault .tret t
  | .wait g => c0.s.setGroup g
  | .done c =>
    let p := c.p.advance
    c.commit (c.g.setSlot c.k (some p)) p.clause.isNone
  | .goto c pc => c.commit (c.g.setSlot c.k (some { c.p with pc := pc, clause := none })) true
  | .final c g => c.commit g true

/-- One word of the current path: faults of position first, then holds, then the faults of its form (R41), POISON, and its
effect. The path waits
where a hold stands: the state is left as it is. (DESIGN CHOICE without a current path, log 3.) -/
def issue (i : Instr) (body : Issue → Eff) (s : State) : Result :=
  match s.issue? with
  | none => .next s
  | some c =>
    match c.p.clause with
    | none => .next (c.raise trClause)
    | some cl =>
      if !i.wf || misplaced i cl then .next (c.raise trIllegal)
      else if c.mustStop i then .next { c with p := { c.p with stopped := true } }.state
      else if c.holds i cl then .next s
      else if c.meetsPoison i && !(body c).isForm then
        .next ((c.raise (mkTrap .poison 0xFF)).notePoison c.g (mkTrap .poison 0xFF))
      else .next ((body c).apply c)

/-! ### Instructions in flight -/

/-- One register, constant or special of a source range. -/
def unitSrc (a : Src) (i : Nat) : Src :=
  match a with
  | .v n => .v ⟨(n.val + i) % 64, Nat.mod_lt _ (by decide)⟩
  | .vLast n => .v ⟨(n.val + i) % 64, Nat.mod_lt _ (by decide)⟩
  | .s n => .s ⟨(n.val + i) % 64, Nat.mod_lt _ (by decide)⟩
  | .p n => .p n
  | .special sp => .special sp
  | .const k => .const k

/-- Every register that an instruction reads, one by one, in the order of R308. -/
def unitSources (l : List (Src × Nat)) : List Src := l.flatMap (fun e => (upto e.2).map (unitSrc e.1))

/-- Lane words of a v register as a source reads it: zeros when unmapped. -/
def Group.vBlock (g : Group) (n : Nat) : List Word :=
  match nth g.v n none with
  | none => List.replicate 64 0
  | some m => m.lanes

/-- The v blocks that an instruction captures at issue (R303, R308). -/
def captureV (g : Group) : List Src → List (List Word)
  | [] => []
  | .v n :: l => g.vBlock n.val :: captureV g l
  | .vLast n :: l => g.vBlock n.val :: captureV g l
  | .s _ :: l => captureV g l
  | .p _ :: l => captureV g l
  | .special _ :: l => captureV g l
  | .const _ :: l => captureV g l

/-- The scalar and special values that an instruction captures (R308); a predicate gives its two halves. -/
def captureS (c : Issue) (lane : Nat) : List Src → List Word
  | [] => []
  | .v _ :: l => captureS c lane l
  | .vLast _ :: l => captureS c lane l
  | .s n :: l => c.bank.sreg n.val :: captureS c lane l
  | .p n :: l => (nth c.g.p n.val 0).extractLsb' 0 32 :: (nth c.g.p n.val 0).extractLsb' 32 32 :: captureS c lane l
  | .special sp :: l => c.src .control (.special sp) lane :: captureS c lane l
  | .const _ :: l => captureS c lane l

/-- The value of the j-th unit source in a lane, from what was captured. -/
def lookupOp (laneIdx lane : Nat) (dl : Delivery) : List Src → List (List Word) → List Word → Nat → Word
  | [], _, _, _ => 0
  | .v _ :: l, b :: bs, ss, j => if j = 0 then nth b lane 0 else lookupOp laneIdx lane dl l bs ss (j - 1)
  | .vLast _ :: l, b :: bs, ss, j => if j = 0 then nth b lane 0 else lookupOp laneIdx lane dl l bs ss (j - 1)
  | .s _ :: l, bs, w :: ss, j => if j = 0 then w else lookupOp laneIdx lane dl l bs ss (j - 1)
  | .p _ :: l, bs, lo :: hi :: ss, j =>
    if j = 0 then boolWord dl ((hi ++ lo).getLsbD lane) else lookupOp laneIdx lane dl l bs ss (j - 1)
  | .special sp :: l, bs, w :: ss, j =>
    if j = 0 then (if sp = .lane then BitVec.ofNat 32 laneIdx else w) else lookupOp laneIdx lane dl l bs ss (j - 1)
  | .const k :: l, bs, ss, j => if j = 0 then constWord dl k else lookupOp laneIdx lane dl l bs ss (j - 1)
  | _, _, _, _ => 0

/-- The j-th unit source of an instruction in flight, in a lane; under U = 1 the lowest lane supplies it (R29). -/
def Pend.op (p : Pend) (g : Group) (dl : Delivery) (j lane : Nat) : Word :=
  let lane := if p.instr.uniform then lowestLane p.lmask else lane
  lookupOp (g.laneIndex lane) lane dl (unitSources (p.instr.reads p.mode)) p.vops p.sops j

/-- The j-th unit source as a control value of the lowest lane. -/
def Pend.opc (p : Pend) (g : Group) (j : Nat) : Word := p.op g .control j (lowestLane p.lmask)

/-- The lanes that make an access: all of the mask, or the lowest under U = 1 (R175). -/
def Pend.accessLanes (p : Pend) : List Nat :=
  if p.instr.uniform then (lanesIn p.lmask).take 1 else lanesIn p.lmask

/-- An instruction issued: its operands are captured, its destination names take new mappings that hold the old values
until the return (R22), last reads release, and its flag rises (R19). -/
def Issue.fly (c : Issue) (i : Instr) (lmask : DWord) (edit : Issue → Pend → Pend) : Issue × Pend :=
  let cl := (c.p.clause).getD { seta := none, setb := none, left := 1 }
  let rs := i.reads c.p.mode
  let us := unitSources rs
  let dsts := i.returns
  let p : Pend :=
    { id := c.s.fresh, instr := i, pc := c.p.pc, mode := c.p.mode, lmask := lmask, half := c.half,
      owner0 := decide (c.k = 0), owner1 := decide (c.k ≠ 0), flag := flagFor i cl,
      vops := captureV c.g us, sops := captureS c (lowestLane lmask) us,
      vdst := (vRegs dsts).map (fun n => (n, lmask)), sdst := sRegs dsts, sectors := c.sectorsAsked i }
  let p := edit c p
  let c1 := c.noteReads rs
  let c2 := { c1 with g := (vRegs dsts).foldl Group.renameV c1.g }
  let p := { p with regs := (vRegs dsts).map (fun n => ((nth c2.g.v n none).map VMap.reg).getD (0, 0)) }
  let c3 := c2.releaseReads rs (vRegs dsts)
  ({ c3 with
      s := { c3.s with fresh := c3.s.fresh + 1 }
      g := { c3.g with pend := c3.g.pend ++ [p] }
      p := c3.p.rise p.flag }, p)

/-- An instruction with an empty effective mask accesses nothing and completes at once (R34). Its sources count as read: an
unmapped one sets STATUS.UNMAPPED, and a last-read bit is honoured. (DESIGN CHOICE, log 59.) -/
def Issue.idle (c : Issue) (i : Instr) : Eff :=
  let rs := i.reads c.p.mode
  .done ((c.noteReads rs).releaseReads rs [])

/-- Lanes of a destination that an instruction issued later is still to write too (R22). -/
def Group.laterLanes (g : Group) (p : Pend) (n : Nat) : DWord :=
  ((g.pend.dropWhile (fun q => q.id ≠ p.id)).drop 1).foldl (fun m q =>
    q.vdst.foldl (fun m e => if e.1 = n then m ||| e.2 else m) m) 0

/-- What was issued before an instruction no longer writes these lanes of a name: the later value stands (R22). -/
def claimBefore (id n : Nat) (mask : DWord) : List Pend → List Pend
  | [] => []
  | q :: l => if q.id = id then q :: l else q.claim n mask :: claimBefore id n mask l

/-- One destination register (the e-th) written in the lanes of a mask (R22). Where a later return of the same name is
pending too, `shows` says whether the lane shows this one's value before it. A VXM's value past its v range is that of p6. -/
def Group.returnOne (g : Group) (p : Pend) (e : Nat) (mask : DWord) (val : Nat → Word) (shows : Nat → Bool) : Group :=
  let g := match p.vdst[e]? with
    | none => (match p.instr with
        | .vxm _ _ _ _ => g.writeP 6 mask (fun l => val l ≠ 0)
        | _ => g)
    | some (n, live) =>
      let m := live &&& mask
      match nth g.v n none with
      | none => g
      | some old =>
        if m = 0 then g
        else
          let later := g.laterLanes p n
          let m := if later = 0 then m else m &&& ~~~(later &&& ~~~(maskOf shows))
          { g with
            v := putNth none g.v n (some { old with lanes := tabulate (fun l => if m.getLsbD l then val l else nth old.lanes l 0) })
            pend := claimBefore p.id n (live &&& mask) g.pend
            poisonV := cleanse n m g.poisonV }
  match p.sdst[e]? with
  | none => g
  | some n =>
    if mask.getLsbD (lowestLane p.lmask) then
      g.setBank p.half ((g.bank p.half).writeS n (val (lowestLane p.lmask)))
    else g

/-- The values that are due split in what is written now and what stays: all of them for part 0, one lane of one register
for part 64 × place + lane + 1, where that one is due (R22). -/
def splitDue (part : Nat) (l : List (Nat × DWord × List Word)) :
    List (Nat × DWord × List Word) × List (Nat × DWord × List Word) :=
  if part = 0 then (l, [])
  else
    let e := (part - 1) / 64
    let b := maskFrom [(part - 1) % 64]
    if l.any (fun x => x.1 = e && x.2.1 &&& b != 0) then
      ((l.filter (fun x => x.1 = e && x.2.1 &&& b != 0)).map (fun x => (x.1, b, x.2.2)),
        (l.map (fun x => if x.1 = e then (x.1, x.2.1 &&& ~~~b, x.2.2) else x)).filter (fun x => x.2.1 != 0))
    else (l, [])

/-- Values that an instruction has read written to its destinations, in part or whole (R22, R173). -/
def State.writeDue (s : State) (g : Group) (p : Pend) (part : Nat) : State × Group × Pend :=
  let (now, later) := splitDue part p.due
  let g := now.foldl (fun (g : Group) x =>
    g.returnOne p x.1 x.2.1 (fun l => nth x.2.2 l 0) (fun l => Config.showsEarlier s.freeCount (64 * x.1 + l))) g
  (s.nextFree, g, { p with due := later })

/-- The quad that an instruction returns takes its tag bit (R155). -/
def Group.tagReturned (g : Group) (p : Pend) : Group :=
  match p.sdst with
  | [] => g
  | n :: _ => if p.dueTag then
      g.setBank p.half { g.bank p.half with stag := putNth false (g.bank p.half).stag (n / 4) true } else g

/-- Entries in the ring, accepted ones included. -/
def Context.gutterUsed (c : Context) : Nat := (c.guthead - c.guttail).toNat + c.gutPending.length

/-- One entry handled by the texture unit of a core: filtered, dropped, or accepted (R200). -/
def State.gutter (s : State) (core ctx id : Nat) (w : GutterWant) : State :=
  match s.context? ctx with
  | none => s
  | some c =>
    let k := s.coreAt core
    let key : FilterKey := { ctx := ctx, desc := w.desc, want := w.want, page := w.page }
    if k.filter.contains key then s
    else if c.gutSize ≤ c.gutterUsed then
      let drops := min (c.gutovf.toNat % 2 ^ 31 + 1) (2 ^ 31 - 1)
      s.setContext { c with gutovf := BitVec.ofNat 32 (2 ^ 31 + drops) }
    else
      let q : QWord := BitVec.ofNat 128 (w.desc.toNat + w.want * 2 ^ 32 + w.served * 2 ^ 36 + (w.page % 2 ^ 32) * 2 ^ 64 +
        (c.ctxid % 65536) * 2 ^ 96)
      (s.setContext { c with gutPending := c.gutPending ++ [(id, core, q)] }).setCore core
        { k with filter := (key :: k.filter).take 64 }

/-- The gutter entries of a T-path read that completes are handled, in lane order (R232). -/
def State.putGutters (s : State) (g : Group) (p : Pend) : State :=
  if p.gutters.isEmpty then s
  else
    match s.grid? g.grid with
    | none => s
    | some d => p.gutters.foldl (fun (s : State) w => s.gutter g.core d.ctx p.id w) s

/-- The group with an instruction's remaining parts, completed when none is left (R19, R173). -/
def State.progress (s : State) (g : Group) (p : Pend) : State :=
  if p.todo.isEmpty && p.due.isEmpty then (s.putGutters g p).landed (((g.tagReturned p).wake p.id).complete p.id)
  else s.landed (g.setPend p)

/-- What is due is written, in part or whole, and the instruction completes where nothing is left (R19, R22). -/
def State.deliver (s : State) (g : Group) (p : Pend) (part : Nat) : State :=
  let (s, g, p) := s.writeDue g p part
  s.progress g p

/-- Everything an instruction returns, in the lanes of its mask: `val i lane` for the i-th destination register. -/
def Pend.dueAll (p : Pend) (val : Nat → Nat → Word) : List (Nat × DWord × List Word) :=
  (upto (max p.vdst.length p.sdst.length)).map (fun i => (i, p.lmask, tabulate (val i)))

/-- Everything an instruction returns, its first part at once. -/
def State.returnAll (s : State) (gid : Nat) (p : Pend) (part : Nat) (val : Nat → Nat → Word) : State :=
  match s.group? gid with
  | none => s
  | some g => s.deliver g { p with due := p.dueAll val, todo := [] } part

/-! ### Frames (R305 to R308) -/

/-- Cause code (Table 21.1). -/
def Cause.code : Cause → Nat
  | .illegal => 1 | .illtype => 2 | .clause => 3 | .misalign => 4 | .bounds => 5 | .perm => 6 | .captag => 7
  | .page => 8 | .discard => 9 | .spill => 10 | .template => 12 | .tcopy => 13 | .lnchwait => 14 | .window => 15
  | .barrier => 16 | .matrix => 17 | .watchdog => 18 | .overrun => 19 | .poison => 20
  | .trap n => 32 + n.toNat / 16

/-- TRAPN. -/
def Cause.trapN : Cause → Nat
  | .trap n => n.toNat
  | _ => 0

/-- A path parked at its pending join itself, where a set starts that waits there (R122): no JOIN word parked it. -/
def Path.waitsAtJoin (p : Path) : Bool := p.atJoin.isSome && decide (p.pjoin = some p.pc)

/-- A path as its record gives it: parked at a JOIN word, it stopped in mid-clause at that word, the clause's last. -/
def Path.recorded (p : Path) : Path :=
  match p.atJoin with
  | some _ => if p.pjoin = some p.pc then p else { p with clause := some { seta := none, setb := none, left := 1 } }
  | none => p

/-- A path record (Table 21.4). LEFT counts the words still to issue, modulo 16. (DEDUCED, log 25.) -/
def pathRecord : Option Path → Nat
  | none => 0
  | some p =>
    let p := p.recorded
    let flagCode := fun (f : Option (Fin 12)) => match f with
      | some f => f.val
      | none => 15
    let clause := match p.clause with
      | none => 15 * 2 ^ 144 + 15 * 2 ^ 148
      | some cl => flagCode cl.seta * 2 ^ 144 + flagCode cl.setb * 2 ^ 148 + (cl.left % 16) * 2 ^ 152 + 2 ^ 158
    p.pc.toNat + ((p.pjoin).getD 0xFFFFFFFF).toNat * 2 ^ 32 + p.mask.toNat * 2 ^ 64 + p.mode.toNat * 2 ^ 128 +
      clause + 2 ^ 159 +
      ((upto 12).foldl (fun acc f => acc + p.flag f * 2 ^ (160 + 6 * f)) 0)

/-- Operand blocks of an instruction (R308): its v blocks, then one block of scalars where it has any. -/
def Pend.blocks (p : Pend) : List (List Word) :=
  p.vops ++ (if p.sops.isEmpty then [] else [p.sops ++ List.replicate (64 - p.sops.length) 0])

/-- A replay entry (Table 21.5). A half of a ganged group is path 0 of its frame (R306). -/
def Pend.entry (p : Pend) (ganged : Bool) (word : Word) (opbase : Nat) : Nat :=
  let t := match p.status with
    | .faulted t => some t
    | .inFlight => none
    | .service _ => none
    | .waitOnly => none
  let waitOnly := match p.status with
    | .waitOnly => 1
    | .inFlight => 0
    | .service _ => 0
    | .faulted _ => 0
  let tt := t.getD { cause := .illegal }
  let f := if t.isSome then 1 else 0
  word.toNat + p.pc.toNat * 2 ^ 32 + (if p.owner0 || (ganged && p.owner1) then 1 else 0) * 2 ^ 64 +
    (if p.owner1 && !ganged then 1 else 0) * 2 ^ 65 +
    f * 2 ^ 66 + waitOnly * 2 ^ 67 + f * tt.cause.code * 2 ^ 72 + f * tt.sub.toNat * 2 ^ 80 +
    (match p.flag with
      | some f => f.val
      | none => 15) * 2 ^ 88 +
    p.mode.toNat * 2 ^ 96 + p.lmask.toNat * 2 ^ 128 + f * tt.fmask.toNat * 2 ^ 192 + f * tt.faddr.toNat * 2 ^ 256 +
    opbase * 2 ^ 320 + p.blocks.length * 2 ^ 328 +
    (match p.xcap with
      | some x => x.pack
      | none => 0) * 2 ^ 512

/-- Entries laid out, each with its first operand block. -/
def layEntries (ganged : Bool) (word : Instr → Word) : List Pend → Nat → List Nat
  | [], _ => []
  | p :: l, base => p.entry ganged (word p.instr) base :: layEntries ganged word l (base + p.blocks.length)

/-- A frame header (Table 21.3). -/
def frameHeader (t : Trap) (async : Option AsyncStop) (spilld nent nlog : Nat) (p0 p1 : Option Path) (ssave : List Word)
    (stag : Bool) : Nat :=
  0x00545246 + 2 ^ 32 + t.cause.code * 2 ^ 64 + t.sub.toNat * 2 ^ 72 + t.cause.trapN * 2 ^ 80 +
    (if async.isSome then 1 else 0) * 2 ^ 88 + nent * 2 ^ 96 + nlog * 2 ^ 104 + t.fmask.toNat * 2 ^ 256 +
    t.faddr.toNat * 2 ^ 320 +
    (nth ssave 0 0).toNat * 2 ^ 384 + (nth ssave 1 0).toNat * 2 ^ 416 + (nth ssave 2 0).toNat * 2 ^ 448 +
    (nth ssave 3 0).toNat * 2 ^ 480 +
    pathRecord p0 * 2 ^ 536 + pathRecord p1 * 2 ^ 768 + spilld * 2 ^ 1008 +
    (match async with
      | some a => a.reqOffset.toNat + a.delivered.toNat * 2 ^ 32
      | none => 0) * 2 ^ 1024 +
    (if stag then 1 else 0) * 2 ^ 1088

/-- Bytes written at once at every scope, the core's own copies with them (R306). -/
def State.writeThroughRuns (s : State) (core : Nat) (runs : List Run) (l : List Byte) : State :=
  let s := s.writeRuns runs l
  s.setCore core ((s.coreAt core).update (pairBytes (runAddresses runs) l))

/-- Bytes written through a capability as the device writes a frame (R306), or the fault of the first check that fails. -/
def State.writeThrough (s : State) (core : Nat) (c : Context) (x : XReg) : List (Nat × List Byte) → Except Trap State
  | [] => .ok s
  | (o, l) :: rest =>
    match s.access core c x .store false 1 l.length o with
    | (.ok runs _, s) => (s.writeThroughRuns core runs l).writeThrough core c x rest
    | (.bad _ cs sub f _, _) => .error { cause := cs, sub := sub, faddr := BitVec.ofNat 64 f }

/-- Bytes read through a capability, or the fault of the check, with what the check marks (R161). -/
def State.readThrough (s : State) (core : Nat) (c : Context) (x : XReg) (n o : Nat) : Except Trap (List Byte) × State :=
  match s.access core c x .load true 1 n o with
  | (.ok runs _, s) => (.ok (s.readRuns runs), s)
  | (.bad _ cs sub f _, s) => (.error { cause := cs, sub := sub, faddr := BitVec.ofNat 64 f }, s)

/-- The frame region's capability: context capability slot 1 (R306). -/
def State.frameCap (s : State) (c : Context) : Option XReg :=
  match c.slots.find? (fun e => e.1 = 1) with
  | some (_, cap, true) => some (s.xlatOf c cap)
  | some (_, _, false) => none
  | none => none

/-- The word of each block, little-endian. -/
def blockBytes (b : List Word) : List Byte := b.flatMap (fun w => leBytes 4 w.toNat)

/-- The pieces of a frame (R307): header, entries and operand blocks that are used. (PRESUMED, log 24.) -/
def framePieces (header : Nat) (entries : List Nat) (blocks : List (List Word)) : List (Nat × List Byte) :=
  (0, leBytes 512 header) ::
    (((upto entries.length).zip entries).map (fun e => (512 + 128 * e.1, leBytes 128 e.2)) ++
      ((upto blocks.length).zip blocks).map (fun e => (3584 + 256 * e.1, blockBytes e.2)))

/-- Every path of the half has stopped: it stopped, it is parked, or no path is there (R304). -/
def Path.halted (p : Path) : Bool := p.stopped || decide (p.park ≠ .running)

/-- The paths of a half. -/
def Group.paths (g : Group) (half : Nat) : List Path :=
  if g.ganged then (g.slot half).toList else g.slot0.toList ++ g.slot1.toList

/-- A fetch, or a TRET's read of its frame, that is with the management cores (R302): it stands among the instructions in
flight under NOP or TRET, which never fly themselves, and its path has stopped. -/
def Pend.isFetch (p : Pend) : Bool := decide (p.instr = .nop) || decide (p.instr = .tret)

/-- An atomic some of whose lanes have been performed. -/
def Pend.partAtomic (p : Pend) : Bool :=
  (match p.instr with
    | .atom _ _ _ _ _ _ => true
    | .atomNoreturn _ _ _ _ _ => true
    | _ => false) && decide (p.todo.length < p.lanes.length)

/-- An instruction that has performed a part at its coherence point, or has read what it is still to write, completes and is
not queued (R305). A wait that is parked has performed nothing. -/
def Pend.begun (p : Pend) : Bool :=
  !p.due.isEmpty || (match p.status with
  | .waitOnly => false
  | .faulted _ => false
  | .service _ => false
  | .inFlight => p.partAtomic || (p.stage = .atCore && (match p.instr with
    | .lnchW _ _ _ => false
    | .barWait _ => false
    | .barSync _ _ => false
    | .ld _ _ _ _ _ _ => false
    | _ => true)))

/-- An instruction as the replay queue holds it: a counted sync and a pushed LNCH .w only wait (R305). -/
def Pend.queue (p : Pend) : Pend :=
  match p.status with
  | .inFlight =>
    (match p.instr with
      | .lnchW _ _ _ => if p.stage = .atCore then { p with status := .waitOnly } else p
      | .barSync _ _ => if p.stage = .atCore then { p with status := .waitOnly } else p
      | _ => { p with tex := [], seen := none })
  | .waitOnly => p
  | .faulted _ => p
  | .service _ => p

/-- A half is ready for its frame: it faulted, every path has stopped, no performed instruction remains, at most 24 are unfinished
and their operands take at most 48 blocks (R304, R305, R307). -/
def Group.readyFrame (g : Group) (half : Nat) : Bool :=
  let mine := g.pend.filter (fun p => p.half = half && !p.isFetch)
  g.faulting half && (g.paths half).all Path.halted && !mine.any Pend.begun && mine.length ≤ 24 &&
    sumNat (mine.map (fun p => p.queue.blocks.length)) ≤ 48

/-- The trap of a faulted instruction. -/
def Pend.trap? (p : Pend) : Option Trap :=
  match p.status with
  | .faulted t => some t
  | .inFlight => none
  | .service _ => none
  | .waitOnly => none

/-- The fault that a frame of a half reports (R305): that of its earliest faulted entry, in issue order; where no entry
faulted, the precise fault that was raised first. -/
def Group.firstTrap (g : Group) (half : Nat) : Option Trap :=
  match (g.pend.filter (fun p => p.half = half)).filterMap Pend.trap? with
  | t :: _ => some t
  | [] => (g.bank half).raised.head?

/-- The path records that the management cores keep of a double fault (R307): those that a frame would have held. -/
def Group.pathRecords (g : Group) : List Nat := [pathRecord g.slot0, pathRecord g.slot1]

/-- Every group of a grid ends as at EXIT (R77, R307): paths and spilled sets go, returns are discarded, faulted and
waiting instructions are dropped, and what was issued is still performed. -/
def Group.kill (g : Group) : Group :=
  { g with
    slot0 := none, slot1 := none
    bank0 := { g.bank0 with spill := [], raised := [], asyncStops := [], live := none }
    bank1 := { g.bank1 with spill := [], raised := [], asyncStops := [], live := none }
    owed := []
    pend := (g.pend.filter (fun p => match p.status with
      | .inFlight => (match p.instr with
          | .barWait _ => false
          | .barSync _ _ => false
          | .repack _ _ _ _ => false
          | .waita _ _ _ _ _ => false
          | .lnchW _ _ _ => false
          | _ => true)
      | .faulted _ => false
      | .service _ => false
      | .waitOnly => false)).map (fun p =>
        { p with owner0 := false, owner1 := false, vdst := p.vdst.map (fun e => (e.1, 0)), sdst := [] }) }

/-- A grid ends with a status (R307, R316, R334). -/
def State.endGrid (s : State) (gid status : Nat) : State :=
  match s.grid? gid with
  | none => s
  | some d =>
    let s : State := s.setGrid { d with status := status, waiting := 0, prologue := false }
    let s : State := { s with
      cores := s.cores.map (fun k => { k with deque := k.deque.filter (fun r => r.grid ≠ gid) })
      placements := s.placements.filter (fun r => r.grid ≠ gid)
      contexts := s.contexts.map (fun c => { c with overflow := c.overflow.filter (fun r => r.grid ≠ gid) })
      groups := s.groups.map (fun g => if g.grid = gid then g.kill else g) }
    let mine := (s.groups.filter (fun g => g.grid = gid)).map (fun g => g.id)
    (mine.foldl State.reap s).closeGrid gid

/-- A double fault: the management cores keep both causes and the path records, and the grid ends (R307). -/
def State.doubleFault (s : State) (g : Group) (first second : Trap) : State :=
  let s : State := { s with log := s.log ++ [.doubleFault g.grid first second g.pathRecords] }
  s.endGrid g.grid 2

/-- TRAPVEC holds no handler (R307). -/
def noHandler : Word := 0xFFFFFFFC

/-- The trap of a stopped copy request. -/
def AsyncStop.asTrap (a : AsyncStop) : Trap := a.trap

/-- User traps that a frame does not report are as if they had not issued: their paths stand at the TRAP again, and TRET
reissues it (R79, R304). (DEDUCED, log 51.) -/
def Group.unraise (g : Group) (half seq : Nat) : Group :=
  (g.bank half).raised.foldl (fun (g : Group) t => match t.user with
    | some (k, cl) => if t.seq = seq then g else g.mapSlot k (fun p => { p with pc := t.pc, clause := some cl })
    | none => g) g

/-- TAKING A TRAP on the handler route (R305 to R310): the frame is written through slot 1, the unfinished instructions
become its replay entries, and the handler starts at TRAPVEC as the half's only path. `word` gives an instruction's
word. -/
def State.takeTrap (s : State) (word : Instr → Word) (g : Group) (half : Nat) : State :=
  let first := g.firstTrap half
  let g := g.unraise half ((first.map Trap.seq).getD s.fresh)
  let b := g.bank half
  let mine := (g.pend.filter (fun p => p.half = half && !p.isFetch)).map Pend.queue
  let async := match first with
    | some _ => none
    | none => b.asyncStops.head?
  let t := match first, async with
    | some t, _ => t
    | none, some a => a.asTrap
    | none, none => trIllegal
  match b.live with
  | some l => s.doubleFault g l.trap t
  | none =>
    if b.trapvec = noHandler then s.doubleFault g t t
    else
      match s.contextOf g with
      | none => s
      | some c =>
        let p0 := if g.ganged then g.slot half else g.slot0
        let p1 := if g.ganged then none else g.slot1
        let ssave := [b.sreg 60, b.sreg 61, b.sreg 62, b.sreg 63]
        let stag := b.quadTag 15
        let blocks := mine.flatMap Pend.blocks
        let header := frameHeader t async b.spill.length mine.length blocks.length p0 p1 ssave stag
        let entries := layEntries g.ganged word mine 0
        let base := 16384 * b.trapframe.toNat
        let pieces := (framePieces header entries blocks).map (fun e => (base + e.1, e.2))
        let written : Except Trap State := match s.frameCap c with
          | none => .error (mkTrap .bounds)
          | some x => s.writeThrough g.core c x pieces
        match written with
        | .error e => s.doubleFault g t { e with pc := t.pc }
        | .ok s =>
          let handler : Path := { pc := b.trapvec, mask := g.fullMask half, flags := noFlags }
          let live : LiveFrame :=
            { frame := b.trapframe.toNat, trap := t, entries := mine, ssave := ssave, stag := stag,
              spillDepth := b.spill.length,
              drains := ((p0.map Path.drain).getD [], (p1.map Path.drain).getD []),
              joined := ((p0.map Path.waitsAtJoin).getD false, (p1.map Path.waitsAtJoin).getD false) }
          let g := { g with demote := none }.setBank half { b with
            raised := [], live := some live,
            asyncStops := match async with
              | some _ => b.asyncStops.drop 1
              | none => b.asyncStops }
          let g : Group := { g with pend := g.pend.filter (fun p => p.half ≠ half) }
          let g := if g.ganged then g.setSlot half (some handler)
            else { g with slot0 := some handler, slot1 := none }
          s.setGroup g

end Sys2Proof.Machine
end

