-- ==== Sys2Proof/Machine/Transcend.lean ====
section
/-! DEFINITION. The correctly rounded functions 2^a, log2 a, sin 2πa and cos 2πa (R49, R87, R88), by enclosing the
exact value between two numbers of `prec` fraction bits and rounding both ends. -/
namespace Sys2Proof.Machine

/-- Sum of floor(2^p / (k × 2^k)) for k = 1 to n: ln 2 from below, within n units. -/
def ln2At (p : Nat) : Nat := (upto (p + 8)).foldl (fun acc k => acc + 2 ^ p / ((k + 1) * 2 ^ (k + 1))) 0

/-- arctan(1/x) at p fraction bits: the positive and the negative terms. -/
def arctanInv (p x n : Nat) : Int :=
  (upto n).foldl (fun acc k =>
    let t : Int := (2 ^ p / ((2 * k + 1) * x ^ (2 * k + 1)) : Nat)
    if k % 2 = 0 then acc + t else acc - t) 0

/-- π/2 at p fraction bits, by Machin's formula. -/
def halfPi (p : Nat) : Nat := (2 * (4 * arctanInv p 5 (p / 4 + 2) - arctanInv p 239 (p / 14 + 2))).toNat

/-- e^y for y of p fraction bits. -/
def expSeries (p y : Nat) : Nat :=
  ((upto (p / 4 + 4)).foldl (fun (acc : Nat × Nat) k =>
    let t := acc.1 * y / 2 ^ p / (k + 1)
    (t, acc.2 + t)) (2 ^ p, 2 ^ p)).2

/-- 2 artanh z for z of p fraction bits, z at most 1/3. -/
def artanh2 (p z : Nat) : Nat :=
  2 * ((upto (p / 3 + 4)).foldl (fun (acc : Nat × Nat) k =>
    (acc.1 * z / 2 ^ p * z / 2 ^ p, acc.2 + acc.1 / (2 * k + 1))) (z, 0)).2

/-- sin t for t of p fraction bits, t at most π/2. -/
def sinSeries (p t : Nat) : Nat :=
  ((upto (p / 6 + 6)).foldl (fun (acc : Nat × Int) k =>
    (acc.1 * t / 2 ^ p * t / 2 ^ p / ((2 * k + 2) * (2 * k + 3)),
      if k % 2 = 0 then acc.2 + acc.1 else acc.2 - acc.1)) (t, 0)).2.toNat

/-- The error bound of the series above, in units of the last fraction bit. -/
def slack : Nat := 4096

/-- Both ends of an enclosure rounded; the result when they agree. -/
def settle (f : FFmt) (rnd : Nat) (sat neg : Bool) (v : Nat) (e : Int) : Option (Nat × FFlags) :=
  let lo := roundFin f rnd sat neg (v - slack) e true
  let hi := roundFin f rnd sat neg (v + slack) e true
  if lo = hi then some lo else none

/-- The enclosure at two precisions, then the free value of Config. -/
def settled (f : FFmt) (rnd : Nat) (sat neg : Bool) (op enc : Nat) (v : Nat → Nat × Int) : Nat × FFlags :=
  match settle f rnd sat neg (v 320).1 (v 320).2 with
  | some r => r
  | none =>
    match settle f rnd sat neg (v 640).1 (v 640).2 with
    | some r => r
    | none => (Config.unsettled op enc % 2 ^ f.width, flNX)

/-- FEXP2 (R87). -/
def exp2Val (f : FFmt) (rnd : Nat) (sat : Bool) (enc : Nat) : Nat × FFlags :=
  match f.value enc with
  | .nan s => nanResult f s
  | .inf n => if n then (0, 0) else infResult f false
  | .fin n m e =>
    if m = 0 then roundFin f rnd sat false 1 0 false
    else if 1024 ≤ e + (Nat.log2 m : Int) then
      -- beyond every exponent range
      if n then roundFin f rnd sat false 1 (-4096) true else roundFin f rnd sat false (2 ^ 40) 4096 true
    else
      let x := sgn n m
      if 0 ≤ e then roundFin f rnd sat false 1 (x * (2 ^ e.toNat : Nat)) false
      else
        let unit : Nat := 2 ^ (-e).toNat
        let k := x / (unit : Int)
        let fr := (x % (unit : Int)).toNat
        if fr = 0 then roundFin f rnd sat false 1 k false
        else settled f rnd sat false 0 enc
          (fun p => (expSeries p (fr * 2 ^ p / unit * ln2At p / 2 ^ p), k - p))

/-- FLOG2 (R87). -/
def log2Val (f : FFmt) (rnd : Nat) (sat : Bool) (enc : Nat) : Nat × FFlags :=
  match f.value enc with
  | .nan s => nanResult f s
  | .inf n => if n then nanResult f true else infResult f false
  | .fin n m e =>
    if m = 0 then poleResult f sat true flDZ
    else if n then nanResult f true
    else
      let l := Nat.log2 m
      let k := e + (l : Int)
      if m = 2 ^ l then roundFin f rnd sat (decide (k < 0)) k.natAbs 0 false
      else
        let neg := decide (k < 0)
        settled f rnd sat neg 1 enc (fun p =>
          let z := (m - 2 ^ l) * 2 ^ p / (m + 2 ^ l)
          let fr : Int := (artanh2 p z * 2 ^ p / ln2At p : Nat)
          ((k * (2 ^ p : Nat) + fr).natAbs, -(p : Int)))

/-- sin 2πx for x = m / unit ≥ 0, with the sign `neg` applied; `zneg` is the sign of a zero result. -/
def sinTurns (f : FFmt) (rnd : Nat) (sat : Bool) (op enc : Nat) (neg zneg : Bool) (m unit : Nat) : Nat × FFlags :=
  let r := m % unit
  let quad := 4 * r / unit
  let g := 4 * r % unit
  let neg' := if 2 ≤ quad then !neg else neg
  if g = 0 then
    if quad % 2 = 0 then (f.signed zneg 0, 0) else roundFin f rnd sat neg' 1 0 false
  else
    let h := if quad % 2 = 0 then g else unit - g
    settled f rnd sat neg' op enc (fun p => (sinSeries p (h * halfPi p / unit), -(p : Int)))

/-- FSIN (R87, R88). -/
def sinVal (f : FFmt) (rnd : Nat) (sat : Bool) (enc : Nat) : Nat × FFlags :=
  match f.value enc with
  | .nan s => nanResult f s
  | .inf _ => nanResult f true
  | .fin n m e =>
    if 0 ≤ e then (f.signed n 0, 0)
    else sinTurns f rnd sat 2 enc n n m (2 ^ (-e).toNat)

/-- FCOS (R87, R88): the sine of a quarter turn more. -/
def cosVal (f : FFmt) (rnd : Nat) (sat : Bool) (enc : Nat) : Nat × FFlags :=
  match f.value enc with
  | .nan s => nanResult f s
  | .inf _ => nanResult f true
  | .fin _ m e =>
    if 0 ≤ e then roundFin f rnd sat false 1 0 false
    else
      let unit : Nat := 2 ^ (-e).toNat
      sinTurns f rnd sat 3 enc false false (4 * m + unit) (4 * unit)

end Sys2Proof.Machine
end

