-- ==== Sys2Proof/Machine/Flags.lean ====
section
/-! DEFINITION. Conditions and status: compare conditions (R36), STATUS and FPSTAT as words (R16, R48), and the
fixed-latency result of one instruction in every lane, with its FPSTAT flags (R29, R34, R48). -/
namespace Sys2Proof.Machine

/-- An integer condition (Table 2.13, Integer column); codes 6 to 13 raise ILLEGAL and give false here. -/
def icond (c : Cond) (x y : Int) : Bool :=
  match c with
  | .eq => x = y
  | .ne => x ≠ y
  | .lt => x < y
  | .le => x ≤ y
  | .gt => y < x
  | .ge => y ≤ x
  | .tr => true
  | .fl | .ord | .uno | .ltu | .leu | .gtu | .geu | .equ | .neo => false

/-- STATUS (Table 2.5). -/
def Issue.statusWord (c : Issue) : Word :=
  (0 : BitVec 28) ++ c.g.opclass ++ (if c.g.ganged then (1 : BitVec 1) else 0) ++
    (if c.bank.unmapped then (1 : BitVec 1) else 0)

/-- FPSTAT (Table 3.4). -/
def Bank.fpstatWord (b : Bank) : Word := (0 : BitVec 26) ++ b.fpstat

/-- The value of element e of a word under a signedness and width (R60). -/
def elemVal (sg : Bool) (w : Nat) (x : Word) (e : Nat) : Int :=
  if sg then toSigned w (elemNat x w e) else (elemNat x w e : Int)

/-- Element results put together, with every flag that an element raises. -/
def perElem (w : Nat) (f : Nat → Nat × FFlags) : Word × FFlags :=
  let l := (upto (32 / w)).map f
  (ofElems w (l.map (fun r => r.1)), l.foldl (fun acc r => acc ||| r.2) 0)

/-- The result in each lane and the flags: once on the lowest lane under U = 1 (R29), else in every lane of the mask. -/
def laneResults (u : Bool) (m : DWord) (f : Nat → Word × FFlags) : (Nat → Word) × FFlags :=
  if u then
    let r := f (lowestLane m)
    (fun _ => r.1, r.2)
  else
    let l := (upto 64).map (fun i => if m.getLsbD i then f i else (0, 0))
    (fun i => (nth l i (0, 0)).1, l.foldl (fun acc r => acc ||| r.2) 0)

/-- A fixed-latency instruction with one destination (R29, R34, R107, R108, R48). -/
def Issue.fixed (c : Issue) (i : Instr) (u : Bool) (d : Dst) (f : Nat → Word × FFlags) : Eff :=
  let m := c.emask
  if m = 0 then c.idle i
  else
    let r := laneResults u m f
    let rs := i.reads c.p.mode
    .done ((((c.noteReads rs).write d m r.1).releaseReads rs (vRegs [d])).mergeFlags r.2)

/-- A fixed-latency instruction that writes a predicate (R66, R86). -/
def Issue.fixedP (c : Issue) (i : Instr) (u : Bool) (p : Fin 8) (f : Nat → Bool × FFlags) : Eff :=
  let m := c.emask
  if m = 0 then c.idle i
  else
    let r := laneResults u m (fun l => let x := f l; (if x.1 then 1 else 0, x.2))
    let rs := i.reads c.p.mode
    let c1 := c.noteReads rs
    let c2 : Issue := { c1 with g := c1.g.writeP p.val m (fun l => r.1 l = 1) }
    .done ((c2.releaseReads rs []).mergeFlags r.2)

/-- The mode's integer type, for an integer instruction: ILLTYPE under types 9 to 11 (R33, R60). -/
def Issue.withInt (c : Issue) (k : Bool → Nat → Delivery → Eff) : Eff :=
  match intType (modeType c.p.mode) with
  | none => .raise trIlltype
  | some (sg, w) => k sg w (.typed (intTypeOf (modeType c.p.mode)))

/-- The mode's float format, for a float instruction (R33, R82). -/
def Issue.withFloat (c : Issue) (k : FFmt → Delivery → Eff) : Eff :=
  match floatType (modeType c.p.mode) with
  | none => .raise trIlltype
  | some f => k f (.typed (modeType c.p.mode))

end Sys2Proof.Machine
end

