-- ==== Sys2Proof/Machine/Access.lean ====
section
/-! DEFINITION. The memory instructions at issue (R174 to R188): their operands, the checks of R176 over every lane, and
the instruction in flight that they leave; the checks are made again when an instruction is replayed (R176, R311). -/
namespace Sys2Proof.Machine

/-! ### Kinds of V access -/

/-- The translation register that an instruction names. -/
def xOf : Instr → Option (Fin 8)
  | .ld _ _ x _ _ _ => some x
  | .st _ _ x _ _ _ => some x
  | .atom _ _ x _ _ _ => some x
  | .atomNoreturn _ x _ _ _ => some x
  | .ldcMemory _ _ x _ => some x
  | .stc _ _ x _ => some x
  | .pref _ x _ _ => some x
  | .lnchW _ x _ => some x
  | .lnchN _ x _ => some x
  | .enq _ x _ => some x
  | .waita _ _ _ (.global x) _ => some x
  | .ldlod _ _ _ _ => some 5
  | .sample _ _ _ _ => some 5
  | .sampleg _ _ _ _ => some 5
  | .trace _ _ _ _ => some 6
  | .hitret _ _ => none
  | .visb _ _ _ => some 6
  | .vxm _ _ _ _ => some 7
  | _ => none

/-- Bytes, alignment, permission and whether the data is read, of an access through a translation register. -/
def globalForm : Instr → Option (Nat × Nat × Need × Bool)
  | .ld _ _ _ sz _ _ => some (sz.bytes, sz.bytes, .load, true)
  | .st _ _ _ sz _ _ => some (sz.bytes, sz.bytes, .store, false)
  | .atom _ _ _ _ w _ => some (if w then 8 else 4, if w then 8 else 4, .atomic, true)
  | .atomNoreturn _ _ _ w _ => some (if w then 8 else 4, if w then 8 else 4, .atomic, true)
  | .ldcMemory _ _ _ _ => some (16, 16, .load, true)
  | .stc _ _ _ _ => some (16, 16, .store, false)
  | .lnchW _ _ _ => some (128, 16, .load, true)
  | .lnchN _ _ _ => some (128, 16, .load, true)
  | .enq _ _ _ => some (64, 64, .load, true)
  | .waita _ _ _ (.global _) _ => some (4, 4, .load, true)
  | _ => none

/-- Bytes of a scratchpad access, its space, and whether it writes. -/
def scratchForm : Instr → Option (Nat × Space × Bool)
  | .lds _ _ sp sz _ => some (sz.bytes, sp, false)
  | .sts _ _ sp sz _ => some (sz.bytes, sp, true)
  | .atoms _ _ sp _ w _ => some (if w then 8 else 4, sp, true)
  | .atomsNoreturn _ sp _ w _ => some (if w then 8 else 4, sp, true)
  | .waita _ _ _ .team _ => some (4, .team, false)
  | _ => none

/-- A scratchpad access that reads: every one but STS. -/
def readsScratch : Instr → Bool
  | .sts _ _ _ _ _ => false
  | _ => true

/-- Place of the offset among the unit sources (R308): after the data of a store. -/
def offsetIndex : Instr → Nat
  | .st _ _ _ sz _ _ => sz.regs
  | .sts _ _ _ sz _ => sz.regs
  | .stc _ _ _ _ => 4
  | _ => 0

/-- The offset of a lane. -/
def Pend.offset (p : Pend) (g : Group) (lane : Nat) : Nat := (p.op g .control (offsetIndex p.instr) lane).toNat

/-- The lanes that check their access: only the lowest for LDC and WAITA (R182, R191). -/
def Pend.checkedLanes (p : Pend) : List Nat :=
  match p.instr with
  | .ldcMemory _ _ _ _ => (lanesIn p.lmask).take 1
  | .ldcTable _ _ _ => (lanesIn p.lmask).take 1
  | .waita _ _ _ _ _ => (lanesIn p.lmask).take 1
  | _ => p.accessLanes

/-! ### The register window (R168, R169) -/

/-- Lane and byte of the i-th byte of a window access: it continues in the same register. (DEDUCED, log 21.) -/
def windowByte (va i : Nat) : Nat × Nat :=
  let x := (va % 256 + i) % 256
  (x / 4, x % 4)

/-- The bytes that a window read returns; an unmapped name reads zero. -/
def Group.windowRead (g : Group) (va n : Nat) : List Byte :=
  (upto n).map (fun i =>
    let (l, b) := windowByte va i
    (g.vLane (bits va 13 8) l).extractLsb' (8 * b) 8)

/-- A window write: a new mapping with the written bytes merged (R169). -/
def Group.windowWrite (g : Group) (va : Nat) (bytes : List Byte) : Group :=
  let r := bits va 13 8
  let es := (upto bytes.length).zip bytes
  let lanes := distinct (es.map (fun e => (windowByte va e.1).1))
  g.writeV r (maskFrom lanes) (fun l =>
    let old := g.vLane r l
    ofElems 8 ((upto 4).map (fun b =>
      match es.find? (fun e => windowByte va e.1 = (l, b)) with
      | some e => e.2.toNat
      | none => elemNat old 8 b)))

/-! ### Scratchpad targets (R165) -/

/-- The team and offset that a scratchpad offset names; none raises BOUNDS. -/
def State.scratchTarget (s : State) (g : Group) (sp : Space) (off n : Nat) : Option (Team × Nat) :=
  match s.team? g.team with
  | none => none
  | some t =>
    match sp with
    | .team => if off + n ≤ t.scratchSize then some (t, off) else none
    | .peer =>
      match s.grid? t.grid with
      | none => none
      | some d =>
        if 2 ^ 24 ≤ off then none
        else
          let peer := off / 2 ^ 20 % 16
          let o := off % 2 ^ 20
          match (s.clusterTeams t).find? (fun u => u.gx % d.lpb.clw + d.lpb.clw * (u.gy % d.lpb.clh) = peer) with
          | none => none
          | some u => if peer < d.lpb.clw * d.lpb.clh ∧ o + n ≤ u.scratchSize then some (u, o) else none

/-- Scratchpad checks of one lane (R176, R165), a poisoned word that is read among them (R346). -/
def State.scratchCheck (s : State) (g : Group) (sp : Space) (reads : Bool) (n off : Nat) : LaneCheck :=
  if off % n ≠ 0 then badLane .misalign 0 off
  else match s.scratchTarget g sp off n with
    | none => badLane .bounds 0 off
    | some (t, o) => if reads && t.poisoned o n then badLane .poison 0xFF off else .ok [] []

/-- Copies that a team's reserve still takes (R146). -/
def Team.room (t : Team) : Nat := t.cow / 128 - t.copied.length

/-- The lines that lanes must copy, taken in ascending lane order: the lanes whose line no longer fits the reserve meet
TCOPY, each with the offset of its first line that has no room (R146). -/
def State.tcopyLanes (s : State) (g : Group) (sp : Space) (n : Nat) : List (Nat × Nat) → List (Nat × Nat) →
    List (Nat × Nat)
  | [], _ => []
  | (lane, off) :: l, taken =>
    match s.scratchTarget g sp off n with
    | none => s.tcopyLanes g sp n l taken
    | some (t, o) =>
      let need := (s.linesToCopy t o n).filter (fun x => !taken.contains (t.id, x))
      let mine := (taken.filter (fun e => e.1 = t.id)).length
      if t.reserveFor (mine + need.length) then s.tcopyLanes g sp n l (taken ++ need.map (fun x => (t.id, x)))
      else (lane, 128 * nth need (t.room - mine) (o / 128)) :: s.tcopyLanes g sp n l taken

/-! ### The checks of R176 -/

/-- The fault of an instruction from its lanes' checks: the first cause that any lane meets. -/
def laneFault (l : List (Nat × LaneCheck)) : Option Trap :=
  let bad := l.filterMap (fun e => match e.2 with
    | .bad o c u f _ => some (e.1, o, c, u, f)
    | .ok _ _ => none)
  match bad with
  | [] => none
  | b :: rest =>
    let first := rest.foldl (fun acc x => if x.2.1 < acc.2.1 then x else acc) b
    let (_, o, c, u, f) := first
    some { cause := c, sub := u, fmask := maskFrom ((bad.filter (fun x => x.2.1 = o)).map (fun x => x.1)),
           faddr := BitVec.ofNat 64 f }

/-- The accesses of lanes whose checks passed. -/
def laneAccesses (g : Group) (p : Pend) (l : List (Nat × LaneCheck)) : List LaneAccess :=
  l.filterMap (fun e => match e.2 with
    | .ok runs _ => some { lane := e.1, off := BitVec.ofNat 32 (p.offset g e.1), runs := runs }
    | .bad _ _ _ _ _ => none)

/-- What the checks of all lanes mark (R161). -/
def State.markLanes (s : State) (core ctx : Nat) (writes : Bool) (l : List (Nat × LaneCheck)) : State :=
  l.foldl (fun s e => s.markCheck core ctx writes e.2) s

/-- One lane's check of an access through a translation register, the window included (R158, R169, R183). -/
def State.globalLane (s : State) (g : Group) (c : Context) (p : Pend) (x : XReg) (n align : Nat) (need : Need)
    (reads : Bool) (lane : Nat) : LaneCheck :=
  let off := p.offset g lane
  let local_ : Bool := match p.instr with
    | .stc _ _ _ _ => p.stag && (quadBits ((upto 4).map (fun i => p.op g .control i lane))).getLsbD 63 = false
    | _ => false
  if x.type = 4 then
    if off % align ≠ 0 then badLane .misalign 0 off
    else if x.bound.toNat < off + n then badLane .bounds 0 off
    else if !hasPerm x.perm need.perm || local_ then badLane .perm 0 off
    else
      let allowed := match p.instr with
        | .ld _ _ _ _ _ _ => true
        | .st _ _ _ _ _ _ => true
        | _ => false
      if allowed && (s.windowGroup c.id (x.base.toNat + off)).isSome then .ok [] [] else badLane .window 0 off
  else
    match s.checkAccess g.core c x need reads align n off with
    | .ok runs ls => if local_ then badLane .perm 0 off else .ok runs ls
    | .bad o cs u f ls => if local_ && 3 < o then badLane .perm 0 off else .bad o cs u f ls

/-- The checks of one instruction in flight, with their effect on the page tables (R161): its lanes, or its fault. -/
def State.checkPend (s : State) (g : Group) (p : Pend) : Pend × State :=
  let stamp := fun (s : State) (t : Trap) =>
    ({ p with status := pendFault { t with pc := p.pc, seq := s.fresh } }, { s with fresh := s.fresh + 1 })
  match globalForm p.instr, scratchForm p.instr, s.contextOf g with
  | some (n, align, need, reads), _, some c =>
    let x := p.xcap.getD {}
    let l := p.checkedLanes.map (fun lane => (lane, s.globalLane g c p x n align need reads lane))
    let s := (s.markLanes g.core c.id need.writes l).nextFree
    match laneFault l with
    | some t => stamp s t
    | none =>
      let acc := laneAccesses g p l
      let elems := match p.instr with
        | .ld _ _ _ sz _ _ => sz.regs
        | _ => 1
      ({ p with lanes := acc, status := .inFlight,
                todo := acc.flatMap (fun a => (upto elems).map (fun e => (a.lane, e))) }, s)
  | none, some (n, sp, writes), _ =>
    let l := p.checkedLanes.map (fun lane => (lane, s.scratchCheck g sp (readsScratch p.instr) n (p.offset g lane)))
    let fault := laneFault l
    let bad := if writes then s.tcopyLanes g sp n (p.checkedLanes.map (fun x => (x, p.offset g x))) [] else []
    match fault, bad with
    | none, [] => ({ p with lanes := laneAccesses g p l, status := .inFlight,
                            todo := p.checkedLanes.map (fun x => (x, 0)) }, s)
    | none, (_, o) :: _ =>
      stamp s { cause := .tcopy, fmask := maskFrom (bad.map (fun b => b.1)), faddr := BitVec.ofNat 64 o }
    | some t, [] => stamp (s.notePoison g t) t
    | some t, (_, o) :: _ =>
      if t.cause = .poison then -- TCOPY comes before POISON (R176)
        stamp s { cause := .tcopy, fmask := maskFrom (bad.map (fun b => b.1)), faddr := BitVec.ofNat 64 o }
      else stamp s t
  | _, _, _ =>
    match p.instr with
    | .mint _ _ _ _ =>
      let pq := quadBits ((upto 4).map (fun i => p.opc g i))
      let b1 := p.opc g 5
      let b3 := p.opc g 7
      let off := bits b1.toNat 23 0 * 2 ^ 32 + (p.opc g 4).toNat
      let len := bits b3.toNat 7 0 * 2 ^ 32 + (p.opc g 6).toNat
      let perm : Byte := b3.extractLsb' 8 8
      let type := bits b3.toNat 23 16
      if !p.stag then stamp s { mkTrap .captag with fmask := maskFrom [lowestLane p.lmask] }
      else if !hasPerm (capPerm pq) permM || bits b1.toNat 31 24 ≠ 0 || bits b3.toNat 31 24 ≠ 0 ||
          decide ((capLength pq).toNat < off + len) || perm &&& ~~~(capPerm pq) ≠ 0 || decide (4 < type) ||
          (type = 4 && (capType pq).toNat ≠ 4) then
        stamp s { mkTrap .perm 2 with fmask := maskFrom [lowestLane p.lmask] }
      else ({ p with status := .inFlight }, s)
    | .xlat _ _ _ =>
      if !p.stag then stamp s { mkTrap .captag with fmask := maskFrom [lowestLane p.lmask] }
      else ({ p with status := .inFlight }, s)
    | .ldcTable _ _ _ =>
      let slot := (p.opc g 0).toNat
      if 65536 ≤ slot then
        stamp s { mkTrap .bounds with fmask := maskFrom [lowestLane p.lmask], faddr := BitVec.ofNat 64 slot }
      else ({ p with status := .inFlight }, s)
    | .tlook _ _ _ _ =>
      let tags := ((s.team? g.team).map (fun t => t.tags)).getD 0
      let bad := p.accessLanes.filter (fun l =>
        let b := (p.op g .control 1 l).toNat
        decide (tags < bits b 10 0 + bits b 21 16 + 1))
      match bad with
      | [] => ({ p with status := .inFlight }, s)
      | l :: _ => stamp s { mkTrap .bounds with fmask := maskFrom bad,
                                                faddr := BitVec.ofNat 64 (bits (p.op g .control 1 l).toNat 10 0) }
    | .tset _ _ _ =>
      let tags := ((s.team? g.team).map (fun t => t.tags)).getD 0
      let bad := p.accessLanes.filter (fun l => decide (tags ≤ (p.op g .control 0 l).toNat))
      match bad with
      | [] => ({ p with status := .inFlight }, s)
      | l :: _ => stamp s { mkTrap .bounds with fmask := maskFrom bad,
                                                faddr := (p.op g .control 0 l).zeroExtend 64 }
    | _ => ({ p with status := .inFlight }, s)

/-! ### Issue -/

/-- What an instruction captures beside its operands: its translation register and the tag of its quad (R307, R309). -/
def captureCap (i : Instr) (c : Issue) (p : Pend) : Pend :=
  let p := match xOf i with
    | some x => { p with xcap := some (nth c.bank.x x.val {}) }
    | none => p
  match i with
  | .mint _ _ a _ => { p with stag := c.bank.quadTag a.val }
  | .xlat _ _ a => { p with stag := c.bank.quadTag a.val }
  | .stc _ d _ _ => { p with stag := c.bank.quadTag d.val }
  | .ckick _ _ _ => p
  | _ => p

/-- A variable-latency instruction over its effective mask: it captures, is checked, and flies or faults (R19, R34,
R176). -/
def flyChecked (i : Instr) (s : State) : Result :=
  issue i (fun c =>
    let m := c.emask
    if m = 0 then c.idle i
    else
      let (c, p) := c.fly i m (captureCap i)
      let (p, s) := c.s.checkPend c.g p
      .done { c with s := s, g := c.g.setLast p }) s

/-- LD (R177). -/
def execLd (u : Bool) (d : Dst) (x : Fin 8) (sz : MemSize) (h : Hint) (a : Src) (s : State) : Result :=
  flyChecked (.ld u d x sz h a) s

/-- ST (R178). -/
def execSt (u : Bool) (d : Src) (x : Fin 8) (sz : MemSize) (h : Hint) (a : Src) (s : State) : Result :=
  flyChecked (.st u d x sz h a) s

/-- ATOM that returns (R179). -/
def execAtom (u : Bool) (d : Dst) (x : Fin 8) (op : AtomOp) (w : Bool) (a : Src) (s : State) : Result :=
  flyChecked (.atom u d x op w a) s

/-- ATOM without return. -/
def execAtomNoreturn (u : Bool) (x : Fin 8) (op : AtomOp) (w : Bool) (a : Src) (s : State) : Result :=
  flyChecked (.atomNoreturn u x op w a) s

/-- LDS (R181). -/
def execLds (u : Bool) (d : Dst) (sp : Space) (sz : MemSize) (a : Src) (s : State) : Result :=
  flyChecked (.lds u d sp sz a) s

/-- STS. -/
def execSts (u : Bool) (d : Src) (sp : Space) (sz : MemSize) (a : Src) (s : State) : Result :=
  flyChecked (.sts u d sp sz a) s

/-- ATOMS that returns. -/
def execAtoms (u : Bool) (d : Dst) (sp : Space) (op : AtomOp) (w : Bool) (a : Src) (s : State) : Result :=
  flyChecked (.atoms u d sp op w a) s

/-- ATOMS without return. -/
def execAtomsNoreturn (u : Bool) (sp : Space) (op : AtomOp) (w : Bool) (a : Src) (s : State) : Result :=
  flyChecked (.atomsNoreturn u sp op w a) s

/-- LDC from the context table (R182). -/
def execLdcTable (u : Bool) (d : SQuad) (a : Src) (s : State) : Result := flyChecked (.ldcTable u d a) s

/-- LDC from memory. -/
def execLdcMemory (u : Bool) (d : SQuad) (x : Fin 8) (a : Src) (s : State) : Result := flyChecked (.ldcMemory u d x a) s

/-- STC (R183). -/
def execStc (u : Bool) (d : SQuad) (x : Fin 8) (a : Src) (s : State) : Result := flyChecked (.stc u d x a) s

/-- XLAT (R184). -/
def execXlat (u : Bool) (n : Fin 8) (a : SQuad) (s : State) : Result := flyChecked (.xlat u n a) s

/-- MINT (R185). -/
def execMint (u : Bool) (d a b : SQuad) (s : State) : Result := flyChecked (.mint u d a b) s

/-- TLOOK (R186). -/
def execTlook (u : Bool) (d : Dst) (a b : Src) (s : State) : Result := flyChecked (.tlook u d a b) s

/-- TSET (R187). -/
def execTset (u : Bool) (a b : Src) (s : State) : Result := flyChecked (.tset u a b) s

/-- PREF (R188): no fault and no visible effect; it completes when accepted. -/
def execPref (u : Bool) (x : Fin 8) (k : PrefKind) (a : Src) (s : State) : Result := flyChecked (.pref u x k a) s

/-- LNCH .n (R130): the blocks are read and pushed when the path's earlier accesses are performed (R136). -/
def execLnchN (u : Bool) (x : Fin 8) (a : Src) (s : State) : Result := flyChecked (.lnchN u x a) s

/-- ENQ (R130, R131). -/
def execEnq (u : Bool) (x : Fin 8) (a : Src) (s : State) : Result := flyChecked (.enq u x a) s

/-- The path of an instruction parks on it, unless it faulted (R101). -/
def flyParked (i : Instr) (park : Nat → Park) (s : State) : Result :=
  issue i (fun c =>
    let m := c.emask
    if m = 0 then c.idle i
    else
      let (c, p) := c.fly i m (captureCap i)
      let (p, s) := c.s.checkPend c.g p
      let c : Issue := { c with s := s, g := c.g.setLast p }
      if p.isFaulted then .done c else .done { c with p := { c.p with park := park p.id } }) s

/-- LNCH .w (R133): the path parks in launch-wait. -/
def execLnchW (u : Bool) (x : Fin 8) (a : Src) (s : State) : Result := flyParked (.lnchW u x a) Park.launchWait s

/-- WAITA (R191): the path parks until a re-read finds the condition gone. -/
def execWaita (u ne : Bool) (sc : Scope) (sp : WaitSpace) (a : Fin 64) (s : State) : Result :=
  flyParked (.waita u ne sc sp a) Park.waita s

/-- A fence over the full active mask (R34). -/
def flyFull (i : Instr) (s : State) : Result :=
  issue i (fun c => .done (c.fly i c.p.mask (fun _ p => p)).1) s

/-- FENCE (R189). -/
def execFence (k : FenceKind) (sc : Scope) (s : State) : Result := flyFull (.fence k sc) s

/-- XFENCE (R190). -/
def execXfence (k : FenceKind) (after before : PathClass) (sc : Scope) (s : State) : Result :=
  flyFull (.xfence k after before sc) s

end Sys2Proof.Machine
end

