-- ==== Sys2Proof/Machine/Barrier.lean ====
section
/-! DEFINITION. Named barriers of teams and clusters (R128, R129). -/
namespace Sys2Proof.Machine

/-- Cluster coordinates of a team. -/
def State.clusterOf (s : State) (t : Team) : Nat × Nat × Nat :=
  match s.grid? t.grid with
  | none => (t.gx, t.gy, t.gz)
  | some d => (t.gx / d.lpb.clw, t.gy / d.lpb.clh, t.gz)

/-- The cluster barriers of a team's cluster. -/
def State.clusterBars? (s : State) (t : Team) : Option ClusterBars :=
  s.clusters.find? (fun c => c.grid = t.grid && (c.cx, c.cy, c.cz) = s.clusterOf t)

/-- A barrier by index: 0 to 31 of the team, 32 to 35 of its cluster. -/
def State.barrierAt (s : State) (t : Team) (idx : Nat) : Barrier :=
  if idx < 32 then nth t.bars idx {}
  else ((s.clusterBars? t).map (fun c => nth c.bars (idx - 32) {})).getD {}

/-- A barrier replaced. -/
def State.setBarrier (s : State) (t : Team) (idx : Nat) (b : Barrier) : State :=
  if idx < 32 then s.setTeam { t with bars := putNth {} t.bars idx b }
  else { s with clusters := s.clusters.map (fun c =>
    if c.grid = t.grid ∧ (c.cx, c.cy, c.cz) = s.clusterOf t then { c with bars := putNth {} c.bars (idx - 32) b } else c) }

/-- The barrier and phase that an instruction waits for. -/
def Pend.awaits (p : Pend) (idx : Nat) (phase : Bool) : Bool :=
  (match p.instr with
    | .barWait _ => true
    | .barSync _ _ => true
    | _ => false) && p.aux = [idx, if phase then 1 else 0]

/-- A group's record of a phase that has completed. (DEDUCED, log 33.) -/
def Group.markBar (idx : Nat) (g : Group) : Group :=
  { g with bars := putNth none g.bars idx ((nth g.bars idx none).map (fun r => (r.1, true))) }

/-- The waits of a live frame that a completed phase releases: replay finds them released (R128, R305). -/
def LiveFrame.releaseBar (idx : Nat) (phase : Bool) (l : LiveFrame) : LiveFrame :=
  { l with entries := l.entries.map (fun p => if p.awaits idx phase then { p with aux := p.aux ++ [1] } else p) }

/-- A half whose live frame's waits a completed phase releases. -/
def Bank.releaseBar (idx : Nat) (phase : Bool) (b : Bank) : Bank :=
  { b with live := b.live.map (LiveFrame.releaseBar idx phase) }

/-- Waits of a group that a completed phase releases. -/
def Group.releaseBar (idx : Nat) (phase : Bool) (g : Group) : Group :=
  let g := { g with bank0 := g.bank0.releaseBar idx phase, bank1 := g.bank1.releaseBar idx phase }.markBar idx
  ((g.pend.filter (fun p => p.awaits idx phase)).map (fun p => p.id)).foldl (fun g id => (g.wake id).complete id) g

/-- Groups that share a barrier with a team: those of the team, or of its cluster. -/
def State.sharesBar (s : State) (t : Team) (idx : Nat) (g : Group) : Bool :=
  if idx < 32 then g.team = t.id else (s.clusterTeams t).any (fun u => u.id = g.team)

/-- Index and count in range (R128). -/
def barOk (t : Team) (idx : Nat) (count : Option Nat) : Bool :=
  idx < 36 && (32 ≤ idx || idx < t.nbar) && (match count with
    | none => true
    | some b => 0 < b && b ≤ (if idx < 32 then 64 else 768))

/-- A release from a wait acquires: at cluster scope the read caches of the cluster's cores are invalidated (R129,
R170). -/
def State.acquireBar (s : State) (t : Team) (idx : Nat) : State :=
  if idx < 32 then s else (s.clusterTeams t).foldl (fun (s : State) u => s.invalidate u.core) s

/-- An arrival (R128, R129): the state, the group with its record, the recorded phase, and whether the phase completed;
none raises BARRIER. -/
def State.arrive (s : State) (g : Group) (idx count : Nat) : Option (State × Group × Bool × Bool) :=
  match s.team? g.team with
  | none => none
  | some t =>
    if !barOk t idx (some count) then none
    else
      let b := s.barrierAt t idx
      match b.count with
      | some n => if n = count then some (go t b count) else none
      | none => some (go t b count)
where
  go (t : Team) (b : Barrier) (count : Nat) : State × Group × Bool × Bool :=
    let g := { g with bars := putNth none g.bars idx (some (b.phase, false)) }
    if b.arrivals + 1 = count then
      let s := s.setBarrier t idx { phase := !b.phase, count := none, arrivals := 0 }
      let free := fun (h : Group) => if s.sharesBar t idx h then h.releaseBar idx b.phase else h
      ({ s with groups := s.groups.map free }.acquireBar t idx, g.releaseBar idx b.phase, b.phase, true)
    else (s.setBarrier t idx { b with count := some count, arrivals := b.arrivals + 1 }, g, b.phase, false)

/-- What a BAR does. -/
inductive BarRes where
  | fault
  | complete (s : State) (g : Group)
  | waits (s : State) (g : Group) (idx : Nat) (phase : Bool)

/-- A wait on the recorded phase (R128). -/
def State.waitBar (s : State) (g : Group) (idx : Nat) : BarRes :=
  match s.team? g.team with
  | none => .fault
  | some t =>
    if !barOk t idx none then .fault
    else match nth g.bars idx none with
      | none => .fault
      | some (_, true) => .complete (s.acquireBar t idx) g
      | some (ph, false) => .waits s g idx ph

/-- A BAR with its operands. -/
def State.bar (s : State) (g : Group) (i : Instr) (idx count : Nat) : BarRes :=
  match i with
  | .barWait _ => s.waitBar g idx
  | .barArrive _ _ =>
    (match s.arrive g idx count with
      | none => .fault
      | some (s, g, _, _) => .complete s g)
  | _ =>
    (match s.arrive g idx count with
      | none => .fault
      | some (s, g, ph, done) => if done then .complete s g else .waits s g idx ph)

/-- A REPACK on nbK with N registers raises BARRIER (R275). -/
def State.repackFault (s : State) (g : Group) (k nm1 : Nat) : Bool :=
  match s.team? g.team with
  | none => true
  | some t =>
    decide (t.nbar ≤ k) || decide (0 < (nth t.bars k {}).arrivals) ||
      s.groups.any (fun h => h.team = g.team && h.id ≠ g.id && h.pend.any (fun q => match q.instr with
        | .repack k' n' _ _ => k'.val = k && n'.val ≠ nm1 && decide (q.status = .inFlight)
        | _ => false))

/-- BAR at issue: an arrival is recorded at once, a wait parks the path until its phase completes. -/
def barIssue (i : Instr) (a : Src) (b : Option Src) (s : State) : Result :=
  issue i (fun c =>
    let idx := (c.control a c.p.mask).toNat
    let count := (b.map (fun b => (c.control b c.p.mask).toNat)).getD 0
    let (c1, p) := c.fly i c.p.mask (fun _ p => p)
    match c1.s.bar c1.g i idx count with
    | .fault =>
      let t : Trap := { cause := .barrier, pc := c.p.pc, seq := c1.s.fresh }
      .done { c1 with s := { c1.s with fresh := c1.s.fresh + 1 }, g := c1.g.setLast { p with status := .faulted t } }
    | .complete s g =>
      .done { c1 with s := s, p := c1.p.fall p.flag, g := { g with pend := g.pend.dropLast } }
    | .waits s g idx ph =>
      let p : Pend := { p with aux := [idx, if ph then 1 else 0], stage := .atCore }
      .done { c1 with s := s, g := g.setLast p, p := { c1.p with park := .barrier p.id } }) s

/-- BAR arrive. -/
def execBarArrive (a b : Src) (s : State) : Result := barIssue (.barArrive a b) a (some b) s

/-- BAR wait. -/
def execBarWait (a : Src) (s : State) : Result := barIssue (.barWait a) a none s

/-- BAR sync. -/
def execBarSync (a b : Src) (s : State) : Result := barIssue (.barSync a b) a (some b) s

end Sys2Proof.Machine
end

