-- ==== Sys2Proof/Machine/Launch.lean ====
section
/-! DEFINITION. Launch parameter blocks (R115, R116), launches from programs (R130 to R133), deques and stealing (R134,
R135, R349), starts of teams and groups (R13, R98 to R100, R110), and sheaves: FREEZE and stamping (R137 to R152). -/
namespace Sys2Proof.Machine

/-! ### The launch parameter block -/

/-- A block read from its bits (Table 6.7). -/
def lpbOf (x : Nat) (paramTag : Bool) : Lpb :=
  { param := BitVec.ofNat 128 (bits x 511 384), paramTag := paramTag, tags := bits x 315 304, queue := bits x 303 288,
    sheaf := bits x 278 277, opclass := bits x 276 275, width32 := x.testBit 274, loft := bits x 273 272,
    vregs := bits x 271 264, accrows := bits x 263 256, cow := bits x 255 224, scratch := bits x 223 192,
    nbar := bits x 191 184, clh := bits x 183 176, clw := bits x 175 168, groups := bits x 167 160,
    gz := bits x 159 128, gy := bits x 127 96, gx := bits x 95 64, entryOff := BitVec.ofNat 32 (bits x 63 32),
    entrySlot := bits x 15 0 }

/-- Reserved fields of a block are zero. -/
def lpbReserved (x : Nat) : Bool :=
  bits x 1023 512 = 0 && bits x 383 316 = 0 && bits x 287 279 = 0 && bits x 31 16 = 0

/-- Scratchpad bytes of a team, rounded (Table 6.7). -/
def Lpb.window (b : Lpb) : Nat := roundUpTo b.scratch 1024
/-- Copy-on-write reserve, rounded. -/
def Lpb.reserve (b : Lpb) : Nat := roundUpTo b.cow 128

/-- A context capability slot. -/
def Context.slot (c : Context) (n : Nat) : QWord × Bool :=
  match c.slots.find? (fun e => e.1 = n) with
  | some (_, q, t) => (q, t)
  | none => (0, false)

/-- Validity of a block (R116). -/
def lpbValid (c : Context) (x : Nat) (b : Lpb) : Bool :=
  let (code, tag) := c.slot b.entrySlot
  lpbReserved x && decide (b.tags ≤ 2048) && decide (b.queue ≤ 63) && decide (b.sheaf ≤ 2) && decide (b.loft ≤ 2) &&
  decide (b.vregs ≤ 64) && decide (b.accrows ≤ 64) && decide (b.nbar ≤ 32) &&
  decide (1 ≤ b.clh) && decide (b.clh ≤ 4) && decide (1 ≤ b.clw) && decide (b.clw ≤ 8) && decide (b.clw * b.clh ≤ 12) &&
  decide (1 ≤ b.groups) && decide (b.groups ≤ 32) && decide (1 ≤ b.gx) && decide (1 ≤ b.gy) && decide (1 ≤ b.gz) &&
  decide (b.entryOff.toNat % 4 = 0) && decide (b.window + b.reserve ≤ 524288) && decide (b.tags ≤ b.window / 128) &&
  decide (b.gx % b.clw = 0) && decide (b.gy % b.clh = 0) && decide (b.gx * b.gy * b.gz * b.groups ≤ 2 ^ 32) &&
  (b.width32 == c.width32.contains b.entrySlot) && !(b.sheaf = 1 && b.width32) &&
  tag && decide ((capType code).toNat = 1) && hasPerm (capPerm code) permX &&
  decide (b.entryOff.toNat < (capLength code).toNat)

/-- Clusters of a grid; teams, when each cluster is one team. -/
def Lpb.clusters (b : Lpb) : Nat := (b.gx / b.clw) * (b.gy / b.clh) * b.gz

/-- A record pushed at the head of a deque of 256; a full one gives its tail to the context's overflow deque (R134): that of the
launch that pushes, whatever the tail's own. (DESIGN CHOICE, log 60.) A record of clusters of more than one team goes to the
management cores, which place it (R134). -/
def State.pushRecord (s : State) (core ctx : Nat) (r : DequeRecord) : State :=
  let k := s.coreAt core
  if ((s.grid? r.grid).map (fun d => decide (1 < d.lpb.clw * d.lpb.clh))).getD false then
    { s with placements := s.placements ++ [r] }
  else if k.deque.length < 256 then s.setCore core { k with deque := r :: k.deque }
  else
    let tail := k.deque.getLastD r
    let s := s.setCore core { k with deque := r :: k.deque.dropLast }
    match s.context? ctx with
    | none => s
    | some c => s.setContext { c with overflow := tail :: c.overflow }

/-! ### Draws (R286, R324) -/

/-- A word of a code capability as the device reads it when it accepts a launch; none where it cannot be fetched. -/
def State.codeWord (s : State) (core : Nat) (c : Context) (cap : QWord) (off : Nat) : Option Word :=
  match s.checkAccess core c (capRegister cap) .fetch true 4 4 off with
  | .ok runs _ => some (BitVec.ofNat 32 (leValue (s.readRuns runs)))
  | .bad _ _ _ _ _ => none

/-- The words of a code capability from an offset are these. -/
def State.codeIs (s : State) (core : Nat) (c : Context) (cap : QWord) : Nat → List Word → Bool
  | _, [] => true
  | off, w :: l => decide (s.codeWord core c cap off = some w) && s.codeIs core c cap (off + 4) l

/-- A launch is a draw (R286). -/
def State.isDraw (s : State) (core : Nat) (c : Context) (b : Lpb) : Bool :=
  let cap := (c.slot b.entrySlot).1
  s.codeIs core c cap b.entryOff.toNat [0xFF000FF0] && s.codeIs core c cap (b.entryOff.toNat + 8) [0x00594C4D]

/-- A draw's block is valid (R286): YSCRATCH is word 6 of the head. -/
def State.drawValid (s : State) (core : Nat) (c : Context) (b : Lpb) : Bool :=
  let need := ((s.codeWord core c (c.slot b.entrySlot).1 (b.entryOff.toNat + 24)).getD 0).toNat
  b.groups = 16 && !b.width32 && b.sheaf = 0 && decide (1 ≤ b.nbar) && decide (need ≤ b.scratch)

/-- Where the groups of a draw start: the target of DISPATCH, read once. -/
def State.drawStart (s : State) (core : Nat) (c : Context) (b : Lpb) : Word :=
  let at_ := b.entryOff + 4
  match decodeWord ((s.codeWord core c (c.slot b.entrySlot).1 at_.toNat).getD 0) with
  | .ok (.bra off) => at_ + BitVec.ofInt 32 (4 * off.toInt)
  | .ok _ => at_
  | .error _ => at_

/-- The yealm of a composer whose words stand at a draw's entry, with the body that the draw starts. -/
def State.drawYealm (s : State) (core : Nat) (c : Context) (b : Lpb) (start : Word) : Option Nat :=
  let cap := (c.slot b.entrySlot).1
  let e := b.entryOff.toNat
  (s.yealms.find? (fun y =>
    s.codeIs core c cap (e + 64) y.plain.words &&
      (start.toNat = e + 64 || (match y.comp with
        | some b => decide (start.toNat = e + b.off) && s.codeIs core c cap (e + b.off) b.words
        | none => false)))).map Yealm.id

/-- Owner of the screen region of a tile (R324). -/
def tileOwner (gx gy : Nat) : Nat :=
  let rx := gx / 2
  let ry := gy / 2
  (rx ^^^ (2 * ry) ^^^ (rx / 4) ^^^ (ry / 2)) % 4

/-- First tile of a cluster. -/
def Lpb.clusterTile (b : Lpb) (ci : Nat) : Nat × Nat :=
  let nx := b.gx / b.clw
  let ny := b.gy / b.clh
  (ci % nx * b.clw, ci / nx % ny * b.clh)

/-- The die that owns a cluster's first tile. -/
def Lpb.clusterOwner (b : Lpb) (ci : Nat) : Nat := tileOwner (b.clusterTile ci).1 (b.clusterTile ci).2

/-- Longest runs of consecutive clusters that one die owns: die, first, count. -/
def ownerRuns (b : Lpb) : Nat → List (Nat × Nat × Nat)
  | 0 => []
  | n + 1 =>
    let d := b.clusterOwner n
    match ownerRuns b n with
    | [] => [(d, n, 1)]
    | (e, f, k) :: l => if e = d then (e, f, k + 1) :: l else (d, n, 1) :: (e, f, k) :: l

/-- A core of the management cores' choice (R349, R341): a free one of those that are there and lie in the pool of the
class; of any that are there while the pool is empty. (DESIGN CHOICE, log 36.) -/
def State.chosenCore (s : State) (opclass : Nat) (l : List Nat) : Nat :=
  let here := l.filter (fun k => !(s.coreAt k).absent)
  let pool := here.filter (fun k => opclass = 3 || decide ((nth s.sections (k / 32) {}).cls = opclass))
  let l := if !pool.isEmpty then pool else if here.isEmpty then l else here
  nth l (Config.freeNat s.freeCount % l.length) 0

/-- The records of a draw for one die pushed, each onto a core of that die (R324, R349). -/
def State.pushDraw (s : State) (d : Grid) (die : Nat) : State :=
  ((ownerRuns d.lpb d.lpb.clusters).reverse.filter (fun r => r.1 = die)).foldl (fun (s : State) r =>
    let core := s.chosenCore d.lpb.opclass ((upto 64).map (fun i => 64 * die + i))
    s.nextFree.pushRecord core d.ctx { grid := d.id, first := r.2.1, count := r.2.2, die := some die }) s

/-- A grid added, with its records of teams (R134, R349); a prologue grid starts with its first cluster alone (R141), and
an ordered queue's draw waits for its records (R325). `seq` is an ordered queue's SEQ. -/
def State.addGrid (s : State) (core : Nat) (c : Context) (b : Lpb) (launcher : Launcher) (payload : List Byte)
    (sheaf : Option Nat) (seq : Option Nat) : Nat × State :=
  let (id, s) := s.newId
  let n := if b.sheaf = 1 then 1 else b.clusters
  let draw := s.isDraw core c b
  let start := if draw then s.drawStart core c b else b.entryOff
  let d : Grid :=
    { id := id, ctx := c.id, lpb := b, codeCap := (c.slot b.entrySlot).1, start := start, launcher := launcher,
      launch := (match launcher with
        | .hostQueue _ _ _ => id
        | .program g _ _ => ((s.group? g).bind (fun g => (s.grid? g.grid).map Grid.launch)).getD id)
      payload := payload, sheaf := sheaf, prologue := decide (b.sheaf = 1), waiting := n, draw := draw,
      yealm := if draw then s.drawYealm core c b start else none, seq := if draw then seq else none }
  let s : State := { s with grids := s.grids ++ [d] }
  (id,
    if draw then (if seq.isSome then s else (upto 4).foldl (fun (s : State) die => s.pushDraw d die) s)
    else match launcher with
      | .program _ _ _ => s.pushRecord core c.id { grid := id, first := 0, count := n }
      | .hostQueue _ _ _ =>
        s.nextFree.pushRecord (s.chosenCore b.opclass (upto 256)) c.id { grid := id, first := 0, count := n })

/-- Length of the launch-wait chain that ends in a group's path (R132). -/
def State.waitChain (s : State) (grid : Nat) : Nat → Nat
  | 0 => 0
  | n + 1 =>
    match s.grid? grid with
    | none => 0
    | some d =>
      match d.launcher with
      | .hostQueue _ _ _ => 0
      | .program g id wait =>
        if !wait then 0
        else match s.group? g with
          | none => 0
          | some h => if (h.pend? id).isSome then 1 + s.waitChain h.grid n else 0

/-- LNCHWAIT with a subcode and a lane. -/
def trLnchwait (sub : Byte) (lane : Nat) : Trap := { cause := .lnchwait, sub := sub, fmask := maskFrom [lane] }

/-- The tag of the 16 bytes at a place of an access (R154): those of one granule that is tagged. A launch block at an address that is
no multiple of 16 is read all the same, and gives its PARAM untagged. (DESIGN CHOICE, log 76.) -/
def State.tagIn (s : State) (runs : List Run) (at_ : Nat) : Bool :=
  match nth (runAddresses runs) at_ none with
  | some pa => decide (pa % 16 = 0) && s.tagAt pa
  | none => false

/-- ENQ. -/
def isEnq : Instr → Bool
  | .enq _ _ _ => true
  | _ => false

/-- The node block that an ENQ record's capability covers, checked (R131); none where the record holds none. -/
def State.nodeCheck (s : State) (g : Group) (c : Context) (a : LaneAccess) : Option LaneCheck :=
  let cap : QWord := BitVec.ofNat 128 (leValue ((s.readRuns a.runs).take 16))
  if s.tagIn a.runs 0 && decide ((capType cap).toNat = 0) then
    some (s.checkAccess g.core c (s.xlatOf c cap) .load true 1 128 0)
  else none

/-- One launch read and checked: its block and payload, or its fault. The rules name a fault for an ENQ record only where its
capability is untagged: of another type it raises LNCHWAIT 1, and without R or 128 B the fault of the load through it. No
permission K is asked for the tags of PARAM and of the record. (DESIGN CHOICE, log 61.) -/
def State.readLaunch (s : State) (g : Group) (c : Context) (p : Pend) (a : LaneAccess) : Except Trap (Lpb × List Byte) :=
  let raw := s.readRuns a.runs
  let bad := fun (sub : Byte) => (trLnchwait sub a.lane)
  let check := fun (x : Nat) (b : Lpb) (payload : List Byte) =>
    if !lpbValid c x b || !(c.queues.any (fun q => q.id = b.queue)) ||
        (s.isDraw g.core c b && !s.drawValid g.core c b) then .error (bad 1)
    else if b.sheaf = 2 && g.nested.isNone then .error (bad 2)
    else .ok (b, payload)
  if isEnq p.instr then
    if !s.tagIn a.runs 0 then
      .error { mkTrap .captag with fmask := maskFrom [a.lane], faddr := a.off.zeroExtend 64 }
    else
      match s.nodeCheck g c a with
      | none => .error (bad 1)
      | some (.bad _ cs sub f _) =>
        .error { cause := cs, sub := sub, fmask := maskFrom [a.lane], faddr := BitVec.ofNat 64 f }
      | some (.ok runs _) =>
        let x := leValue (s.readRuns runs)
        let b := lpbOf x (s.tagIn runs 48)
        if b.gx = 1 ∧ b.gy = 1 ∧ b.gz = 1 ∧ b.scratch ≠ 0 then check x b ((raw.drop 16).take 48) else .error (bad 1)
  else
    let x := leValue raw
    check x (lpbOf x (s.tagIn a.runs 48)) []

/-- What the reads of the node blocks mark (R161). -/
def State.markNodes (s : State) (g : Group) (p : Pend) : State :=
  match s.contextOf g with
  | none => s
  | some c =>
    if isEnq p.instr then p.lanes.foldl (fun s a => match s.nodeCheck g c a with
      | some r => s.markCheck g.core c.id false r
      | none => s) s
    else s

/-- Every launch of an instruction read and checked, the first lane first: the first lane that faults is the one that FMASK
names. (DESIGN CHOICE, log 62.) -/
def State.readLaunches (s : State) (g : Group) (c : Context) (p : Pend) : List LaneAccess →
    Except Trap (List (Lpb × List Byte))
  | [] => .ok []
  | a :: l =>
    match s.readLaunch g c p a with
    | .error t => .error t
    | .ok b =>
      match s.readLaunches g c p l with
      | .error t => .error t
      | .ok bs => .ok (b :: bs)

/-- The launches of an instruction made (R130 to R133): none is pushed when one faults. The grids' numbers are kept. -/
def State.launch (s : State) (g : Group) (p : Pend) : Except Trap (List Nat × Group × State) :=
  match s.contextOf g with
  | none => .error (trLnchwait 1 0)
  | some c =>
    let wait := match p.instr with
      | .lnchW _ _ _ => true
      | _ => false
    match s.readLaunches g c p p.lanes with
    | .error t => .error t
    | .ok blocks =>
      if wait && decide (8 < 1 + s.waitChain g.grid 16) then .error (trLnchwait 3 (lowestLane p.lmask))
      else
        let (ids, s) := blocks.foldl (fun (acc : List Nat × State) b =>
          let (id, s) := acc.2.addGrid g.core c b.1 (.program g.id p.id wait) b.2
            (if b.1.sheaf = 2 then g.nested else none) none
          (acc.1 ++ [id], s)) ([], s)
        let used := blocks.any (fun b => b.1.sheaf = 2)
        .ok (ids, if used then { g with nested := none } else g,
          if used then { s with sheaves := s.sheaves.map (fun k =>
            if g.nested = some k.id then { k with dropped := true } else k) } else s)

/-! ### Starts of teams and groups -/

/-- Frame index of a new group's half: the lowest that no live group of the context uses (R13). (DESIGN CHOICE, log 23.) -/
def State.freeFrame (s : State) (ctx : Nat) (taken : List Nat) : Nat :=
  let used := taken ++ s.groups.flatMap (fun g =>
    if ((s.grid? g.grid).map (fun d => d.ctx)) = some ctx then [g.bank0.trapframe.toNat, g.bank1.trapframe.toNat] else [])
  ((upto (used.length + 1)).find? (fun i => !used.contains i)).getD 0

/-- The scalar state of a new group (R13, R100). -/
def newBank (b : Lpb) (frame : Nat) : Bank :=
  let s0 := List.replicate 64 (0 : Word)
  let bank : Bank := { s := s0, stag := List.replicate 16 false, x := List.replicate 8 {}, q := List.replicate 8 0x3F800000,
                       trapframe := BitVec.ofNat 24 frame }
  let bank := bank.writeQuad 0 b.param b.paramTag
  bank.writeSList 4 [BitVec.ofNat 32 b.gx, BitVec.ofNat 32 b.gy, BitVec.ofNat 32 b.gz, BitVec.ofNat 32 b.groups]

/-- A new path at a header (R13). -/
def newPath (pc : Word) (mask : DWord) : Path := { pc := pc, mask := mask, flags := noFlags }

/-- Places of a slot that are taken, some saved teams apart: its resident groups; those of a team whose grid waits for its prologue
freeze, which holds the places of the groups that it will stamp (R98, R141); and those of a saved team that keeps its places. -/
def State.slotPlacesBut (s : State) (core slot : Nat) (but : List Nat) : Nat :=
  (s.slotGroups core slot).length + sumNat ((s.teams.filter (fun t => t.core = core && !t.ended && !but.contains t.id)).map (fun t =>
    if t.preempted then
      (if t.keeps then (s.groups.filter (fun g => g.team = t.id && g.index % 4 = slot && !g.onCore)).length else 0)
    else
      match s.grid? t.grid with
      | none => 0
      | some d => if d.prologue then
          ((upto (if d.lpb.width32 then ceilDiv d.lpb.groups 2 else d.lpb.groups)).filter (fun i =>
            i % 4 = slot && !(t.index = 0 && i = 0))).length
        else 0))

/-- Places of a slot that are taken. -/
def State.slotPlaces (s : State) (core slot : Nat) : Nat := s.slotPlacesBut core slot []

/-- The first free position of a slot (R168), the lowest. (DESIGN CHOICE, log 63.) -/
def State.freePos (s : State) (core slot : Nat) : Nat :=
  ((upto 16).find? (fun i => !(s.slotGroups core slot).any (fun g => g.pos = i))).getD 0

/-- Whether a new group becomes active on creation (R111). -/
def State.newResidency (s : State) (core slot : Nat) : Residency :=
  if ((s.slotGroups core slot).filter (fun g => g.res = .active)).length < 8 then .active else .pending

/-- The register map of a group on an issue slot, for the names that it shares with sheaves: the sheaf's own registers where the
sheaf was captured, elsewhere the slot's loaded copies (R143, R144, R151). -/
def State.shareMap (s : State) (core slot : Nat) (v : List (Option VMap)) : List (Option VMap) :=
  ((upto v.length).zip v).map (fun e => e.2.map (fun m =>
    match m.sheaf.bind s.sheaf? with
    | none => m
    | some k => if k.home = (core, slot) then { m with reg := ((nth k.v e.1 none).map VMap.reg).getD m.reg }
      else { m with reg := (k.id, e.1) }))

/-- Registers that an issue slot is still to load from a sheaf (R144). -/
def State.toLoad (s : State) (core slot sheaf : Nat) : Nat :=
  match s.sheaf? sheaf with
  | none => 0
  | some k => if k.home = (core, slot) || !(s.sheafRegs core slot k).isEmpty then 0 else (k.v.filter (fun m => m.isSome)).length

/-- A sheaf is the core's latest used (R150): installing it, stamping a group from it and restoring a group that refers to it are the
uses that count. (DESIGN CHOICE, log 77.) -/
def State.useSheaf (s : State) (core sheaf : Nat) : State :=
  let k := s.coreAt core
  if k.store.contains sheaf then s.setCore core { k with store := sheaf :: removeNat sheaf k.store } else s

/-- A new group of a team (R13, R110), or one stamped from its grid's sheaf (R139, R140, R147). One that waits for admission (R109)
stands as an evicted group, which pins its sheaf in the store by its references (R150; DESIGN CHOICE, log 77); one of a team that is
saved stands as a saved one. -/
def State.addGroup (s : State) (d : Grid) (t : Team) (index : Nat) (sheaf : Option Sheaf) : State :=
  let b := d.lpb
  let (id, s) := s.newId
  let frame0 := s.freeFrame d.ctx []
  let frame1 := s.freeFrame d.ctx [frame0]
  let slot := index % 4
  let g : Group :=
    { id := id, grid := d.id, team := t.id, index := index, core := t.core, pos := s.freePos t.core slot,
      res := s.newResidency t.core slot, ganged := b.width32, opclass := BitVec.ofNat 2 b.opclass,
      v := List.replicate 64 none, p := List.replicate 8 0, bank0 := newBank b frame0, bank1 := newBank b frame1,
      slot0 := none, slot1 := none, bars := List.replicate 36 none }
  let second := b.width32 && decide (2 * index + 1 < b.groups)
  match sheaf with
  | none =>
    let g : Group := { g with
      slot0 := some (newPath d.start (g.fullMask 0))
      slot1 := if second then some (newPath d.start (g.fullMask 1)) else none
      glue := if b.width32 then none else d.yealm.map (fun y =>
        { yealm := y, composed := decide (d.start ≠ b.entryOff + 64), head := b.entryOff, here := d.start }) }
    { s with groups := s.groups ++ [g] }
  | some k =>
    let inherit := decide (b.sheaf = 2)
    let stamp := fun (fresh : Bank) =>
      let base : Bank := { fresh with s := k.s, stag := k.stag, x := k.x, trapvec := k.trapvec }
      if inherit then
        (base.writeQuad 0 b.param b.paramTag).writeSList 4
          [BitVec.ofNat 32 b.gx, BitVec.ofNat 32 b.gy, BitVec.ofNat 32 b.gz, BitVec.ofNat 32 b.groups]
      else base
    let held := (s.coreAt t.core).store.contains k.id && s.toLoad t.core slot k.id = 0
    let path := fun (half : Nat) =>
      ({ pc := if inherit then d.start else k.start,
         mask := if inherit then g.fullMask half else k.mask, mode := k.mode,
         pjoin := if inherit then none else k.pjoin, flags := noFlags,
         park := if held then .running else .sheafMiss } : Path)
    let hint := if b.vregs = 0 then 64 else b.vregs
    let admitted := decide (hint ≤ s.poolFree t.core slot)
    let g : Group := { g with
      missing := !held, poisonV := k.poisonV,
      v := s.shareMap t.core slot k.v, p := k.p, bank0 := stamp g.bank0, bank1 := if b.width32 then stamp g.bank1 else g.bank1
      slot0 := some (path 0), slot1 := if second then some (path 1) else none, depth := k.depth, sheaf := some k.id
      res := if t.preempted then .preempted else if admitted then g.res else .evicted
      roomFor := if admitted || t.preempted then 0 else hint }
    { s with groups := s.groups ++ [g] }.useSheaf t.core k.id

/-- Native groups of a team. -/
def Lpb.nativeGroups (b : Lpb) : Nat := if b.width32 then ceilDiv b.groups 2 else b.groups

/-- A new team on a core, without its groups: its window holds the ENQ payload, or zeros and frozen lines (R131, R145,
R165). Over a frozen line 0 the payload stands in a copy of that line, which takes one of the reserve's places. (DESIGN CHOICE,
log 64.) Of the frozen lines' poisoned words those that the payload does not write stay poisoned (R346). -/
def State.addTeam (s : State) (d : Grid) (core gx gy gz : Nat) (frozen : Option Sheaf) : Team × State :=
  let b := d.lpb
  let (id, s) := s.newId
  let t : Team :=
    { id := id, grid := d.id, index := gx + b.gx * (gy + b.gy * gz), gx := gx, gy := gy, gz := gz, core := core,
      scratch := memWrite (match frozen with
        | some k => if d.payload.isEmpty || k.lines = 0 then [] else memWrite [] 0 (memRead k.scratch 0 128)
        | none => []) 0 d.payload
      copied := if !d.payload.isEmpty && decide (0 < (frozen.map (fun k => k.lines)).getD 0) then [0] else []
      poisonWords := ((frozen.map (fun k => k.poisonWords)).getD []).filter (fun w => decide (d.payload.length < 4 * w + 4))
      scratchSize := b.window, cow := b.reserve, frozen := frozen.map (fun k => k.id),
      nbar := b.nbar, bars := List.replicate 32 {}, accrows := b.accrows, loftMode := b.loft, tags := b.tags }
  (t, { s with teams := s.teams ++ [t] })

/-- Copy requests of a team are outstanding (R238). -/
def State.copying (s : State) (tid : Nat) : Bool := s.cores.any (fun k => k.copies.any (fun r => r.team = tid))

/-- Scratchpad bytes that a team is charged: a stamped team's frozen lines are shared (R145). -/
def State.charge1 (s : State) (raw window cow : Nat) (frozen : Option Nat) : Nat :=
  match frozen.bind s.sheaf? with
  | none => window + cow
  | some k => roundUpTo (raw - 128 * k.lines) 1024 + cow

/-- Bytes of the shared regions of some sheaves' frozen lines, each once on a core (R145). -/
def State.sharedLines (s : State) (l : List Nat) : Nat :=
  sumNat ((distinct l).map (fun k => ((s.sheaf? k).map (fun k => 128 * k.lines)).getD 0))

/-- Which of the resources of a whole team are free for one more: scratchpad, tag entries, named barriers, accumulator rows, loft. -/
structure TeamRoom where
  scratch : Bool
  tags : Bool
  bars : Bool
  rows : Bool
  loft : Bool
  deriving DecidableEq, Repr

/-- All are free. -/
def TeamRoom.all (r : TeamRoom) : Bool := r.scratch && r.tags && r.bars && r.rows && r.loft

/-- What the teams resident on a core leave free for a whole team (R98): scratchpad (R145), named barriers (R2), tag entries,
accumulator rows, and whether the loft is free. A team that was taken off the core while copy requests of it are outstanding
holds its scratchpad (R238), and one that keeps its places all that it had. `frozen` is the sheaf whose lines the team shares; the
saved teams of `but` are the ones that come back. -/
def State.teamRoom (s : State) (core : Nat) (d : Grid) (frozen : Option Nat) (but : List Nat) : TeamRoom :=
  let b := d.lpb
  let others := s.teams.filter (fun t => t.core = core && !but.contains t.id)
  let ts := others.filter (fun t => !t.preempted || t.keeps)
  let held := others.filter (fun t => !t.preempted || t.keeps || s.copying t.id)
  let raw := fun (t : Team) => ((s.grid? t.grid).map (fun e => e.lpb.scratch)).getD t.scratchSize
  let scratch := sumNat (held.map (fun t => s.charge1 (raw t) t.scratchSize t.cow t.frozen)) +
    s.charge1 b.scratch b.window b.reserve frozen + s.sharedLines (held.filterMap Team.frozen ++ frozen.toList)
  let tags := sumNat (ts.map (fun t => t.tags))
  let rows := sumNat (ts.map (fun t => t.accrows))
  let bars := sumNat (ts.map (fun t => t.nbar))
  let loftFree := !(ts.any (fun t => t.loftMode ≠ 0))
  { scratch := decide (scratch ≤ 524288), tags := decide (tags + b.tags ≤ 2048), bars := decide (bars + b.nbar ≤ 32),
    rows := decide (rows + b.accrows ≤ 64), loft := b.loft = 0 || loftFree }

/-- The places and registers that a new team takes of an issue slot are free (R98, R109). -/
def State.groupRoom (s : State) (core slot : Nat) (d : Grid) (but : List Nat) : Bool :=
  let b := d.lpb
  let hint := if b.vregs = 0 then 64 else b.vregs
  let new := ((upto b.nativeGroups).filter (fun i => i % 4 = slot)).length
  decide (s.slotPlacesBut core slot but + new ≤ 16) && (new = 0 || decide (hint ≤ s.poolFree core slot))

/-- A core is there, and of the pool of a class, at its point (R335, R341, R342). -/
def State.coreOpen (s : State) (core opclass : Nat) : Bool :=
  let sec := nth s.sections (core / 32) {}
  (opclass = 3 || decide (sec.cls = opclass)) && !sec.ramping && !(s.coreAt core).absent

/-- A team of a grid fits a core. -/
def State.fitsBut (s : State) (core : Nat) (d : Grid) (frozen : Option Nat) (but : List Nat) : Bool :=
  s.coreOpen core d.lpb.opclass && (upto 4).all (fun k => s.groupRoom core k d but) && (s.teamRoom core d frozen but).all

/-- A new team of a grid fits a core (R98): one that is stamped shares its sheaf's frozen lines. -/
def State.fits (s : State) (core : Nat) (d : Grid) : Bool := s.fitsBut core d (if d.prologue then none else d.sheaf) []

/-- The cores of a cluster rectangle with its first core (R99): a section is 8 cores wide and 4 high. (PRESUMED, log 22.) -/
def rectangle (core : Nat) (b : Lpb) : Option (List Nat) :=
  let x := core % 8
  let y := core / 8 % 4
  if x + b.clw ≤ 8 ∧ y + b.clh ≤ 4 then
    some ((upto b.clh).flatMap (fun j => (upto b.clw).map (fun i => core + i + 8 * j)))
  else none

/-- The rectangle of a cluster whose first core is given, where every team fits (R99). -/
def State.rectangleFor (s : State) (core : Nat) (d : Grid) : Option (List Nat) :=
  (rectangle core d.lpb).bind (fun cs => if cs.all (fun k => s.fits k d) then some cs else none)

/-- Groups of a team created, from a sheaf where one is given. -/
def State.addGroups (s : State) (d : Grid) (t : Team) (from_ : Nat) (sheaf : Option Sheaf) : State :=
  ((upto d.lpb.nativeGroups).drop from_).foldl (fun s i => s.addGroup d t i sheaf) s

/-- A grid starts: its reads see memory as it is now (R220), whatever the texture, ridge and composer units held. -/
def State.openGrid (s : State) (d : Grid) : State :=
  if s.teams.any (fun t => t.grid = d.id) then s
  else ((s.dropTexture (fun _ => true)).dropRidge (fun _ => true)).dropComposer (fun _ => true)

/-- The cluster `ci` of a grid becomes resident on a rectangle (R99, R141, R165); its groups' start acquires at device
scope (R136, R142). -/
def State.startCluster (s : State) (d : Grid) (ci : Nat) (cores : List Nat) : State :=
  let b := d.lpb
  let nx := b.gx / b.clw
  let ny := b.gy / b.clh
  let cx := ci % nx
  let cy := ci / nx % ny
  let cz := ci / nx / ny
  let sheaf := d.sheaf.bind (fun k => s.sheaf? k)
  let s := s.openGrid d
  let s : State := { s with clusters := s.clusters ++ [{ grid := d.id, cx := cx, cy := cy, cz := cz, bars := List.replicate 4 {} }] }
  let s := ((upto cores.length).zip cores).foldl (fun (s : State) e =>
    let i := e.1
    let (t, s) := s.addTeam d e.2 (cx * b.clw + i % b.clw) (cy * b.clh + i / b.clw) cz
      (if d.prologue then none else sheaf)
    let s := s.invalidate e.2
    if d.prologue then (if i = 0 then s.addGroup d t 0 none else s) else s.addGroups d t 0 sheaf) s
  s.setGrid { d with waiting := d.waiting - 1 }

/-- An ordered draw's cluster may start on a die (R325): no earlier draw of the queue has a tile still to start there, its
records there apart that are still on their way, which come in order; and no team of an earlier draw on its tile lives. A record that
was moved to an overflow deque counts as one of its die's (R134). -/
def State.tileTurn (s : State) (d : Grid) (die ci : Nat) : Bool :=
  match d.seq, d.launcher with
  | some n, .hostQueue ctx q _ =>
    s.grids.all (fun e => !(decide (e.ctx = d.ctx) && (match e.seq, e.launcher with
        | some m, .hostQueue ctx' q' _ => decide (m < n) && ctx' = ctx && q' = q
        | _, _ => false)) ||
      (!((s.cores.drop (64 * die)).take 64).any (fun k => k.deque.any (fun r => r.grid = e.id)) &&
        !(s.placements.any (fun r => r.grid = e.id && decide (r.die = some die))) &&
        !(s.contexts.any (fun c => c.overflow.any (fun r => r.grid = e.id && decide (r.die = some die)))) &&
        !(s.teams.any (fun t => t.grid = e.id && !t.ended &&
          (t.gx / d.lpb.clw * d.lpb.clw, t.gy / d.lpb.clh * d.lpb.clh) = d.lpb.clusterTile ci))))
  | _, _ => true

/-- A record without its first cluster. -/
def DequeRecord.rest (r : DequeRecord) : List DequeRecord :=
  if r.count ≤ 1 then [] else [{ r with first := r.first + 1, count := r.count - 1 }]

/-! ### Placement (R134, R313, R324, R349) -/

/-- The end of a queue's current period in ns: periods are aligned to CLOCK (R313). -/
def Queue.deadline (q : Queue) (clock : Nat) : Nat := (clock / (1000 * q.period.toNat) + 1) * (1000 * q.period.toNat)

/-- A queue is reserved: it has a period, and budget that is not used (R313). -/
def Queue.reserved (q : Queue) : Bool := decide (q.period ≠ 0) && !q.overrun && decide (q.consumed < 1000 * q.budget.toNat)

/-- The rank of a grid's work (R313), the smaller the earlier: reserved queues by deadline, context and queue; then best-effort work,
the oldest launch first. -/
def State.rank (s : State) (d : Grid) : List Nat :=
  match (s.context? d.ctx).bind (fun c => c.queues.find? (fun q => q.id = d.lpb.queue)) with
  | some q => if q.reserved then [0, q.deadline s.clock.toNat, d.ctx, d.lpb.queue] else [1, d.launch]
  | none => [1, d.launch]

/-- One rank comes strictly before another. -/
def rankBefore : List Nat → List Nat → Bool
  | [], [] => false
  | [], _ :: _ => true
  | _ :: _, [] => false
  | a :: l, b :: r => decide (a < b) || (decide (a = b) && rankBefore l r)

/-- Where a record stands: in a core's deque, with the management cores, or in a context's overflow deque. -/
inductive RecordPlace where
  | deque | placements | overflow (ctx : Nat)
  deriving DecidableEq, Repr

/-- A list without its n-th element, which others take the place of. -/
def replaceNth {α : Type} (n : Nat) (new l : List α) : List α := l.take n ++ new ++ l.drop (n + 1)

/-- Records put before the first of a list that a rank does not come after. -/
def insertRanked (e : List Nat × RecordPlace × Nat × DequeRecord) :
    List (List Nat × RecordPlace × Nat × DequeRecord) → List (List Nat × RecordPlace × Nat × DequeRecord)
  | [] => [e]
  | f :: l => if rankBefore f.1 e.1 then f :: insertRanked e l else e :: f :: l

/-- The records from which a core may start a team, the first in rank first and otherwise in the order of its deque: those of its
deque, those that the management cores hold, and of the overflow deques those of ordered draws of its die, which no core need steal
before they can start. (DEDUCED, log 37.) -/
def State.startable (s : State) (core : Nat) : List (List Nat × RecordPlace × Nat × DequeRecord) :=
  let tagged := fun (p : RecordPlace) (l : List DequeRecord) => ((upto l.length).zip l).map (fun e =>
    (((s.grid? e.2.grid).map s.rank).getD [], p, e.1, e.2))
  (tagged .deque (s.coreAt core).deque ++ tagged .placements s.placements ++
    s.contexts.flatMap (fun c => (tagged (.overflow c.id) c.overflow).filter (fun e =>
      decide (e.2.2.2.die = some (core / 64)) && ((s.grid? e.2.2.2.grid).map (fun d => d.seq.isSome)).getD false))).foldr insertRanked []

/-- A saved team of the core comes first: best-effort work takes only what reserved queues leave free, and the earliest deadline is
placed first (R313). -/
def State.savedFirst (s : State) (core : Nat) (rank : List Nat) : Bool :=
  s.teams.any (fun t => t.preempted && t.core = core && (match s.grid? t.grid with
    | some e => rankBefore (s.rank e) rank && s.fitsBut core e t.frozen [t.id]
    | none => false))

/-- The first cluster of a record started with its first team on a core, where its teams fit; a draw's on its die (R98, R324). -/
def State.startRecord (s : State) (core : Nat) (e : List Nat × RecordPlace × Nat × DequeRecord) : Option State :=
  let (rank, place, n, r) := e
  let without := fun (new : List DequeRecord) (s : State) => match place with
    | .deque => s.setCore core { s.coreAt core with deque := replaceNth n new (s.coreAt core).deque }
    | .placements => { s with placements := replaceNth n new s.placements }
    | .overflow ctx => (match s.context? ctx with
      | some c => s.setContext { c with overflow := replaceNth n new c.overflow }
      | none => s)
  match s.grid? r.grid with
  | none => some (without [] s)
  | some d =>
    match s.rectangleFor core d with
    | none => none
    | some cs =>
      if (r.die.map (fun x => decide (x = core / 64))).getD true && s.tileTurn d (core / 64) r.first && !s.savedFirst core rank then
        some ((without r.rest s).startCluster d r.first cs)
      else none

/-- TEAM_START: the owner takes a team from a record of its deque (R134), or the management cores place one with its first team on
the core (R349): of the records the first in rank (R313) that can start. Any core may be the one. -/
def execTeamStart (core : Nat) (s : State) : Result :=
  .next (((s.startable core).findSome? (s.startRecord core)).getD s)

/-- Victims of a steal, in order (R135). -/
def stealOrder (core : Nat) : List Nat :=
  let c := core % 64
  let d := core / 64
  (upto 63).map (fun i => 64 * d + (c + 1 + (i * 29) % 63) % 64) ++
    [64 * ((d + 1) % 4) + c, 64 * ((d + 2) % 4) + c, 64 * ((d + 3) % 4) + c]

/-- A record may be stolen by a core: one-team clusters only, a draw's inside the die that owns it (R134, R135). -/
def State.stealable (s : State) (core : Nat) (r : DequeRecord) : Bool :=
  match s.grid? r.grid with
  | none => false
  | some d => d.lpb.clw * d.lpb.clh = 1 && (r.die.map (fun x => decide (x = core / 64))).getD true

/-- A stolen record is split: the victim keeps the lower half, rounded up (R135). -/
def splitRecord (r : DequeRecord) : Option DequeRecord × DequeRecord :=
  if r.count ≤ 1 then (none, r)
  else
    let keep := ceilDiv r.count 2
    (some { r with count := keep }, { r with first := r.first + keep, count := r.count - keep })

/-- The first victim whose tail record may be stolen. -/
def State.stealFrom (s : State) (core : Nat) : List Nat → Option State
  | [] => none
  | v :: l =>
    match (s.coreAt v).deque.getLast? with
    | none => s.stealFrom core l
    | some r =>
      if !(s.coreAt v).absent && s.stealable core r then
        let (kept, taken) := splitRecord r
        let s := s.setCore v { s.coreAt v with deque := (s.coreAt v).deque.dropLast ++ kept.toList }
        some (s.setCore core { s.coreAt core with deque := taken :: (s.coreAt core).deque })
      else s.stealFrom core l

/-- A record taken from the tail of a context's overflow deque (R135, step 3): of several contexts' the first, in the order of their
creation, that holds one to take. (DESIGN CHOICE, log 78.) -/
def State.stealOverflow (s : State) (core : Nat) : List Context → Option State
  | [] => none
  | c :: l =>
    match c.overflow.getLast? with
    | none => s.stealOverflow core l
    | some r =>
      if s.stealable core r then
        let (kept, taken) := splitRecord r
        let s := s.setContext { c with overflow := c.overflow.dropLast ++ kept.toList }
        some (s.setCore core { s.coreAt core with deque := taken :: (s.coreAt core).deque })
      else s.stealOverflow core l

/-- STEAL: a core with an empty deque (R135). -/
def execSteal (core : Nat) (s : State) : Result :=
  if (s.coreAt core).deque.isEmpty && !(s.coreAt core).absent then
    match s.stealFrom core (stealOrder core) with
    | some s => .next s
    | none => .next ((s.stealOverflow core s.contexts).getD s)
  else .next s

/-! ### FREEZE and sheaves -/

/-- Bytes of a sheaf's image: the most that the rule allows (R149). (DESIGN CHOICE, log 26.) -/
def imageSize (v : List (Option VMap)) (lines : Nat) : Nat :=
  1024 + 256 * (v.filter (fun m => m.isSome)).length + 128 * lines

/-- Virtual address of a sheaf's image in context memory: every image has one of its own (R152). (DESIGN CHOICE, log 26.) -/
def imageBase (id : Nat) : BitVec 56 := BitVec.ofNat 56 (0xFD000000000000 + 0x20000 * id)

/-- The sheaf captured from a group (R139, R152). -/
def captureSheaf (s : State) (g : Group) (p : Path) (ctx lines : Nat) (start : Word) (id : Nat) : Sheaf :=
  let t := s.team? g.team
  { id := id, ctx := ctx, grid := g.grid,
    v := g.v.map (fun m => m.map (fun m => { m with sheaf := some id })), s := g.bank0.s, stag := g.bank0.stag, p := g.p,
    x := g.bank0.x, mode := p.mode, pjoin := p.pjoin, mask := p.mask, trapvec := g.bank0.trapvec, lines := lines,
    scratch := match t with
      | none => []
      | some t => memWrite [] 0 (s.scratchRead t 0 (128 * lines))
    poisonV := g.poisonV, poisonWords := ((t.map Team.poisonWords).getD []).filter (fun w => decide (w < 32 * lines)),
    depth := g.depth + 1, start := start, home := (g.core, g.index % 4),
    imageCap := mkCap 5 (BitVec.ofNat 40 (imageSize g.v lines)) (permR ||| permW) (imageBase id) }

/-- A sheaf put at the front of a core's store, which holds 8; an unpinned one makes room, oldest last use first
(R149, R150). None when every entry is pinned. (DEDUCED, log 58.) -/
def State.installSheaf (s : State) (core sheaf : Nat) : Option State :=
  let k := s.coreAt core
  let pinned := fun (x : Nat) => s.groups.any (fun g => g.core = core && (if g.resident then decide (g.sheaf = some x)
    else g.v.any (fun m => (m.bind (fun m => m.sheaf)) = some x)))
  if k.store.contains sheaf then some (s.setCore core { k with store := sheaf :: removeNat sheaf k.store })
  else if k.store.length < 8 then some (s.setCore core { k with store := sheaf :: k.store })
  else
    match k.store.reverse.find? (fun x => !pinned x) with
    | none => none
    | some x => some (s.setCore core { k with store := sheaf :: removeNat x k.store })

/-- FREEZE (R137 to R142, R147, R148). What instance 0 wrote as a peer above the frozen lines of a team of its cluster stays there
when that team's groups are stamped. (DESIGN CHOICE, log 79.) -/
def execFreeze (a : Src) (s : State) : Result :=
  issue (.freeze a) (fun c =>
    let n := (c.control a c.p.mask).toNat
    let rs := (Instr.freeze a).reads c.p.mode
    match c.freezeFault a, c.team?, c.grid? with
    | some tr, _, _ => .raise tr
    | none, some t, some d =>
      if !c.g.pend.isEmpty then .wait c.g
      else
        let c := (c.noteReads rs).releaseReads rs []
        let lines := ceilDiv n 128
        let (id, s1) := c.s.newId
        let k := captureSheaf s1 c.g c.p d.ctx lines (c.p.pc + 4) id
        let s1 : State := { s1 with sheaves := s1.sheaves ++ [k] }
        let s1 := (s1.installSheaf c.g.core id).getD s1
        let g : Group := { c.g with v := k.v }
        if d.prologue then
          let d : Grid := { d with prologue := false, sheaf := some id, waiting := d.lpb.clusters - 1 }
          let s1 := s1.setGrid d
          let s1 := s1.setGroup g
          -- the other groups of team 0, and of its cluster's other teams, which see the frozen lines; their start acquires
          let s1 := (s1.invalidate t.core).addGroups d t 1 (some k)
          let others := (s1.clusterTeams t).filter (fun u => u.id ≠ t.id)
          let s1 := others.foldl (fun (s : State) u =>
            let u : Team := { u with frozen := some id
                                     poisonWords := k.poisonWords ++ u.poisonWords.filter (fun w => decide (32 * lines ≤ w)) }
            ((s.setTeam u).invalidate u.core).addGroups d u 0 (some k)) s1
          let s1 := if 1 < d.lpb.clusters then
              s1.pushRecord c.g.core d.ctx { grid := d.id, first := 1, count := d.lpb.clusters - 1 }
            else s1
          .goto { c with s := s1, g := g } (c.p.pc + 4)
        else
          let old := g.nested
          let s1 : State := { s1 with sheaves := s1.sheaves.map (fun x =>
            if old = some x.id then { x with dropped := true } else x) }
          let s1 := (s1.setGroup { g with nested := some id }).dropSheaves
          .goto { c with s := s1, g := (s1.group? g.id).getD g } (c.p.pc + 4)
    | none, _, _ => .raise trIllegal) s

/-- The sheaves whose registers a group holds, and the one it was stamped from. -/
def Group.sheaves (g : Group) : List Nat :=
  distinct (g.sheaf.toList ++ g.v.filterMap (fun m => m.bind (fun m => m.sheaf)))

/-- A waiting group's sheaves are all on its core, and its slot has room for the registers it is still to load (R144). -/
def State.sheafReady (s : State) (g : Group) : Bool :=
  g.sheaves.all (s.coreAt g.core).store.contains &&
    decide (sumNat (g.sheaves.map (s.toLoad g.core (g.index % 4))) ≤ s.poolFree g.core (g.index % 4))

/-- A waiting group runs where its sheaves have been loaded. -/
def State.wakeSheaf (s : State) (gid : Nat) : State :=
  match s.group? gid with
  | none => s
  | some g =>
    if g.resident && g.waitsSheaf && s.sheafReady g then
      let wake := fun (p : Path) => if p.park = .sheafMiss then { p with park := .running } else p
      s.setGroup ((({ g with missing := false } : Group).mapSlot 0 wake).mapSlot 1 wake)
    else s

/-- SHEAF_MISS: a core installs a sheaf, and the groups that wait for it run once all that they wait for is loaded (R149, R150,
R144). -/
def execSheafMiss (core sheaf : Nat) (s : State) : Result :=
  match s.sheaf? sheaf with
  | none => .next s
  | some _ =>
    match s.installSheaf core sheaf with
    | none => .next s
    | some s => .next (((s.groups.filter (fun g => g.core = core && g.sheaves.contains sheaf)).map Group.id).foldl
        State.wakeSheaf s)

end Sys2Proof.Machine
end

