-- ==== Sys2Proof/Machine/Complete.lean ====
section
/-! DEFINITION. Returns and completions of memory, capability, tag-table, launch and fence instructions (R173, R177 to
R191), with the local order of R216: at core scope a path's reads come in order and a group's stores leave its queue in
order; a store reaches its coherence point later. -/
namespace Sys2Proof.Machine

/-! ### Local order (R216) -/

/-- A V access that reads (rows 1 and 6). -/
def readsV : Instr → Bool
  | .ld _ _ _ _ _ _ => true
  | .lds _ _ _ _ _ => true
  | .ldcMemory _ _ _ _ => true
  | .atom _ _ _ _ _ _ => true
  | .atomNoreturn _ _ _ _ _ => true
  | .atoms _ _ _ _ _ _ => true
  | .atomsNoreturn _ _ _ _ _ => true
  | .tlook _ _ _ _ => true
  | .lnchW _ _ _ => true
  | .lnchN _ _ _ => true
  | .enq _ _ _ => true
  | .waita _ _ _ _ _ => true
  | _ => false

/-- A V access that writes (row 2). -/
def writesV : Instr → Bool
  | .st _ _ _ _ _ _ => true
  | .sts _ _ _ _ _ => true
  | .stc _ _ _ _ => true
  | .tset _ _ _ => true
  | .atom _ _ _ _ _ _ => true
  | .atomNoreturn _ _ _ _ _ => true
  | .atoms _ _ _ _ _ _ => true
  | .atomsNoreturn _ _ _ _ _ => true
  | _ => false

/-- A scratchpad access (row 4); the fetch of a copy list is one (R237). -/
def isScratch (i : Instr) : Bool :=
  (scratchForm i).isSome || (match i with
    | .ckick _ _ _ => true
    | _ => false)

/-- Two instructions have a path in common. -/
def sharePath (p q : Pend) : Bool := (p.owner0 && q.owner0) || (p.owner1 && q.owner1)

/-- The instructions of a group issued before one. -/
def Group.before (g : Group) (p : Pend) : List Pend := g.pend.takeWhile (fun q => q.id ≠ p.id)

/-- An instruction in flight that an event may advance. -/
def Pend.active (p : Pend) : Bool := decide (p.status = .inFlight)

/-- An LD. -/
def isLoad : Instr → Bool
  | .ld _ _ _ _ _ _ => true
  | _ => false

/-- A load that has its place at core scope and is still to read memory: later accesses of its path went on (row 1 holds at
core scope only). -/
def Pend.isSent (p : Pend) : Bool := isLoad p.instr && p.active && decide (p.stage = .atCore)

/-- Physical bytes that an instruction's accesses touch. -/
def Pend.runs (p : Pend) : List Run := (p.lanes.map LaneAccess.runs).flatten

/-- Two instructions have a sector in common. -/
def Pend.meets (p q : Pend) : Bool := (runSectors p.runs).any (runSectors q.runs).contains

/-- A WAITA: parked, it is no access that others wait for (R191). -/
def isWaita : Instr → Bool
  | .waita _ _ _ _ _ => true
  | _ => false

/-- What an instruction reads or performs has been read and performed: only its registers are still to be written. -/
def Pend.readDone (p : Pend) : Bool := p.todo.isEmpty && !p.due.isEmpty

/-- An earlier access holds a later one of its group at core scope (rows 1, 2, 4): a read of its path, a load that was sent apart
whose sectors the later one does not touch; for a write a queued write of the group; for a scratchpad access another. A pushed
LNCH .w has read its blocks, and a WAITA holds its own path only. -/
def Pend.holdsBack (q p : Pend) : Bool :=
  !q.readDone &&
    ((readsV q.instr && sharePath p q && !(q.stage = .atCore && !writesV q.instr && !(isLoad q.instr && q.meets p))) ||
    (writesV p.instr && writesV q.instr && decide (q.stage = .queued)) ||
    (isScratch p.instr && isScratch q.instr && !isWaita q.instr))

/-- The instructions of some that cannot complete before the frame of a fault: the faulted ones, and the accesses that one of these
holds (R305). -/
def stuckOf : List Pend → List Pend → List Pend
  | acc, [] => acc
  | acc, p :: l =>
    if p.isFaulted || ((readsV p.instr || writesV p.instr || isScratch p.instr) && acc.any (fun q => q.holdsBack p))
    then stuckOf (acc ++ [p]) l else stuckOf acc l

/-- A faulted access no longer holds the later ones of its group: those that cannot complete before it are more than a frame takes,
whatever completes beside (R305). (DESIGN CHOICE, log 51.) -/
def Group.overfull (g : Group) (q : Pend) : Bool :=
  let stuck := stuckOf [] (g.pend.filter (fun r => r.half = q.half && !r.isFetch))
  q.isFaulted && (decide (24 < stuck.length) || decide (48 < sumNat (stuck.map (fun r => r.queue.blocks.length))))

/-- An access may be performed at core scope: no earlier one holds it. An access that faulted keeps its place (R305). -/
def Group.mayPerform (g : Group) (p : Pend) : Bool :=
  (decide (g.res = .active) || decide (g.res = .pending)) &&
    (g.before p).all (fun q => !q.holdsBack p || (q.isFaulted && g.overfull q))

/-! ### The request (Table 15.1) -/

/-- A field of a request. -/
def CopyReq.f (r : CopyReq) (hi lo : Nat) : Nat := Sys2Proof.Machine.bits r.bits.toNat hi lo
/-- DSP. -/
def CopyReq.dsp (r : CopyReq) : Bool := r.bits.getLsbD 411
/-- SSP. -/
def CopyReq.ssp (r : CopyReq) : Bool := r.bits.getLsbD 410
/-- MAP. -/
def CopyReq.map (r : CopyReq) : Bool := r.bits.getLsbD 409
/-- CMODE: a signal word. -/
def CopyReq.signals (r : CopyReq) : Bool := r.bits.getLsbD 408
/-- SCOPE. -/
def CopyReq.scope (r : CopyReq) : Nat := r.f 407 404
/-- CONV. -/
def CopyReq.conv (r : CopyReq) : Nat := r.f 403 400
/-- SIGOFF. -/
def CopyReq.sigOff (r : CopyReq) : Nat := r.f 319 288
/-- XBYTES. -/
def CopyReq.xbytes (r : CopyReq) : Nat := r.f 127 96

/-- Element size on the source and on the destination side (Table 15.2). -/
def convSize (conv : Nat) : Nat × Nat :=
  match conv with
  | 0 => (1, 1) | 1 => (16, 16) | 2 => (4, 2) | 3 => (4, 2) | 4 => (2, 4) | _ => (2, 4)

/-- Rows of a request. -/
def CopyReq.rows (r : CopyReq) : Nat := (r.f 143 128 + 1) * (r.f 159 144 + 1)

/-- Source bytes of a request. -/
def CopyReq.total (r : CopyReq) : Nat := r.rows * r.xbytes

/-- A number of source bytes as destination bytes. -/
def CopyReq.dstBytes (r : CopyReq) (n : Nat) : Nat := n / (convSize r.conv).1 * (convSize r.conv).2

/-- Every payload byte is delivered. -/
def CopyReq.delivered (r : CopyReq) : Bool := decide (r.total ≤ r.done)

/-! ### Bytes -/

/-- The data bytes that a store writes in a lane, little-endian. -/
def Pend.storeData (p : Pend) (g : Group) (lane : Nat) : List Byte :=
  let dl := Delivery.typed (modeType p.mode)
  match p.instr with
  | .st _ _ _ sz _ _ => ((upto sz.regs).flatMap (fun i => leBytes 4 (p.op g dl i lane).toNat)).take sz.bytes
  | .sts _ _ _ sz _ => ((upto sz.regs).flatMap (fun i => leBytes 4 (p.op g dl i lane).toNat)).take sz.bytes
  | .stc _ _ _ _ => (upto 4).flatMap (fun i => leBytes 4 (p.op g .control i lane).toNat)
  | _ => []

/-- Every byte that a store writes, in ascending lane order (R178). -/
def Pend.storeBytes (p : Pend) (g : Group) : List (Nat × Byte) :=
  p.lanes.flatMap (fun a => pairBytes (runAddresses a.runs) (p.storeData g a.lane))

/-- A byte that the group's own queued stores, issued before the load, supply (R177, n39). -/
def Group.forwarded (g : Group) (p : Pend) (a : Nat) : Option Byte :=
  (g.before p).foldl (fun acc q =>
    if decide (q.stage = .queued) && q.active && (match q.instr with
        | .st _ _ _ _ _ _ => true
        | .stc _ _ _ _ => true
        | _ => false) then
      match (q.storeBytes g).reverse.find? (fun e => e.1 = a) with
      | some e => some e.2
      | none => acc
    else acc) none

/-- A byte that a load of the core returns, from the sectors as the core received them: the group's own queued stores stand over
it (R177, n39). A discarded page reads zero (R164). -/
def Group.loadByte (g : Group) (p : Pend) (seen : List (Nat × List Byte)) (a : Option Nat) : Byte :=
  match a with
  | none => 0
  | some a => (g.forwarded p a).getD (nth (assoc seen (sectorOf a) []) (a % 32) 0)

/-- Lanes that receive what one access lane reads: all of the mask under U = 1 (R175). -/
def Pend.receives (p : Pend) (lane : Nat) : DWord := if p.instr.uniform then p.lmask else maskFrom [lane]

/-- Element e of a load of a size, from its bytes (R177). -/
def loadWord (sz : MemSize) (b : List Byte) (e : Nat) : Word :=
  match sz with
  | .i8 => (nth b 0 0).signExtend 32
  | .n8 => (nth b 0 0).zeroExtend 32
  | .i16 => BitVec.ofInt 32 (toSigned 16 (leValue (b.take 2)))
  | .n16 => BitVec.ofNat 32 (leValue (b.take 2))
  | .w32 => BitVec.ofNat 32 (leValue (b.take 4))
  | .w64 => BitVec.ofNat 32 (leValue ((b.drop (4 * e)).take 4))
  | .w128 => BitVec.ofNat 32 (leValue ((b.drop (4 * e)).take 4))

/-- The sector in which an element of a lane begins; none when it has no physical address. -/
def elementSector (a : LaneAccess) (e : Nat) : Option Nat :=
  ((nth (runAddresses a.runs) (4 * e) none).map sectorOf)

/-- The sectors of element e of a lane: one, but where the base is not aligned to the element. -/
def elementSectors (a : LaneAccess) (e : Nat) : List Nat :=
  (((runAddresses a.runs).drop (4 * e)).take 4).filterMap (fun x => x.map sectorOf)

/-- The lanes still to be served that meet a poisoned sector (R172), in lane order. -/
def State.poisonedLanes (s : State) (p : Pend) : List LaneAccess :=
  p.lanes.filter (fun a => p.todo.any (fun t => t.1 = a.lane) && s.runsPoisoned a.runs)

/-- What is left of an instruction: an atomic of which some lanes have been performed keeps those that have not (R180, R226). -/
def Pend.remainder (p : Pend) : Pend :=
  if p.partAtomic then
    let left := maskFrom (p.todo.map (fun t => t.1))
    { p with lmask := left, sdst := if left.getLsbD (lowestLane p.lmask) then p.sdst else [],
             lanes := p.lanes.filter (fun a => left.getLsbD a.lane) }
  else p

/-- An instruction whose checks have been made again, without the elements that it has returned or performed. -/
def Pend.keepTodo (p q : Pend) : Pend :=
  if p.lanes.isEmpty then q else { q with todo := q.todo.filter p.todo.contains }

/-- A trap that its service declines (R301). -/
def Trap.unserviced (t : Trap) (seq : Nat) : Trap := { t with sub := 0xFF, seq := seq }

/-- A trap that a service has answered is met again by the replay: the POISON of the same lanes at the same place, whose sector was
not rewritten (R302). -/
def Trap.again (t u : Trap) : Bool :=
  decide (t.cause = .poison) && decide (u.cause = .poison) && decide (u.fmask = t.fmask) && decide (u.faddr = t.faddr)

/-- A trap that a service answers is met again by the checks of the replay. -/
def Trap.againIn (t : Trap) : PendStatus → Bool
  | .service u => t.again u
  | .inFlight => false
  | .faulted _ => false
  | .waitOnly => false

/-- A trap that the service declines is forwarded (R301): the instruction faults. -/
def State.forward (s : State) (g : Group) (p : Pend) (t : Trap) : State :=
  let t := t.unserviced s.fresh
  let s : State := { s with fresh := s.fresh + 1, log := s.log ++ [.forwarded g.id t] }
  if p.isFetch then
    let b := g.bank p.half
    s.setGroup ({ g with pend := g.pend.filter (fun q => q.id ≠ p.id) }.setBank p.half { b with raised := b.raised ++ [t] })
  else s.setGroup ((g.wake p.id).setPend { p with status := .faulted t })

/-- POISON met where the data is read: the mask of the lanes that meet it, the offset of the lowest (R176). An atomic of which
some lanes have been performed keeps those that have not (R226). -/
def State.poisonPend (s : State) (g : Group) (p : Pend) : State :=
  let bad := s.poisonedLanes p
  let t : Trap := { cause := .poison, fmask := maskFrom (bad.map LaneAccess.lane),
                    faddr := ((bad.head?.map LaneAccess.off).getD 0).zeroExtend 64, pc := p.pc, seq := s.fresh }
  if (p.served.map (fun u => u.again t)).getD false then s.forward g p.remainder t
  else { s with fresh := s.fresh + 1 }.setGroup (g.setPend { p.remainder with status := .service t, stage := .queued })

/-- What a load's elements are, by destination register: the elements of `here`, from the bytes of each access lane. -/
def Pend.loaded (p : Pend) (sz : MemSize) (here : List (Nat × Nat)) (bytes : Nat → List Byte) :
    List (Nat × DWord × List Word) :=
  (upto sz.regs).filterMap (fun e =>
    let lanes := (here.filter (fun t => t.2 = e)).map (fun t => t.1)
    match lanes with
    | [] => none
    | l0 :: _ => some (e, lanes.foldl (fun m l => m ||| p.receives l) 0,
        tabulate (fun l => loadWord sz (bytes (if p.instr.uniform then l0 else l)) e)))

/-- The lane elements of a load that a sector returns (R173): one request serves every lane of it, so that each lane's bytes
are those of one moment (R212). -/
def State.returnLoad (s : State) (g : Group) (p : Pend) (sz : MemSize) (cacheable : Bool) (sector part : Nat) : State :=
  let here := p.todo.filter (fun t =>
    match p.lanes.find? (fun a => a.lane = t.1) with
    | none => true
    | some a => (match elementSector a t.2 with
        | none => true
        | some x => x = sector))
  if (s.poisonedLanes p).any (fun a => here.any (fun t => t.1 = a.lane)) then s.poisonPend g p
  else
    let cached := cacheable && p.lanes.all (fun a => a.runs.all (fun r => r.mtype = 0))
    let (seen, s) := s.loadSectors g.core cached (distinct (here.flatMap (fun t =>
      ((p.lanes.find? (fun a => a.lane = t.1)).map (fun a => elementSectors a t.2)).getD [])))
    let bytes := fun (l : Nat) => match p.lanes.find? (fun a => a.lane = l) with
      | none => []
      | some a => (runAddresses a.runs).map (g.loadByte p seen)
    s.deliver g { p with todo := p.todo.filter (fun t => !here.contains t), due := p.due ++ p.loaded sz here bytes } part

/-- Lanes of a window access whose target is there no more (R169). -/
def State.windowGone (s : State) (g : Group) (p : Pend) : List LaneAccess :=
  let x := p.xcap.getD {}
  match s.contextOf g with
  | none => p.lanes
  | some c => p.lanes.filter (fun a => (s.windowGroup c.id (x.base.toNat + a.off.toNat)).isNone)

/-- The fault of an instruction in flight whose lanes meet a cause late (R176). -/
def lateTrap (s : State) (p : Pend) (c : Cause) (bad : List LaneAccess) : Trap :=
  { cause := c, fmask := maskFrom (bad.map LaneAccess.lane), faddr := ((bad.head?.map LaneAccess.off).getD 0).zeroExtend 64,
    pc := p.pc, seq := s.fresh }

/-- The group with an instruction that faults late; a POISON whose service rewrote no sector that it meets is forwarded (R302). -/
def State.faultPend (s : State) (g : Group) (p : Pend) (t : Trap) : State :=
  if (p.served.map (fun u => u.again t)).getD false then s.forward g p { t with pc := p.pc }
  else ({ s with fresh := s.fresh + 1 }.setGroup (g.setPend { p with status := pendFault { t with seq := s.fresh, pc := p.pc } })).notePoison g t

/-- A load of the register window (R169): it waits for the group's own window stores that are queued (R177); a target that has
left raises WINDOW. (DEDUCED, log 17.) -/
def State.windowLoad (s : State) (g : Group) (p : Pend) (sz : MemSize) (part : Nat) : State :=
  if (g.before p).any (fun q => decide (q.stage = .queued) && decide ((q.xcap.getD {}).type = 4) && writesV q.instr) then s
  else
    match s.windowGone g p with
    | a :: l => s.faultPend g p (lateTrap s p .window (a :: l))
    | [] =>
      let x := p.xcap.getD {}
      let bytes := fun (l : Nat) => match p.lanes.find? (fun a => a.lane = l), s.contextOf g with
        | some a, some c =>
          (match s.windowGroup c.id (x.base.toNat + a.off.toNat) with
            | none => []
            | some h => (if h.id = g.id then g else h).windowRead (x.base.toNat + a.off.toNat) sz.bytes)
        | _, _ => []
      s.deliver g { p with todo := [], due := p.due ++ p.loaded sz p.todo bytes } part

/-! ### Atomics (R179, R180) -/

/-- Signed reading of an n-bit value. -/
def atomSigned (w : Bool) (x : Nat) : Int := toSigned (if w then 64 else 32) x

/-- The new value of an atomic from the old one (Table 10.2); `c` is CAS's compare value. -/
def atomNew (op : AtomOp) (w : Bool) (m c v : Nat) : Nat :=
  let n := if w then 64 else 32
  match op with
  | .add => (m + v) % 2 ^ n
  | .min => if atomSigned w v < atomSigned w m then v else m
  | .max => if atomSigned w m < atomSigned w v then v else m
  | .and => m &&& v
  | .or => m ||| v
  | .xor => m ^^^ v
  | .exch => v
  | .cas => if m = c then v else m
  | .fadd => (add32 (BitVec.ofNat 32 m) (BitVec.ofNat 32 v)).toNat
  | .umin => min m v
  | .umax => max m v

/-- An atomic's operation and width. -/
def atomForm : Instr → Option (AtomOp × Bool)
  | .atom _ _ _ op w _ => some (op, w)
  | .atomNoreturn _ _ op w _ => some (op, w)
  | .atoms _ _ _ op w _ => some (op, w)
  | .atomsNoreturn _ _ op w _ => some (op, w)
  | _ => none

/-- Values of an atomic in a lane: compare value and operand. -/
def Pend.atomArgs (p : Pend) (g : Group) (op : AtomOp) (w : Bool) (lane : Nat) : Nat × Nat :=
  let n := if w then 2 else 1
  let val := fun (i : Nat) => if w then (p.op g .control i lane).toNat + (p.op g .control (i + 1) lane).toNat * 2 ^ 32
    else (p.op g .control i lane).toNat
  if op = .cas then (val 1, val (1 + n)) else (0, val 1)

/-- The old values of an atomic's lanes as its destinations receive them. -/
def Pend.oldValues (p : Pend) (w : Bool) (old : List (Nat × Nat)) : List (Nat × DWord × List Word) :=
  if p.vdst.isEmpty && p.sdst.isEmpty then []
  else
    let m := old.foldl (fun m e => m ||| p.receives e.1) 0
    let val := fun (l : Nat) => if p.instr.uniform then (old.head?.map (fun e => e.2)).getD 0 else assoc old l 0
    (0, m, tabulate (fun l => BitVec.ofNat 32 (val l))) ::
      (if w then [(1, m, tabulate (fun l => BitVec.ofNat 32 (val l / 2 ^ 32)))] else [])

/-- Lanes of an atomic performed at the coherence point, in ascending order, as one step per sector (R180). -/
def State.performAtom (s : State) (g : Group) (p : Pend) (op : AtomOp) (w : Bool) (part : Nat) : State :=
  let n := if w then 8 else 4
  let sectorOfLane := fun (lane : Nat) => ((p.lanes.find? (fun a => a.lane = lane)).bind (fun a =>
    a.runs.head?.bind Run.pa)).map sectorOf
  let first := (p.todo.head?.bind (fun t => sectorOfLane t.1))
  let here := p.todo.filter (fun t => sectorOfLane t.1 = first)
  let secs := distinct ((p.lanes.filter (fun a => here.any (fun t => t.1 = a.lane))).flatMap (fun a => runSectors a.runs))
  if (s.poisonedLanes p).any (fun a => here.any (fun t => t.1 = a.lane)) then s.poisonPend g p
  else
    let (old, s) := here.foldl (fun (acc : List (Nat × Nat) × State) t =>
      match p.lanes.find? (fun a => a.lane = t.1) with
      | none => acc
      | some a =>
        let m := leValue (acc.2.readRuns a.runs)
        let (c, v) := p.atomArgs g op w t.1
        (acc.1 ++ [(t.1, m)], acc.2.writeRuns a.runs (leBytes n (atomNew op w m c v)))) ([], s)
    let s := secs.foldl (fun (s : State) x => s.refreshSector g.core x) s
    s.deliver g { p with todo := p.todo.filter (fun t => !here.contains t), due := p.due ++ p.oldValues w old } part

/-- Lanes of a scratchpad access whose words are poisoned where they are read (R346). -/
def State.scratchPoison (s : State) (g : Group) (p : Pend) (sp : Space) (n : Nat) : List LaneAccess :=
  p.lanes.filter (fun a => p.todo.any (fun t => t.1 = a.lane) && (match s.scratchTarget g sp a.off.toNat n with
    | none => false
    | some (t, o) => t.poisoned o n))

/-- POISON of a scratchpad word is forwarded unserviced (R346). -/
def State.scratchPoisoned (s : State) (g : Group) (p : Pend) (bad : List LaneAccess) : State :=
  s.faultPend g p { lateTrap s p .poison bad with sub := 0xFF }

/-- An atomic on scratchpad (R180): every lane, in ascending order. -/
def State.performAtoms (s : State) (g : Group) (p : Pend) (sp : Space) (op : AtomOp) (w : Bool) (part : Nat) : State :=
  let n := if w then 8 else 4
  match s.scratchPoison g p sp n with
  | a :: l => s.scratchPoisoned g p (a :: l)
  | [] =>
    let (old, s) := p.todo.foldl (fun (acc : List (Nat × Nat) × State) t =>
      match acc.2.scratchTarget g sp (p.offset g t.1) n with
      | none => acc
      | some (tm, o) =>
        let m := leValue (acc.2.scratchRead tm o n)
        let (c, v) := p.atomArgs g op w t.1
        (acc.1 ++ [(t.1, m)], acc.2.scratchWrite tm.id o (leBytes n (atomNew op w m c v)))) ([], s)
    s.deliver g { p with todo := [], due := p.oldValues w old } part

/-- A load of scratchpad (R181): every lane at one moment. -/
def State.performLds (s : State) (g : Group) (p : Pend) (sp : Space) (sz : MemSize) (part : Nat) : State :=
  match s.scratchPoison g p sp sz.bytes with
  | a :: l => s.scratchPoisoned g p (a :: l)
  | [] =>
    let bytes := fun (l : Nat) => match s.scratchTarget g sp (p.offset g l) sz.bytes with
      | none => []
      | some (tm, o) => s.scratchRead tm o sz.bytes
    let here := p.todo.flatMap (fun t => (upto sz.regs).map (fun e => (t.1, e)))
    s.deliver g { p with todo := [], due := p.loaded sz here bytes } part

/-- A quad returned to its four s registers, with its tag bit (R155, R182, R185). -/
def State.returnQuad (s : State) (g : Group) (p : Pend) (q : QWord) (tag : Bool) (part : Nat) : State :=
  let m := maskFrom [lowestLane p.lmask]
  s.deliver g { p with
    todo := [], dueTag := tag,
    due := ((upto 4).zip (capWords q)).map (fun e => (e.1, m, List.replicate 64 e.2)) } part

/-- The fault of a scratchpad write whose reserve has been used up since its checks (R146). -/
def State.lateTcopy (s : State) (g : Group) (p : Pend) (sp : Space) (n : Nat) : Option Trap :=
  match s.tcopyLanes g sp n (p.todo.map (fun t => (t.1, p.offset g t.1))) [] with
  | [] => none
  | (l, o) :: rest => some { cause := .tcopy, fmask := maskFrom (l :: rest.map (fun b => b.1)),
                             faddr := BitVec.ofNat 64 o, pc := p.pc, seq := s.fresh }

/-- The core holds no store of a granule or sector of these runs that is still on its way (R178). -/
def State.drained (s : State) (g : Group) (p : Pend) (runs : List Run) : Bool :=
  let secs := runSectors runs
  !(s.coreAt g.core).buffer.any (fun w => w.bytes.any (fun e => secs.contains (sectorOf e.1))) &&
    !(g.before p).any (fun q => q.stage = .queued && q.active &&
      (q.storeBytes g).any (fun e => secs.contains (sectorOf e.1)))

/-- The blocks of a launch may be read (R130, R177): no store of the group or the core to their sectors is on its way. -/
def State.launchDrained (s : State) (g : Group) (p : Pend) : Bool :=
  s.drained g p p.runs && p.lanes.all (fun a => match s.contextOf g with
    | none => true
    | some c =>
      if isEnq p.instr then
        (match s.nodeCheck g c a with
          | some (.ok runs _) => s.drained g p runs
          | some (.bad _ _ _ _ _) => true
          | none => true)
      else true)

/-- The lowest index of a tag range whose entry is valid and holds the key (R167, R186). -/
def tagSearch (t : Team) (key : Word) (first count : Nat) : Word :=
  match (upto count).find? (fun i =>
    let e := assoc t.tagTab (first + i) 0
    e.getLsbD 63 && e.extractLsb' 0 32 = key) with
  | some i => BitVec.ofNat 32 (first + i)
  | none => 0xFFFFFFFF

/-- No earlier tag-table access of the team is outstanding (R167). -/
def State.tagTurn (s : State) (g : Group) (p : Pend) : Bool :=
  !s.groups.any (fun h => h.team = g.team && h.pend.any (fun q => q.id < p.id && q.active && (match q.instr with
    | .tlook _ _ _ _ => true
    | .tset _ _ _ => true
    | _ => false)))

/-- An access of the instruction waits for the copy of a channel (R336) or for a link that retrains (R323). -/
def State.waitsChannel (s : State) (core : Nat) (p : Pend) : Bool :=
  (!s.channelCopies.isEmpty || s.links.any Link.retraining) &&
    p.lanes.any (fun a => (runAddresses a.runs).any (fun x => (x.map (s.pathHeld core)).getD false))

/-! ### Budgets (R242, R327) -/

/-- A source has not enough left of its budget of the period for an amount that is known. -/
def Context.overBudget (c : Context) (resource : Resource) (n : Nat) : Bool :=
  match c.budgets.find? (fun e => e.1 = resource) with
  | none => false
  | some (_, limit) => decide (limit < ((c.spent.find? (fun e => e.1 = resource)).map (fun e => e.2)).getD 0 + n)

/-- A source has spent its budget: it waits for the next period (R327). -/
def Context.spentOut (c : Context) (resource : Resource) : Bool := c.overBudget resource 1

/-- An amount added to what a source has used. -/
def Context.spend (c : Context) (resource : Resource) (n : Nat) : Context :=
  if c.budgets.any (fun e => e.1 = resource) then
    { c with spent := (resource, ((c.spent.find? (fun e => e.1 = resource)).map (fun e => e.2)).getD 0 + n) ::
        c.spent.filter (fun e => e.1 ≠ resource) }
  else c

/-- Amounts charged to the budgets of a context. -/
def State.charge (s : State) (ctx : Nat) (l : List (Resource × Nat)) : State :=
  match s.context? ctx with
  | none => s
  | some c => if c.budgets.isEmpty then s else s.setContext (l.foldl (fun c e => c.spend e.1 e.2) c)

/-- What a core's accesses to some sectors take from budgets: a sector of its stack's channels, and a flit each way of the link that
it crosses. (DESIGN CHOICE, log 49: the flits of an access, and a peer's port.) -/
def demandOf (core : Nat) (secs : List Nat) : List (Resource × Nat) :=
  secs.flatMap (fun x =>
    let pa := 32 * x
    if pa < deviceMemoryEnd then
      (.channels (homeIndex pa), 1) ::
        (if homeIndex pa / 2 = core / 64 then [] else [(.valley core true, 1), (.valley core false, 1)])
    else if pa < 0x800000000000 then [(.calven true, 1), (.calven false, 1)]
    else [(.ranaris (peerOf pa % 16) true, 1), (.ranaris (peerOf pa % 16) false, 1)])

/-- A group's context has spent a budget that an access of some sectors needs. -/
def State.rationed (s : State) (g : Group) (secs : List Nat) : Bool :=
  match s.contextOf g with
  | none => false
  | some c => !c.budgets.isEmpty && (demandOf g.core secs).any (fun e => c.spentOut e.1)

/-- An access of some sectors charged to its group's context. -/
def State.chargeAccess (s : State) (g : Group) (secs : List Nat) : State :=
  match s.contextOf g with
  | none => s
  | some c => if c.budgets.isEmpty then s else s.charge c.id (demandOf g.core secs)

/-- An access of an instruction waits: for a channel, a link or a budget (R323, R327, R336). -/
def State.accessWaits (s : State) (g : Group) (p : Pend) : Bool := s.waitsChannel g.core p || s.rationed g (runSectors p.runs)

/-- What a unit is to read for a group waits: a channel, a link of the die, or a budget of the context that some read may need. It is
not known before the unit reads, so that it waits whatever it is to read. (DESIGN CHOICE, log 72.) -/
def State.unitWaits (s : State) (g : Group) : Bool :=
  s.dieHeld (g.core / 64) || (match s.contextOf g with
    | none => false
    | some c => c.budgets.any (fun e => (match e.1 with
        | .valley core _ => decide (core = g.core)
        | .calven _ => true
        | .ranaris _ _ => true
        | .channels _ => true
        | .copyEngine _ => false
        | .ridge _ => false
        | .composer _ => false) && c.spentOut e.1))

/-- A load may be sent ahead of a later access of its path: its own place at core scope has come, nothing of the group or the
core is on its way to its sectors, and they are device memory that the later access does not touch. -/
def State.canSend (s : State) (g : Group) (p q : Pend) : Bool :=
  isLoad q.instr && q.active && !q.readDone && decide (q.stage = .queued) && decide ((q.xcap.getD {}).type ≠ 4) && !q.meets p &&
    q.runs.all (fun r => match r.pa with
      | none => true
      | some pa => pa + r.len ≤ deviceMemoryEnd) &&
    g.mayPerform q && s.drained g q q.runs

/-- The earlier loads of the path that are outstanding take their place at core scope, where they may; what they return they
read later, so that beyond the core later accesses may be seen first (R216 row 1, R224). (DEDUCED, log 17.) -/
def State.sendLoads (s : State) (g : Group) (p : Pend) : Group :=
  (g.before p).foldl (fun h q => if sharePath p q && s.canSend h p q then h.setPend { q with stage := .atCore } else h) g

/-- A load of the core was sent and is still to read one of the instruction's sectors: a write to it waits (R224 at core
scope). -/
def State.readAhead (s : State) (core : Nat) (p : Pend) : Bool :=
  s.groups.any (fun h => h.core = core && h.pend.any (fun q => q.isSent && q.meets p))

/-- LOAD_SECTOR_RETURN (R173): a part of a register-returning access is read, or what it has read is written to its registers,
all of it or the part that is named (R22). It is not enabled where the order of R216 holds it. (DESIGN CHOICE for early reads,
log 16; for the tag that an LDC over two granules delivers, log 68.) -/
def execLoadSectorReturn (gid id : Nat) (at_ : SectorPart) (s : State) : Result :=
  let sector := at_.sector
  let part := at_.part
  match s.group? gid with
  | none => .next s
  | some g =>
    match g.pend? id with
    | none => .next s
    | some p =>
      let g := s.sendLoads g p
      if !p.due.isEmpty then .next (s.deliver g p part)
      else if !p.active || !g.mayPerform p || s.accessWaits g p then .next s
      else
        match p.instr with
        | .ld _ _ _ sz h _ =>
          if (p.xcap.getD {}).type = 4 then .next (s.windowLoad g p sz part)
          else .next ((s.chargeAccess g [sector]).returnLoad g p sz (decide (h ≠ .bypass)) sector part)
        | .lds _ _ sp sz _ => .next (s.performLds g p sp sz part)
        | .ldcTable _ _ _ =>
          let slot := (p.opc g 0).toNat
          let (q, tag) := ((s.contextOf g).map (fun c => c.slot slot)).getD (0, false)
          .next (s.returnQuad g p q tag part)
        | .ldcMemory _ _ _ _ =>
          let runs := (p.lanes.head?.map LaneAccess.runs).getD []
          if !s.drained g p runs then .next s
          else if !(s.poisonedLanes p).isEmpty then .next (s.poisonPend g p)
          else
            let x := p.xcap.getD {}
            let tag := match runs with
              | [r] => (match r.pa with
                  | some pa => pa % 16 = 0 && hasPerm x.perm permK && s.tagAt pa
                  | none => false)
              | _ => false
            let (b, s) := (s.chargeAccess g (runSectors runs)).readL2 g.core runs
            .next (s.returnQuad g p (BitVec.ofNat 128 (leValue b)) tag part)
        | .mint _ _ _ _ =>
          let pq := quadBits ((upto 4).map (fun i => p.opc g i))
          let b3 := p.opc g 7
          let off := bits (p.opc g 5).toNat 23 0 * 2 ^ 32 + (p.opc g 4).toNat
          let len := bits b3.toNat 7 0 * 2 ^ 32 + (p.opc g 6).toNat
          let q := mkCap (b3.extractLsb' 16 8) (BitVec.ofNat 40 len) (b3.extractLsb' 8 8) (capBase pq + BitVec.ofNat 56 off)
          .next (s.returnQuad g p q true part)
        | .atom _ _ _ op w _ =>
          if s.drained g p ((p.lanes.map LaneAccess.runs).flatten) && !s.readAhead g.core p then
            .next ((s.chargeAccess g (runSectors p.runs)).performAtom g p op w part) else .next s
        | .atoms _ _ sp op w _ =>
          (match s.lateTcopy g p sp (if w then 8 else 4) with
            | some t => .next (s.faultPend g p t)
            | none => .next (s.performAtoms g p sp op w part))
        | .tlook _ _ _ _ =>
          if !s.tagTurn g p then .next s
          else
            match s.team? g.team with
            | none => .next s
            | some t =>
              let val := fun (lane : Nat) =>
                let b := (p.op g .control 1 lane).toNat
                tagSearch t (p.op g (.typed (modeType p.mode)) 0 lane) (bits b 10 0) (bits b 21 16 + 1)
              .next ((s.setGroup g).returnAll gid p part (fun _ lane => val lane))
        | _ => .next s

/-- The sector that a load's first element left comes from. -/
def Pend.nextSector (p : Pend) : Nat :=
  match p.todo.head? with
  | none => 0
  | some (lane, e) => ((p.lanes.find? (fun a => a.lane = lane)).bind (fun a => elementSector a e)).getD 0

/-- A load that was sent returns, sector by sector. -/
def State.landLoad (gid id : Nat) : Nat → State → State
  | 0, s => s
  | n + 1, s =>
    match s.group? gid with
    | none => s
    | some g =>
      match g.pend? id with
      | none => s
      | some p =>
        match p.instr with
        | .ld _ _ _ sz h _ =>
          if p.isSent then State.landLoad gid id n (s.returnLoad g p sz (decide (h ≠ .bypass)) p.nextSector 0) else s
        | _ => s

/-- What an instruction has read is written to its registers. -/
def State.landDue (gid : Nat) (s : State) (id : Nat) : State :=
  match s.group? gid with
  | none => s
  | some g =>
    match g.pend? id with
    | none => s
    | some p => if p.due.isEmpty then s else s.deliver g p 0

/-- Before a group is saved its loads that were sent return, and what its instructions have read is written to its registers
(R226: they are performed in part); a texture read that has read nothing yet resolves anew. -/
def State.land (s : State) (gid : Nat) : State :=
  match s.group? gid with
  | none => s
  | some g =>
    let s : State := { s with groups := s.groups.map (fun h => if h.id = gid then
      { h with pend := h.pend.map (fun p => { p with tex := [] }) } else h) }
    let s := (g.pend.filter Pend.isSent).foldl (fun s p => State.landLoad gid p.id p.todo.length s) s
    (g.pend.map (fun p => p.id)).foldl (State.landDue gid) s

/-- Nothing is on its way beside what is still to be performed: no load was sent ahead, no instruction has read what it has not
delivered, and no core holds a store. -/
def State.quiet (s : State) : Bool :=
  s.groups.all (fun g => g.pend.all (fun p => !p.isSent && p.due.isEmpty && p.tex.isEmpty)) &&
    s.cores.all (fun k => k.buffer.isEmpty)

/-! ### Stores and completions without a register -/

/-- The registers that a store of the register window writes: of each target group its core, slot and the register. -/
def State.windowTargets (s : State) (g : Group) (p : Pend) : List (Nat × Nat × Nat × Nat) :=
  match s.contextOf g with
  | none => []
  | some c => p.lanes.filterMap (fun a =>
      let va := ((p.xcap.getD {}).base).toNat + a.off.toNat
      (s.windowGroup c.id va).map (fun h => (h.core, h.index % 4, h.id, bits va 13 8)))

/-- A store of the register window takes a new register for each that it writes (R107, R169): it stalls while the pool of a
target's slot has too few (R109). -/
def State.windowStalls (s : State) (g : Group) (p : Pend) : Bool :=
  let ts := s.windowTargets g p
  ts.any (fun t =>
    let here := ts.filter (fun u => u.1 = t.1 && u.2.1 = t.2.1)
    decide (s.poolFree t.1 t.2.1 < (distinct (here.map (fun u => 64 * u.2.2.1 + u.2.2.2))).length))

/-- A store of the register window is performed (R169); a target that has left raises WINDOW. -/
def State.windowStore (s : State) (g : Group) (p : Pend) : State :=
  match s.windowGone g p with
  | a :: l => s.faultPend g p (lateTrap s p .window (a :: l))
  | [] =>
    if s.windowStalls g p then s
    else
    let x := p.xcap.getD {}
    let s' := p.lanes.foldl (fun (acc : Group × State) a =>
      let va := x.base.toNat + a.off.toNat
      match acc.2.contextOf g with
      | none => acc
      | some c =>
        match acc.2.windowGroup c.id va with
        | none => acc
        | some h =>
          if h.id = g.id then (acc.1.windowWrite va (p.storeData g a.lane), acc.2)
          else (acc.1, acc.2.setGroup (h.windowWrite va (p.storeData g a.lane)))) (g, s)
    s'.2.landed ((s'.1.wake p.id).complete p.id)

/-- A store leaves the group's queue: it is performed at core scope, and updates the core's copies (R170, R178). An STC whose
register's BASE is no multiple of 16 covers two granules and sets no tag. (DESIGN CHOICE, log 68.) -/
def State.storeToCore (s : State) (g : Group) (p : Pend) : State :=
  let x := p.xcap.getD {}
  if x.type = 4 then s.windowStore g p
  else
    let bytes := p.storeBytes g
    let k := s.coreAt g.core
    let tagged := match p.instr with
      | .stc _ _ _ _ =>
        if p.stag && hasPerm x.perm permK then p.lanes.filterMap (fun (a : LaneAccess) => match a.runs with
          | [r] => r.pa
          | _ => none) else []
      | _ => []
    let w : CoreWrite := { group := g.id, pend := p.id, bytes := bytes, tagged := tagged.filter (fun a => a % 16 = 0), grid := g.grid }
    (s.setCore g.core { k.update bytes with buffer := k.buffer ++ [w] }).landed (g.setPend { p with stage := .atCore })

/-- A store reaches its coherence point, unless an earlier store of the core to one of its sectors is still on its
way (R178, R221). -/
def State.storeToMemory (s : State) (g : Group) (p : Pend) : State :=
  let k := s.coreAt g.core
  let mine := fun (w : CoreWrite) => decide (w.group = g.id) && decide (w.pend = p.id)
  match k.buffer.find? mine with
  | none => s.landed ((g.wake p.id).complete p.id)
  | some w =>
    let earlier := k.buffer.takeWhile (fun v => !mine v)
    let secs := w.bytes.map (fun e => sectorOf e.1)
    if earlier.any (fun v => v.bytes.any (fun e => secs.contains (sectorOf e.1))) then s
    else
      let s := (s.writePhys w.bytes).chargeAccess g (distinct secs)
      let s := w.tagged.foldl (fun s a => s.setTag a) s
      let s := s.setCore g.core { k with buffer := k.buffer.filter (fun v => !mine v) }
      s.landed ((g.wake p.id).complete p.id)

/-- The oldest store that a core holds reaches its coherence point. -/
def State.flushOne (s : State) (core : Nat) : State :=
  match (s.coreAt core).buffer with
  | [] => s
  | w :: l =>
    match (s.group? w.group).bind (fun g => (g.pend? w.pend).map (fun p => (g, p))) with
    | some (g, p) => s.storeToMemory g p
    | none => (w.tagged.foldl (fun s a => s.setTag a) (s.writePhys w.bytes)).setCore core { s.coreAt core with buffer := l }

/-- Every store that a core holds reaches its coherence point, before a group leaves the core. -/
def State.flushCore (s : State) (core : Nat) : State :=
  (s.coreAt core).buffer.foldl (fun s _ => s.flushOne core) s

/-- Scope code. -/
def scopeNat (sc : Scope) : Nat :=
  match sc with
  | .lane => 0 | .group => 1 | .team => 2 | .core => 3 | .cluster => 4 | .section_ => 5 | .die => 6 | .device => 7
  | .board => 8 | .domain => 9 | .system => 10

/-- An access of a path is performed at a scope (R214, R189): a load has returned; a store is at core scope, or at its
coherence point for a wider scope. -/
def performedAt (sc : Scope) (q : Pend) : Bool :=
  match sc with
  | .lane => true
  | .group => true
  | .team => q.stage = .atCore
  | .core => q.stage = .atCore
  | _ => false

/-- One earlier access, for a fence of a kind at a scope (R189): its reads are done, and for a release its writes performed. -/
def fenceHas (k : FenceKind) (sc : Scope) (q : Pend) : Bool :=
  match k with
  | .acq => !readsV q.instr || q.readDone
  | .rel => q.readDone || (!readsV q.instr && performedAt sc q)
  | .full => q.readDone || (!readsV q.instr && performedAt sc q)

/-- What a fence's kind orders is performed at the scope (R189). -/
def fenceDone (k : FenceKind) (sc : Scope) (g : Group) (p : Pend) : Bool :=
  (g.before p).all (fun q => !(isV q.instr && sharePath p q) || fenceHas k sc q)

/-- A release at a scope wider than core covers what happened before it on its core too (R217), and an engine's class after reads
no core's buffer (R223): stores of the core that are on their way are waited for. -/
def drains (k : FenceKind) (ca : PathClass) (sc : Scope) : Bool :=
  (decide (k ≠ .acq) && decide (3 < scopeNat sc)) || !(decide (ca = .v) || decide (ca = .h) || decide (ca = .p))

/-- A fence whose earlier accesses are performed completes, at once or, where it drains, once no store is left of those that were on
their way when the last of these accesses had been performed: a read of its path may have returned any of them (R217, R223). -/
def State.fenceTurn (s : State) (g : Group) (p : Pend) (ready drain : Bool) (finish : State → State) : State :=
  let on := ((s.coreAt g.core).buffer).map CoreWrite.pend
  if !ready then s
  else if !drain || on.isEmpty then finish s
  else if p.aux.isEmpty then s.setGroup (g.setPend { p with aux := on })
  else if p.aux.any on.contains then s else finish s

/-- A command of an engine that reads memory, scratchpad or a BVH: an XFENCE acq waits for no other (R190). -/
def readsClass (i : Instr) : Bool :=
  match i with
  | .mdrain _ => false
  | .mdrainv _ _ _ => false
  | .mzero _ _ => false
  | .mscale _ _ => false
  | .repack _ _ _ _ => false
  | _ => true

/-- The accesses of a path class that were made before, all performed (R190): the path's own for V and T, those of the group's
commands for the engines, those that the group's own V accesses gave rise to for the link agents. The stores that another class
is to see must have reached their coherence point, since no engine or unit reads a core's buffer. -/
def classDone (s : State) (cb ca : PathClass) (k : FenceKind) (sc : Scope) (g : Group) (p : Pend) : Bool :=
  let none_ := !(g.before p).any (fun q => inClass cb q.instr && (decide (k ≠ .acq) || readsClass q.instr) && !q.readDone)
  let link := fun (m : Nat) => (g.before p).all (fun q =>
    !(isV q.instr && q.runs.any (fun r => decide (r.mtype = m))) || fenceHas k sc q)
  match cb with
  | .v => fenceDone k (if ca = .v ∨ ca = .h ∨ ca = .p ∨ 7 < scopeNat sc then sc else .device) g p
  | .h => link 2
  | .p => link 3
  | .c => none_ && !(s.coreAt g.core).copies.any (fun r => r.group = g.id && (decide (k ≠ .acq) || !r.delivered)) &&
      (decide (k = .acq) || !(s.coreAt g.core).buffer.any (fun w => w.engine && decide (w.group = g.id)))
  | .m => none_
  | .t => !(g.before p).any (fun q => isTexture q.instr && sharePath p q && !q.readDone) &&
      (decide (k = .acq) || !((s.contextOf g).map (fun c => c.gutPending.any (fun e => decide (e.1 < p.id)))).getD false)
  | .y => none_
  | .k => none_ && (decide (k = .acq) || !s.dies.any (fun d => d.optQueue.any (fun j => j.group = g.id)))

/-- Another core lies within a scope of a group's core (R37, Table 12.1). -/
def State.sharesScope (s : State) (sc : Scope) (g : Group) (other : Nat) : Bool :=
  let n := scopeNat sc
  let core := g.core
  if n ≤ 3 then core = other
  else if n = 4 then core = other || ((s.team? g.team).map (fun t =>
    (s.clusterTeams t).any (fun u => u.core = other))).getD false
  else if n = 5 then core / 32 = other / 32 else if n = 6 then core / 64 = other / 64 else true

/-- Every texture unit of another core within a scope of die or wider has completed the T-path reads of the context that consulted
the map before (R195). -/
def State.texturesDone (s : State) (g : Group) (sc : Scope) : Bool :=
  decide (scopeNat sc < 6) || s.groups.all (fun h =>
    decide (h.core = g.core) || !s.sharesScope sc g h.core ||
      decide ((s.contextOf h).map Context.id ≠ (s.contextOf g).map Context.id) || h.pend.all (fun q => q.tex.isEmpty && (!isTexture q.instr || q.due.isEmpty)))

/-- An acquire at a scope: at core scope or wider the read cache is invalidated (R170). -/
def State.acquire (s : State) (core : Nat) (sc : Scope) : State :=
  if 3 ≤ scopeNat sc then s.invalidate core else s

/-- The line of one lane of a PREF (R188): put into the read cache where its page's checks pass and its memory type is cached. A
page that is managed, discarded or of the window drops the lane. -/
def State.prefetchLine (s : State) (g : Group) (c : Context) (x : XReg) (o : Nat) : State :=
  if x.type = 4 then s
  else
    match s.checkAccess g.core c x .load true 1 1 o with
    | .ok [r] _ =>
      (match r.pa, s.walk c (x.base.toNat + o) with
        | some pa, .leaf _ e _ =>
          if leafLod e || leafDisc e || decide (r.mtype ≠ 0) || s.pathHeld g.core pa then s
          else (upto 4).foldl (fun s i => s.setCore g.core
            ((s.coreAt g.core).fill (4 * (pa / 128) + i) (s.sectorSeen g.core (4 * (pa / 128) + i)))) s
        | _, _ => s)
    | .ok _ _ => s
    | .bad _ _ _ _ _ => s

/-- An XLAT of the group to the same register was issued before and is unfinished: the later one stands (R14). -/
def Group.xlatBefore (g : Group) (p : Pend) (n : Fin 8) : Bool :=
  (g.before p).any (fun q => q.half = p.half && (match q.instr with
    | .xlat _ m _ => decide (m = n)
    | _ => false))

/-- A launch may read its blocks and be pushed: the path's earlier accesses are performed, and what happened before on its core
too, whose stores are all at their coherence point (R136, R217). -/
def State.launchTurn (s : State) (g : Group) (p : Pend) : Bool :=
  (g.before p).all (fun q => !(sharePath p q && (readsV q.instr || writesV q.instr)) || q.readDone) &&
    (s.coreAt g.core).buffer.isEmpty

/-- A launch whose turn has come reads its blocks (R130): POISON, a fault, or the grids
pushed; with .w it then waits for them (R133). -/
def State.launchNow (s : State) (g : Group) (p : Pend) : State :=
  if !s.launchTurn g p || !s.launchDrained g p then s
  else if !(s.poisonedLanes p).isEmpty then s.poisonPend g p
  else
    let s := s.markNodes g p
    match s.launch g p, p.instr with
    | .error t, _ => s.faultPend (g.wake p.id) p t
    | .ok (ids, g, s), .lnchW _ _ _ => s.setGroup (g.setPend { p with stage := .atCore, aux := ids })
    | .ok (_, g, s), _ => s.landed (g.complete p.id)

/-- STORE_PERFORMED (R178): a store moves one stage on; any other instruction that returns no register completes. -/
def execStorePerformed (gid id : Nat) (s : State) : Result :=
  match s.group? gid with
  | none => .next s
  | some g =>
    match g.pend? id with
    | none => .next s
    | some p =>
      if !p.active || s.accessWaits g p then .next s
      else
        match p.instr with
        | .st _ _ _ _ _ _ =>
          if p.stage = .atCore then .next (s.storeToMemory g p)
          else if (s.sendLoads g p).mayPerform p && !s.readAhead g.core p then .next (s.storeToCore (s.sendLoads g p) p)
          else .next s
        | .stc _ _ _ _ =>
          if p.stage = .atCore then .next (s.storeToMemory g p)
          else if (s.sendLoads g p).mayPerform p && !s.readAhead g.core p then .next (s.storeToCore (s.sendLoads g p) p)
          else .next s
        | .sts _ _ sp sz _ =>
          let g := s.sendLoads g p
          if !g.mayPerform p then .next s
          else
            match s.lateTcopy g p sp sz.bytes with
            | some t => .next (s.faultPend g p t)
            | none =>
              let s := p.todo.foldl (fun (s : State) t =>
                match s.scratchTarget g sp (p.offset g t.1) sz.bytes with
                | none => s
                | some (tm, o) => s.scratchWrite tm.id o (p.storeData g t.1)) s
              .next (s.progress g { p with todo := [] })
        | .atomNoreturn _ _ op w _ =>
          let g := s.sendLoads g p
          if g.mayPerform p && !s.readAhead g.core p && s.drained g p ((p.lanes.map LaneAccess.runs).flatten) then
            .next ((s.chargeAccess g (runSectors p.runs)).performAtom g p op w 0) else .next s
        | .atomsNoreturn _ sp op w _ =>
          let g := s.sendLoads g p
          if !g.mayPerform p then .next s
          else
            match s.lateTcopy g p sp (if w then 8 else 4) with
            | some t => .next (s.faultPend g p t)
            | none => .next (s.performAtoms g p sp op w 0)
        | .tset _ _ _ =>
          let g := s.sendLoads g p
          if !s.tagTurn g p || !g.mayPerform p then .next s
          else
            match s.team? g.team with
            | none => .next s
            | some t =>
              let tab := p.accessLanes.foldl (fun tab l =>
                let i := (p.op g .control 0 l).toNat
                let key := p.op g (.typed (modeType p.mode)) 1 l
                let hi := p.op g .control 2 l
                let e : DWord := (hi.extractLsb' 31 1) ++ (0 : BitVec 23) ++ (hi.extractLsb' 0 8) ++ key
                if e = 0 then assocErase i tab else assocSet i e tab) t.tagTab
              .next (((s.setGroup g).setTeam { t with tagTab := tab }).completePend gid id)
        | .xlat _ n _ =>
          if g.xlatBefore p n || s.dieHeld (g.core / 64) then .next s
          else
          let q := quadBits ((upto 4).map (fun i => p.opc g i))
          (match s.contextOf g with
            | none => .next s
            | some c =>
              let b := g.bank p.half
              .next (s.landed ((g.setBank p.half { b with x := putNth {} b.x n.val (s.xlatOf c q) }).complete id)))
        | .pref _ x k _ =>
          let s := match k, s.contextOf g with
            | .cacheAndL2, some c => p.accessLanes.foldl (fun (s : State) l =>
                s.prefetchLine g c (p.xcap.getD (nth (g.bank p.half).x x.val {})) (p.offset g l)) s
            | _, _ => s
          .next (s.completePend gid id)
        | .fence k sc =>
          .next (s.fenceTurn g p (fenceDone k sc g p) (drains k .v sc) (fun s =>
            (match k with
              | .rel => s
              | .acq => s.acquire g.core sc
              | .full => s.acquire g.core sc).completePend gid id))
        | .xfence k ca cb sc =>
          .next (s.fenceTurn g p (classDone s cb ca k sc g p && (decide (ca ≠ .t) || s.texturesDone g sc)) (drains k ca sc) (fun s =>
            (match k, ca with
              | .acq, .v => s.acquire g.core sc
              | .full, .v => s.acquire g.core sc
              | _, .t => s.dropTexture (s.sharesScope sc g)
              | _, .y => if scopeNat sc < 6 then s
                else s.dropRidge (fun d => decide (d = g.core / 64) || decide (6 < scopeNat sc))
              | _, .k => if scopeNat sc < 6 then s
                else s.dropComposer (fun d => decide (d = g.core / 64) || decide (6 < scopeNat sc))
              | _, _ => s).completePend gid id))
        | .lnchN _ _ _ =>
          .next (s.launchNow g p)
        | .enq _ _ _ =>
          .next (s.launchNow g p)
        | .lnchW _ _ _ =>
          if p.stage = .queued then .next (s.launchNow g p) else .next s
        | _ => .next s

/-- The word that a WAITA reads, at its coherence point (R191): its checks are made anew at each read (R164); none where an own
store to its sector is still on its way, or where it faults, in the state that is given. -/
def State.waitaWord (s : State) (g : Group) (p : Pend) : Option Word × State :=
  if s.accessWaits g p || s.dieHeld (g.core / 64) then (none, s)
  else
  let (p, s) := s.checkPend g { p with status := .inFlight }
  match p.status with
  | .inFlight =>
    (match p.instr with
      | .waita _ _ _ .team _ =>
        (match s.scratchTarget g .team (p.opc g 0).toNat 4 with
          | some (t, o) => (some (BitVec.ofNat 32 (leValue (s.scratchRead t o 4))), s)
          | none => (none, s))
      | _ =>
        let runs := (p.lanes.head?.map LaneAccess.runs).getD []
        if s.drained g p runs then
          let (b, s) := s.readL2 g.core runs
          (some (BitVec.ofNat 32 (leValue b)), s)
        else (none, s))
  | _ => (none, s.setGroup (g.setPend p))

/-- WAITA_REREAD (R191): the wait completes when the condition no longer holds, with its acquire. -/
def execWaitaReread (gid id : Nat) (s : State) : Result :=
  match s.group? gid with
  | none => .next s
  | some g =>
    match g.pend? id with
    | none => .next s
    | some p =>
      match p.instr with
      | .waita _ ne sc _ _ =>
        if (p.active || decide (p.status = .waitOnly)) && g.mayPerform p then
          match s.waitaWord g p with
          | (none, s) => .next s
          | (some m, s) =>
            let eq := decide (m = p.opc g 1)
            if eq != ne then .next s
            else .next ((s.acquire g.core sc).completePend gid id)
        else .next s
      | _ => .next s

/-- LAUNCH_WAIT_COMPLETE (R133): every launched grid has ended; the completion acquires at device scope (R136). -/
def execLaunchWaitComplete (gid id : Nat) (s : State) : Result :=
  match s.group? gid with
  | none => .next s
  | some g =>
    match g.pend? id with
    | none => .next s
    | some p =>
      match p.instr with
      | .lnchW _ _ _ =>
        let ended := p.aux.all (fun d => match s.grid? d with
          | none => true
          | some d => d.completed)
        if p.stage = .atCore && (p.active || decide (p.status = .waitOnly)) && ended then
          .next ((s.invalidate g.core).completePend gid id)
        else .next s
      | _ => .next s

end Sys2Proof.Machine
end

