-- ==== Sys2Proof/Machine/Control.lean ====
section
/-! DEFINITION. Control transfer, EXIT, TRAP, MODE, divergence and joins (R70 to R81, R118 to R122), and the control
registers (R16, R17, R192). -/
namespace Sys2Proof.Machine

/-- Target of a J-format or C-format word (R24). -/
def jumpTarget (pc : Word) (off : Int) : Word := pc + BitVec.ofInt 32 (4 * off)

/-- NOP (R71). -/
def execNop (s : State) : Result := issue .nop (fun c => .done c) s

/-- EXIT (R77, R122). -/
def execExit (s : State) : Result := issue .exit (fun c => .final c (c.g.exitFrom c.k c.p)) s

/-- BRA (R72). -/
def execBra (off : BitVec 24) (s : State) : Result :=
  issue (.bra off) (fun c => .goto c (jumpTarget c.p.pc off.toInt)) s

/-- BC (R73). -/
def execBc (neg : Bool) (p : Fin 8) (all : Bool) (off : BitVec 19) (s : State) : Result :=
  issue (.bc neg p all off) (fun c =>
    let (t, f) := c.split neg p
    let taken := if all then f = 0 else t ≠ 0
    .goto c (if taken then jumpTarget c.p.pc off.toInt else c.p.pc + 4)) s

/-- BDIV (R120): the taken set takes the other slot, or goes to the spill stack. -/
def execBdiv (neg : Bool) (p : Fin 8) (off : BitVec 19) (s : State) : Result :=
  issue (.bdiv neg p off) (fun c =>
    let (t, f) := c.split neg p
    let target := jumpTarget c.p.pc off.toInt
    if t = 0 then .goto c (c.p.pc + 4)
    else if f = 0 then .goto c target
    else if c.g.otherFree c.k then
      let taken : Path := { c.p with pc := target, mask := t, clause := none }
      let g : Group := { c.g with pend := c.g.pend.map (fun r =>
        if r.owner c.k then { r with owner0 := true, owner1 := true } else r) }
      .goto { c with g := g.setSlot (1 - c.k) (some taken), p := { c.p with mask := f } } (c.p.pc + 4)
    else if c.g.spillRoom c.half = 0 then .raise (mkTrap .spill)
    else
      let e : PathSet :=
        { pc := target, pjoin := c.p.pjoin, mask := t, mode := c.p.mode, owns := c.g.ownedBy c.k, drain := c.p.drain }
      .goto { c with g := c.g.push c.half (.pathSet e), p := { c.p with mask := f } } (c.p.pc + 4)) s

/-- SETJ (R119): a pending join is saved on the stack, above the other path, which is demoted. -/
def execSetj (off : BitVec 24) (s : State) : Result :=
  issue (.setj off) (fun c =>
    let t := jumpTarget c.p.pc off.toInt
    match c.p.pjoin with
    | none => .done { c with p := { c.p with pjoin := some t } }
    | some j =>
      match c.other with
      | none =>
        if c.g.spillRoom c.half < 1 then .raise (mkTrap .spill)
        else .done { c with g := ({ c.g with demote := none } : Group).push c.half (.savedJoin j),
                            p := { c.p with pjoin := some t } }
      | some q =>
        if c.g.spillRoom c.half < 2 then .raise (mkTrap .spill)
        else if !q.demotable then .wait { c.g with demote := some c.k }
        else
          let g := (c.g.push c.half (.pathSet { q.asSet with owns := c.g.ownedBy (1 - c.k) })).setSlot (1 - c.k) none
          let g : Group := { (g.push c.half (.savedJoin j)).disown (1 - c.k) with demote := none }
          .done { c with g := g, p := { c.p with pjoin := some t } }) s

/-- JOIN (R121): the path parks, and the cases of Table 7.1 are tested. -/
def execJoin (s : State) : Result :=
  issue .join (fun c =>
    match c.p.pjoin with
    | none => .raise trIllegal
    | some _ =>
      let since := match c.other with
        | some q => (match q.atJoin with
            | some n => n + 1
            | none => 0)
        | none => 0
      .final c (c.g.setSlot c.k (some { c.p with park := .join since, clause := none }))) s

/-- The link register written (R74). -/
def Issue.link (c : Issue) : Issue := c.setBank (c.bank.writeS 63 (c.p.pc + 4))

/-- CALL (R74). -/
def execCall (off : BitVec 24) (s : State) : Result :=
  issue (.call off) (fun c => .goto c.link (jumpTarget c.p.pc off.toInt)) s

/-- RET (R74, R76). -/
def execRet (s : State) : Result :=
  issue .ret (fun c =>
    let t := c.bank.sreg 63
    if t.toNat % 4 ≠ 0 then .raise (mkTrap .misalign) else .goto c t) s

/-- A target read from a source (R75): the lowest lane of the full active mask. -/
def Issue.target (c : Issue) (i : Instr) (a : Src) (k : Issue → Word → Eff) : Eff :=
  let t := c.control a c.p.mask
  if t.toNat % 4 ≠ 0 then .raise (mkTrap .misalign)
  else
    let rs := i.reads c.p.mode
    k ((c.noteReads rs).releaseReads rs []) t

/-- BRX (R75, R76). -/
def execBrx (a : Src) (s : State) : Result :=
  issue (.brx a) (fun c => c.target (.brx a) a (fun c t => .goto c t)) s

/-- CALLX (R75, R76): the target is read before s63 is written. -/
def execCallx (a : Src) (s : State) : Result :=
  issue (.callx a) (fun c => c.target (.callx a) a (fun c t => .goto c.link t)) s

/-- TRAP (R79). -/
def execTrap (n : Byte) (s : State) : Result := issue (.trap n) (fun _ => .raiseAfter (mkTrap (.trap n))) s

/-- MODE (R30, R80). -/
def execMode (imm : Half) (s : State) : Result :=
  issue (.mode imm) (fun c => .done { c with p := { c.p with mode := imm } }) s

/-- The clause header (R18 to R21): WAIT is tested once; the clause starts when every named flag is zero. A header in an
instruction position raises CLAUSE. A path of a faulting half stops here (R304). -/
def execClauseStart (wait : BitVec 12) (seta setb : Option (Fin 12)) (len : Fin 16) (s : State) : Result :=
  match s.issue? with
  | none => .next s
  | some c =>
    match c.p.clause with
    | some _ => .next (c.raise trClause)
    | none =>
      if c.g.faulting c.half then .next { c with p := { c.p with stopped := true } }.state
      else if c.g.demote = some (1 - c.k) ∨ ¬ c.g.owed.isEmpty ∨ s.draining c.p ∨ s.sectionStopped c.g.core then .next s
      else if (upto 12).all (fun f => !wait.getLsbD f || c.p.flag f = 0) then
        let p := { c.p with pc := c.p.pc + 4, clause := some { seta := seta, setb := setb, left := len.val + 1 } }
        let s : State := { c with p := p }.state
        .next { s with groups := s.groups.map (fun h =>
          { h with owed := h.owed.map (fun e => if e.1 = c.g.id then
              (if c.k = 0 then (e.1, true, e.2.2) else (e.1, e.2.1, true)) else e) }) }
      else .next s

/-! ### Control registers -/

/-- The value of a CSR that CSRR may name (Table 2.4). -/
def Issue.csr (c : Issue) (n : Nat) : DWord :=
  let x := c.s.contextOf c.g
  match n with
  | 0 => c.statusWord.zeroExtend 64
  | 1 => c.bank.fpstatWord.zeroExtend 64
  | 2 => c.bank.trapvec.zeroExtend 64
  | 3 => c.bank.trapframe.zeroExtend 64
  | 4 => c.s.clock
  | 5 => BitVec.ofNat 64 ((x.map (fun x => x.ctxid)).getD 0)
  | 6 => ((x.map Context.energy).getD 0).zeroExtend 64
  | 7 => ((x.map Context.feature).getD 0).zeroExtend 64
  | _ => ((x.map Context.miggen).getD 0).zeroExtend 64

/-- CSRR (R192): over the full active mask (R34). -/
def execCsrr (u : Bool) (d : Dst) (n : BitVec 12) (s : State) : Result :=
  issue (.csrr u d n) (fun c =>
    let c : Issue := if n = 4 then { c with s := c.s.tick } else c
    let v := c.csr n.toNat
    let c1 := c.write d c.p.mask (fun _ => v.extractLsb' 0 32)
    .done (if n = 4 then c1.write (d.next 1) c.p.mask (fun _ => v.extractLsb' 32 32) else c1)) s

/-- A CSR written (Tables 2.4, 2.5, 3.4, 21.2). -/
def Issue.setCsr (c : Issue) (n : Nat) (w : Word) : Issue :=
  let b := c.bank
  match n with
  | 0 => c.setBank { b with unmapped := w.getLsbD 0 }
  | 1 => c.setBank { b with fpstat := w.extractLsb' 0 6 }
  | 2 => c.setBank { b with trapvec := w &&& 0xFFFFFFFC }
  | _ => c.setBank { b with trapframe := w.extractLsb' 0 24 }

/-- CSRW (R192). -/
def execCsrw (u : Bool) (d : Src) (n : BitVec 12) (s : State) : Result :=
  issue (.csrw u d n) (fun c =>
    let w := c.control d c.p.mask
    let rs := (Instr.csrw u d n).reads c.p.mode
    .done (((c.noteReads rs).releaseReads rs []).setCsr n.toNat w)) s

/-- The T-path reads of a core that have not completed, by number: those in flight, and those whose fault stands in a live frame,
which TRET puts in flight again. What the live frame of the writing half itself holds is left out: the write stands in its
handler, which it would hold for ever. (DESIGN CHOICE, log 82.) -/
def Issue.textureReads (c : Issue) : List Nat :=
  (c.s.groups.filter (fun g => g.core = c.g.core)).flatMap (fun g =>
    ((g.pend ++ [0, 1].flatMap (fun half =>
      if g.id = c.g.id ∧ half = c.half then [] else ((g.bank half).live.map LiveFrame.entries).getD [])).filter (fun p =>
        isTexture p.instr)).map (fun p => p.id))

/-- RESDRAIN (R192, R195): the path's next issue waits for every T-path read that the core issued earlier. -/
def execResdrain (u : Bool) (d : Src) (s : State) : Result :=
  issue (.resdrain u d) (fun c =>
    let rs := (Instr.resdrain u d).reads c.p.mode
    let ids := c.textureReads
    let c := (c.noteReads rs).releaseReads rs []
    .done { c with p := { c.p with drain := ids } }) s

end Sys2Proof.Machine
end

