-- ==== Sys2Proof/Machine/Fetch.lean ====
section
/-! DEFINITION. Fetch of an instruction word (R21, R158), which path of an issue slot is eligible (R18, R111), and YIELD
(R78, R113). -/
namespace Sys2Proof.Machine

/-! ### Fetch -/

/-- What a fetch gives. -/
inductive Fetched where
  | word (w : Word) (s : State)
  | fault (t : Trap) (s : State)

/-- The word at a byte offset of a group's code capability (R158: n is 4 and X is required). Its page walk sets AC of the leaves
that pass, though the read then meets a POISON (R161). -/
def State.fetch (s : State) (g : Group) (pc : Word) : Fetched :=
  match s.grid? g.grid with
  | none => .fault (mkTrap .bounds) s
  | some d =>
    match s.context? d.ctx with
    | none => .fault (mkTrap .bounds) s
    | some c =>
      match s.access g.core c (capRegister d.codeCap) .fetch true 4 4 pc.toNat with
      | (.ok runs _, s) => .word (BitVec.ofNat 32 (leValue (s.readRuns runs))) s
      | (.bad _ cause sub faddr _, s) => .fault { cause := cause, sub := sub, faddr := BitVec.ofNat 64 faddr } s

/-- The fetch of a word waits for a link that retrains or a channel that is being copied (R323, R336). -/
def State.fetchHeld (s : State) (g : Group) (pc : Word) : Bool :=
  match s.grid? g.grid with
  | none => false
  | some d =>
    match s.context? d.ctx with
    | none => false
    | some c => s.rangeHeld g.core c (capRegister d.codeCap) pc.toNat 4

/-- The header marker (R18): U = 1 and opcode 0x7F. -/
def isHeaderWord (w : Word) : Bool := decide (w.extractLsb' 24 8 = 0xFF)

/-- The instruction of a word. -/
def decoded (w : Word) : Option Instr :=
  match decodeWord w with
  | .ok i => some i
  | .error _ => none

/-- What a fetched word asks of a path: an instruction, or the fault of R41 that it meets. -/
def placed (clause : Option ClauseState) (w : Word) : Except Trap Instr :=
  match clause, isHeaderWord w with
  | none, false => .error trClause
  | some _, true => .error trClause
  | _, _ =>
    match decoded w with
    | some i => .ok i
    | none => .error trIllegal

/-! ### Eligible paths -/

/-- A header's clause can start: its WAIT test passes and nothing else holds the path. -/
def Issue.startsClause (c : Issue) (wait : BitVec 12) : Bool :=
  c.g.faulting c.half ||
    (!(c.g.demote = some (1 - c.k)) && c.g.owed.isEmpty && !c.s.draining c.p && !c.s.sectionStopped c.g.core &&
      (upto 12).all (fun f => !wait.getLsbD f || c.p.flag f = 0))

/-- The path of a slot is at a step of its group's glue, or at the JOIN after a called stage (R351): not inside a stage, not in
a handler. -/
def Issue.glueDue (c : Issue) : Bool :=
  match c.g.glue with
  | none => false
  | some gl =>
    c.p.clause.isNone && c.bank.live.isNone &&
      (decide (gl.join = some c.p.pc) || (decide (c.p.pc = gl.here) && c.other.isNone))

/-- The group's earlier accesses of memory are performed: the glue's loads and stores of the targets come after those of the stages that
it has called (R216, R221). -/
def Issue.stagesDone (c : Issue) : Bool :=
  c.g.pend.all (fun q => !isV q.instr) && !(c.s.coreAt c.g.core).buffer.any (fun w => w.group = c.g.id)

/-- A step of the glue may be made: a `bar.sync` waits for what it releases (R129), loads and stores for a channel, a link or a
budget (R323, R327, R336). -/
def Issue.glueReady (c : Issue) : Bool :=
  c.g.owed.isEmpty && !c.s.unitWaits c.g && !c.s.draining c.p && !c.s.sectionStopped c.g.core && (match c.g.glue.map Glue.phase with
    | some .firstBar => c.released true
    | some .secondBar => c.released true
    | some .load => c.stagesDone
    | some .finish => c.stagesDone
    | some _ => true
    | none => true)

/-- A path can issue its next word now, or meets a fault there; that its group is active apart. -/
def Issue.ready (c : Issue) : Bool :=
  if c.glueDue then c.g.faulting c.half || c.glueReady
  else match c.s.fetch c.g c.p.pc with
  | .fault _ _ => true
  | .word w _ =>
    match placed c.p.clause w with
    | .error _ => true
    | .ok i =>
      match i, c.p.clause with
      | .clauseStart wait _ _ _, _ => c.startsClause wait
      | _, none => true
      | i, some cl => !i.wf || misplaced i cl || c.mustStop i || !c.holds i cl

/-- The path of a slot as an issue, where it may issue: its word can be fetched, and its group waits for no sheaf (R151). -/
def State.issueAt (s : State) (g : Group) (k : Nat) : Option Issue :=
  match g.slot k with
  | none => none
  | some p => if p.canIssue && !g.inService && !g.missing && !s.fetchHeld g p.pc then some { s := s, g := g, k := k, p := p } else none

/-- A path of a group is eligible, its group's place apart (R111). -/
def State.eligible (s : State) (g : Group) (k : Nat) : Bool :=
  match s.issueAt g k with
  | none => false
  | some c => c.ready

/-- A group has an eligible path. -/
def State.hasEligible (s : State) (g : Group) : Bool := s.eligible g 0 || s.eligible g 1

/-- YIELD (R78, R113): every other group of the issue slot that has an eligible path is owed one whole clause. -/
def execYield (s : State) : Result :=
  issue .yield_ (fun c =>
    let others := c.s.groups.filter (fun h => h.core = c.g.core && h.index % 4 = c.g.index % 4 && h.id ≠ c.g.id &&
      h.resident && c.s.hasEligible h)
    .goto { c with g := { c.g with owed := others.map (fun h => (h.id, false, false)) } } (c.p.pc + 4)) s

end Sys2Proof.Machine
end

