-- ==== Sys2Proof/Machine/FloatOps.lean ====
section
/-! DEFINITION. Float and conversion instructions (R82 to R96). -/
namespace Sys2Proof.Machine

/-- Elements of a word in a float format. -/
def felem (f : FFmt) (x : Word) (e : Nat) : FVal := f.value (elemNat x f.width e)

/-- Per-element float instruction: `op f rnd sat` on the encodings of a, b and d. -/
def floatOp (i : Instr) (u : Bool) (d : Dst) (a b : Src)
    (op : FFmt → Nat → Bool → Nat → Nat → Nat → Nat × FFlags) (s : State) : Result :=
  issue i (fun c => c.withFloat (fun f dl => c.fixed i u d (fun l =>
    let x := c.src dl a l
    let y := c.src dl b l
    let z := c.src dl d.asSrc l
    perElem f.width (fun e => op f (modeRnd c.p.mode) (modeSat c.p.mode)
      (elemNat x f.width e) (elemNat y f.width e) (elemNat z f.width e))))) s

/-- FADD (R83). -/
def execFadd (u : Bool) (d : Dst) (a b : Src) (s : State) : Result :=
  floatOp (.fadd u d a b) u d a b (fun f r sat x y _ => addVal f r sat (f.value x) (f.value y)) s

/-- FSUB: x + (−y). -/
def execFsub (u : Bool) (d : Dst) (a b : Src) (s : State) : Result :=
  floatOp (.fsub u d a b) u d a b (fun f r sat x y _ => addVal f r sat (f.value x) (f.value y).neg) s

/-- FMUL. -/
def execFmul (u : Bool) (d : Dst) (a b : Src) (s : State) : Result :=
  floatOp (.fmul u d a b) u d a b (fun f r sat x y _ => mulVal f r sat (f.value x) (f.value y)) s

/-- FFMA. -/
def execFfma (u : Bool) (d : Dst) (a b : Src) (s : State) : Result :=
  floatOp (.ffma u d a b) u d a b (fun f r sat x y z => fmaVal f r sat (f.value x) (f.value y) (f.value z)) s

/-- FMIN (R84). -/
def execFmin (u : Bool) (d : Dst) (a b : Src) (s : State) : Result :=
  floatOp (.fmin u d a b) u d a b (fun f _ _ x y _ => minEnc f x y) s

/-- FMAX. -/
def execFmax (u : Bool) (d : Dst) (a b : Src) (s : State) : Result :=
  floatOp (.fmax u d a b) u d a b (fun f _ _ x y _ => maxEnc f x y) s

/-- FABS (R85). -/
def execFabs (u : Bool) (d : Dst) (a : Src) (s : State) : Result :=
  floatOp (.fabs u d a) u d a a (fun f _ _ x _ _ => (x % f.signBit, 0)) s

/-- FNEG. -/
def execFneg (u : Bool) (d : Dst) (a : Src) (s : State) : Result :=
  floatOp (.fneg u d a) u d a a (fun f _ _ x _ _ => ((x + f.signBit) % 2 ^ f.width, 0)) s

/-- FCMP (R86). -/
def execFcmp (u : Bool) (cd : Cond) (p : Fin 8) (a b : Src) (s : State) : Result :=
  issue (.fcmp u cd p a b) (fun c => c.withFloat (fun f dl => c.fixedP (.fcmp u cd p a b) u p (fun l =>
    let l' := (upto (32 / f.width)).map (fun e => (felem f (c.src dl a l) e, felem f (c.src dl b l) e))
    (l'.all (fun v => fcond cd v.1 v.2), if l'.any (fun v => v.1.sig || v.2.sig) then flNV else 0)))) s

/-- FRCP (R87). -/
def execFrcp (u : Bool) (d : Dst) (a : Src) (s : State) : Result :=
  floatOp (.frcp u d a) u d a a (fun f r sat x _ _ => rcpVal f r sat (f.value x)) s

/-- FRSQ. -/
def execFrsq (u : Bool) (d : Dst) (a : Src) (s : State) : Result :=
  floatOp (.frsq u d a) u d a a (fun f r sat x _ _ => rsqVal f r sat (f.value x)) s

/-- FSQRT. -/
def execFsqrt (u : Bool) (d : Dst) (a : Src) (s : State) : Result :=
  floatOp (.fsqrt u d a) u d a a (fun f r sat x _ _ => sqrtVal f r sat (f.value x)) s

/-- FEXP2. -/
def execFexp2 (u : Bool) (d : Dst) (a : Src) (s : State) : Result :=
  floatOp (.fexp2 u d a) u d a a (fun f r sat x _ _ => exp2Val f r sat x) s

/-- FLOG2. -/
def execFlog2 (u : Bool) (d : Dst) (a : Src) (s : State) : Result :=
  floatOp (.flog2 u d a) u d a a (fun f r sat x _ _ => log2Val f r sat x) s

/-- FSIN. -/
def execFsin (u : Bool) (d : Dst) (a : Src) (s : State) : Result :=
  floatOp (.fsin u d a) u d a a (fun f r sat x _ _ => sinVal f r sat x) s

/-- FCOS. -/
def execFcos (u : Bool) (d : Dst) (a : Src) (s : State) : Result :=
  floatOp (.fcos u d a) u d a a (fun f r sat x _ _ => cosVal f r sat x) s

/-- FRND (R89). -/
def execFrnd (u : Bool) (d : Dst) (a : Src) (s : State) : Result :=
  floatOp (.frnd u d a) u d a a (fun f r _ x _ _ => rndVal f r (f.value x)) s

/-- FFRAC. -/
def execFfrac (u : Bool) (d : Dst) (a : Src) (s : State) : Result :=
  floatOp (.ffrac u d a) u d a a (fun f r sat x _ _ => fracVal f r sat (f.value x)) s

/-- A conversion's element kind: a float format, or an integer element. -/
inductive ElemKind where
  | flt (f : FFmt)
  | int (signed : Bool) (w : Nat)
  deriving DecidableEq, Repr

/-- Table 2.12. -/
def elemKind : ElemType → ElemKind
  | .f32 => .flt .fp32
  | .f16x2 => .flt .fp16
  | .bf16x2 => .flt .bf16
  | .i32 => .int true 32
  | .n32 => .int false 32
  | .i16x2 => .int true 16
  | .n16x2 => .int false 16
  | .i8x4 => .int true 8
  | .n8x4 => .int false 8
  | .e4m3x4 => .flt .e4m3
  | .e5m2x4 => .flt .e5m2
  | .e2m1x8 => .flt .e2m1

/-- Bits of an element. -/
def ElemKind.bits : ElemKind → Nat
  | .flt f => f.width
  | .int _ w => w

/-- conv of R93: one element from source kind to destination kind (R54, R55). -/
def convElem (src dst : ElemKind) (rnd : Nat) (sat : Bool) (x : Nat) : Nat × FFlags :=
  match src, dst with
  | .flt f, .flt g => toFloat g rnd sat (f.value x)
  | .flt f, .int sg w => toInteger sg w rnd (f.value x)
  | .int sg w, .flt g => toFloat g rnd sat (intVal (if sg then toSigned w x else (x : Int)))
  | .int sg w, .int sg' w' => narrow sg' w' sat (if sg then toSigned w x else (x : Int))

/-- CVT's word (R93). -/
def cvtWord (src dst : ElemType) (pos rnd : Nat) (sat : Bool) (x old : Word) : Word × FFlags :=
  let es := src.elems
  let ed := dst.elems
  let ks := elemKind src
  let kd := elemKind dst
  let one := fun (e : Nat) => convElem ks kd rnd sat (elemNat x ks.bits e)
  if es < ed then
    perElem kd.bits (fun i =>
      if pos * es ≤ i ∧ i < pos * es + es then one (i - pos * es) else (elemNat old kd.bits i, 0))
  else perElem kd.bits (fun i => if i < ed then one (pos * ed + i) else (0, 0))

/-- CVT (R93). -/
def execCvt (u : Bool) (d : Dst) (a : Src) (pos : Fin 8) (dst : ElemType) (s : State) : Result :=
  issue (.cvt u d a pos dst) (fun c =>
    let src := modeType c.p.mode
    if pos.val < max src.elems dst.elems / min src.elems dst.elems then
      c.fixed (.cvt u d a pos dst) u d (fun l =>
        cvtWord src dst pos.val (modeRnd c.p.mode) (modeSat c.p.mode) (c.src (.typed src) a l) (c.src (.typed src) d.asSrc l))
    else .raise trIlltype) s

/-- Wide type of a packed type (Table 5.7). -/
def wideType : ElemType → Option ElemType
  | .f16x2 => some .f32
  | .bf16x2 => some .f32
  | .i16x2 => some .i32
  | .n16x2 => some .n32
  | .i8x4 => some .i16x2
  | .n8x4 => some .n16x2
  | .e4m3x4 => some .f16x2
  | .e5m2x4 => some .f16x2
  | .e2m1x8 => some .e4m3x4
  | .f32 => none
  | .i32 => none
  | .n32 => none

/-- PACK (R94): the elements of a fill the low half, those of b the high half. A constant is
delivered in the mode's TYPE (R28). -/
def execPack (u : Bool) (d : Dst) (a b : Src) (s : State) : Result :=
  issue (.pack u d a b) (fun c =>
    let t := modeType c.p.mode
    match wideType t with
    | none => .raise trIlltype
    | some wt =>
      let kw := elemKind wt
      let kt := elemKind t
      c.fixed (.pack u d a b) u d (fun l =>
        perElem kt.bits (fun e =>
          let x := if e < wt.elems then c.src (.typed t) a l else c.src (.typed t) b l
          convElem kw kt (modeRnd c.p.mode) (modeSat c.p.mode) (elemNat x kw.bits (e % wt.elems))))) s

/-- UNPK's word (R95, Table 5.7). -/
def unpkWord (t wt : ElemType) (h : Nat) (x : Word) : Word × FFlags :=
  let kw := elemKind wt
  let kt := elemKind t
  if t = .bf16x2 then (BitVec.ofNat 32 (elemNat x 16 h * 65536), 0)
  else perElem kw.bits (fun e => convElem kt kw 0 false (elemNat x kt.bits (wt.elems * h + e)))

/-- UNPK (R95). -/
def execUnpk (u : Bool) (d : Dst) (a : Src) (i4 hi : Bool) (s : State) : Result :=
  issue (.unpk u d a i4 hi) (fun c =>
    let t := modeType c.p.mode
    let h := if hi then 1 else 0
    if i4 then
      if t = .i8x4 ∨ t = .n8x4 then
        c.fixed (.unpk u d a i4 hi) u d (fun l =>
          let x := c.src (.typed t) a l
          ((perElem 8 (fun e =>
            let nib := elemNat x 4 (4 * h + e)
            (if t = .i8x4 then ofInt 8 (toSigned 4 nib) else nib, 0))).1, 0))
      else .raise trIlltype
    else
      match wideType t with
      | none => .raise trIlltype
      | some wt => c.fixed (.unpk u d a i4 hi) u d (fun l => unpkWord t wt h (c.src (.typed t) a l))) s

/-- The invalid cases of FDOT2's products (R92). -/
def dotInvalid (x y : List FVal) : Bool :=
  let ps := x.zip y
  let bad := ps.any (fun e => match e.1, e.2 with
    | .inf _, .fin _ 0 _ => true
    | .fin _ 0 _, .inf _ => true
    | _, _ => false)
  let infSign := ps.filterMap (fun e => match e.1, e.2 with
    | .inf a, .inf b => some (a != b)
    | .inf a, .fin b m _ => if m = 0 then none else some (a != b)
    | .fin a m _, .inf b => if m = 0 then none else some (a != b)
    | _, _ => none)
  x.any FVal.sig || y.any FVal.sig || bad || (infSign.contains true && infSign.contains false)

/-- FDOT2's word (R58, R92). -/
def fdot2Word (f : FFmt) (rnd : Nat) (sat : Bool) (x y z : Word) : Word × FFlags :=
  let xs := [felem f x 0, felem f x 1]
  let ys := [felem f y 0, felem f y 1]
  let (g, fl) := groupTotal 16 16 xs ys
  let r := addVal .fp32 rnd sat (f32 z) (FFmt.fp32.value g)
  -- an infinite g from overflow is an infinite result of finite operands (R46)
  let (v, fl2) :=
    if sat && g % 0x80000000 = 0x7F800000 && r.1 % 0x80000000 = 0x7F800000 &&
        (match f32 z with
          | .fin _ _ _ => true
          | .inf _ => false
          | .nan _ => false)
    then (FFmt.fp32.signed (decide (0x80000000 ≤ r.1)) FFmt.fp32.maxEnc, r.2 ||| flSATD)
    else r
  (BitVec.ofNat 32 v, fl ||| fl2 ||| (if dotInvalid xs ys then flNV else 0))

/-- FDOT2 (R92): legal under f16x2 and bf16x2. -/
def execFdot2 (u : Bool) (d : Dst) (a b : Src) (s : State) : Result :=
  issue (.fdot2 u d a b) (fun c => c.withFloat (fun f dl =>
    if f = .fp32 then .raise trIlltype
    else c.fixed (.fdot2 u d a b) u d (fun l =>
      fdot2Word f (modeRnd c.p.mode) (modeSat c.p.mode) (c.src dl a l) (c.src dl b l) (c.src dl d.asSrc l)))) s

/-- FCLASS (R90). -/
def execFclass (u : Bool) (d : Dst) (a : Src) (s : State) : Result :=
  floatOp (.fclass u d a) u d a a (fun f _ _ x _ _ => (classOf f x, 0)) s

/-- FMULB (R91): the immediate is a BF16 encoding. -/
def execFmulb (u : Bool) (d : Dst) (imm : Half) (s : State) : Result :=
  floatOp (.fmulb u d imm) u d d.asSrc d.asSrc (fun f r sat _ _ z =>
    mulVal f r sat (f.value z) (FFmt.bf16.value imm.toNat)) s

end Sys2Proof.Machine
end

