-- ==== Sys2Proof/Machine/Integer.lean ====
section
/-! DEFINITION. Integer, logic, shift, bit, compare, select, move and immediate instructions (R60 to R69). -/
namespace Sys2Proof.Machine

/-- Per-element integer instruction: the result of each element from val(a), val(b), val(d) (R61). -/
def intArith (i : Instr) (u : Bool) (d : Dst) (a b : Src)
    (op : Bool → Nat → Bool → Int → Int → Int → Nat × FFlags) (s : State) : Result :=
  issue i (fun c => c.withInt (fun sg w dl => c.fixed i u d (fun l =>
    let x := c.src dl a l
    let y := c.src dl b l
    let z := c.src dl d.asSrc l
    perElem w (fun e => op sg w (modeSat c.p.mode) (elemVal sg w x e) (elemVal sg w y e) (elemVal sg w z e))))) s

/-- IADD (Table 4.1). -/
def execIadd (u : Bool) (d : Dst) (a b : Src) (s : State) : Result :=
  intArith (.iadd u d a b) u d a b (fun sg w sat x y _ => narrow sg w sat (x + y)) s

/-- ISUB. -/
def execIsub (u : Bool) (d : Dst) (a b : Src) (s : State) : Result :=
  intArith (.isub u d a b) u d a b (fun sg w sat x y _ => narrow sg w sat (x - y)) s

/-- IMUL. -/
def execImul (u : Bool) (d : Dst) (a b : Src) (s : State) : Result :=
  intArith (.imul u d a b) u d a b (fun sg w sat x y _ => narrow sg w sat (x * y)) s

/-- IMULH. -/
def execImulh (u : Bool) (d : Dst) (a b : Src) (s : State) : Result :=
  intArith (.imulh u d a b) u d a b (fun sg w _ x y _ => narrow sg w false (x * y / ((2 ^ w : Nat) : Int))) s

/-- IMAD. -/
def execImad (u : Bool) (d : Dst) (a b : Src) (s : State) : Result :=
  intArith (.imad u d a b) u d a b (fun sg w sat x y z => narrow sg w sat (z + x * y)) s

/-- IMIN. -/
def execImin (u : Bool) (d : Dst) (a b : Src) (s : State) : Result :=
  intArith (.imin u d a b) u d a b (fun sg w _ x y _ => narrow sg w false (min x y)) s

/-- IMAX. -/
def execImax (u : Bool) (d : Dst) (a b : Src) (s : State) : Result :=
  intArith (.imax u d a b) u d a b (fun sg w _ x y _ => narrow sg w false (max x y)) s

/-- IABS. -/
def execIabs (u : Bool) (d : Dst) (a : Src) (s : State) : Result :=
  intArith (.iabs u d a) u d a a (fun sg w sat x _ _ => narrow sg w sat (if x < 0 then -x else x)) s

/-- Whole-word integer instruction without flags; `sg` is the signedness of the type. -/
def intWord (i : Instr) (u : Bool) (d : Dst) (f : Issue → Bool → Nat → Delivery → Nat → Word) (s : State) : Result :=
  issue i (fun c => c.withInt (fun sg w dl => c.fixed i u d (fun l => (f c sg w dl l, 0)))) s

/-- AND (Table 4.10). -/
def execAnd (u : Bool) (d : Dst) (a b : Src) (s : State) : Result :=
  intWord (.and u d a b) u d (fun c _ _ dl l => c.src dl a l &&& c.src dl b l) s

/-- OR. -/
def execOr (u : Bool) (d : Dst) (a b : Src) (s : State) : Result :=
  intWord (.or u d a b) u d (fun c _ _ dl l => c.src dl a l ||| c.src dl b l) s

/-- XOR. -/
def execXor (u : Bool) (d : Dst) (a b : Src) (s : State) : Result :=
  intWord (.xor u d a b) u d (fun c _ _ dl l => c.src dl a l ^^^ c.src dl b l) s

/-- ANDN. -/
def execAndn (u : Bool) (d : Dst) (a b : Src) (s : State) : Result :=
  intWord (.andn u d a b) u d (fun c _ _ dl l => c.src dl a l &&& ~~~(c.src dl b l)) s

/-- Element shift: `f w x n` of the element taken unsigned and its count (R63). -/
def shiftOp (i : Instr) (u : Bool) (d : Dst) (a b : Src) (f : Nat → Nat → Nat → Nat) (s : State) : Result :=
  intWord i u d (fun c _ w dl l =>
    (perElem w (fun e => (f w (elemNat (c.src dl a l) w e) (elemNat (c.src dl b l) w e), 0))).1) s

/-- x rotated left by c mod w. -/
def rotl (w x n : Nat) : Nat := (x * 2 ^ (n % w) + x / 2 ^ (w - n % w)) % 2 ^ w

/-- SHL (Table 4.11). -/
def execShl (u : Bool) (d : Dst) (a b : Src) (s : State) : Result :=
  shiftOp (.shl u d a b) u d a b (fun w x n => if w ≤ n then 0 else x * 2 ^ n % 2 ^ w) s

/-- SHR. -/
def execShr (u : Bool) (d : Dst) (a b : Src) (s : State) : Result :=
  shiftOp (.shr u d a b) u d a b (fun w x n => if w ≤ n then 0 else x / 2 ^ n) s

/-- SAR. -/
def execSar (u : Bool) (d : Dst) (a b : Src) (s : State) : Result :=
  shiftOp (.sar u d a b) u d a b (fun w x n => ofInt w (toSigned w x / ((2 ^ min n w : Nat) : Int))) s

/-- ROL. -/
def execRol (u : Bool) (d : Dst) (a b : Src) (s : State) : Result :=
  shiftOp (.rol u d a b) u d a b rotl s

/-- BFE's field (R64). -/
def bfeWord (sg : Bool) (x y : Word) : Word :=
  let pos := y.toNat % 32
  let len := bits y.toNat 12 8
  if len = 0 then 0
  else
    let wide : Int := if sg then x.toInt else (x.toNat : Int)
    let f := ofInt len (wide / ((2 ^ pos : Nat) : Int))
    BitVec.ofInt 32 (if sg then toSigned len f else (f : Int))

/-- BFI's word (R64). -/
def bfiWord (x y z : Word) : Word :=
  let pos := y.toNat % 32
  let len := bits y.toNat 12 8
  let m : Word := BitVec.ofNat 32 ((2 ^ len - 1) * 2 ^ pos)
  (z &&& ~~~m) ||| (BitVec.ofNat 32 (x.toNat * 2 ^ pos) &&& m)

/-- BFE: b is a position and a length, a control value (R28). -/
def execBfe (u : Bool) (d : Dst) (a b : Src) (s : State) : Result :=
  intWord (.bfe u d a b) u d (fun c sg _ dl l => bfeWord sg (c.src dl a l) (c.src .control b l)) s

/-- BFI. -/
def execBfi (u : Bool) (d : Dst) (a b : Src) (s : State) : Result :=
  intWord (.bfi u d a b) u d (fun c _ _ dl l => bfiWord (c.src dl a l) (c.src .control b l) (c.src dl d.asSrc l)) s

/-- One-source element instruction (R65). -/
def bitOp (i : Instr) (u : Bool) (d : Dst) (a : Src) (f : Nat → Nat → Nat) (s : State) : Result :=
  intWord i u d (fun c _ w dl l => (perElem w (fun e => (f w (elemNat (c.src dl a l) w e), 0))).1) s

/-- Leading zeros of a w-bit value. -/
def leadingZeros (w x : Nat) : Nat := if x = 0 then w else w - 1 - Nat.log2 x

/-- The w bits of a value in the other order. -/
def reverseBits (w x : Nat) : Nat :=
  (upto w).foldl (fun acc i => if x.testBit i then acc + 2 ^ (w - 1 - i) else acc) 0

/-- POPC. -/
def execPopc (u : Bool) (d : Dst) (a : Src) (s : State) : Result := bitOp (.popc u d a) u d a popcount s

/-- CLZ. -/
def execClz (u : Bool) (d : Dst) (a : Src) (s : State) : Result := bitOp (.clz u d a) u d a leadingZeros s

/-- BREV. -/
def execBrev (u : Bool) (d : Dst) (a : Src) (s : State) : Result := bitOp (.brev u d a) u d a reverseBits s

/-- SEL (R35, R67): type-free but for constants. -/
def execSel (u : Bool) (d : Dst) (a b : Src) (s : State) : Result :=
  issue (.sel u d a b) (fun c => c.fixed (.sel u d a b) u d (fun l =>
    let dl := Delivery.typed (modeType c.p.mode)
    (if c.g.pbit (modeSel c.p.mode) l then c.src dl a l else c.src dl b l, 0))) s

/-- ICMP (R66). -/
def execIcmp (u : Bool) (cd : Cond) (p : Fin 8) (a b : Src) (s : State) : Result :=
  issue (.icmp u cd p a b) (fun c => c.withInt (fun sg w dl => c.fixedP (.icmp u cd p a b) u p (fun l =>
    ((upto (32 / w)).all (fun e =>
      icond cd (elemVal sg w (c.src dl a l) e) (elemVal sg w (c.src dl b l) e)), 0)))) s

/-- MOV (R67). -/
def execMov (u : Bool) (d : Dst) (a : Src) (s : State) : Result :=
  issue (.mov u d a) (fun c => c.fixed (.mov u d a) u d (fun l =>
    (c.src (.typed (modeType c.p.mode)) a l, 0))) s

/-- IADDI (Table 4.3). -/
def execIaddi (u : Bool) (d : Dst) (imm : Half) (s : State) : Result :=
  intArith (.iaddi u d imm) u d d.asSrc d.asSrc (fun sg w sat _ _ z => narrow sg w sat (z + imm.toInt)) s

/-- MOVI. -/
def execMovi (u : Bool) (d : Dst) (imm : Half) (s : State) : Result :=
  intWord (.movi u d imm) u d (fun _ _ _ _ _ => imm.signExtend 32) s

/-- MOVHI. -/
def execMovhi (u : Bool) (d : Dst) (imm : Half) (s : State) : Result :=
  intWord (.movhi u d imm) u d (fun c _ _ dl l => imm ++ (c.src dl d.asSrc l).extractLsb' 0 16) s

/-- ANDI. -/
def execAndi (u : Bool) (d : Dst) (imm : Half) (s : State) : Result :=
  intWord (.andi u d imm) u d (fun c _ _ dl l => c.src dl d.asSrc l &&& imm.zeroExtend 32) s

/-- ORI. -/
def execOri (u : Bool) (d : Dst) (imm : Half) (s : State) : Result :=
  intWord (.ori u d imm) u d (fun c _ _ dl l => c.src dl d.asSrc l ||| imm.zeroExtend 32) s

/-- XORI. -/
def execXori (u : Bool) (d : Dst) (imm : Half) (s : State) : Result :=
  intWord (.xori u d imm) u d (fun c _ _ dl l => c.src dl d.asSrc l ^^^ imm.zeroExtend 32) s

/-- IMULI. -/
def execImuli (u : Bool) (d : Dst) (imm : Half) (s : State) : Result :=
  intArith (.imuli u d imm) u d d.asSrc d.asSrc (fun sg w sat _ _ z => narrow sg w sat (z * imm.toInt)) s

end Sys2Proof.Machine
end

