-- ==== Sys2Proof/Machine/Lane.lean ====
section
/-! DEFINITION. Lane operations: shuffles, votes, reductions and scans over the tree of R59, ELECT (R123 to R127). -/
namespace Sys2Proof.Machine

/-- A shuffle: `from_ width L b` is the source lane index, where there is one (R124). -/
def shuffle (i : Instr) (d : Dst) (a b : Src) (from_ : Nat → Nat → Nat → Option Nat) (s : State) : Result :=
  issue i (fun c =>
    let m := c.emask
    let dl := Delivery.typed (modeType c.p.mode)
    c.fixed i false d (fun l =>
      let base := c.g.laneBase c.half
      match from_ c.g.width (l - base) (c.src .control b l).toNat with
      | some x => if m.getLsbD (base + x) then (c.src dl a (base + x), 0) else (c.src dl a l, 0)
      | none => (c.src dl a l, 0))) s

/-- SHFL. -/
def execShfl (d : Dst) (a b : Src) (s : State) : Result :=
  shuffle (.shfl d a b) d a b (fun w _ n => some (n % w)) s

/-- SHFLX. -/
def execShflx (d : Dst) (a b : Src) (s : State) : Result :=
  shuffle (.shflx d a b) d a b (fun w l n => some (l ^^^ (n % w))) s

/-- SHFLUP. -/
def execShflup (d : Dst) (a b : Src) (s : State) : Result :=
  shuffle (.shflup d a b) d a b (fun _ l n => if n ≤ l then some (l - n) else none) s

/-- A one-bit vote's result (R125). -/
def voteBit (k : VoteKind) (l : List Word) : Bool :=
  match k with
  | .any => l.any (fun w => w ≠ 0)
  | .all => l.all (fun w => w ≠ 0)
  | .eq => l.all (fun w => w = l.headD 0)
  | .ballot => false

/-- VOTE (R125). -/
def execVote (d : PDst) (a : Src) (k : VoteKind) (s : State) : Result :=
  issue (.vote d a k) (fun c =>
    let m := c.emask
    let i : Instr := .vote d a k
    let dl := Delivery.typed (modeType c.p.mode)
    let vals := (lanesIn m).map (fun l => c.src dl a l)
    match d with
    | .pred p => c.fixedP i false p (fun _ => (voteBit k vals, 0))
    | .reg d =>
      if k = .ballot then
        if m = 0 then c.idle i
        else
          let base := c.g.laneBase c.half
          let t := maskOf (fun x => m.getLsbD (base + x) && c.src dl a (base + x) != 0)
          let rs := i.reads c.p.mode
          let c1 := (c.noteReads rs).write d m (fun _ => t.extractLsb' 0 32)
          let c2 := c1.write (d.next 1) m (fun _ => t.extractLsb' 32 32)
          .done (c2.releaseReads rs (vRegs (d.range 2)))
      else c.fixed i false d (fun _ => (if voteBit k vals then 1 else 0, 0))) s

/-- A node of the tree: its value and the flags of every node under it (R59). -/
structure TreeNode where
  val : Word
  fl : FFlags
  deriving DecidableEq, Repr

/-- Node operation of a reduction in a type: value and flags of x ⊕ y (Table 7.5). -/
def redOp (op : RedOp) (t : ElemType) (x y : Word) : Word × FFlags :=
  let ints := fun (f : Int → Int → Int) => match intType t with
    | none => (0, 0)
    | some (sg, w) => perElem w (fun e => (ofInt w (f (elemVal sg w x e) (elemVal sg w y e)), 0))
  let flts := fun (f : FFmt → Nat → Nat → Nat × FFlags) => match floatType t with
    | none => (0, 0)
    | some ff => perElem ff.width (fun e => f ff (elemNat x ff.width e) (elemNat y ff.width e))
  match op with
  | .iadd => ints (fun a b => a + b)
  | .imin => ints min
  | .imax => ints max
  | .and => (x &&& y, 0)
  | .or => (x ||| y, 0)
  | .xor => (x ^^^ y, 0)
  | .fadd => flts (fun f a b => addVal f 0 false (f.value a) (f.value b))
  | .fmin => flts minEnc
  | .fmax => flts maxEnc

/-- Identity of a reduction in a type (Table 7.5). -/
def redIdentity (op : RedOp) (t : ElemType) : Word :=
  let ints := fun (f : Bool → Nat → Int) => match intType t with
    | none => 0
    | some (sg, w) => ofElems w (List.replicate (32 / w) (ofInt w (f sg w)))
  let flts := fun (f : FFmt → Nat) => match floatType t with
    | none => 0
    | some ff => ofElems ff.width (List.replicate (32 / ff.width) (f ff))
  match op with
  | .iadd => 0
  | .imin => ints intMax
  | .imax => ints intMin
  | .and => 0xFFFFFFFF
  | .or => 0
  | .xor => 0
  | .fadd => flts FFmt.signBit
  | .fmin => flts FFmt.nan
  | .fmax => flts FFmt.nan

/-- x ⊕ y with the flags of both sides. -/
def TreeNode.join (op : RedOp) (t : ElemType) (x y : TreeNode) : TreeNode :=
  let r := redOp op t x.val y.val
  { val := r.1, fl := x.fl ||| y.fl ||| r.2 }

/-- The next level of the tree. -/
def pairUp (op : RedOp) (t : ElemType) : List TreeNode → List TreeNode
  | x :: y :: l => x.join op t y :: pairUp op t l
  | l => l

/-- Levels of the tree, the leaves first. -/
def treeLevels (op : RedOp) (t : ElemType) : Nat → List TreeNode → List (List TreeNode)
  | 0, l => [l]
  | n + 1, l => l :: treeLevels op t n (pairUp op t l)

/-- The aligned blocks of the first n leaves, the largest first: level and position (R59). -/
def prefixBlocks (n : Nat) : List (Nat × Nat) :=
  ((([6, 5, 4, 3, 2, 1, 0] : List Nat).foldl (fun (acc : List (Nat × Nat) × Nat) k =>
    if n.testBit k then (acc.1 ++ [(k, acc.2 / 2 ^ k)], acc.2 + 2 ^ k) else acc) ([], 0))).1

/-- A prefix that is one leaf alone, as a float operation delivers it: a NaN is canonical, and a signalling one sets NV (R47). -/
def redLeaf (op : RedOp) (t : ElemType) (x : Word) : Word × FFlags :=
  match op, floatType t with
  | .fadd, some f => perElem f.width (fun e => canonical f (elemNat x f.width e))
  | .fmin, some f => perElem f.width (fun e => canonical f (elemNat x f.width e))
  | .fmax, some f => perElem f.width (fun e => canonical f (elemNat x f.width e))
  | _, _ => (x, 0)
where
  canonical (f : FFmt) (e : Nat) : Nat × FFlags :=
    let v := f.value e
    if v.isNan then nanResult f v.sig else (e, 0)

/-- The prefix over the first n leaves (R59). -/
def prefixNode (op : RedOp) (t : ElemType) (levels : List (List TreeNode)) (n : Nat) : TreeNode :=
  let zero : TreeNode := { val := redIdentity op t, fl := 0 }
  if n = 1 then
    let r := redLeaf op t (nth (nth levels 0 []) 0 zero).val
    { val := r.1, fl := r.2 }
  else match (prefixBlocks n).map (fun b => nth (nth levels b.1 []) b.2 zero) with
  | [] => zero
  | x :: l => l.foldl (fun acc y => acc.join op t y) x

/-- Integer and float reductions (R126). -/
def redIsFloat : RedOp → Bool
  | .fadd | .fmin | .fmax => true
  | .iadd | .imin | .imax | .and | .or | .xor => false

/-- The type that a reduction works in; none where it raises ILLTYPE (R126). -/
def redType (op : RedOp) (t : ElemType) : Option ElemType :=
  if redIsFloat op then (if (floatType t).isSome then some t else none)
  else (if (intType t).isSome then some (intTypeOf t) else none)

/-- The tree over the lanes of the issuing path (R59). -/
def Issue.tree (c : Issue) (op : RedOp) (t : ElemType) (a : Src) : List (List TreeNode) :=
  let m := c.emask
  let base := c.g.laneBase c.half
  let leaves := (upto c.g.width).map (fun i =>
    ({ val := if m.getLsbD (base + i) then c.src (.typed t) a (base + i) else redIdentity op t, fl := 0 } : TreeNode))
  treeLevels op t (if c.g.ganged then 5 else 6) leaves

/-- LRED (R126). -/
def execLred (d : Dst) (a : Src) (op : RedOp) (s : State) : Result :=
  issue (.lred d a op) (fun c =>
    match redType op (modeType c.p.mode) with
    | none => .raise trIlltype
    | some t =>
      let r := prefixNode op t (c.tree op t a) c.g.width
      c.fixed (.lred d a op) true d (fun _ => (r.val, r.fl))) s

/-- LSCAN (R126): flags only of what some active lane's prefix uses (R59). -/
def execLscan (d : Dst) (a : Src) (ex : Bool) (op : RedOp) (s : State) : Result :=
  issue (.lscan d a ex op) (fun c =>
    match redType op (modeType c.p.mode) with
    | none => .raise trIlltype
    | some t =>
      let levels := c.tree op t a
      let base := c.g.laneBase c.half
      c.fixed (.lscan d a ex op) false d (fun l =>
        let r := prefixNode op t levels (if ex then l - base else l - base + 1)
        (r.val, r.fl))) s

/-- ELECT (R127). -/
def execElect (d : PDst) (s : State) : Result :=
  issue (.elect d) (fun c =>
    let e := lowestLane c.emask
    match d with
    | .pred p => c.fixedP (.elect d) false p (fun l => (l = e, 0))
    | .reg (.v n) => c.fixed (.elect d) false (.v n) (fun l => (if l = e then 1 else 0, 0))
    | .reg (.s n) => c.fixed (.elect d) false (.s n) (fun _ => (BitVec.ofNat 32 (c.g.laneIndex e), 0))) s

end Sys2Proof.Machine
end

