-- ==== Sys2Proof/Machine/Passes.lean ====
section
/-! DEFINITION. The composer's passes over code words (R289, R295, R296): fold, branches, dead values. Each one is a change of a
list of words into another; what is known at a word is found by one walk in order. (DEDUCED, log 66.) -/
namespace Sys2Proof.Machine

/-! ### Words -/

/-- Word distance of a direct branch. -/
def branchOffset : Instr → Option Int
  | .bra off => some off.toInt
  | .bc _ _ _ off => some off.toInt
  | .bdiv _ _ off => some off.toInt
  | .setj off => some off.toInt
  | _ => none

/-- A direct branch, or a CALL, with another word distance. -/
def withOffset (i : Instr) (o : Int) : Instr :=
  match i with
  | .bra _ => .bra (BitVec.ofInt 24 o)
  | .bc neg p all _ => .bc neg p all (BitVec.ofInt 19 o)
  | .bdiv neg p _ => .bdiv neg p (BitVec.ofInt 19 o)
  | .setj _ => .setj (BitVec.ofInt 24 o)
  | .call _ => .call (BitVec.ofInt 24 o)
  | i => i

/-- Code words with the place in the older code that each one came from; an inserted header came from none. -/
abbrev Traced := List (Option Nat × Word)

/-- Where the words from an older place on now stand. -/
def Traced.placeOf (l : Traced) (t : Nat) : Nat :=
  (l.takeWhile (fun e => match e.1 with
    | some j => decide (j < t)
    | none => true)).length

/-- Direct branches set to where their targets now stand. -/
def Traced.link (l : Traced) : List Word :=
  ((upto l.length).zip l).map (fun e =>
    match e.2.1, decoded e.2.2 with
    | some j, some i =>
      (match branchOffset i with
        | some o => encode (withOffset i ((l.placeOf ((j : Int) + o).toNat : Int) - e.1))
        | none => e.2.2)
    | _, _ => e.2.2)

/-- A header's LEN. -/
def headerLen (w : Word) : Nat := bits w.toNat 3 0

/-- A header with another LEN. -/
def setHeaderLen (w : Word) (n : Nat) : Word := (w &&& 0xFFFFFFF0) ||| BitVec.ofNat 32 (n % 16)

/-- A header that only counts words. -/
def bareHeader : Word := 0xFF000FF0

/-- The words of a clause after a pass, in pieces of at most 16: where a word that became two passes that length, a piece begins
(R295). -/
def splitClause (done : Traced) : List Traced → List Traced
  | [] => [done]
  | g :: l =>
    if 16 < done.length + g.length + l.length && !done.isEmpty then done :: splitClause g l
    else splitClause (done ++ g) l

/-- Headers of the pieces of a clause: its own, and for what was split from it a bare one, which keeps SETA and SETB only where
words that count on them follow. -/
def layPieces (i : Nat) (w : Word) : List Traced → Traced
  | [] => []
  | p :: rest =>
    let counts := fun (l : Traced) => l.any (fun e => match decoded e.2 with
      | some x => decide (x.latency = .vr) || decide (x.latency = .vn)
      | none => false)
    let tail := rest.flatMap (fun q =>
      let h := if counts q then bareHeader &&& 0xFFFFF00F ||| (w &&& 0x00000FF0) else bareHeader
      (none, setHeaderLen h (q.length - 1)) :: q)
    if p.isEmpty && rest.isEmpty then [] else (some i, setHeaderLen w (p.length - 1)) :: p ++ tail

/-- Clauses laid out again after each word at a place has become `out` of it. `i` is the place; the fuel is the number of
words. -/
def layClauses (out : Nat → Word → List Word) : Nat → Nat → List Word → Traced
  | 0, _, _ => []
  | _, _, [] => []
  | fuel + 1, i, w :: l =>
    if !isHeaderWord w then (some i, w) :: layClauses out fuel (i + 1) l
    else
      let mine := (l.take (headerLen w + 1)).takeWhile (fun x => !isHeaderWord x)
      let groups := ((upto mine.length).zip mine).map (fun e => (out (i + 1 + e.1) e.2).map (fun x => (some (i + 1 + e.1), x)))
      let n := mine.length
      let head := if groups.all (fun g => g.length = 1) then (some i, w) :: groups.flatten
        else layPieces i w (splitClause [] groups)
      head ++ layClauses out fuel (i + 1 + n) (l.drop n)

/-- A pass: each word at a place becomes the words that `out` gives, LEN and branches following. -/
def rewriteCode (code : List Word) (out : Nat → Word → List Word) : List Word :=
  (layClauses out (code.length + 1) 0 code).link

/-! ### What is known (R289) -/

/-- Known values before a word: the mode, s and v registers (the same in every active lane), predicates. -/
structure Known where
  mode : Option Half := none
  s : List (Nat × Word) := []
  v : List (Nat × Word) := []
  p : List (Nat × Bool) := []
  deriving DecidableEq, Repr

/-- What two ways into a word both know. -/
def Known.meet (a b : Known) : Known :=
  { mode := if a.mode = b.mode then a.mode else none
    s := a.s.filter (fun e => b.s.contains e), v := a.v.filter (fun e => b.v.contains e), p := a.p.filter (fun e => b.p.contains e) }

/-- Value of a name in a list of known ones. -/
def known? {α : Type} (l : List (Nat × α)) (n : Nat) : Option α := (l.find? (fun e => e.1 = n)).map Prod.snd

/-- A name known, or no longer. -/
def setKnown {α : Type} (l : List (Nat × α)) (n : Nat) (x : Option α) : List (Nat × α) :=
  let l := l.filter (fun e => e.1 ≠ n)
  match x with
  | some x => (n, x) :: l
  | none => l

/-- A source register, constant or predicate is known. -/
def Known.src (k : Known) : Src → Bool
  | .v n => (known? k.v n.val).isSome
  | .vLast n => (known? k.v n.val).isSome
  | .s n => (known? k.s n.val).isSome
  | .p n => (known? k.p n.val).isSome
  | .special _ => false
  | .const _ => true

/-- GUARD lets every active lane through: none is named, or a predicate known to hold so. -/
def Known.unguarded (k : Known) : Bool :=
  match k.mode with
  | none => false
  | some m => modeGuard m = 0 || decide (known? k.p (modeGuard m % 8) = some (decide (modeGuard m < 8)))

/-- Fixed-latency instructions that compute a value lane by lane, with their meanings (R289: evaluated by the rules of the
manual). -/
def laneAlu : Instr → Option (State → Result)
  | .iadd u d a b => some (execIadd u d a b)
  | .isub u d a b => some (execIsub u d a b)
  | .imul u d a b => some (execImul u d a b)
  | .imulh u d a b => some (execImulh u d a b)
  | .imad u d a b => some (execImad u d a b)
  | .imin u d a b => some (execImin u d a b)
  | .imax u d a b => some (execImax u d a b)
  | .iabs u d a => some (execIabs u d a)
  | .and u d a b => some (execAnd u d a b)
  | .or u d a b => some (execOr u d a b)
  | .xor u d a b => some (execXor u d a b)
  | .andn u d a b => some (execAndn u d a b)
  | .shl u d a b => some (execShl u d a b)
  | .shr u d a b => some (execShr u d a b)
  | .sar u d a b => some (execSar u d a b)
  | .rol u d a b => some (execRol u d a b)
  | .bfe u d a b => some (execBfe u d a b)
  | .bfi u d a b => some (execBfi u d a b)
  | .popc u d a => some (execPopc u d a)
  | .clz u d a => some (execClz u d a)
  | .brev u d a => some (execBrev u d a)
  | .sel u d a b => some (execSel u d a b)
  | .icmp u c p a b => some (execIcmp u c p a b)
  | .mov u d a => some (execMov u d a)
  | .iaddi u d imm => some (execIaddi u d imm)
  | .movi u d imm => some (execMovi u d imm)
  | .movhi u d imm => some (execMovhi u d imm)
  | .andi u d imm => some (execAndi u d imm)
  | .ori u d imm => some (execOri u d imm)
  | .xori u d imm => some (execXori u d imm)
  | .imuli u d imm => some (execImuli u d imm)
  | .fadd u d a b => some (execFadd u d a b)
  | .fsub u d a b => some (execFsub u d a b)
  | .fmul u d a b => some (execFmul u d a b)
  | .ffma u d a b => some (execFfma u d a b)
  | .fmin u d a b => some (execFmin u d a b)
  | .fmax u d a b => some (execFmax u d a b)
  | .fabs u d a => some (execFabs u d a)
  | .fneg u d a => some (execFneg u d a)
  | .fcmp u c p a b => some (execFcmp u c p a b)
  | .frcp u d a => some (execFrcp u d a)
  | .frsq u d a => some (execFrsq u d a)
  | .fsqrt u d a => some (execFsqrt u d a)
  | .fexp2 u d a => some (execFexp2 u d a)
  | .flog2 u d a => some (execFlog2 u d a)
  | .fsin u d a => some (execFsin u d a)
  | .fcos u d a => some (execFcos u d a)
  | .frnd u d a => some (execFrnd u d a)
  | .ffrac u d a => some (execFfrac u d a)
  | .cvt u d a pos dst => some (execCvt u d a pos dst)
  | .pack u d a b => some (execPack u d a b)
  | .unpk u d a i4 hi => some (execUnpk u d a i4 hi)
  | .fdot2 u d a b => some (execFdot2 u d a b)
  | .fclass u d a => some (execFclass u d a)
  | .fmulb u d imm => some (execFmulb u d imm)
  | _ => none

/-- Fixed-latency instructions whose result depends on the sources of other lanes too, or on the mask. -/
def crossAlu : Instr → Option (State → Result)
  | .shfl d a b => some (execShfl d a b)
  | .shflx d a b => some (execShflx d a b)
  | .shflup d a b => some (execShflup d a b)
  | .vote d a k => some (execVote d a k)
  | .lred d a op => some (execLred d a op)
  | .lscan d a ex op => some (execLscan d a ex op)
  | .elect d => some (execElect d)
  | _ => none

/-- A machine with one group at one word of a clause, some lanes active, its registers as known and zero otherwise, under a mode
without guard. -/
def Known.bench (k : Known) (mode : Half) (mask : DWord) : State :=
  let b : Bank :=
    { s := (upto 64).map (fun n => (known? k.s n).getD 0), stag := List.replicate 16 false, x := List.replicate 8 {},
      q := List.replicate 8 0 }
  let g : Group :=
    { id := 0, grid := 0, team := 0, index := 0, core := 0, pos := 0
      v := (upto 64).map (fun n => some { lanes := List.replicate 64 ((known? k.v n).getD 0) })
      p := (upto 8).map (fun n => if known? k.p n = some true then -1 else 0), bank0 := b, bank1 := b
      slot0 := some { pc := 0, mask := mask, mode := mode &&& 0xF0FF, flags := noFlags, clause := some { seta := none, setb := none, left := 1 } }
      slot1 := none, bars := [] }
  { State.reset with groups := [g], cur := some (0, 0) }

/-- The group after an instruction on the bench; none where it raises a trap. -/
def Known.run (k : Known) (mode : Half) (mask : DWord) (f : State → Result) : Option Group :=
  match f (k.bench mode mask) with
  | .next s => (s.group? 0).bind (fun g => if g.bank0.raised.isEmpty then some g else none)
  | .fault _ => none
  | .refused _ => none

/-- Predicates that a fixed-latency instruction writes. -/
def writesP : Instr → List Nat
  | .icmp _ _ p _ _ => [p.val]
  | .fcmp _ _ p _ _ => [p.val]
  | .vote (.pred p) _ _ => [p.val]
  | .elect (.pred p) => [p.val]
  | .vxm _ _ _ _ => [6]
  | _ => []

/-- What an instruction has written to the single place that it names, where that is the same in all lanes of a mask. -/
def benchResult (i : Instr) (mask : DWord) (g : Group) : Option (Word ⊕ Bool) :=
  match writesP i, i.fixedDst with
  | [p], [] =>
    let bits_ := nth g.p p 0 &&& mask
    if bits_ = mask then some (.inr true) else if bits_ = 0 then some (.inr false) else none
  | [], [.s n] => some (.inl (nth g.bank0.s n.val 0))
  | [], [.v n] =>
    (match nth g.v n.val none with
      | none => none
      | some x => (match (lanesIn mask).map (fun l => nth x.lanes l 0) with
        | [] => none
        | w :: ws => if ws.all (fun y => y = w) then some (.inl w) else none))
  | _, _ => none

/-- The result of an instruction whose sources are all known and which raises no trap (R289): a word, or a predicate. Where other
lanes or the mask take part, it counts where all lanes agree and one lane alone gives the same. (DEDUCED, log 66.) -/
def Known.eval (k : Known) (i : Instr) : Option (Word ⊕ Bool) :=
  match k.mode with
  | none => none
  | some m =>
    if (unitSources (i.reads m)).all k.src && (match i with
        | .sel _ _ _ _ => (known? k.p (modeSel m)).isSome
        | _ => true) then
      (match laneAlu i, crossAlu i with
        | some f, _ => (k.run m (-1) f).bind (benchResult i (-1))
        | none, some f =>
          let r := (k.run m (-1) f).bind (benchResult i (-1))
          if (k.run m 2 f).bind (benchResult i 2) = r then r else none
        | none, none => none)
    else none

/-- A value after a write under a guard: known where every active lane takes it, or held it before. -/
def guarded {α : Type} [BEq α] (full : Bool) (old new : Option α) : Option α := if full || old == new then new else none

/-- What is known after a word that is no branch: a last read may have released its names (R108). -/
def Known.after (k : Known) (i : Instr) : Known :=
  match i with
  | .mode imm => { k with mode := some imm }
  | i =>
    let r := k.eval i
    let full := k.unguarded
    let word := match r with
      | some (.inl w) => some w
      | some (.inr _) => none
      | none => none
    let pred := match r with
      | some (.inr b) => some b
      | some (.inl _) => none
      | none => none
    let dsts := i.returns ++ i.fixedDst
    let released := (i.reads (k.mode.getD 0)).flatMap lastNames
    let k : Known := { k with v := k.v.filter (fun e => !released.contains e.1) }
    { k with
      s := (sRegs dsts).foldl (fun l n => setKnown l n (guarded full (known? l n) word)) k.s
      v := (vRegs dsts).foldl (fun l n => setKnown l n (guarded full (known? l n) word)) k.v
      p := (writesP i).foldl (fun l n => setKnown l n (guarded full (known? l n) pred)) k.p }

/-- Facts of a walk over code: what a stage or segment is entered with, and what the whole code does. -/
structure CodeFacts where
  /-- s registers that no word writes, with their values. -/
  fixed : Known
  /-- Paths of the code may run side by side, so that an s register that it writes is not known. -/
  splits : Bool
  /-- A branch to an address that is not in the word. -/
  indirect : Bool
  /-- Targets of SETJ, where a JOIN may go on, and targets of branches that stand at or before them. -/
  joins : List Nat
  back : List Nat

/-- Direct targets of words: place of the word and of the target. -/
def codeTargets (code : List Word) : List (Nat × Nat) :=
  ((upto code.length).zip code).filterMap (fun e => ((decoded e.2).bind branchOffset).map (fun o => (e.1, ((e.1 : Int) + o).toNat)))

/-- The facts of a code. -/
def codeFacts (entry : Known) (code : List Word) : CodeFacts :=
  let is := code.filterMap decoded
  let written := sRegs (is.flatMap (fun i => i.returns ++ i.fixedDst))
  let ts := codeTargets code
  { fixed := { s := entry.s.filter (fun e => !written.contains e.1) }
    splits := is.any (fun i => match i with
      | .bdiv _ _ _ => true
      | _ => false)
    indirect := is.any (fun i => match i with
      | .brx _ => true
      | .callx _ => true
      | _ => false)
    joins := ((upto code.length).zip code).filterMap (fun e => match decoded e.2 with
      | some (.setj off) => some ((e.1 : Int) + off.toInt).toNat
      | some _ => none
      | none => none)
    back := (ts.filter (fun t => t.2 ≤ t.1)).map Prod.snd }

/-- What is known before each word, in order: `cur` comes from the word before, `ins` from branches to later words. -/
def walkKnown (f : CodeFacts) : Nat → Option Known → List (Nat × Known) → List Word → List Known
  | _, _, _, [] => []
  | i, cur, ins, w :: l =>
    let here := cur.toList ++ (ins.filter (fun e => e.1 = i)).map Prod.snd
    let k := match here with
      | [] => f.fixed
      | a :: more => more.foldl Known.meet a
    let k := if f.back.contains i || (f.indirect && isHeaderWord w) then k.meet { f.fixed with p := [] } else k
    let k := if f.splits then { k with s := f.fixed.s } else k
    let rest := match decoded w with
      | none => walkKnown f (i + 1) (some k) ins l
      | some x =>
        let edges := match branchOffset x with
          | some o => [(((i : Int) + o).toNat, k)]
          | none => []
        match x with
        | .bra _ => walkKnown f (i + 1) none (edges ++ ins) l
        | .ret => walkKnown f (i + 1) none ins l
        | .brx _ => walkKnown f (i + 1) none ins l
        | .exit => walkKnown f (i + 1) none ins l
        | .join => walkKnown f (i + 1) none (f.joins.map (fun t => (t, k)) ++ ins) l
        | .setj _ => walkKnown f (i + 1) (some k) ins l
        | .bc _ _ _ _ => walkKnown f (i + 1) (some k) (edges ++ ins) l
        | .bdiv _ _ _ => walkKnown f (i + 1) (some k) (edges ++ ins) l
        | x => walkKnown f (i + 1) (some (k.after x)) ins l
    k :: rest

/-- What is known before each word of code. -/
def knownAt (entry : Known) (code : List Word) : List Known :=
  walkKnown (codeFacts entry code) 0 (some entry) [] code

/-! ### Readers -/

/-- A register or predicate that an instruction reads or writes. -/
inductive Place where
  | v (n : Nat)
  | s (n : Nat)
  | p (n : Nat)
  deriving DecidableEq, Repr

/-- Places that a word reads under a mode; with the mode unknown, every predicate too. -/
def placesRead (m : Option Half) (i : Instr) : List Place :=
  let rs := i.reads (m.getD 0)
  (rs.flatMap vNames).map .v ++ (rs.flatMap sNames).map .s ++
    (match m with
      | some m => (i.readsP m).map .p
      | none => (upto 8).map .p)

/-- Places that a word writes. -/
def placesWritten (i : Instr) : List Place :=
  let ds := i.returns ++ i.fixedDst
  (vRegs ds).map .v ++ (sRegs ds).map .s ++ (writesP i).map .p

/-- Where control may go after the word at a place; none past the end. -/
def wordNext (f : CodeFacts) (n i : Nat) (x : Option Instr) : List Nat :=
  let next := [i + 1]
  let all := match x with
    | some (.bra o) => [((i : Int) + o.toInt).toNat]
    | some (.bc _ _ _ o) => ((i : Int) + o.toInt).toNat :: next
    | some (.bdiv _ _ o) => ((i : Int) + o.toInt).toNat :: next
    | some .join => f.joins
    | some .ret => []
    | some .exit => []
    | some (.brx _) => upto n
    | some _ => next
    | none => next
  all.filter (fun t => decide (t < n))

/-- A reader of a value: a word, or what takes the code's results when it returns. -/
inductive Reader where
  | word (i : Nat)
  | end_
  deriving DecidableEq, Repr

/-- Code as the dead-value pass sees it: instructions with the mode in force and whether each one writes every active lane. -/
abbrev SliceCode := List (Option Instr × Option Half × Bool)

/-- Readers of a place from some words on: a walk along the ways of control until the place is written whole. -/
def readersFrom (f : CodeFacts) (code : SliceCode) (pl : Place) : Nat → List Nat → List Nat → List Reader
  | 0, _, _ => []
  | _, _, [] => []
  | fuel + 1, seen, i :: l =>
    if seen.contains i then readersFrom f code pl fuel seen l
    else
      match code[i]? with
      | none => readersFrom f code pl fuel seen l
      | some (x, m, full) =>
        let mine : List Reader := match x with
          | some y => (if (placesRead m y).contains pl then [.word i] else []) ++ (if y = .ret then [.end_] else [])
          | none => []
        let killed := match x with
          | some y => full && (placesWritten y).contains pl
          | none => false
        mine ++ readersFrom f code pl fuel (i :: seen) ((if killed then [] else wordNext f code.length i x) ++ l)

/-! ### The passes -/

/-- The words that write a known word (R295): one MOVI where it is the sign extension of its low half, else MOVI and MOVHI. -/
def moveWords (u : Bool) (d : Dst) (w : Word) : List Word :=
  let lo := w.extractLsb' 0 16
  if w = lo.signExtend 32 then [encode (.movi u d lo)] else [encode (.movi u d lo), encode (.movhi u d (w.extractLsb' 16 16))]

/-- The code as a reader of values sees it, from what is known at its words. -/
def sliceCode (ks : List Known) (code : List Word) : SliceCode :=
  ((upto code.length).zip code).map (fun e =>
    let k := nth ks e.1 {}
    (decoded e.2, k.mode, k.unguarded))

/-- Nothing reads again what the last reads of the word at a place release, as long as it is not written: the word may go, or give up
its sources, without a change of what later words read (R108, R290). `ends` are the places read at the code's return. (DEDUCED,
log 66.) -/
def lastReadsFree (f : CodeFacts) (code : SliceCode) (ends : Place → Bool) (gone : List Nat) (i : Nat) (m : Option Half)
    (x : Instr) : Bool :=
  let names := ((x.reads (m.getD 0)).flatMap lastNames).filter (fun n => !(placesWritten x).contains (.v n))
  names.all (fun n =>
    (readersFrom f code (.v n) (code.length * code.length + code.length + 2) [] (wordNext f code.length i (some x))).all (fun q =>
      match q with
      | .word j => gone.contains j
      | .end_ => !ends (.v n)))

/-- A folded word (R295): it keeps its U bit; MOVI, MOVHI and MODE stay. -/
def foldWord (k : Known) (w : Word) : List Word :=
  match decoded w with
  | none => [w]
  | some i =>
    match i with
    | .movi _ _ _ => [w]
    | .movhi _ _ _ => [w]
    | i =>
      match k.eval i, i with
      | some (.inr b), .icmp u _ p _ _ => [encode (.icmp u (if b then .tr else .fl) p (.const 0) (.const 0))]
      | some (.inr b), .fcmp u _ p _ _ => [encode (.icmp u (if b then .tr else .fl) p (.const 0) (.const 0))]
      | some (.inr b), .vote (.pred p) _ _ => [encode (.icmp false (if b then .tr else .fl) p (.const 0) (.const 0))]
      | some (.inl x), i => (match i.fixedDst with
        | [d] => moveWords i.uniform d x
        | _ => [w])
      | _, _ => [w]

/-- Fold (R289, pass 1). `ends` are the places read at the code's return. -/
def foldPass (entry : Known) (ends : Place → Bool) (code : List Word) : List Word :=
  let ks := knownAt entry code
  let f := codeFacts entry code
  let sc := sliceCode ks code
  rewriteCode code (fun i w =>
    let k := nth ks i {}
    match decoded w with
    | none => [w]
    | some x => if lastReadsFree f sc ends [] i k.mode x then foldWord k w else [w])

/-- Branches (R289, pass 2): a BC whose predicate is known in every active lane becomes BRA, or goes. -/
def branchPass (entry : Known) (code : List Word) : List Word :=
  let ks := knownAt entry code
  rewriteCode code (fun i w => match decoded w with
    | some (.bc neg p _ off) =>
      (match known? (nth ks i {}).p p.val with
        | some b => if b != neg then [encode (.bra (off.signExtend 24))] else []
        | none => [w])
    | some _ => [w]
    | none => [w])

/-- A word that the dead-value pass may take out: fixed latency, with a result, raising no trap under the mode in force. -/
def deletable (m : Option Half) (i : Instr) : Bool :=
  let f := match i with
    | .csrr u d n => some (execCsrr u d n)
    | i => (laneAlu i).or (crossAlu i)
  match m, f with
  | some m, some f => !(placesWritten i).isEmpty && ((({} : Known).run m (-1) f).isSome)
  | _, _ => false

/-- One round of the backward slice (R289, pass 3): words whose results only deleted words read, or the deleted stores do.
`dead` says which results the deleted stores alone read, `ends` what is read at the code's return. -/
def sliceRound (f : CodeFacts) (code : SliceCode) (dead ends : Place → Bool) (gone : List Nat) : List Nat :=
  let fuel := code.length * code.length + code.length + 2
  gone ++ ((upto code.length).filter (fun i => !gone.contains i && (match code[i]? with
    | some (some x, m, _) =>
      deletable m x && lastReadsFree f code ends gone i m x &&
        (let rs := (placesWritten x).map (fun pl => (pl, readersFrom f code pl fuel [] (wordNext f code.length i (some x))))
         rs.any (fun r => !r.2.isEmpty) && rs.all (fun r => r.2.all (fun q => match q with
          | .word j => gone.contains j
          | .end_ => dead r.1)))
    | some (none, _, _) => false
    | none => false)))

/-- The backward slice of some deleted words and of results that only deleted stores read. -/
def slice (entry : Known) (code : List Word) (dead ends : Place → Bool) (gone : List Nat) : List Nat :=
  let f := codeFacts entry code
  let sc := sliceCode (knownAt entry code) code
  (upto code.length).foldl (fun gone _ => sliceRound f sc dead ends gone) gone

/-- Dead values (R289, pass 3), and slots (R296): the words of a slice taken out. -/
def deadPass (entry : Known) (code : List Word) (dead ends : Place → Bool) (gone : List Nat) : List Word :=
  let l := slice entry code dead ends gone
  rewriteCode code (fun i w => if l.contains i then [] else [w])

/-- A stage whose code reads FPSTAT or STATUS, which no pass folds or deletes from (R289). -/
def readsStatus (code : List Word) : Bool :=
  code.any (fun w => match decoded w with
    | some (.csrr _ _ n) => n.toNat = 0 || n.toNat = 1
    | some _ => false
    | none => false)

end Sys2Proof.Machine
end

