-- ==== Sys2Proof/Machine/Listing.lean ====
section
/-! DEFINITION. The request of Listing 19.1 and the segments that its plain join holds (R294, Listing 19.2): S, V, P and D, whose words
the rule fixes. A CALL is written with distance 0 and set where the body is laid out. -/
namespace Sys2Proof.Machine

/-- Segment S, in the prologue: the depth and blend fields, and the truth nibble of FUNC. -/
def listingS : List Instr :=
  [.clauseStart 0 none none 13, .mode 0x0003, .movi true (.s 48) 0x0001, .movi true (.s 49) 0x0002,
   .movi true (.s 50) 0x0001, .movi true (.s 51) 0x0000, .movi true (.s 52) 0x000F, .movi true (.s 8) 0x3152,
   .movhi true (.s 8) 0x8764, .movi true (.s 9) 0xECB9, .movhi true (.s 9) 0x0F5A, .icmp true .lt 4 (.s 49) (.const 8),
   .mode 0x4003, .sel true (.s 10) (.s 8) (.s 9), .mode 0x0003, .clauseStart 0 none none 4, .mov true (.s 11) (.s 49),
   .andi true (.s 11) 0x0007, .shl true (.s 11) (.s 11) (.const 2), .shr true (.s 53) (.s 10) (.s 11),
   .andi true (.s 53) 0x000F]

/-- Segment V, in the vertex phase: the inputs, the call, and the slots. -/
def listingV : List Instr :=
  [.clauseStart 0 (some 10) none 7, .mode 0x0603, .iadd false (.v 49) (.v 48) (.const 16),
   .iadd false (.v 50) (.v 49) (.const 16), .iadd false (.v 51) (.v 50) (.const 8),
   .ld false (.v 0) 4 .w128 .normal (.v 48), .ld false (.v 4) 4 .w128 .normal (.vLast 49),
   .ld false (.v 8) 4 .w64 .normal (.vLast 50), .ld false (.v 10) 4 .w32 .normal (.vLast 51),
   .clauseStart 0x400 none none 0, .call 0, .clauseStart 0 none (some 11) 5, .mode 0x0603,
   .iadd false (.v 53) (.v 52) (.s 55), .iadd false (.v 54) (.v 52) (.s 56), .sts false (.v 0) .team .w128 (.v 52),
   .sts false (.v 4) .team .w128 (.vLast 53), .sts false (.v 12) .team .w128 (.vLast 54)]

/-- Segment P, in the cover phase: a0, a1 − a0 and a2 − a0 into the setup areas. -/
def listingP : List Instr :=
  [.clauseStart 0 (some 10) none 12, .mode 0x0603, .iadd false (.v 56) (.v 55) (.s 55),
   .iadd false (.v 57) (.v 56) (.const 16), .iadd false (.v 58) (.v 57) (.const 16),
   .lds false (.v 0) .team .w128 (.vLast 56), .lds false (.v 4) .team .w128 (.vLast 57),
   .lds false (.v 8) .team .w128 (.vLast 58), .iadd false (.v 56) (.v 55) (.s 56), .iadd false (.v 57) (.v 56) (.const 16),
   .iadd false (.v 58) (.v 57) (.const 16), .lds false (.v 12) .team .w128 (.vLast 56),
   .lds false (.v 16) .team .w128 (.vLast 57), .lds false (.v 20) .team .w128 (.vLast 58), .clauseStart 0x400 none none 14,
   .mode 0x0600, .fsub false (.v 4) (.vLast 4) (.v 0), .fsub false (.v 5) (.vLast 5) (.v 1),
   .fsub false (.v 6) (.vLast 6) (.v 2), .fsub false (.v 7) (.vLast 7) (.v 3), .fsub false (.v 8) (.vLast 8) (.v 0),
   .fsub false (.v 9) (.vLast 9) (.v 1), .fsub false (.v 10) (.vLast 10) (.v 2), .fsub false (.v 11) (.vLast 11) (.v 3),
   .fsub false (.v 16) (.vLast 16) (.v 12), .fsub false (.v 17) (.vLast 17) (.v 13),
   .fsub false (.v 18) (.vLast 18) (.v 14), .fsub false (.v 20) (.vLast 20) (.v 12),
   .fsub false (.v 21) (.vLast 21) (.v 13), .fsub false (.v 22) (.vLast 22) (.v 14), .clauseStart 0 none (some 11) 12,
   .mode 0x0603, .iadd false (.v 59) (.v 55) (.s 57), .iadd false (.v 60) (.v 59) (.const 16),
   .iadd false (.v 61) (.v 60) (.const 16), .sts false (.v 0) .team .w128 (.vLast 59),
   .sts false (.v 4) .team .w128 (.vLast 60), .sts false (.v 8) .team .w128 (.vLast 61),
   .iadd false (.v 59) (.v 55) (.s 58), .iadd false (.v 60) (.v 59) (.const 16), .iadd false (.v 61) (.v 60) (.const 16),
   .sts false (.v 12) .team .w128 (.vLast 59), .sts false (.v 16) .team .w128 (.vLast 60),
   .sts false (.v 20) .team .w128 (.vLast 61)]

/-- Segment D, in the fragment phase, up to the passing lanes. -/
def listingD : List Instr :=
  [.clauseStart 0 none none 5, .mode 0x0003, .movi false (.v 60) 0x0000, .icmp true .ne 3 (.s 48) (.const 0), .mode 0x0703,
   .movi false (.v 60) 0x0001, .bc true 3 false 14, .clauseStart 0 none none 11, .mode 0x0700,
   .fcmp false .lt 1 (.v 56) (.v 57), .fcmp false .eq 2 (.v 56) (.v 57), .fcmp false .gt 3 (.v 56) (.v 57), .mode 0x3703,
   .sel false (.v 59) (.const 2) (.const 3), .mode 0x2703, .sel false (.v 59) (.const 1) (.vLast 59), .mode 0x1703,
   .sel false (.v 59) (.const 0) (.vLast 59), .shr false (.v 60) (.s 53) (.vLast 59), .andi false (.v 60) 0x0001,
   .clauseStart 0 none none 1, .mode 0x0003, .icmp false .ne 6 (.vLast 60) (.const 0)]

/-- Segment D after the fragment stage: the blend call, and the stored depth. -/
def listingE : List Instr :=
  [.clauseStart 0 none none 2, .mode 0x0003, .icmp true .ne 3 (.s 51) (.const 0), .bc true 3 false 3,
   .clauseStart 0 none none 0, .call 0, .clauseStart 0 none none 2, .mode 0x0003, .icmp true .ne 3 (.s 50) (.const 0),
   .bc true 3 false 4, .clauseStart 0 none none 1, .mode 0x0600, .mov false (.v 57) (.v 56)]

/-- Segment C: the code of vs_col. -/
def listingC : List Instr :=
  [.clauseStart 0 none none 7, .mode 0x0000, .mov false (.v 12) (.const 30), .mov false (.v 13) (.const 30),
   .mov false (.v 14) (.const 30), .ffma false (.v 12) (.v 8) (.const 27), .ffma false (.v 13) (.v 9) (.const 27),
   .ffma false (.v 14) (.v 10) (.const 27), .ret]

/-- Words of segment V and of segment P that address the slot or a setup area of `nrm` (R296). -/
def nrmStores : List Nat × List Nat := ([17], [11, 12, 13, 41, 42, 43])

/-- An interface table from its entries (Table 19.1). -/
def listingIface (l : List Nat) : List IfaceEntry := l.map (fun e =>
  { name := BitVec.ofNat 32 (bits e 31 0), reg := bits e 53 48, sys := e.testBit 44, opt := e.testBit 43, out := e.testBit 42,
    interp := bits e 41 40, comps := bits e 39 36 + 1, type := bits e 35 32 })

/-- vs_col. -/
def listingVs : ComposeStage where
  code := listingC.map encode
  iface := listingIface [0x0000003000736F70, 0x00040030006C6F63, 0x00080020006D726E, 0x0000143070696C63, 0x00040430006C6F63,
    0x000C0420006D726E]
  refs := []

/-- fs_col. -/
def listingFs : ComposeStage where
  code := [0xFF000FF0, 0x08000000]
  iface := listingIface [0x00000030006C6F63, 0x0000143067617266]
  refs := []

/-- The state fragments of Listing 19.1, lines 071 to 079. -/
def listingFrags : Nat × Nat × Nat × Nat :=
  (0x40800000408000004080000040800000, 0x32, 0x1E0,
    [0x00200020, 0x006D726E, 0x00300010, 0x006C6F63, 0x00300000, 0x00736F70, 0x00030030].foldl (fun n w => n * 2 ^ 32 + w) 0)

/-- A request is the one that Listing 19.1 builds (R294). -/
def isListing (vs fs : ComposeStage) (f : Fragments) : Bool :=
  decide (vs = listingVs) && decide (fs = listingFs) && decide ((f.raster, f.depth, f.blend, f.vfmt) = listingFrags)

end Sys2Proof.Machine
end

