-- ==== Sys2Proof/Machine/Copy.lean ====
section
/-! DEFINITION. The copy engine: requests (R235, R236), CKICK and its fetch (R237, R241), delivery (R238), completion
(R239, R240) and budgets (R242, R327). -/
namespace Sys2Proof.Machine

/-! ### Places of a request -/

/-- Source and destination offsets of the source byte at a place of the request (R236). -/
def CopyReq.offsets (r : CopyReq) (pos : Nat) : Nat × Nat :=
  let row := pos / r.xbytes
  let x := pos % r.xbytes
  let y := row % (r.f 143 128 + 1)
  let z := row / (r.f 143 128 + 1)
  (r.f 47 16 + z * r.f 223 192 + y * r.f 191 160 + x,
   r.f 95 64 + z * r.f 287 256 + y * r.f 255 224 + r.dstBytes x)

/-! ### Fates of a request (R241, Table 15.4) -/

/-- Fates in the order in which they are tested. -/
def fateOrder (c : Cause) : Nat :=
  match c with
  | .illegal => 0
  | .misalign => 1
  | .captag => 2
  | .bounds => 3
  | _ => 4

/-- The first fate that a request meets. -/
def requestFate (c : Context) (t : Team) (r : CopyReq) : Option Cause :=
  let (es, ed) := convSize r.conv
  let (src, stag) := c.slot (r.f 15 0)
  let (dst, dtag) := c.slot (r.f 63 48)
  let sig := if r.signals then 4 else 16
  let sEnd := (r.offsets ((r.rows - 1) * r.xbytes)).1 + r.xbytes
  let dEnd := (r.offsets ((r.rows - 1) * r.xbytes)).2 + r.dstBytes r.xbytes
  let sBound := if r.ssp then t.scratchSize else min (capLength src).toNat (2 ^ 32)
  let dBound := if r.dsp then t.scratchSize else min (capLength dst).toNat (2 ^ 32)
  if r.f 511 412 ≠ 0 || decide (5 < r.conv) || decide (r.scope < 3) || decide (10 < r.scope) || r.xbytes = 0 ||
      (r.map && (r.dsp || decide (r.scope < 7))) || (r.conv = 1 && (r.ssp || r.dsp)) ||
      (r.ssp && r.f 15 0 ≠ 0) || (r.dsp && r.f 63 48 ≠ 0) then some .illegal
  else if r.f 47 16 % es ≠ 0 || r.f 191 160 % es ≠ 0 || r.f 223 192 % es ≠ 0 || r.xbytes % es ≠ 0 ||
      r.f 95 64 % ed ≠ 0 || r.f 255 224 % ed ≠ 0 || r.f 287 256 % ed ≠ 0 || r.sigOff % sig ≠ 0 then some .misalign
  else if (!r.ssp && !stag) || (!r.dsp && !dtag) then some .captag
  else if decide (sBound < sEnd) || decide (dBound < dEnd) || decide (t.scratchSize < r.sigOff + sig) ||
      (r.map && decide (dBound < r.f 383 352 * 16 + r.f 399 384 / 8 + 1)) then some .bounds
  else if (!r.ssp && !hasPerm (capPerm src) permR) || (!r.dsp && !hasPerm (capPerm dst) permW) ||
      (r.conv = 1 && !(hasPerm (capPerm src) permK && hasPerm (capPerm dst) permK)) ||
      (r.map && !hasPerm (capPerm dst) permA) then some .perm
  else none

/-- The earliest fate of a list of requests, with the lowest index that meets it. -/
def kickFate (c : Context) (t : Team) : Nat → List CopyReq → Option (Cause × Nat)
  | _, [] => none
  | i, r :: l =>
    match requestFate c t r, kickFate c t (i + 1) l with
    | none, rest => rest
    | some f, none => some (f, i)
    | some f, some (f', i') => if fateOrder f ≤ fateOrder f' then some (f, i) else some (f', i')

/-! ### CKICK -/

/-- CKICK (R237): its operands are read at issue; the list is fetched and checked later. -/
def execCkick (u : Bool) (a b : Src) (s : State) : Result :=
  issue (.ckick u a b) (fun c =>
    let m := c.emask
    if m = 0 then c.idle (.ckick u a b)
    else .done (c.fly (.ckick u a b) m (fun c p => { p with aux := [(c.control b m).toNat] })).1) s

/-- COPY_REQUEST_FETCH (R237, R241): the list is read after the group's earlier scratchpad accesses, and checked; a poisoned word of
it raises POISON (R346). -/
def execCopyRequestFetch (gid id : Nat) (s : State) : Result :=
  match s.group? gid with
  | none => .next s
  | some g =>
    match g.pend? id with
    | none => .next s
    | some p =>
      match p.instr, s.team? g.team, s.contextOf g with
      | .ckick _ _ _, some t, some c =>
        if !p.active || !g.mayPerform p then .next s
        else
          let off := (p.opc g 0).toNat
          let n := (p.opc g 1).toNat
          let fault := fun (cs : Cause) (faddr : Nat) =>
            s.faultPend g p { cause := cs, fmask := maskFrom [lowestLane p.lmask], faddr := BitVec.ofNat 64 faddr }
          if off % 64 ≠ 0 then .next (fault .misalign off)
          else if n = 0 ∨ 64 < n ∨ t.scratchSize < off + 64 * n then .next (fault .bounds off)
          else if t.poisoned off (64 * n) then
            .next (s.faultPend g p { cause := .poison, sub := 0xFF, fmask := maskFrom [lowestLane p.lmask], faddr := BitVec.ofNat 64 off })
          else
            let reqs := (upto n).map (fun i =>
              let x : BitVec 512 := BitVec.ofNat 512 (leValue (s.scratchRead t (off + 64 * i) 64))
              let r : CopyReq :=
                { id := s.fresh + i, ctx := c.id, grid := g.grid, team := t.id, group := g.id, half := p.half,
                  offset := off + 64 * i, bits := x, src := (c.slot (bits x.toNat 15 0)).1,
                  dst := (c.slot (bits x.toNat 63 48)).1 }
              { r with gaps := [(0, r.total)] })
            match kickFate c t 0 reqs with
            | some (cs, i) => .next (fault cs i)
            | none =>
              let k := s.coreAt g.core
              let s : State := { s.setCore g.core { k with copies := k.copies ++ reqs } with fresh := s.fresh + n }
              .next (s.completePend gid id)
      | _, _, _ => .next s

/-! ### Delivery (R238) -/

/-- A request of a core. -/
def State.copyReq? (s : State) (core req : Nat) : Option CopyReq := (s.coreAt core).copies.find? (fun r => r.id = req)

/-- A request replaced. -/
def State.setCopyReq (s : State) (core : Nat) (r : CopyReq) : State :=
  let k := s.coreAt core
  s.setCore core { k with copies := k.copies.map (fun q => if q.id = r.id then r else q) }

/-- A request leaves its engine; its team's scratchpad is freed where nothing else holds it (R238). -/
def State.dropCopyReq (s : State) (core : Nat) (r : CopyReq) : State :=
  let k := s.coreAt core
  (s.setCore core { k with copies := k.copies.filter (fun q => q.id ≠ r.id) }).closeTeam r.team

/-- A request stops (R238, R310): the stop waits in its group, or is reported to no one when the group has ended. -/
def State.stopCopy (s : State) (core : Nat) (r : CopyReq) (t : Trap) : State :=
  let t : Trap := { t with fmask := 0, seq := s.fresh }
  let s : State := { s with fresh := s.fresh + 1 }
  let s := match s.group? r.group with
    | none => s
    | some g =>
      let b := g.bank r.half
      let a : AsyncStop := { trap := t, reqOffset := BitVec.ofNat 32 r.offset,
                             delivered := BitVec.ofNat 32 (r.dstBytes r.done) }
      (s.setGroup (g.setBank r.half { b with asyncStops := b.asyncStops ++ [a] })).notePoison g t
  s.dropCopyReq core r

/-- A fault of one transfer: PAGE and POISON go to service, anything else stops the request. -/
def State.copyFault (s : State) (core : Nat) (r : CopyReq) (t : Trap) : State :=
  match pendFault t with
  | .service t => s.setCopyReq core { r with service := some t }
  | .faulted t => s.stopCopy core r t
  | .inFlight => s
  | .waitOnly => s

/-- Source elements of a piece converted (Table 15.2, R54). -/
def convertBytes (conv : Nat) (l : List Byte) : List Byte :=
  let one := fun (src dst : FFmt) (n m : Nat) =>
    (blocks n (l.length / n) l).flatMap (fun b => leBytes m (toFloat dst 0 false (src.value (leValue b))).1)
  match conv with
  | 2 => one .fp32 .fp16 4 2
  | 3 => one .fp32 .bf16 4 2
  | 4 => one .fp16 .fp32 2 4
  | 5 => one .bf16 .fp32 2 4
  | _ => l

/-- The fault of a check. -/
def LaneCheck.trap : LaneCheck → Option Trap
  | .ok _ _ => none
  | .bad _ cs sub f _ => some { cause := cs, sub := sub, faddr := BitVec.ofNat 64 f }

/-- The bytes of runs as a core's engine reads them: what the core has written and not yet performed stands over the memory. -/
def State.engineRead (s : State) (core : Nat) (runs : List Run) : List Byte :=
  let k := s.coreAt core
  (runAddresses runs).map (fun a => match a with
    | none => 0
    | some a => (bufferByte k.buffer a).getD (memGet s.mem a))

/-- The tag of a granule as a core sees it: that of the newest write to any byte of it that is on its way, else memory's (R154). -/
def State.tagSeen (s : State) (core pa : Nat) : Bool :=
  (s.coreAt core).buffer.foldl (fun t w =>
    if w.bytes.any (fun e => e.1 / 16 = pa / 16) then w.tagged.any (fun a => a / 16 = pa / 16) else t) (s.tagAt pa)

/-- The granules of some runs, by their place in the list of bytes, whose tag a tagged copy carries (Table 15.2): a local
capability loses it. -/
def State.taggedPlaces (s : State) (core : Nat) (runs : List Run) (bytes : List Byte) : List Nat :=
  ((upto (bytes.length / 16)).map (fun i => 16 * i)).filter (fun i =>
    (match nth (runAddresses runs) i none with
      | some pa => decide (pa % 16 = 0) && s.tagSeen core pa
      | none => false) &&
      (BitVec.ofNat 128 (leValue ((bytes.drop i).take 16)) : QWord).getLsbD 63)

/-- One piece of a row: its source bytes, with the places of the tagged granules; or its fault. -/
def State.copySource (s : State) (core : Nat) (c : Context) (t : Team) (r : CopyReq) (off n : Nat) :
    Except Trap (List Byte × List Nat) × State :=
  if r.ssp then
    if t.poisoned off n then (.error { cause := .poison, sub := 0xFF, faddr := BitVec.ofNat 64 off }, s)
    else (.ok (s.scratchRead t off n, []), s)
  else
    match s.access core c (capRegister r.src) .load true 1 n off with
    | (.ok runs _, s) =>
      let b := s.engineRead core runs
      (.ok (b, if r.conv = 1 then s.taggedPlaces core runs b else []), s)
    | (.bad o cs sub f l, s) => (.error ((LaneCheck.bad o cs sub f l).trap.getD trIllegal), s)

/-- The fault of a scratchpad write of an engine whose lines the reserve does not take: the first line without room (R146). -/
def State.engineTcopy (s : State) (t : Team) (off n : Nat) : Option Trap :=
  let lines := s.linesToCopy t off n
  if t.reserveFor lines.length then none
  else some { cause := .tcopy, faddr := BitVec.ofNat 64 (128 * nth lines t.room (off / 128)) }

/-- One piece performed at the destination at core scope, or its fault. The core's loads and held copies do not see it before it has
reached its coherence point (R170, Table 15.6). -/
def State.copyDest (s : State) (core : Nat) (c : Context) (t : Team) (r : CopyReq) (off : Nat) (bytes : List Byte)
    (tags : List Nat) : Except Trap Unit × State :=
  if r.dsp then
    match s.engineTcopy t off bytes.length with
    | none => (.ok (), s.scratchWrite t.id off bytes)
    | some tr => (.error tr, s)
  else
    match s.access core c (capRegister r.dst) .store false 1 bytes.length off with
    | (.ok runs _, s) =>
      let addrs := runAddresses runs
      let pairs := pairBytes addrs bytes
      let k := s.coreAt core
      let w : CoreWrite := { group := r.group, pend := r.id, bytes := pairs, engine := true, grid := r.grid,
                             tagged := (tags.filterMap (fun i => nth addrs i none)).filter (fun a => a % 16 = 0) }
      (.ok (), s.setCore core { k with buffer := k.buffer ++ [w] })
    | (.bad o cs sub f l, s) => (.error ((LaneCheck.bad o cs sub f l).trap.getD trIllegal), s)

/-- A stretch taken out of the ones that are left. -/
def cutGap (pos n : Nat) (l : List (Nat × Nat)) : List (Nat × Nat) :=
  l.flatMap (fun e =>
    if e.1 ≤ pos ∧ pos < e.1 + e.2 then
      (if e.1 < pos then [(e.1, pos - e.1)] else []) ++ (if pos + n < e.1 + e.2 then [(pos + n, e.1 + e.2 - (pos + n))] else [])
    else [e])

/-- The piece that the engine delivers next: any of the request's elements that are left, of one row and one sector of the
destination, as the free values choose (R238). (DESIGN CHOICE, log 20.) -/
def State.choosePiece (s : State) (r : CopyReq) : Nat × Nat :=
  let (es, ed) := convSize r.conv
  let (at_, len) := nth r.gaps (Config.freeNat s.freeCount % r.gaps.length) (0, 0)
  let pos := at_ + Config.freeNat (s.freeCount + 1) % (len / es) * es
  let d := (r.offsets pos).2 + (if r.dsp then 0 else (capRegister r.dst).base.toNat)
  let room := min (min (at_ + len - pos) (r.xbytes - pos % r.xbytes)) (max es ((32 - d % 32) / ed * es))
  (pos, room - Config.freeNat (s.freeCount + 2) % (room / es) * es)

/-- A piece waits (R323, R327, R336): its source or destination is held, or the context has spent a budget of channels or of the
core's link. -/
def State.pieceWaits (s : State) (core : Nat) (c : Context) (r : CopyReq) (so d n : Nat) : Bool :=
  (!r.ssp && s.rangeHeld core c (capRegister r.src) so n) || (!r.dsp && s.rangeHeld core c (capRegister r.dst) d (r.dstBytes n)) ||
    (!c.budgets.isEmpty && ((upto 8).any (fun k => c.spentOut (.channels k)) || c.spentOut (.valley core true)))

/-- A piece of a request delivered (R236, R238), while its context's budget of the period and the core's sector entries take it
(R173, R242). (DESIGN CHOICE, logs 18 and 20.) -/
def State.copyPiece (s : State) (core : Nat) (c : Context) (t : Team) (r : CopyReq) : State :=
  let (pos, n) := r.piece.getD (s.choosePiece r)
  let s := s.nextFree.nextFree.nextFree
  let (so, d) := r.offsets pos
  if c.overBudget (.copyEngine core) (r.dstBytes n) || decide (2044 < s.sectorEntries core) || s.pieceWaits core c r so d n then s
  else
    let r := { r with piece := some (pos, n) }
    match s.copySource core c t r so n with
    | (.error e, s) => s.copyFault core r e
    | (.ok (bytes, tags), s) =>
      match s.copyDest core c t r d (convertBytes r.conv bytes) tags with
      | (.error e, s) => s.copyFault core r e
      | (.ok (), s) =>
        (s.setCopyReq core { r with done := r.done + n, gaps := cutGap pos n r.gaps, piece := none }).charge c.id
          [(.copyEngine core, r.dstBytes n)]

/-- A copy engine's writes for a request that are performed at core scope only (R240). -/
def State.copyHeld (s : State) (core req : Nat) : Bool := (s.coreAt core).buffer.any (fun w => w.pend = req)

/-- A load of the core was sent and is still to read one of some sectors: a write to it of the core's engine waits (R224 at core
scope). -/
def State.sentTo (s : State) (core : Nat) (secs : List Nat) : Bool :=
  s.groups.any (fun h => h.core = core && h.pend.any (fun q => q.isSent && (runSectors q.runs).any secs.contains))

/-- The oldest write of a request that the core holds reaches its coherence point, unless an earlier one of the core to one of
its sectors is still on its way, a load that was sent before is still to read one, or its path is held. -/
def State.drainCopy (s : State) (core req : Nat) : State :=
  let k := s.coreAt core
  let mine := fun (w : CoreWrite) => decide (w.pend = req)
  match k.buffer.find? mine with
  | none => s
  | some w =>
    let earlier := k.buffer.takeWhile (fun v => !mine v)
    let secs := w.bytes.map (fun e => sectorOf e.1)
    if earlier.any (fun v => v.bytes.any (fun e => secs.contains (sectorOf e.1))) || s.sentTo core secs ||
        w.bytes.any (fun e => s.pathHeld core e.1) then s
    else
      (w.tagged.foldl (fun (s : State) a => s.setTag a) (s.writePhys w.bytes)).setCore core
        { k with buffer := earlier ++ (k.buffer.drop (earlier.length + 1)) }

/-- COPY_REQUEST_PERFORM (R238): the engine delivers some bytes of a request at core scope, or what it has delivered reaches its
coherence point; which comes first is free. -/
def execCopyRequestPerform (core req : Nat) (s : State) : Result :=
  match s.copyReq? core req with
  | none => if s.groups.any (fun g => g.pend.any (fun p => p.id = req)) then .next s else .next (s.drainCopy core req)
  | some r =>
    match s.context? r.ctx, s.team? r.team with
    | some c, some t =>
      if r.delivered || r.service.isSome || (s.copyHeld core req && Config.freeNat s.freeCount % 2 = 1) then
        .next (s.nextFree.drainCopy core req)
      else .next (s.nextFree.copyPiece core c t r)
    | _, _ => .next s

/-! ### Completion (R239) -/

/-- The map update (R239): an atomic OR at device scope, and the invalidation of the texture units. -/
def State.mapUpdate (s : State) (core : Nat) (c : Context) (r : CopyReq) : State :=
  let page := r.f 399 384
  let off := r.f 383 352 * 16 + page / 8
  if s.rangeHeld core c (capRegister r.dst) off 1 then s
  else
  match s.access core c (capRegister r.dst) .atomic true 1 1 off with
  | (.ok runs _, s) =>
    let b := (s.readRuns runs).headD 0
    let secs := runSectors runs
    if (s.coreAt core).buffer.any (fun w => w.bytes.any (fun e => secs.contains (sectorOf e.1))) then s
    else
    ((s.writeRuns runs [b ||| BitVec.ofNat 8 (2 ^ (page % 8))]).dropTexture (fun _ => true)).setCopyReq core { r with mapDone := true }
  | (.bad o cs sub f l, s) => s.copyFault core r ((LaneCheck.bad o cs sub f l).trap.getD trIllegal)

/-- The barrier object after a part of the count (R239, Table 15.3). -/
def countDown (obj part : Nat) : Nat :=
  let remain := (bits obj 63 0 + 2 ^ 64 - part % 2 ^ 64) % 2 ^ 64
  let phase := if remain = 0 then (bits obj 95 64 + 1) % 2 ^ 32 else bits obj 95 64
  remain + phase * 2 ^ 64

/-- The payload of a request is performed at its completion scope (R239, R240): at core scope where it is delivered, at a wider
one where none of it is still on its way. -/
def State.copyPerformed (s : State) (core : Nat) (r : CopyReq) : Bool :=
  r.delivered && (r.scope = 3 || !s.copyHeld core r.id)

/-- The POISON that a service answers stands still where the request reads again (R302). -/
def State.copyPoison (s : State) (core : Nat) (c : Context) (r : CopyReq) : Bool :=
  let met := fun (t : Trap) => decide (t.cause = .poison)
  match r.piece, s.team? r.team with
  | some (pos, n), some t => (match s.copySource core c t r (r.offsets pos).1 n with
      | (.error e, _) => met e
      | (.ok _, _) => false)
  | none, _ => ((s.checkAccess core c (capRegister r.dst) .atomic true 1 1 (r.f 383 352 * 16 + r.f 399 384 / 8)).trap.map met).getD false
  | some _, none => false

/-- COPY_COMPLETION (R239): once the payload is performed at SCOPE, the map update; then the signal store, or one part of the
countdown, which reads the barrier object: a poisoned word of it stops the request (R310, R346). A part is a number of delivered
bytes that is still to be counted. -/
def execCopyCompletion (core req part : Nat) (s : State) : Result :=
  match s.copyReq? core req with
  | none => .next s
  | some r =>
    match s.context? r.ctx, s.team? r.team with
    | some c, some t =>
      if !s.copyPerformed core r || r.service.isSome then .next s
      else if r.map && !r.mapDone then .next (s.mapUpdate core c r)
      else
        let size := if r.signals then 4 else 12
        match s.engineTcopy t r.sigOff size with
        | some tr => .next (s.stopCopy core r tr)
        | none =>
          if !r.signals && t.poisoned r.sigOff size then
            .next (s.stopCopy core r { cause := .poison, sub := 0xFF, faddr := BitVec.ofNat 64 r.sigOff })
          else if r.signals then .next ((s.scratchWrite t.id r.sigOff (leBytes 4 (r.f 351 320))).dropCopyReq core r)
          else
          let left := r.dstBytes r.total - r.counted
          let n := min (max part 1) left
          let obj := leValue (s.scratchRead t r.sigOff 12)
          let s := s.scratchWrite t.id r.sigOff (leBytes 12 (countDown obj n))
          if n = left then .next (s.dropCopyReq core r)
          else .next (s.setCopyReq core { r with counted := r.counted + n })
    | _, _ => .next s

/-- BUDGET_PERIOD (R327, R242): every source regains its budget. (DESIGN CHOICE, log 49.) -/
def execBudgetPeriod (s : State) : Result :=
  .next { s with contexts := s.contexts.map (fun c => { c with spent := [] }) }

end Sys2Proof.Machine
end

