-- ==== Sys2Proof/Machine/Traps.lean ====
section
/-! DEFINITION. Delivery of traps (R304 to R307), answers to service traps (R302) and TRET (R309, R311). -/
namespace Sys2Proof.Machine

/-! ### Reissue -/

/-- A path that owns an instruction parks on it, or counts it on its flag. -/
def Group.owned (g : Group) (p : Pend) (f : Path → Path) : Group :=
  let g := if p.owner0 then g.mapSlot 0 f else g
  if p.owner1 then g.mapSlot 1 f else g

/-- Where the paths of a reissued instruction park. -/
def Pend.parks (p : Pend) (x : Path) : Path :=
  match p.instr with
  | .waita _ _ _ _ _ => { x with park := .waita p.id }
  | .lnchW _ _ _ => { x with park := .launchWait p.id }
  | .barWait _ => { x with park := .barrier p.id }
  | .barSync _ _ => { x with park := .barrier p.id }
  | .repack _ _ _ _ => { x with park := .barrier p.id }
  | _ => x

/-- An instruction put back into flight in its group: its flag rises in its paths, and they park on it where its kind
parks. -/
def Group.refly (g : Group) (p : Pend) : Group :=
  let g : Group := { g with pend := g.pend ++ [p] }
  let g := g.owned p (Path.rise p.flag)
  if p.isFaulted then g else g.owned p p.parks

/-- A barrier instruction back in flight: it arrives again, unless it only waits (R305). -/
def State.reissueBar (s : State) (g : Group) (p : Pend) : Group × State :=
  let waits := fun (idx : Nat) (ph : Bool) (g : Group) (st : PendStatus) =>
    g.refly { p with aux := [idx, if ph then 1 else 0], stage := .atCore, status := st }
  if decide (p.status = .waitOnly) then
    let idx := nth p.aux 0 0
    if p.aux.length = 3 then
      (match s.team? g.team with
        | none => (g, s)
        | some t => (g, s.acquireBar t idx))
    else (waits idx (decide (nth p.aux 1 0 = 1)) g .waitOnly, s)
  else
    match s.bar g p.instr (p.opc g 0).toNat (p.opc g 1).toNat with
    | .fault =>
      let t : Trap := { cause := .barrier, pc := p.pc, seq := s.fresh }
      (g.refly { p with status := .faulted t }, { s with fresh := s.fresh + 1 })
    | .complete s g => (g, s)
    | .waits s g idx ph => (waits idx ph g .inFlight, s)

/-- The destinations of a reissued instruction that its handler has released are mapped again, and the return writes the new
registers (R107, R311). -/
def Group.remap (g : Group) (p : Pend) : Group × Pend :=
  let names := g.unmappedOf p
  let g := names.foldl Group.renameV g
  (g, { p with regs := ((p.vdst.map (fun e => e.1)).zip p.regs).map (fun e =>
    if names.contains e.1 then ((nth g.v e.1 none).map VMap.reg).getD e.2 else e.2) })

/-- One instruction back in flight under its number, with the checks of its issue (R176, R311). -/
def State.reissue (s : State) (g : Group) (p : Pend) : Group × State :=
  match p.instr with
  | .barArrive _ _ => s.reissueBar g p
  | .barWait _ => s.reissueBar g p
  | .barSync _ _ => s.reissueBar g p
  | .repack k n _ _ =>
    if s.repackFault g k.val n.val then
      let t : Trap := { cause := .barrier, pc := p.pc, seq := s.fresh }
      (g.refly { p with status := .faulted t }, { s with fresh := s.fresh + 1 })
    else (g.refly { p with status := .inFlight }, s)
  | _ =>
    if decide (p.status = .waitOnly) then (g.refly p, s)
    else
      let (g, p) := g.remap p
      let (p, s) := s.checkPend g { p with status := .inFlight, stage := .queued, served := none }
      (g.refly p, s)

/-- Instructions back in flight, the first first. -/
def State.reissueAll (s : State) (g : Group) : List Pend → Group × State
  | [] => (g, s)
  | p :: l =>
    let (g, s) := s.reissue g p
    s.reissueAll g l

/-! ### TRET (R311) -/

/-- A path record read back (Table 21.4): none when it does not pass the checks of R311. LEFT 0 stands for 16. -/
def recordPath (full : DWord) (x : Nat) : Option (Option Path) :=
  if bits x 157 156 ≠ 0 then none
  else if !x.testBit 159 then some none
  else
    let flag := fun (c : Nat) => if h : c < 12 then some (⟨c, h⟩ : Fin 12) else none
    let pj : Word := BitVec.ofNat 32 (bits x 63 32)
    let mask : DWord := BitVec.ofNat 64 (bits x 127 64)
    let mode : Half := BitVec.ofNat 16 (bits x 143 128)
    let pc : Word := BitVec.ofNat 32 (bits x 31 0)
    let left := if bits x 155 152 = 0 then 16 else bits x 155 152
    if bits x 1 0 ≠ 0 || mask &&& ~~~full ≠ 0 || !modeOk mode then none
    else
      let mid := x.testBit 158
      let pjoin := if pj = 0xFFFFFFFF then none else some pj
      some (some
        { pc := pc, mask := mask, mode := mode, pjoin := pjoin, flags := noFlags,
          clause := if mid then some { seta := flag (bits x 147 144), setb := flag (bits x 151 148), left := left } else none })

/-- Reserved bits of a frame header are zero (Table 21.3). -/
def headerReserved (h : Nat) : Bool :=
  bits h 4095 1089 = 0 && bits h 1023 1016 = 0 && bits h 1007 1000 = 0 && bits h 535 512 = 0 && bits h 255 112 = 0 &&
    bits h 95 89 = 0 && bits h 63 48 = 0

/-- The two paths of a header, where the header passes the checks of R311. -/
def headerPaths (full : DWord) (ganged : Bool) (h : Nat) : Option (Option Path × Option Path) :=
  if bits h 31 0 = 0x00545246 && bits h 47 32 = 1 && decide (bits h 103 96 ≤ 24) && decide (bits h 111 104 ≤ 48) &&
      headerReserved h then
    match recordPath full (bits h 767 536), recordPath full (bits h 999 768) with
    | some p0, some p1 => if ganged && p1.isSome then none else some (p0, p1)
    | _, _ => none
  else none

/-- Little-endian value of n bytes of the frame, or the fault of the read. -/
def State.frameValue (s : State) (core : Nat) (c : Context) (x : XReg) (frame off n : Nat) : Except Trap Nat × State :=
  match s.readThrough core c x n (16384 * frame + off) with
  | (.ok l, s) => (.ok (leValue l), s)
  | (.error t, s) => (.error t, s)

/-- Words of an operand block. -/
def blockWords (x : Nat) : List Word := (upto 64).map (fun i => BitVec.ofNat 32 (bits x (32 * i + 31) (32 * i)))

/-- Operand blocks `base` to `base + n − 1` of a frame. -/
def State.frameBlocks (s : State) (core : Nat) (c : Context) (x : XReg) (frame base : Nat) : Nat →
    Except Trap (List (List Word)) × State
  | 0 => (.ok [], s)
  | n + 1 =>
    match s.frameValue core c x frame (3584 + 256 * base) 256 with
    | (.error t, s) => (.error t, s)
    | (.ok v, s) =>
      match s.frameBlocks core c x frame (base + 1) n with
      | (.error t, s) => (.error t, s)
      | (.ok l, s) => (.ok (blockWords v :: l), s)

/-- An entry of the private copy with the operand values of its frame (R309): a quad whose bits differ is untagged. -/
def Pend.withBlocks (p : Pend) (l : List (List Word)) : Pend :=
  let v := l.take p.vops.length
  let sc := ((nth l p.vops.length []).take p.sops.length)
  let sc := if p.sops.isEmpty then [] else sc
  { p with vops := v, sops := sc, stag := p.stag && decide (sc.take 4 = p.sops.take 4) }

/-- The entries of a frame that TRET reissues: DROP is honoured, and operand values are the frame's. `base` is the
entry's first operand block. -/
def State.frameEntries (s : State) (core : Nat) (c : Context) (x : XReg) (frame nent : Nat) : Nat → Nat → List Pend →
    Except Trap (List Pend) × State
  | _, _, [] => (.ok [], s)
  | i, base, p :: l =>
    if nent ≤ i then (.ok [], s)
    else
      match s.frameValue core c x frame (512 + 128 * i) 128 with
      | (.error t, s) => (.error t, s)
      | (.ok e, s) =>
        match s.frameBlocks core c x frame base p.blocks.length with
        | (.error t, s) => (.error t, s)
        | (.ok b, s) =>
          match s.frameEntries core c x frame nent (i + 1) (base + p.blocks.length) l with
          | (.error t, s) => (.error t, s)
          | (.ok rest, s) => (.ok (if e.testBit 68 then rest else p.withBlocks b :: rest), s)

/-- What TRET reads of a live frame: its header, and where that passes the checks of R311 its entries. -/
def State.readFrame (s : State) (g : Group) (half : Nat) (c : Context) (l : LiveFrame) :
    Except Trap (Nat × List Pend) × State :=
  match s.frameCap c with
  | none => (.error (mkTrap .bounds), s)
  | some x =>
    match s.frameValue g.core c x l.frame 0 512 with
    | (.error t, s) => (.error t, s)
    | (.ok h, s) =>
      match headerPaths (g.fullMask half) g.ganged h with
      | none => (.ok (h, []), s)
      | some _ =>
        match s.frameEntries g.core c x l.frame (bits h 103 96) 0 0 l.entries with
        | (.error t, s) => (.error t, s)
        | (.ok es, s) => (.ok (h, es), s)

/-- The tag of s60 to s63 after TRET: only where the private copy is tagged and its bits are unchanged (R309). -/
def LiveFrame.tagAfter (l : LiveFrame) (ssave : List Word) : Bool := l.stag && decide (ssave = l.ssave)

/-- A path that TRET restores: one whose record found it waiting at its pending join, with no JOIN word, waits there again where the
record still stands there (R122); any other runs, a record with MID 0 at the header that its PC names (R311). -/
def Path.restored (p : Path) (joined : Bool) (drain : List Nat) : Path :=
  { p with drain := drain, park := if joined && p.clause.isNone && decide (p.pjoin = some p.pc) then .join 0 else .running }

/-- SSAVE of a header. -/
def headerSsave (h : Nat) : List Word := (upto 4).map (fun i => BitVec.ofNat 32 (bits h (415 + 32 * i) (384 + 32 * i)))

/-- TRET (R311). -/
def execTret (s : State) : Result :=
  issue .tret (fun c =>
    match c.bank.live, c.s.contextOf c.g with
    | some l, some ctx =>
      if c.other.isSome || c.bank.spill.length ≠ l.spillDepth then .raise trIllegal
      else
        match c.s.readFrame c.g c.half ctx l with
        | (.error t, s) => .meets { c with s := s } t
        | (.ok (h, es), s) =>
          match headerPaths (c.g.fullMask c.half) c.g.ganged h with
          | none => .raise trIllegal
          | some (p0, p1) =>
            let has := fun (p : Pend) => if c.g.ganged then p0.isSome
              else (!p.owner0 || p0.isSome) && (!p.owner1 || p1.isSome)
            if !es.all has then .raise trIllegal
            else
              let ss := headerSsave h
              let b := c.bank.writeSList 60 ss
              let b : Bank := { b with stag := putNth false b.stag 15 (l.tagAfter ss), live := none }
              let p0 := p0.map (fun x => x.restored l.joined.1 l.drains.1)
              let p1 := p1.map (fun x => x.restored l.joined.2 l.drains.2)
              let g := c.g.setBank c.half b
              let g : Group := if g.ganged then g.setSlot c.half p0 else { g with slot0 := p0, slot1 := p1 }
              let g := if p0.isNone && p1.isNone then g.refill c.k b.spill else g
              let (g, s) := s.reissueAll g es
              .final { c with s := s, g := g } g
    | _, _ => .raise trIllegal) s

/-! ### Delivery -/

/-- TRAP_DELIVERY (R305 to R307, R310): of a group on a core, once its half is ready. -/
def execTrapDelivery (gid half : Nat) (s : State) : Result :=
  match s.group? gid with
  | none => .next s
  | some g => if g.resident && g.readyFrame half && !s.dieHeld (g.core / 64) then .next (s.takeTrap encode g half) else .next s

/-- PATH_STOP_TIMEOUT (R304): a path of a faulting half stops. (DEDUCED, log 51.) -/
def execPathStopTimeout (gid slot : Nat) (s : State) : Result :=
  match s.group? gid with
  | none => .next s
  | some g =>
    if g.faulting (g.half slot) then .next (s.setGroup (g.mapSlot slot (fun p => { p with stopped := true })))
    else .next s

/-! ### Service (R302) -/

/-- The state after an answer, and whether the access is replayed: an entry must make the page well-formed, and a
poisoned sector must be rewritten whole. Otherwise nothing is installed. -/
def State.answered (s : State) (c : Context) (t : Trap) (a : ServiceAnswer) : State × Bool :=
  match a, t.cause with
  | .mapped at_ e, .page =>
    let s' := s.writeBytes at_ (leBytes 8 e.toNat)
    (match s'.walk c t.faddr.toNat with
      | .leaf _ _ _ => (s', true)
      | .absent => (s, false)
      | .malformed => (s, false))
  | .rewritten sector bytes, .poison =>
    if bytes.length = 32 then (s.writeBytes (32 * sector) bytes, true) else (s, false)
  | _, _ => (s, false)

/-- What a replayed fetch, or a replayed read of a frame, meets. -/
def State.replayRead (s : State) (g : Group) (p : Pend) : PendStatus :=
  let met := match p.instr, (g.bank p.half).live, s.contextOf g with
    | .tret, some l, some c => (match s.readFrame g p.half c l with
        | (.error t, _) => some t
        | (.ok _, _) => none)
    | _, _, _ => (match s.fetch g p.pc with
        | .fault t _ => some t
        | .word _ _ => none)
  match met with
  | some t => pendFault t
  | none => .inFlight

/-- An answer for an instruction in flight: it is replayed with its checks, or faults (R302). A POISON that the replay meets again
is forwarded: at once where the checks meet it, else where the data is read again, or the unit reaches it again. -/
def State.answerPend (s : State) (g : Group) (p : Pend) (t : Trap) (replay : Bool) : State :=
  if !replay then s.forward g p t
  else if p.isFetch then
    if t.againIn (s.replayRead g p) then s.forward g p t
    else s.setGroup ({ g with pend := g.pend.filter (fun q => q.id ≠ p.id) }.owned p (fun x => { x with stopped := false }))
  else
    let r := s.checkPend g { p with status := .inFlight, served := some t }
    if t.againIn r.1.status then s.forward g p t
    else r.2.setGroup ((if r.1.isFaulted then g.wake p.id else g).setPend (p.keepTodo r.1))

/-- SERVICE_RESPONSE (R302, R238): for an instruction in flight, or for a copy request of a core. (DEDUCED, log 52.) -/
def execServiceResponse (gid id : Nat) (a : ServiceAnswer) (s : State) : Result :=
  match s.group? gid with
  | some g =>
    (match g.pend? id, s.contextOf g with
      | some p, some c =>
        (match p.status with
          | .service t =>
            let (s, replay) := s.answered c t a
            .next (s.answerPend g p t replay)
          | .inFlight => .next s
          | .faulted _ => .next s
          | .waitOnly => .next s)
      | _, _ => .next (copies s))
  | none => .next (copies s)
where
  /-- The copy request of that number. -/
  copies (s : State) : State :=
    match (upto s.cores.length).find? (fun k => (s.copyReq? k id).isSome) with
    | none => s
    | some k =>
      match s.copyReq? k id with
      | none => s
      | some r =>
        match r.service, s.context? r.ctx with
        | some t, some c =>
          let (s, replay) := s.answered c t a
          if replay && !s.copyPoison k c r then s.setCopyReq k { r with service := none }
          else s.stopCopy k r (t.unserviced s.fresh)
        | _, _ => s

end Sys2Proof.Machine
end

