-- ==== Sys2Proof/Machine/Matrix.lean ====
section
/-! DEFINITION. The matrix engine: operand maps (R246, R247, R50, R53), the loft and the accumulator store (R243, R245),
MLOADB, MLOOP, MDRAIN, MDRAINV, MZERO, MSCALE and VXM (R248 to R259). -/
namespace Sys2Proof.Machine

/-! ### Operand maps -/

/-- An operand map (Table 16.2). -/
structure OpMap where
  sstride : Nat
  sbase : Nat
  base : Nat
  stride : Nat
  klen : Nat
  rows : Nat
  swz : Nat
  scaled : Bool
  fmt : Nat
  deriving DecidableEq, Repr

/-- A map from its bits. -/
def opMap (x : Nat) : OpMap :=
  { sstride := bits x 191 160, sbase := bits x 159 128, base := bits x 127 96, stride := bits x 95 64, klen := bits x 63 32,
    rows := bits x 31 16, swz := bits x 6 5, scaled := x.testBit 4, fmt := bits x 3 0 }

/-- The map of some bits is valid. -/
def opMapValid (x : Nat) : Bool :=
  let m := opMap x
  bits x 255 192 = 0 && bits x 15 7 = 0 && m.base % 16 = 0 && m.stride % 16 = 0 && decide (1 ≤ m.klen) &&
    decide (1 ≤ m.rows) && decide (m.swz ≤ 1) && decide (m.fmt ≤ 6) && !(m.fmt = 6 && m.scaled)

/-- Whether E8M0 scales apply. -/
def OpMap.hasScales (m : OpMap) : Bool := m.scaled || decide (m.fmt = 5)

/-- A magnitude bits of R56. -/
def OpMap.wBits (m : OpMap) : Nat :=
  match m.fmt with
  | 0 => 16 | 1 => 16 | 2 => 8 | 3 => 8 | _ => 4

/-- Logical byte offset and number of bytes of element e of a row. -/
def OpMap.place (m : OpMap) (e : Nat) : Nat × Nat :=
  match m.fmt with
  | 0 => (2 * e, 2) | 1 => (2 * e, 2) | 2 => (e, 1) | 3 => (e, 1) | 6 => (e, 1)
  | 4 => (e / 2, 1)
  | _ => (2 * (e / 8), 2)

/-- Scratchpad offset of a logical byte of a row (R247). -/
def OpMap.byteAt (m : OpMap) (r o : Nat) : Nat :=
  m.base + r * m.stride + (if m.swz = 1 then o ^^^ (16 * (r % 8)) else o)

/-- The element is read at all: others are +0. -/
def OpMap.inside (m : OpMap) (r e : Nat) : Bool := decide (e < m.klen) && decide (r < m.rows)

/-- Scratchpad offsets that element e of row r reads. -/
def OpMap.reads (m : OpMap) (r e : Nat) : List Nat :=
  if m.inside r e then
    let (o, n) := m.place e
    (upto n).map (fun i => m.byteAt r (o + i)) ++ (if m.hasScales then [m.sbase + r * m.sstride + e / 32] else [])
  else []

/-- Weight j of a VQ8 index (R53), as an integer in halves. -/
def vq8Weight (idx j : Nat) : Int :=
  let mag := (if idx.testBit j then 3 else 1) * (if idx.testBit 15 then 2 else 1)
  let neg := if j < 7 then idx.testBit (8 + j)
    else decide (((upto 7).filter (fun i => idx.testBit (8 + i))).length % 2 = 1)
  if neg then -(mag : Int) else mag

/-- A value times an E8M0 scale (R50). -/
def scaleBy (v : FVal) (e : Nat) : FVal :=
  if e = 255 then .nan false
  else match v with
    | .fin n m x => .fin n m (x + (e : Int) - 127)
    | .nan s => .nan s
    | .inf n => .inf n

/-- Element e of row r of a map in a team's window. -/
def State.mapElem (s : State) (t : Team) (m : OpMap) (r e : Nat) : FVal :=
  if !m.inside r e then .fin false 0 0
  else
    let (o, n) := m.place e
    let raw := leValue ((upto n).map (fun i => s.scratchByte t (m.byteAt r (o + i))))
    let v := match m.fmt with
      | 0 => FFmt.fp16.value raw
      | 1 => FFmt.bf16.value raw
      | 2 => FFmt.e4m3.value raw
      | 3 => FFmt.e5m2.value raw
      | 4 => FFmt.e2m1.value (if e % 2 = 0 then raw % 16 else raw / 16)
      | 6 => intVal (toSigned 8 raw)
      | _ =>
        let w := vq8Weight raw (e % 8)
        .fin (decide (w < 0)) w.natAbs (-1)
    if m.hasScales then scaleBy v (s.scratchByte t (m.sbase + r * m.sstride + e / 32)).toNat else v

/-- A K group of a row: 32 consecutive elements. -/
def State.mapGroup (s : State) (t : Team) (m : OpMap) (r e0 : Nat) : List FVal :=
  (upto 32).map (fun i => s.mapElem t m r (e0 + i))

/-- Offsets that a K group reads. -/
def OpMap.groupReads (m : OpMap) (r e0 : Nat) : List Nat := (upto 32).flatMap (fun i => m.reads r (e0 + i))

/-! ### The loft -/

/-- A region of a team's loft (R243). -/
def Team.region (t : Team) (plane k n : Nat) : LoftRegion :=
  (t.loft.find? (fun r => r.plane = plane && r.k = k && r.n = n)).getD
    { plane := plane, k := k, n := n, integer := false, cells := List.replicate 1024 0, eb := List.replicate 32 0,
      exceptional := List.replicate 32 false }

/-- A region written whole. -/
def Team.setRegion (t : Team) (r : LoftRegion) : Team :=
  { t with loft := r :: t.loft.filter (fun q => !(q.plane = r.plane && q.k = r.k && q.n = r.n)) }

/-- A value is a NaN or an infinity. -/
def FVal.special (v : FVal) : Bool :=
  match v with
  | .nan _ => true
  | .inf _ => true
  | .fin _ _ _ => false

/-- The integer of an i8 element. -/
def FVal.asInt (v : FVal) : Int :=
  match v with
  | .fin n m _ => sgn n m
  | .nan _ => 0
  | .inf _ => 0

/-- A region from its 32 columns of 32 elements (R249). -/
def loadRegion (plane k n : Nat) (integer : Bool) (cols : List (List FVal)) : LoftRegion :=
  let aligned := cols.map (fun b => if integer then (0, b.map FVal.asInt) else dotAlign 8 b)
  { plane := plane, k := k, n := n, integer := integer,
    cells := (upto 1024).map (fun x => nth (nth aligned (x % 32) (0, [])).2 (x / 32) 0),
    eb := aligned.map (fun a => a.1),
    exceptional := cols.map (fun b => !integer && b.any FVal.special) }

/-- An accumulator cell. -/
def Team.accCell (t : Team) (row col : Nat) : Word := assoc t.acc (512 * row + col) 0

/-- An accumulator cell written; an unlisted one is zero. -/
def Team.setAcc (t : Team) (row col : Nat) (w : Word) : Team :=
  { t with acc := if w = 0 then assocErase (512 * row + col) t.acc else assocSet (512 * row + col) w t.acc }

/-! ### Checks (R248) -/

/-- A fault of a command: no lane is named. -/
def cmdTrap (c : Cause) (faddr : Nat) : Trap := { cause := c, faddr := BitVec.ofNat 64 faddr }

/-- An offset that passes the window. -/
def Team.beyond (t : Team) (l : List Nat) : Option Nat := l.find? (fun o => decide (t.scratchSize ≤ o))

/-- A poisoned word among offsets (R346). -/
def Team.poisonedAt (t : Team) (l : List Nat) : Option Nat := l.find? (fun o => t.poisoned o 1)

/-- The word's reserved bits are zero. -/
def zeroBits (w : Word) (hi lo : Nat) : Bool := bits w.toNat hi lo = 0

/-- The region range and plane of a region word fit the team's loft (R249, R250). -/
def Team.rangeOk (t : Team) (w : Nat) : Bool :=
  decide (bits w 11 8 + bits w 15 12 ≤ (if t.loftMode = 2 then 7 else 15)) && (w.testBit 16 → t.loftMode = 2)

/-- A command's operand map and the checks that read it: MISALIGN, BOUNDS of the map and of `reads`, MATRIX where `ok`
fails or the map is invalid, and a poisoned word last. -/
def State.mapChecks (s : State) (t : Team) (off : Nat) (reads : OpMap → List Nat) (ok : OpMap → Bool) :
    Except Trap OpMap :=
  if off % 32 ≠ 0 then .error (cmdTrap .misalign off)
  else if t.scratchSize < off + 32 then .error (cmdTrap .bounds off)
  else
    let x := leValue (s.scratchRead t off 32)
    let m := opMap x
    if opMapValid x then
      match t.beyond (reads m) with
      | some o => .error (cmdTrap .bounds o)
      | none =>
        if !ok m then .error (cmdTrap .matrix 0)
        else match t.poisonedAt (reads m) with
          | some o => .error { cmdTrap .poison o with sub := 0xFF }
          | none => .ok m
    else .error (cmdTrap .matrix 0)

/-! ### The commands -/

/-- MLOADB (R249). -/
def State.mloadb (s : State) (t : Team) (w0 w1 : Word) : Except Trap State :=
  let x := w1.toNat
  let k0 := bits x 2 0
  let n0 := bits x 11 8
  let plane := bits x 16 16
  let kcol := bits x 31 20
  let ks := upto (bits x 6 4 + 1)
  let ns := upto (bits x 15 12 + 1)
  let reads := fun (m : OpMap) => ks.flatMap (fun k => ns.flatMap (fun n => (upto 32).flatMap (fun j =>
    m.groupReads (32 * n + j) (32 * (kcol + k)))))
  let ok := fun (_ : OpMap) => t.loftMode ≠ 0 && zeroBits w0 31 19 && zeroBits w1 19 17 && zeroBits w1 7 7 &&
    zeroBits w1 3 3 && decide (k0 + bits x 6 4 ≤ 7) && t.rangeOk x
  match s.mapChecks t (bits w0.toNat 18 0) reads ok with
  | .error e => .error e
  | .ok m =>
    let t := ks.foldl (fun (t : Team) k => ns.foldl (fun (t : Team) n =>
      t.setRegion (loadRegion plane (k0 + k) (n0 + n) (decide (m.fmt = 6))
        ((upto 32).map (fun j => s.mapGroup t m (32 * n + j) (32 * (kcol + k)))))) t) t
    .ok (s.setTeam t)

/-- One K group of MLOOP for one cell (R56, R57). `a` is the aligned row group with its exponent, `special` says that it
holds a NaN or an infinity. -/
def mloopStep (integer special : Bool) (wa : Nat) (q acc : Word) (a : Int × List Int) (r : LoftRegion) (j : Nat) : Word :=
  let col := (upto 32).map (fun i => nth r.cells (32 * i + j) 0)
  let sum := dotSum a.2 col
  if integer then BitVec.ofInt 32 (acc.toInt + sum)
  else
    let g : Word := if special || nth r.exceptional j false then 0x7FC00000
      else rne32 (decide (sum < 0)) sum.natAbs (a.1 - wa + 1 + nth r.eb j 0 - 7)
    add32 acc (mul32 g q)

/-- MLOOP (R250). -/
def State.mloop (s : State) (t : Team) (w : List Word) (q : Word) : Except Trap State :=
  let w0 := nth w 0 0
  let w1 := nth w 1 0
  let w2 := nth w 2 0
  let w3 := nth w 3 0
  let row0 := bits w1.toNat 13 8
  let mRows := bits w1.toNat 7 0
  let acol := bits w2.toNat 31 16
  let ainc := bits w2.toNat 15 8
  let steps := bits w2.toNat 3 0
  let x := w3.toNat
  let plane := bits x 16 16
  let n0 := bits x 11 8
  let kr := bits x 6 4 + 1
  let k0 := bits x 2 0
  let nr := bits x 15 12 + 1
  let pairs := (upto steps).flatMap (fun st => (upto kr).map (fun r => (st, r)))
  let e0 := fun (p : Nat × Nat) => 32 * (acol + p.1 * ainc + p.2)
  let kOf := fun (p : Nat × Nat) => k0 + p.1 * kr + p.2
  let reads := fun (m : OpMap) => (upto mRows).flatMap (fun r => pairs.flatMap (fun p => m.groupReads r (e0 p)))
  let ok := fun (m : OpMap) =>
    t.loftMode ≠ 0 && zeroBits w0 31 19 && zeroBits w1 31 14 && zeroBits w2 7 4 && zeroBits w3 31 21 && zeroBits w3 7 7 &&
    zeroBits w3 3 3 && decide (8 ≤ mRows) && decide (mRows ≤ 64) && mRows % 8 = 0 && decide (row0 + mRows ≤ t.accrows) &&
    decide (1 ≤ steps) && decide (steps ≤ 8) && decide (k0 + steps * kr ≤ 8) && t.rangeOk x &&
    pairs.all (fun p => (upto nr).all (fun n => (t.region plane (kOf p) (n0 + n)).integer == decide (m.fmt = 6)))
  match s.mapChecks t (bits w0.toNat 18 0) reads ok with
  | .error e => .error e
  | .ok m =>
    let integer := decide (m.fmt = 6)
    let t' := (upto mRows).foldl (fun (acc : Team) r =>
      let groups := pairs.map (fun p =>
        let a := s.mapGroup t m r (e0 p)
        (p, if integer then (0, a.map FVal.asInt) else dotAlign m.wBits a, !integer && a.any FVal.special))
      (upto (32 * nr)).foldl (fun (acc : Team) c =>
        let col := 32 * n0 + c
        let at_ := if t.loftMode = 2 then 256 * plane + col else col
        let start := if x.testBit 20 then acc.accCell (row0 + r) at_ else 0
        let v := groups.foldl (fun (v : Word) g =>
          mloopStep integer g.2.2 m.wBits q v g.2.1 (t.region plane (kOf g.1) (col / 32)) (col % 32)) start
        acc.setAcc (row0 + r) at_ v) acc) t
    .ok (s.setTeam t')

/-- Bytes of a drained cell, and its conversion (R252). -/
def drainBytes (conv : Nat) (sat : Bool) (w : Word) : List Byte :=
  match conv with
  | 0 => leBytes 4 w.toNat
  | 1 => leBytes 2 (toFloat .fp16 0 sat (f32 w)).1
  | 2 => leBytes 2 (toFloat .bf16 0 sat (f32 w)).1
  | 3 => leBytes 1 (toFloat .e4m3 0 sat (f32 w)).1
  | 4 => leBytes 1 (toFloat .e5m2 0 sat (f32 w)).1
  | _ => leBytes 4 (toFloat .fp32 0 sat (intVal w.toInt)).1

/-- Bytes of a cell for each conversion. -/
def drainSize (conv : Nat) : Nat :=
  match conv with
  | 1 => 2 | 2 => 2 | 3 => 1 | 4 => 1 | _ => 4

/-- Writes of scratchpad bytes by an engine, as rows at offsets; TCOPY where the copies of frozen lines do not fit, with the first line,
in the order of the rows, that has no room (R146, R248; DEDUCED, log 55). -/
def State.engineWrites (s : State) (t : Team) (rows : List (Nat × List Byte)) : Except Trap State :=
  let lines := distinct (rows.flatMap (fun r => s.linesToCopy t r.1 r.2.length))
  if t.reserveFor lines.length then
    .ok (rows.foldl (fun (s : State) r => s.scratchWrite t.id r.1 r.2) s)
  else
    .error (cmdTrap .tcopy (128 * nth lines t.room 0))

/-- MDRAIN (R252). -/
def State.mdrain (s : State) (t : Team) (w0 w1 w2 : Word) : Except Trap State :=
  let dst := bits w0.toNat 18 0
  let dstride := bits w1.toNat 18 0
  let x := w2.toNat
  let conv := bits x 26 24
  let e := drainSize conv
  let rows := bits x 13 8 + 1
  let cols := 32 * (bits x 23 20 + 1)
  if dst % 16 ≠ 0 ∨ dstride % 16 ≠ 0 then .error (cmdTrap .misalign (if dst % 16 ≠ 0 then dst else dstride))
  else if t.scratchSize < dst + (rows - 1) * dstride + cols * e then .error (cmdTrap .bounds dst)
  else if t.accrows = 0 || !zeroBits w0 31 19 || !zeroBits w1 31 19 || !zeroBits w2 31 28 || !zeroBits w2 15 14 ||
      !zeroBits w2 7 6 || decide (5 < conv) || decide (15 < bits x 19 16 + bits x 23 20) ||
      decide (t.accrows ≤ bits x 5 0 + bits x 13 8) then .error (cmdTrap .matrix 0)
  else
    s.engineWrites t ((upto rows).map (fun i =>
      (dst + i * dstride, (upto cols).flatMap (fun c =>
        drainBytes conv (x.testBit 27) (t.accCell (bits x 5 0 + i) (32 * bits x 19 16 + c))))))

/-- MZERO (R254). -/
def State.mzero (s : State) (t : Team) (a b : Nat) : Except Trap State :=
  if t.accrows = 0 ∨ b = 0 ∨ t.accrows < a + b then .error (cmdTrap .matrix 0)
  else .ok (s.setTeam { t with acc := t.acc.filter (fun e => !(decide (a ≤ e.1 / 512) && decide (e.1 / 512 < a + b))) })

/-- MDRAINV's checks and values (R253). -/
def Team.mdrainv (t : Team) (a b : Nat) : Except Trap (Nat → Word) :=
  if 511 < a ∨ t.accrows ≤ b then .error (cmdTrap .matrix 0)
  else .ok (fun lane => if t.accrows ≤ b + lane then 0 else t.accCell (b + lane) a)

/-! ### VXM (R256) -/

/-- Outputs of VXM for the inputs and weights of one lane: 32 FP16 encodings. -/
def vxmRow (rnd : Nat) (sat : Bool) (xs : List FVal) (w : List FVal) : List Nat :=
  let (ea, ia) := dotAlign 16 xs
  let bad := xs.any FVal.special
  (upto 32).map (fun j =>
    let col := (upto 32).map (fun i => nth w (32 * i + j) (.fin false 0 0))
    if bad || col.any FVal.special then 0x7E00
    else
      let (eb, ib) := dotAlign 8 col
      let sum := dotSum ia ib
      (roundFin .fp16 rnd sat (decide (sum < 0)) sum.natAbs (ea - 16 + 1 + eb - 7) false).1)

/-- The offset of a lane's block: a null lane has 0xFFFF_FFFF. -/
def Pend.vxmOffset (p : Pend) (g : Group) (lane : Nat) : Word := p.op g .control 16 lane

/-- VXM performed: its checks over every lane that is not null, or its registers and p6, in any order of lanes (R22). -/
def State.vxm (s : State) (g : Group) (p : Pend) (part : Nat) : State :=
  match s.contextOf g with
  | none => s
  | some c =>
    let x7 := p.xcap.getD {}
    let lanes := lanesIn p.lmask
    let live := lanes.filter (fun l => p.vxmOffset g l ≠ 0xFFFFFFFF)
    let checks := live.map (fun l => (l, s.checkAccess g.core c x7 .load true 64 2048 (p.vxmOffset g l).toNat))
    let s := (s.markLanes g.core c.id false checks).nextFree
    match laneFault checks with
    | some t => s.faultPend g p t
    | none =>
      let s := s.chargeAccess g (runSectors (checks.flatMap (fun e => match e.2 with
        | .ok runs _ => runs
        | .bad _ _ _ _ _ => [])))
      let outs := checks.filterMap (fun e => match e.2 with
        | .ok runs _ =>
          let raw := s.readRuns runs
          let w := (blocks 2 1024 raw).map (fun b => FFmt.fp16.value (leValue b))
          let xs := (upto 32).map (fun i =>
            FFmt.fp16.value (elemNat (p.op g .control (i / 2) e.1) 16 (i % 2)))
          some (e.1, vxmRow (modeRnd p.mode) (modeSat p.mode) xs w)
        | .bad _ _ _ _ _ => none)
      match s.group? g.id with
      | none => s
      | some g =>
        let val := fun (n lane : Nat) =>
          match outs.find? (fun o => o.1 = lane) with
          | none => (0 : Word)
          | some o => ofElems 16 [nth o.2 (2 * n) 0, nth o.2 (2 * n + 1) 0]
        let found := (p.vdst.length, p.lmask, tabulate (fun l => if live.contains l then (1 : Word) else 0))
        s.deliver g { p with due := p.dueAll val ++ [found], todo := [] } part

/-! ### Issue -/

/-- A group command over the full active mask (R248). -/
def flyCommand (i : Instr) (s : State) : Result :=
  issue i (fun c => .done (c.fly i c.p.mask (fun _ p => p)).1) s

/-- MLOADB (R249). -/
def execMloadb (a : Fin 64) (s : State) : Result := flyCommand (.mloadb a) s

/-- MLOOP (R250): q[Q] is captured at issue. -/
def execMloop (a : Fin 64) (s : State) : Result :=
  issue (.mloop a) (fun c => .done (c.fly (.mloop a) c.p.mask (fun c p =>
    { p with qcap := nth c.bank.q (bits (c.bank.sreg (a.val + 3)).toNat 19 17) 0 })).1) s

/-- MDRAIN (R252). -/
def execMdrain (a : Fin 64) (s : State) : Result := flyCommand (.mdrain a) s

/-- MDRAINV (R253): every lane of the group, or of the half, is written; the operands come from the lowest active
lane. -/
def execMdrainv (d : Fin 64) (a b : Src) (s : State) : Result :=
  issue (.mdrainv d a b) (fun c => .done (c.fly (.mdrainv d a b) (c.g.fullMask c.half) (fun c p =>
    { p with aux := [lowestLane c.p.mask] })).1) s

/-- MZERO (R254). -/
def execMzero (a b : Src) (s : State) : Result := flyCommand (.mzero a b) s

/-- MSCALE (R255): it completes at issue. -/
def execMscale (q : Fin 8) (a : Src) (s : State) : Result :=
  issue (.mscale q a) (fun c =>
    let rs := (Instr.mscale q a).reads c.p.mode
    let v := c.control a c.p.mask
    let c := (c.noteReads rs).releaseReads rs []
    .done (c.setBank { c.bank with q := putNth 0 c.bank.q q.val v })) s

/-- VXM (R256). -/
def execVxm (d a : Fin 64) (last : Bool) (b : Src) (s : State) : Result := flyChecked (.vxm d a last b) s

/-! ### Completion -/

/-- A matrix-engine instruction. -/
def isMatrix : Instr → Bool
  | .mloadb _ => true
  | .mloop _ => true
  | .mdrain _ => true
  | .mdrainv _ _ _ => true
  | .mzero _ _ => true
  | .vxm _ _ _ _ => true
  | _ => false

/-- A command may be performed: the group's earlier commands and scratchpad accesses are done (R248, R257), and the
team's matrix work is not in a save image (R258). -/
def State.engineTurn (s : State) (g : Group) (p : Pend) : Bool :=
  g.resident && !((s.team? g.team).map Team.preempted).getD false &&
    (g.before p).all (fun q => q.readDone || (!isMatrix q.instr && (!isScratch q.instr || isWaita q.instr)))

/-- A team's scratchpad put back, as another command left it. -/
def State.setScratch (s : State) (t : Team) : State :=
  { s with teams := s.teams.map (fun u => if u.id = t.id then { u with scratch := t.scratch, copied := t.copied } else u) }

/-- The team as an MLOOP sees its scratchpad: each byte that was written since an earlier moment is seen as it was then or as it
is, as the free values have it (R251). -/
def State.mloopTeam (s : State) (t : Team) (p : Pend) : Team :=
  match p.seen with
  | none => t
  | some (cells, copied) =>
    let then_ : Team := { t with scratch := cells, copied := copied }
    let lines := t.copied.filter (fun l => !copied.contains l)
    let addrs := distinct (cells.map Prod.fst ++ t.scratch.map Prod.fst ++ lines.flatMap (fun l => (upto 128).map (128 * l + ·)))
    { t with scratch := memWriteList [] (addrs.map (fun a =>
      (a, if Config.showsEarlier s.freeCount a then s.scratchByte then_ a else s.scratchByte t a))) }

/-- A command without a register: its fault, or its effect and completion. -/
def State.commandDone (s : State) (g : Group) (p : Pend) (r : Except Trap State) : State :=
  match r with
  | .error t => s.faultPend g p t
  | .ok s => s.completePend g.id p.id

/-- An MLOOP reads some bytes of A now and the others later, or completes (R251); which is free. -/
def State.mloopTurn (s : State) (g : Group) (p : Pend) (t : Team) : State :=
  let u := s.mloopTeam t p
  if Config.freeNat s.freeCount % 2 = 1 then s.nextFree.setGroup (g.setPend { p with seen := some (u.scratch, u.copied) })
  else s.nextFree.commandDone g p ((s.nextFree.mloop u ((upto 4).map (p.opc g)) p.qcap).map (fun v => v.setScratch t))

/-- ENGINE_COMMAND_COMPLETE (R248): a command is performed and completes, or faults with no effect. (DESIGN CHOICE, logs 18 and 19.) -/
def execEngineCommandComplete (gid id : Nat) (s : State) : Result :=
  match s.group? gid with
  | none => .next s
  | some g =>
    match g.pend? id, s.team? g.team with
    | some p, some t =>
      if !p.due.isEmpty then .next (s.deliver g p (Config.freeNat s.freeCount))
      else if !p.active || !s.engineTurn g p then .next s
      else
        match p.instr with
        | .mloadb _ => .next (s.commandDone g p (s.mloadb t (p.opc g 0) (p.opc g 1)))
        | .mloop _ => .next (s.mloopTurn g p t)
        | .mdrain _ => .next (s.commandDone g p (s.mdrain t (p.opc g 0) (p.opc g 1) (p.opc g 2)))
        | .mzero _ _ => .next (s.commandDone g p (s.mzero t (p.opc g 0).toNat (p.opc g 1).toNat))
        | .mdrainv _ _ _ =>
          let lane := nth p.aux 0 0
          (match t.mdrainv (p.op g .control 0 lane).toNat (p.op g .control 1 lane).toNat with
            | .error e => .next (s.faultPend g p e)
            | .ok f => .next (s.returnAll gid p (Config.freeNat s.freeCount) (fun _ l => f (g.laneIndex l))))
        | .vxm _ _ _ _ => if s.unitWaits g then .next s else .next (s.vxm g p (Config.freeNat s.freeCount))
        | _ => .next s
    | _, _ => .next s

end Sys2Proof.Machine
end

