-- ==== Sys2Proof/Machine/Blocks.lean ====
section
/-! DEFINITION. The block formats that R206 names by their published specifications: BC6H (unsigned), BC7 and ASTC 4 × 4 LDR, one
texel of a block at a time. `x` is the block's 128 bits, `t` the texel's index 4 y + x. (PRESUMED, log 12: the tables and the
arithmetic are those of the published specifications, which the manual does not repeat.) -/
namespace Sys2Proof.Machine

/-! ### Tables of BC6H and BC7 -/

/-- The subset of each texel in a two-subset partition: bit t is the subset of texel t (BC6H, BC7). -/
def bcPart2 : List Nat :=
  [52428, 34952, 61166, 60616, 51328, 65260, 65224, 60544] ++
  [51200, 65516, 65152, 59392, 65512, 65280, 65520, 61440] ++
  [63248, 142, 28928, 2254, 140, 29456, 12544, 36046] ++
  [2188, 12560, 26214, 13932, 6120, 4080, 29070, 14748] ++
  [43690, 61680, 23130, 13260, 15420, 21930, 38550, 42330] ++
  [29646, 5064, 12876, 15324, 27030, 49980, 39270, 1632] ++
  [626, 1252, 20032, 10016, 51510, 37740, 14790, 25500] ++
  [37686, 40134, 33150, 59160, 52464, 4044, 30532, 60962]

/-- Three subsets: digit t, of base 4, is the subset of texel t (BC7). -/
def bcPart3 : List Nat :=
  [2858963024, 1784303680, 1515864576, 1414570152, 2779054080, 2694860880, 1431675040, 1515868240] ++
  [2857697280, 2857719040, 2863289600, 2425393296, 2492765332, 2762253476, 2846200912, 705315408] ++
  [2777960512, 172118100, 2779096320, 1436590240, 2829603924, 1785348160, 2762231808, 437912832] ++
  [5285028, 2862977168, 342452500, 1768494080, 2693105056, 2860651540, 1352967248, 1784283648] ++
  [2846195712, 1351655592, 2829094992, 606348324, 11162880, 613566756, 608801316, 1352993360] ++
  [1342874960, 2863285316, 1717960704, 2778768800, 1352683680, 1764256040, 1152035396, 1717986816] ++
  [2856600644, 1420317864, 2508232064, 2526451200, 2824098984, 2157286784, 2853442580, 2526412800] ++
  [2863272980, 2689618080, 2695210400, 2516582400, 1082146944, 2846402984, 2863311428, 709513812]

/-- The anchor of subset 1 of two; of subsets 1 and 2 of three. -/
def bcAnchor2 : List Nat :=
  [15, 15, 15, 15, 15, 15, 15, 15, 15, 15, 15, 15, 15, 15, 15, 15, 15, 2, 8, 2, 2, 8, 8, 15, 2, 8, 2, 2, 8, 8, 2, 2] ++
  [15, 15, 6, 8, 2, 8, 15, 15, 2, 8, 2, 2, 2, 15, 15, 6, 6, 2, 6, 8, 15, 15, 2, 2, 15, 15, 15, 15, 15, 2, 2, 15]

/-- Subset 1 of three. -/
def bcAnchor3a : List Nat :=
  [3, 3, 15, 15, 8, 3, 15, 15, 8, 8, 6, 6, 6, 5, 3, 3, 3, 3, 8, 15, 3, 3, 6, 10, 5, 8, 8, 6, 8, 5, 15, 15] ++
  [8, 15, 3, 5, 6, 10, 8, 15, 15, 3, 15, 5, 15, 15, 15, 15, 3, 15, 5, 5, 5, 8, 5, 10, 5, 10, 8, 13, 15, 12, 3, 3]

/-- Subset 2 of three. -/
def bcAnchor3b : List Nat :=
  [15, 8, 8, 3, 15, 15, 3, 8, 15, 15, 15, 15, 15, 15, 15, 8, 15, 8, 15, 3, 15, 8, 15, 8, 3, 15, 6, 10, 15, 15, 10, 8] ++
  [15, 3, 15, 10, 10, 8, 9, 10, 6, 15, 8, 15, 3, 6, 6, 8, 15, 3, 15, 15, 15, 15, 15, 15, 15, 15, 15, 15, 3, 15, 15, 8]

/-- A mode of BC6H: bits of the base endpoint, of the others by channel, whether those are differences, and its fields in the order
of the block: endpoint value (3 × endpoint + channel), lowest bit, bits. A reserved mode has none. -/
def bc6Mode (m : Nat) : Nat × List Nat × Bool × List (Nat × Nat × Nat) :=
  match m with
  | 0 => (10, [5, 5, 5], true,
    [(7, 4, 1), (8, 4, 1), (11, 4, 1), (0, 0, 10), (1, 0, 10), (2, 0, 10), (3, 0, 5), (10, 4, 1), (7, 0, 4),
     (4, 0, 5), (11, 0, 1), (10, 0, 4), (5, 0, 5), (11, 1, 1), (8, 0, 4), (6, 0, 5), (11, 2, 1), (9, 0, 5),
     (11, 3, 1)])
  | 1 => (7, [6, 6, 6], true,
    [(7, 5, 1), (10, 4, 1), (10, 5, 1), (0, 0, 7), (11, 0, 1), (11, 1, 1), (8, 4, 1), (1, 0, 7), (8, 5, 1),
     (11, 2, 1), (7, 4, 1), (2, 0, 7), (11, 3, 1), (11, 5, 1), (11, 4, 1), (3, 0, 6), (7, 0, 4), (4, 0, 6),
     (10, 0, 4), (5, 0, 6), (8, 0, 4), (6, 0, 6), (9, 0, 6)])
  | 2 => (11, [5, 4, 4], true,
    [(0, 0, 10), (1, 0, 10), (2, 0, 10), (3, 0, 5), (0, 10, 1), (7, 0, 4), (4, 0, 4), (1, 10, 1), (11, 0, 1),
     (10, 0, 4), (5, 0, 4), (2, 10, 1), (11, 1, 1), (8, 0, 4), (6, 0, 5), (11, 2, 1), (9, 0, 5), (11, 3, 1)])
  | 6 => (11, [4, 5, 4], true,
    [(0, 0, 10), (1, 0, 10), (2, 0, 10), (3, 0, 4), (0, 10, 1), (10, 4, 1), (7, 0, 4), (4, 0, 5), (1, 10, 1),
     (10, 0, 4), (5, 0, 4), (2, 10, 1), (11, 1, 1), (8, 0, 4), (6, 0, 4), (11, 0, 1), (11, 2, 1), (9, 0, 4),
     (7, 4, 1), (11, 3, 1)])
  | 10 => (11, [4, 4, 5], true,
    [(0, 0, 10), (1, 0, 10), (2, 0, 10), (3, 0, 4), (0, 10, 1), (8, 4, 1), (7, 0, 4), (4, 0, 4), (1, 10, 1),
     (11, 0, 1), (10, 0, 4), (5, 0, 5), (2, 10, 1), (8, 0, 4), (6, 0, 4), (11, 1, 1), (11, 2, 1), (9, 0, 4),
     (11, 4, 1), (11, 3, 1)])
  | 14 => (9, [5, 5, 5], true,
    [(0, 0, 9), (8, 4, 1), (1, 0, 9), (7, 4, 1), (2, 0, 9), (11, 4, 1), (3, 0, 5), (10, 4, 1), (7, 0, 4),
     (4, 0, 5), (11, 0, 1), (10, 0, 4), (5, 0, 5), (11, 1, 1), (8, 0, 4), (6, 0, 5), (11, 2, 1), (9, 0, 5),
     (11, 3, 1)])
  | 18 => (8, [6, 5, 5], true,
    [(0, 0, 8), (10, 4, 1), (8, 4, 1), (1, 0, 8), (11, 2, 1), (7, 4, 1), (2, 0, 8), (11, 3, 1), (11, 4, 1),
     (3, 0, 6), (7, 0, 4), (4, 0, 5), (11, 0, 1), (10, 0, 4), (5, 0, 5), (11, 1, 1), (8, 0, 4), (6, 0, 6),
     (9, 0, 6)])
  | 22 => (8, [5, 6, 5], true,
    [(0, 0, 8), (11, 0, 1), (8, 4, 1), (1, 0, 8), (7, 5, 1), (7, 4, 1), (2, 0, 8), (10, 5, 1), (11, 4, 1),
     (3, 0, 5), (10, 4, 1), (7, 0, 4), (4, 0, 6), (10, 0, 4), (5, 0, 5), (11, 1, 1), (8, 0, 4), (6, 0, 5),
     (11, 2, 1), (9, 0, 5), (11, 3, 1)])
  | 26 => (8, [5, 5, 6], true,
    [(0, 0, 8), (11, 1, 1), (8, 4, 1), (1, 0, 8), (8, 5, 1), (7, 4, 1), (2, 0, 8), (11, 5, 1), (11, 4, 1),
     (3, 0, 5), (10, 4, 1), (7, 0, 4), (4, 0, 5), (11, 0, 1), (10, 0, 4), (5, 0, 6), (8, 0, 4), (6, 0, 5),
     (11, 2, 1), (9, 0, 5), (11, 3, 1)])
  | 30 => (6, [6, 6, 6], false,
    [(0, 0, 6), (10, 4, 1), (11, 0, 1), (11, 1, 1), (8, 4, 1), (1, 0, 6), (7, 5, 1), (8, 5, 1), (11, 2, 1),
     (7, 4, 1), (2, 0, 6), (10, 5, 1), (11, 3, 1), (11, 5, 1), (11, 4, 1), (3, 0, 6), (7, 0, 4), (4, 0, 6),
     (10, 0, 4), (5, 0, 6), (8, 0, 4), (6, 0, 6), (9, 0, 6)])
  | 3 => (10, [10, 10, 10], false,
    [(0, 0, 10), (1, 0, 10), (2, 0, 10), (3, 0, 10), (4, 0, 10), (5, 0, 10)])
  | 7 => (11, [9, 9, 9], true,
    [(0, 0, 10), (1, 0, 10), (2, 0, 10), (3, 0, 9), (0, 10, 1), (4, 0, 9), (1, 10, 1), (5, 0, 9), (2, 10, 1)])
  | 11 => (12, [8, 8, 8], true,
    [(0, 0, 10), (1, 0, 10), (2, 0, 10), (3, 0, 8), (0, 11, 1), (0, 10, 1), (4, 0, 8), (1, 11, 1), (1, 10, 1),
     (5, 0, 8), (2, 11, 1), (2, 10, 1)])
  | 15 => (16, [4, 4, 4], true,
    [(0, 0, 10), (1, 0, 10), (2, 0, 10), (3, 0, 4), (0, 15, 1), (0, 14, 1), (0, 13, 1), (0, 12, 1), (0, 11, 1),
     (0, 10, 1), (4, 0, 4), (1, 15, 1), (1, 14, 1), (1, 13, 1), (1, 12, 1), (1, 11, 1), (1, 10, 1), (5, 0, 4),
     (2, 15, 1), (2, 14, 1), (2, 13, 1), (2, 12, 1), (2, 11, 1), (2, 10, 1)])
  | _ => (0, [], false, [])

/-- Bits of a block from a place up. -/
def bitsAt (x pos n : Nat) : Nat := x / 2 ^ pos % 2 ^ n

/-- Weights out of 64 of an index of 2, 3 or 4 bits. -/
def bcWeight (n i : Nat) : Nat :=
  match n with
  | 2 => nth [0, 21, 43, 64] i 0
  | 3 => nth [0, 9, 18, 27, 37, 46, 55, 64] i 0
  | _ => nth [0, 4, 9, 13, 17, 21, 26, 30, 34, 38, 43, 47, 51, 55, 60, 64] i 0

/-- The value between two endpoints. -/
def bcMix (n i a b : Nat) : Nat := ((64 - bcWeight n i) * a + bcWeight n i * b + 32) / 64

/-- The subset of a texel. -/
def bcSubset (subsets part t : Nat) : Nat :=
  match subsets with
  | 1 => 0
  | 2 => nth bcPart2 part 0 / 2 ^ t % 2
  | _ => nth bcPart3 part 0 / 4 ^ t % 4

/-- The texels whose index has one bit less. -/
def bcAnchors (subsets part : Nat) : List Nat :=
  match subsets with
  | 1 => [0]
  | 2 => [0, nth bcAnchor2 part 0]
  | _ => [0, nth bcAnchor3a part 0, nth bcAnchor3b part 0]

/-- A texel's index of n bits, in an index area that begins at a place. -/
def bcIndex (x pos n : Nat) (anchors : List Nat) (t : Nat) : Nat :=
  let before := (anchors.filter (fun a => a < t)).length
  bitsAt x (pos + n * t - before) (if anchors.contains t then n - 1 else n)

/-! ### BC6H -/

/-- The twelve endpoint values of a block read field by field. -/
def bc6Read (x : Nat) : Nat → List (Nat × Nat × Nat) → List Nat → List Nat
  | _, [], v => v
  | pos, (k, lo, n) :: l, v => bc6Read x (pos + n) l (putNth 0 v k (nth v k 0 + bitsAt x pos n * 2 ^ lo))

/-- An endpoint of n bits widened to 16 (unsigned). -/
def bc6Widen (n v : Nat) : Nat :=
  if 15 ≤ n then v else if v = 0 then 0 else if v = 2 ^ n - 1 then 65535 else (v * 65536 + 32768) / 2 ^ n

/-- One channel of a texel of a BC6H block, unsigned: an FP16 encoding. A block of a reserved mode gives zero. -/
def bc6h (x t ch : Nat) : Nat :=
  let m := if x % 4 < 2 then x % 4 else x % 32
  let (n, ds, diff, fields) := bc6Mode m
  if fields.isEmpty then 0
  else
    let v := bc6Read x (if m < 2 then 2 else 5) fields (List.replicate 12 0)
    let two := decide (m % 4 ≠ 3)
    let part := if two then bitsAt x 77 5 else 0
    let w := nth v ch 0
    let d := nth ds ch 0
    let endpoint := fun (e : Nat) =>
      let y := nth v (3 * e + ch) 0
      bc6Widen n (if e = 0 then w
        else if diff then (w + (if 2 ^ (d - 1) ≤ y then y + 2 ^ n - 2 ^ d else y)) % 2 ^ n else y)
    let s := bcSubset (if two then 2 else 1) part t
    let i := bcIndex x (if two then 82 else 65) (if two then 3 else 4) (bcAnchors (if two then 2 else 1) part) t
    bcMix (if two then 3 else 4) i (endpoint (2 * s)) (endpoint (2 * s + 1)) * 31 / 64

/-! ### BC7 -/

/-- A mode of BC7: subsets, partition bits, rotation bits, index selection bits, colour bits, alpha bits, a p bit for each
endpoint, a p bit for each subset, index bits, bits of the second index. -/
def bc7Mode (m : Nat) : List Nat :=
  match m with
  | 0 => [3, 4, 0, 0, 4, 0, 1, 0, 3, 0]
  | 1 => [2, 6, 0, 0, 6, 0, 0, 1, 3, 0]
  | 2 => [3, 6, 0, 0, 5, 0, 0, 0, 2, 0]
  | 3 => [2, 6, 0, 0, 7, 0, 1, 0, 2, 0]
  | 4 => [1, 0, 2, 1, 5, 6, 0, 0, 2, 3]
  | 5 => [1, 0, 2, 0, 7, 8, 0, 0, 2, 2]
  | 6 => [1, 0, 0, 0, 7, 7, 1, 0, 4, 0]
  | _ => [2, 6, 0, 0, 5, 5, 1, 0, 2, 0]

/-- A field of n bits widened to 8 by replication. -/
def bc7Widen (n v : Nat) : Nat := v * 2 ^ (8 - n) + v * 2 ^ (8 - n) / 2 ^ n

/-- One channel of a texel of a BC7 block, an 8-bit code. A block whose first byte is zero gives zero. -/
def bc7 (x t ch : Nat) : Nat :=
  match (upto 8).find? (fun m => x.testBit m) with
  | none => 0
  | some m =>
    let f := fun (k : Nat) => nth (bc7Mode m) k 0
    let part := bitsAt x (m + 1) (f 1)
    let rot := bitsAt x (m + 1 + f 1) (f 2)
    let sel := bitsAt x (m + 1 + f 1 + f 2) (f 3)
    let at_ := m + 1 + f 1 + f 2 + f 3
    let ends := 2 * f 0
    let alphaAt := at_ + 3 * ends * f 4
    let pAt := alphaAt + ends * f 5
    let indexAt := pAt + ends * f 6 + f 0 * f 7
    -- an endpoint's channel, its p bit below it
    let endpoint := fun (e c : Nat) =>
      let n := if c = 3 then f 5 else f 4
      let v := if c = 3 then bitsAt x (alphaAt + e * n) n else bitsAt x (at_ + (c * ends + e) * n) n
      if n = 0 then 255
      else if f 6 = 1 then bc7Widen (n + 1) (2 * v + bitsAt x (pAt + e) 1)
      else if f 7 = 1 then bc7Widen (n + 1) (2 * v + bitsAt x (pAt + e / 2) 1)
      else bc7Widen n v
    let s := bcSubset (f 0) part t
    let anchors := bcAnchors (f 0) part
    let first := (f 8, bcIndex x indexAt (f 8) anchors t)
    let second := (f 9, bcIndex x (indexAt + 16 * f 8 - f 0) (f 9) anchors t)
    let colourIx := if f 9 = 0 then first else if sel = 1 then second else first
    let alphaIx := if f 9 = 0 then first else if sel = 1 then first else second
    -- the rotation exchanges alpha with a colour channel
    let c := if rot = 0 then ch else if ch = 3 then rot - 1 else if ch + 1 = rot then 3 else ch
    let (n, i) := if c = 3 then alphaIx else colourIx
    bcMix n i (endpoint (2 * s) c) (endpoint (2 * s + 1) c)

/-! ### ASTC 4 × 4 LDR -/

/-- A range of values: its bits, and whether a trit (3), a quint (5) or nothing (1) stands over them. -/
structure AstcRange where
  bits : Nat
  top : Nat
  deriving DecidableEq, Repr

/-- Bits that n values of a range take. -/
def AstcRange.size (r : AstcRange) (n : Nat) : Nat :=
  n * r.bits + (if r.top = 3 then (8 * n + 4) / 5 else if r.top = 5 then (7 * n + 2) / 3 else 0)

/-- The five trits of an 8-bit code. -/
def astcTrits (v : Nat) : List Nat :=
  let b := fun (i : Nat) => bitsAt v i 1
  let (c, t4, t3) := if bitsAt v 2 3 = 7 then (4 * bitsAt v 5 3 + bitsAt v 0 2, 2, 2)
    else if bitsAt v 5 2 = 3 then (bitsAt v 0 5, 2, b 7) else (bitsAt v 0 5, b 7, bitsAt v 5 2)
  let k := fun (i : Nat) => bitsAt c i 1
  if bitsAt c 0 2 = 3 then [2 * k 3 + k 2 * (1 - k 3), k 4, 2, t3, t4]
  else if bitsAt c 2 2 = 3 then [bitsAt c 0 2, 2, 2, t3, t4]
  else [2 * k 1 + k 0 * (1 - k 1), bitsAt c 2 2, k 4, t3, t4]

/-- The three quints of a 7-bit code. -/
def astcQuints (v : Nat) : List Nat :=
  let b := fun (i : Nat) => bitsAt v i 1
  if bitsAt v 1 2 = 3 ∧ bitsAt v 5 2 = 0 then [4, 4, 4 * b 0 + 2 * (b 4 * (1 - b 0)) + b 3 * (1 - b 0)]
  else
    let (c, q2) := if bitsAt v 1 2 = 3 then (8 * bitsAt v 3 2 + 2 * (3 - bitsAt v 5 2) + b 0, 4)
      else (bitsAt v 0 5, bitsAt v 5 2)
    if bitsAt c 0 3 = 5 then [bitsAt c 3 2, 4, q2] else [bitsAt c 0 3, bitsAt c 3 2, q2]

/-- Value i of a sequence of n values of a range that begins at a place (the integer sequence encoding); bits past the end of the
sequence read zero. -/
def astcValue (x pos : Nat) (r : AstcRange) (n i : Nat) : Nat :=
  let y := x / 2 ^ pos % 2 ^ r.size n
  let m := r.bits
  match r.top with
  | 3 =>
    let at_ := i / 5 * (5 * m + 8)
    let k := i % 5
    let code := bitsAt y (at_ + m) 2 + 4 * bitsAt y (at_ + 2 * m + 2) 2 + 16 * bitsAt y (at_ + 3 * m + 4) 1 +
      32 * bitsAt y (at_ + 4 * m + 5) 2 + 128 * bitsAt y (at_ + 5 * m + 7) 1
    nth (astcTrits code) k 0 * 2 ^ m + bitsAt y (at_ + k * m + nth [0, 2, 4, 5, 7] k 0) m
  | 5 =>
    let at_ := i / 3 * (3 * m + 7)
    let k := i % 3
    let code := bitsAt y (at_ + m) 3 + 8 * bitsAt y (at_ + 2 * m + 3) 2 + 32 * bitsAt y (at_ + 3 * m + 5) 2
    nth (astcQuints code) k 0 * 2 ^ m + bitsAt y (at_ + k * m + nth [0, 3, 5] k 0) m
  | _ => bitsAt y (i * m) m

/-- n bits repeated from the top down to fill w. -/
def astcFill (n w v : Nat) : Nat :=
  (upto w).foldl (fun acc i => acc + bitsAt v (n - 1 - i % n) 1 * 2 ^ (w - 1 - i)) 0

/-- The word whose bits, from the top, are the named bits of v (letters a, b, … of the published tables; 0 is a zero bit): each
given as its number plus one. -/
def astcWord (v : Nat) (l : List Nat) : Nat :=
  l.foldl (fun acc k => 2 * acc + (if k = 0 then 0 else bitsAt v (k - 1) 1)) 0

/-- A colour value widened to 8 bits. -/
def astcColour (r : AstcRange) (v : Nat) : Nat :=
  if r.top = 1 then astcFill r.bits 8 v
  else
    let m := v % 2 ^ r.bits
    let d := v / 2 ^ r.bits
    let (b, c) : List Nat × Nat := match r.top, r.bits with
      | 3, 1 => ([0], 204)
      | 3, 2 => ([2, 0, 0, 0, 2, 0, 2, 2, 0], 93)
      | 3, 3 => ([3, 2, 0, 0, 0, 3, 2, 3, 2], 44)
      | 3, 4 => ([4, 3, 2, 0, 0, 0, 4, 3, 2], 22)
      | 3, 5 => ([5, 4, 3, 2, 0, 0, 0, 5, 4], 11)
      | 3, _ => ([6, 5, 4, 3, 2, 0, 0, 0, 6], 5)
      | _, 1 => ([0], 113)
      | _, 2 => ([2, 0, 0, 0, 0, 2, 2, 0, 0], 54)
      | _, 3 => ([3, 2, 0, 0, 0, 0, 3, 2, 3], 26)
      | _, 4 => ([4, 3, 2, 0, 0, 0, 0, 4, 3], 13)
      | _, _ => ([5, 4, 3, 2, 0, 0, 0, 0, 5], 6)
    let a := if m % 2 = 1 then 511 else 0
    let t := (d * c + astcWord m b) ^^^ a
    (a &&& 0x80) ||| (t / 4)

/-- A weight widened to 0 to 64. -/
def astcWeight (r : AstcRange) (v : Nat) : Nat :=
  let m := v % 2 ^ r.bits
  let d := v / 2 ^ r.bits
  let w := if r.top = 1 then astcFill r.bits 6 v
    else if r.bits = 0 then nth (if r.top = 3 then [0, 32, 63] else [0, 16, 32, 47, 63]) v 0
    else
      let (b, c) : List Nat × Nat := match r.top, r.bits with
        | 3, 1 => ([0], 50)
        | 3, 2 => ([2, 0, 0, 0, 2, 0, 2], 23)
        | 3, _ => ([3, 2, 0, 0, 0, 3, 2], 11)
        | _, 1 => ([0], 28)
        | _, _ => ([2, 0, 0, 0, 0, 2, 0], 13)
      let a := if m % 2 = 1 then 127 else 0
      let t := (d * c + astcWord m b) ^^^ a
      (a &&& 0x20) ||| (t / 4)
  if 32 < w then w + 1 else w

/-- Ranges of weights by the three range bits and the precision bit. -/
def astcWeightRange (hi : Bool) (r : Nat) : AstcRange :=
  match hi, r with
  | false, 2 => ⟨1, 1⟩ | false, 3 => ⟨0, 3⟩ | false, 4 => ⟨2, 1⟩ | false, 5 => ⟨0, 5⟩ | false, 6 => ⟨1, 3⟩ | false, _ => ⟨3, 1⟩
  | true, 2 => ⟨1, 5⟩ | true, 3 => ⟨2, 3⟩ | true, 4 => ⟨4, 1⟩ | true, 5 => ⟨2, 5⟩ | true, 6 => ⟨3, 3⟩ | true, _ => ⟨5, 1⟩

/-- Ranges of colour values, the widest first. -/
def astcColourRanges : List AstcRange :=
  [⟨8, 1⟩, ⟨6, 3⟩, ⟨5, 5⟩, ⟨7, 1⟩, ⟨5, 3⟩, ⟨4, 5⟩, ⟨6, 1⟩, ⟨4, 3⟩, ⟨3, 5⟩, ⟨5, 1⟩, ⟨3, 3⟩, ⟨2, 5⟩, ⟨4, 1⟩, ⟨2, 3⟩, ⟨1, 5⟩, ⟨3, 1⟩,
   ⟨1, 3⟩]

/-- The block mode: weights across and down, the weight range, dual planes. None where it is reserved. -/
def astcMode (x : Nat) : Option (Nat × Nat × AstcRange × Bool) :=
  let b := fun (i : Nat) => bitsAt x i 1
  let a := bitsAt x 5 2
  if bitsAt x 0 2 ≠ 0 then
    let bb := bitsAt x 7 2
    let (w, h) := match bitsAt x 2 2 with
      | 0 => (bb + 4, a + 2)
      | 1 => (bb + 8, a + 2)
      | 2 => (a + 2, bb + 8)
      | _ => if b 8 = 0 then (a + 2, bb % 2 + 6) else (bb % 2 + 2, a + 2)
    let r := 2 * bitsAt x 0 2 + b 4
    some (w, h, astcWeightRange (b 9 = 1) r, b 10 = 1)
  else
    let r := 2 * bitsAt x 2 2 + b 4
    if r < 2 then none
    else match bitsAt x 7 2 with
      | 0 => some (12, a + 2, astcWeightRange (b 9 = 1) r, b 10 = 1)
      | 1 => some (a + 2, 12, astcWeightRange (b 9 = 1) r, b 10 = 1)
      | 2 => some (a + 6, bitsAt x 9 2 + 6, astcWeightRange false r, false)
      | _ => if a = 0 then some (6, 10, astcWeightRange (b 9 = 1) r, b 10 = 1)
             else if a = 1 then some (10, 6, astcWeightRange (b 9 = 1) r, b 10 = 1) else none

/-- The hash of a partition seed, on 32 bits. -/
def astcHash (p : Nat) : Nat :=
  let w := 2 ^ 32
  let p := p ^^^ (p / 2 ^ 15)
  let p := (p + w - p * 2 ^ 17 % w) % w
  let p := (p + p * 2 ^ 7) % w
  let p := (p + p * 2 ^ 4) % w
  let p := p ^^^ (p / 2 ^ 5)
  let p := (p + p * 2 ^ 16) % w
  let p := p ^^^ (p / 2 ^ 7)
  let p := p ^^^ (p / 2 ^ 3)
  let p := p ^^^ (p * 2 ^ 6 % w)
  p ^^^ (p / 2 ^ 17)

/-- The partition of a texel, of a block of fewer than 31 texels. -/
def astcPartition (seed count tx ty : Nat) : Nat :=
  let x := 2 * tx
  let y := 2 * ty
  let seed := seed + (count - 1) * 1024
  let rnum := astcHash seed
  let sh1 := if seed % 2 = 1 then (if seed / 2 % 2 = 1 then 4 else 5) else (if count = 3 then 6 else 5)
  let sh2 := if seed % 2 = 1 then (if count = 3 then 6 else 5) else (if seed / 2 % 2 = 1 then 4 else 5)
  let s := fun (pos sh : Nat) => (bitsAt rnum pos 4) ^ 2 / 2 ^ sh
  let a := (s 0 sh1 * x + s 4 sh2 * y + rnum / 2 ^ 14) % 64
  let b := (s 8 sh1 * x + s 12 sh2 * y + rnum / 2 ^ 10) % 64
  let c := if count < 3 then 0 else (s 16 sh1 * x + s 20 sh2 * y + rnum / 2 ^ 6) % 64
  let d := if count < 4 then 0 else (s 24 sh1 * x + s 28 sh2 * y + rnum / 2 ^ 2) % 64
  if b ≤ a ∧ c ≤ a ∧ d ≤ a then 0 else if c ≤ b ∧ d ≤ b then 1 else if d ≤ c then 2 else 3

/-- A base and an offset, a bit of the offset given to the base. -/
def astcTransfer (a b : Nat) : Int × Nat :=
  let v := a / 2 % 64
  (if v < 32 then (v : Int) else (v : Int) - 64, b / 2 + (a &&& 0x80))

/-- An integer held to 0 to 255. -/
def astcClamp (v : Int) : Nat := if v < 0 then 0 else if 255 < v then 255 else v.toNat

/-- Red and green drawn towards blue. -/
def astcContract (l : List Int) : List Int :=
  [(nth l 0 0 + nth l 2 0) / 2, (nth l 1 0 + nth l 2 0) / 2, nth l 2 0, nth l 3 0]

/-- The two endpoints of an LDR endpoint mode from its values, red, green, blue and alpha; none for an HDR mode. -/
def astcEndpoints (mode : Nat) (v : List Nat) : Option (List Nat × List Nat) :=
  let n := fun (i : Nat) => nth v i 0
  let z := fun (i : Nat) => ((nth v i 0 : Nat) : Int)
  let grey := fun (l a : Nat) => [l, l, l, a]
  let out := fun (p : List Int × List Int) => some (p.1.map astcClamp, p.2.map astcClamp)
  let direct := fun (a0 a1 : Int) =>
    if z 0 + z 2 + z 4 ≤ z 1 + z 3 + z 5 then ([z 0, z 2, z 4, a0], [z 1, z 3, z 5, a1])
    else (astcContract [z 1, z 3, z 5, a1], astcContract [z 0, z 2, z 4, a0])
  let offset := fun (a0 a1 : Int) =>
    let (d0, b0) := astcTransfer (n 1) (n 0)
    let (d1, b1) := astcTransfer (n 3) (n 2)
    let (d2, b2) := astcTransfer (n 5) (n 4)
    let low : List Int := [b0, b1, b2]
    let high : List Int := [b0 + d0, b1 + d1, b2 + d2]
    if 0 ≤ d0 + d1 + d2 then (low ++ [a0], high ++ [a1]) else (astcContract (high ++ [a1]), astcContract (low ++ [a0]))
  let scaled := fun (i : Nat) => z i * z 3 / 256
  match mode with
  | 0 => some (grey (n 0) 255, grey (n 1) 255)
  | 1 =>
    let l := n 0 / 4 + (n 1 &&& 0xC0)
    some (grey l 255, grey (min 255 (l + n 1 % 64)) 255)
  | 4 => some (grey (n 0) (n 2), grey (n 1) (n 3))
  | 5 =>
    let (d0, b0) := astcTransfer (n 1) (n 0)
    let (d1, b1) := astcTransfer (n 3) (n 2)
    some (grey b0 b1, grey (astcClamp (b0 + d0)) (astcClamp (b1 + d1)))
  | 6 => out ([scaled 0, scaled 1, scaled 2, 255], [z 0, z 1, z 2, 255])
  | 8 => out (direct 255 255)
  | 9 => out (offset 255 255)
  | 10 => out ([scaled 0, scaled 1, scaled 2, z 4], [z 0, z 1, z 2, z 5])
  | 12 => out (direct (z 6) (z 7))
  | 13 =>
    let (d3, b3) := astcTransfer (n 7) (n 6)
    out (offset b3 (b3 + d3))
  | _ => none

/-- The error colour. -/
def astcError : List Nat := [255, 0, 255, 255]

/-- The endpoint modes of the partitions, with the number of their bits that stand under the weights. `below` is where those
begin to end. -/
def astcModes (x count below : Nat) : List Nat × Nat :=
  if count = 1 then ([bitsAt x 13 4], 0)
  else if bitsAt x 23 2 = 0 then (List.replicate count (bitsAt x 25 4), 0)
  else
    let extra := 3 * count - 4
    let y := bitsAt x 25 4 + 16 * bitsAt x (below - extra) extra
    ((upto count).map (fun i => 4 * (bitsAt x 23 2 - 1 + bitsAt y i 1) + bitsAt y (count + 2 * i) 2), extra)

/-- The weight of a texel from the weight grid of a plane: the grid is stretched over the block. -/
def astcStretch (w h tx ty : Nat) (grid : Nat → Nat) : Nat :=
  let gs := (342 * tx * (w - 1) + 32) / 64
  let gt := (342 * ty * (h - 1) + 32) / 64
  let fs := gs % 16
  let ft := gt % 16
  let v := gs / 16 + gt / 16 * w
  let w11 := (fs * ft + 8) / 16
  let at_ := fun (i : Nat) => if i < w * h then grid i else 0
  (at_ v * (16 + w11 - fs - ft) + at_ (v + 1) * (fs - w11) + at_ (v + w) * (ft - w11) + at_ (v + w + 1) * w11 + 8) / 16

/-- The bits of a block in reverse. -/
def astcReverse (x : Nat) : Nat := (upto 128).foldl (fun acc i => 2 * acc + bitsAt x i 1) 0

/-- A block of one colour. -/
def astcVoid (x : Nat) : List Nat :=
  let lo := fun (k : Nat) => bitsAt x (12 + 26 * k) 13
  let hi := fun (k : Nat) => bitsAt x (25 + 26 * k) 13
  let all := decide (bitsAt x 12 52 = 2 ^ 52 - 1)
  if bitsAt x 9 1 = 1 || bitsAt x 10 2 ≠ 3 || !(all || (decide (lo 0 < hi 0) && decide (lo 1 < hi 1))) then astcError
  else (upto 4).map (fun i => bitsAt x (64 + 16 * i) 16 / 256)

/-- The four 8-bit codes of a texel of an ASTC 4 × 4 LDR block. A block that is malformed or HDR has the error colour. -/
def astcTexel (x t : Nat) : List Nat :=
  if bitsAt x 0 9 = 0x1FC then astcVoid x
  else
    match astcMode x with
    | none => astcError
    | some (w, h, wr, dual) =>
      let planes := if dual then 2 else 1
      let nw := w * h * planes
      let wbits := wr.size nw
      let count := bitsAt x 11 2 + 1
      if 4 < w ∨ 4 < h ∨ 64 < nw ∨ wbits < 24 ∨ 96 < wbits ∨ (dual ∧ count = 4) then astcError
      else
        let below := 128 - wbits
        let (modes, extra) := astcModes x count below
        let top := below - extra - (if dual then 2 else 0)
        let start := if count = 1 then 17 else 29
        let values := modes.foldl (fun acc m => acc + 2 * (m / 4 + 1)) 0
        match astcColourRanges.find? (fun r => r.size values ≤ top - start) with
        | none => astcError
        | some cr =>
          if 18 < values ∨ top < start then astcError
          else
            let part := if count = 1 then 0 else astcPartition (bitsAt x 13 10) count (t % 4) (t / 4)
            let first := (modes.take part).foldl (fun acc m => acc + 2 * (m / 4 + 1)) 0
            let mode := nth modes part 0
            let v := (upto (2 * (mode / 4 + 1))).map (fun i => astcColour cr (astcValue x start cr values (first + i)))
            if modes.any (fun m => [2, 3, 7, 11, 14, 15].contains m) then astcError
            else
              match astcEndpoints mode v with
              | none => astcError
              | some (e0, e1) =>
                let y := astcReverse x
                let weight := fun (plane : Nat) => astcStretch w h (t % 4) (t / 4) (fun i =>
                  astcWeight wr (astcValue y 0 wr nw (i * planes + plane)))
                (upto 4).map (fun c =>
                  let k := weight (if dual && decide (bitsAt x top 2 = c) then 1 else 0)
                  let wide := fun (e : Nat) => e * 256 + 128
                  ((64 - k) * wide (nth e0 c 0) + k * wide (nth e1 c 0) + 32) / 64 / 256)

end Sys2Proof.Machine
end

