-- ==== Sys2Proof/Machine/Texture.lean ====
section
/-! DEFINITION. Level-of-detail resources: descriptors and placement (R197, R198), residency (R194, R201), the checks of
R202, sampling (R204 to R210), the gutter (R199, R200), and the T-path instructions LDLOD, SAMPLE and SAMPLEG. -/
namespace Sys2Proof.Machine

/-! ### Reads of the T path -/

/-- What the reads of one lane used: leaves to mark, and sectors to keep in the unit's cache. -/
structure TexUse where
  leaves : List (Nat × Nat) := []
  sectors : List Nat := []
  deriving DecidableEq, Repr

/-- Two uses together. -/
def TexUse.and (a b : TexUse) : TexUse := { leaves := a.leaves ++ b.leaves, sectors := a.sectors ++ b.sectors }

/-- A result of a T-path step, or the place in R202's list with the fault. -/
abbrev TexM (α : Type) := Except (Nat × Trap) α

/-- A fault at a place of R202's list. -/
def texFault {α : Type} (order : Nat) (c : Cause) (sub : Byte) (faddr : Nat) : TexM α :=
  .error (order, { cause := c, sub := sub, faddr := BitVec.ofNat 64 faddr })

/-- A result with what its reads used: the leaves of the walks that passed stay marked where a later check fails (R161, R203). -/
abbrev TexRun (α : Type) := TexM α × TexUse

/-- A result that used nothing. -/
def texPure {α : Type} (a : α) : TexRun α := (.ok a, {})

/-- A fault that used nothing. -/
def texFail {α : Type} (order : Nat) (c : Cause) (sub : Byte) (faddr : Nat) : TexRun α := (texFault order c sub faddr, {})

/-- One step after another, unless the first faults. -/
def texBind {α β : Type} (a : TexRun α) (f : α → TexRun β) : TexRun β :=
  match a.1 with
  | .error t => (.error t, a.2)
  | .ok x => ((f x).1, a.2.and (f x).2)

/-- Two reads of a lane together: of two faults the one that comes first in R202's list, the earlier read on a tie. -/
def texBoth {α β γ : Type} (a : TexRun α) (b : TexRun β) (f : α → β → γ) : TexRun γ :=
  (match a.1, b.1 with
    | .ok x, .ok y => .ok (f x y)
    | .error x, .ok _ => .error x
    | .ok _, .error y => .error y
    | .error x, .error y => if y.1 < x.1 then .error y else .error x, a.2.and b.2)

/-- A byte as the unit reads it: from a line that it holds (R196), or at the L2. -/
def State.texByte (s : State) (cache : List (Nat × List Byte)) (pa : Nat) : Byte :=
  match cache.find? (fun e => e.1 = sectorOf pa) with
  | some e => nth e.2 (pa % 32) 0
  | none => memGet s.mem pa

/-- The lines that the unit still holds, each a free choice (R196). -/
def State.texHeld (s : State) (core : Nat) : List (Nat × List Byte) :=
  let l := (s.coreAt core).texCache
  ((upto l.length).zip l).filterMap (fun e => if Config.stillHeld (s.freeCount + e.1) then some e.2 else none)

/-- The bytes of a checked read; `perm`, `page` and `poison` are the places of those faults in R202's list. -/
def State.texRead (s : State) (core : Nat) (cache : List (Nat × List Byte)) (c : Context) (x : XReg) (off n : Nat)
    (perm page poison : Nat) : TexRun (List Byte) :=
  match s.checkAccess core c x .load true 1 n off with
  | .ok runs l =>
    let as := runAddresses runs
    (.ok (as.map (fun a => match a with
      | some a => s.texByte cache a
      | none => 0)), { leaves := l, sectors := distinct (as.filterMap (fun a => a.map sectorOf)) })
  | .bad _ cause sub f l =>
    let order := match cause with
      | .page => page
      | .poison => poison
      | .bounds => 7
      | _ => perm
    (texFault order cause sub f, { leaves := l })

/-! ### Descriptors (R197) and placement (R198) -/

/-- A descriptor. -/
structure LodDesc where
  levels : Nat
  kind : Nat
  format : Nat
  h0 : Nat
  w0 : Nat
  floor : Word
  mapOff : Nat
  slot : Nat
  lv : List Nat
  deriving DecidableEq, Repr

/-- PBASE, FB and UNITSH of a level (Table 11.2). -/
def LodDesc.pbase (d : LodDesc) (l : Nat) : Nat := bits (nth d.lv l 0) 15 0
/-- FB. -/
def LodDesc.fb (d : LodDesc) (l : Nat) : Nat := bits (nth d.lv l 0) 19 16
/-- UNITSH. -/
def LodDesc.unitsh (d : LodDesc) (l : Nat) : Nat := bits (nth d.lv l 0) 23 20

/-- A descriptor read from its bits (Table 11.1); none when it is invalid. Under KIND 0 a UNITSH other than the zero of Table 11.2 makes
it invalid, though the list of R197 asks for at most 4 alone. (DESIGN CHOICE, log 84.) -/
def lodDesc (x : Nat) : Option LodDesc :=
  let d : LodDesc :=
    { levels := bits x 509 506 + 1, kind := bits x 505 504, format := bits x 503 496, h0 := bits x 495 480,
      w0 := bits x 479 464, floor := BitVec.ofNat 32 (bits x 463 432), mapOff := bits x 431 400, slot := bits x 399 384,
      lv := (upto 16).map (fun l => bits x (24 * l + 23) (24 * l)) }
  let formatOk := if d.kind = 0 then decide (d.format ≤ 14) else d.format = 0
  let unitOk := (upto 16).all (fun l => if d.kind = 0 then d.unitsh l = 0 else decide (d.unitsh l ≤ 4))
  let chainOk := (upto d.levels).all (fun l => decide (l ≤ d.fb l))
  let restOk := (d.lv.drop d.levels).all (fun v => v = 0)
  if bits x 511 510 = 0 && decide (d.kind ≤ 1) && formatOk && unitOk && chainOk && restOk then some d else none

/-- Level extents in texels. -/
def LodDesc.width (d : LodDesc) (l : Nat) : Nat := max 1 ((d.w0 + 1) / 2 ^ l)
/-- Height. -/
def LodDesc.height (d : LodDesc) (l : Nat) : Nat := max 1 ((d.h0 + 1) / 2 ^ l)
/-- Units of a linear resource. -/
def LodDesc.units (d : LodDesc) : Nat := d.h0 * 65536 + d.w0 + 1

/-- Bytes of an element, elements of a page across and down, and whether the element is a 4 × 4 block (Table 11.3). -/
def formatInfo (f : Nat) : Nat × Nat × Nat × Bool :=
  match f with
  | 0 => (4, 128, 128, false)
  | 1 => (4, 128, 128, false)
  | 2 => (8, 128, 64, false)
  | 3 => (4, 128, 128, false)
  | 4 => (2, 256, 128, false)
  | 5 => (4, 128, 128, false)
  | 6 => (4, 128, 128, false)
  | 7 => (8, 128, 64, true)
  | 10 => (8, 128, 64, true)
  | _ => (16, 64, 64, true)

/-- Page, byte in the page and bytes of the element that holds texel (x, y) of a level. -/
def LodDesc.texelAt (d : LodDesc) (l x y : Nat) : Nat × Nat × Nat :=
  let (e, tw, th, blk) := formatInfo d.format
  let ex := if blk then x / 4 else x
  let ey := if blk then y / 4 else y
  let ew := if blk then ceilDiv (d.width l) 4 else d.width l
  (d.pbase l + ex / tw + ceilDiv ew tw * (ey / th), e * (ex % tw + tw * (ey % th)), e)

/-- Page, byte and bytes of a unit of a level. -/
def LodDesc.unitAt (d : LodDesc) (l u : Nat) : Nat × Nat × Nat :=
  let b := u * 2 ^ d.unitsh l
  (d.pbase l + b / 65536, b % 65536, 2 ^ d.unitsh l)

/-! ### Residency (R194, R201) -/

/-- What every lane of an instruction reads through: the core, the held lines, the context. -/
structure TexEnv where
  s : State
  core : Nat
  cache : List (Nat × List Byte)
  c : Context

/-- The descriptor of an index and its resource capability, with the checks 1 to 6 of R202. -/
def TexEnv.descriptor (e : TexEnv) (x5 : XReg) (ix : Nat) : TexRun (LodDesc × QWord) :=
  let off := 64 * ix
  if x5.bound.toNat < off + 64 then texFail 1 .bounds 0 off
  else if !hasPerm x5.perm (permR ||| permL) then texFail 2 .perm 0 off
  else if x5.type = 4 then texFail 3 .window 0 off -- R169
  else
    texBind (e.s.texRead e.core e.cache e.c x5 off 64 2 3 3) (fun b =>
      match lodDesc (leValue b) with
      | none => texFail 4 .perm 3 off
      | some d =>
        let (cap, tag) := e.c.slot d.slot
        if !tag then texFail 5 .captag 0 off
        else if !hasPerm (capPerm cap) (permR ||| permL) || !(capType cap = 0 || capType cap = 2) then
          texFail 6 .perm 0 off
        else texPure (d, cap))

/-- A register over a whole resource. -/
def resourceRegister (cap : QWord) : XReg :=
  { base := capBase cap, perm := capPerm cap, bound := capLength cap, type := capType cap }

/-- Whether a page is resident: its map bit is set, and its leaf is valid with DISC = 0. -/
def TexEnv.resident (e : TexEnv) (d : LodDesc) (cap : QWord) (page : Nat) : TexRun Bool :=
  let x := resourceRegister cap
  let off := d.mapOff * 16 + page / 8
  texBind (e.s.texRead e.core e.cache e.c x off 1 6 8 9) (fun b =>
    if (b.headD 0).toNat.testBit (page % 8) then
      let va := x.base.toNat + page * 65536
      match e.s.translatePage e.core e.c .load va 1 with
      | .ok run l => (.ok run.pa.isSome, { leaves := (l.toList).map (fun a => (a, va)) })
      | .perm sub => texFail 6 .perm sub (page * 65536)
      | .page sub => if sub = 1 then texPure false else texFail 8 .page sub va
      | .discard _ => texPure false
    else texPure false)

/-- Every page of a list is resident; the map byte of each is read, and of their faults the first of R202's list stands. -/
def TexEnv.allResident (e : TexEnv) (d : LodDesc) (cap : QWord) : List Nat → TexRun Bool
  | [] => texPure true
  | p :: l => texBoth (e.resident d cap p) (e.allResident d cap l) (fun a b => a && b)

/-- The level that serves a wanted level (R201): the chain is walked until every page that `pages` names is resident. A
chain ends at FB = l, 15 or more levels coarser, or at a level that the resource does not have. -/
def TexEnv.serve (e : TexEnv) (d : LodDesc) (cap : QWord) (want : Nat) (pages : Nat → List Nat) : Nat → Nat →
    TexRun (Option Nat)
  | 0, _ => texPure none
  | fuel + 1, l =>
    texBind (e.allResident d cap (pages l)) (fun whole =>
      if whole then texPure (some l)
      else
        let fb := d.fb l
        if fb = l ∨ d.levels ≤ fb ∨ 14 < fb - want then texPure none
        else e.serve d cap want pages fuel fb)

/-- The first bytes of an element at a byte of a page, checked (R198, R202). -/
def TexEnv.element (e : TexEnv) (cap : QWord) (page byte n : Nat) : TexRun TexElem :=
  let off := page * 65536 + byte
  match e.s.checkAccess e.core e.c (resourceRegister cap) .load true 1 n off with
  | .ok runs l => (.ok { off := off, runs := runs }, { leaves := l })
  | .bad _ cause sub f l =>
    (texFault (match cause with
      | .page => 8
      | .poison => 9
      | .bounds => 7
      | _ => 6) cause sub f, { leaves := l })

/-! ### What a lane delivers -/

/-- What a lane's registers receive, its status word and its gutter entries. -/
structure LodOut where
  data : TexData
  status : Word
  entries : List GutterWant := []
  deriving DecidableEq, Repr

/-- The status word (Table 11.6). -/
def lodStatus (served : Option Nat) (want : Nat) (oor : Bool) : Word :=
  match served with
  | some l => BitVec.ofNat 32 (l * 256 + (if oor then 16 else 0) + (l - want))
  | none => BitVec.ofNat 32 ((if oor then 16 else 0) + 15)

/-- STATUS of a served level. -/
def lodCode (served : Option Nat) (want : Nat) : Nat :=
  match served with
  | some l => l - want
  | none => 15

/-- LDLOD in one lane (R201): n data words and the status word. -/
def TexEnv.ldlod (e : TexEnv) (x5 : XReg) (n : Nat) (ix coord wsel : Word) : TexRun LodOut :=
  texBind (e.descriptor x5 ix.toNat) (fun dc =>
    let (d, cap) := dc
    let w := bits wsel.toNat 3 0
    let x := bits coord.toNat 15 0
    let y := bits coord.toNat 31 16
    let outside := decide (d.levels ≤ w) ||
      (if d.kind = 0 then decide (d.width w ≤ x) || decide (d.height w ≤ y) else decide (d.units ≤ coord.toNat))
    let floor := List.replicate n d.floor
    if outside then texPure { data := .words floor, status := lodStatus none w true }
    else
      let place := fun (l : Nat) => if d.kind = 0 then d.texelAt l (x / 2 ^ (l - w)) (y / 2 ^ (l - w))
        else d.unitAt l coord.toNat
      texBind (e.serve d cap w (fun l => [(place l).1]) 16 w) (fun served =>
        let entry : GutterWant := { desc := ix, want := w, served := lodCode served w, page := (place w).1 }
        let entries := if lodCode served w = 0 then [] else [entry]
        match served with
        | none => texPure { data := .words floor, status := lodStatus none w false, entries := entries }
        | some l =>
          let (page, byte, size) := place l
          texBind (e.element cap page byte (min size (4 * n))) (fun el =>
            texPure { data := .element el n, status := lodStatus (some l) w false, entries := entries })))

/-! ### Texels (R206) -/

/-- A channel value: an exact value over a denominator. -/
abbrev Chan := FVal × Nat

/-- A quotient of naturals times 2^e, rounded once to FP32 with rne. -/
def ratRound (neg : Bool) (num den : Nat) (e : Int) : Word :=
  if num = 0 ∨ den = 0 then 0
  else
    let sh := (Nat.log2 den + 32) - Nat.log2 num
    let q := num * 2 ^ sh / den
    BitVec.ofNat 32 (roundFin .fp32 0 false neg q (e - sh) (decide (num * 2 ^ sh % den ≠ 0))).1

/-- Largest r with r^5 × den ≤ num, found from bit `k` down. -/
def root5From (num den : Nat) : Nat → Nat → Nat
  | 0, r => if (r + 1) ^ 5 * den ≤ num then r + 1 else r
  | k + 1, r => root5From num den k (if (r + 2 ^ (k + 1)) ^ 5 * den ≤ num then r + 2 ^ (k + 1) else r)

/-- The sRGB table (R206): x^2.4 is the fifth root of x^12, with x = (1000 c + 14025) / 269025. -/
def srgb (c : Nat) : Word :=
  if c ≤ 10 then ratRound false (100 * c) (255 * 1292) 0
  else
    let num := (1000 * c + 14025) ^ 12 * 2 ^ 200
    let den := 269025 ^ 12
    let r := root5From num den 40 0
    BitVec.ofNat 32 (roundFin .fp32 0 false false r (-40) (decide (r ^ 5 * den ≠ num))).1

/-- An integer code over a denominator. -/
def unorm (c den : Nat) : Chan := (.fin false c 0, den)

/-- Zero and one. -/
def chan0 : Chan := (.fin false 0 0, 1)
/-- One. -/
def chan1 : Chan := (.fin false 1 0, 1)

/-- Five or six bits expanded to eight by replication. -/
def expand5 (x : Nat) : Nat := x * 8 + x / 4
/-- Six bits. -/
def expand6 (x : Nat) : Nat := x * 4 + x / 16

/-- Red, green and blue of a 5:6:5 endpoint. -/
def rgb565 (x : Nat) : List Nat := [expand5 (bits x 15 11), expand6 (bits x 10 5), expand5 (bits x 4 0)]

/-- A texel's colour codes and alpha code in a BC1 colour block; `four` forces the four-colour mode (BC2, BC3). (PRESUMED, log 13.) -/
def bcColour (b : Nat) (four : Bool) (t : Nat) : List Nat × Nat :=
  let c0 := bits b 15 0
  let c1 := bits b 31 16
  let e0 := rgb565 c0
  let e1 := rgb565 c1
  let i := bits b (33 + 2 * t) (32 + 2 * t)
  let mix := fun (f : Nat → Nat → Nat) => (e0.zip e1).map (fun p => f p.1 p.2)
  match i with
  | 0 => (e0, 255)
  | 1 => (e1, 255)
  | 2 => if four || decide (c1 < c0) then (mix (fun a b => (2 * a + b + 1) / 3), 255)
         else (mix (fun a b => (a + b + 1) / 2), 255)
  | _ => if four || decide (c1 < c0) then (mix (fun a b => (a + 2 * b + 1) / 3), 255) else ([0, 0, 0], 0)

/-- A texel's code in a BC4 block. (PRESUMED, log 13.) -/
def bcAlpha (b t : Nat) : Nat :=
  let e0 := bits b 7 0
  let e1 := bits b 15 8
  let i := bits b (18 + 3 * t) (16 + 3 * t)
  let k := if e1 < e0 then 7 else 5
  if i = 0 then e0
  else if i = 1 then e1
  else if k = 5 ∧ i = 6 then 0
  else if k = 5 ∧ i = 7 then 255
  else ((k - (i - 1)) * e0 + (i - 1) * e1 + k / 2) / k

/-- The four channels of a texel; `t` is its index 4 y + x in a block. -/
def texelChannels (format : Nat) (b : List Byte) (t : Nat) : List Chan :=
  let x := leValue b
  let un8 := fun (i : Nat) => unorm (bits x (8 * i + 7) (8 * i)) 255
  let f16 := fun (i : Nat) => (FFmt.fp16.value (bits x (16 * i + 15) (16 * i)), 1)
  match format with
  | 0 => [un8 0, un8 1, un8 2, un8 3]
  | 1 => ((upto 3).map (fun i => (f32 (srgb (bits x (8 * i + 7) (8 * i))), 1))) ++ [un8 3]
  | 2 => [f16 0, f16 1, f16 2, f16 3]
  | 3 => [f16 0, f16 1, chan0, chan1]
  | 4 => [f16 0, chan0, chan0, chan1]
  | 5 => [(FFmt.fp32.value x, 1), chan0, chan0, chan1]
  | 6 => [unorm (bits x 9 0) 1023, unorm (bits x 19 10) 1023, unorm (bits x 29 20) 1023, unorm (bits x 31 30) 3]
  | 7 =>
    let (c, a) := bcColour x false t
    (c.map (fun v => unorm v 255)) ++ [unorm a 255]
  | 8 =>
    let (c, _) := bcColour (x / 2 ^ 64) true t
    (c.map (fun v => unorm v 255)) ++ [unorm (17 * bits x (4 * t + 3) (4 * t)) 255]
  | 9 =>
    let (c, _) := bcColour (x / 2 ^ 64) true t
    (c.map (fun v => unorm v 255)) ++ [unorm (bcAlpha x t) 255]
  | 10 => [unorm (bcAlpha x t) 255, chan0, chan0, chan1]
  | 11 => [unorm (bcAlpha x t) 255, unorm (bcAlpha (x / 2 ^ 64) t) 255, chan0, chan1]
  | 12 => ((upto 3).map (fun i => (FFmt.fp16.value (bc6h x t i), 1))) ++ [chan1]
  | 13 => (upto 4).map (fun i => unorm (bc7 x t i) 255)
  | _ => (astcTexel x t).map (fun v => unorm v 255)

/-- FLOOR as rgba8un (R210). -/
def floorChannels (w : Word) : List Chan := (upto 4).map (fun i => unorm (elemNat w 8 i) 255)

/-! ### The filter (R207, R209) -/

/-- 256 times a value, to the nearest integer, ties to even; `other` stands for it where it has none. -/
def fixed256 (w : Word) (other : Int) : Int :=
  match f32 w with
  | .fin neg m e =>
    let (q, _) := roundInt 0 neg m (e + 8)
    if neg then -(q : Int) else q
  | .nan _ => other
  | .inf _ => other

/-- The texel indices of a coordinate with their weights, the sum 256 (bilinear) or one index (point). -/
def taps (bilinear : Bool) (sv : Int) : List (Int × Nat) :=
  if bilinear then
    let s' := sv - 128
    let i0 := s' / 256
    let a := (s' - 256 * i0).toNat
    [(i0, 256 - a), (i0 + 1, a)]
  else [(sv / 256, 256)]

/-- An index under an address mode; none is a border texel (R207). -/
def address (mode extent : Nat) (i : Int) : Option Nat :=
  let e : Int := extent
  match mode with
  | 0 => some (i % e).toNat
  | 1 => some (if i < 0 then 0 else if e ≤ i then extent - 1 else i.toNat)
  | 2 =>
    let k := i % (2 * e)
    some (if e ≤ k then (2 * e - 1 - k).toNat else k.toNat)
  | _ => if 0 ≤ i ∧ i < e then some i.toNat else none

/-- A sampler word (Table 11.8). -/
structure Sampler where
  maxLvl : Nat
  minLvl : Nat
  bias : Int
  aniso : Nat
  addrV : Nat
  addrU : Nat
  filter : Nat
  deriving DecidableEq, Repr

/-- The sampler of a word over a descriptor. -/
def samplerOf (w : Nat) (levels : Nat) : Sampler :=
  let lo := bits w 25 22
  { maxLvl := max (min (bits w 29 26) (levels - 1)) lo, minLvl := lo, bias := toSigned 12 (bits w 21 10),
    aniso := bits w 9 6, addrV := bits w 5 4, addrU := bits w 3 2, filter := bits w 1 0 }

/-- The texels of a footprint at one level for one sample point: each a texel or a border texel, with its weight. -/
def LodDesc.footprint (d : LodDesc) (sm : Sampler) (l : Nat) (other : Int) (u v : Word) :
    List (Option (Nat × Nat) × Nat) :=
  let bil := decide (sm.filter ≠ 0)
  let su := fixed256 (mul32 u (rne32 false (d.width l) 0)) other
  let sv := fixed256 (mul32 v (rne32 false (d.height l) 0)) other
  (taps bil sv).flatMap (fun tj => (taps bil su).map (fun ti =>
    (match address sm.addrU (d.width l) ti.1, address sm.addrV (d.height l) tj.1 with
      | some i, some j => some (i, j)
      | _, _ => none, ti.2 * tj.2)))

/-- The page at a level that names a sample in the gutter (R210). -/
def LodDesc.samplePage (d : LodDesc) (sm : Sampler) (l : Nat) (other : Int) (u v : Word) : Nat :=
  let su := fixed256 (mul32 u (rne32 false (d.width l) 0)) other
  let sv := fixed256 (mul32 v (rne32 false (d.height l) 0)) other
  match address sm.addrU (d.width l) (su / 256), address sm.addrV (d.height l) (sv / 256) with
  | some i, some j => (d.texelAt l i j).1
  | _, _ => d.pbase l

/-- One term of the sum of R209: its weight and the value of a channel. -/
abbrev Term := Nat × Chan

/-- A common multiple of the denominators 255, 1,023, 3 and 1. -/
def chanLcm : Nat := 255 * 1023

/-- The sum of a channel, over N × 2^24, rounded once (R209). -/
def filterSum (n : Nat) (l : List Term) : Word :=
  let l := l.filter (fun t => t.1 ≠ 0)
  let hasNan := l.any (fun t => t.2.1.isNan)
  let infP := l.any (fun t => decide (t.2.1 = .inf false))
  let infN := l.any (fun t => decide (t.2.1 = .inf true))
  if hasNan || (infP && infN) then 0x7FC00000
  else if infP then 0x7F800000
  else if infN then 0xFF800000
  else
    let parts := l.map (fun t => match t.2.1 with
      | .fin neg m e => (sgn neg (t.1 * m * (chanLcm / t.2.2)), e)
      | .nan _ => (0, 0)
      | .inf _ => (0, 0))
    let emin := parts.foldl (fun acc p => if p.2 < acc then p.2 else acc) 0
    let sum := parts.foldl (fun acc p => acc + p.1 * ((2 ^ (p.2 - emin).toNat : Nat) : Int)) 0
    let negZero := fun (t : Term) => match t.2.1 with
      | .fin neg m _ => neg && m = 0
      | .nan _ => false
      | .inf _ => false
    -- zeros of one sign keep it (R45)
    if sum = 0 && !l.isEmpty && l.all negZero then 0x80000000 else
    ratRound (decide (sum < 0)) sum.natAbs (n * chanLcm) (emin - 24)

/-! ### Level of detail (R208) -/

/-- Length of a derivative pair in texels. -/
def rho (ux vx : Word) : Word :=
  let x := fma32 vx vx (mul32 ux ux)
  BitVec.ofNat 32 (sqrtVal .fp32 0 false (f32 x)).1

/-- ρmax / ρmin rounded up, at most `cap`; none for a quotient that is no number. -/
def anisoRatio (hi lo : Word) (cap : Nat) : Option Nat :=
  match f32 (div32 hi lo) with
  | .nan _ => none
  | .inf _ => some cap
  | .fin neg m e =>
    let (q, exact) := roundInt 1 neg m e
    some (min cap (if exact then q else q + 1))

/-- N (R208). -/
def anisoCount (sm : Sampler) (hi lo : Word) (other : Nat) : Nat :=
  if sm.filter ≠ 3 then 1
  else
    let cap := sm.aniso + 1
    if eqVal (f32 lo) (.fin false 0 0) then (if eqVal (f32 hi) (.fin false 0 0) then 1 else cap)
    else
      match anisoRatio hi lo cap with
      | some n => max n 1
      | none => 1 + other % cap

/-- Λ (R208): 256 times the level, clamped. -/
def lodLambda (sm : Sampler) (hi : Word) (n : Nat) : Nat :=
  let q := div32 hi (rne32 false n 0)
  let l := (log2Val .fp32 0 false q.toNat).1
  let lo : Int := 256 * sm.minLvl
  let hiL : Int := 256 * sm.maxLvl
  match FFmt.fp32.value l with
  | .nan _ => lo.toNat
  | .inf neg => if neg then lo.toNat else hiL.toNat
  | .fin _ _ _ =>
    let x := fixed256 (BitVec.ofNat 32 l) 0 + sm.bias
    (if x < lo then lo else if hiL < x then hiL else x).toNat

/-- The wanted levels with their weights out of 256. -/
def wantedLevels (sm : Sampler) (lam : Nat) : List (Nat × Nat) :=
  if sm.filter ≤ 1 then [((lam + 128) / 256, 256)]
  else
    let l0 := lam / 256
    let f := lam % 256
    if sm.maxLvl < l0 + 1 then [(l0, 256)] else [(l0, 256 - f), (l0 + 1, f)]

/-- The operands of one lane of a sample. -/
structure SampleArgs where
  ix : Word
  u : Word
  v : Word
  dudx : Word
  dvdx : Word
  dudy : Word
  dvdy : Word
  deriving DecidableEq, Repr

/-- Texels of a served level found and weighed; every one is checked. -/
def TexEnv.texels (e : TexEnv) (d : LodDesc) (cap : QWord) (l lw : Nat) : List (Option (Nat × Nat) × Nat) →
    TexRun (List TexTerm)
  | [] => texPure []
  | (t, w) :: rest =>
    let own : TexRun TexTerm := match t with
      | none => texPure (.border (lw * w))
      | some (i, j) =>
        let (page, byte, size) := d.texelAt l i j
        texBind (e.element cap page byte size) (fun el =>
          texPure (.texel (lw * w) d.format el (4 * (j % 4) + i % 4)))
    texBoth own (e.texels d cap l lw rest) (fun a b => a :: b)

/-- What one wanted level of a sample gives: its terms, its gutter entry where it is not served at its own level, its service, and
whether a border texel was met. A level that ends at the floor adds FLOOR's channels, by its weight: also the coarser of two wanted
levels where the finer one is served. (DESIGN CHOICE, log 85.) -/
def TexEnv.level (e : TexEnv) (d : LodDesc) (cap : QWord) (sm : Sampler) (other : Int) (ix : Word)
    (points : List (Word × Word)) (m lw : Nat) : TexRun (List TexTerm × List GutterWant × Option Nat × Bool) :=
  let foot := fun (l : Nat) => points.flatMap (fun p => d.footprint sm l other p.1 p.2)
  let pages := fun (l : Nat) => distinct ((foot l).filterMap (fun t => t.1.map (fun ij => (d.texelAt l ij.1 ij.2).1)))
  texBind (e.serve d cap m pages 16 m) (fun r =>
    let b := (foot (r.getD m)).any (fun t => t.1.isNone)
    let p0 := points.headD (0, 0)
    let entry : GutterWant :=
      { desc := ix, want := m, served := lodCode r m, page := d.samplePage sm m other p0.1 p0.2 }
    let entries := if lodCode r m = 0 then [] else [entry]
    match r with
    | none => texPure ([.floor (lw * 65536 * points.length) d.floor], entries, r, b)
    | some l => texBind (e.texels d cap l lw (foot l)) (fun ts => texPure (ts, entries, r, b)))

/-- What the wanted levels of a sample give, the finer first (R210). -/
def TexEnv.levels (e : TexEnv) (d : LodDesc) (cap : QWord) (sm : Sampler) (other : Int) (ix : Word)
    (points : List (Word × Word)) : List (Nat × Nat) → TexRun (List TexTerm × List GutterWant × List (Option Nat) × Bool)
  | [] => texPure ([], [], [], false)
  | (m, lw) :: rest =>
    texBoth (e.level d cap sm other ix points m lw) (e.levels d cap sm other ix points rest) (fun a b =>
      (a.1 ++ b.1, a.2.1 ++ b.2.1, a.2.2.1 :: b.2.2.1, a.2.2.2 || b.2.2.2))

/-- SAMPLE and SAMPLEG in one lane (R204 to R210). `free` numbers the values that the manual does not state: a texel
index of a coordinate that is no number, a ratio that is no number. (DEDUCED, log 29.) -/
def TexEnv.sample (e : TexEnv) (x5 : XReg) (a : SampleArgs) (sampler : Word) (free : Nat) : TexRun LodOut :=
  texBind (e.descriptor x5 a.ix.toNat) (fun dc =>
    let (d, cap) := dc
    let sm := samplerOf sampler.toNat d.levels
    let floor := (floorChannels d.floor).map (fun c => filterSum 1 [(16777216, c)])
    let oor : LodOut := { data := .words floor, status := lodStatus none 0 true }
    if d.kind = 1 || (f32 a.u).isNan || (f32 a.v).isNan then texPure oor
    else
      let w0 := rne32 false (d.width 0) 0
      let h0 := rne32 false (d.height 0) 0
      let rx := rho (mul32 a.dudx w0) (mul32 a.dvdx h0)
      let ry := rho (mul32 a.dudy w0) (mul32 a.dvdy h0)
      let yMajor := lt32 rx ry
      let (hi, lo) := if yMajor then (ry, rx) else (rx, ry)
      let other : Int := (Config.freeNat free : Int) - Config.freeNat (free + 1)
      let n := anisoCount sm hi lo (Config.freeNat free)
      let lam := lodLambda sm hi n
      let want := wantedLevels sm lam
      let points := if sm.filter ≠ 3 then [(a.u, a.v)]
        else (upto n).map (fun (k : Nat) =>
          let num : Int := 2 * (k : Int) + 1 - (n : Int)
          let kap := ratRound (decide (num < 0)) num.natAbs (2 * n) 0
          let (du, dv) := if yMajor then (a.dudy, a.dvdy) else (a.dudx, a.dvdx)
          (fma32 kap du a.u, fma32 kap dv a.v))
      if want.any (fun m => decide (d.levels ≤ m.1)) then texPure oor
      else
        texBind (e.levels d cap sm other a.ix points want) (fun r =>
          let (terms, entries, served, border) := r
          let first := (want.headD (0, 0)).1
          -- STATUS 15, of the finer wanted level, delivers FLOOR (R210)
          texPure { data := if (served.headD none).isNone then .words floor else .filter n terms,
                    status := lodStatus (served.headD none) first border,
                    entries := if border then [] else entries }))

/-! ### The gutter (R199, R200) -/

/-- GUTTER_ENTRY_PERFORMED (R199, R200): the oldest entry that the texture unit of a core has accepted is written at index HEAD, and
HEAD rises; those of different units come in any order. It waits for channels and links (R323, R336; log 72). -/
def execGutterEntryPerformed (unit : GutterUnit) (s : State) : Result :=
  match s.context? unit.ctx with
  | none => .next s
  | some c =>
    match c.gutPending.find? (fun e => e.2.1 = unit.core) with
    | none => .next s
    | some (id, _, q) =>
      if s.dieHeld (unit.core / 64) then .next s
      else
      let rest := c.gutPending.erase (id, unit.core, q)
      let q : QWord := q ||| BitVec.ofNat 128 ((c.guthead.toNat % 65536) * 2 ^ 112)
      let at_ := c.gutBase + 16 * (c.guthead.toNat % c.gutSize)
      .next ((s.writeBytes at_ (leBytes 16 q.toNat)).setContext
        { c with gutPending := rest, guthead := c.guthead + 1 })

/-- GUTTAIL written by the management cores (R199, R200): a value that would make HEAD − TAIL exceed SIZE is ignored; else
every filter forgets the context's keys. -/
def execGuttail (ctx : Nat) (value : Word) (s : State) : Result :=
  match s.context? ctx with
  | none => .next s
  | some c =>
    if c.gutSize < (c.guthead - value).toNat then .next s
    else
      let s := s.setContext { c with guttail := value }
      .next { s with cores := s.cores.map (fun k => { k with filter := k.filter.filter (fun f => f.ctx ≠ ctx) }) }

/-- GUTHEAD written by the management cores (R199): only while the ring is empty. -/
def execGuthead (ctx : Nat) (value : Word) (s : State) : Result :=
  match s.context? ctx with
  | none => .next s
  | some c =>
    if c.guthead = c.guttail ∧ c.gutPending = [] then .next (s.setContext { c with guthead := value })
    else .next s

/-- GUTOVF written by the management cores (Table 11.4): both fields. -/
def execGutovf (ctx : Nat) (value : Word) (s : State) : Result :=
  match s.context? ctx with
  | none => .next s
  | some c => .next (s.setContext { c with gutovf := value })

/-! ### The instructions -/

/-- LDLOD (R201). -/
def execLdlod (u : Bool) (d : Dst) (sz : LodSize) (a : Src) (s : State) : Result := flyChecked (.ldlod u d sz a) s

/-- SAMPLE (R204). -/
def execSample (u : Bool) (d : Dst) (a b : Src) (s : State) : Result := flyChecked (.sample u d a b) s

/-- SAMPLEG (R204). -/
def execSampleg (u : Bool) (d : Dst) (a b : Src) (s : State) : Result := flyChecked (.sampleg u d a b) s

/-- The sample operands of a lane; SAMPLE's derivatives come from its quad (R205). -/
def Pend.sampleArgs (p : Pend) (g : Group) (lane : Nat) : SampleArgs :=
  let at_ := fun (j l : Nat) => p.op g .control j l
  let base : SampleArgs :=
    { ix := at_ 0 lane, u := at_ 1 lane, v := at_ 2 lane, dudx := 0, dvdx := 0, dudy := 0, dvdy := 0 }
  match p.instr with
  | .sampleg _ _ _ _ => { base with dudx := at_ 3 lane, dvdx := at_ 4 lane, dudy := at_ 5 lane, dvdy := at_ 6 lane }
  | _ =>
    if p.instr.uniform then base
    else
      let q := 4 * (lane / 4)
      { base with
        dudx := sub32 (at_ 1 (q + 1)) (at_ 1 q), dvdx := sub32 (at_ 2 (q + 1)) (at_ 2 q)
        dudy := sub32 (at_ 1 (q + 2)) (at_ 1 q), dvdy := sub32 (at_ 2 (q + 2)) (at_ 2 q) }

/-- One lane of a T-path instruction. -/
def TexEnv.lane (e : TexEnv) (g : Group) (p : Pend) (lane : Nat) : TexRun LodOut :=
  let x5 := p.xcap.getD {}
  match p.instr with
  | .ldlod _ _ sz _ => e.ldlod x5 sz.words (p.op g .control 0 lane) (p.op g .control 1 lane) (p.op g .control 2 lane)
  | .sample _ _ _ _ => e.sample x5 (p.sampleArgs g lane) (p.op g .control 3 lane) (e.s.freeCount + 256 + 2 * lane)
  | _ => e.sample x5 (p.sampleArgs g lane) (p.op g .control 7 lane) (e.s.freeCount + 256 + 2 * lane)

/-- The first fault of R202 among lanes. -/
def texTrap (l : List (Nat × TexM LodOut)) : Option Trap :=
  laneFault (l.filterMap (fun e => match e.2 with
    | .ok _ => none
    | .error (o, t) => some (e.1, .bad o t.cause t.sub t.faddr.toNat [])))

/-- Lines put into a texture unit's cache. -/
def Core.fillTexture (k : Core) (m : List Host.Cell) (sectors : List Nat) : Core :=
  { k with texCache := sectors.foldl (fun l x =>
    if l.any (fun e => e.1 = x) then l else (x, memRead m (32 * x) 32) :: l) k.texCache }

/-- The elements that a lane is to read. -/
def TexData.elems : TexData → List TexElem
  | .words _ => []
  | .element e _ => [e]
  | .filter _ l => l.filterMap (fun t => match t with
      | .texel _ _ e _ => some e
      | .border _ => none
      | .floor _ _ => none)

/-- The terms of a channel, from the bytes of elements. -/
def TexTerm.channels (read : TexElem → List Byte) : TexTerm → Nat × List Chan
  | .texel w format e t => (w, texelChannels format (read e) t)
  | .border w => (w, [chan0, chan0, chan0, chan0])
  | .floor w word => (w, floorChannels word)

/-- The words of a lane's data, from the bytes of elements. -/
def TexData.value (read : TexElem → List Byte) : TexData → List Word
  | .words l => l
  | .element e n => (upto n).map (fun i => BitVec.ofNat 32 (leValue (((read e).drop (4 * i)).take 4)))
  | .filter n l =>
    let ts := l.map (TexTerm.channels read)
    (upto 4).map (fun i => filterSum n (ts.map (fun t => (t.1, nth t.2 i chan0))))

/-- A T-path read consults descriptors and residency maps: it faults, or keeps what it has resolved. The leaves of its walks that passed
are marked in either case (R161, R203), and the lines that it used are kept (R202). -/
def State.textureLook (s : State) (g : Group) (p : Pend) (c : Context) : State :=
  let e : TexEnv := { s := s, core := g.core, cache := s.texHeld g.core, c := c }
  let l := p.accessLanes.map (fun lane => (lane, e.lane g p lane))
  let use := l.foldl (fun (acc : TexUse) o => acc.and o.2.2) {}
  let s := (s.markLeaves g.core c.id false use.leaves).chargeAccess g (distinct use.sectors)
  match texTrap (l.map (fun x => (x.1, x.2.1))) with
  | some t => s.faultPend g p t
  | none =>
    let outs := l.filterMap (fun x => match x.2.1 with
      | .ok o => some (x.1, o, x.2.2)
      | .error _ => none)
    let k := s.coreAt g.core
    let s := s.setCore g.core ({ k with texCache := e.cache }.fillTexture s.mem (distinct use.sectors))
    let s : State := { s with freeCount := s.freeCount + 512 + (s.coreAt g.core).texCache.length }
    s.setGroup (g.setPend { p with tex := outs.map (fun o =>
      { lane := o.1, data := o.2.1.data, status := o.2.1.status, entries := o.2.1.entries,
        pages := distinct (o.2.2.leaves.map (fun e => e.2 / 65536)) }) })

/-- Lanes of a resolved T-path read that meet a poisoned element (R202): POISON, with the offset of the first. -/
def State.texturePoison (s : State) (p : Pend) : Option Trap :=
  laneFault (p.tex.filterMap (fun x =>
    (x.data.elems.find? (fun e => s.runsPoisoned e.runs)).map (fun e => (x.lane, .bad 9 .poison 0 e.off []))))

/-- A T-path read that has resolved what it reads reads it: its registers are written, and its gutter entries are produced as it
completes (R200, R203, R232). -/
def State.textureRead (s : State) (g : Group) (p : Pend) (part : Nat) : State :=
  match s.texturePoison p with
  | some t => s.faultPend g { p with tex := [] } t
  | none =>
    let cache := s.texHeld g.core
    let k := s.coreAt g.core
    let elems := p.tex.flatMap (fun x => x.data.elems)
    let secs := runSectors (elems.flatMap TexElem.runs)
    let s := (s.setCore g.core ({ k with texCache := cache }.fillTexture s.mem secs)).chargeAccess g secs
    let read := fun (e : TexElem) => (runAddresses e.runs).map (fun a => match a with
      | some a => s.texByte cache a
      | none => 0)
    let s : State := { s with freeCount := s.freeCount + 1 + (s.coreAt g.core).texCache.length }
    let outs := p.tex.map (fun x => (x.lane, x.data.value read ++ [x.status]))
    let out := fun (lane : Nat) => assoc outs (if p.instr.uniform then lowestLane p.lmask else lane) []
    s.returnAll g.id { p with tex := [], gutters := p.tex.flatMap (fun x => x.entries) } part (fun i lane => nth (out lane) i 0)

/-- A T-path read is performed (R203): it resolves what it reads, and reads it, at once or later (R195: the map may be cleared in
between). (DESIGN CHOICE, log 11.) It waits for channels, links and
budgets (R323, R327, R336). -/
def State.textureResult (s : State) (g : Group) (p : Pend) (part : Nat) : State :=
  match s.contextOf g with
  | none => s
  | some c =>
    if s.unitWaits g then s
    else if !p.tex.isEmpty then s.textureRead g p part
    else
      let later := decide (Config.freeNat s.freeCount % 2 = 1)
      let s := s.nextFree.textureLook g p c
      match later, s.group? g.id with
      | false, some g =>
        (match g.pend? p.id with
          | some p => if p.tex.isEmpty then s else s.textureRead g p part
          | none => s)
      | _, _ => s

end Sys2Proof.Machine
end

