-- ==== Sys2Proof/Machine/Rays.lean ====
section
/-! DEFINITION. The BVH (R260 to R262), rays against boxes and triangles (R263 to R265), TRACE and HITRET (R267 to R269),
coverage and COVER (R270 to R272), VISB (R273, R274) and REPACK (R275). -/
namespace Sys2Proof.Machine

/-! ### Exact values -/

/-- An exact value m × 2^e. -/
structure Dyad where
  m : Int
  e : Int
  deriving DecidableEq, Repr

/-- An integer. -/
def dyInt (x : Int) : Dyad := { m := x, e := 0 }

/-- Sum. -/
def Dyad.add (a b : Dyad) : Dyad :=
  let e := min a.e b.e
  { m := a.m * 2 ^ (a.e - e).toNat + b.m * 2 ^ (b.e - e).toNat, e := e }

/-- Negation. -/
def Dyad.neg (a : Dyad) : Dyad := { a with m := -a.m }

/-- Difference. -/
def Dyad.sub (a b : Dyad) : Dyad := a.add b.neg

/-- Product. -/
def Dyad.mul (a b : Dyad) : Dyad := { m := a.m * b.m, e := a.e + b.e }

/-- Below zero. -/
def Dyad.isNeg (a : Dyad) : Bool := decide (a.m < 0)

/-- Above zero. -/
def Dyad.isPos (a : Dyad) : Bool := decide (0 < a.m)

/-- Magnitude order. -/
def Dyad.absLt (a b : Dyad) : Bool :=
  let e := min a.e b.e
  decide (a.m.natAbs * 2 ^ (a.e - e).toNat < b.m.natAbs * 2 ^ (b.e - e).toNat)

/-- The value of a finite FP32 word. -/
def dyOf (w : Word) : Option Dyad :=
  match f32 w with
  | .fin n m e => some { m := sgn n m, e := e }
  | .nan _ => none
  | .inf _ => none

/-- A value rounded once to FP32: RND 0 rne, 2 rdn, 3 rup. A zero is +0. -/
def Dyad.round (rnd : Nat) (a : Dyad) : Word :=
  BitVec.ofNat 32 (roundFin .fp32 rnd false a.isNeg a.m.natAbs a.e false).1

/-- A quotient rounded once to FP32; a zero is +0. The divisor is not zero. -/
def Dyad.quo (rnd : Nat) (a b : Dyad) : Word :=
  if a.m = 0 then 0
  else
    let sh := Nat.log2 b.m.natAbs + 32
    let x := a.m.natAbs * 2 ^ sh
    BitVec.ofNat 32 (roundFin .fp32 rnd false (a.isNeg != b.isNeg) (x / b.m.natAbs) (a.e - b.e - sh)
      (decide (x % b.m.natAbs ≠ 0))).1

/-- Three values by axis. -/
def axis {α : Type} (l : List α) (k : Nat) (d : α) : α := nth l k d

/-- +∞ as FP32. -/
def infinity32 : Word := 0x7F800000

/-- The larger of two FP32 words that are no NaN. -/
def max32 (a b : Word) : Word := if lt32 a b then b else a

/-- The smaller of two. -/
def min32 (a b : Word) : Word := if lt32 b a then b else a

/-! ### The BVH (R260, R261) -/

/-- A child of a node: its type, box, whether a LO passes its HI, first node or record, and record count. -/
structure BvhChild where
  kind : Nat
  box : Box
  empty : Bool
  at_ : Nat
  count : Nat
  deriving DecidableEq, Repr

/-- A node's children (Table 17.1); none is a BVH fault. -/
def bvhNode (x : Nat) : Option (List BvhChild) :=
  let org := (upto 3).map (fun k => dyOf (BitVec.ofNat 32 (bits x (32 * k + 31) (32 * k))))
  if bits x 511 416 ≠ 0 || org.any Option.isNone then none
  else
    let kind := fun (i : Nat) => bits x (121 + 2 * i) (120 + 2 * i)
    let count := fun (i : Nat) => bits x (199 + 8 * i) (192 + 8 * i)
    let size := fun (i : Nat) => if kind i = 2 then 48 else if kind i = 3 then 64 else 0
    if (upto 4).any (fun i => decide (2 ≤ kind i) && decide (count i = 0)) then none
    else
      let field := fun (i k j : Nat) => bits x (231 + 48 * i + 8 * (3 * j + k)) (224 + 48 * i + 8 * (3 * j + k))
      let bound := fun (rnd i k j : Nat) =>
        let ex : Int := toSigned 8 (bits x (103 + 8 * k) (96 + 8 * k))
        (((axis org k none).getD (dyInt 0)).add { m := field i k j, e := ex }).round rnd
      some ((upto 4).filterMap (fun i =>
        if kind i = 0 then none
        else
          let before := upto i
          some { kind := kind i, count := count i
                 empty := (upto 3).any (fun k => decide (field i k 1 < field i k 0))
                 box := { lo := (upto 3).map (fun k => bound 2 i k 0), hi := (upto 3).map (fun k => bound 3 i k 1) }
                 at_ := if kind i = 1 then bits x 159 128 + (before.filter (fun j => kind j = 1)).length
                   else 16 * bits x 191 160 + sumNat (before.map (fun j => size j * count j)) }))

/-- A triangle in the world: its record's offset, the record of its instance, id and key, and its nine coordinates. -/
structure WorldTri where
  off : Nat
  instOff : Option Nat
  prim : Nat
  inst : Nat
  alpha : Bool
  verts : List Word
  deriving DecidableEq, Repr

/-- The visibility word (R265). -/
def WorldTri.key (t : WorldTri) : Nat := t.prim * 128 + t.inst

/-- An exact sum of products rounded once (R261, R273): the canonical NaN where it has no value; a sum of zeros that are all negative
is −0 (R45). -/
def dot32 (a b : List Word) : Word :=
  let ps := (a.zip b).map (fun e => match f32 e.1, f32 e.2 with
    | .fin n m x, .fin k l y => FVal.fin (n != k) (m * l) (x + y)
    | .inf n, .fin k l _ => if l = 0 then .nan false else .inf (n != k)
    | .fin k l _, .inf n => if l = 0 then .nan false else .inf (n != k)
    | .inf n, .inf k => .inf (n != k)
    | .nan s, _ => .nan s
    | _, .nan s => .nan s)
  let up := ps.any (fun v => decide (v = .inf false))
  let down := ps.any (fun v => decide (v = .inf true))
  if ps.any FVal.isNan || (up && down) then 0x7FC00000
  else if up then infinity32
  else if down then 0xFF800000
  else if ps.all (fun v => decide (v = .fin true 0 0) || (match v with
      | .fin n m _ => n && m = 0
      | .nan _ => false
      | .inf _ => false)) then 0x80000000
  else (ps.foldl (fun (acc : Dyad) v => match v with
    | .fin n m e => acc.add { m := sgn n m, e := e }
    | .nan _ => acc
    | .inf _ => acc) (dyInt 0)).round 0

/-- A point under an instance's transform. -/
def InstRec.point (r : InstRec) (p : List Word) : List Word :=
  (upto 3).map (fun k => dot32 ((r.t.drop (4 * k)).take 4) (p ++ [0x3F800000]))

/-- The FP32 value one step below, and one step above. -/
def stepDown (w : Word) : Word :=
  if w = 0 ∨ w = 0x80000000 then 0x80000001 else if w.getLsbD 31 then (if w = 0xFF800000 then w else w + 1) else w - 1
/-- One step above. -/
def stepUp (w : Word) : Word :=
  if w = 0 ∨ w = 0x80000000 then 1 else if w.getLsbD 31 then w - 1 else if w = infinity32 then w else w + 1

/-- The corners of a box. -/
def Box.corners (b : Box) : List (List Word) :=
  (upto 8).map (fun i => (upto 3).map (fun k => if i.testBit k then axis b.hi k 0 else axis b.lo k 0))

/-- An object-space box in the world (R261): that of its eight corners, one step wider; none where a corner is no finite
point, and the box then counts as met. -/
def InstRec.box (r : InstRec) (b : Box) : Option Box :=
  let corners := b.corners.map r.point
  if corners.any (fun p => p.any (fun w => (dyOf w).isNone)) then none
  else
    let at_ := fun (k : Nat) => corners.map (fun p => axis p k 0)
    some { lo := (upto 3).map (fun k => stepDown ((at_ k).foldl min32 infinity32))
           hi := (upto 3).map (fun k => stepUp ((at_ k).foldl max32 0xFF800000)) }

/-- What a walk finds: triangles, a BVH fault, the first trap of a read, the parts put off, and the lines and leaves used. -/
structure BvhOut where
  tris : List WorldTri := []
  bad : Bool := false
  err : Option (Nat × Trap) := none
  left : List WalkItem := []
  use : TexUse := {}
  deriving DecidableEq, Repr

/-- The trap of the earlier cause of R176, the first on a tie. -/
def firstErr : Option (Nat × Trap) → Option (Nat × Trap) → Option (Nat × Trap)
  | none, b => b
  | a, none => a
  | some a, some b => if b.1 < a.1 then some b else some a

/-- Two parts of a walk. -/
def BvhOut.and (a b : BvhOut) : BvhOut :=
  { tris := a.tris ++ b.tris, bad := a.bad || b.bad, err := firstErr a.err b.err, left := a.left ++ b.left, use := a.use.and b.use }

/-- A BVH fault met. -/
def bvhBad : BvhOut := { bad := true }

/-- A walk's reads: the bytes at an offset of x6, none past its bound (R261). -/
abbrev BvhRead := Nat → Nat → TexRun (Option Nat)

/-- Reads through x6 at the L2 or from lines that the ridge units hold. -/
def State.bvhRead (s : State) (core : Nat) (cache : List (Nat × List Byte)) (c : Context) (x : XReg) : BvhRead :=
  fun off n =>
    if x.bound.toNat < off + n then texPure none
    else texBind (s.texRead core cache c x off n 3 5 7) (fun b => texPure (some (leValue b)))

/-- A record read and what is made of its bits. -/
def bvhAt (rd : BvhRead) (off n : Nat) (f : Nat → BvhOut) : BvhOut :=
  match rd off n with
  | (.error e, use) => { err := some e, use := use }
  | (.ok none, _) => bvhBad
  | (.ok (some x), use) =>
    let o := f x
    { o with use := use.and o.use }

/-- Steps of a walk, one after another. -/
def bvhAll {α : Type} (f : α → BvhOut) (l : List α) : BvhOut := l.foldr (fun a o => (f a).and o) {}

/-- A triangle record (Table 17.2). -/
def bvhTri (rd : BvhRead) (inst : Option InstRec) (off : Nat) : BvhOut :=
  bvhAt rd off 48 (fun x =>
    if bits x 383 321 ≠ 0 || bits x 319 313 ≠ 0 || bits x 312 288 = 0x1FFFFFF then bvhBad
    else
      let v := (upto 9).map (fun i => BitVec.ofNat 32 (bits x (32 * i + 31) (32 * i)))
      let world := match inst with
        | none => v
        | some r => (upto 3).flatMap (fun k => r.point ((v.drop (3 * k)).take 3))
      { tris := [{ off := off, instOff := inst.map InstRec.off, prim := bits x 312 288,
                   inst := (inst.map InstRec.id).getD 0, alpha := x.testBit 320, verts := world }] })

/-- An instance record (Table 17.3), and what `below` makes of its subtree's root. -/
def bvhInst (rd : BvhRead) (mask : Byte) (inst : Option InstRec) (below : InstRec → Nat → BvhOut) (off : Nat) : BvhOut :=
  if inst.isSome then bvhBad
  else bvhAt rd off 64 (fun y =>
    if bits y 511 431 ≠ 0 then bvhBad
    else if BitVec.ofNat 8 (bits y 423 416) &&& mask = 0 then {}
    else below { off := off, id := bits y 430 424, t := (upto 12).map (fun i => BitVec.ofNat 32 (bits y (32 * i + 31) (32 * i))) }
      (bits y 415 384))

/-- How a walk goes: which boxes, in the world, it enters, none being a box that counts as met; and which nodes and records, by
offset, it puts off. -/
structure WalkPlan where
  enter : Option Box → Nat → Bool
  later : Nat → Bool

/-- The parts of a walk that a child of a node is made of. -/
def BvhChild.items (k : BvhChild) (inst : Option InstRec) (depth : Nat) : List WalkItem :=
  let box := match inst with
    | none => some k.box
    | some r => r.box k.box
  if k.empty then []
  else if k.kind = 1 then [{ kind := .node, off := 64 * k.at_, inst := inst, box := box, depth := depth }]
  else if k.kind = 2 then (upto k.count).map (fun i =>
    { kind := .triangle, off := k.at_ + 48 * i, inst := inst, box := box, depth := depth })
  else (upto k.count).map (fun i =>
    { kind := .instanceRecord, off := k.at_ + 64 * i, inst := inst, box := box, depth := depth })

/-- The walk of one part and what lies below it (R261). The fuel is the number of nodes that the walk may still go deep; a part
that holds more of them than it has is a fault. -/
def bvhItem (rd : BvhRead) (w : WalkPlan) (mask : Byte) : Nat → WalkItem → BvhOut
  | fuel, i =>
    if !w.enter i.box i.off then {}
    else if w.later i.off then { left := [i] }
    else match i.kind with
      | .triangle => bvhTri rd i.inst i.off
      | .instanceRecord => (match fuel with
        | 0 => bvhInst rd mask i.inst (fun _ _ => bvhBad) i.off
        | n + 1 => bvhInst rd mask i.inst (fun r root => bvhAt rd (64 * root) 64 (fun x => match bvhNode x with
            | none => bvhBad
            | some kids => bvhAll (bvhItem rd w mask n) (kids.flatMap (fun k => k.items (some r) n)))) i.off)
      | .node => (match fuel with
        | 0 => bvhBad
        | n + 1 => bvhAt rd i.off 64 (fun x => match bvhNode x with
            | none => bvhBad
            | some kids => bvhAll (bvhItem rd w mask n) (kids.flatMap (fun k => k.items i.inst n))))

/-- Parts of a walk, one after another. -/
def bvhItems (rd : BvhRead) (w : WalkPlan) (mask : Byte) (l : List WalkItem) : BvhOut :=
  bvhAll (fun i => bvhItem rd w mask i.depth i) l

/-- A walk that has not begun: the root. A walk is at most 64 nodes deep (R261). -/
def bvhRoot : List WalkItem := [{ kind := .node, off := 0, inst := none, box := none, depth := 64 }]

/-! ### Rays (R263 to R265) -/

/-- A ray: origin and direction exact, tmin and tmax as FP32. -/
structure Ray where
  o : List Dyad
  dir : List Dyad
  tmin : Word
  tmax : Word
  deriving DecidableEq, Repr

/-- The ray of eight words; none is invalid (R267). -/
def rayOf (w : List Word) : Option Ray :=
  let at_ := fun (i : Nat) => nth w i 0
  let o := [dyOf (at_ 0), dyOf (at_ 1), dyOf (at_ 2)]
  let d := [dyOf (at_ 4), dyOf (at_ 5), dyOf (at_ 6)]
  if o.any Option.isNone || d.any Option.isNone || (f32 (at_ 3)).isNan || (f32 (at_ 7)).isNan then none
  else
    let d := d.map (fun x => x.getD (dyInt 0))
    if d.all (fun x => x.m = 0) || lt32 (at_ 7) (at_ 3) then none
    else some { o := o.map (fun x => x.getD (dyInt 0)), dir := d, tmin := at_ 3, tmax := at_ 7 }

/-- (bound − o) / dir rounded (R263). -/
def slab (rnd : Nat) (bound : Word) (o dir : Dyad) : Word :=
  match dyOf bound with
  | some b => (b.sub o).quo rnd dir
  | none => if bound.getLsbD 31 != dir.isNeg then 0xFF800000 else infinity32

/-- The box test (R263). -/
def Ray.meets (r : Ray) (tcur : Word) (b : Box) : Bool :=
  let pairs := (upto 3).map (fun k =>
    let o := axis r.o k (dyInt 0)
    let d := axis r.dir k (dyInt 0)
    let lo := axis b.lo k 0
    let hi := axis b.hi k 0
    if d.m = 0 then
      let w := o.round 0
      if le32 lo w && le32 w hi then (0xFF800000, infinity32) else (infinity32, 0xFF800000)
    else (min32 (slab 2 lo o d) (slab 2 hi o d), max32 (slab 3 lo o d) (slab 3 hi o d)))
  le32 (pairs.foldl (fun acc p => max32 acc p.1) r.tmin) (pairs.foldl (fun acc p => min32 acc p.2) tcur)

/-- A triangle's tag: its record and its instance. -/
def WorldTri.tag (t : WorldTri) : Nat × Nat := (t.off, (t.instOff.map (· + 1)).getD 0)

/-- A coordinate of a sheared vertex. -/
structure Sheared where
  x : Dyad
  y : Dyad
  z : Dyad
  deriving DecidableEq, Repr

/-- The vertices of a triangle in the ray's frame; none where a value is no number or rounds to an infinity (R264). -/
def Ray.shear (r : Ray) (kx ky kz : Nat) (sx sy : Dyad) (verts : List Word) : Option (List Sheared) :=
  let all := (upto 3).map (fun (v : Nat) =>
    let p := (upto 3).map (fun (k : Nat) => match dyOf (nth verts (3 * v + k) 0) with
      | none => none
      | some x => dyOf ((x.sub (axis r.o k (dyInt 0))).round 0))
    match axis p kx none, axis p ky none, axis p kz none with
    | some a, some b, some c =>
      (match dyOf ((a.sub (sx.mul c)).round 0), dyOf ((b.sub (sy.mul c)).round 0) with
        | some x, some y => some ({ x := x, y := y, z := c } : Sheared)
        | _, _ => none)
    | _, _, _ => none)
  if all.any Option.isNone then none else some (all.filterMap id)

/-- The triangle test (R264). -/
def Ray.test (r : Ray) (t : WorldTri) : Option TriHit :=
  let d := fun (k : Nat) => axis r.dir k (dyInt 0)
  let kz := if (d 0).absLt (d 1) then (if (d 1).absLt (d 2) then 2 else 1) else if (d 0).absLt (d 2) then 2 else 0
  let k1 := (kz + 1) % 3
  let k2 := (kz + 2) % 3
  let (kx, ky) := if (d kz).isNeg then (k2, k1) else (k1, k2)
  match dyOf ((d kx).quo 0 (d kz)), dyOf ((d ky).quo 0 (d kz)), dyOf ((dyInt 1).quo 0 (d kz)) with
  | some sx, some sy, some sz =>
    (match r.shear kx ky kz sx sy t.verts with
      | some [a, b, c] =>
        let u := (c.x.mul b.y).sub (c.y.mul b.x)
        let v := (a.x.mul c.y).sub (a.y.mul c.x)
        let w := (b.x.mul a.y).sub (b.y.mul a.x)
        let det := (u.add v).add w
        if ((u.isNeg || v.isNeg || w.isNeg) && (u.isPos || v.isPos || w.isPos)) || det.m = 0 then none
        else
          let tw := (sz.mul (((u.mul a.z).add (v.mul b.z)).add (w.mul c.z))).quo 0 det
          if (dyOf tw).isNone || lt32 tw r.tmin || lt32 r.tmax tw then none
          else some { hit := { t := tw, u := v.quo 0 det, v := w.quo 0 det, prim := t.prim, inst := t.inst, det := det.isPos },
                      alpha := t.alpha, tag := t.tag }
      | _ => none)
  | _, _, _ => none

/-- Rank of hits (R265). -/
def RayHit.before (a b : RayHit) : Bool :=
  lt32 a.t b.t || (!lt32 b.t a.t && decide (a.prim * 128 + a.inst < b.prim * 128 + b.inst))

/-- A hit committed beside the best so far. -/
def commitHit (best : Option RayHit) (h : RayHit) : Option RayHit :=
  match best with
  | none => some h
  | some b => if h.before b then some h else some b

/-! ### TRACE and HITRET (R267 to R269) -/

/-- Where a lane's walk stands: its status, the hit reported, and the candidate state kept. -/
structure LaneTrace where
  status : Nat
  hit : Option RayHit
  keep : Option Candidate
  deriving DecidableEq, Repr

/-- The end of a walk. -/
def endTrace (best : Option RayHit) : LaneTrace := { status := if best.isSome then 1 else 0, hit := best, keep := none }

/-- The hits that a walk has still to take: those up to tcur, each candidate shown once. -/
def liveHits (l : List TriHit) (tcur : Word) (shown : List (Nat × Nat)) : List TriHit :=
  l.filter (fun h => le32 h.hit.t tcur && !(h.alpha && shown.contains h.tag))

/-- Opaque hits committed under cand rules. -/
def Candidate.opaques (c : Candidate) (hits : List TriHit) : Option RayHit :=
  ((liveHits hits c.tcur c.shown).filter (fun h => !h.alpha)).foldl (fun b (h : TriHit) => commitHit b h.hit) c.best

/-- A walk that stops at a candidate, with the hits found and the parts left. -/
def Candidate.present (c : Candidate) (h : TriHit) (best : Option RayHit) (hits : List TriHit) (left : List WalkItem) : LaneTrace :=
  { status := 2, hit := some h.hit,
    keep := some { c with best := best, tcur := (best.map RayHit.t).getD c.tcur, pending := h.hit, shown := h.tag :: c.shown,
                          hits := hits, left := left } }

/-- A walk under cand rules where it stops among the hits found so far: before the opaque hits commit or after; with parts left
it may also go on. The order of visits is free (R262). -/
def Candidate.stop (c : Candidate) (hits : List TriHit) (left : List WalkItem) (free : Nat) : Option LaneTrace :=
  let early := (liveHits hits c.tcur c.shown).filter TriHit.alpha
  match early[Config.anyHit free % (early.length + 1)]? with
  | some h => some (c.present h c.best hits left)
  | none =>
    let best := c.opaques hits
    let late := early.filter (fun (h : TriHit) => le32 h.hit.t ((best.map RayHit.t).getD c.tcur))
    (late[Config.anyHit (free + 1) % (late.length + (if left.isEmpty then 0 else 1))]?).map (fun h => c.present h best hits left)

/-- A ray enters a box: met, or one that counts as met (R263). -/
def Ray.enters (r : Ray) (tcur : Word) (b : Option Box) : Bool :=
  match b with
  | none => true
  | some b => r.meets tcur b

/-- A walk has visited every box that its ray meets: it ended, and not at the first hit. -/
def LaneTrace.whole (r : LaneTrace) (k : TraceKind) : Bool := r.status = 0 || (r.status = 1 && decide (k ≠ .any))

/-- What a lane's walk comes to where `o` is what it met: its result, or a BVH fault or the trap of a read. `must` is what it
met under boxes that it had to enter; a fault elsewhere may be met or not (R262). -/
def BvhOut.outcome (o must : BvhOut) (whole : Bool) (free : Nat) (res : LaneTrace) : TexM LaneTrace :=
  let faults : List (TexM LaneTrace) := (match o.err with
      | some e => [.error e]
      | none => []) ++ (if o.bad then [.ok { status := 4, hit := none, keep := none }] else [])
  let all := if whole && (must.bad || must.err.isSome) then faults else faults ++ [.ok res]
  (all[Config.anyHit free % all.length]?).getD (.ok res)

/-- A lane's walk of the BVH from the parts that are left, with what it used. Boxes that the ray cannot meet may be visited or
skipped (R262); under cand rules some parts may be put off until the walk resumes. -/
def traceLane (rd : BvhRead) (ray : Ray) (k : TraceKind) (c : Candidate) (free : Nat) : TexM LaneTrace × TexUse :=
  let enter := fun b off => ray.enters c.tcur b || Config.visits free off
  let one := bvhItems rd { enter := enter, later := fun off => k = .cand && Config.visits (free + 1) off } c.mask c.left
  let rest := bvhItems rd { enter := enter, later := fun _ => false } c.mask one.left
  let hitsOf := fun (o : BvhOut) => c.hits ++ o.tris.filterMap ray.test
  let all := one.and rest
  let stopped := match k with
    | .cand => c.stop (hitsOf one) one.left free
    | .closest => none
    | .any => none
  let (o, res) := match stopped with
    | some r => (one, r)
    | none => (all, match k with
      | .cand => (c.stop (hitsOf all) [] (free + 2)).getD (endTrace (c.opaques (hitsOf all)))
      | .closest => endTrace ((hitsOf all).foldl (fun b (h : TriHit) => commitHit b h.hit) none)
      | .any => endTrace (((hitsOf all)[Config.anyHit free % (hitsOf all).length]?).map TriHit.hit))
  if !o.bad && o.err.isNone then (.ok res, o.use)
  else
    let tcur := match res.hit with
      | some h => if res.status = 1 then h.t else c.tcur
      | none => c.tcur
    let must := bvhItems rd { enter := fun b _ => ray.enters tcur b, later := fun _ => false } c.mask c.left
    (o.outcome must (res.whole k) (free + 3) res, o.use)

/-- The six result words (Table 17.4). -/
def traceWords (status : Nat) (h : Option RayHit) : List Word :=
  match status, h with
  | 1, some h => hitWords status h
  | 2, some h => hitWords status h
  | _, _ => [infinity32, 0xFFFFFFFF, 0xFFFFFFFF, 0, 0, BitVec.ofNat 32 status]
where
  /-- A hit or a candidate. -/
  hitWords (status : Nat) (h : RayHit) : List Word :=
    [h.t, BitVec.ofNat 32 h.prim, BitVec.ofNat 32 h.inst, h.u, h.v, BitVec.ofNat 32 (status + (if h.det then 16 else 0))]

/-- A ray or coverage instruction. -/
def isRay : Instr → Bool
  | .trace _ _ _ _ => true
  | .hitret _ _ => true
  | .visb _ _ _ => true
  | .cover _ _ => true
  | _ => false

/-- The context of a group has spent its budget of node visits of the die's ridge units (R327). -/
def State.ridgeSpent (s : State) (g : Group) : Bool :=
  ((s.contextOf g).map (fun c => c.spentOut (.ridge (g.core / 64)))).getD false

/-- A unit may perform: the group's earlier commands of this class and scratchpad accesses are done (R276), and nothing that it may
need waits (R323, R327, R336). -/
def State.unitTurn (s : State) (g : Group) (p : Pend) : Bool :=
  g.resident && !s.unitWaits g && !s.ridgeSpent g && !((s.team? g.team).map Team.preempted).getD false &&
    (g.before p).all (fun q => q.readDone || (!isRay q.instr && (!isScratch q.instr || isWaita q.instr)))

/-- x6 holds R and a TYPE 3 capability (R267). -/
def x6Ok (x : XReg) : Bool := hasPerm x.perm permR && x.type = 3

/-- The lines that a die's ridge units still hold, each a free choice. -/
def State.ridgeHeld (s : State) (core : Nat) : List (Nat × List Byte) :=
  let l := (s.dieAt (core / 64)).ridge
  ((upto l.length).zip l).filterMap (fun e => if Config.stillHeld (s.freeCount + e.1) then some e.2 else none)

/-- Leaves marked and lines kept after a walk, and what it used charged to its context (R327): two sectors a node visit. (DESIGN CHOICE,
log 49.) `cache` is what was still held. -/
def State.keepRidge (s : State) (core ctx : Nat) (cache : List (Nat × List Byte)) (use : TexUse) : State :=
  let s := s.markLeaves core ctx false use.leaves
  let d := s.dieAt (core / 64)
  let ridge := (distinct use.sectors).foldl (fun l x =>
    if l.any (fun e => e.1 = x) then l else (x, memRead s.mem (32 * x) 32) :: l) cache
  let s := s.charge ctx ((.ridge (core / 64), use.sectors.length / 2) :: demandOf core (distinct use.sectors))
  { s.setDie (core / 64) { d with ridge := ridge } with freeCount := s.freeCount + 512 + cache.length }

/-- Lanes that a ridge unit holds candidate state for, those of a group's own lanes apart (R268). -/
def State.candLanes (s : State) (unit gid : Nat) (mine : List Nat) : Nat :=
  sumNat (s.groups.map (fun g => (g.cands.filter (fun cd => cd.unit = unit && !(g.id = gid && mine.contains cd.lane))).length))

/-- Lanes' results are due; the other lanes keep their values. -/
def State.returnLanes (s : State) (g : Group) (p : Pend) (part : Nat) (out : List (Nat × List Word)) : State :=
  let m := maskFrom (out.map (fun o => o.1))
  let due : List (Nat × DWord × List Word) := if m = 0 then [] else (upto 6).map (fun i =>
    (i, m, tabulate (fun lane => nth (assoc out lane []) i 0)))
  s.deliver g { p with due := due, todo := [] } part

/-- A candidate state with nothing found yet. -/
def newCandidate (lane : Nat) (w : List Word) (mask : Byte) (x6 : XReg) (unit : Nat) : Candidate :=
  { lane := lane, ray := w, mask := mask, x6 := x6, unit := unit, tcur := nth w 7 0, best := none,
    pending := { t := 0, u := 0, v := 0, prim := 0, inst := 0, det := false }, shown := [], left := bvhRoot, hits := [] }

/-- Lanes' walks made, as one instruction: it faults, or its results are due and candidate state is kept (R267 to R269).
`lanes` gives each lane's kind and state; a lane without a valid ray has none. `ended` are lanes whose walks are over. -/
def State.traceAll (s : State) (g : Group) (p : Pend) (part : Nat) (c : Context)
    (lanes : List (Nat × Option (Ray × TraceKind × Candidate))) (ended : List (Nat × LaneTrace)) : State :=
  let cache := s.ridgeHeld g.core
  let outs : List (Nat × TexM LaneTrace × TexUse) := lanes.map (fun l => (l.1, match l.2 with
    | none => (.ok { status := 3, hit := none, keep := none }, {})
    | some (ray, k, cd) => traceLane (s.bvhRead g.core cache c cd.x6) ray k cd (s.freeCount + 256 + 4 * l.1)))
  let s := s.keepRidge g.core c.id cache (outs.foldl (fun (u : TexUse) o => u.and o.2.2) {})
  match laneFault (outs.filterMap (fun e => match e.2.1 with
    | .ok _ => none
    | .error (o, t) => some (e.1, .bad o t.cause t.sub t.faddr.toNat []))) with
  | some t => s.faultPend g p t
  | none =>
    let done := ended ++ outs.filterMap (fun e => match e.2.1 with
      | .ok o => some (e.1, o)
      | .error _ => none)
    let mine := done.map (fun o => o.1)
    let g : Group := { g with cands := g.cands.filter (fun cd => !mine.contains cd.lane) ++ done.filterMap (fun o => o.2.keep) }
    s.returnLanes g p part (done.map (fun o => (o.1, traceWords o.2.status o.2.hit)))

/-- TRACE performed (R267). A cand walk is one ridge unit's, which is free; it waits there until the unit has room (R268): `aux`
names the unit that it waits for. -/
def State.traceDone (s : State) (g : Group) (p : Pend) (part : Nat) (mask : Byte) (k : TraceKind) : State :=
  match s.contextOf g with
  | none => s
  | some c =>
    let x6 := p.xcap.getD {}
    let lanes := lanesIn p.lmask
    let unit := p.aux.headD (8 * (g.core / 64) + Config.freeNat s.freeCount % 8)
    if !x6Ok x6 then s.faultPend g p { cause := .perm, fmask := maskFrom lanes }
    else if k = .cand && decide (4096 < s.candLanes unit g.id lanes + lanes.length) then
      s.nextFree.setGroup (g.setPend { p with aux := [unit] })
    else
      s.nextFree.traceAll g p part c (lanes.map (fun l =>
        let w := (upto 8).map (fun i => p.op g .control i l)
        (l, (rayOf w).map (fun r => (r, k, newCandidate l w mask x6 unit))))) []

/-- HITRET performed (R269): each lane's walk resumes. -/
def State.hitretDone (s : State) (g : Group) (p : Pend) (part : Nat) : State :=
  match s.contextOf g with
  | none => s
  | some c =>
    let held := (lanesIn p.lmask).filterMap (fun l => (g.cands.find? (fun cd => cd.lane = l)).map (fun cd => (l, cd)))
    let step := held.map (fun e =>
      let d := (p.op g .control 0 e.1).toNat
      let cd := if d = 1 ∨ d = 2 then
          let best := commitHit e.2.best e.2.pending
          { e.2 with best := best, tcur := (best.map RayHit.t).getD e.2.tcur }
        else e.2
      (e.1, decide (d = 2), cd))
    let ended := (step.filter (fun e => e.2.1)).map (fun e => (e.1, endTrace e.2.2.best))
    let go := (step.filter (fun e => !e.2.1)).map (fun e =>
      (e.1, (rayOf e.2.2.ray).map (fun r => (r, TraceKind.cand, e.2.2))))
    s.traceAll g p part c go ended

/-! ### Coverage (R270) -/

/-- An edge function. -/
structure Edge where
  a : Int
  b : Int
  c : Int
  deriving DecidableEq, Repr

/-- E_ij of two vertices. -/
def edgeOf (vi vj : Int × Int) : Edge :=
  { a := vi.2 - vj.2, b := vj.1 - vi.1, c := vi.1 * vj.2 - vj.1 * vi.2 }

/-- The value of an edge function. -/
def Edge.at (e : Edge) (px py : Int) : Int := e.a * px + e.b * py + e.c

/-- Negated together. -/
def Edge.neg (e : Edge) : Edge := { a := -e.a, b := -e.b, c := -e.c }

/-- An edge lets a point be covered. -/
def Edge.inside (e : Edge) (px py : Int) : Bool :=
  let v := e.at px py
  decide (0 < v) || (v = 0 && (decide (0 < e.a) || (e.a = 0 && decide (0 < e.b))))

/-- A triangle set up: E12, E20, E01, its area, and whether its area was negative. -/
structure TriSetup where
  e12 : Edge
  e20 : Edge
  e01 : Edge
  area : Int
  flipped : Bool
  deriving DecidableEq, Repr

/-- The setup of three fixed-point vertices. -/
def triSetup (v0 v1 v2 : Int × Int) : TriSetup :=
  let e12 := edgeOf v1 v2
  let e20 := edgeOf v2 v0
  let e01 := edgeOf v0 v1
  let area := e01.at v2.1 v2.2
  if area < 0 then { e12 := e12.neg, e20 := e20.neg, e01 := e01.neg, area := -area, flipped := true }
  else { e12 := e12, e20 := e20, e01 := e01, area := area, flipped := false }

/-- The centre of a pixel. -/
def centre (x : Nat) : Int := 256 * (x : Int) + 128

/-- A pixel is covered. -/
def TriSetup.covers (t : TriSetup) (x y : Nat) : Bool :=
  t.area ≠ 0 && t.e12.inside (centre x) (centre y) && t.e20.inside (centre x) (centre y) &&
    t.e01.inside (centre x) (centre y)

/-- A coordinate's magnitude passes 2^23. -/
def tooFar (x : Int) : Bool := decide (2 ^ 23 < x.natAbs)

/-- The COVER record of a triangle and a tile (R271, Table 17.5). -/
def coverRecord (xy : List Int) (tx ty : Nat) : Nat :=
  let at_ := fun (i : Nat) => nth xy i 0
  let t := triSetup (at_ 0, at_ 1) (at_ 2, at_ 3) (at_ 4, at_ 5)
  if t.area = 0 || xy.any tooFar then 2 ^ 1248
  else
    let covered := (upto 1024).filter (fun k => t.covers (32 * tx + k % 32) (32 * ty + k / 32))
    let plane := fun (e : Edge) =>
      [256 * e.a, 256 * e.b, e.c + 8192 * ((tx : Int) * e.a + (ty : Int) * e.b)].map (fun n =>
        (dyInt n).quo 0 (dyInt t.area))
    let planes := plane t.e20 ++ plane t.e01
    covered.foldl (fun acc k => acc + 2 ^ k) 0 +
      (((upto 6).zip planes).foldl (fun acc e => acc + e.2.toNat * 2 ^ (1024 + 32 * e.1)) 0) +
      covered.length * 2 ^ 1216 + (if t.flipped then 2 ^ 1249 else 0)

/-- COVER performed (R271, R272): lanes in ascending order, so that the highest stands. -/
def State.coverDone (s : State) (g : Group) (p : Pend) : State :=
  match s.team? g.team with
  | none => s
  | some t =>
    let lanes := lanesIn p.lmask
    let off := fun (l : Nat) => (p.op g .control 7 l).toNat
    match laneFault (lanes.map (fun l => (l,
      if off l % 32 ≠ 0 then badLane .misalign 0 (off l)
      else if t.scratchSize < off l + 160 then badLane .bounds 0 (off l)
      else LaneCheck.ok [] []))) with
    | some e => s.faultPend g p e
    | none =>
      match s.tcopyLanes g .team 160 (lanes.map (fun l => (l, off l))) [] with
      | (l, o) :: rest =>
        s.faultPend g p { cause := .tcopy, fmask := maskFrom (l :: rest.map (fun b => b.1)), faddr := BitVec.ofNat 64 o }
      | [] =>
        let s := lanes.foldl (fun (s : State) l =>
          let tile := (p.op g .control 6 l).toNat
          let xy := (upto 6).map (fun i => (p.op g .control i l).toInt)
          s.scratchWrite t.id (off l) (leBytes 160 (coverRecord xy (bits tile 15 0) (bits tile 31 16)))) s
        s.completePend g.id p.id

/-! ### VISB (R273, R274) -/

/-- A triangle on the screen: its setup, the vertices' depths, its key. -/
structure ScreenTri where
  setup : TriSetup
  z : List Word
  key : Nat
  deriving DecidableEq, Repr

/-- A fixed-point coordinate; none where the triangle is dropped. -/
def fixedCoord (w : Word) : Option Int :=
  match f32 w with
  | .nan _ => none
  | .inf _ => none
  | .fin n m e =>
    let x := sgn n (roundInt 0 n m (e + 8)).1
    if tooFar x then none else some x

/-- A vertex on the screen from its clip coordinates: x, y and depth. -/
def screenVertex (vport : List Word) (clip : List Word) : Option (Int × Int × Word) :=
  let w := nth clip 3 0
  let z := div32 (nth clip 2 0) w
  let on := fun (k : Nat) => fixedCoord (fma32 (nth vport k 0) (div32 (nth clip k 0) w) (nth vport (2 + k) 0))
  if !lt32 0 w then none
  else match on 0, on 1, dyOf z with
    | some x, some y, some _ => some (x, y, z)
    | _, _, _ => none

/-- A triangle on the screen from its clip coordinates; none where it is dropped. -/
def screenTri (vport : List Word) (clip : Nat → List Word) (key : Nat) : Option ScreenTri :=
  match screenVertex vport (clip 0), screenVertex vport (clip 1), screenVertex vport (clip 2) with
  | some a, some b, some c =>
    some { setup := triSetup (a.1, a.2.1) (b.1, b.2.1) (c.1, c.2.1), z := [a.2.2, b.2.2, c.2.2], key := key }
  | _, _, _ => none

/-- A world triangle on the screen; none where it is dropped. -/
def projectTri (m vport : List Word) (t : WorldTri) : Option ScreenTri :=
  screenTri vport (fun k =>
    let p := (t.verts.drop (3 * k)).take 3
    (upto 4).map (fun r => dot32 ((m.drop (4 * r)).take 4) (p ++ [0x3F800000]))) t.key

/-- Depth at a pixel that the triangle covers, where no edge function is below zero: a sum of zeros that are all negative is −0
(R45). -/
def ScreenTri.depth (t : ScreenTri) (x y : Nat) : Word :=
  let term := fun (e : Edge) (k : Nat) => (dyInt (e.at (centre x) (centre y))).mul ((dyOf (axis t.z k 0)).getD (dyInt 0))
  let terms := [term t.setup.e12 0, term t.setup.e20 1, term t.setup.e01 2]
  let sum := terms.foldl Dyad.add (dyInt 0)
  if terms.all (fun d => d.m = 0) && (upto 3).all (fun k => (axis t.z k 0).getLsbD 31) then 0x80000000
  else sum.quo 0 (dyInt t.setup.area)

/-- One pixel's pair after a triangle (R273). -/
def visPixel (x y : Nat) (cur : Word × Word) (t : ScreenTri) : Word × Word :=
  if !t.setup.covers x y then cur
  else
    let z := t.depth x y
    let less := lt32 z cur.1 || (eqVal (f32 z) (f32 cur.1) && decide (t.key < cur.2.toNat))
    if less then (z, BitVec.ofNat 32 t.key) else cur

/-- Offsets that a command must be able to reach. -/
def Team.spanFault (t : Team) (l : List (Nat × Nat)) : Option Trap :=
  match l.find? (fun e => e.1 % 16 ≠ 0) with
  | some e => some (cmdTrap .misalign e.1)
  | none => (l.find? (fun e => decide (t.scratchSize < e.1 + e.2))).map (fun e => cmdTrap .bounds e.1)

/-- Determinant of three columns of three rows. -/
def det3 (r : Nat → Nat → Dyad) (i j k : Nat) : Dyad :=
  let minor := fun (a b : Nat) => ((r 1 a).mul (r 2 b)).sub ((r 1 b).mul (r 2 a))
  (((r 0 i).mul (minor j k)).sub ((r 0 j).mul (minor i k))).add ((r 0 k).mul (minor i j))

/-- A box holds the point where every beam starts: the one that clip_0, clip_1 and clip_3 are zero at. -/
def eyeIn (m : List Word) (b : Box) : Bool :=
  let row := fun (i c : Nat) => (dyOf (nth m (4 * (if i = 2 then 3 else i) + c) 0)).getD (dyInt 0)
  let w := (det3 row 0 1 2).neg
  let p := [det3 row 1 2 3, (det3 row 0 2 3).neg, det3 row 0 1 3]
  let (w, p) := if w.isNeg then (w.neg, p.map Dyad.neg) else (w, p)
  w.isPos && (upto 3).all (fun k => match dyOf (axis b.lo k 0), dyOf (axis b.hi k 0) with
    | some lo, some hi => !((axis p k (dyInt 0)).sub (lo.mul w)).isNeg && !((hi.mul w).sub (axis p k (dyInt 0))).isNeg
    | _, _ => false)

/-- The beam of a tile surely meets a box, with nothing before it: three of its corners, those in front of the eye projected as
vertices, cover a pixel of the tile before the depth that the pixel ends with, or it holds the eye. (DEDUCED, log 9.) -/
def beamMeets (m vport : List Word) (depthAt : List ((Nat × Nat) × Word)) (b : Box) : Bool :=
  let clips := b.corners.map (fun p => (upto 4).map (fun r => dot32 ((m.drop (4 * r)).take 4) (p ++ [0x3F800000])))
  let on := clips.filterMap (screenVertex vport)
  let n := on.length
  let at_ := fun (i : Nat) => nth on i (0, 0, 0)
  (!depthAt.isEmpty && eyeIn m b) ||
    (upto n).any (fun i => ((upto n).drop (i + 1)).any (fun j => ((upto n).drop (j + 1)).any (fun k =>
      let t := triSetup ((at_ i).1, (at_ i).2.1) ((at_ j).1, (at_ j).2.1) ((at_ k).1, (at_ k).2.1)
      let far := max32 (max32 (at_ i).2.2 (at_ j).2.2) (at_ k).2.2
      depthAt.any (fun d => lt32 far d.2 && t.covers d.1.1 d.1.2))))

/-- The rows that VISB writes, from the world triangles that it found (R273): every pixel under CLEAR, else those that take a triangle;
with them, each pixel's depth at the end. -/
def visRows (m vport : List Word) (tris : List WorldTri) (pixels : List (Nat × Nat × Nat)) (old : Nat → Word × Word)
    (clear : Bool) (visAt depAt : Nat) : List (Nat × List Byte) × List ((Nat × Nat) × Word) :=
  let tris := tris.filterMap (projectTri m vport)
  let ends := pixels.map (fun q =>
    let cur := old q.1
    (q, cur, tris.foldl (visPixel q.2.1 q.2.2) (if clear then (infinity32, 0xFFFFFFFF) else cur)))
  (ends.flatMap (fun e => if !clear && e.2.2 = e.2.1 then []
      else [(visAt + 4 * e.1.1, leBytes 4 e.2.2.2.toNat), (depAt + 4 * e.1.1, leBytes 4 e.2.2.1.toNat)]),
    ends.map (fun e => (e.1.2, e.2.2.1)))

/-- A trap of a walk that comes before a place of the list of R176. -/
def errBefore (place : Nat) (e : Option (Nat × Trap)) : Option Trap :=
  match e with
  | some (o, t) => if o < place then some t else none
  | none => none

/-- What VISB comes to: a trap, or the rows that it writes (R176, R273, R274). `o` is all that the walk found and `must` what it
found under boxes that its beam surely meets; a fault elsewhere is a free choice. -/
def State.visbRows (s : State) (t : Team) (o must : BvhOut) (view : Nat) (reads : List Nat) (rows : List (Nat × List Byte))
    (free : Nat) : Except Trap (List (Nat × List Byte)) :=
  let failed := o.bad && (must.bad || Config.visits free 0)
  let err := if must.err.isSome || Config.visits (free + 1) 0 then o.err else none
  let rows := if failed then [(view + 84, [s.scratchByte t (view + 84) ||| 1])] else rows
  match errBefore 4 err, s.engineWrites t rows, errBefore 7 err, t.poisonedAt reads, err with
  | some e, _, _, _, _ => .error e
  | none, .error e, _, _, _ => .error e
  | none, .ok _, some e, _, _ => .error e
  | none, .ok _, none, some a, _ => .error { cmdTrap .poison a with sub := 0xFF }
  | none, .ok _, none, none, some (_, e) => .error e
  | none, .ok _, none, none, none => .ok rows

/-- VISB performed (R273, R274). -/
def State.visbDone (s : State) (g : Group) (p : Pend) (clear : Bool) (mask : Byte) : State :=
  match s.contextOf g, s.team? g.team with
  | some c, some t =>
    let view := (p.opc g 0).toNat
    let tile := (p.opc g 1).toNat
    let visAt := (p.opc g 2).toNat
    let depAt := (p.opc g 3).toNat
    let x6 := p.xcap.getD {}
    match t.spanFault [(view, 96), (visAt, 4096), (depAt, 4096)] with
    | some e => s.faultPend g p e
    | none =>
      if !x6Ok x6 then s.faultPend g p (cmdTrap .perm 0)
      else
        let v := leValue (s.scratchRead t view 96)
        let word := fun (i : Nat) => BitVec.ofNat 32 (bits v (32 * i + 31) (32 * i))
        let m := (upto 16).map word
        let vport := (upto 4).map (fun i => word (16 + i))
        let width := bits v 655 640
        let height := bits v 671 656
        let x0 := 32 * bits tile 15 0
        let y0 := 32 * bits tile 31 16
        let pixels := ((upto 1024).map (fun k => (k, x0 + k % 32, y0 + k / 32))).filter (fun q =>
          decide (q.2.1 < width) && decide (q.2.2 < height))
        let reads := (upto 96).map (view + ·) ++ (if clear then [] else pixels.flatMap (fun q =>
          (upto 4).flatMap (fun i => [visAt + 4 * q.1 + i, depAt + 4 * q.1 + i])))
        let cache := s.ridgeHeld g.core
        let rd := s.bvhRead g.core cache c x6
        let o := bvhItems rd { enter := fun _ _ => true, later := fun _ => false } mask bvhRoot
        let old := fun (k : Nat) => (BitVec.ofNat 32 (leValue (s.scratchRead t (depAt + 4 * k) 4)),
          BitVec.ofNat 32 (leValue (s.scratchRead t (visAt + 4 * k) 4)))
        let (rows, depths) := visRows m vport o.tris pixels old clear visAt depAt
        let must := if !o.bad && o.err.isNone then o
          else bvhItems rd { enter := fun b _ => match b with
            | none => true
            | some b => beamMeets m vport depths b, later := fun _ => false } mask bvhRoot
        let out := s.visbRows t o must view reads rows (s.freeCount + 256)
        let s := s.keepRidge g.core c.id cache o.use
        match out.bind (s.engineWrites t) with
        | .error e => s.faultPend g p e
        | .ok s => s.completePend g.id p.id
  | _, _ => s

/-! ### REPACK (R275) -/

/-- An entry of the list: a key and its payload. -/
abbrev RepackEntry := Word × List Word

/-- Insertion before the first larger key or equal one: folded from the right, the sort is stable. -/
def insertEntry (x : RepackEntry) : List RepackEntry → List RepackEntry
  | [] => [x]
  | y :: l => if x.1.toNat ≤ y.1.toNat then x :: y :: l else y :: insertEntry x l

/-- Stable sort by key. -/
def sortEntries (l : List RepackEntry) : List RepackEntry := l.foldr insertEntry []

/-- The parked groups of a team with their REPACKs, ascending; none while a live group is elsewhere. -/
def State.rendezvous (s : State) (team k : Nat) : Option (List (Group × Pend)) :=
  let gs := s.groups.filter (fun g => g.team = team && !g.ended)
  let of_ := fun (g : Group) => (g.pend.find? (fun q => match q.instr with
    | .repack k' _ _ _ => k'.val = k && q.active
    | _ => false)).map (fun q => (g, q))
  let at_ := gs.map of_
  if at_.any Option.isNone || gs.any (fun g => decide (g.res = .preempted)) then none
  else some ((upto 64).flatMap (fun i => (at_.filterMap id).filter (fun e => e.1.index = i)))

/-- One group after a rendezvous, with its entries. -/
def repackGroup (g : Group) (p : Pend) (nm1 : Nat) (a b : Nat) (es : List RepackEntry) : Group :=
  let n := es.length
  let full := g.fullMask 0
  let g := (g.wake p.id).complete p.id
  let g : Group := { g with cands := [] }
  let k := if g.slot0.isSome then 0 else 1
  if n = 0 then g.exitPath k (match g.slot k with
    | some x => x.mask
    | none => 0)
  else
    let g := g.writeV a full (fun l => match es[l]? with
      | some e => e.1
      | none => 0xFFFFFFFF)
    let g := (upto (nm1 + 1)).foldl (fun (g : Group) j => g.writeV (b + j) full (fun l => match es[l]? with
      | some e => nth e.2 j 0
      | none => 0)) g
    g.mapSlot k (fun x => { x with mask := maskOf (fun l => decide (l < n)) })

/-- REPACK performed, once every live group of the team is parked at one on nbK. -/
def State.repackDone (s : State) (g : Group) (k nm1 : Nat) : State :=
  match s.rendezvous g.team k with
  | none => s
  | some l =>
    let list := l.flatMap (fun e => (lanesIn e.2.lmask).filterMap (fun lane =>
      let key := e.2.op e.1 .control 0 lane
      if key = 0xFFFFFFFF then none
      else some (key, (upto (nm1 + 1)).map (fun j => e.2.op e.1 .control (1 + j) lane))))
    let sorted := sortEntries list
    ((upto l.length).zip l).foldl (fun (s : State) e =>
      match e.2.2.instr with
      | .repack _ _ a b => s.settle (repackGroup e.2.1 e.2.2 nm1 a.val b.val ((sorted.drop (64 * e.1)).take 64))
      | _ => s) s

/-! ### Issue -/

/-- TRACE (R267). -/
def execTrace (mask : Byte) (a : Fin 64) (k : TraceKind) (d : Fin 64) (s : State) : Result :=
  flyChecked (.trace mask a k d) s

/-- HITRET (R269). -/
def execHitret (a : Src) (d : Fin 64) (s : State) : Result := flyChecked (.hitret a d) s

/-- COVER (R271). -/
def execCover (a : Fin 64) (b : Src) (s : State) : Result := flyChecked (.cover a b) s

/-- VISB (R273): a group command that captures x6. -/
def execVisb (clear : Bool) (a : Fin 64) (mask : Byte) (s : State) : Result :=
  issue (.visb clear a mask) (fun c => .done (c.fly (.visb clear a mask) c.p.mask (captureCap (.visb clear a mask))).1) s

/-- REPACK (R275): its path parks in a barrier wait; BARRIER is raised at once. -/
def execRepack (k nm1 : Fin 16) (a b : Fin 64) (s : State) : Result :=
  issue (.repack k nm1 a b) (fun c =>
    if c.g.ganged || c.other.isSome || !c.bank.spill.isEmpty then .raise trIllegal
    else
      let (c1, p) := c.fly (.repack k nm1 a b) c.emask (fun _ p => p)
      if c.emask = 0 then c.idle (.repack k nm1 a b)
      else if c1.s.repackFault c1.g k.val nm1.val then
        let t : Trap := { cause := .barrier, pc := c.p.pc, seq := c1.s.fresh }
        .done { c1 with s := { c1.s with fresh := c1.s.fresh + 1 }, g := c1.g.setLast { p with status := .faulted t } }
      else .done { c1 with p := { c1.p with park := .barrier p.id } }) s

/-! ### Completion -/

/-- UNIT_RESULT_WRITTEN (R266): a ridge, coverage or texture unit finishes, or meets a fault; what it has read is written at once or
in parts (R22). -/
def execUnitResultWritten (gid : Nat) (result : ResultPart) (s : State) : Result :=
  let part := result.part
  match s.group? gid with
  | none => .next s
  | some g =>
    match g.pend? result.id with
    | none => .next s
    | some p =>
      let rays := isRay p.instr || isTexture p.instr
      if rays && !p.due.isEmpty then .next (s.deliver g p part)
      else if !p.active then .next s
      else
        match p.instr with
        | .ldlod _ _ _ _ => if g.resident then .next (s.textureResult g p part) else .next s
        | .sample _ _ _ _ => if g.resident then .next (s.textureResult g p part) else .next s
        | .sampleg _ _ _ _ => if g.resident then .next (s.textureResult g p part) else .next s
        | .trace mask _ k _ => if s.unitTurn g p then .next (s.traceDone g p part mask k) else .next s
        | .hitret _ _ => if s.unitTurn g p then .next (s.hitretDone g p part) else .next s
        | .cover _ _ => if s.unitTurn g p then .next (s.coverDone g p) else .next s
        | .visb clear _ mask => if s.unitTurn g p then .next (s.visbDone g p clear mask) else .next s
        | .repack k n _ _ => .next (s.repackDone g k.val n.val)
        | _ => .next s

end Sys2Proof.Machine
end

