-- ==== Sys2Proof/Machine/Composer.lean ====
section
/-! DEFINITION. The composer: stage objects (R277 to R280), state fragments (R281), matching (R282), COMPOSE (R283, R284),
the plain join (R285, R350) and optimisation (R289, R291). -/
namespace Sys2Proof.Machine

/-! ### Stage code (R278) -/

/-- Opcodes that no stage holds. CALL and CALLX would write s63; VXM would write p6. -/
def stageForbids : Instr → Bool
  | .exit => true
  | .freeze _ => true
  | .barArrive _ _ => true
  | .barWait _ => true
  | .barSync _ _ => true
  | .repack _ _ _ _ => true
  | .lnchW _ _ _ => true
  | .lnchN _ _ _ => true
  | .enq _ _ _ => true
  | .compose _ _ => true
  | .lds _ _ _ _ _ => true
  | .sts _ _ _ _ _ => true
  | .atoms _ _ _ _ _ _ => true
  | .atomsNoreturn _ _ _ _ _ => true
  | .ckick _ _ _ => true
  | .call _ => true
  | .callx _ => true
  | .vxm _ _ _ _ => true
  | _ => false

/-- Predicates that a source range names. -/
def pNames : Src × Nat → List Nat
  | (.p n, _) => [n.val]
  | (.v _, _) => []
  | (.vLast _, _) => []
  | (.s _, _) => []
  | (.special _, _) => []
  | (.const _, _) => []

/-- Predicates that an instruction names beside its sources. -/
def predsOf : Instr → List Nat
  | .bc _ p _ _ => [p.val]
  | .bdiv _ p _ => [p.val]
  | .icmp _ _ p _ _ => [p.val]
  | .fcmp _ _ p _ _ => [p.val]
  | .vote (.pred p) _ _ => [p.val]
  | .elect (.pred p) => [p.val]
  | .mode imm => modeSel imm :: (if modeGuard imm = 0 then [] else [modeGuard imm % 8])
  | _ => []

/-- The word names a register that the glue keeps: v48 to v63, s48 to s63, p6, p7, x4, f10, f11. RET reads s63 without naming it. -/
def namesGlue (i : Instr) : Bool :=
  let rs := if i = .ret then [] else i.reads 0
  let ds := i.returns ++ i.fixedDst
  let high := fun (n : Nat) => decide (48 ≤ n)
  let flag := fun (f : Option (Fin 12)) => match f with
    | some f => decide (10 ≤ f.val)
    | none => false
  (rs.flatMap vNames ++ vRegs ds).any high || (rs.flatMap sNames ++ sRegs ds).any high ||
    (rs.flatMap pNames ++ predsOf i).any (fun n => decide (6 ≤ n)) ||
    (match xOf i with
      | some x => x.val = 4
      | none => false) ||
    (match i with
      | .xlat _ n _ => n.val = 4
      | .clauseStart w sa sb _ => w.getLsbD 10 || w.getLsbD 11 || flag sa || flag sb
      | _ => false)

/-- The code words are valid, `i` the place of the first. -/
def stageCodeOk (n : Nat) : Nat → List Word → Bool
  | _, [] => true
  | i, w :: l =>
    (match decoded w with
      | none => true
      | some x => !stageForbids x && !namesGlue x && (match branchOffset x with
          | none => true
          | some o => decide (0 ≤ (i : Int) + o) && decide ((i : Int) + o < n))) && stageCodeOk n (i + 1) l

/-- A stage's code is valid (R278). -/
def stageOk (code : List Word) : Bool :=
  (match code with
    | [] => false
    | w :: _ => isHeaderWord w) && stageCodeOk code.length 0 code

/-! ### Tables -/

/-- 32-bit words of bytes. -/
def wordsOf (b : List Byte) : List Word := (blocks 4 (b.length / 4) b).map (fun l => BitVec.ofNat 32 (leValue l))

/-- An interface entry (Table 18.2), as its bits stand. -/
def ifaceEntry (e : Nat) : IfaceEntry :=
  { name := BitVec.ofNat 32 (bits e 31 0), reg := bits e 53 48, sys := e.testBit 44, opt := e.testBit 43,
    out := e.testBit 42, interp := bits e 41 40, comps := bits e 39 36 + 1, type := bits e 35 32 }

/-- An entry is well formed (Table 18.2). -/
def ifaceOk (e : Nat) : Bool :=
  let x := ifaceEntry e
  bits e 63 54 = 0 && bits e 47 45 = 0 && x.interp ≠ 3 && decide (x.comps ≤ 4) && (x.type = 0 || x.type = 3 || x.type = 4) &&
    decide (x.reg + x.comps ≤ 48) && !(x.sys && !x.out) && !(x.opt && x.out)

/-- The index of the first entry of an interface table that is malformed or repeats a name (R279). -/
def ifaceFault (l : List Nat) : Option Nat :=
  (upto l.length).find? (fun i =>
    let e := nth l i 0
    let x := ifaceEntry e
    !ifaceOk e || (l.take i).any (fun f => (ifaceEntry f).out == x.out && decide ((ifaceEntry f).name = x.name)))

/-- Exactly one output is the position or the colour, four f32 components (R279): the index of the first such entry that is not, or
of a second one; 0 where there is none. -/
def sysFault (l : List IfaceEntry) : Option Nat :=
  match ((upto l.length).zip l).filter (fun e => e.2.sys) with
  | [] => some 0
  | e :: rest => if e.2.type ≠ 0 ∨ e.2.comps ≠ 4 then some e.1 else rest.head?.map (fun f => f.1)

/-- A state reference (Table 18.3), as its bits stand. -/
def stateRef (e : Nat) : StateRef := { frag := bits e 7 6, pos := bits e 15 8, len := bits e 20 16 + 1, sreg := bits e 5 0 }

/-- A state reference is well formed. -/
def stateRefOk (e : Nat) : Bool := bits e 31 21 = 0 && decide (8 ≤ bits e 5 0) && decide (bits e 5 0 ≤ 47)

/-- What COMPOSE finds in its inputs: a code with the entry at fault (R284). -/
abbrev ComposeIssue := Nat × Nat

/-- A stage as read: none where its kind, its bound or its sizes leave no tables; what is wrong with it. -/
structure StageRead where
  stage : Option ComposeStage := none
  issues : List ComposeIssue := []
  deriving DecidableEq, Repr

/-- The bytes off to off + n − 1 read page by page; `fuel` is the number of pages. -/
def State.composeBytes (s : State) (core : Nat) (cache : List (Nat × List Byte)) (c : Context) (x : XReg) :
    Nat → Nat → Nat → TexRun (List Byte)
  | 0, _, _ => texPure []
  | fuel + 1, off, n =>
    if n = 0 then texPure []
    else
      let here := min n (65536 - (x.base.toNat + off) % 65536)
      texBind (s.texRead core cache c x off here 3 5 7) (fun b =>
        texBind (s.composeBytes core cache c x fuel (off + here) (n - here)) (fun b' => texPure (b ++ b')))

/-- A stage object read (R277 to R280): no byte beyond the bound is read. Where the magic or a reserved field alone is wrong its tables
are read all the same, and may give a lower code (R284). -/
def State.readStage (s : State) (core : Nat) (cache : List (Nat × List Byte)) (c : Context) (x : XReg) (kind : Nat) :
    TexRun StageRead :=
  let bad : StageRead := { issues := [(3, 0)] }
  let bound := x.bound.toNat
  if bound < 32 then texPure bad
  else
    texBind (s.composeBytes core cache c x 2 0 32) (fun hb =>
      let h := leValue hb
      let nw := bits h 127 96
      let ni := bits h 175 160
      let ns := bits h 239 224
      let co := bits h 95 64
      let io := bits h 159 128
      let so := bits h 223 192
      let odd := bits h 31 0 ≠ 0x00535447 || bits h 63 36 ≠ 0 || bits h 191 176 ≠ 0 || bits h 255 240 ≠ 0
      if bits h 35 32 ≠ kind || nw = 0 || decide (65536 < nw) || ni = 0 ||
          decide (64 < ni) || decide (64 < ns) || co % 4 ≠ 0 || io % 4 ≠ 0 || so % 4 ≠ 0 || decide (bound < co + 4 * nw) ||
          decide (bound < io + 8 * ni) || decide (bound < so + 4 * ns) then texPure bad
      else
        texBind (s.composeBytes core cache c x 6 co (4 * nw)) (fun cb =>
        texBind (s.composeBytes core cache c x 2 io (8 * ni)) (fun ib =>
        texBind (s.composeBytes core cache c x 2 so (4 * ns)) (fun sb =>
          let code := wordsOf cb
          let es := (blocks 8 ni ib).map leValue
          let rs := (blocks 4 ns sb).map leValue
          let iface := es.map ifaceEntry
          let at_ := fun (o : Option Nat) => (o.map (fun i => ((3, i) : ComposeIssue))).toList
          texPure
            { stage := some { code := code, iface := iface, refs := rs.map stateRef }
              issues := (if stageOk code && !odd then [] else [(3, 0)]) ++ at_ (sysFault iface) ++ at_ (ifaceFault es) ++
                at_ (position (fun r => !stateRefOk r) rs) }))))

/-! ### Fragments (R281) -/

/-- A fragment as read: its bits and their number, none where the bound is at fault. -/
structure FragRead where
  value : Option (Nat × Nat) := none
  issues : List ComposeIssue := []
  deriving DecidableEq, Repr

/-- Reserved fields and codes of the raster, depth and blend fragments (Tables 18.4 to 18.6) and of word 0 of a vertex
format (Table 18.7). -/
def fragOk (kind v : Nat) : Bool :=
  match kind with
  | 0 => bits v 255 130 = 0 && bits v 129 128 ≠ 3
  | 1 => bits v 31 6 = 0
  | 2 => bits v 31 9 = 0
  | _ => bits v 31 20 = 0 && bits v 15 0 % 4 = 0

/-- An attribute entry, as its bits stand. -/
def attrEntry (e : Nat) : Attr :=
  { name := BitVec.ofNat 32 (bits e 31 0), offset := bits e 47 32, fmt := bits e 51 48, comps := bits e 53 52 + 1 }

/-- An attribute entry is well formed. -/
def attrOk (e : Nat) : Bool :=
  let a := attrEntry e
  bits e 63 54 = 0 && (a.fmt = 0 || a.fmt = 3 || a.fmt = 4) && a.offset % 4 = 0

/-- The attribute entries of a vertex format's bits. -/
def attrBits (v : Nat) : List Nat := (upto (bits v 19 16)).map (fun i => bits v (95 + 64 * i) (32 + 64 * i))

/-- The attributes of a vertex format's bits. -/
def attrList (v : Nat) : List Attr := (attrBits v).map attrEntry

/-- A fragment read through its capability; no capability is the default, all zeros. What its reserved fields hold leaves the others as
they are, for the lower codes (R284). -/
def State.readFrag (s : State) (core : Nat) (cache : List (Nat × List Byte)) (c : Context) (kind : Nat) :
    Option XReg → TexRun FragRead
  | none => texPure { value := some (0, if kind = 0 then 256 else 32) }
  | some x =>
    let bad : FragRead := { issues := [(4, 0)] }
    let n := if kind = 0 then 32 else 4
    if x.bound.toNat < n then texPure bad
    else
      texBind (s.composeBytes core cache c x 2 0 n) (fun b =>
        let v := leValue b
        let odd : List ComposeIssue := if fragOk kind v then [] else [(4, 0)]
        if kind < 3 then texPure { value := some (v, 8 * n), issues := odd }
        else
          let n := 4 + 8 * bits v 19 16
          if x.bound.toNat < n then texPure bad
          else
            texBind (s.composeBytes core cache c x 2 0 n) (fun b =>
              let v := leValue b
              texPure
                { value := some (v, 8 * n)
                  issues := odd ++
                    ((position (fun e => !attrOk e) (attrBits v)).map (fun i => ((4, i) : ComposeIssue))).toList }))

/-! ### Matching (R282, R288) -/

/-- Entries of one direction, each with its index in the table. -/
def ComposeStage.side (g : ComposeStage) (out : Bool) : List (Nat × IfaceEntry) :=
  ((upto g.iface.length).zip g.iface).filter (fun e => e.2.out == out)

/-- What is wrong between the tables (R282): vertex inputs against attributes. -/
def matchVertex (vs : ComposeStage) (attrs : List Attr) : List ComposeIssue :=
  (vs.side false).filterMap (fun e =>
    match attrs.find? (fun a => a.name = e.2.name) with
    | none => if e.2.opt then none else some (2, e.1)
    | some a => if a.fmt = e.2.type ∧ a.comps = e.2.comps then none else some (1, e.1))

/-- An integer type that is interpolated otherwise than flat (R288). -/
def IfaceEntry.blends (x : IfaceEntry) : Bool := x.type ≠ 0 && x.interp ≠ 2

/-- Fragment inputs against vertex outputs; an integer type is interpolated only flat, read or not. (DEDUCED for what is not read,
log 67.) -/
def matchFragment (vs fs : ComposeStage) : List ComposeIssue :=
  (fs.side false).filterMap (fun e =>
    match (vs.side true).find? (fun o => o.2.name = e.2.name) with
    | none => if e.2.blends then some (1, e.1) else if e.2.opt then none else some (2, e.1)
    | some o =>
      if o.2.type = e.2.type ∧ o.2.comps = e.2.comps ∧ o.2.interp = e.2.interp ∧ ¬ e.2.blends then none
      else some (1, e.1)) ++
    ((vs.side true).filter (fun e => e.2.blends)).map (fun e => (1, e.1))

/-- State references outside their fragments (R280, R284); `widths` are those of well-formed fragments. -/
def matchRefs (g : ComposeStage) (widths : List (Option Nat)) : List ComposeIssue :=
  ((upto g.refs.length).zip g.refs).filterMap (fun e =>
    match nth widths e.2.frag none with
    | none => none
    | some w => if w < e.2.pos + e.2.len then some (4, e.1) else none)

/-- The lowest code, with its first entry (R284). -/
def leastIssue : List ComposeIssue → Option ComposeIssue
  | [] => none
  | x :: l =>
    match leastIssue l with
    | none => some x
    | some y => if x.1 < y.1 ∨ (x.1 = y.1 ∧ x.2 ≤ y.2) then some x else some y

/-! ### The plain join (R285, R350) -/

/-- Bytes of words. -/
def wordBytes (l : List Word) : List Byte := l.flatMap (fun w => leBytes 4 w.toNat)

/-- What a composer's choices depend on: the request, as it reads it. -/
def composeSeed (vs fs : ComposeStage) (f : Fragments) : List Byte :=
  let stage := fun (g : ComposeStage) => wordBytes (g.code ++ g.iface.flatMap (fun x =>
    [x.name, BitVec.ofNat 32 (x.reg + 64 * x.type + 1024 * x.comps + 16384 * x.interp + (if x.sys then 2 ^ 20 else 0) +
      (if x.opt then 2 ^ 21 else 0) + (if x.out then 2 ^ 22 else 0))]) ++
    g.refs.map (fun r => BitVec.ofNat 32 (r.sreg + 64 * r.frag + 256 * r.pos + 65536 * r.len)))
  stage vs ++ stage fs ++ leBytes 32 f.raster ++ leBytes 4 f.depth ++ leBytes 4 f.blend ++ leBytes 124 f.vfmt

/-- Vertex outputs other than the position. -/
def ComposeStage.slots (g : ComposeStage) : List IfaceEntry := g.iface.filter (fun e => e.out && !e.sys)

/-- YSCRATCH for a number of outputs (R350). -/
def yscratch (v : Nat) : Nat := 16384 * (1 + 2 * v) + 55296

/-- A word of a composer's own choice; the first word of a stretch is a header (Table 18.10, R294). (DEDUCED, log 14.) -/
def glueWord (seed : List Byte) (i : Nat) (entry : Bool) : Word :=
  if entry then Config.yealmWord seed i ||| 0xFF000000#32 else Config.yealmWord seed i

/-- Sizes of a body's stretches of glue: each at least 6 words, together at most `room`; the composer's own choice. -/
def glueSizes (seed : List Byte) (n room : Nat) : List Nat :=
  (upto n).map (fun j => 6 + Config.yealmWords seed j % ((room - 6 * n) / n + 1))

/-- Stretches of glue and pieces of code in turn, from a place on: the words, and where each stretch and each piece begins. The
words of stretch j are those of number `salt j`. -/
def layBody (seed : List Byte) (salt : Nat → Nat) : Nat → Nat → List Nat → List (List Word) → List Word × List Nat × List Nat
  | _, _, [], _ => ([], [], [])
  | j, at_, n :: ns, codes =>
    let glue := (upto n).map (fun i => glueWord seed (65536 * salt j + i) (decide (i = 0)))
    let code := codes.headD []
    let (ws, gs, cs) := layBody seed salt (j + 1) (at_ + n + code.length) ns (codes.drop 1)
    (glue ++ code ++ ws, at_ :: gs, if codes.isEmpty then cs else (at_ + n) :: cs)

/-- The CALLs of a piece of code at a place set to another. -/
def patchCalls (at_ target : Nat) (code : List Word) : List Word :=
  ((upto code.length).zip code).map (fun e => match decoded e.2 with
    | some (.call _) => encode (.call (BitVec.ofInt 24 ((target : Int) - (at_ + e.1))))
    | some _ => e.2
    | none => e.2)

/-- A body from its pieces of code: the two stages last; before them, where the rule fixes them, the segments S, V, P and D, whose
CALLs go to the vertex stage and to the last stretch of glue (R294). -/
def makeBody (seed : List Byte) (salt : Nat → Nat) (off : Nat) (slots : List IfaceEntry) (sizes : List Nat)
    (codes : List (List Word)) : YealmBody :=
  let (_, gs, cs) := layBody seed salt 0 0 sizes codes
  let patched := if codes.length = 7 then
      ((upto 7).zip codes).map (fun e =>
        if e.1 = 1 then patchCalls (nth cs 1 0) (nth cs 5 0) e.2
        else if e.1 = 4 then patchCalls (nth cs 4 0) (nth gs 7 0) e.2
        else e.2)
    else codes
  { off := off, words := (layBody seed salt 0 0 sizes patched).1, glueAt := gs, codeAt := cs, slots := slots }

/-- The sizes of a request's stretches of glue (R350): for the request of Listing 19.1 such that OUT_LEN 4,096 holds both bodies
(R298). (DEDUCED, log 14.) -/
def requestSizes (vs fs : ComposeStage) (f : Fragments) (seed : List Byte) : List Nat :=
  if isListing vs fs f then glueSizes seed 8 350
  else glueSizes seed 3 (1024 + 32 * (vs.iface.length + fs.iface.length + vs.refs.length + fs.refs.length + f.attrs.length))

/-- The segments before the stages, where the rule fixes them. -/
def requestSegments (vs fs : ComposeStage) (f : Fragments) : List (List Word) :=
  if isListing vs fs f then [listingS, listingV, listingP, listingD, listingE].map (fun l => l.map encode) else []

/-- The plain body: the stages' code, and for the request of Listing 19.1 its segments, among glue words of the composer's own
choice, the entry header first, within the bounds of R350. The same inputs give the same words. -/
def plainBody (vs fs : ComposeStage) (f : Fragments) (seed : List Byte) : YealmBody :=
  makeBody seed (fun j => j) 64 vs.slots (requestSizes vs fs f seed) (requestSegments vs fs f ++ [vs.code, fs.code])

/-! ### The composed body (R289, R295, R296) -/

/-- A field of the fragments that a state reference names (R280). -/
def Fragments.field (f : Fragments) (r : StateRef) : Word :=
  let x := match r.frag with
    | 0 => f.raster | 1 => f.depth | 2 => f.blend | _ => f.vfmt
  BitVec.ofNat 32 (x / 2 ^ r.pos % 2 ^ r.len)

/-- What is known where a stage is called (R280, R351). -/
def Fragments.known (f : Fragments) (g : ComposeStage) : Known :=
  { mode := some 0x0603, p := [(6, true)], s := g.refs.foldl (fun l r => setKnown l r.sreg (some (f.field r))) [] }

/-- What is known where segment D begins: the registers that segment S has loaded (R294). -/
def listingKnown : Known := { s := [(48, 1), (49, 2), (50, 1), (51, 0), (52, 15), (53, 1)] }

/-- Vertex outputs that a fragment input reads (R289, R350). -/
def keptSlots (vs fs : ComposeStage) : List IfaceEntry :=
  vs.slots.filter (fun o => fs.iface.any (fun x => !x.out && decide (x.name = o.name)))

/-- The registers of some outputs. -/
def outputRegs (l : List IfaceEntry) : List Nat := l.flatMap (fun x => (upto x.comps).map (x.reg + ·))

/-- A register that only the stores of deleted outputs read when a vertex stage returns. -/
def deadOutput (vs : ComposeStage) (kept : List IfaceEntry) (p : Place) : Bool :=
  match p with
  | .v n => (outputRegs (vs.slots.filter (fun o => !kept.contains o))).contains n &&
      !(outputRegs (kept ++ vs.iface.filter (fun o => o.out && o.sys))).contains n
  | .s _ => false
  | .p _ => false

/-- A register that the glue reads when a stage returns: an output's. -/
def stageOutput (l : List IfaceEntry) (p : Place) : Bool :=
  match p with
  | .v n => (outputRegs l).contains n
  | .s _ => false
  | .p _ => false

/-- The outputs of a stage. -/
def ComposeStage.outputs (g : ComposeStage) : List IfaceEntry := g.iface.filter (fun e => e.out)

/-- The fold and branch passes over a stage's code; a stage that reads FPSTAT or STATUS stays as it is (R289). -/
def foldStage (f : Fragments) (g : ComposeStage) : List Word :=
  if readsStatus g.code then g.code else branchPass (f.known g) (foldPass (f.known g) (stageOutput g.outputs) g.code)

/-- The vertex stage's code after all passes. -/
def composedVertex (f : Fragments) (vs : ComposeStage) (kept : List IfaceEntry) : List Word :=
  if readsStatus vs.code then vs.code else deadPass (f.known vs) (foldStage f vs) (deadOutput vs kept) (stageOutput (kept ++ vs.iface.filter (fun o => o.out && o.sys))) []

/-- The segments of Listing 19.2 after the passes (Listing 19.3): S folded, the stores of `nrm` taken out of V and P with what
only they read, D folded and its branches settled. -/
def composedSegments : List (List Word) :=
  let none_ := fun (_ : Place) => false
  [foldPass {} none_ (listingS.map encode), deadPass {} (listingV.map encode) none_ none_ nrmStores.1,
   deadPass {} (listingP.map encode) none_ none_ nrmStores.2,
   branchPass listingKnown (foldPass listingKnown none_ (listingD.map encode)),
   branchPass listingKnown (foldPass listingKnown none_ (listingE.map encode))]

/-- Sizes of the stretches of glue that the passes leave, of `room` words together: the composer's own choice, since the glue's words
are (R350). Stretch j is the first of the n that follow. -/
def passedSizes (seed : List Byte) : Nat → Nat → Nat → List Nat
  | _, 0, _ => []
  | j, n + 1, room =>
    let k := 1 + Config.yealmWords seed (16 + j) % (room - n)
    k :: passedSizes seed (j + 1) n (room - k)

/-- The composed body after the plain one. For the request of Listing 19.1 its stretches of glue are those of the plain body but the
first, which loads the areas' bases and gives up words where the code has grown (R294); for any other request the passes fold and
delete words of the glue too, so that its stretches are of words and sizes of their own. None where it would hold more words than the
plain body (R350). (DEDUCED, log 66.) -/
def composedBody (y : Yealm) (seed : List Byte) : Option YealmBody :=
  let kept := keptSlots y.vs y.fs
  let stages := [composedVertex y.frags y.vs kept, foldStage y.frags y.fs]
  let off := 64 + 4 * y.plain.words.length
  if isListing y.vs y.fs y.frags then
    let codes := composedSegments ++ stages
    let sizes := requestSizes y.vs y.fs y.frags seed
    let more := sumNat sizes + sumNat (codes.map List.length) - y.plain.words.length
    let first := sizes.headD 0
    if first ≤ more then none
    else some (makeBody seed (fun j => if j = 0 then 16 else j) off kept ((first - more) :: sizes.drop 1) codes)
  else
    let room := y.plain.words.length - sumNat (stages.map List.length)
    if room < 3 then none else some (makeBody seed (fun j => 16 + j) off kept (passedSizes seed 0 3 room) stages)

/-- The yealm head (Table 18.10), with DISPATCH to PLAIN_OFF. -/
def yealmHead (words need optstat : Nat) : List Word :=
  [0xFF000FF0, encode (.bra 15), 0x00594C4D, BitVec.ofNat 32 optstat, 64, 0, BitVec.ofNat 32 need,
   BitVec.ofNat 32 (64 + 4 * words)] ++ List.replicate 8 0

/-! ### COMPOSE (R283, R284) -/

/-- A compose request (Table 18.8). -/
structure ComposeReq where
  bits_ : Nat
  deriving DecidableEq, Repr

/-- Slot i of a request: 0 vertex stage, 1 fragment stage, 2 to 5 fragments, 6 output. -/
def ComposeReq.slot (r : ComposeReq) (i : Nat) : Nat := bits r.bits_ (16 * i + 15) (16 * i)
/-- OUT_OFF. -/
def ComposeReq.outOff (r : ComposeReq) : Nat := bits r.bits_ 159 128
/-- OUT_LEN. -/
def ComposeReq.outLen (r : ComposeReq) : Nat := bits r.bits_ 191 160
/-- OPT. -/
def ComposeReq.opt (r : ComposeReq) : Bool := r.bits_.testBit 224

/-- The slots that a request names, each with the permission and type its capability needs. -/
def ComposeReq.named (r : ComposeReq) : List (Nat × Byte × Nat) :=
  [(r.slot 0, permR, 1), (r.slot 1, permR, 1), (r.slot 6, permW, 1)] ++
    (([2, 3, 4, 5].map r.slot).filter (fun n => n ≠ 0xFFFF)).map (fun n => (n, permR, 0))

/-- The checks of a request, in order (R283). -/
def composeCheck (c : Context) (t : Team) (off : Nat) (r : ComposeReq) : Option Cause :=
  if off % 64 ≠ 0 then some .misalign
  else if t.scratchSize < off + 64 then some .bounds
  else if bits r.bits_ 511 225 ≠ 0 || bits r.bits_ 223 192 ≠ 0 || bits r.bits_ 127 112 ≠ 0 then some .illegal
  else if r.named.any (fun e => !(c.slot e.1).2) then some .captag
  else if r.named.any (fun e => !hasPerm (capPerm (c.slot e.1).1) e.2.1 || (capType (c.slot e.1).1).toNat ≠ e.2.2) then some .perm
  else if r.outOff % 64 ≠ 0 then some .misalign
  else if (capRegister (c.slot (r.slot 6)).1).bound.toNat < r.outOff + r.outLen then some .bounds
  else none

/-- The bytes off to off + n − 1 of an output, page by page, each checked for a write (R158). -/
def State.writeSpan (s : State) (core : Nat) (c : Context) (x : XReg) : Nat → Nat → Nat →
    TexM (List Run × List (Nat × Nat))
  | 0, _, _ => .ok ([], [])
  | fuel + 1, off, n =>
    if n = 0 then .ok ([], [])
    else
      let here := min n (65536 - (x.base.toNat + off) % 65536)
      match s.checkAccess core c x .store false 1 here off with
      | .bad o cause sub f _ => texFault o cause sub f
      | .ok runs l =>
        match s.writeSpan core c x fuel (off + here) (n - here) with
        | .error e => .error e
        | .ok (r', l') => .ok (runs ++ r', l ++ l')

/-- The inputs of a COMPOSE, read and judged. -/
structure ComposeIn where
  vs : StageRead
  fs : StageRead
  frags : List FragRead
  deriving DecidableEq, Repr

/-- A fault of the reads, or what was read. -/
def State.composeIn (s : State) (core : Nat) (cache : List (Nat × List Byte)) (c : Context) (r : ComposeReq) : TexRun ComposeIn :=
  let x := fun (i : Nat) => capRegister (c.slot (r.slot i)).1
  let fragX := fun (i : Nat) => if r.slot i = 0xFFFF then none else some (x i)
  let frag := fun (k : Nat) => s.readFrag core cache c k (fragX (k + 2))
  texBind (s.readStage core cache c (x 0) 0) (fun vs =>
  texBind (s.readStage core cache c (x 1) 1) (fun fs =>
  texBind (frag 0) (fun a =>
  texBind (frag 1) (fun b =>
  texBind (frag 2) (fun d =>
  texBind (frag 3) (fun v => texPure { vs := vs, fs := fs, frags := [a, b, d, v] }))))))

/-- Bits of a fragment. -/
def ComposeIn.frag (i : ComposeIn) (k : Nat) : Option (Nat × Nat) := (nth i.frags k {}).value

/-- Every issue of the inputs (R284). -/
def ComposeIn.issues (i : ComposeIn) : List ComposeIssue :=
  let widths := (upto 4).map (fun k => (i.frag k).map (fun f => f.2))
  let refs := fun (g : Option ComposeStage) => match g with
    | none => []
    | some g => matchRefs g widths
  let vertex := match i.vs.stage, i.frag 3 with
    | some vs, some (v, _) => matchVertex vs (attrList v)
    | _, _ => []
  let fragment := match i.vs.stage, i.fs.stage with
    | some vs, some fs => matchFragment vs fs
    | _, _ => []
  i.vs.issues ++ i.fs.issues ++ i.frags.flatMap (fun f => f.issues) ++ refs i.vs.stage ++ refs i.fs.stage ++ vertex ++ fragment

/-- The fragments of well-formed inputs. -/
def ComposeIn.fragments (i : ComposeIn) : Fragments :=
  let f := fun (k : Nat) => ((i.frag k).map (fun f => f.1)).getD 0
  { raster := f 0, depth := f 1, blend := f 2, vfmt := f 3, stride := bits (f 3) 15 0, attrs := attrList (f 3) }

/-- The lines that a die's composer still holds, each a free choice (R291). -/
def State.composerHeld (s : State) (core : Nat) : List (Nat × List Byte) :=
  let l := (s.dieAt (core / 64)).comp
  ((upto l.length).zip l).filterMap (fun e => if Config.stillHeld (s.freeCount + e.1) then some e.2 else none)

/-- Leaves marked and lines kept after the reads of a COMPOSE, which are charged to its context (R327). -/
def State.keepComposer (s : State) (core ctx : Nat) (cache : List (Nat × List Byte)) (use : TexUse) : State :=
  let s := s.markLeaves core ctx false use.leaves
  let d := s.dieAt (core / 64)
  let comp := (distinct use.sectors).foldl (fun l x =>
    if l.any (fun e => e.1 = x) then l else (x, memRead s.mem (32 * x) 32) :: l) cache
  let s := s.charge ctx (demandOf core (distinct use.sectors))
  { s.setDie (core / 64) { d with comp := comp } with freeCount := s.freeCount + 512 + cache.length }

/-- The bytes of a yealm that runs cover, from an offset of it, written (R285). -/
def State.writeYealm (s : State) (runs : List Run) (off : Nat) (b : List Byte) : State :=
  s.writePhys (pairBytes ((runAddresses runs).drop off) b)

/-- COMPOSE performed: the status word's CODE and ENTRY are returned, with the yealm written where CODE is 0; or it
faults and writes nothing. -/
def State.composeDone (s : State) (g : Group) (p : Pend) : State :=
  match s.contextOf g, s.team? g.team with
  | some c, some t =>
    let off := (p.opc g 0).toNat
    let r : ComposeReq := { bits_ := leValue (s.scratchRead t off 64) }
    match composeCheck c t off r with
    | some cause => s.faultPend g p (cmdTrap cause off)
    | none =>
      if t.poisoned off 64 then s.faultPend g p { cmdTrap .poison off with sub := 0xFF }
      else
        let cache := s.composerHeld g.core
        let (read, use) := s.composeIn g.core cache c r
        match read with
        | .error (_, e) => (s.markLeaves g.core c.id false use.leaves).faultPend g p e
        | .ok inp =>
          let status := fun (s : State) (code entry : Nat) =>
            (s.keepComposer g.core c.id cache use).returnAll g.id p 0 (fun _ _ => BitVec.ofNat 32 (code + 256 * entry))
          match inp.vs.stage, inp.fs.stage, leastIssue inp.issues with
          | some vs, some fs, none =>
            let f := inp.fragments
            let body := plainBody vs fs f (composeSeed vs fs f)
            let words := body.words
            let size := 64 + 4 * words.length
            if r.outLen < size then status s 5 0
            else
              let die := g.core / 64
              let d := s.dieAt die
              let queued := r.opt && decide (d.optQueue.length < 64)
              let optstat := if !r.opt then 3 else if queued then 0 else 4
              let span := if queued then min r.outLen (size + 4 * words.length) else size
              (match s.writeSpan g.core c (capRegister (c.slot (r.slot 6)).1) (span / 65536 + 2) r.outOff span with
                | .error (_, e) => s.faultPend g p e
                | .ok (runs, leaves) =>
                  let s := s.markLeaves g.core c.id true leaves
                  let s := s.charge c.id ((.composer die, 4 * words.length) :: demandOf g.core (runSectors runs))
                  let s := s.writeYealm runs 0 (wordBytes (yealmHead words.length (yscratch vs.slots.length) optstat ++ words))
                  let (id, s) := s.newId
                  let y : Yealm := { id := id, vs := vs, fs := fs, frags := f, plain := body }
                  let s : State := { s with yealms := s.yealms ++ [y] }
                  let s := if queued then
                      s.setDie die { s.dieAt die with optQueue := (s.dieAt die).optQueue ++
                        [{ yealm := id, group := g.id, ctx := c.id, pages := distinct (leaves.map (fun e => e.2 / 65536)), runs := runs, outLen := r.outLen }] }
                    else s
                  status s 0 0)
          | _, _, some (code, entry) => status s code entry
          | _, _, none => status s 3 0
  | _, _ => s

/-- The context of a group has spent its budget of clocks of the die's composer (R327). -/
def State.composerSpent (s : State) (g : Group) : Bool :=
  ((s.contextOf g).map (fun c => c.spentOut (.composer (g.core / 64)))).getD false

/-- COMPOSE (R283): a group command that flies over the full active mask. -/
def execCompose (d : Fin 64) (a : Src) (s : State) : Result := flyCommand (.compose d a) s

/-- PLAIN_JOIN_WRITTEN (R284, R285): after the group's earlier scratchpad accesses; it goes on while the group is away
(R291). It waits for channels, links and budgets (R323, R327, R336): of the composer's clocks a plain join takes 4 for each word of the
body. (DESIGN CHOICE, log 49.) -/
def execPlainJoinWritten (gid id : Nat) (s : State) : Result :=
  match s.group? gid with
  | none => .next s
  | some g =>
    match g.pend? id with
    | none => .next s
    | some p =>
      match p.instr with
      | .compose _ _ =>
        if p.active && !s.unitWaits g && !s.composerSpent g &&
            (g.before p).all (fun q => q.readDone || !isScratch q.instr || isWaita q.instr) then .next (s.composeDone g p)
        else .next s
      | _ => .next s

/-! ### Optimisation (R289) -/

/-- OPTSTAT written, and the optimisation done with. -/
def State.endOptimise (s : State) (die : Nat) (j : OptJob) (rest : List OptJob) (stat : Nat) : State :=
  (s.setDie die { s.dieAt die with optQueue := rest }).writeYealm j.runs 12 (leBytes 4 stat)

/-- One write of the oldest optimisation of a die: the composed body, DISPATCH, COMP_OFF with BYTES, then OPTSTAT 1; or
OPTSTAT 5 where the body would pass OUT_LEN. -/
def State.optimise (s : State) (die : Nat) (j : OptJob) (rest : List OptJob) (y : Yealm) (body : YealmBody) : State :=
  let at_ := body.off
  let end_ := at_ + 4 * body.words.length
  let next := fun (s : State) => s.setDie die { s.dieAt die with optQueue := { j with step := j.step + 1 } :: rest }
  let put := fun (s : State) (off : Nat) (v : Nat) => s.writeYealm j.runs off (leBytes 4 v)
  match j.step with
  | 0 =>
    if j.outLen < end_ then s.endOptimise die j rest 5
    else
      let s := s.writeYealm j.runs at_ (wordBytes body.words)
      next { s with yealms := s.yealms.map (fun z => if z.id = y.id then { z with comp := some body } else z) }
  | 1 => next (put s 4 (encode (.bra (BitVec.ofNat 24 ((at_ - 4) / 4)))).toNat)
  | 2 => next (put (put s 20 at_) 28 end_)
  | _ => s.endOptimise die j rest 1

/-- COMPOSE_OPTIMISE (R289): the oldest optimisation of a die's composer goes on, where neither channels, links nor the budget of the
context's composer clocks hold it (R323, R327, R336); where its code has grown past the plain body's words it ends as the bound does.
(DEDUCED, log 66.) -/
def execComposeOptimise (die : Nat) (s : State) : Result :=
  match (s.dieAt die).optQueue with
  | [] => .next s
  | j :: rest =>
    if s.dieHeld die || s.contexts.any (fun c => decide (c.id = j.ctx) && c.spentOut (.composer die)) then .next s
    else match s.yealms.find? (fun y => y.id = j.yealm) with
    | none => .next (s.setDie die { s.dieAt die with optQueue := rest })
    | some y =>
      match composedBody y (composeSeed y.vs y.fs y.frags) with
      | none => .next (s.endOptimise die j rest 2)
      | some body =>
        let s := if j.step = 0 then s.charge j.ctx [(.composer die, 4 * body.words.length)] else s
        .next (s.optimise die j rest y body)

/-- OPTIMISE_BOUND_EXPIRY (R289): the oldest optimisation, none of its writes made, ends with OPTSTAT 2. The passes over the request
of Listing 19.1 finish within the bound (R298). -/
def execOptimiseBoundExpiry (die : Nat) (s : State) : Result :=
  match (s.dieAt die).optQueue with
  | [] => .next s
  | j :: rest =>
    let sure := s.yealms.any (fun y => y.id = j.yealm && isListing y.vs y.fs y.frags)
    if j.step = 0 && !sure then .next (s.endOptimise die j rest 2) else .next s

end Sys2Proof.Machine
end

