-- ==== Sys2Proof/Machine/Draw.lean ====
section
/-! DEFINITION. What the body of a yealm does (R287, R288, R351): the glue of a draw's groups, phase by phase, around the
stage code that they run. The glue's own words are the composer's choice (R350); plain and composed bodies have this one
effect (R290). -/
namespace Sys2Proof.Machine

/-! ### Arithmetic of the glue (R288) -/

/-- One, as FP32. -/
def one32 : Word := 0x3F800000

/-- A channel clamped to 0 to 1, NaN as 0. -/
def clampChannel (x : Word) : Word :=
  if (f32 x).isNan || !lt32 0 x then 0 else if lt32 one32 x then one32 else x

/-- The code of a channel. -/
def channelCode (x : Word) : Nat :=
  match f32 (mul32 0x437F0000 (clampChannel x)) with
  | .fin _ m e => (roundInt 0 false m e).1
  | .nan _ => 0
  | .inf _ => 255

/-- A blend factor (Table 18.6). -/
def blendFactor (code : Nat) (alpha : Word) : Word :=
  match code with
  | 0 => 0
  | 1 => one32
  | 2 => alpha
  | _ => sub32 one32 alpha

/-- A stored colour after a fragment's colour is blended into it (R288). -/
def blendColour (blend : Nat) (old : Word) (colour : List Word) : Word :=
  let s := colour.map clampChannel
  let alpha := nth s 3 0
  ofElems 8 ((upto 4).map (fun i =>
    let code := elemNat old 8 i
    if !blend.testBit (5 + i) then code
    else
      let d := (dyInt code).quo 0 (dyInt 255)
      let x := if blend.testBit 0 then
          fma32 (nth s i 0) (blendFactor (bits blend 2 1) alpha) (mul32 d (blendFactor (bits blend 4 3) alpha))
        else nth s i 0
      channelCode x))

/-- The linear value of a first value and two differences (R288). -/
def lerp3 (b1 b2 : Word) (a : List Word) : Word := fma32 b2 (nth a 2 0) (fma32 b1 (nth a 1 0) (nth a 0 0))

/-- Three vertex values as a setup area holds them: the first, and the differences of the others from it (R288, R294). -/
def setupOf (a : List Word) : List Word :=
  let a0 := nth a 0 0
  [a0, sub32 (nth a 1 0) a0, sub32 (nth a 2 0) a0]

/-- An interpolated component: 0 perspective, 1 linear, 2 flat. `a` is its setup, `w` are the clip_3 of the vertices. -/
def interpolate (kind : Nat) (b1 b2 : Word) (a w : List Word) : Word :=
  match kind with
  | 0 =>
    let q := w.map (fun x => div32 one32 x)
    let d := lerp3 b1 b2 (setupOf q)
    lerp3 (div32 (mul32 b1 (nth q 1 0)) d) (div32 (mul32 b2 (nth q 2 0)) d) a
  | 1 => lerp3 b1 b2 a
  | _ => nth a 0 0

/-! ### Layout (R350, Table 19.2) -/

/-- Place of an output among those that a body keeps. -/
def YealmBody.place (b : YealmBody) (e : IfaceEntry) : Option Nat := position (fun (x : IfaceEntry) => decide (x.name = e.name)) b.slots

/-- Scratchpad offset of the slot area of the n-th output that a body keeps; the clip slots lie at 0. -/
def YealmBody.slotBase (_ : YealmBody) (n : Nat) : Nat := 16384 * (1 + n)

/-- Scratchpad offset of its setup area. -/
def YealmBody.setupBase (b : YealmBody) (n : Nat) : Nat := 16384 * (1 + b.slots.length + n)

/-- Scratchpad offset of COVER record k. -/
def YealmBody.recordAt (b : YealmBody) (k : Nat) : Nat := 16384 * (1 + 2 * b.slots.length) + 160 * k

/-- The body holds the segments that R294 fixes: they run as the words that they are. -/
def YealmBody.listed (b : YealmBody) : Bool := decide (b.codeAt.length = 7)

/-- Words of a vertex's slot. -/
def State.slotWords (s : State) (t : Team) (base v n : Nat) : List Word := wordsOf (s.scratchRead t (base + 16 * v) (4 * n))

/-! ### Accesses of the glue -/

/-- A 4 B load as the core sees memory, or its fault in a lane. -/
def State.glueLoad (s : State) (core : Nat) (c : Context) (x : XReg) (lane off : Nat) : Except Trap (Word × State) :=
  match s.access core c x .load true 4 4 off with
  | (.ok runs _, s) =>
    let buf := (s.coreAt core).buffer.filter (fun w => !w.engine)
    .ok (BitVec.ofNat 32 (leValue ((runAddresses runs).map (fun a => match a with
      | none => (0 : Byte)
      | some a => (bufferByte buf a).getD (memGet s.mem a)))), s)
  | (.bad _ cause sub f _, _) => .error { cause := cause, sub := sub, fmask := maskFrom [lane], faddr := BitVec.ofNat 64 f }

/-- Loads of lanes, one after another. -/
def State.glueLoads (s : State) (core : Nat) (c : Context) (x : XReg) : List (Nat × Nat) →
    Except Trap (List (Nat × Word) × State)
  | [] => .ok ([], s)
  | (lane, off) :: l =>
    match s.glueLoad core c x lane off with
    | .error t => .error t
    | .ok (w, s) =>
      match s.glueLoads core c x l with
      | .error t => .error t
      | .ok (ws, s) => .ok ((lane, w) :: ws, s)

/-- Stores of lanes, one after another, each performed at its coherence point and in the core's own copies. -/
def State.glueStores (s : State) (core : Nat) (c : Context) (x : XReg) : List (Nat × Nat × Word) → Except Trap State
  | [] => .ok s
  | (lane, off, w) :: l =>
    match s.access core c x .store false 4 4 off with
    | (.ok runs _, s) => (s.writeThroughRuns core runs (leBytes 4 w.toNat)).glueStores core c x l
    | (.bad _ cause sub f _, _) => .error { cause := cause, sub := sub, fmask := maskFrom [lane], faddr := BitVec.ofNat 64 f }

/-! ### Steps of the glue -/

/-- What the glue of a path needs: its group's team, context, glue, yealm and body. -/
structure GlueEnv where
  c : Issue
  t : Team
  ctx : Context
  gl : Glue
  y : Yealm
  body : YealmBody

/-- Code offset of a word of the body. -/
def GlueEnv.pcAt (e : GlueEnv) (w : Nat) : Word := e.gl.head + BitVec.ofNat 32 (e.body.off + 4 * w)

/-- Code offset of a word of the j-th stretch of glue. -/
def GlueEnv.inGlue (e : GlueEnv) (j w : Nat) : Word := e.pcAt (nth e.body.glueAt j 0 + w)

/-- Code offset of the j-th piece of code. -/
def GlueEnv.code (e : GlueEnv) (j : Nat) : Word := e.pcAt (nth e.body.codeAt j 0)

/-- The stretch where a phase is made: in a body with the fixed segments, and in any other. -/
def GlueEnv.stretch (e : GlueEnv) (listed plain : Nat) : Nat := if e.body.listed then listed else plain

/-- The path goes on at `pc`, and the next step is of phase `ph` and made at `here`. -/
def GlueEnv.next (e : GlueEnv) (pc here : Word) (ph : GluePhase) : State :=
  { e.c with g := { e.c.g with glue := some { e.gl with phase := ph, here := here } }
             p := { e.c.p with pc := pc, clause := none } }.state

/-- The next step is made at the same place. -/
def GlueEnv.to (e : GlueEnv) (ph : GluePhase) : State := e.next e.c.p.pc e.c.p.pc ph

/-- A field of the draw block (Table 18.11). -/
def GlueEnv.block (e : GlueEnv) (hi lo : Nat) : Nat := bits e.gl.block hi lo

/-- The capability of a slot that the block names, as a register. -/
def GlueEnv.target (e : GlueEnv) (slot : Nat) : XReg := capRegister (e.ctx.slot slot).1

/-- The vertex buffer from vertex 0 on, as x4 holds it. -/
def GlueEnv.vertexBuffer (e : GlueEnv) : XReg :=
  let x := e.target (e.block 47 32)
  let off := e.block 127 96
  { x with base := x.base + BitVec.ofNat 56 off, bound := BitVec.ofNat 40 (x.bound.toNat - off) }

/-- A vertex's clip position. -/
def GlueEnv.clip (e : GlueEnv) (v : Nat) : List Word := e.c.s.slotWords e.t 0 v 4

/-- The state-reference registers of a stage loaded (R280). -/
def Fragments.loadRefs (f : Fragments) (b : Bank) (g : ComposeStage) : Bank :=
  g.refs.foldl (fun (b : Bank) r => b.writeS r.sreg (f.field r)) b

/-- A stage called for the lanes of a mask, with p6 and the mode as R351 gives them: the others wait on the spill stack at `on`, the
path goes to `pc`, returns to the JOIN at `join`, and the next step is made at `on`. -/
def GlueEnv.call (e : GlueEnv) (g : Group) (s : State) (mask : DWord) (stage : ComposeStage) (pc join on : Word)
    (ph : GluePhase) : State :=
  let c := e.c
  let others := c.p.mask &&& ~~~mask
  let g := g.writeP 6 (g.fullMask 0) (fun l => mask.getLsbD l)
  let g := g.setBank 0 ((e.y.frags.loadRefs (g.bank 0) stage).writeS 63 join)
  let g := if others = 0 then g
    else g.push 0 (.pathSet { pc := on, pjoin := some on, mask := others, mode := c.p.mode, drain := c.p.drain })
  let g : Group := { g with glue := some { e.gl with phase := ph, here := on, join := some join } }
  let p : Path := { c.p with mask := mask, mode := 0x0603, pjoin := some on, pc := pc, clause := none }
  { c with s := s, g := g, p := p }.state

/-- The JOIN after a called stage: the path parks, and the lanes that wait there rejoin it (R121, R351). -/
def Issue.glueJoin (c : Issue) : State :=
  let since := match c.other with
    | some q => (match q.atJoin with
        | some n => n + 1
        | none => 0)
    | none => 0
  c.s.settle (c.g.setSlot c.k (some { c.p with park := .join since, clause := none }))

/-- Prologue (R287, step 1): the draw block is loaded through PARAM, the targets' capabilities are tagged, x4 takes the vertex
buffer, and both stages' state references are loaded. The fixed segments' s55 to s58 take the bases of the areas, and segment S
runs. -/
def GlueEnv.prologue (e : GlueEnv) : State :=
  let b := e.c.bank
  if !b.quadTag 0 then e.c.raise (mkTrap .captag)
  else
    match e.c.s.glueLoads e.c.g.core e.ctx (capRegister (b.quad 0)) ((upto 16).map (fun i => (0, 4 * i))) with
    | .error t => e.c.fetchFault .nop t
    | .ok (ws, s) =>
      let block := leValue (wordBytes (ws.map (fun w => w.2)))
      if [bits block 47 32, bits block 63 48, bits block 79 64].any (fun n => !(e.ctx.slot n).2) then e.c.raise (mkTrap .captag)
      else
        let e : GlueEnv := { e with gl := { e.gl with block := block } }
        let b := e.y.frags.loadRefs (e.y.frags.loadRefs b e.y.fs) e.y.vs
        let b : Bank := { b with x := putNth {} b.x 4 e.vertexBuffer }
        let b := if e.body.listed then
            (upto e.body.slots.length).foldl (fun (b : Bank) n =>
              (b.writeS (55 + n) (BitVec.ofNat 32 (e.body.slotBase n))).writeS (57 + n) (BitVec.ofNat 32 (e.body.setupBase n))) b
          else b
        let e : GlueEnv := { e with c := { e.c with s := s, g := e.c.g.setBank 0 b } }
        if e.body.listed then e.next (e.code 0) (e.inGlue 1 0) .vertex else e.next (e.inGlue 1 0) (e.inGlue 1 0) .vertex

/-- Components of a vertex stage's inputs loaded for lanes (R282, R287, step 2). -/
def GlueEnv.vertexInputs (e : GlueEnv) (lanes : List Nat) (v : Nat → Nat) (mask : DWord) :
    List (Nat × Option Nat) → Group → State → Except Trap (Group × State)
  | [], g, s => .ok (g, s)
  | (reg, none) :: l, g, s => e.vertexInputs lanes v mask l (g.writeV reg mask (fun _ => 0)) s
  | (reg, some off) :: l, g, s =>
    match s.glueLoads g.core e.ctx e.vertexBuffer (lanes.map (fun lane => (lane, v lane * e.y.frags.stride + off))) with
    | .error t => .error t
    | .ok (ws, s) => e.vertexInputs lanes v mask l (g.writeV reg mask (fun lane => assoc ws lane 0)) s

/-- Vertex phase (R287, step 2): lane L of group g runs vertex 64g + L. Segment V finds 48v in v48 and 16v in v52 (R294). -/
def GlueEnv.vertex (e : GlueEnv) : State :=
  let v := fun (lane : Nat) => 64 * e.c.g.index + lane
  let mask := e.c.p.mask &&& maskOf (fun l => decide (v l < e.block 31 0))
  let j := e.stretch 2 1
  let at_ := e.stretch 0 2
  let on := e.inGlue j (at_ + 2)
  if mask = 0 then e.next on on .firstBar
  else if e.body.listed then
    let g := (e.c.g.writeV 48 mask (fun l => BitVec.ofNat 32 (48 * v l))).writeV 52 mask (fun l => BitVec.ofNat 32 (16 * v l))
    e.call g e.c.s mask e.y.vs (e.code 1) (e.inGlue j at_) on (.vertexDone mask)
  else
    let regs := (e.y.vs.side false).flatMap (fun x => (upto x.2.comps).map (fun i =>
      (x.2.reg + i, (e.y.frags.attrs.find? (fun a => a.name = x.2.name)).map (fun a => a.offset + 4 * i))))
    match e.vertexInputs (lanesIn mask) v mask regs e.c.g e.c.s with
    | .error t => e.c.fetchFault .nop t
    | .ok (g, s) => e.call g s mask e.y.vs (e.code 0) (e.inGlue j at_) on (.vertexDone mask)

/-- The vertex stage has returned: the position and the outputs that the body keeps are stored into their slots; segment V has
done so itself. -/
def GlueEnv.vertexDone (e : GlueEnv) (mask : DWord) : State :=
  if e.body.listed then e.to .firstBar
  else
    let rows := (e.y.vs.side true).flatMap (fun x =>
      match (if x.2.sys then some 0 else (e.body.place x.2).map e.body.slotBase) with
      | none => []
      | some base => (lanesIn mask).map (fun l =>
          (base + 16 * (64 * e.c.g.index + l), wordBytes ((upto x.2.comps).map (fun j => e.c.g.vLane (x.2.reg + j) l)))))
    let s := rows.foldl (fun (s : State) r => s.scratchWrite e.t.id r.1 r.2) e.c.s
    { e with c := { e.c with s := s } }.to .firstBar

/-- bar.sync on nb0 with count 16 (R287, steps 3 and 5). -/
def GlueEnv.bar (e : GlueEnv) (ph : GluePhase) : State :=
  let i : Instr := .barSync (.const 0) (.const 16)
  let (c1, p) := e.c.fly i e.c.p.mask (fun _ p => p)
  let step := fun (g : Group) => ({ g with glue := some { e.gl with phase := ph } } : Group)
  match c1.s.bar c1.g i 0 16 with
  | .fault => e.c.raise (mkTrap .barrier)
  | .complete s g =>
    { c1 with s := s, p := c1.p, g := step { g with pend := g.pend.dropLast } }.state
  | .waits s g idx x =>
    let p : Pend := { p with aux := [idx, if x then 1 else 0], stage := .atCore }
    { c1 with s := s, g := step (g.setLast p), p := { c1.p with park := .barrier p.id } }.state

/-- VPORT of the raster fragment. -/
def GlueEnv.vport (e : GlueEnv) : List Word := (upto 4).map (fun i => BitVec.ofNat 32 (bits e.y.frags.raster (32 * i + 31) (32 * i)))

/-- CULL drops a triangle. -/
def Fragments.culls (f : Fragments) (t : ScreenTri) : Bool :=
  match bits f.raster 129 128 with
  | 1 => t.setup.flipped
  | 2 => !t.setup.flipped
  | _ => false

/-- Triangle k of the draw on the screen, where neither R273 nor CULL drops it. -/
def GlueEnv.triangle (e : GlueEnv) (k : Nat) : Option ScreenTri :=
  (screenTri e.vport (fun j => e.clip (3 * k + j)) k).filter (fun t => !e.y.frags.culls t)

/-- The COVER record of a triangle for the team's tile. -/
def GlueEnv.cover1 (e : GlueEnv) (k : Nat) (s : State) : State :=
  match e.triangle k with
  | none => s
  | some _ =>
    let xy := (upto 3).flatMap (fun j => match screenVertex e.vport (e.clip (3 * k + j)) with
      | some (x, y, _) => [x, y]
      | none => [0, 0])
    s.scratchWrite e.t.id (e.body.recordAt k) (leBytes 160 (coverRecord xy e.t.gx e.t.gy))

/-- The setup of a triangle's outputs: a0, a1 − a0 and a2 − a0, 16 B each. -/
def GlueEnv.setup1 (e : GlueEnv) (k : Nat) (s : State) : State :=
  ((upto e.body.slots.length).zip e.body.slots).foldl (fun (s : State) x =>
    let a := (upto 3).map (fun j => s.slotWords e.t (e.body.slotBase x.1) (3 * k + j) x.2.comps)
    let rows := (upto x.2.comps).map (fun n => setupOf (a.map (fun l => nth l n 0)))
    (upto 3).foldl (fun (s : State) j =>
      s.scratchWrite e.t.id (e.body.setupBase x.1 + 48 * k + 16 * j) (wordBytes (rows.map (fun r => nth r j 0)))) s) s

/-- Cover phase (R287, step 4): lane L of group g takes triangle 64g + L. Segment P finds 48k in v55 (R294). -/
def GlueEnv.cover (e : GlueEnv) : State :=
  let k := fun (l : Nat) => 64 * e.c.g.index + l
  let lanes := (lanesIn e.c.p.mask).filter (fun l => decide (3 * k l < e.block 31 0))
  let s := lanes.foldl (fun (s : State) l => e.cover1 (k l) s) e.c.s
  if e.body.listed then
    let mask := maskFrom lanes
    let g := (e.c.g.writeV 55 mask (fun l => BitVec.ofNat 32 (48 * k l))).writeP 6 (e.c.g.fullMask 0) (fun l => mask.getLsbD l)
    { e with c := { e.c with s := s, g := g } }.next (e.code 2) (e.inGlue 3 0) .secondBar
  else
    let s := lanes.foldl (fun (s : State) l => e.setup1 (k l) s) s
    { e with c := { e.c with s := s } }.to .secondBar

/-- Column and row in the tile of a lane's pixel (R287, step 6). -/
def Group.tilePixel (g : Group) (lane : Nat) : Nat × Nat := (lane % 32, 2 * g.index + lane / 32)

/-- Lanes whose pixel lies on the screen. -/
def GlueEnv.onScreen (e : GlueEnv) : List Nat :=
  (lanesIn e.c.p.mask).filter (fun l =>
    let (i, j) := e.c.g.tilePixel l
    decide (32 * e.t.gx + i < e.block 271 256) && decide (32 * e.t.gy + j < e.block 287 272))

/-- Offset of a lane's pixel in a target. -/
def GlueEnv.pixelAt (e : GlueEnv) (off pitch lane : Nat) : Nat :=
  let (i, j) := e.c.g.tilePixel lane
  off + (32 * e.t.gy + j) * pitch + 4 * (32 * e.t.gx + i)

/-- A lane's depth, and its colour. -/
def GlueEnv.depthAt (e : GlueEnv) (l : Nat) : Nat := e.pixelAt (e.block 223 192) (e.block 255 224) l
/-- Its colour. -/
def GlueEnv.colourAt (e : GlueEnv) (l : Nat) : Nat := e.pixelAt (e.block 159 128) (e.block 191 160) l

/-- The stored depth and colour are loaded; segment D finds the depth in v57. -/
def GlueEnv.load (e : GlueEnv) : State :=
  let lanes := e.onScreen
  match e.c.s.glueLoads e.c.g.core e.ctx (e.target (e.block 79 64)) (lanes.map (fun l => (l, e.depthAt l))) with
  | .error t => e.c.fetchFault .nop t
  | .ok (ds, s) =>
    match s.glueLoads e.c.g.core e.ctx (e.target (e.block 63 48)) (lanes.map (fun l => (l, e.colourAt l))) with
    | .error t => e.c.fetchFault .nop t
    | .ok (cs, s) =>
      let g := if e.body.listed then e.c.g.writeV 57 (maskFrom lanes) (fun l => assoc ds l 0) else e.c.g
      let gl : Glue := { e.gl with depth := tabulate (fun l => assoc ds l 0), colour := tabulate (fun l => assoc cs l 0) }
      { e with c := { e.c with s := s, g := g }, gl := gl }.to (.tri 0)

/-- The condition of a depth fragment's FUNC. -/
def Fragments.depthPasses (f : Fragments) (z stored : Word) : Bool :=
  if !f.depth.testBit 4 then true
  else match Cond.ofCode (BitVec.ofNat 4 (bits f.depth 3 0)) with
    | .ok c => fcond c (f32 z) (f32 stored)
    | .error _ => false

/-- Depth of a triangle at a lane's pixel. -/
def GlueEnv.z (e : GlueEnv) (t : ScreenTri) (lane : Nat) : Word :=
  let (i, j) := e.c.g.tilePixel lane
  t.depth (32 * e.t.gx + i) (32 * e.t.gy + j)

/-- The record of triangle k, as a number. -/
def GlueEnv.record (e : GlueEnv) (k : Nat) : Nat := leValue (e.c.s.scratchRead e.t (e.body.recordAt k) 160)

/-- The setup of component n of a vertex output for triangle k: from its setup area, the position's from the clip slots (R282). -/
def GlueEnv.setupAt (e : GlueEnv) (x : IfaceEntry) (k n : Nat) : Option (List Word) :=
  match e.body.place x with
  | some o => some ((upto 3).map (fun j => nth (wordsOf (e.c.s.scratchRead e.t (e.body.setupBase o + 48 * k + 16 * j) 16)) n 0))
  | none =>
    if (e.y.vs.side true).any (fun o => o.2.sys && decide (o.2.name = x.name)) then
      some (setupOf ((upto 3).map (fun j => nth (e.clip (3 * k + j)) n 0)))
    else none

/-- The fragment inputs of triangle k in the lanes of a mask (R288). -/
def GlueEnv.fragmentInputs (e : GlueEnv) (k : Nat) (mask : DWord) : Group :=
  let record := e.record k
  let plane := fun (i : Nat) => BitVec.ofNat 32 (bits record (1055 + 32 * i) (1024 + 32 * i))
  let bary := fun (lane i : Nat) =>
    let (x, y) := e.c.g.tilePixel lane
    fma32 (plane i) (rne32 false (2 * x + 1) (-1)) (fma32 (plane (i + 1)) (rne32 false (2 * y + 1) (-1)) (plane (i + 2)))
  let w := (upto 3).map (fun j => nth (e.clip (3 * k + j)) 3 0)
  (e.y.fs.side false).foldl (fun (g : Group) x =>
    (upto x.2.comps).foldl (fun (g : Group) n =>
      g.writeV (x.2.reg + n) mask (fun lane =>
        match e.setupAt x.2 k n with
        | none => 0
        | some a => interpolate x.2.interp (bary lane 0) (bary lane 3) a w)) g) e.c.g

/-- The fragment stage called for the lanes of triangle k that passed. -/
def GlueEnv.shade (e : GlueEnv) (k : Nat) (mask : DWord) : State :=
  let j := e.stretch 4 2
  e.call (e.fragmentInputs k mask) e.c.s mask e.y.fs (e.code (e.stretch 6 1)) (e.inGlue j 2) (e.inGlue j 4) (.triDone k mask)

/-- Triangle k of the fragment phase (R287, step 6): its covered lanes take the depth test. Segment D finds z in v56 and those lanes
in p7, and leaves the lanes that pass in p6. -/
def GlueEnv.tri (e : GlueEnv) (k : Nat) : State :=
  if e.block 31 0 ≤ 3 * k then e.to .finish
  else
    match e.triangle k with
    | none => e.to (.tri (k + 1))
    | some t =>
      let record := e.record k
      let covered := e.onScreen.filter (fun l =>
        let (i, j) := e.c.g.tilePixel l
        record.testBit (32 * j + i))
      if covered.isEmpty then e.to (.tri (k + 1))
      else if e.body.listed then
        let mask := maskFrom covered
        let g := (e.c.g.writeV 56 mask (fun l => e.z t l)).writeP 7 (e.c.g.fullMask 0) (fun l => mask.getLsbD l)
        { e with c := { e.c with g := g } }.next (e.code 3) (e.inGlue 4 0) (.passed k)
      else
        let lanes := covered.filter (fun l => e.y.frags.depthPasses (e.z t l) (nth e.gl.depth l 0))
        if lanes.isEmpty then e.to (.tri (k + 1)) else e.shade k (maskFrom lanes)

/-- Segment D has left the passing lanes in p6. -/
def GlueEnv.passed (e : GlueEnv) (k : Nat) : State :=
  let mask := e.c.p.mask &&& nth e.c.g.p 6 0
  if mask = 0 then e.next (e.inGlue 5 0) (e.inGlue 5 0) (.tri (k + 1)) else e.shade k mask

/-- The fragment stage has returned: its colour is blended, and the depth written; segment D's last part writes it. -/
def GlueEnv.triDone (e : GlueEnv) (k : Nat) (mask : DWord) : State :=
  let reg := ((e.y.fs.iface.find? (fun x => x.sys)).map (fun x => x.reg)).getD 0
  let colour := tabulate (fun l =>
    if mask.getLsbD l then blendColour e.y.frags.blend (nth e.gl.colour l 0) ((upto 4).map (fun i => e.c.g.vLane (reg + i) l))
    else nth e.gl.colour l 0)
  let depth := match e.triangle k with
    | none => e.gl.depth
    | some t => tabulate (fun l =>
      if mask.getLsbD l && e.y.frags.depth.testBit 5 then e.z t l else nth e.gl.depth l 0)
  let e : GlueEnv := { e with gl := { e.gl with colour := colour, depth := depth } }
  if e.body.listed then e.next (e.code 4) (e.inGlue 5 0) (.tri (k + 1)) else e.to (.tri (k + 1))

/-- The last stores, zero to FPSTAT and STATUS, and EXIT (R287, steps 6 and 7). -/
def GlueEnv.finish (e : GlueEnv) : State :=
  let lanes := e.onScreen
  let depth := fun (l : Nat) => if e.body.listed then e.c.g.vLane 57 l else nth e.gl.depth l 0
  match e.c.s.glueStores e.c.g.core e.ctx (e.target (e.block 63 48)) (lanes.map (fun l => (l, e.colourAt l, nth e.gl.colour l 0))) with
  | .error t => e.c.fetchFault .nop t
  | .ok s =>
    match s.glueStores e.c.g.core e.ctx (e.target (e.block 79 64)) (lanes.map (fun l => (l, e.depthAt l, depth l))) with
    | .error t => e.c.fetchFault .nop t
    | .ok s =>
      let g := e.c.g.setBank 0 { e.c.bank with fpstat := 0, unmapped := false }
      let g : Group := { g with glue := none }
      s.settle (g.exitFrom e.c.k e.c.p)

/-- The body that a draw's group runs. -/
def Yealm.body (y : Yealm) (gl : Glue) : YealmBody := if gl.composed then y.comp.getD y.plain else y.plain

/-- A step of the glue, or the JOIN after a stage, of a path whose half has not faulted. -/
def GlueEnv.run (e : GlueEnv) : State :=
  if e.gl.join = some e.c.p.pc then e.c.glueJoin
  else
    let e : GlueEnv := { e with gl := { e.gl with join := none } }
    match e.gl.phase with
    | .prologue => e.prologue
    | .vertex => e.vertex
    | .vertexDone m => e.vertexDone m
    | .firstBar => e.bar .cover
    | .cover => e.cover
    | .secondBar => e.bar .load
    | .load => e.load
    | .tri k => e.tri k
    | .passed k => e.passed k
    | .triDone k m => e.triDone k m
    | .finish => e.finish

/-- One step of a draw's glue, for a path that is at one: it counts as a whole clause that the group issues (R113, R114); in a half
that has faulted the path stops (R304). A group without its team or yealm stays. (DEDUCED, log 14.) -/
def Issue.glueStep (c : Issue) : State :=
  match c.team?, c.s.contextOf c.g, c.g.glue with
  | some t, some ctx, some gl =>
    (match c.s.yealms.find? (fun y => y.id = gl.yealm) with
      | none => c.s
      | some y =>
        if c.g.faulting c.half then { c with p := { c.p with stopped := true } }.state
        else
          let c : Issue := { c with
            s := { c.s with issues := c.s.issues + 1 }
            g := { c.g with issued := c.g.issued + 1, lastIssue := c.s.issues } }
          let e : GlueEnv := { c := c, t := t, ctx := ctx, gl := gl, y := y, body := y.body gl }
          e.run.leaveOwed c.g.id)
  | _, _, _ => c.s

end Sys2Proof.Machine
end

