-- ==== Sys2Proof/Machine/Schedule.lean ====
section
/-! DEFINITION. Scheduling of groups and teams: exchange and starvation (R112), eviction and return (R109, R133, R151),
watchdog and overrun (R114, R313, R316), pre-emption and switch-in (R314, R315). -/
namespace Sys2Proof.Machine

/-! ### Exchange of active and pending groups (R112) -/

/-- A path waits for a cand TRACE of its own that finds no room (R268). -/
def State.waitsRoom (s : State) (g : Group) (k : Nat) : Bool :=
  !s.eligible g k && g.pend.any (fun q => q.owner k && !q.aux.isEmpty && (match q.instr with
    | .trace _ _ .cand _ => true
    | _ => false))

/-- A path of a group waits on a long wait: a WAIT test that holds, WAITA, a barrier, a sheaf miss, a launch-wait or a TRACE
without room. -/
def State.longPath (s : State) (g : Group) (k : Nat) : Bool :=
  match g.slot k with
  | none => true
  | some p =>
    match p.park with
    | .barrier _ => true
    | .waita _ => true
    | .launchWait _ => true
    | .sheafMiss => true
    | .join _ => false
    | .exit => false
    | .running =>
      match s.issueAt g k with
      | none => false
      | some c =>
        match s.fetch g p.pc with
        | .fault _ _ => false
        | .word w _ =>
          match placed p.clause w with
          | .ok (.clauseStart wait _ _ _) => !(upto 12).all (fun f => !wait.getLsbD f || c.p.flag f = 0) || s.waitsRoom g k
          | .ok _ => s.waitsRoom g k
          | .error _ => false

/-- Every existing path of the group waits on a long wait. -/
def State.longWait (s : State) (g : Group) : Bool :=
  (g.slot0.isSome || g.slot1.isSome) && (g.inService || g.missing || (s.longPath g 0 && s.longPath g 1))

/-- The oldest pending group of an issue slot that has an eligible path. -/
def State.oldestPending (s : State) (core slot : Nat) : Option Group :=
  (s.slotGroups core slot).find? (fun g => decide (g.res = .pending) && s.hasEligible g)

/-- Two groups change places: the first leaves the active set, the second joins it. -/
def State.exchange (s : State) (gOut gIn : Nat) : State :=
  { s with groups := s.groups.map (fun g =>
    if g.id = gOut then { g with res := .pending } else if g.id = gIn then { g with res := .active } else g) }

/-- GROUP_EXCHANGE (R112): an active group in a long wait, and the oldest pending group with an eligible path. -/
def execGroupExchange (gOut gIn : Nat) (s : State) : Result :=
  match s.group? gOut with
  | none => .next s
  | some g =>
    match s.oldestPending g.core (g.index % 4) with
    | none => .next s
    | some h =>
      if g.res = .active ∧ h.id = gIn ∧ s.longWait g then .next (s.exchange gOut gIn) else .next s

/-- The active group of a slot whose last issue is oldest, the youngest of them on a tie. -/
def stalest : List Group → Option Group
  | [] => none
  | g :: l =>
    match stalest l with
    | none => some g
    | some h => if h.lastIssue ≤ g.lastIssue then some h else some g

/-- STARVATION_TIMEOUT (R112): a pending group that has had an eligible path for 4,096 clk takes the place of the active
group whose last issue is oldest. -/
def execStarvationTimeout (gIn : Nat) (s : State) : Result :=
  match s.group? gIn with
  | none => .next s
  | some g =>
    if g.res = .pending ∧ s.hasEligible g then
      match stalest ((s.slotGroups g.core (g.index % 4)).filter (fun h => h.res = .active)) with
      | none => .next s
      | some h => .next (s.exchange h.id gIn)
    else .next s

/-! ### Eviction and return -/

/-- A path of the group is stalled on allocation (R109). -/
def State.stalledPath (s : State) (g : Group) (k : Nat) : Bool :=
  match s.issueAt g k with
  | none => false
  | some c =>
    match s.fetch g c.p.pc with
    | .fault _ _ => false
    | .word w _ =>
      match c.p.clause, placed c.p.clause w with
      | some _, .ok i => c.poolEmpty i
      | _, _ => false

/-- A path of the group is stalled on allocation. -/
def State.stalled (s : State) (g : Group) : Bool := s.stalledPath g 0 || s.stalledPath g 1

/-- A store of the register window stalls on the pool of a slot (R109). -/
def State.windowStalled (s : State) (core slot : Nat) : Bool :=
  s.groups.any (fun h => h.resident && h.pend.any (fun p => p.active && decide (p.stage = .queued) &&
    decide ((p.xcap.getD {}).type = 4) && writesV p.instr && s.windowStalls h p &&
    (s.windowTargets h p).any (fun t => t.1 = core && t.2.1 = slot)))

/-- The group that an empty pool evicts (R109): the youngest pending one, else the youngest active one other than the
oldest. -/
def State.poolVictim (s : State) (core slot : Nat) : Option Group :=
  let gs := s.slotGroups core slot
  if (gs.any s.stalled || s.windowStalled core slot) && gs.all (fun g => s.stalled g || !s.hasEligible g) then
    match (gs.filter (fun g => g.res = .pending)).getLast? with
    | some g => some g
    | none =>
      let act := gs.filter (fun g => g.res = .active)
      if 1 < act.length then act.getLast? else none
  else none

/-- A group in launch-wait: a path waits for its launches, and none runs. -/
def Group.inLaunchWait (g : Group) : Bool :=
  g.allParked && (g.slot0.toList ++ g.slot1.toList).any (fun p => match p.park with
    | .launchWait _ => true
    | .running => false
    | .join _ => false
    | .barrier _ => false
    | .waita _ => false
    | .sheafMiss => false
    | .exit => false)

/-- A launched team waits in some deque, or with the management cores, and fits on no core on which it may run: a draw's on none of
its die (R133, R324). -/
def State.launchStuck (s : State) : Bool :=
  (s.cores.filterMap (fun k => k.deque.head?) ++ s.placements).any (fun r =>
    match s.grid? r.grid with
    | none => false
    | some d =>
      (match d.launcher with
        | .program _ _ _ => true
        | .hostQueue _ _ _ => false) &&
        !(upto 256).any (fun c => (r.die.map (fun x => decide (x = c / 64))).getD true && (s.rectangleFor c d).isSome))

/-- A group saved to its save area: its registers stay with it, those of a sheaf by reference (R109, R151, R314). What its core has
performed reaches its coherence point first, so that no store is lost where it returns on another core. -/
def State.saveGroup (s : State) (gid : Nat) (res : Residency) (awayUntil : Nat) : State :=
  let s := s.land gid
  let s := match s.group? gid with
    | none => s
    | some g => s.flushCore g.core
  { s with groups := s.groups.map (fun g => if g.id = gid then { g with res := res, awayUntil := awayUntil, hungry := false } else g) }

/-- Bytes of a matrix save image (R258, Table 16.6): a multiple of 16 from the header's 16 to 294,912; the manual does
not give the body, so that the number is free. -/
def State.imageBytes (s : State) : Nat := min 294912 (16 * (1 + Config.freeNat s.freeCount))

/-- A whole team saved: its groups, and its scratchpad, tags, barriers and matrix work, which stay with it (R314). A group that was
away already returns to the team's core by itself (R109). -/
def State.saveTeam (s : State) (tid : Nat) : State :=
  let s := ((s.groups.filter (fun g => g.team = tid)).map Group.id).foldl State.land s
  match s.team? tid with
  | none => s
  | some t =>
    let s := s.flushCore t.core
    let image := if 0 < t.accrows ∨ t.loftMode ≠ 0 then some (1, s.imageBytes) else none
    let s := s.nextFree.setTeam { t with preempted := true, image := image }
    { s with groups := s.groups.map (fun g => if g.team = tid then
      { g with res := if g.resident then .preempted else .evicted, hungry := false } else g) }

/-- GROUP_EVICT (R109, R133): for an issue slot whose pool is empty, or for a launched team that fits nowhere. Of the groups in
launch-wait the oldest of the slot that is named is evicted, whatever the team needs. (DESIGN CHOICE, log 80.) A team whose groups are
all away leaves its scratchpad too. -/
def execGroupEvict (core slot : Nat) (s : State) : Result :=
  match s.poolVictim core slot with
  | some g => .next (s.saveGroup g.id .evicted 0)
  | none =>
    if s.launchStuck then
      match (s.slotGroups core slot).find? Group.inLaunchWait with
      | none => .next s
      | some g =>
        let s := s.saveGroup g.id .evicted 0
        if s.groups.any (fun h => h.team = g.team && h.resident) then .next s else .next (s.saveTeam g.team)
    else .next s

/-- Registers that a group takes when it returns (R109): its mapped names, those of a sheaf apart. -/
def Group.footprint (g : Group) : Nat :=
  (g.v.filter (fun m => match m with
    | some m => m.sheaf.isNone
    | none => false)).length

/-- A group waits where its core does not hold a sheaf, or its slot has not loaded a sheaf's registers (R144, R151): its running
paths wait for it, and those that wait for something else beside. -/
def State.missSheaf (s : State) (g : Group) : Group :=
  if g.sheaves.all (fun k => (s.coreAt g.core).store.contains k && s.toLoad g.core (g.index % 4) k = 0) then g
  else
    let f := fun (p : Path) => if p.park = .running then { p with park := Park.sheafMiss } else p
    (({ g with missing := true } : Group).mapSlot 0 f).mapSlot 1 f

/-- Whether an instruction of a saved group is checked again when it returns: its accesses are not yet made. -/
def Pend.recheck (p : Pend) : Bool := p.active && decide (p.stage = .queued)

/-- The unfinished instructions of a group that returns, reissued as TRET reissues them (R314). -/
def State.recheckAll (s : State) (g : Group) : List Pend → Group × State
  | [] => (g, s)
  | p :: l =>
    if p.recheck then
      let (q, s) := s.checkPend g p.remainder
      s.recheckAll (g.setPend (p.remainder.keepTodo q)) l
    else s.recheckAll g l

/-- A saved group placed again on a core (R109, R314): names saved by reference are mapped again (R151), and nothing is read that
the core holds from before (R223). -/
def State.restoreGroup (s : State) (g : Group) (core : Nat) (res : Residency) : State :=
  let g : Group := { g with core := core, pos := s.freePos core (g.index % 4), res := res, awayUntil := 0, roomFor := 0,
                            v := s.shareMap core (g.index % 4) g.v }
  let s := g.sheaves.foldl (fun (s : State) k => s.useSheaf core k) (s.invalidate core)
  let g := s.missSheaf g
  let (g, s) := s.recheckAll g g.pend
  let s := s.setGroup g
  if g.allParked then s.leaveOwed g.id else s

/-- An issue slot has room for a saved group: a place, the registers of its footprint, or of its hint where it was not admitted yet,
and sector entries for its instructions (R109, R111, R173). -/
def State.roomFor (s : State) (g : Group) (core : Nat) : Bool :=
  decide (s.slotPlaces core (g.index % 4) < 16) && decide (max g.footprint g.roomFor ≤ s.poolFree core (g.index % 4)) &&
    decide (s.sectorEntries core + sectorsBack g.pend ≤ 2048)

/-- GROUP_RETURN (R109, R151): an evicted group joins the pending set once its slot has a place and the registers of its
footprint, a group that was stamped and not yet admitted those of its hint. -/
def execGroupReturn (gid : Nat) (s : State) : Result :=
  match s.group? gid with
  | none => .next s
  | some g =>
    match s.team? g.team with
    | none => .next s
    | some t =>
      if !g.resident && !t.preempted && decide (g.awayUntil ≤ s.clock.toNat) && !(s.coreAt g.core).absent &&
          s.roomFor g g.core then
        .next (s.restoreGroup g g.core .pending)
      else .next s

/-! ### Watchdog and overruns -/

/-- The group that issued most; of several, the oldest. (DESIGN CHOICE, log 65: the rules say no more.) -/
def busiest : List Group → Option Group
  | [] => none
  | g :: l =>
    match busiest l with
    | none => some g
    | some h => if h.issued ≤ g.issued then some g else some h

/-- Words issued by the groups of a slot are counted anew, and which of them have an eligible path. -/
def State.newPeriod (s : State) (core slot : Nat) : State :=
  { s with groups := s.groups.map (fun g => if g.core = core ∧ g.index % 4 = slot then
      { g with issued := 0, hungry := s.hasEligible g } else g) }

/-- Before each step: a group that has no eligible path, or is away, has not had one for the whole period (R114). -/
def State.sated (s : State) : State :=
  if s.groups.any Group.hungry then
    { s with groups := s.groups.map (fun g => if g.hungry && !(g.resident && s.hasEligible g) then { g with hungry := false } else g) }
  else s

/-- WATCHDOG (R114, R316): a watchdog period of a slot ends. Where a group that had an eligible path all through has issued
nothing in it, the group that issued most is reported, and the context's action applies. (DEDUCED, log 53.) -/
def execWatchdog (core slot gid : Nat) (s : State) : Result :=
  let gs := s.slotGroups core slot
  let starved := gs.any (fun g => g.hungry && g.issued = 0 && s.hasEligible g)
  match busiest gs with
  | none => .next s
  | some g =>
    match s.grid? g.grid, s.contextOf g with
    | some d, some c =>
      if starved && decide (g.id = gid) then
        let s : State := { s with log := s.log ++ [.watchdog c.id d.lpb.queue core slot g.id s.clock] }
        let s := s.newPeriod core slot
        match c.watchdogAction with
        | 1 => .next (s.saveGroup g.id .evicted (s.clock.toNat + 1000000 * c.watchdogMs))
        | 2 => .next (s.endGrid g.grid 2)
        | _ => .next s
      else .next (s.newPeriod core slot)
    | _, _ => .next s

/-- A queue of a context changed. -/
def State.mapQueue (s : State) (ctx queue : Nat) (f : Queue → Queue) : State :=
  { s with contexts := s.contexts.map (fun c =>
    if c.id = ctx then { c with queues := c.queues.map (fun q => if q.id = queue then f q else q) } else c) }

/-- A queue of a context. -/
def State.queue? (s : State) (ctx queue : Nat) : Option Queue :=
  (s.context? ctx).bind (fun c => c.queues.find? (fun q => q.id = queue))

/-- Consumption has passed the budget (R313); it is kept in ns, the budget is in µs. -/
def Queue.over (q : Queue) : Bool := decide (q.period ≠ 0) && decide (1000 * q.budget.toNat < q.consumed)

/-- OVERRUN (R313, R316): raised once in a period; until the next one the queue is best effort. Of the cores on which its teams are
resident any is the one reported. (DEDUCED, log 57.) -/
def execOverrun (ctx queue : Nat) (s : State) : Result :=
  match s.queue? ctx queue with
  | none => .next s
  | some q =>
    if q.over && !q.overrun then
      let cores := s.queueCores ctx queue
      let core := nth cores (Config.freeNat s.freeCount % cores.length) 0
      let s : State := { s.nextFree with log := s.log ++ [.overrun ctx queue (core / 64) core s.clock] }
      .next (s.mapQueue ctx queue (fun q => { q with overrun := true }))
    else .next s

/-- PERIOD_START (R313): consumption is zeroed. -/
def execPeriodStart (ctx queue : Nat) (s : State) : Result :=
  .next (s.mapQueue ctx queue (fun q => { q with consumed := 0, overrun := false }))

/-- CQPERIOD as a write leaves it (Table 21.8): other values are ignored. (DESIGN CHOICE of what a period is that was never written, log 45.) -/
def periodOf (old w : Word) : Word := if w = 0 ∨ (10 ≤ w.toNat ∧ w.toNat ≤ 1000000) then w else old

/-- CQBUDGET as a write leaves it: at most 256 × PERIOD. -/
def budgetOf (period w : Word) : Word := BitVec.ofNat 32 (min w.toNat (256 * period.toNat))

/-- CSRW by the management cores of a queue's CQPERIOD or CQBUDGET (R313, Table 21.8); a budget stays within its limit where the
period changes. (DESIGN CHOICE, log 45.) -/
def execQueueWrite (ctx queue : Nat) (budget : Bool) (value : Word) (s : State) : Result :=
  .next (s.mapQueue ctx queue (fun q =>
    let period := if budget then q.period else periodOf q.period value
    { q with period := period, budget := budgetOf period (if budget then value else q.budget) }))

/-! ### Pre-emption (R314, R315) -/

/-- Work that a core is to take: its rank, its grid, the sheaf whose lines it shares, and the saved team that it is. -/
structure Incoming where
  rank : List Nat
  grid : Grid
  frozen : Option Nat
  but : List Nat
  deriving DecidableEq, Repr

/-- The work that a core could take: a record that may start there, or a saved team that was there. -/
def State.incoming (s : State) (core : Nat) : List Incoming :=
  (s.startable core).filterMap (fun e =>
    let r := e.2.2.2
    match s.grid? r.grid with
    | none => none
    | some d =>
      if (r.die.map (fun x => decide (x = core / 64))).getD true && s.tileTurn d (core / 64) r.first then
        some { rank := e.1, grid := d, frozen := if d.prologue then none else d.sheaf, but := [] } else none) ++
  (s.teams.filter (fun t => t.preempted && t.core = core)).filterMap (fun t => (s.grid? t.grid).map (fun d =>
    { rank := s.rank d, grid := d, frozen := t.frozen, but := [t.id] }))

/-- A rank is that of a reserved queue. -/
def isReserved (rank : List Nat) : Bool := decide (rank.head? = some 0)

/-- Teams in the order in which they are victims: the latest deadline first, best effort last of all, and the youngest team first
(R314). -/
def State.insertVictim (s : State) (t : Team) : List Team → List Team
  | [] => [t]
  | u :: l =>
    let a := ((s.grid? t.grid).map s.rank).getD []
    let b := ((s.grid? u.grid).map s.rank).getD []
    let younger := decide (u.id < t.id)
    let first := if isReserved a then !isReserved b || rankBefore b a || (a = b && younger) else !isReserved b && younger
    if first then t :: u :: l else u :: s.insertVictim t l

/-- Teams that incoming work of a reserved queue may take a core from: those that come after it; best-effort work takes only what is
free (R313, R314). -/
def State.victimOrder (s : State) (core : Nat) (w : Incoming) : List Team :=
  if isReserved w.rank then
    (s.teams.filter (fun t => t.core = core && !t.preempted && !t.ended &&
      ((s.grid? t.grid).map (fun d => rankBefore w.rank (s.rank d))).getD false)).foldr s.insertVictim []
  else []

/-- A team holds of a resource of which too little is free. -/
def TeamRoom.heldBy (r : TeamRoom) (t : Team) : Bool :=
  (!r.scratch && decide (0 < t.scratchSize + t.cow)) || (!r.tags && decide (0 < t.tags)) || (!r.bars && decide (0 < t.nbar)) ||
    (!r.rows && decide (0 < t.accrows)) || (!r.loft && decide (t.loftMode ≠ 0))

/-- A team as if it had been saved. -/
def State.without (s : State) (t : Team) : State :=
  { s with
    teams := s.teams.map (fun u => if u.id = t.id then { u with preempted := true } else u)
    groups := s.groups.map (fun g => if g.team = t.id then { g with res := .preempted } else g) }

/-- The teams of some, in order, whose scratchpad, barriers, rows, tags or loft incoming work needs, and the state without them. -/
def State.teamVictims (s : State) (core : Nat) (w : Incoming) : List Team → List Nat × State
  | [] => ([], s)
  | t :: l =>
    if (s.teamRoom core w.grid w.frozen w.but).heldBy t then
      let (ids, s) := (s.without t).teamVictims core w l
      (t.id :: ids, s)
    else s.teamVictims core w l

/-- The groups of some, in order, whose places or registers incoming work needs. -/
def State.groupVictims (s : State) (core : Nat) (w : Incoming) : List Group → List Nat × State
  | [] => ([], s)
  | g :: l =>
    if s.groupRoom core (g.index % 4) w.grid w.but then s.groupVictims core w l
    else
      let (ids, s) := State.groupVictims { s with groups := s.groups.map (fun h => if h.id = g.id then { h with res := .preempted } else h) }
        core w l
      (g.id :: ids, s)

/-- The groups and the whole teams that incoming work takes a core from, and only those (R314); none where it would not fit then. -/
def State.victims (s : State) (core : Nat) (w : Incoming) : Option (List Nat × List Nat) :=
  let order := s.victimOrder core w
  let (teams, s1) := s.teamVictims core w order
  let gs := (order.filter (fun t => !teams.contains t.id)).flatMap (fun t =>
    (s1.groups.filter (fun g => g.team = t.id && g.resident)).reverse)
  let (groups, s2) := s1.groupVictims core w gs
  if s2.fitsBut core w.grid w.frozen w.but && !(groups.isEmpty && teams.isEmpty) then some (groups, teams) else none

/-- PREEMPT (R314): groups and whole teams are saved in replay form, where they are what some incoming work needs of a core. What the
management cores save for another reason they save in its own step. (DEDUCED, log 32.) -/
def execPreempt (groups teams : List Nat) (s : State) : Result :=
  if (upto 256).any (fun core => (s.incoming core).any (fun w => decide (s.victims core w = some (groups, teams)))) then
    let s := groups.foldl (fun (s : State) g => s.saveGroup g .preempted 0) s
    .next (teams.foldl State.saveTeam s)
  else .next s

/-- The die to which a team is bound: that of its draw's screen region (R324). A cluster lies whole on the die of its first tile.
(DESIGN CHOICE, log 81.) -/
def State.boundDie (s : State) (t : Team) : Option Nat :=
  match s.grid? t.grid with
  | none => none
  | some d => if d.draw then some (tileOwner (t.gx / d.lpb.clw * d.lpb.clw) (t.gy / d.lpb.clh * d.lpb.clh)) else none

/-- Where a saved team is placed (R99, R314): with its cluster, on its own rectangle where the teams fit, on any other of a die where
they may run while none of them is resident, keeps its places or has copy requests outstanding (R238); beside resident teams of its
cluster on its own core alone. Of the other rectangles the first that fits is taken. (DESIGN CHOICE, log 32.) -/
def State.placesFor (s : State) (t : Team) : Option (List (Team × Nat)) :=
  match s.grid? t.grid with
  | none => none
  | some d =>
    let mates := s.clusterTeams t
    let saved := mates.filter (fun u => u.preempted)
    let but := mates.map Team.id
    if mates.any (fun u => !u.preempted && !u.ended) then
      (if s.fitsBut t.core d t.frozen [t.id] then some [(t, t.core)] else none)
    else if saved.all (fun u => s.fitsBut u.core d u.frozen but) then some (saved.map (fun u => (u, u.core)))
    else if mates.any (fun u => s.copying u.id || (u.keeps && s.coreOpen u.core d.lpb.opclass)) then none
    else
      (upto 256).findSome? (fun k =>
        if ((s.boundDie t).map (fun x => decide (x = k / 64))).getD true then
          (rectangle k d.lpb).bind (fun cs =>
            let l := mates.map (fun u => (u, nth cs (u.gx % d.lpb.clw + d.lpb.clw * (u.gy % d.lpb.clh)) u.core))
            if l.all (fun e => s.fitsBut e.2 d e.1.frozen but) then some l else none)
        else none)

/-- A saved team placed on a core (R314): its groups come back where their slots have room for them, and otherwise later (R109). -/
def State.restoreTeam (s : State) (t : Team) (core : Nat) : State :=
  let s := s.setTeam { t with core := core, preempted := false, keeps := false, image := none }
  (s.groups.filter (fun g => g.team = t.id)).foldl (fun (s : State) g =>
    match s.group? g.id with
    | none => s
    | some g =>
      if g.res = .preempted && s.roomFor { g with roomFor := 0 } core then s.restoreGroup g core (s.newResidency core (g.index % 4))
      else if g.resident then s
      else s.setGroup { g with core := core, res := .evicted }) s

/-- SWITCH_IN (R313, R315): a saved team is restored on a core that it fits, with the other teams of its cluster (R99), where no work
of an earlier rank could start there. -/
def execSwitchIn (tid : Nat) (s : State) : Result :=
  match s.team? tid with
  | none => .next s
  | some t =>
    if t.preempted then
      match s.placesFor t, s.grid? t.grid with
      | some l, some d =>
        if l.any (fun e => (s.incoming e.2).any (fun w => rankBefore w.rank (s.rank d) && s.fitsBut e.2 w.grid w.frozen w.but)) then
          .next s
        else .next (l.foldl (fun (s : State) e => s.restoreTeam e.1 e.2) s)
      | _, _ => .next s
    else .next s

end Sys2Proof.Machine
end

