-- ==== Sys2Proof/Machine/Host.lean ====
section
/-! DEFINITION. The links, the host, the peers and staying in service: screen regions and draw records (R325, R326), valley
links (R322, R323), host queues (R329), handover of ranges and shoot-down (R330, R162), host and peer accesses (R328, R331,
R332), spare cores, channels and links (R333 to R336) and the health record (R337). -/
namespace Sys2Proof.Machine

/-! ### Host queues (R329) -/

/-- A host queue's ring has a legal size: a power of two from 16 to 65,536. -/
def ringSizeOk (n : Nat) : Bool := decide (16 ≤ n) && decide (n ≤ 65536) && decide (n = 2 ^ Nat.log2 n)

/-- QUEUE_CREATE (R329): the ring and the ORDER of a queue of a context. (DESIGN CHOICE, log 34.) -/
def execQueueCreate (spec : QueueSpec) (s : State) : Result :=
  match s.context? spec.ctxid with
  | none => .next s
  | some c =>
    if ringSizeOk spec.size && decide (spec.queue ≤ 63) then
      let old := (c.queues.find? (fun q => q.id = spec.queue)).getD { id := spec.queue }
      let q : Queue := { old with
        host := true, base := spec.base, size := spec.size, ordered := spec.ordered, tail := 0, next := 0,
        dieSeq := [0, 0, 0, 0] }
      .next (s.setContext { c with queues := c.queues.filter (fun x => x.id ≠ spec.queue) ++ [q] })
    else .next s

/-- Physical address of ring entry n. -/
def Queue.entryAt (q : Queue) (n : Nat) : Nat := q.base + 256 * (n % q.size)

/-- Bytes at a place wait for a channel that is being copied (R336). -/
def State.placesHeld (s : State) (pa n : Nat) : Bool :=
  !s.channelCopies.isEmpty && (upto n).any (fun i => s.channelBusy (pa + i))

/-- Ring entry n launched: its block is read and checked (R116, R147, R286). A refused one stands as a completed grid of
status 1, which starts no group; so does a block whose QUEUE names no queue of the context, as Table 7.7 has it for LNCH and ENQ.
(DESIGN CHOICE, log 83.) -/
def State.launchEntry (s : State) (c : Context) (q : Queue) (n : Nat) : State :=
  let at_ := q.entryAt n
  let x := s.physValue at_ 128
  let b := lpbOf x (decide (at_ % 16 = 0) && s.tagAt (at_ + 48))
  let valid := lpbValid c x b && c.queues.any (fun k => k.id = b.queue) && decide (b.sheaf ≠ 2) &&
    (!s.isDraw 256 c b || s.drawValid 256 c b)
  if valid then (s.addGrid 256 c b (.hostQueue c.id q.id n) [] none (if q.ordered then some n else none)).2
  else
    let (id, s) := s.newId
    { s with grids := s.grids ++
      [{ id := id, ctx := c.id, lpb := {}, codeCap := 0, start := 0, launcher := .hostQueue c.id q.id n, status := 1,
         completed := true }] }

/-- DOORBELL (R329): the new tail count announces entries, which are launched in ring order. (DESIGN CHOICE, log 35.) -/
def execDoorbell (ctx queue tail : Nat) (s : State) : Result :=
  match s.context? ctx, s.queue? ctx queue with
  | some c, some q =>
    let n := min (tail - q.next) q.size
    if q.host && decide (q.next < tail) && !(upto n).any (fun i => s.placesHeld (q.entryAt (q.next + i)) 128) then
      let s := (upto n).foldl (fun (s : State) i => s.launchEntry c q (q.next + i)) s
      .next (s.mapQueue ctx queue (fun k => { k with tail := tail, next := q.next + n }))
    else .next s
  | _, _ => .next s

/-- DONE_ADDR of a ring entry, as a register over the completion word. -/
def State.doneWord (s : State) (q : Queue) (n : Nat) : XReg :=
  { base := BitVec.ofNat 56 (bits (s.physValue (q.entryAt n + 128) 128) 55 0), perm := permW, bound := 4 }

/-- The report of a grid waits: for a write of it that its core, or a copy request, has still to perform at the coherence point
(R329: DONE releases every write of the grid), and for a channel (R336). -/
def State.reportHeld (s : State) (d : Grid) : Bool :=
  s.cores.any (fun k => k.buffer.any (fun w => w.grid = d.id)) || s.teams.any (fun t => t.grid = d.id && s.copying t.id) ||
    (match d.launcher with
      | .program _ _ _ => false
      | .hostQueue ctx queue n =>
        (match s.context? ctx, s.queue? ctx queue with
          | some c, some q => s.placesHeld (q.entryAt n + 128) 128 || s.rangeHeld 256 c (s.doneWord q n) 0 4
          | _, _ => false))

/-- STATUS of a ring entry, and then DONE_VAL at DONE_ADDR (Table 23.4), where its page can be written. -/
def State.writeDone (s : State) (c : Context) (q : Queue) (n status : Nat) : State :=
  let at_ := q.entryAt n
  let x := s.physValue (at_ + 128) 128
  let s := s.writeBytes (at_ + 148) (leBytes 4 status)
  let reg := s.doneWord q n
  if reg.base = 0 then s
  else
    match s.access 256 c reg .store false 1 4 0 with
    | (.ok runs _, s) => s.writeRuns runs (leBytes 4 (bits x 95 64))
    | (.bad _ _ _ _ _, s) => s

/-- GRID_COMPLETION (R329): a grid that has ended, or was refused, is reported once all its writes are performed, and leaves the
device. -/
def execGridCompletion (grid : Nat) (s : State) : Result :=
  match s.grid? grid with
  | none => .next s
  | some d =>
    if d.completed && !s.reportHeld d then
      let s := match d.launcher with
        | .program _ _ _ => s
        | .hostQueue ctx queue n =>
          (match s.context? ctx, s.queue? ctx queue with
            | some c, some q => s.writeDone c q n d.status
            | _, _ => s)
      .next { s with grids := s.grids.filter (fun e => e.id ≠ grid) }
    else .next s

/-! ### Draw records (R325, R326) -/

/-- SEQ of a draw of a queue. -/
def Grid.seqOf (d : Grid) (ctx queue : Nat) : Option Nat :=
  match d.seq, d.launcher with
  | some n, .hostQueue c q _ => if c = ctx ∧ q = queue then some n else none
  | _, _ => none

/-- The link of die 0 with another die; links are 0–1, 0–2, 0–3, 1–2, 1–3, 2–3. -/
def State.recordsHeld (s : State) (die : Nat) : Bool := decide (die ≠ 0) && (nth s.links (die - 1) {}).retraining

/-- The draws of a queue whose records a die has not taken. -/
def State.recordsTo (s : State) (ctx : Nat) (q : Queue) (die : Nat) : List (Nat × Grid) :=
  (s.grids.filterMap (fun d => (d.seqOf ctx q.id).map (fun n => (n, d)))).filter (fun e => nth q.dieSeq die 0 ≤ e.1)

/-- The earliest record. -/
def firstRecord : List (Nat × Grid) → Option (Nat × Grid)
  | [] => none
  | e :: l =>
    match firstRecord l with
    | none => some e
    | some f => if e.1 ≤ f.1 then some e else some f

/-- DRAW_RECORD (R325, R326): a die takes the next record of an ordered queue, unless its link holds it. (DEDUCED, log 37.) -/
def execDrawRecord (die queueCtx queue : Nat) (s : State) : Result :=
  match s.queue? queueCtx queue with
  | none => .next s
  | some q =>
    if die < 4 ∧ !s.recordsHeld die then
      match firstRecord (s.recordsTo queueCtx q die) with
      | none => .next s
      | some (n, d) =>
        let s := if d.completed then s else s.pushDraw d die
        .next (s.mapQueue queueCtx queue (fun k => { k with dieSeq := setNth k.dieSeq die (n + 1) }))
    else .next s

/-! ### Valley links (R322, R323) -/

/-- A link changed. -/
def State.setLink (s : State) (link : Nat) (l : Link) : State := { s with links := setNth s.links link l }

/-- FLIT_RETRY (R322): a flit is sent again; nothing is lost or doubled. (DESIGN CHOICE, log 38.) -/
def execFlitRetry (link _dir : Nat) (s : State) : Result :=
  let l := nth s.links link {}
  .next (s.setLink link { l with retries := l.retries + 1 })

/-- A failed lane takes a spare; with no spare left the direction runs on 128 lanes (R323). -/
def Link.failLane (l : Link) (dir : Nat) : Link :=
  if dir = 0 then (if l.spare0 < 8 then { l with spare0 := l.spare0 + 1 } else { l with narrow0 := true })
  else (if l.spare1 < 8 then { l with spare1 := l.spare1 + 1 } else { l with narrow1 := true })

/-- LINK_RETRAIN (R323): for a failed lane, or after more than 8 flits sent again. -/
def execLinkRetrain (link dir : Nat) (laneFailed : Bool) (s : State) : Result :=
  let l := nth s.links link {}
  if laneFailed then .next (s.setLink link { l.failLane dir with retraining := true, retries := 0 })
  else if 8 < l.retries then .next (s.setLink link { l with retraining := true, retries := 0 })
  else .next s

/-- LINK_RETRAIN_END (R323). -/
def execLinkRetrainEnd (link : Nat) (s : State) : Result :=
  .next (s.setLink link { nth s.links link {} with retraining := false })

/-- CALVEN_FAILOVER (R336): the standby link takes over. -/
def execCalvenFailover (s : State) : Result := .next { s with health := { s.health with standby := true } }

/-! ### Shoot-down and ranges (R162, R330) -/

/-- Bytes lo to hi − 1 meet a 64 KiB page. -/
def meetsPage (lo hi page : Nat) : Bool := decide (lo < 65536 * (page + 1)) && decide (65536 * page < hi)

/-- An instruction in flight whose lanes hold translated addresses of a page. -/
def Pend.onPage (p : Pend) (page : Nat) : Bool :=
  p.tex.any (fun x => x.pages.contains page) ||
  match p.xcap with
  | none => false
  | some x => p.active && p.lanes.any (fun a =>
      let va := x.base.toNat + a.off.toNat
      meetsPage va (va + sumNat (a.runs.map Run.len)) page)

/-- Groups of a context. -/
def State.inContext (s : State) (ctx : Nat) (g : Group) : Bool := (s.grid? g.grid).map Grid.ctx = some ctx

/-- An instruction in flight that holds a translation until it is performed: a WAITA translates at each read (R164), and an LNCH
.w that has been pushed reads nothing any more. -/
def Pend.keepsPage (p : Pend) : Bool :=
  match p.instr with
  | .waita _ _ _ _ _ => false
  | .lnchW _ _ _ => decide (p.stage = .queued)
  | _ => true

/-- Every access of a context that used a translation of the page is performed: those of its resident groups (one that is away
translates again when it returns), what its copy requests have written, and the composers' queued writes. (DEDUCED, log 42.) -/
def State.pageQuiet (s : State) (ctx page : Nat) : Bool :=
  s.groups.all (fun g => !s.inContext ctx g || !g.resident || !g.pend.any (fun p => p.keepsPage && p.onPage page)) &&
    s.cores.all (fun k => k.buffer.all (fun w => s.groups.any (fun g => g.pend.any (fun p => p.id = w.pend)))) &&
    s.dies.all (fun d => d.optQueue.all (fun j => j.ctx ≠ ctx || !j.pages.contains page))

/-- EXTENT of a run that covers the page is set to 0, and FRAME, which is zero then (Table 9.3). -/
def XReg.cut (page : Nat) (x : XReg) : XReg :=
  if meetsPage x.base.toNat (x.base.toNat + x.extent.toNat) page then { x with extent := 0, frame := 0 } else x

/-- Translation registers of an instruction, captured. -/
def Pend.cut (page : Nat) (p : Pend) : Pend := { p with xcap := p.xcap.map (XReg.cut page) }

/-- The translation registers of a half. -/
def Bank.cut (page : Nat) (b : Bank) : Bank :=
  { b with x := b.x.map (XReg.cut page), live := b.live.map (fun l => { l with entries := l.entries.map (Pend.cut page) }) }

/-- The registers with which paused traversals of a group read (R272). -/
def Candidate.cut (page : Nat) (e : Candidate) : Candidate := { e with x6 := e.x6.cut page }

/-- The three effects of a shoot-down of a page (R162). -/
def State.shoot (s : State) (ctx page : Nat) : State :=
  let keep := fun (l : List TlbEntry) => l.filter (fun t => !(t.ctx = ctx && t.page = page))
  { s with
    cores := s.cores.map (fun k => { k with tlb := keep k.tlb })
    dies := s.dies.map (fun d => { d with tlb := keep d.tlb })
    sheaves := s.sheaves.map (fun k => if k.ctx = ctx then { k with x := k.x.map (XReg.cut page) } else k)
    groups := s.groups.map (fun g =>
      if s.inContext ctx g then
        { g with bank0 := g.bank0.cut page, bank1 := g.bank1.cut page, pend := g.pend.map (Pend.cut page),
                 cands := g.cands.map (Candidate.cut page) }
      else g) }

/-- SHOOT_DOWN (R162): it takes place once every access that used the old translation is performed. -/
def execShootDown (ctx page : Nat) (s : State) : Result :=
  if s.pageQuiet ctx page then .next (s.shoot ctx page) else .next s

/-- RANGE_RELEASE (R330): once every access to the range is performed, its translations are shot down and the host holds
it. -/
def execRangeRelease (ctx range : Nat) (s : State) : Result :=
  match s.context? ctx with
  | none => .next s
  | some c =>
    if s.pageQuiet ctx range && !c.hostRanges.contains range then
      let s := s.shoot ctx range
      .next (s.setContext { c with hostRanges := insertRising range c.hostRanges })
    else .next s

/-- RANGE_ACQUIRE (R330): the device holds the range, and the read caches are invalidated. (DEDUCED, log 42.) -/
def execRangeAcquire (ctx range : Nat) (s : State) : Result :=
  match s.context? ctx with
  | none => .next s
  | some c =>
    if c.hostRanges.contains range then
      let s := s.setContext { c with hostRanges := removeNat range c.hostRanges }
      .next { s with cores := s.cores.map (fun k => { k with readCache := [] }) }
    else .next s

/-! ### Host and peer accesses (R328, R331, R332) -/

/-- Bytes that an outside access covers. -/
def outsideLen : OutsideAccess → Nat
  | .read n => n
  | .write l => l.length
  | .atom _ w _ _ => if w then 8 else 4

/-- An access performed at the home slice. What a read or an atomic returns goes outside. -/
def State.serve (s : State) (pa : Nat) (a : OutsideAccess) : State :=
  match a with
  | .read _ => s
  | .write l => s.writeBytes pa l
  | .atom op w cmp v =>
    let n := if w then 8 else 4
    let m := s.physValue pa n
    s.writeBytes pa (leBytes n (atomNew op w m (cmp.toNat % 2 ^ (8 * n)) (v.toNat % 2 ^ (8 * n))))

/-- The bytes lie in device memory. -/
def inDevice (pa n : Nat) : Bool := decide (pa + n ≤ deviceMemoryEnd)

/-- The bytes lie in the host's window (Table 23.4a). -/
def inHost (pa n : Nat) : Bool := decide (0x400000000000 ≤ pa) && decide (pa + n ≤ 0x800000000000)

/-- HOST_ACCESS (R328): an access of the host to device memory, at the home slice, or to its own memory. An address that is
neither is no memory. (DEDUCED, log 54.) It waits for a channel that is being copied (R336). -/
def execHostAccess (pa : Nat) (a : OutsideAccess) (s : State) : Result :=
  if inDevice pa (outsideLen a) || inHost pa (outsideLen a) then
    (if s.placesHeld pa (outsideLen a) then .next s else .next (s.serve pa a))
  else .fault (.noSuchAddress pa)

/-- The bytes lie in the window of a peer (Table 23.4a). -/
def inPeer (pa n : Nat) : Bool :=
  decide (0x800000000000 ≤ pa) && decide (pa < 0x900000000000) && decide (pa % 0x8000000000 + n ≤ deviceMemoryEnd)

/-- PEER_ACCESS (R331, R332): an access of a member of the domain to this device's memory, or to the memory of a member through the
peer window, whose home slice this device's accesses meet too. An access to a device that has left reaches nothing. -/
def execPeerAccess (peer pa : Nat) (a : OutsideAccess) (s : State) : Result :=
  if s.domain.isNone || !s.members.contains peer || s.domain = some peer then .next s
  else if inDevice pa (outsideLen a) || inPeer pa (outsideLen a) then
    (if s.peerGone pa || s.placesHeld (s.homeAddress pa) (outsideLen a) then .next s else .next (s.serve (s.homeAddress pa) a))
  else .fault (.noSuchAddress pa)

/-- DOMAIN_FORM (R331): up to 32 devices, with indices 0 to count − 1. -/
def execDomainForm (own count : Nat) (s : State) : Result :=
  if own < count ∧ count ≤ 32 then .next { s with domain := some own, members := upto count } else .next s

/-- A lane's bytes lie in the window of a peer. -/
def LaneAccess.toPeer (peer : Nat) (a : LaneAccess) : Bool :=
  a.runs.any (fun r => match r.pa with
    | some pa => decide (0x800000000000 ≤ pa) && decide (peerOf pa = peer)
    | none => false)

/-- An access in flight to the window of a device that has left raises POISON, unserviced (R332). (DEDUCED, log 43.) -/
def Pend.peerLeft (peer : Nat) (seq : Nat) (p : Pend) : Pend :=
  match p.lanes.filter (LaneAccess.toPeer peer) with
  | [] => p
  | a :: l =>
    if p.active && decide (p.stage = .queued) then
      { p with status := .faulted { cause := .poison, sub := 0xFF, pc := p.pc, seq := seq,
                                    fmask := maskFrom ((a :: l).map LaneAccess.lane), faddr := a.off.zeroExtend 64 } }
    else p

/-- DEVICE_LEAVES_DOMAIN (R332). -/
def execDeviceLeavesDomain (peer : Nat) (s : State) : Result :=
  if s.members.contains peer && s.domain ≠ some peer then
    .next { s with
      members := removeNat peer s.members
      fresh := s.fresh + 1
      groups := s.groups.map (fun g => { g with pend := g.pend.map (Pend.peerLeft peer s.fresh) }) }
  else .next s

/-! ### Staying in service (R333 to R336) -/

/-- CHANNEL_SPARE (R336): a failed channel is copied onto one of the 8 spares of its stack. (DESIGN CHOICE, log 40.) -/
def execChannelSpare (stack channel : Nat) (s : State) : Result :=
  let used := nth s.health.chspare stack 0
  if stack < 8 ∧ channel < 128 ∧ used < 8 ∧ !s.channelCopies.contains (stack, channel) then
    .next { s with
      channelCopies := s.channelCopies ++ [(stack, channel)]
      health := { s.health with chspare := setNth s.health.chspare stack (used + 1) } }
  else .next s

/-- CHANNEL_COPY_END (R336). -/
def execChannelCopyEnd (stack channel : Nat) (s : State) : Result :=
  .next { s with channelCopies := s.channelCopies.filter (fun e => e ≠ (stack, channel)) }

/-- The records of a core that is no longer there are given to others by the management cores (R335, R349). (DESIGN CHOICE, log 40.) -/
def State.rehome (s : State) (core : Nat) : State :=
  let l := (s.coreAt core).deque
  let s := s.setCore core { s.coreAt core with deque := [] }
  l.reverse.foldl (fun (s : State) r =>
    match s.grid? r.grid with
    | none => s
    | some d =>
      let among := if d.draw then (upto 64).map (fun i => 64 * (core / 64) + i) else upto 256
      s.nextFree.pushRecord (s.chosenCore d.lpb.opclass among) d.ctx r) s

/-- A logical core takes one of its die's four spares, or is marked absent when none is left (R333, R335). Its caches start
empty. -/
def State.replaceCore (s : State) (core : Nat) : State :=
  let die := core / 64
  let d := s.dieAt die
  let k := s.coreAt core
  let k : Core := { k with readCache := [], texCache := [], tlb := [], store := [], filter := [] }
  if d.sparesUsed < 4 then
    let s := (s.setCore core { k with remapped := true }).setDie die { d with sparesUsed := d.sparesUsed + 1 }
    { s with health := { s.health with sparesUsed := setNth s.health.sparesUsed die (d.sparesUsed + 1) } }
  else
    let s := s.setCore core { k with absent := true }
    let lost := nth s.health.coresLost die 0
    ({ s with health := { s.health with coresLost := setNth s.health.coresLost die (lost + 1) } } : State).rehome core

/-- Teams resident on a core. -/
def State.teamsOn (s : State) (core : Nat) : List Nat :=
  (s.teams.filter (fun t => t.core = core && !t.preempted && !t.ended)).map Team.id

/-- CORE_SPARE (R333): the core's teams are pre-empted and resume on the spare, which keeps their places for them; without one they
resume elsewhere (R335). -/
def execCoreSpare (core : Nat) (s : State) : Result :=
  if core < 256 ∧ !(s.coreAt core).absent then
    let mine := s.teamsOn core
    let spare := decide ((s.dieAt (core / 64)).sparesUsed < 4)
    let s := mine.foldl State.saveTeam s
    let s : State := { s with teams := s.teams.map (fun t => if mine.contains t.id then { t with keeps := spare } else t) }
    .next (s.replaceCore core)
  else .next s

/-- CORE_LOST (R334): the groups on the core are lost with what they had in flight, and every grid that had one ends with
status 3, one whose groups are evicted from it among them: their scratchpad is lost. (DEDUCED, log 41.) -/
def execCoreLost (core : Nat) (s : State) : Result :=
  if core < 256 ∧ !(s.coreAt core).absent then
    let here := fun (g : Group) => g.core = core && g.resident
    let gids := distinct ((s.groups.filter here).map Group.grid ++
      (s.teams.filter (fun t => t.core = core && !t.preempted && !t.ended)).map Team.grid)
    let s : State := { s with groups := s.groups.map (fun g => if here g then { g.kill with pend := [] } else g) }
    let s := (s.coreAt core).copies.foldl (fun (s : State) r => s.dropCopyReq core r) s
    let s := s.setCore core { s.coreAt core with buffer := [] }
    let s := gids.foldl (fun (s : State) d => s.endGrid d 3) s
    .next (s.replaceCore core)
  else .next s

/-! ### The health record (R337, Table 23.7) -/

/-- VWIDTH of a link: spare lanes in use, of the direction that uses more; 0xFF on 128 lanes. (DEDUCED, log 39.) -/
def Link.vwidth (l : Link) : Nat := if l.narrow0 || l.narrow1 then 0xFF else max l.spare0 l.spare1

/-- Fields of a width, the first at the low end. -/
def packFields (w : Nat) : List Nat → Nat
  | [] => 0
  | x :: l => x % 2 ^ w + 2 ^ w * packFields w l

/-- The 512 bits that the management cores and the host read at any time. -/
def State.healthRecord (s : State) : BitVec 512 :=
  let h := s.health
  BitVec.ofNat 512 (packFields 16 h.sparesUsed + packFields 16 (h.coresLost.map BitVec.toNat) * 2 ^ 64 +
    packFields 8 h.chspare * 2 ^ 144 + packFields 8 (s.links.map Link.vwidth) * 2 ^ 208 +
    (if h.standby then 1 else 0) * 2 ^ 256 + h.rststep * 2 ^ 288)

end Sys2Proof.Machine
end

