-- ==== Sys2Proof/Machine/Power.lean ====
section
/-! DEFINITION. Contexts (R313, R317, R318), code objects (R338 to R340, R352), operating classes, undervolting, heat and
energy (R341 to R347), and reset (R348). -/
namespace Sys2Proof.Machine

/-! ### Contexts -/

/-- FEATURE of a context (Table 21.10): the features it was created with, IMGVER 1 and ISAREV 1. -/
def featureOf (w : Word) : Word := 0x01000001 ||| (w &&& 0x7F00)

/-- A gutter ring's size (R199): a power of two from 64 to 2^20. -/
def gutterSizeOk (n : Nat) : Bool := decide (64 ≤ n) && decide (n ≤ 2 ^ 20) && decide (n = 2 ^ Nat.log2 n)

/-- A resource of the device, and the least budget other than 0 that may be set for it (Table 23.3). -/
def leastBudget : Resource → Option Nat
  | .valley core _ => if core < 256 then some 16 else none
  | .calven _ => some 64
  | .ranaris port _ => if port < 16 then some 64 else none
  | .channels stack => if stack < 8 then some 256 else none
  | .copyEngine core => if core < 256 then some 4096 else none
  | .ridge die => if die < 4 then some 1024 else none
  | .composer die => if die < 4 then some 4096 else none

/-- Budgets that the management cores may set for a context (R242, R327): one for each resource at most. -/
def budgetsOk (l : List (Resource × Nat)) : Bool :=
  decide ((l.map (fun e => e.1)).Nodup) && l.all (fun e => match leastBudget e.1 with
    | none => false
    | some n => e.2 = 0 || decide (n ≤ e.2))

/-- CONTEXT_CREATE (R313, R155, R199, R316, R318, R327): the device holds 1,024 contexts (R2); a watchdog period is 1 to 1,000 ms
(R114). -/
def execContextCreate (spec : ContextSpec) (s : State) : Result :=
  let ids := spec.queues.map (fun q => q.1)
  if s.ready && (s.context? spec.ctxid).isNone && decide (s.contexts.length < 1024) && decide (1 ≤ spec.watchdogMs) &&
      decide (spec.watchdogMs ≤ 1000) && budgetsOk spec.budgets && gutterSizeOk spec.gutterSize && decide (spec.watchdogAction ≤ 2) &&
      decide (ids.length ≤ 64) && decide (distinct ids = ids) && ids.all (fun q => decide (q ≤ 63)) &&
      spec.slots.all (fun e => decide (e.1 < 65536)) then
    let c : Context :=
      { id := spec.ctxid, ctxid := spec.ctxid, root := spec.root, feature := featureOf spec.feature,
        slots := spec.slots.map (fun e => (e.1, e.2, true)),
        queues := spec.queues.map (fun q =>
          { id := q.1, period := periodOf 0 q.2.1, budget := budgetOf (periodOf 0 q.2.1) q.2.2 }),
        gutBase := spec.gutterBase, gutSize := spec.gutterSize, watchdogMs := spec.watchdogMs,
        watchdogAction := spec.watchdogAction, budgets := spec.budgets.filter (fun e => e.2 ≠ 0) }
    .next { s with contexts := s.contexts ++ [c] }
  else .next s

/-- LIVE_MIGRATION (R317): the context's teams are pre-empted and it goes on on the target, whose state this now is: its
caches hold nothing of the context, CLOCK does not go back and MIGGEN rises by one. (DESIGN CHOICE, log 56.) -/
def execLiveMigration (ctx : Nat) (s : State) : Result :=
  match s.context? ctx with
  | none => .next s
  | some _ =>
    let mine := (s.teams.filter (fun t => !t.ended && !t.preempted && decide ((s.grid? t.grid).map Grid.ctx = some ctx))).map Team.id
    let s := (mine.foldl State.saveTeam s).tick
    let s : State := { s with
      cores := s.cores.map (fun k => { k with
        readCache := [], texCache := [], tlb := k.tlb.filter (fun t => t.ctx ≠ ctx)
        filter := k.filter.filter (fun f => f.ctx ≠ ctx) })
      dies := s.dies.map (fun d => { d with tlb := d.tlb.filter (fun t => t.ctx ≠ ctx), ridge := [], comp := [] }) }
    match s.context? ctx with
    | none => .next s
    | some c => .next (s.setContext { c with miggen := c.miggen + 1 })

/-! ### Code objects (R338 to R340, R352) -/

/-- A section entry (Table 24.2). -/
structure SectionEntry where
  fsize : Nat
  size : Nat
  foff : Nat
  align : Nat
  kind : Nat
  deriving DecidableEq, Repr

/-- A capability entry (Table 24.3). -/
structure CapEntry where
  length : Nat
  offset : Nat
  sect : Nat
  type : Nat
  perm : Byte
  slot : Nat
  deriving DecidableEq, Repr

/-- A code object as the loader reads it. -/
structure CodeObject where
  reqfeat : Nat
  sheaf : Bool
  width : Nat
  sections : List SectionEntry
  caps : List CapEntry
  deriving DecidableEq, Repr

/-- n bytes of a file at an offset, as a number; bytes past its end read zero. -/
def fileValue (file : List Byte) (off n : Nat) : Nat := leValue ((file.drop off).take n)

/-- A section entry, where its fields are valid and its bytes lie in the file. -/
def sectionEntry (file : List Byte) (i : Nat) : Option SectionEntry :=
  let x := fileValue file (64 + 16 * i) 16
  let e : SectionEntry :=
    { fsize := bits x 127 96, size := bits x 95 64, foff := bits x 63 32, align := bits x 15 8, kind := bits x 7 0 }
  if bits x 31 16 = 0 ∧ e.align ≤ 16 ∧ e.kind ≤ 4 ∧ e.fsize ≤ e.size ∧ e.foff + e.fsize ≤ file.length then some e else none

/-- A capability entry, where its fields are valid. -/
def capEntry (x : Nat) : Option CapEntry :=
  let e : CapEntry :=
    { length := bits x 127 96, offset := bits x 95 64, sect := bits x 39 32, type := bits x 31 24,
      perm := BitVec.ofNat 8 (bits x 23 16), slot := bits x 15 0 }
  if bits x 63 40 = 0 ∧ 1 ≤ e.length ∧ e.type ≤ 4 ∧ 2 ≤ e.slot then some e else none

/-- A list of which every element is there. -/
def allSome {α : Type} : List (Option α) → Option (List α)
  | [] => some []
  | none :: _ => none
  | some a :: l => (allSome l).map (fun r => a :: r)

/-- Sections of a kind. -/
def countKind (l : List SectionEntry) (k : Nat) : Nat := (l.filter (fun e => e.kind = k)).length

/-- The index of the first section of a kind. -/
def kindIndex (l : List SectionEntry) (k : Nat) : Option Nat := l.findIdx? (fun e => e.kind = k)

/-- The 16 B entries of the section of a kind. -/
def kindEntries (file : List Byte) (l : List SectionEntry) (k : Nat) : List Nat :=
  match l.find? (fun e => e.kind = k) with
  | none => []
  | some e => (upto (e.fsize / 16)).map (fun i => fileValue file (e.foff + 16 * i) 16)

/-- Refusals of a capability entry (R340, step 4), with the object's sections. -/
def capEntryOk (l : List SectionEntry) (e : CapEntry) : Bool :=
  match l[e.sect]? with
  | none => false
  | some k =>
    decide (e.offset + e.length ≤ k.size) && e.perm &&& (permM ||| permX) = 0 &&
      (e.perm &&& permW = 0 || decide (k.kind = 2)) && decide (e.type ≠ 1)

/-- A code object read and checked (R338 to R340): none when it is refused. -/
def codeObject (feature : Word) (file : List Byte) : Option CodeObject :=
  let h := fileValue file 0 64
  let nsect := bits h 71 64
  let req := bits h 159 128
  match allSome ((upto nsect).map (sectionEntry file)) with
  | none => none
  | some l =>
    match allSome ((kindEntries file l 3).map capEntry) with
    | none => none
    | some caps =>
      let kernels := kindEntries file l 4
      if 64 ≤ file.length ∧ bits h 511 160 = 0 ∧ bits h 127 72 = 0 ∧ bits h 63 57 = 0 ∧ bits h 31 0 = 0x00424F59 ∧
          bits h 47 32 = 1 ∧ (bits h 55 48 = 64 ∨ bits h 55 48 = 32) ∧ ¬ (h.testBit 56 ∧ bits h 55 48 = 32) ∧
          1 ≤ nsect ∧ nsect ≤ 16 ∧ bits req 31 15 = 0 ∧ bits req 7 0 = 0 ∧
          (BitVec.ofNat 32 req : Word) &&& ~~~feature = 0 ∧
          countKind l 0 = 1 ∧ countKind l 3 ≤ 1 ∧ countKind l 4 ≤ 1 ∧
          kernels.all (fun x => decide (bits x 127 96 = 0)) ∧ caps.all (capEntryOk l) ∧
          distinct (caps.map CapEntry.slot) = caps.map CapEntry.slot then
        some { reqfeat := req, sheaf := h.testBit 56, width := bits h 55 48, sections := l, caps := caps }
      else none

/-- Permissions that the leaves of a section's pages carry (R340): R, W and X of its kind; none for a table. -/
def kindLeaf (kind : Nat) : Option (Bool × Bool × Bool) :=
  match kind with
  | 0 => some (true, false, true)
  | 1 => some (true, false, false)
  | 2 => some (true, true, false)
  | _ => none

/-- Bytes that a section takes in memory: the writable one holds moved symbols too (R352). -/
def sectionSpan (spec : BindSpec) (e : SectionEntry) : Nat :=
  if e.kind = 2 then spec.moves.foldl (fun n m => max n (m.2.2 + m.2.1)) e.size else e.size

/-- Where the writable section lies: that of KIND 2, else the one that the loader adds where the runtime asks for moved symbols, whose
place follows those of the object's sections (R352). (DESIGN CHOICE, log 47.) -/
def writablePlace (spec : BindSpec) (o : CodeObject) : Option Nat :=
  match kindIndex o.sections 2 with
  | some w => spec.places[w]?
  | none => if spec.moves.isEmpty then none else spec.places[o.sections.length]?

/-- The sections that the loader places: the object's, and a writable one that it adds for moved symbols. -/
def placedSections (spec : BindSpec) (o : CodeObject) : List SectionEntry :=
  o.sections ++
    (if spec.moves.isEmpty || (kindIndex o.sections 2).isSome then [] else [{ fsize := 0, size := 0, foff := 0, align := 0, kind := 2 }])

/-- A section's place: aligned, and every page of it mapped with the permissions of its kind. -/
def State.placedOk (s : State) (c : Context) (spec : BindSpec) (e : SectionEntry) (place : Nat) : Bool :=
  match kindLeaf e.kind with
  | none => true
  | some (r, w, x) =>
    let n := sectionSpan spec e
    decide (place % 2 ^ e.align = 0) && (n = 0 || (upto ((place + n - 1) / 65536 - place / 65536 + 1)).all (fun i =>
      match s.walk c (65536 * (place / 65536 + i)) with
      | .leaf _ l _ => leafR l == r && leafW l == w && leafX l == x && !leafDisc l
      | .absent => false
      | .malformed => false))

/-- Bytes written at a virtual address by the loader, page by page. -/
def State.writeVirtual (s : State) (c : Context) (va : Nat) (l : List Byte) : State :=
  (withAddresses va l).foldl (fun (s : State) e =>
    match s.walk c e.1 with
    | .leaf _ leaf level => s.writeBytes (s.homeAddress (leafFrame leaf + e.1 % leafSpan level)) [e.2]
    | .absent => s
    | .malformed => s) s

/-- A section's bytes in memory: those of the file, then zeros. -/
def sectionBytes (file : List Byte) (e : SectionEntry) : List Byte :=
  (file.drop e.foff).take e.fsize ++ List.replicate (e.size - e.fsize) 0

/-- Where a capability entry's symbol lies: moved symbols of the read-only section at their new place (R352). -/
def symbolAt (spec : BindSpec) (o : CodeObject) (e : CapEntry) : Nat :=
  let moved := if kindIndex o.sections 1 = some e.sect then
      spec.moves.find? (fun m => decide (m.1 ≤ e.offset) && decide (e.offset + e.length ≤ m.1 + m.2.1)) else none
  match moved, writablePlace spec o with
  | some m, some w => w + m.2.2 + (e.offset - m.1)
  | _, _ => nth spec.places e.sect 0 + e.offset

/-- The capability minted for an entry (R340, step 4). -/
def mintedCap (spec : BindSpec) (o : CodeObject) (e : CapEntry) : QWord :=
  mkCap (BitVec.ofNat 8 e.type) (BitVec.ofNat 40 e.length) e.perm (BitVec.ofNat 56 (symbolAt spec o e))

/-- The code capability (R340, step 3). -/
def codeCapOf (spec : BindSpec) (o : CodeObject) : QWord :=
  match kindIndex o.sections 0 with
  | none => 0
  | some i =>
    mkCap 1 (BitVec.ofNat 40 ((o.sections[i]?).map SectionEntry.size |>.getD 0)) (permR ||| permX)
      (BitVec.ofNat 56 (nth spec.places i 0))

/-- A slot of the capability table written, with its tag. -/
def Context.setSlot (c : Context) (n : Nat) (q : QWord) : Context :=
  { c with slots := (n, q, true) :: c.slots.filter (fun e => e.1 ≠ n) }

/-- A kernel's default block with ENTRY_SLOT filled in (R340, step 5), as the runtime receives it. -/
def kernelBlock (spec : BindSpec) (o : CodeObject) (entry : Nat) : List Byte :=
  match o.sections.find? (fun e => e.kind = 1) with
  | none => []
  | some e =>
    leBytes 2 spec.codeSlot ++ (((sectionBytes spec.file e).drop (bits entry 95 64)).take 128).drop 2

/-- The object laid in memory: leaf entries, section bytes, moved symbols. -/
def State.layObject (s : State) (c : Context) (spec : BindSpec) (o : CodeObject) : State :=
  let secs := (upto o.sections.length).zip o.sections
  let s := secs.foldl (fun (s : State) e =>
    match kindLeaf e.2.kind with
    | none => s
    | some _ => s.writeVirtual c (nth spec.places e.1 0) (sectionBytes spec.file e.2)) s
  match o.sections.find? (fun e => e.kind = 1), writablePlace spec o with
  | some ro, some w =>
    spec.moves.foldl (fun (s : State) m =>
      s.writeVirtual c (w + m.2.2) (((sectionBytes spec.file ro).drop m.1).take m.2.1)) s
  | _, _ => s

/-- CODE_OBJECT_BIND (R340): a refused object writes no slot and maps no page. (DESIGN CHOICE, log 47.) -/
def execCodeObjectBind (spec : BindSpec) (s : State) : Result :=
  match s.context? spec.ctxid with
  | none => .next s
  | some c =>
    match codeObject c.feature spec.file with
    | none => .next { s with log := s.log ++ [.refusedObject c.id] }
    | some o =>
      let s1 := spec.leaves.foldl (fun (s : State) e => s.writeBytes e.1 (leBytes 8 e.2.toNat)) s
      let secs := placedSections spec o
      if ((upto secs.length).zip secs).all (fun e => s1.placedOk c spec e.2 (nth spec.places e.1 0)) &&
          (spec.moves.isEmpty || (writablePlace spec o).isSome) then
        let s1 := s1.layObject c spec o
        let c := c.setSlot spec.codeSlot (codeCapOf spec o)
        let c := o.caps.foldl (fun (c : Context) e => c.setSlot e.slot (mintedCap spec o e)) c
        .next (s1.setContext { c with
          width32 := if o.width = 32 then insertRising spec.codeSlot c.width32 else removeNat spec.codeSlot c.width32 })
      else .next s

/-! ### Operating classes (R341, R342, Table 24.5) -/

/-- Nominal supply of a class, in mV. -/
def nominalSupply (cls : Nat) : Nat :=
  match cls with
  | 0 => 350
  | 1 => 420
  | _ => 300

/-- Lowest undervolted supply of a class, in mV. -/
def lowestSupply (cls : Nat) : Nat :=
  match cls with
  | 0 => 310
  | 1 => 380
  | _ => 260

/-- A section. -/
def State.sectionAt (s : State) (sec : Nat) : Section := nth s.sections sec {}

/-- A section replaced. -/
def State.setSection (s : State) (sec : Nat) (x : Section) : State := { s with sections := setNth s.sections sec x }

/-- Teams resident in a section are pre-empted (R342), those among them that have ended and whose window their cluster still has. -/
def State.clearSection (s : State) (sec : Nat) : State :=
  ((s.teams.filter (fun t => t.core / 32 = sec && !t.preempted &&
    (!t.ended || (s.clusterTeams t).any (fun u => !u.ended)))).map Team.id).foldl State.saveTeam s

/-- The order of the classes by heat (R347): class 1 drops to 0, and 0 to 2. -/
def heatLevel (cls : Nat) : Nat :=
  match cls with
  | 1 => 2
  | 0 => 1
  | _ => 0

/-- A section at another class (R342, R346): at its nominal supply once it has ramped, F as far above the class's lowest
supply as before. `dropped` counts the classes below the one that it held before its heat. -/
def Section.toClass (x : Section) (cls dropped : Nat) : Section :=
  { x with
    cls := cls, supply := nominalSupply cls, floor := lowestSupply cls + (x.floor - lowestSupply x.cls), ramping := true,
    dwell := 0, dropped := dropped }

/-- Every core of a section reads at least 4 degrees below the threshold (R347). -/
def State.sectionCool (s : State) (sec : Nat) : Bool :=
  ((s.cores.drop (32 * sec)).take 32).all (fun k => decide (k.temp ≤ 91))

/-- The classes that a section has still to regain once it is of another class (R347): one that lost two and regains one lacks one. -/
def Section.stillDropped (x : Section) (cls : Nat) : Nat :=
  if x.dropped = 0 then 0 else heatLevel x.cls + x.dropped - heatLevel cls

/-- SECTION_REASSIGN (R342, R347): the section joins another pool, once it has kept its class for 20 ms, and, where it
regains a class that it lost for its heat, once it is cool. (DEDUCED, log 46.) -/
def execSectionReassign (sec cls : Nat) (s : State) : Result :=
  let x := s.sectionAt sec
  if sec < 8 ∧ cls ≤ 2 ∧ cls ≠ x.cls ∧ 200 ≤ x.dwell ∧ (x.dropped = 0 ∨ heatLevel cls < heatLevel x.cls ∨ s.sectionCool sec) then
    .next ((s.clearSection sec).setSection sec (x.toClass cls (x.stillDropped cls)))
  else .next s

/-- SECTION_RAMP_END (R342, R346): the supply is at its point, and teams may be placed and words issue again. -/
def execSectionRampEnd (sec : Nat) (s : State) : Result :=
  .next (s.setSection sec { s.sectionAt sec with ramping := false })

/-- SECTION_GRANT (R344): the bank reads that the management cores grant each issue slot of a section per clock, 2 to 8. What a word
waits for its reads is timing alone (log 49). -/
def execSectionGrant (sec grant : Nat) (s : State) : Result :=
  if sec < 8 ∧ 2 ≤ grant ∧ grant ≤ 8 then .next (s.setSection sec { s.sectionAt sec with grant := grant }) else .next s

/-! ### Energy (R343) -/

/-- ENERGY_APPORTION: at a 1 ms boundary of CLOCK, once, the whole 250 µJ steps of each context; the links' counts of flits sent again
start anew (R323). (DEDUCED, log 50.) -/
def execEnergyApportion (steps : List (Nat × Nat)) (s : State) : Result :=
  let now := s.clock.toNat / 1000000
  if s.energyAt < now then
    .next { s with
      energyAt := now
      contexts := s.contexts.map (fun c => { c with energy := c.energy + BitVec.ofNat 32 (assoc steps c.id 0) })
      links := s.links.map (fun l => { l with retries := 0 }) }
  else .next s

/-! ### Undervolting (R345, R346) -/

/-- UNDERVOLT_WINDOW_END (R345): a clean window steps the supply down by 5 mV, never below F. -/
def execUndervoltWindowEnd (sec : Nat) (clean : Bool) (s : State) : Result :=
  let x := s.sectionAt sec
  if clean then .next (s.setSection sec { x with supply := max x.floor (x.supply - 5) }) else .next s

/-- The section of an uncorrectable error (R346): nominal supply after a ramp, F up by 10 mV to at most nominal. -/
def Section.afterError (x : Section) : Section :=
  { x with supply := nominalSupply x.cls, floor := min (nominalSupply x.cls) (x.floor + 10), ramping := true }

/-- The place of an error is poisoned (R172, R346). -/
def State.poisonPlace (s : State) (place : ErrorPlace) : State :=
  match place with
  | .memory sector => { s with poison := insertRising sector s.poison }
  | .scratchWord team off =>
    (match s.team? team with
      | none => s
      | some t =>
        s.setTeam { t with poisonWords := insertRising (off / 4) t.poisonWords })
  | .vWord group name lane =>
    (match s.group? group with
      | none => s
      | some g =>
        s.setGroup { g with poisonV := (name.val, lane) :: g.poisonV.filter (fun e => e ≠ (name.val, lane)) })

/-- UNCORRECTABLE_ERROR (R346). -/
def execUncorrectableError (sec : Nat) (place : ErrorPlace) (s : State) : Result :=
  let s := s.poisonPlace place
  .next (s.setSection sec (s.sectionAt sec).afterError)

/-! ### Heat (R347) -/

/-- The coolest of some cores, the lowest on a tie. -/
def coolest (s : State) : List Nat → Option Nat
  | [] => none
  | k :: l =>
    match coolest s l with
    | none => some k
    | some j => if (s.coreAt k).temp ≤ (s.coreAt j).temp then some k else some j

/-- The hottest core of a section. -/
def State.sectionTemp (s : State) (sec : Nat) : Nat :=
  ((s.cores.drop (32 * sec)).take 32).foldl (fun m k => max m k.temp) 0

/-- The hottest of some sections, the lowest on a tie. -/
def hottest (s : State) : List Nat → Option Nat
  | [] => none
  | k :: l =>
    match hottest s l with
    | none => some k
    | some j => if s.sectionTemp j ≤ s.sectionTemp k then some k else some j

/-- Cores of a core's pool that a team may be migrated to for heat. -/
def State.heatTargets (s : State) (core : Nat) : List Nat :=
  (upto 256).filter (fun k =>
    let x := s.sectionAt (k / 32)
    k ≠ core && decide ((s.coreAt k).temp ≤ 91) && !(s.coreAt k).absent &&
      decide (x.cls = (s.sectionAt (core / 32)).cls) && !x.ramping && !x.hot)

/-- The cores of a cluster whose team is to stand on a target: the rectangle in which it has its place there (R99), on the die of a
draw's screen region (R324). None where there is no such rectangle, or while copy requests of one of the teams are outstanding
(R238). (DESIGN CHOICE, log 46.) -/
def State.movePlaces (s : State) (target : Nat) (t : Team) : Option (List (Team × Nat)) :=
  match s.grid? t.grid with
  | none => none
  | some d =>
    let b := d.lpb
    let x := t.gx % b.clw
    let y := t.gy % b.clh
    let mates := s.clusterTeams t
    if target % 8 < x ∨ target / 8 % 4 < y ∨ mates.any (fun u => s.copying u.id) ∨
        ((s.boundDie t).map (fun k => decide (k ≠ target / 64))).getD false then none
    else (rectangle (target - x - 8 * y) b).map (fun cs =>
      mates.map (fun u => (u, nth cs (u.gx % b.clw + b.clw * (u.gy % b.clh)) u.core)))

/-- A team pre-empted, to resume on another core, with the other teams of its cluster. -/
def State.moveTeam (s : State) (target : Nat) (tid : Nat) : State :=
  match (s.team? tid).bind (s.movePlaces target) with
  | none => s
  | some l => l.foldl (fun (s : State) e =>
      let s := if e.1.preempted then s else s.saveTeam e.1.id
      match s.team? e.1.id with
      | none => s
      | some v => s.setTeam { v with core := e.2, keeps := true, cool := 0 }) s

/-- A core above the threshold (R347): its teams, those apart that were migrated within 20 ms, migrate to the coolest core of its pool
to which one of them can go, one that no other core's teams go to first; without one, the hottest section of the pool drops a
class. -/
def State.heatCore (a : State × List Nat) (core : Nat) : State × List Nat :=
  let (s, taken) := a
  let mine := s.teams.filter (fun t => t.core = core && !t.preempted && !t.ended && decide (200 ≤ t.cool))
  if (s.coreAt core).temp ≤ 95 ∨ mine.isEmpty then a
  else
    let targets := (s.heatTargets core).filter (fun k => mine.any (fun t => (s.movePlaces k t).isSome))
    let free := targets.filter (fun k => !taken.contains k)
    match coolest s (if free.isEmpty then targets else free) with
    | some k => (mine.foldl (fun s t => s.moveTeam k t.id) s, k :: taken)
    | none =>
        let cls := (s.sectionAt (core / 32)).cls
        match hottest s ((upto 8).filter (fun k => (s.sectionAt k).cls = cls)) with
        | none => a
        | some sec =>
          let x := s.sectionAt sec
          if cls ≤ 1 ∧ 200 ≤ x.dwell then
            ((s.clearSection sec).setSection sec (x.toClass (if cls = 1 then 0 else 2) (x.dropped + 1)), taken)
          else a

/-- Issue of a section stops above 105 degrees, until its cores read below 100 (R347). -/
def State.heatStops (s : State) (sec : Nat) (x : Section) : Section :=
  let t := s.sectionTemp sec
  if 105 < t then { x with hot := true } else if t < 100 then { x with hot := false } else x

/-- THERMAL_SAMPLE (R347): every core's sensor is read, every 100 µs. -/
def execThermalSample (temps : List Nat) (s : State) : Result :=
  let s : State := { s with
    cores := ((upto s.cores.length).zip s.cores).map (fun e => { e.2 with temp := nth temps e.1 e.2.temp })
    teams := s.teams.map (fun t => { t with cool := min 200 (t.cool + 1) })
    sections := s.sections.map (fun x => { x with dwell := min 200 (x.dwell + 1) }) }
  let s := ((upto 256).foldl State.heatCore (s, [])).1
  .next { s with sections := ((upto s.sections.length).zip s.sections).map (fun e => s.heatStops e.1 e.2) }

/-! ### Reset (R348) -/

/-- What a reset discards at once, with the health record cleared, the links' part of it too (R337): every context, frame, save image
and queue. -/
def State.resetBegin (s : State) (failAt : Nat) : State :=
  { State.reset with
    mem := s.mem, tags := s.tags, poison := s.poison, cores := s.cores, dies := s.dies, sections := s.sections,
    clock := s.clock, ready := false, firmware := false, resetFail := failAt, agenda := s.agenda,
    fresh := s.fresh, freeCount := s.freeCount }

/-- The effect of step n of the sequence. Step 6 is of the device's own 384 GiB, step 10 the firmware's load. -/
def State.resetStep (s : State) (spec : ResetSpec) (n : Nat) : State :=
  match n with
  | 1 => { s with clock := 0, sections := s.sections.map (fun x => { x with supply := nominalSupply 0 }) }
  | 2 => { s with dies := (upto 4).map (fun i => { nth s.dies i {} with sparesUsed := nth spec.spareCores i 0 }) }
  | 3 => { s with health := { s.health with
      sparesUsed := (upto 4).map (fun i => nth spec.spareCores i 0)
      chspare := (upto 8).map (fun i => nth spec.spareChannels i 0) }
                  links := (upto 6).map (fun i => { spare0 := nth spec.spareLanes i 0, spare1 := nth spec.spareLanes i 0 }) }
  | 6 => { s with
      mem := s.mem.filter (fun c => decide (deviceMemoryEnd ≤ c.1))
      tags := s.tags.filter (fun g => decide (deviceMemoryEnd ≤ 16 * g))
      poison := s.poison.filter (fun x => decide (deviceMemoryEnd ≤ 32 * x)) }
  | 7 => { s with
      cores := List.replicate 256 {}
      dies := s.dies.map (fun d => { sparesUsed := d.sparesUsed }) }
  | 8 => { s with sections := List.replicate 8 {} }
  | 10 => { s with firmware := true }
  | 12 => { s with ready := true }
  | _ => s

/-- Steps n to n + k − 1 in order; one that fails stops the sequence and its number is written to RSTSTEP. -/
def State.resetSteps (s : State) (spec : ResetSpec) (n : Nat) : Nat → State
  | 0 => s
  | k + 1 =>
    if s.resetFail = n then { s with health := { s.health with rststep := n } }
    else (s.resetStep spec n).resetSteps spec (n + 1) k

/-- RESET (R348): steps 1 to 9; the sequence then waits for the host's firmware. (DEDUCED, log 48.) -/
def execReset (spec : ResetSpec) (s : State) : Result :=
  .next ((s.resetBegin ((spec.failAt.map Fin.val).getD 0)).resetSteps spec 1 9)

/-- MANAGEMENT_FIRMWARE_LOAD (R348, step 10): a good image lets the sequence go on; a bad one fails the step. -/
def execManagementFirmwareLoad (good : Bool) (s : State) : Result :=
  if s.ready || s.firmware || s.health.rststep ≠ 0 then .next s
  else
    let s : State := if good then s else { s with resetFail := 10 }
    .next (s.resetSteps { failAt := none, spareCores := [], spareChannels := [], spareLanes := [] } 10 3)

end Sys2Proof.Machine
end

