-- ==== Sys2Proof/Machine/Dispatch.lean ====
section
/-! DEFINITION. One arm per instruction and step. -/
namespace Sys2Proof.Machine

/-- An instruction or step of the machine. -/
def exec (i : Instr) (s : State) : Host.Outcome State Fault Refusal :=
  match i with
  | .clauseStart wait seta setb len => Sys2Proof.Machine.execClauseStart wait seta setb len s
  | .nop => Sys2Proof.Machine.execNop s
  | .exit => Sys2Proof.Machine.execExit s
  | .bra off => Sys2Proof.Machine.execBra off s
  | .bc neg p all off => Sys2Proof.Machine.execBc neg p all off s
  | .bdiv neg p off => Sys2Proof.Machine.execBdiv neg p off s
  | .setj off => Sys2Proof.Machine.execSetj off s
  | .join => Sys2Proof.Machine.execJoin s
  | .call off => Sys2Proof.Machine.execCall off s
  | .ret => Sys2Proof.Machine.execRet s
  | .brx a => Sys2Proof.Machine.execBrx a s
  | .callx a => Sys2Proof.Machine.execCallx a s
  | .yield_ => Sys2Proof.Machine.execYield s
  | .trap n => Sys2Proof.Machine.execTrap n s
  | .tret => Sys2Proof.Machine.execTret s
  | .mode imm => Sys2Proof.Machine.execMode imm s
  | .iadd u d a b => Sys2Proof.Machine.execIadd u d a b s
  | .isub u d a b => Sys2Proof.Machine.execIsub u d a b s
  | .imul u d a b => Sys2Proof.Machine.execImul u d a b s
  | .imulh u d a b => Sys2Proof.Machine.execImulh u d a b s
  | .imad u d a b => Sys2Proof.Machine.execImad u d a b s
  | .imin u d a b => Sys2Proof.Machine.execImin u d a b s
  | .imax u d a b => Sys2Proof.Machine.execImax u d a b s
  | .iabs u d a => Sys2Proof.Machine.execIabs u d a s
  | .and u d a b => Sys2Proof.Machine.execAnd u d a b s
  | .or u d a b => Sys2Proof.Machine.execOr u d a b s
  | .xor u d a b => Sys2Proof.Machine.execXor u d a b s
  | .andn u d a b => Sys2Proof.Machine.execAndn u d a b s
  | .shl u d a b => Sys2Proof.Machine.execShl u d a b s
  | .shr u d a b => Sys2Proof.Machine.execShr u d a b s
  | .sar u d a b => Sys2Proof.Machine.execSar u d a b s
  | .rol u d a b => Sys2Proof.Machine.execRol u d a b s
  | .bfe u d a b => Sys2Proof.Machine.execBfe u d a b s
  | .bfi u d a b => Sys2Proof.Machine.execBfi u d a b s
  | .popc u d a => Sys2Proof.Machine.execPopc u d a s
  | .clz u d a => Sys2Proof.Machine.execClz u d a s
  | .brev u d a => Sys2Proof.Machine.execBrev u d a s
  | .sel u d a b => Sys2Proof.Machine.execSel u d a b s
  | .icmp u c p a b => Sys2Proof.Machine.execIcmp u c p a b s
  | .mov u d a => Sys2Proof.Machine.execMov u d a s
  | .iaddi u d imm => Sys2Proof.Machine.execIaddi u d imm s
  | .movi u d imm => Sys2Proof.Machine.execMovi u d imm s
  | .movhi u d imm => Sys2Proof.Machine.execMovhi u d imm s
  | .andi u d imm => Sys2Proof.Machine.execAndi u d imm s
  | .ori u d imm => Sys2Proof.Machine.execOri u d imm s
  | .xori u d imm => Sys2Proof.Machine.execXori u d imm s
  | .imuli u d imm => Sys2Proof.Machine.execImuli u d imm s
  | .fadd u d a b => Sys2Proof.Machine.execFadd u d a b s
  | .fsub u d a b => Sys2Proof.Machine.execFsub u d a b s
  | .fmul u d a b => Sys2Proof.Machine.execFmul u d a b s
  | .ffma u d a b => Sys2Proof.Machine.execFfma u d a b s
  | .fmin u d a b => Sys2Proof.Machine.execFmin u d a b s
  | .fmax u d a b => Sys2Proof.Machine.execFmax u d a b s
  | .fabs u d a => Sys2Proof.Machine.execFabs u d a s
  | .fneg u d a => Sys2Proof.Machine.execFneg u d a s
  | .fcmp u c p a b => Sys2Proof.Machine.execFcmp u c p a b s
  | .frcp u d a => Sys2Proof.Machine.execFrcp u d a s
  | .frsq u d a => Sys2Proof.Machine.execFrsq u d a s
  | .fsqrt u d a => Sys2Proof.Machine.execFsqrt u d a s
  | .fexp2 u d a => Sys2Proof.Machine.execFexp2 u d a s
  | .flog2 u d a => Sys2Proof.Machine.execFlog2 u d a s
  | .fsin u d a => Sys2Proof.Machine.execFsin u d a s
  | .fcos u d a => Sys2Proof.Machine.execFcos u d a s
  | .frnd u d a => Sys2Proof.Machine.execFrnd u d a s
  | .ffrac u d a => Sys2Proof.Machine.execFfrac u d a s
  | .cvt u d a pos dst => Sys2Proof.Machine.execCvt u d a pos dst s
  | .pack u d a b => Sys2Proof.Machine.execPack u d a b s
  | .unpk u d a i4 hi => Sys2Proof.Machine.execUnpk u d a i4 hi s
  | .fdot2 u d a b => Sys2Proof.Machine.execFdot2 u d a b s
  | .fclass u d a => Sys2Proof.Machine.execFclass u d a s
  | .fmulb u d imm => Sys2Proof.Machine.execFmulb u d imm s
  | .shfl d a b => Sys2Proof.Machine.execShfl d a b s
  | .shflx d a b => Sys2Proof.Machine.execShflx d a b s
  | .shflup d a b => Sys2Proof.Machine.execShflup d a b s
  | .vote d a k => Sys2Proof.Machine.execVote d a k s
  | .lred d a op => Sys2Proof.Machine.execLred d a op s
  | .lscan d a ex op => Sys2Proof.Machine.execLscan d a ex op s
  | .elect d => Sys2Proof.Machine.execElect d s
  | .barArrive a b => Sys2Proof.Machine.execBarArrive a b s
  | .barWait a => Sys2Proof.Machine.execBarWait a s
  | .barSync a b => Sys2Proof.Machine.execBarSync a b s
  | .freeze a => Sys2Proof.Machine.execFreeze a s
  | .lnchW u x a => Sys2Proof.Machine.execLnchW u x a s
  | .lnchN u x a => Sys2Proof.Machine.execLnchN u x a s
  | .enq u x a => Sys2Proof.Machine.execEnq u x a s
  | .fence k sc => Sys2Proof.Machine.execFence k sc s
  | .xfence k after before sc => Sys2Proof.Machine.execXfence k after before sc s
  | .waita u ne sc sp a => Sys2Proof.Machine.execWaita u ne sc sp a s
  | .ckick u a b => Sys2Proof.Machine.execCkick u a b s
  | .csrr u d n => Sys2Proof.Machine.execCsrr u d n s
  | .csrw u d n => Sys2Proof.Machine.execCsrw u d n s
  | .mint u d a b => Sys2Proof.Machine.execMint u d a b s
  | .xlat u n a => Sys2Proof.Machine.execXlat u n a s
  | .ld u d x sz h a => Sys2Proof.Machine.execLd u d x sz h a s
  | .st u d x sz h a => Sys2Proof.Machine.execSt u d x sz h a s
  | .atom u d x op w64 a => Sys2Proof.Machine.execAtom u d x op w64 a s
  | .atomNoreturn u x op w64 a => Sys2Proof.Machine.execAtomNoreturn u x op w64 a s
  | .lds u d sp sz a => Sys2Proof.Machine.execLds u d sp sz a s
  | .sts u d sp sz a => Sys2Proof.Machine.execSts u d sp sz a s
  | .atoms u d sp op w64 a => Sys2Proof.Machine.execAtoms u d sp op w64 a s
  | .atomsNoreturn u sp op w64 a => Sys2Proof.Machine.execAtomsNoreturn u sp op w64 a s
  | .ldcTable u d a => Sys2Proof.Machine.execLdcTable u d a s
  | .ldcMemory u d x a => Sys2Proof.Machine.execLdcMemory u d x a s
  | .stc u d x a => Sys2Proof.Machine.execStc u d x a s
  | .tlook u d a b => Sys2Proof.Machine.execTlook u d a b s
  | .tset u a b => Sys2Proof.Machine.execTset u a b s
  | .ldlod u d sz a => Sys2Proof.Machine.execLdlod u d sz a s
  | .sample u d a b => Sys2Proof.Machine.execSample u d a b s
  | .sampleg u d a b => Sys2Proof.Machine.execSampleg u d a b s
  | .pref u x k a => Sys2Proof.Machine.execPref u x k a s
  | .mloadb a => Sys2Proof.Machine.execMloadb a s
  | .mloop a => Sys2Proof.Machine.execMloop a s
  | .mdrain a => Sys2Proof.Machine.execMdrain a s
  | .mdrainv d a b => Sys2Proof.Machine.execMdrainv d a b s
  | .mzero a b => Sys2Proof.Machine.execMzero a b s
  | .mscale q a => Sys2Proof.Machine.execMscale q a s
  | .vxm d a last b => Sys2Proof.Machine.execVxm d a last b s
  | .trace mask a k d => Sys2Proof.Machine.execTrace mask a k d s
  | .hitret a d => Sys2Proof.Machine.execHitret a d s
  | .repack k nm1 a b => Sys2Proof.Machine.execRepack k nm1 a b s
  | .visb clear a mask => Sys2Proof.Machine.execVisb clear a mask s
  | .cover a b => Sys2Proof.Machine.execCover a b s
  | .compose d a => Sys2Proof.Machine.execCompose d a s
  | .waitaReread g id => Sys2Proof.Machine.execWaitaReread g id s
  | .resdrain u d => Sys2Proof.Machine.execResdrain u d s
  | .guttail ctx value => Sys2Proof.Machine.execGuttail ctx value s
  | .guthead ctx value => Sys2Proof.Machine.execGuthead ctx value s
  | .gutovf ctx value => Sys2Proof.Machine.execGutovf ctx value s
  | .queueWrite ctx queue budget value => Sys2Proof.Machine.execQueueWrite ctx queue budget value s
  | .sectionGrant sec grant => Sys2Proof.Machine.execSectionGrant sec grant s
  | .gutterEntryPerformed unit => Sys2Proof.Machine.execGutterEntryPerformed unit s
  | .engineCommandComplete g id => Sys2Proof.Machine.execEngineCommandComplete g id s
  | .unitResultWritten g result => Sys2Proof.Machine.execUnitResultWritten g result s
  | .composeOptimise die => Sys2Proof.Machine.execComposeOptimise die s
  | .optimiseBoundExpiry die => Sys2Proof.Machine.execOptimiseBoundExpiry die s
  | .loadSectorReturn g id sector => Sys2Proof.Machine.execLoadSectorReturn g id sector s
  | .storePerformed g id => Sys2Proof.Machine.execStorePerformed g id s
  | .shootDown ctx page => Sys2Proof.Machine.execShootDown ctx page s
  | .teamStart core => Sys2Proof.Machine.execTeamStart core s
  | .steal core => Sys2Proof.Machine.execSteal core s
  | .launchWaitComplete g id => Sys2Proof.Machine.execLaunchWaitComplete g id s
  | .groupExchange gOut gIn => Sys2Proof.Machine.execGroupExchange gOut gIn s
  | .starvationTimeout gIn => Sys2Proof.Machine.execStarvationTimeout gIn s
  | .groupEvict core slot => Sys2Proof.Machine.execGroupEvict core slot s
  | .groupReturn g => Sys2Proof.Machine.execGroupReturn g s
  | .sheafMiss core sheaf => Sys2Proof.Machine.execSheafMiss core sheaf s
  | .watchdog core slot g => Sys2Proof.Machine.execWatchdog core slot g s
  | .overrun ctx queue => Sys2Proof.Machine.execOverrun ctx queue s
  | .periodStart ctx queue => Sys2Proof.Machine.execPeriodStart ctx queue s
  | .preempt groups teams => Sys2Proof.Machine.execPreempt groups teams s
  | .switchIn team => Sys2Proof.Machine.execSwitchIn team s
  | .trapDelivery g half => Sys2Proof.Machine.execTrapDelivery g half s
  | .pathStopTimeout g slot => Sys2Proof.Machine.execPathStopTimeout g slot s
  | .serviceResponse g id answer => Sys2Proof.Machine.execServiceResponse g id answer s
  | .copyRequestFetch g id => Sys2Proof.Machine.execCopyRequestFetch g id s
  | .copyRequestPerform core req => Sys2Proof.Machine.execCopyRequestPerform core req s
  | .copyCompletion core req part => Sys2Proof.Machine.execCopyCompletion core req part s
  | .budgetPeriod => Sys2Proof.Machine.execBudgetPeriod s
  | .drawRecord die queueCtx queue => Sys2Proof.Machine.execDrawRecord die queueCtx queue s
  | .doorbell ctx queue tail => Sys2Proof.Machine.execDoorbell ctx queue tail s
  | .gridCompletion grid => Sys2Proof.Machine.execGridCompletion grid s
  | .rangeRelease ctx range => Sys2Proof.Machine.execRangeRelease ctx range s
  | .rangeAcquire ctx range => Sys2Proof.Machine.execRangeAcquire ctx range s
  | .hostAccess pa acc => Sys2Proof.Machine.execHostAccess pa acc s
  | .peerAccess peer pa acc => Sys2Proof.Machine.execPeerAccess peer pa acc s
  | .flitRetry link dir => Sys2Proof.Machine.execFlitRetry link dir s
  | .linkRetrain link dir laneFailed => Sys2Proof.Machine.execLinkRetrain link dir laneFailed s
  | .linkRetrainEnd link => Sys2Proof.Machine.execLinkRetrainEnd link s
  | .calvenFailover => Sys2Proof.Machine.execCalvenFailover s
  | .channelSpare stack channel => Sys2Proof.Machine.execChannelSpare stack channel s
  | .coreSpare core => Sys2Proof.Machine.execCoreSpare core s
  | .coreLost core => Sys2Proof.Machine.execCoreLost core s
  | .uncorrectableError sec place => Sys2Proof.Machine.execUncorrectableError sec place s
  | .undervoltWindowEnd sec clean => Sys2Proof.Machine.execUndervoltWindowEnd sec clean s
  | .thermalSample temps => Sys2Proof.Machine.execThermalSample temps s
  | .sectionReassign sec cls => Sys2Proof.Machine.execSectionReassign sec cls s
  | .energyApportion steps => Sys2Proof.Machine.execEnergyApportion steps s
  | .liveMigration ctx => Sys2Proof.Machine.execLiveMigration ctx s
  | .contextCreate spec => Sys2Proof.Machine.execContextCreate spec s
  | .queueCreate spec => Sys2Proof.Machine.execQueueCreate spec s
  | .domainForm own count => Sys2Proof.Machine.execDomainForm own count s
  | .reset spec => Sys2Proof.Machine.execReset spec s
  | .plainJoinWritten g id => Sys2Proof.Machine.execPlainJoinWritten g id s
  | .sectionRampEnd sec => Sys2Proof.Machine.execSectionRampEnd sec s
  | .channelCopyEnd stack channel => Sys2Proof.Machine.execChannelCopyEnd stack channel s
  | .deviceLeavesDomain peer => Sys2Proof.Machine.execDeviceLeavesDomain peer s
  | .codeObjectBind spec => Sys2Proof.Machine.execCodeObjectBind spec s
  | .managementFirmwareLoad good => Sys2Proof.Machine.execManagementFirmwareLoad good s

end Sys2Proof.Machine
end

