-- ==== Sys2Proof/Machine/Choose.lean ====
section
/-! DEFINITION. What takes the next step: the path of an issue slot (R111, R112), and the events that the machine chooses
itself where nothing on its agenda does. -/
namespace Sys2Proof.Machine

/-- Issue slot of a group: 4 × core + slot. -/
def Group.slotNumber (g : Group) : Nat := 4 * g.core + g.index % 4

/-- One word of a path: it becomes the current path of the device and of its issue slot, and its word is fetched and
executed; a path at a step of a draw's glue makes that step (R287). -/
def State.runPath (s : State) (gid k : Nat) : Result :=
  let s : State := { s with cur := some (gid, k) }
  match s.issue? with
  | none => .next s
  | some c =>
    let s : State := { s with slotLast := assocSet c.g.slotNumber (gid, k) s.slotLast }
    let c : Issue := { c with s := s }
    if c.glueDue then (if c.ready then .next c.glueStep else .next s)
    else
      match s.fetch c.g c.p.pc with
      | .fault t s => .next (Issue.fetchFault { c with s := s } .nop t)
      | .word w s =>
        match placed c.p.clause w with
        | .error t => .next (Issue.raise { c with s := s } t)
        | .ok i => exec i s

/-- The group is waited for by a yielding group, for which pending groups are made active (R113). -/
def State.isOwed (s : State) (g : Group) : Bool := s.groups.any (fun h => h.owed.any (fun e => e.1 = g.id))

/-- The first eligible path of some groups: the oldest group, path 0 before path 1. -/
def State.firstEligible (s : State) : List Group → Option (Nat × Nat)
  | [] => none
  | g :: l =>
    if s.eligible g 0 then some (g.id, 0) else if s.eligible g 1 then some (g.id, 1) else s.firstEligible l

/-- The path that an issue slot chooses (R111): of the active groups, and of the pending ones that a yielding group waits for (R113);
while a place of the active set is free, of any pending group. (PRESUMED, log 30.) -/
def State.slotChoice (s : State) (n : Nat) : Option (Nat × Nat) :=
  let gs := s.slotGroups (n / 4) (n % 4)
  let act := gs.filter (fun g => decide (g.res = .active) || s.isOwed g)
  let last := match s.slotLast.find? (fun e => e.1 = n) with
    | none => none
    | some e => if act.any (fun g => g.id = e.2.1 && s.eligible g e.2.2) then some e.2 else none
  match last, s.firstEligible act with
  | some p, _ => some p
  | none, some p => some p
  | none, none =>
    if (gs.filter (fun g => g.res = .active)).length < 8 then
      s.firstEligible (gs.filter (fun g => g.res = .pending))
    else none

/-- A pending group that is to issue joins the active set; where all 8 places are taken, it takes that of the group that yields
to it, else of the active group whose last issue is oldest (R113). (DEDUCED, log 30.) -/
def State.activate (s : State) (gid : Nat) : State :=
  match s.group? gid with
  | none => s
  | some g =>
    if g.res ≠ .pending then s
    else
      let act := (s.slotGroups g.core (g.index % 4)).filter (fun h => h.res = .active)
      if act.length < 8 then s.setGroup { g with res := .active }
      else match act.find? (fun h => h.owed.any (fun e => e.1 = gid)), stalest act with
        | some h, _ => s.exchange h.id gid
        | none, some h => s.exchange h.id gid
        | none, none => s

/-- At every 4,096th word of the device, the pending group of an issue slot that has an eligible path takes the place of the
active group whose last issue is oldest (R112). (DEDUCED, log 31.) -/
def State.relieve (s : State) (n : Nat) : State :=
  if s.issues % 4096 = 0 then
    match s.oldestPending (n / 4) (n % 4) with
    | none => s
    | some g =>
      match stalest ((s.slotGroups (n / 4) (n % 4)).filter (fun h => h.res = .active)) with
      | none => s
      | some h => s.exchange h.id g.id
  else s

/-- One clock of an issue slot. -/
def State.slotTurn (s : State) (n : Nat) : Result :=
  let t := s.relieve n
  match t.slotChoice n with
  | none => .next t.tick
  | some (gid, k) => (t.activate gid).runPath gid k

/-- The current path, where it stands in a clause and may issue its next word. -/
def State.currentReady (s : State) : Option (Nat × Nat) :=
  match s.issue?, s.cur with
  | some c, some p => if c.p.clause.isSome && decide (c.g.res = .active) && c.ready then some p else none
  | _, _ => none

/-- The first issue slot of some that has a path to issue. -/
def State.firstSlot (s : State) : List Nat → Option Nat
  | [] => none
  | n :: l => if (s.slotChoice n).isSome then some n else s.firstSlot l

/-- Issue slots that hold groups, from the one after the current path's on, in turn. -/
def State.slotRound (s : State) : List Nat :=
  let l := (s.groups.map Group.slotNumber).foldr insertRising []
  let last := match s.issue? with
    | none => 0
    | some c => c.g.slotNumber
  l.filter (fun n => last < n) ++ l.filter (fun n => n ≤ last)

/-! ### Events -/

/-- The events that may complete an instruction in flight. -/
def pendEvents (g : Nat) (p : Pend) : List Instr :=
  [.loadSectorReturn g p.id ⟨p.nextSector, 0⟩, .storePerformed g p.id, .engineCommandComplete g p.id, .unitResultWritten g ⟨p.id, 0⟩,
   .plainJoinWritten g p.id, .waitaReread g p.id, .launchWaitComplete g p.id, .copyRequestFetch g p.id]

/-- Events by the number of their instruction, the oldest first. -/
def insertEvents (e : Nat × List Instr) : List (Nat × List Instr) → List (Nat × List Instr)
  | [] => [e]
  | f :: l => if e.1 ≤ f.1 then e :: f :: l else f :: insertEvents e l

/-- Events of the instructions in flight, the oldest instruction's first. -/
def State.flightEvents (s : State) : List Instr :=
  ((s.groups.flatMap (fun g => g.pend.map (fun p => (p.id, pendEvents g.id p)))).foldr insertEvents []).flatMap
    (fun e => e.2)

/-- Events of a group: the delivery of its traps. -/
def groupEvents (g : Group) : List Instr :=
  (upto 2).filterMap (fun half => if g.faulting half then some (.trapDelivery g.id half) else none)

/-- A sheaf that the group waits for is installed. -/
def sheafEvents (g : Group) : List Instr :=
  if g.waitsSheaf then g.sheaves.map (fun k => .sheafMiss g.core k) else []

/-- Events of a core: its copy requests, what ended ones have still to perform, then its deque. -/
def State.coreEvents (s : State) (e : Nat × Core) : List Instr :=
  e.2.copies.flatMap (fun r => [.copyRequestPerform e.1 r.id, .copyCompletion e.1 r.id r.total]) ++
    ((distinct (e.2.buffer.map (fun w => w.pend))).filter (fun id =>
      !e.2.copies.any (fun r => r.id = id) && !s.groups.any (fun g => g.pend.any (fun p => p.id = id)))).map
        (fun id => .copyRequestPerform e.1 id) ++
    (if e.2.deque.isEmpty then [] else [.teamStart e.1])

/-- Cores on which a cluster that the management cores hold may be placed (R134). -/
def State.placementEvents (s : State) (r : DequeRecord) : List Instr :=
  match s.grid? r.grid with
  | none => []
  | some d => ((upto 256).filter (fun k => (s.rectangleFor k d).isSome)).map (fun k => .teamStart k)

/-- Cores that may take a cluster of an ordered draw from an overflow deque (R325). -/
def State.overflowEvents (s : State) (c : Context) : List Instr :=
  (c.overflow.filter (fun r => r.die.isSome)).flatMap s.placementEvents

/-- Events of a context: its gutter, and the records of its ordered queues. -/
def contextEvents (c : Context) : List Instr :=
  (distinct (c.gutPending.map (fun e => e.2.1))).map (fun k => .gutterEntryPerformed ⟨c.id, k⟩) ++
    (c.queues.filter (fun q => q.ordered)).flatMap (fun q => (upto 4).map (fun d => .drawRecord d c.id q.id))

/-- Events of what is under way, which the machine tries between clauses. -/
def State.progressEvents (s : State) : List Instr :=
  s.groups.flatMap groupEvents ++ s.flightEvents ++ s.groups.flatMap sheafEvents ++
    ((upto s.cores.length).zip s.cores).flatMap s.coreEvents ++ s.placements.flatMap s.placementEvents ++
    s.contexts.flatMap s.overflowEvents ++ s.contexts.flatMap contextEvents ++
    ((upto s.dies.length).zip s.dies).filterMap (fun e =>
      if e.2.optQueue.isEmpty then none else some (.composeOptimise e.1)) ++
    (s.grids.filter (fun d => d.completed)).map (fun d => .gridCompletion d.id)

/-- Changes of place in an issue slot that holds a pending group. -/
def State.slotEvents (s : State) (g : Group) : List Instr :=
  match g.res with
  | .pending =>
    ((s.slotGroups g.core (g.index % 4)).filter (fun h => h.res = .active)).map (fun h => .groupExchange h.id g.id) ++
      [.starvationTimeout g.id, .groupEvict g.core (g.index % 4)]
  | .evicted => [.groupReturn g.id]
  | .active => [.groupEvict g.core (g.index % 4)]
  | .preempted => [.groupReturn g.id, .switchIn g.team]

/-- A section holds no team. -/
def State.sectionEmpty (s : State) (sec : Nat) : Bool := !s.teams.any (fun t => t.core / 32 = sec && !t.preempted)

/-- What the management cores do for a record that stands on a core outside the pool of its class (R341): a section without
teams, of the same die where there is one, joins an empty pool; a core of the pool takes the record. -/
def State.poolEvents (s : State) (e : Nat × Core) : List Instr :=
  match e.2.deque.head?.bind (fun r => s.grid? r.grid) with
  | none => []
  | some d =>
    let cls := d.lpb.opclass
    let pool := (upto 8).filter (fun k => decide ((nth s.sections k {}).cls = cls))
    if cls = 3 ∨ pool.contains (e.1 / 32) then []
    else if pool.isEmpty then
      let die := e.1 / 64
      (([2 * die + 1, 2 * die] ++ upto 8).filter s.sectionEmpty).map (fun k => .sectionReassign k cls)
    else ((upto 256).filter (fun k => pool.contains (k / 32) && (s.coreAt k).deque.isEmpty)).map (fun k => .steal k)

/-- Pre-emption for work of a reserved queue (R313, R314). -/
def State.preemptEvents (s : State) : List Instr :=
  if s.contexts.any (fun c => c.queues.any Queue.reserved) then
    (upto 256).flatMap (fun core => ((s.incoming core).filterMap (s.victims core)).map (fun e => .preempt e.1 e.2))
  else []

/-- Events tried where nothing can issue: changes of place, the stop of a faulting path, the end of a ramp, of a copy, of a
retraining, of a budget's period, steals. -/
def State.lateEvents (s : State) : List Instr :=
  s.groups.flatMap s.slotEvents ++
    s.groups.flatMap (fun g => [.pathStopTimeout g.id 0, .pathStopTimeout g.id 1]) ++
    (upto 8).map (fun k => .sectionRampEnd k) ++ ((upto s.cores.length).zip s.cores).flatMap s.poolEvents ++ s.channelCopies.map (fun e => .channelCopyEnd e.1 e.2) ++
    (upto 6).map (fun k => .linkRetrainEnd k) ++
    (if s.contexts.any (fun c => !c.spent.isEmpty) then [.budgetPeriod] else []) ++ s.preemptEvents ++
    (if s.cores.all (fun k => k.deque.isEmpty) && s.contexts.any (fun c => !c.overflow.isEmpty) then
      (upto 256).map (fun k => .steal k) else [])

/-- An event has changed the machine, beside the count of free values. -/
def State.changed (s t : State) : Bool := decide ({ t with freeCount := s.freeCount } ≠ s)

/-- The first event that changes the machine. -/
def State.firstEvent (s : State) : List Instr → Option Result
  | [] => none
  | i :: l =>
    match exec i s with
    | .next t => if s.changed t then some (.next t) else s.firstEvent l
    | .fault f => some (.fault f)
    | .refused r => some (.refused r)

/-- The machine's own choice: the current path within its clause; between clauses an event of what is under way, then the
issue slots in turn; without a path to issue, any other event, or the passing of time. (DESIGN CHOICE, log 1.) -/
def State.choose (s : State) : Result :=
  match s.currentReady with
  | some (g, k) => s.runPath g k
  | none =>
    match s.firstEvent s.progressEvents with
    | some r => r
    | none =>
      match s.firstSlot s.slotRound with
      | some n => s.slotTurn n
      | none => (s.firstEvent s.lateEvents).getD (.next s.tick)

/-- The turn at the head of the agenda, or the machine's own choice (DESIGN CHOICE, log 2); before it, what the watchdog sees of each
group's eligibility (R114). -/
def State.next (s : State) : Result :=
  let s := s.sated
  match s.agenda with
  | [] => s.choose
  | .event i :: l => exec i { s with agenda := l }
  | .slot n :: l => State.slotTurn { s with agenda := l } n

/-! ### A word placed where the next step fetches -/

/-- Page table of the placed context: one table of each level, and a leaf with R, X and AC that maps virtual page 0 to
physical page 0x10000. -/
def placedTables : List (Nat × Byte) :=
  withAddresses 0x2000 (leBytes 8 0x4001) ++ withAddresses 0x4000 (leBytes 8 0x6001) ++
    withAddresses 0x6000 (leBytes 8 0x8001) ++ withAddresses 0x8000 (leBytes 8 0x10037)

/-- A block of one team of one group that starts at offset 0 of slot 2. -/
def placedLpb : Lpb := { entrySlot := 2 }

/-- The code capability: 64 KiB of page 0. -/
def placedCode : QWord := mkCap 1 65536 (permR ||| permX) 0

/-- A state whose next step fetches a word: a context, a grid, a team and a group whose path stands at the word; a header
stands between clauses, any other word in a clause with SETA f0 and SETB f1 as its last word. -/
def State.placeWord (s : State) (w : Word) : State :=
  let c : Context := { id := 0, ctxid := 0, root := 0x2000, feature := 0x01007F01, slots := [(2, placedCode, true)],
                       queues := [{ id := 0 }] }
  let d : Grid := { id := 1, ctx := 0, lpb := placedLpb, codeCap := placedCode, start := 0, launcher := .hostQueue 0 0 0 }
  let t : Team := { id := 2, grid := 1, index := 0, gx := 0, gy := 0, gz := 0, core := 0, scratchSize := 0, cow := 0,
                    nbar := 0, bars := List.replicate 32 {}, accrows := 0, loftMode := 0, tags := 0 }
  let p : Path :=
    { newPath 0 (BitVec.allOnes 64) with
      clause := if isHeaderWord w then none else some { seta := some 0, setb := some 1, left := 1 } }
  let g : Group := { id := 3, grid := 1, team := 2, index := 0, core := 0, pos := 0, v := List.replicate 64 none,
                     p := List.replicate 8 0, bank0 := newBank placedLpb 0, bank1 := newBank placedLpb 1,
                     slot0 := some p, slot1 := none, bars := List.replicate 36 none }
  { s with
    mem := memWriteList s.mem (placedTables ++ withAddresses 0x10000 (leBytes 4 w.toNat))
    contexts := [c], grids := [d], teams := [t], groups := [g], cur := some (3, 0), agenda := [],
    fresh := max s.fresh 4 }

end Sys2Proof.Machine
end

