-- ==== Sys2Proof/Machine/Step.lean ====
section
/-! DEFINITION. The step of the machine, and a word placed where it fetches. -/
namespace Sys2Proof.Machine

/-- One step: the head of the agenda, or what the machine chooses itself. -/
def step (s : State) : Host.Outcome State Fault Refusal := s.next

/-- The state with an instruction word stored where `step` fetches its next one, and what the fetch needs: a context, a
grid, a team and a group whose path stands at the word (a program reaches the device through a host queue, from outside).
A header stands between clauses, any other word as the last word of a clause. (DEDUCED, log 5.) -/
def State.withFetchWord (s : State) (_nbits w : Nat) : State := s.placeWord (BitVec.ofNat 32 w)

end Sys2Proof.Machine
end

