-- ==== Sys2Proof/Safety.lean ====
section
/-! DEFINITION. The terms that statements use: what every step keeps, where a word of a clause issues, and what an
instruction leaves of its group, of the other groups and of the machine. -/
namespace Sys2Proof.Machine

/-! ### What every step keeps -/

/-- Memory, the teams' scratchpads and the sheaves' lines stand in their canonical form. -/
def State.Canonical (s : State) : Prop :=
  Memory.wf s.mem = true ∧ (∀ t ∈ s.teams, Memory.wf t.scratch = true) ∧ (∀ k ∈ s.sheaves, Memory.wf k.scratch = true)

/-! ### A word that issues -/

/-- The word of an instruction issues on the current path of a state: the path stands in a clause, the word is legal in form
and position (R41), no fault of its half stops it (R304), nothing holds it (R19, R22, R189, R303), and it reads no poisoned
register (R346). -/
structure Issuing (i : Instr) (s : State) (c : Issue) (cl : ClauseState) : Prop where
  path : s.issue? = some c
  clause : c.p.clause = some cl
  formed : i.wf = true
  position : misplaced i cl = false
  runs : c.mustStop i = false
  free : c.holds i cl = false
  clean : c.meetsPoison i = false

/-- A group without its other path, what that path owns of the instructions in flight, and its spill stacks: what the JOIN test
of that other path may change (R121) is left out. -/
def Group.own (g : Group) (k : Nat) : Group :=
  (Group.setSlot { g with bank0 := { g.bank0 with spill := [] }, bank1 := { g.bank1 with spill := [] } } (1 - k) none).disown
    (1 - k)

/-- A group without the list of the groups that its YIELD waits for (R113). -/
def Group.plain (g : Group) : Group := { g with owed := [] }

/-- A group that has issued one more word, at place n among the words of the device (R112, R114). -/
def Group.counted (g : Group) (n : Nat) : Group := { g with issued := g.issued + 1, lastIssue := n }

/-- A word of slot k of a group has issued: from `s` the machine is now `t`. The group is G, its count of words risen; every
other group is as it was, but for the lists of R113; of the rest of the machine, the count of words alone has risen. -/
structure Moves (s : State) (k : Nat) (G : Group) (t : State) : Prop where
  rest : t = { s with groups := t.groups, issues := s.issues + 1 }
  here : ∃ h, t.group? G.id = some h ∧ h.own k = (G.counted s.issues).own k
  others : ∀ n, n ≠ G.id → (t.group? n).map Group.plain = (s.group? n).map Group.plain

/-- Names that an instruction's last reads release (R27, R108): those it writes apart, and none while the group has another
path or a spilled set. -/
def Issue.lastReads (c : Issue) (i : Instr) (ds : List Dst) (n : Nat) : Bool :=
  c.g.honoursLast c.k && ((i.reads c.p.mode).flatMap lastNames).contains n && !(vRegs ds).contains n

/-- The instruction names an unmapped v register as a source (R108). -/
def Issue.readsUnmapped (c : Issue) (i : Instr) : Bool :=
  (i.reads c.p.mode).any (fun e => (vNames e).any (fun n => !c.g.mapped n))

/-- A half's scalar state without what a register-only instruction may write: s registers, tags, UNMAPPED and FPSTAT. -/
def Bank.others (b : Bank) : Bank := { b with s := [], stag := [], unmapped := false, fpstat := 0 }

/-- An instruction in flight without the lanes that are still its own to write (R22). -/
def Pend.unclaimed (p : Pend) : Pend := { p with vdst := p.vdst.map (fun (e : Nat × DWord) => (e.1, 0)) }

/-- What is left of a group when its v and p registers, the count of physical registers, the two halves' scalar state and the
instructions in flight are left out: its place, its paths, its barriers' records, its sheaves and all else. -/
def Group.frame (g : Group) (b : Bank) : Group :=
  { g with v := [], p := [], pend := [], poisonV := [], nextReg := 0, bank0 := b, bank1 := b }

/-- G is the group of an issue after a register-only instruction that writes the registers `ds` with `val` in the lanes of m,
leaves the predicate bits `pv`, and merges `fl` into FPSTAT: every other register, and all else of the group, is as it was, but for released names, cleared
tags, STATUS.UNMAPPED and the path's place in its clause. -/
structure Wrote (c : Issue) (i : Instr) (ds : List Dst) (m : DWord) (val : Dst → Nat → Word) (fl : BitVec 6)
    (pv : Fin 8 → Nat → Bool) (G : Group) : Prop where
  vreg : ∀ (n : Fin 64) (l : Nat), l < 64 → G.vLane n.val l =
    if Dst.v n ∈ ds then (if m.getLsbD l then val (.v n) l else c.g.vLane n.val l)
    else if c.lastReads i ds n.val = true then 0 else c.g.vLane n.val l
  mapped : ∀ n : Fin 64, G.mapped n.val = true ↔ (Dst.v n ∈ ds ∨ (c.g.mapped n.val = true ∧ c.lastReads i ds n.val = false))
  sreg : ∀ n : Fin 64, (G.bank c.half).sreg n.val =
    if Dst.s n ∈ ds then val (.s n) (lowestLane m) else c.bank.sreg n.val
  tags : ∀ q : Fin 16, (G.bank c.half).quadTag q.val = true ↔
    (c.bank.quadTag q.val = true ∧ ∀ n : Fin 64, Dst.s n ∈ ds → n.val / 4 ≠ q.val)
  pbits : ∀ (n : Fin 8) (l : Nat), l < 64 → G.pbit n.val l = pv n l
  unmapped : (G.bank c.half).unmapped = (c.bank.unmapped || c.readsUnmapped i)
  fpstat : (G.bank c.half).fpstat = c.bank.fpstat ||| fl
  half : (G.bank c.half).others = c.bank.others
  otherHalf : G.bank (1 - c.half) = c.g.bank (1 - c.half)
  flying : G.pend.map Pend.unclaimed = c.g.pend.map Pend.unclaimed
  frame : ∀ b, G.frame b = (c.g.setSlot c.k (some c.p.advance)).frame b

/-- The predicate bits of the issuing group, as they are. -/
def Issue.pbits (c : Issue) (n : Fin 8) (l : Nat) : Bool := c.g.pbit n.val l

/-- The predicate bits of the issuing group with register p written with `val` in the lanes of m. -/
def Issue.pbitsWith (c : Issue) (p : Fin 8) (m : DWord) (val : Nat → Bool) (n : Fin 8) (l : Nat) : Bool :=
  if n = p ∧ m.getLsbD l then val l else c.g.pbit n.val l

/-- The lanes that compute: the lowest of the mask under U = 1, otherwise all of it (R29). -/
def computing (u : Bool) (m : DWord) : List Nat := if u then (lanesIn m).take 1 else lanesIn m

/-- The lane whose result a lane of the mask receives (R29). -/
def source (u : Bool) (m : DWord) (l : Nat) : Nat := if u then lowestLane m else l

/-- Flags of several results together (R48). -/
def orFlags (l : List (BitVec 6)) : BitVec 6 := l.foldl (fun a b => a ||| b) 0

/-- A register-only word issues and completes: what it writes, and that it does nothing else. -/
def Issue.Gives (c : Issue) (i : Instr) (s : State) (ds : List Dst) (m : DWord) (val : Dst → Nat → Word) (fl : BitVec 6)
    (pv : Fin 8 → Nat → Bool) : Prop :=
  ∃ t G, exec i s = .next t ∧ Moves s c.k G t ∧ Wrote c i ds m val fl pv G

/-- A word with one destination register completes with result `f` of each lane that computes, over the effective mask; with
an empty mask it writes nothing (R29, R34, R48). -/
def Issue.Results (c : Issue) (i : Instr) (s : State) (u : Bool) (d : Dst) (f : Nat → Word × BitVec 6) : Prop :=
  c.Gives i s (if c.emask = 0 then [] else [d]) c.emask (fun _ l => (f (source u c.emask l)).1)
    (orFlags ((computing u c.emask).map (fun l => (f l).2))) c.pbits

/-- A word with a predicate destination completes with result `f` of each lane that computes (R29, R34, R66). -/
def Issue.Sets (c : Issue) (i : Instr) (s : State) (u : Bool) (p : Fin 8) (f : Nat → Bool × BitVec 6) : Prop :=
  c.Gives i s [] c.emask (fun _ _ => 0) (orFlags ((computing u c.emask).map (fun l => (f l).2)))
    (c.pbitsWith p c.emask (fun l => (f (source u c.emask l)).1))

/-- Delivery in the mode's type (R28). -/
def Issue.typed (c : Issue) : Delivery := .typed (modeType c.p.mode)

/-- Delivery in the effective integer type (R28, R33). -/
def Issue.intTyped (c : Issue) : Delivery := .typed (intTypeOf (modeType c.p.mode))

/-- val of R60: element e of a source in a lane, in the effective integer type of signedness sg and element width w. -/
def Issue.val (c : Issue) (sg : Bool) (w : Nat) (a : Src) (l e : Nat) : Int := elemVal sg w (c.src c.intTyped a l) e

/-- The bits of element e of a source in a lane, for elements of width w in a delivery. -/
def Issue.elem (c : Issue) (dl : Delivery) (w : Nat) (a : Src) (l e : Nat) : Nat := elemNat (c.src dl a l) w e

/-- A register-only word issues and completes; its path is P afterwards, and the half's scalar state is changed by `f` beside
the registers it writes. -/
def Issue.Leaves (c : Issue) (i : Instr) (s : State) (ds : List Dst) (val : Dst → Nat → Word) (P : Path) (f : Bank → Bank) :
    Prop :=
  ∃ t G, exec i s = .next t ∧ Moves s c.k ((G.setBank c.half (f (G.bank c.half))).setSlot c.k (some P)) t ∧
    Wrote c i ds c.p.mask val 0 c.pbits G

/-- The path at a header, between clauses (R18, R21). -/
def Path.toHeader (p : Path) (pc : Word) : Path := { p with pc := pc, clause := none }

/-- No path of the group is parked at JOIN. -/
def Group.noJoin (g : Group) : Bool := (g.slot0.toList ++ g.slot1.toList).all (fun p => p.atJoin.isNone)

/-- No path of the group is parked at JOIN or at EXIT. -/
def Group.atRest (g : Group) : Bool :=
  (g.slot0.toList ++ g.slot1.toList).all (fun p => p.atJoin.isNone && decide (p.park ≠ .exit))

/-- A word of a group has issued: the group is exactly G, its count of words risen; every other group is as it was, but for
the lists of R113; of the rest of the machine, the count of words alone has risen. -/
structure Becomes (s : State) (G : Group) (t : State) : Prop where
  rest : t = { s with groups := t.groups, issues := s.issues + 1 }
  here : t.group? G.id = some (G.counted s.issues)
  others : ∀ n, n ≠ G.id → (t.group? n).map Group.plain = (s.group? n).map Group.plain

/-- The v registers that an instruction writes when it returns: their names take a new mapping at issue, which holds the old
values until then (R22, R107). -/
def renamed (i : Instr) : List Dst :=
  i.returns.filter (fun d => match d with
    | .v _ => true
    | .s _ => false)

/-- The value that a destination holds at issue. -/
def Issue.held (c : Issue) (d : Dst) (l : Nat) : Word :=
  match d with
  | .v n => c.g.vLane n.val l
  | .s n => c.bank.sreg n.val

/-- A word takes its place among the instructions in flight as `q`: its flag rises (R19), its path goes on, or is parked, and
no register changes but by the names it takes and releases. `s'` is the machine, but for the groups. -/
def Issue.Flies (c : Issue) (i : Instr) (s : State) (q : Pend) (s' : State) (park : Park) : Prop :=
  ∃ t G, exec i s = .next t ∧
    Moves s' c.k (({ G with pend := G.pend ++ [q] } : Group).setSlot c.k
      (some { (c.p.rise q.flag).advance with park := park })) t ∧
    Wrote c i (renamed i) q.lmask c.held 0 c.pbits G

/-- The instruction that a word leaves in flight, over a mask: what it captures at issue (R19, R303, R307, R309). -/
def Issue.flown (c : Issue) (i : Instr) (m : DWord) : Pend := (c.fly i m (captureCap i)).2

/-- The machine after an instruction has taken its number. -/
def State.numbered (s : State) : State := { s with fresh := s.fresh + 1 }

/-- A group is written back, and nothing else is changed. -/
structure Puts (s : State) (G : Group) (t : State) : Prop where
  rest : t = { s with groups := t.groups }
  here : t.group? G.id = some G
  others : ∀ n, n ≠ G.id → t.group? n = s.group? n

end Sys2Proof.Machine
end

