-- ==== Sys2Proof/Certificates/Slice0/Obligations.lean ====
section
/-! DEFINITION. The statements for the provers. -/
open Sys2Proof Sys2Proof.Machine

/-! ### Integer instructions -/

/-- R61, R68, Tables 4.1 and 4.3: per-element integer arithmetic. UNMAPPED and last reads under an empty effective mask are the
model's choice: log 59. -/
def Obligations.IntegerArithmeticByElement : Prop :=
  ∀ (s : State) (c : Issue) (cl : ClauseState) (u : Bool) (d : Dst) (a b : Src) (imm : Half) (sg : Bool) (w : Nat),
    intType (modeType c.p.mode) = some (sg, w) →
    let sat := modeSat c.p.mode
    let x := c.val sg w a
    let y := c.val sg w b
    let z := c.val sg w d.asSrc
    let elems := fun (f : Nat → Nat → Nat × FFlags) (l : Nat) => perElem w (f l)
    (Issuing (.iadd u d a b) s c cl →
      c.Results (.iadd u d a b) s u d (elems (fun l e => narrow sg w sat (x l e + y l e)))) ∧
    (Issuing (.isub u d a b) s c cl →
      c.Results (.isub u d a b) s u d (elems (fun l e => narrow sg w sat (x l e - y l e)))) ∧
    (Issuing (.imul u d a b) s c cl →
      c.Results (.imul u d a b) s u d (elems (fun l e => narrow sg w sat (x l e * y l e)))) ∧
    (Issuing (.imulh u d a b) s c cl →
      c.Results (.imulh u d a b) s u d (elems (fun l e => (ofInt w (x l e * y l e / ((2 ^ w : Nat) : Int)), 0)))) ∧
    (Issuing (.imad u d a b) s c cl →
      c.Results (.imad u d a b) s u d (elems (fun l e => narrow sg w sat (z l e + x l e * y l e)))) ∧
    (Issuing (.imin u d a b) s c cl →
      c.Results (.imin u d a b) s u d (elems (fun l e => (ofInt w (min (x l e) (y l e)), 0)))) ∧
    (Issuing (.imax u d a b) s c cl →
      c.Results (.imax u d a b) s u d (elems (fun l e => (ofInt w (max (x l e) (y l e)), 0)))) ∧
    (Issuing (.iabs u d a) s c cl →
      c.Results (.iabs u d a) s u d (elems (fun l e => narrow sg w sat |x l e|))) ∧
    (Issuing (.iaddi u d imm) s c cl →
      c.Results (.iaddi u d imm) s u d (elems (fun l e => narrow sg w sat (z l e + imm.toInt)))) ∧
    (Issuing (.imuli u d imm) s c cl →
      c.Results (.imuli u d imm) s u d (elems (fun l e => narrow sg w sat (z l e * imm.toInt))))

/-- R51: a result that does not fit its element takes its low bits; under SAT = 1 it clamps to the element's range and sets
SATD, and no other flag. Element e of a word put together from results is the e-th result; the types have the widths, the
signs and the ranges of Table 3.5, and element e of a word stands in its bits w·e and up. -/
def Obligations.IntegerResultFitsElement : Prop :=
  (∀ (sg : Bool) (w : Nat) (x : Int), 0 < w →
    ((((narrow sg w false x).1 : Nat) : Int) % ((2 ^ w : Nat) : Int) = x % ((2 ^ w : Nat) : Int) ∧
      (narrow sg w false x).1 < 2 ^ w ∧ (narrow sg w false x).2 = 0) ∧
    (intMin sg w ≤ x → x ≤ intMax sg w → narrow sg w true x = narrow sg w false x) ∧
    (x < intMin sg w → narrow sg w true x = (ofInt w (intMin sg w), flSATD)) ∧
    (intMax sg w < x → narrow sg w true x = (ofInt w (intMax sg w), flSATD))) ∧
  (∀ (w : Nat) (f : Nat → Nat × FFlags) (e : Nat), w = 32 ∨ w = 16 ∨ w = 8 → e < 32 / w →
    elemNat (perElem w f).1 w e = (f e).1 % 2 ^ w) ∧
  (∀ (x : Word) (w e : Nat), elemNat x w e = x.toNat / 2 ^ (w * e) % 2 ^ w) ∧
  (∀ (x : Word) (sg : Bool) (w e : Nat), elemVal sg w x e =
    if sg = true ∧ 2 ^ (w - 1) ≤ elemNat x w e then (elemNat x w e : Int) - ((2 ^ w : Nat) : Int) else (elemNat x w e : Int)) ∧
  ([ElemType.i32, .n32, .i16x2, .n16x2, .i8x4, .n8x4].map intType = [some (true, 32), some (false, 32), some (true, 16),
    some (false, 16), some (true, 8), some (false, 8)]) ∧
  ([32, 16, 8].map (fun w => (intMin true w, intMax true w)) =
    [((-2147483648 : Int), (2147483647 : Int)), (-32768, 32767), (-128, 127)]) ∧
  ([32, 16, 8].map (fun w => (intMin false w, intMax false w)) = [((0 : Int), (4294967295 : Int)), (0, 65535), (0, 255)])

/-- R62, R68 and Table 4.3: whole-word logic and the immediate moves. UNMAPPED and last reads under an empty effective mask are
the model's choice: log 59. -/
def Obligations.LogicActsOnWholeWords : Prop :=
  ∀ (s : State) (c : Issue) (cl : ClauseState) (u : Bool) (d : Dst) (a b : Src) (imm : Half) (t : Bool × Nat),
    intType (modeType c.p.mode) = some t →
    let x := c.src c.intTyped a
    let y := c.src c.intTyped b
    let z := c.src c.intTyped d.asSrc
    let plain := fun (f : Nat → Word) (l : Nat) => (f l, (0 : FFlags))
    (Issuing (.and u d a b) s c cl → c.Results (.and u d a b) s u d (plain (fun l => x l &&& y l))) ∧
    (Issuing (.or u d a b) s c cl → c.Results (.or u d a b) s u d (plain (fun l => x l ||| y l))) ∧
    (Issuing (.xor u d a b) s c cl → c.Results (.xor u d a b) s u d (plain (fun l => x l ^^^ y l))) ∧
    (Issuing (.andn u d a b) s c cl → c.Results (.andn u d a b) s u d (plain (fun l => x l &&& ~~~(y l)))) ∧
    (Issuing (.movi u d imm) s c cl → c.Results (.movi u d imm) s u d (plain (fun _ => imm.signExtend 32))) ∧
    (Issuing (.movhi u d imm) s c cl →
      c.Results (.movhi u d imm) s u d (plain (fun l => BitVec.ofNat 32 (imm.toNat * 65536 + (z l).toNat % 65536)))) ∧
    (Issuing (.andi u d imm) s c cl → c.Results (.andi u d imm) s u d (plain (fun l => z l &&& imm.zeroExtend 32))) ∧
    (Issuing (.ori u d imm) s c cl → c.Results (.ori u d imm) s u d (plain (fun l => z l ||| imm.zeroExtend 32))) ∧
    (Issuing (.xori u d imm) s c cl → c.Results (.xori u d imm) s u d (plain (fun l => z l ^^^ imm.zeroExtend 32)))

/-- R63, R64, R65: shifts, bit fields and bit counts. UNMAPPED and last reads under an empty effective mask are the model's
choice: log 59. -/
def Obligations.ShiftsAndBitFields : Prop :=
  ∀ (s : State) (c : Issue) (cl : ClauseState) (u : Bool) (d : Dst) (a b : Src) (sg : Bool) (w : Nat),
    intType (modeType c.p.mode) = some (sg, w) →
    let x := c.elem c.intTyped w a
    let n := c.elem c.intTyped w b
    let elems := fun (f : Nat → Nat → Nat) (l : Nat) => ((perElem w (fun e => (f l e, 0))).1, (0 : FFlags))
    let word := c.src c.intTyped a
    let ctl := c.src .control b
    let pos := fun (l : Nat) => (ctl l).toNat % 32
    let len := fun (l : Nat) => bits (ctl l).toNat 12 8
    (Issuing (.shl u d a b) s c cl →
      c.Results (.shl u d a b) s u d (elems (fun l e => if w ≤ n l e then 0 else x l e * 2 ^ n l e % 2 ^ w))) ∧
    (Issuing (.shr u d a b) s c cl →
      c.Results (.shr u d a b) s u d (elems (fun l e => if w ≤ n l e then 0 else x l e / 2 ^ n l e))) ∧
    (Issuing (.sar u d a b) s c cl →
      c.Results (.sar u d a b) s u d (elems (fun l e =>
        ofInt w (toSigned w (x l e) / ((2 ^ min (n l e) w : Nat) : Int))))) ∧
    (Issuing (.rol u d a b) s c cl →
      c.Results (.rol u d a b) s u d (elems (fun l e =>
        (x l e * 2 ^ (n l e % w) + x l e / 2 ^ (w - n l e % w)) % 2 ^ w))) ∧
    (Issuing (.bfe u d a b) s c cl →
      c.Results (.bfe u d a b) s u d (fun l =>
        let wide : Int := if sg then (word l).toInt else ((word l).toNat : Int)
        let f := ofInt (len l) (wide / ((2 ^ pos l : Nat) : Int))
        (if len l = 0 then 0 else BitVec.ofInt 32 (if sg then toSigned (len l) f else (f : Int)), 0))) ∧
    (Issuing (.bfi u d a b) s c cl →
      c.Results (.bfi u d a b) s u d (fun l =>
        let m : Word := BitVec.ofNat 32 ((2 ^ len l - 1) * 2 ^ pos l)
        ((c.src c.intTyped d.asSrc l &&& ~~~m) ||| (BitVec.ofNat 32 ((word l).toNat * 2 ^ pos l) &&& m), 0))) ∧
    (Issuing (.popc u d a) s c cl →
      c.Results (.popc u d a) s u d (elems (fun l e => ((upto w).filter (fun i => (x l e).testBit i)).length))) ∧
    (Issuing (.clz u d a) s c cl →
      c.Results (.clz u d a) s u d (elems (fun l e => if x l e = 0 then w else w - 1 - Nat.log2 (x l e)))) ∧
    (Issuing (.brev u d a) s c cl → c.Results (.brev u d a) s u d (elems (fun l e => reverseBits w (x l e))))

/-- R66, R35, R67: integer compare, select and move. The model's choices in it: that SEL 8 to 15 act as their low three bits, log
28; UNMAPPED and last reads under an empty effective mask, log 59. -/
def Obligations.CompareSelectMove : Prop :=
  ∀ (s : State) (c : Issue) (cl : ClauseState) (u : Bool) (d : Dst) (p : Fin 8) (cd : Cond) (a b : Src),
    (∀ (sg : Bool) (w : Nat), intType (modeType c.p.mode) = some (sg, w) → Issuing (.icmp u cd p a b) s c cl →
      c.Sets (.icmp u cd p a b) s u p (fun l =>
        ((upto (32 / w)).all (fun e => icond cd (c.val sg w a l e) (c.val sg w b l e)), 0))) ∧
    (Issuing (.sel u d a b) s c cl →
      c.Results (.sel u d a b) s u d (fun l =>
        (if c.pbits ⟨modeSel c.p.mode % 8, Nat.mod_lt _ (by decide)⟩ l then c.src c.typed a l else c.src c.typed b l, 0))) ∧
    (Issuing (.mov u d a) s c cl → c.Results (.mov u d a) s u d (fun l => (c.src c.typed a l, 0)))

/-- R60, R33, R82: an integer instruction under a type that has no integer elements, and a float instruction under a type
that is no float type, raise ILLTYPE and have no other effect. -/
def Obligations.WrongTypeRaisesIlltype : Prop :=
  ∀ (i : Instr) (s : State) (c : Issue) (cl : ClauseState), Issuing i s c cl →
    ((intType (modeType c.p.mode) = none → (match i with
        | .iadd _ _ _ _ | .isub _ _ _ _ | .imul _ _ _ _ | .imulh _ _ _ _ | .imad _ _ _ _ | .imin _ _ _ _
        | .imax _ _ _ _ | .iabs _ _ _ | .and _ _ _ _ | .or _ _ _ _ | .xor _ _ _ _ | .andn _ _ _ _ | .shl _ _ _ _
        | .shr _ _ _ _ | .sar _ _ _ _ | .rol _ _ _ _ | .bfe _ _ _ _ | .bfi _ _ _ _ | .popc _ _ _ | .clz _ _ _
        | .brev _ _ _ | .icmp _ _ _ _ _ | .iaddi _ _ _ | .movi _ _ _ | .movhi _ _ _ | .andi _ _ _ | .ori _ _ _
        | .xori _ _ _ | .imuli _ _ _ => True
        | _ => False) → exec i s = .next (c.raise trIlltype)) ∧
    (floatType (modeType c.p.mode) = none → (match i with
        | .fadd _ _ _ _ | .fsub _ _ _ _ | .fmul _ _ _ _ | .ffma _ _ _ _ | .fmin _ _ _ _ | .fmax _ _ _ _ | .fabs _ _ _
        | .fneg _ _ _ | .fcmp _ _ _ _ _ | .frcp _ _ _ | .frsq _ _ _ | .fsqrt _ _ _ | .fexp2 _ _ _ | .flog2 _ _ _
        | .fsin _ _ _ | .fcos _ _ _ | .frnd _ _ _ | .ffrac _ _ _ | .fdot2 _ _ _ _ | .fclass _ _ _ | .fmulb _ _ _ => True
        | _ => False) → exec i s = .next (c.raise trIlltype)))

/-! ### Float instructions -/

/-- R83, R84, R85, R91: float arithmetic, one element at a time, with the exact values of the operands rounded once.
UNMAPPED and last reads under an empty effective mask are the model's choice: log 59. -/
def Obligations.FloatArithmetic : Prop :=
  ∀ (s : State) (c : Issue) (cl : ClauseState) (u : Bool) (d : Dst) (a b : Src) (imm : Half) (f : FFmt),
    floatType (modeType c.p.mode) = some f →
    let r := modeRnd c.p.mode
    let sat := modeSat c.p.mode
    let xb := c.elem c.typed f.width a
    let yb := c.elem c.typed f.width b
    let x := fun (l e : Nat) => f.value (xb l e)
    let y := fun (l e : Nat) => f.value (yb l e)
    let z := fun (l e : Nat) => f.value (c.elem c.typed f.width d.asSrc l e)
    let elems := fun (g : Nat → Nat → Nat × FFlags) (l : Nat) => perElem f.width (g l)
    (Issuing (.fadd u d a b) s c cl →
      c.Results (.fadd u d a b) s u d (elems (fun l e => addVal f r sat (x l e) (y l e)))) ∧
    (Issuing (.fsub u d a b) s c cl →
      c.Results (.fsub u d a b) s u d (elems (fun l e => addVal f r sat (x l e) (y l e).neg))) ∧
    (Issuing (.fmul u d a b) s c cl →
      c.Results (.fmul u d a b) s u d (elems (fun l e => mulVal f r sat (x l e) (y l e)))) ∧
    (Issuing (.ffma u d a b) s c cl →
      c.Results (.ffma u d a b) s u d (elems (fun l e => fmaVal f r sat (x l e) (y l e) (z l e)))) ∧
    (Issuing (.fmin u d a b) s c cl → c.Results (.fmin u d a b) s u d (elems (fun l e => minEnc f (xb l e) (yb l e)))) ∧
    (Issuing (.fmax u d a b) s c cl → c.Results (.fmax u d a b) s u d (elems (fun l e => maxEnc f (xb l e) (yb l e)))) ∧
    (Issuing (.fabs u d a) s c cl → c.Results (.fabs u d a) s u d (elems (fun l e => (xb l e % f.signBit, 0)))) ∧
    (Issuing (.fneg u d a) s c cl →
      c.Results (.fneg u d a) s u d (elems (fun l e => ((xb l e + f.signBit) % 2 ^ f.width, 0)))) ∧
    (Issuing (.fmulb u d imm) s c cl →
      c.Results (.fmulb u d imm) s u d (elems (fun l e => mulVal f r sat (z l e) (FFmt.bf16.value imm.toNat))))

/-- R87, R89, R90: the functions of one operand. The model's choices in it: where two precisions do not settle the rounding of
FEXP2, FLOG2, FSIN or FCOS the result is a free value, log 15; UNMAPPED and last reads under an empty effective mask, log 59. -/
def Obligations.FloatFunctions : Prop :=
  ∀ (s : State) (c : Issue) (cl : ClauseState) (u : Bool) (d : Dst) (a : Src) (f : FFmt),
    floatType (modeType c.p.mode) = some f →
    let r := modeRnd c.p.mode
    let sat := modeSat c.p.mode
    let xb := c.elem c.typed f.width a
    let x := fun (l e : Nat) => f.value (xb l e)
    let elems := fun (g : Nat → Nat → Nat × FFlags) (l : Nat) => perElem f.width (g l)
    (Issuing (.frcp u d a) s c cl → c.Results (.frcp u d a) s u d (elems (fun l e => rcpVal f r sat (x l e)))) ∧
    (Issuing (.frsq u d a) s c cl → c.Results (.frsq u d a) s u d (elems (fun l e => rsqVal f r sat (x l e)))) ∧
    (Issuing (.fsqrt u d a) s c cl → c.Results (.fsqrt u d a) s u d (elems (fun l e => sqrtVal f r sat (x l e)))) ∧
    (Issuing (.fexp2 u d a) s c cl → c.Results (.fexp2 u d a) s u d (elems (fun l e => exp2Val f r sat (xb l e)))) ∧
    (Issuing (.flog2 u d a) s c cl → c.Results (.flog2 u d a) s u d (elems (fun l e => log2Val f r sat (xb l e)))) ∧
    (Issuing (.fsin u d a) s c cl → c.Results (.fsin u d a) s u d (elems (fun l e => sinVal f r sat (xb l e)))) ∧
    (Issuing (.fcos u d a) s c cl → c.Results (.fcos u d a) s u d (elems (fun l e => cosVal f r sat (xb l e)))) ∧
    (Issuing (.frnd u d a) s c cl → c.Results (.frnd u d a) s u d (elems (fun l e => rndVal f r (x l e)))) ∧
    (Issuing (.ffrac u d a) s c cl → c.Results (.ffrac u d a) s u d (elems (fun l e => fracVal f r sat (x l e)))) ∧
    (Issuing (.fclass u d a) s c cl → c.Results (.fclass u d a) s u d (elems (fun l e => (classOf f (xb l e), 0))))

/-- R86, R92: float compare, and the dot product of two elements. UNMAPPED and last reads under an empty effective mask are the
model's choice: log 59. -/
def Obligations.FloatCompareAndDot : Prop :=
  ∀ (s : State) (c : Issue) (cl : ClauseState) (u : Bool) (d : Dst) (p : Fin 8) (cd : Cond) (a b : Src) (f : FFmt),
    floatType (modeType c.p.mode) = some f →
    (Issuing (.fcmp u cd p a b) s c cl →
      c.Sets (.fcmp u cd p a b) s u p (fun l =>
        let x := fun (e : Nat) => f.value (c.elem c.typed f.width a l e)
        let y := fun (e : Nat) => f.value (c.elem c.typed f.width b l e)
        ((upto (32 / f.width)).all (fun e => fcond cd (x e) (y e)),
          if (upto (32 / f.width)).any (fun e => (x e).sig || (y e).sig) then flNV else 0))) ∧
    (Issuing (.fdot2 u d a b) s c cl →
      if f = .fp32 then exec (.fdot2 u d a b) s = .next (c.raise trIlltype)
      else c.Results (.fdot2 u d a b) s u d (fun l =>
        fdot2Word f (modeRnd c.p.mode) (modeSat c.p.mode) (c.src c.typed a l) (c.src c.typed b l) (c.src c.typed d.asSrc l)))

/-- R93, R94, R95: conversions between element types; a position or a type that a conversion does not have raises ILLTYPE.
UNMAPPED and last reads under an empty effective mask are the model's choice: log 59. -/
def Obligations.ConversionsByElement : Prop :=
  ∀ (s : State) (c : Issue) (cl : ClauseState) (u : Bool) (d : Dst) (a b : Src) (pos : Fin 8) (dst : ElemType) (i4 hi : Bool),
    let t := modeType c.p.mode
    let r := modeRnd c.p.mode
    let sat := modeSat c.p.mode
    let x := c.src c.typed a
    let conv := fun (t1 t2 : ElemType) (e : Nat) => convElem (elemKind t1) (elemKind t2) r sat e
    (Issuing (.cvt u d a pos dst) s c cl →
      let es := t.elems
      let ed := dst.elems
      let k := (elemKind t).bits
      let n := (elemKind dst).bits
      if max es ed / min es ed ≤ pos.val then exec (.cvt u d a pos dst) s = .next (c.raise trIlltype)
      else c.Results (.cvt u d a pos dst) s u d (fun l => perElem n (fun e =>
        if es < ed then
          (if pos.val * es ≤ e ∧ e < pos.val * es + es then conv t dst (elemNat (x l) k (e - pos.val * es))
            else (elemNat (c.src c.typed d.asSrc l) n e, 0))
        else if e < ed then conv t dst (elemNat (x l) k (pos.val * ed + e)) else (0, 0)))) ∧
    (Issuing (.pack u d a b) s c cl →
      match wideType t with
      | none => exec (.pack u d a b) s = .next (c.raise trIlltype)
      | some wt => c.Results (.pack u d a b) s u d (fun l => perElem (elemKind t).bits (fun e =>
          conv wt t (elemNat (if e < wt.elems then x l else c.src c.typed b l) (elemKind wt).bits (e % wt.elems))))) ∧
    (Issuing (.unpk u d a i4 hi) s c cl →
      let h := if hi then 1 else 0
      if i4 then
        if t = .i8x4 ∨ t = .n8x4 then c.Results (.unpk u d a i4 hi) s u d (fun l => ((perElem 8 (fun e =>
          let nib := elemNat (x l) 4 (4 * h + e)
          (if t = .i8x4 then ofInt 8 (toSigned 4 nib) else nib, 0))).1, 0))
        else exec (.unpk u d a i4 hi) s = .next (c.raise trIlltype)
      else match wideType t with
        | none => exec (.unpk u d a i4 hi) s = .next (c.raise trIlltype)
        | some wt => c.Results (.unpk u d a i4 hi) s u d (fun l =>
            if t = .bf16x2 then (BitVec.ofNat 32 (elemNat (x l) 16 h * 65536), 0)
            else perElem (elemKind wt).bits (fun e =>
              convElem (elemKind t) (elemKind wt) 0 false (elemNat (x l) (elemKind t).bits (wt.elems * h + e)))))

/-! ### Lane instructions -/

/-- R124: the shuffles read a from another lane of the effective mask, or from their own. UNMAPPED and last reads under an
empty effective mask are the model's choice: log 59. -/
def Obligations.ShufflesReadAnotherLane : Prop :=
  ∀ (s : State) (c : Issue) (cl : ClauseState) (d : Dst) (a b : Src),
    let base := c.g.laneBase c.half
    let n := fun (l : Nat) => (c.src .control b l).toNat
    let pick := fun (l x : Nat) => ((if c.emask.getLsbD (base + x) then c.src c.typed a (base + x) else c.src c.typed a l, 0) :
      Word × FFlags)
    (Issuing (.shfl d a b) s c cl → c.Results (.shfl d a b) s false d (fun l => pick l (n l % c.g.width))) ∧
    (Issuing (.shflx d a b) s c cl →
      c.Results (.shflx d a b) s false d (fun l => pick l ((l - base) ^^^ (n l % c.g.width)))) ∧
    (Issuing (.shflup d a b) s c cl → c.Results (.shflup d a b) s false d (fun l =>
      if n l ≤ l - base then pick l (l - base - n l) else (c.src c.typed a l, 0)))

/-- R125, R127: votes and elections over the effective mask; a ballot has no predicate form. UNMAPPED and last
reads under an empty effective mask are the model's choice: log 59. -/
def Obligations.VotesAndElections : Prop :=
  ∀ (s : State) (c : Issue) (cl : ClauseState) (d : Dst) (p : Fin 8) (n : Fin 64) (a : Src) (k : VoteKind),
    let t := fun (l : Nat) => decide (c.src c.typed a l ≠ 0)
    let r : Bool := match k with
      | .any => (lanesIn c.emask).any t
      | .all => (lanesIn c.emask).all t
      | .eq => (lanesIn c.emask).all (fun l => decide (c.src c.typed a l = c.src c.typed a (lowestLane c.emask)))
      | .ballot => false
    let base := c.g.laneBase c.half
    let ballot := maskOf (fun x => c.emask.getLsbD (base + x) && t (base + x))
    (k ≠ .ballot → Issuing (.vote (.pred p) a k) s c cl → c.Sets (.vote (.pred p) a k) s false p (fun _ => (r, 0))) ∧
    (k ≠ .ballot → Issuing (.vote (.reg d) a k) s c cl →
      c.Results (.vote (.reg d) a k) s false d (fun _ => (if r then 1 else 0, 0))) ∧
    (Issuing (.vote (.reg d) a .ballot) s c cl →
      c.Gives (.vote (.reg d) a .ballot) s (if c.emask = 0 then [] else d.range 2) c.emask (fun x _ =>
        if x = d.next 0 then ballot.extractLsb' 0 32 else ballot.extractLsb' 32 32) 0 c.pbits) ∧
    (Issuing (.elect (.pred p)) s c cl →
      c.Sets (.elect (.pred p)) s false p (fun l => (decide (l = lowestLane c.emask), 0))) ∧
    (Issuing (.elect (.reg (.v n))) s c cl →
      c.Results (.elect (.reg (.v n))) s false (.v n) (fun l => (if l = lowestLane c.emask then 1 else 0, 0))) ∧
    (Issuing (.elect (.reg (.s n))) s c cl →
      c.Results (.elect (.reg (.s n))) s false (.s n) (fun _ => (BitVec.ofNat 32 (c.g.laneIndex (lowestLane c.emask)), 0))) ∧
    (Instr.vote (.pred p) a .ballot).wf = false

/-- R126, R59: reductions and scans over the tree; a type that the operation does not have raises ILLTYPE. UNMAPPED and
last reads under an empty effective mask are the model's choice: log 59. -/
def Obligations.ReductionsAndScans : Prop :=
  ∀ (s : State) (c : Issue) (cl : ClauseState) (d : Dst) (a : Src) (op : RedOp) (ex : Bool),
    match redType op (modeType c.p.mode) with
    | none =>
      (Issuing (.lred d a op) s c cl → exec (.lred d a op) s = .next (c.raise trIlltype)) ∧
      (Issuing (.lscan d a ex op) s c cl → exec (.lscan d a ex op) s = .next (c.raise trIlltype))
    | some t =>
      let leaf := fun (i : Nat) => if c.emask.getLsbD (c.g.laneBase c.half + i) then
        c.src (.typed t) a (c.g.laneBase c.half + i) else redIdentity op t
      let levels := treeLevels op t (if c.g.ganged then 5 else 6) ((upto c.g.width).map (fun i => { val := leaf i, fl := 0 }))
      let node := fun (n : Nat) => let x := prefixNode op t levels n; (x.val, x.fl)
      (Issuing (.lred d a op) s c cl → c.Results (.lred d a op) s true d (fun _ => node c.g.width)) ∧
      (Issuing (.lscan d a ex op) s c cl → c.Results (.lscan d a ex op) s false d (fun l =>
        node (if ex then l - c.g.laneBase c.half else l - c.g.laneBase c.half + 1)))

/-! ### Words that change their path, and control registers -/

/-- R71, R80, R119, R192: NOP changes nothing; MODE, SETJ without a pending join and RESDRAIN change their own path alone. That a
RESDRAIN waits for the reads that stand in the live frames of other handlers, and not for those of its own, is the model's choice:
log 82. -/
def Obligations.PathWordsChangeTheirPath : Prop :=
  ∀ (s : State) (c : Issue) (cl : ClauseState) (imm : Half) (off : BitVec 24) (u : Bool) (a : Src),
    (Issuing .nop s c cl → c.Leaves .nop s [] (fun _ _ => 0) c.p.advance (fun b => b)) ∧
    (Issuing (.mode imm) s c cl → c.Leaves (.mode imm) s [] (fun _ _ => 0) { c.p.advance with mode := imm } (fun b => b)) ∧
    (c.p.pjoin = none → Issuing (.setj off) s c cl →
      c.Leaves (.setj off) s [] (fun _ _ => 0)
        { c.p.advance with pjoin := some (c.p.pc + BitVec.ofInt 32 (4 * off.toInt)) } (fun b => b)) ∧
    (Issuing (.resdrain u a) s c cl →
      c.Leaves (.resdrain u a) s [] (fun _ _ => 0)
        { c.p.advance with drain := (s.groups.filter (fun g => g.core = c.g.core)).flatMap (fun g =>
            ((g.pend ++ ([0, 1].flatMap (fun half => if g.id = c.g.id ∧ half = c.half then []
              else ((g.bank half).live.map LiveFrame.entries).getD []))).filter (fun q => isTexture q.instr)).map Pend.id) }
        (fun b => b))

/-- R192, R16, R17, R48: CSRR writes the register's value; CLOCK fills a pair. The model's choices in it: log 10. -/
def Obligations.CsrrReadsTheRegister : Prop :=
  ∀ (s : State) (c : Issue) (cl : ClauseState) (u : Bool) (d : Dst) (n : BitVec 12),
    Issuing (.csrr u d n) s c cl →
    let x := s.contextOf c.g
    let value : Word := match n.toNat with
      | 0 => BitVec.ofNat 32 ((if c.bank.unmapped then 1 else 0) + (if c.g.ganged then 2 else 0) + 4 * c.g.opclass.toNat)
      | 1 => c.bank.fpstat.zeroExtend 32
      | 2 => c.bank.trapvec
      | 3 => c.bank.trapframe.zeroExtend 32
      | 5 => BitVec.ofNat 32 ((x.map Context.ctxid).getD 0)
      | 6 => (x.map Context.energy).getD 0
      | 7 => (x.map Context.feature).getD 0
      | _ => (x.map Context.miggen).getD 0
    (n.toNat ≠ 4 → c.Gives (.csrr u d n) s [d] c.p.mask (fun _ _ => value) 0 c.pbits) ∧
    (n.toNat = 4 → ∃ t G, exec (.csrr u d n) s = .next t ∧ Moves s.tick c.k G t ∧
      Wrote c (.csrr u d n) [d, d.next 1] c.p.mask (fun e _ =>
        if e = d then s.tick.clock.extractLsb' 0 32 else s.tick.clock.extractLsb' 32 32) 0 c.pbits G)

/-- R192, R16, R255: CSRW writes the register of the half, MSCALE a scale register. -/
def Obligations.CsrwAndMscaleWriteTheHalf : Prop :=
  ∀ (s : State) (c : Issue) (cl : ClauseState) (u : Bool) (a : Src) (n : BitVec 12) (q : Fin 8),
    let w := c.src .control a (lowestLane c.p.mask)
    (Issuing (.csrw u a n) s c cl →
      c.Leaves (.csrw u a n) s [] (fun _ _ => 0) c.p.advance (fun b => match n.toNat with
        | 0 => { b with unmapped := w.getLsbD 0 }
        | 1 => { b with fpstat := w.extractLsb' 0 6 }
        | 2 => { b with trapvec := w &&& 0xFFFFFFFC }
        | _ => { b with trapframe := w.extractLsb' 0 24 })) ∧
    (Issuing (.mscale q a) s c cl →
      c.Leaves (.mscale q a) s [] (fun _ _ => 0) c.p.advance (fun b => { b with q := putNth 0 b.q q.val w }))

/-! ### Transfers -/

/-- R72, R73, R74, R75: where the transfers go, and that they change nothing else but the link register. -/
def Obligations.TransfersGoToTheirTarget : Prop :=
  ∀ (s : State) (c : Issue) (cl : ClauseState) (off : BitVec 24) (off19 : BitVec 19) (neg all : Bool) (p : Fin 8) (a : Src),
    let next := c.p.pc + 4
    let target := c.p.pc + BitVec.ofInt 32 (4 * off.toInt)
    let taken := fun (l : Nat) => c.pbits p l != neg
    let branch := if all then (lanesIn c.p.mask).all taken else (lanesIn c.p.mask).any taken
    let w := c.src .control a (lowestLane c.p.mask)
    (Issuing (.bra off) s c cl → c.Leaves (.bra off) s [] (fun _ _ => 0) (c.p.toHeader target) (fun b => b)) ∧
    (Issuing (.bc neg p all off19) s c cl →
      c.Leaves (.bc neg p all off19) s [] (fun _ _ => 0)
        (c.p.toHeader (if branch then c.p.pc + BitVec.ofInt 32 (4 * off19.toInt) else next)) (fun b => b)) ∧
    (Issuing (.call off) s c cl → c.Leaves (.call off) s [.s 63] (fun _ _ => next) (c.p.toHeader target) (fun b => b)) ∧
    ((c.bank.sreg 63).toNat % 4 = 0 → Issuing .ret s c cl →
      c.Leaves .ret s [] (fun _ _ => 0) (c.p.toHeader (c.bank.sreg 63)) (fun b => b)) ∧
    (w.toNat % 4 = 0 → Issuing (.brx a) s c cl → c.Leaves (.brx a) s [] (fun _ _ => 0) (c.p.toHeader w) (fun b => b)) ∧
    (w.toNat % 4 = 0 → Issuing (.callx a) s c cl →
      c.Leaves (.callx a) s [.s 63] (fun _ _ => next) (c.p.toHeader w) (fun b => b))

/-- R76: a target with bits 1:0 nonzero raises MISALIGN at the instruction itself, with no transfer. -/
def Obligations.MisalignedTargetRaisesMisalign : Prop :=
  ∀ (s : State) (c : Issue) (cl : ClauseState) (a : Src),
    ((c.bank.sreg 63).toNat % 4 ≠ 0 → Issuing .ret s c cl → exec .ret s = .next (c.raise (mkTrap .misalign))) ∧
    ((c.src .control a (lowestLane c.p.mask)).toNat % 4 ≠ 0 →
      (Issuing (.brx a) s c cl → exec (.brx a) s = .next (c.raise (mkTrap .misalign))) ∧
      (Issuing (.callx a) s c cl → exec (.callx a) s = .next (c.raise (mkTrap .misalign))))

/-- R304, R305, R79: a precise fault stops its path at the word, and records the cause with the word's PC; a user trap stops
it at the next word. Nothing else is changed. -/
def Obligations.PreciseFaultStopsItsPath : Prop :=
  (∀ (s : State) (c : Issue) (tr : Trap), s.issue? = some c →
    Puts { s with fresh := s.fresh + 1 }
      ((c.g.setBank c.half { c.bank with raised := c.bank.raised ++ [{ tr with pc := c.p.pc, seq := s.fresh }] }).setSlot c.k
        (some { c.p with stopped := true })) (c.raise tr)) ∧
  ∀ (s : State) (c : Issue) (cl : ClauseState) (n : Byte), Issuing (.trap n) s c cl →
    ∃ t, exec (.trap n) s = .next t ∧ Puts { s with fresh := s.fresh + 1 }
      ((c.g.setBank c.half { c.bank with
        raised := c.bank.raised ++ [{ cause := .trap n, pc := c.p.pc, seq := s.fresh, user := some (c.k, cl) }] }).setSlot c.k
        (some { c.p.advance with stopped := true })) t

/-- R18, R19, R20, R21: a header starts its clause once every flag that WAIT names is zero; until then its path waits; in the
place of an instruction it raises CLAUSE, as an instruction does in the place of a header. -/
def Obligations.HeaderStartsItsClause : Prop :=
  ∀ (s : State) (c : Issue) (wait : BitVec 12) (seta setb : Option (Fin 12)) (len : Fin 16), s.issue? = some c →
    let i : Instr := .clauseStart wait seta setb len
    (c.p.clause ≠ none → exec i s = .next (c.raise trClause)) ∧
    (c.p.clause = none → c.g.faulting c.half = false → c.g.demote ≠ some (1 - c.k) → c.g.owed = [] →
      s.draining c.p = false → s.sectionStopped c.g.core = false →
      ((∀ f : Fin 12, wait.getLsbD f.val = true → c.p.flag f.val = 0) →
        ∃ t, exec i s = .next t ∧ t = { s with groups := t.groups } ∧
          t.group? c.g.id = some (c.g.setSlot c.k
            (some { c.p with pc := c.p.pc + 4, clause := some { seta := seta, setb := setb, left := len.val + 1 } })) ∧
          ∀ n, n ≠ c.g.id → (t.group? n).map Group.plain = (s.group? n).map Group.plain) ∧
      ((∃ f : Fin 12, wait.getLsbD f.val = true ∧ c.p.flag f.val ≠ 0) → exec i s = .next s)) ∧
    ∀ j : Instr, c.p.clause = none → j.latency ≠ .header → j.latency ≠ .deviceStep → exec j s = .next (c.raise trClause)

/-! ### Divergence -/

/-- R120: BDIV sends the lanes whose predicate is taken to its target, in the other slot where that is free, else from the
spill stack; lanes that all go one way stay one path. -/
def Obligations.BdivSplitsThePath : Prop :=
  ∀ (s : State) (c : Issue) (cl : ClauseState) (neg : Bool) (p : Fin 8) (off : BitVec 19),
    let i : Instr := .bdiv neg p off
    let taken := c.p.mask &&& maskOf (fun l => c.pbits p l != neg)
    let rest := c.p.mask &&& ~~~taken
    let target := c.p.pc + BitVec.ofInt 32 (4 * off.toInt)
    let spilled : SpillEntry := .pathSet { pc := target, pjoin := c.p.pjoin, mask := taken, mode := c.p.mode,
                                           owns := (c.g.pend.filter (fun (r : Pend) => r.owner c.k)).map Pend.id, drain := c.p.drain }
    Issuing i s c cl →
    (taken = 0 → c.Leaves i s [] (fun _ _ => 0) (c.p.toHeader (c.p.pc + 4)) (fun b => b)) ∧
    (taken ≠ 0 → rest = 0 → c.Leaves i s [] (fun _ _ => 0) (c.p.toHeader target) (fun b => b)) ∧
    (taken ≠ 0 → rest ≠ 0 → c.g.otherFree c.k = true →
      ∃ t, exec i s = .next t ∧ Becomes s
        ((({ c.g with pend := c.g.pend.map (fun (r : Pend) =>
          if r.owner c.k then { r with owner0 := true, owner1 := true } else r) }).setSlot (1 - c.k)
            (some { c.p with pc := target, mask := taken, clause := none })).setSlot c.k
          (some { c.p with pc := c.p.pc + 4, mask := rest, clause := none })) t) ∧
    (taken ≠ 0 → rest ≠ 0 → c.g.otherFree c.k = false → 0 < c.g.spillRoom c.half → c.g.noJoin = true →
      ∃ t, exec i s = .next t ∧ Becomes s
        ((c.g.setBank c.half { c.bank with spill := spilled :: c.bank.spill }).setSlot c.k
          (some { c.p with pc := c.p.pc + 4, mask := rest, clause := none })) t) ∧
    (taken ≠ 0 → rest ≠ 0 → c.g.otherFree c.k = false → c.g.spillRoom c.half = 0 →
      exec i s = .next (c.raise (mkTrap .spill)))

/-- R119: SETJ saves a pending join on the spill stack; the other path of a native group is demoted below it first, waits for
that until it may be demoted, and a full stack raises SPILL. -/
def Obligations.SetjSavesThePendingJoin : Prop :=
  ∀ (s : State) (c : Issue) (cl : ClauseState) (off : BitVec 24) (j : Word), c.p.pjoin = some j →
    let i : Instr := .setj off
    let P : Path := { c.p.advance with pjoin := some (c.p.pc + BitVec.ofInt 32 (4 * off.toInt)) }
    let room := c.g.spillRoom c.half
    Issuing i s c cl →
    (c.other = none → 1 ≤ room → c.g.noJoin = true →
      ∃ t, exec i s = .next t ∧ Becomes s
        ((({ c.g with demote := none } : Group).setBank c.half
          { c.bank with spill := .savedJoin j :: c.bank.spill }).setSlot c.k (some P)) t) ∧
    (c.other = none → room = 0 → exec i s = .next (c.raise (mkTrap .spill))) ∧
    ∀ q, c.other = some q →
      (room < 2 → exec i s = .next (c.raise (mkTrap .spill))) ∧
      (2 ≤ room → q.demotable = false →
        ∃ t, exec i s = .next t ∧ Puts s { c.g with demote := some c.k } t) ∧
      (2 ≤ room → q.demotable = true →
        ∃ t, exec i s = .next t ∧ Becomes s
          (((({ c.g with
            demote := none
            pend := c.g.pend.map (fun (r : Pend) => if c.k = 0 then { r with owner1 := false } else { r with owner0 := false }) }).setBank
              c.half { c.bank with spill := .savedJoin j :: .pathSet { q.asSet with
                owns := (c.g.pend.filter (fun (r : Pend) => r.owner (1 - c.k))).map Pend.id } :: c.bank.spill }).setSlot (1 - c.k) none).setSlot
                c.k (some P)) t)

/-- R121: JOIN without a pending join raises ILLEGAL; else its path parks and the rows of Table 7.1 are tested. Alone in a
native group without a set that waits at its join, the path goes on after the join, with the join it had saved. -/
def Obligations.JoinParksAndReconverges : Prop :=
  ∀ (s : State) (c : Issue) (cl : ClauseState), Issuing .join s c cl →
    (c.p.pjoin = none → exec .join s = .next (c.raise trIllegal)) ∧
    ∀ pj, c.p.pjoin = some pj →
      (c.g.ganged = false → c.g.slot (1 - c.k) = none → c.bank.spill = [] →
        ∃ t, exec .join s = .next t ∧
          Becomes s (c.g.setSlot c.k (some { c.p with pc := pj, pjoin := none, clause := none })) t) ∧
      (∀ j l, c.g.ganged = false → c.g.slot (1 - c.k) = none → c.bank.spill = .savedJoin j :: l →
        ∃ t, exec .join s = .next t ∧
          Becomes s ((c.g.setBank c.half { c.bank with spill := l }).setSlot c.k
            (some { c.p with pc := pj, pjoin := some j, clause := none })) t) ∧
      (∀ q, c.g.ganged = false → c.g.slot (1 - c.k) = some q → q.pjoin = some pj → q.atJoin = none → c.bank.spill = [] →
        ∃ t, exec .join s = .next t ∧ Becomes s (c.g.setSlot c.k (some { c.p with park := .join 0, clause := none })) t)

/-- Table 7.1, for a path parked at JOIN: its rows in their order. A merged flag holds its count modulo 64: log 74. -/
def Obligations.JoinTableRows : Prop :=
  ∀ (g : Group) (k : Nat) (p : Path) (since : Nat) (pj : Word), p.pjoin = some pj →
    let b := g.bank (g.half k)
    let parked : SpillEntry := .pathSet { pc := pj, pjoin := some pj, mask := p.mask, mode := p.mode,
                                          owns := (g.pend.filter (fun (r : Pend) => r.owner k)).map Pend.id, drain := p.drain }
    let popped := fun (l : List SpillEntry) => g.setBank (g.half k) { b with spill := l }
    let starts := fun (h : Group) (k : Nat) (e : PathSet) => (h.adopt k e.owns).setSlot k (some
      { pc := e.pc, mask := e.mask, mode := e.mode, pjoin := e.pjoin, flags := List.replicate 12 0, drain := e.drain })
    -- row 1: the matching set on top is at the join
    (∀ e l, b.spill = .pathSet e :: l → e.pjoin = some pj → e.pc = pj →
      g.joinRow k p since = some (((popped l).adopt k e.owns).setSlot k
        (some { p with mask := p.mask ||| e.mask, mode := e.mode, drain := p.drain ++ e.drain }))) ∧
    -- row 2: the two paths of the group stand at the join and become one
    (∀ q qs, (∀ e, b.spill.head? = some (.pathSet e) → e.pjoin = some pj → e.pc ≠ pj) → g.ganged = false →
      g.slot (1 - k) = some q → q.pjoin = some pj → q.atJoin = some qs →
      ∃ h m, g.joinRow k p since = some h ∧ h.slot0 = some m ∧ h.slot1 = none ∧ m.mask = p.mask ||| q.mask ∧
        m.pjoin = some pj ∧ m.mode = (if qs < since then q.mode else p.mode) ∧
        m.flags = (upto 12).map (fun f => BitVec.ofNat 6 (countFlag (g.pend.filter (fun r => r.owner0 || r.owner1)) f)) ∧
        h.pend = g.pend.map (fun r => { r with owner0 := r.owner0 || r.owner1, owner1 := false })) ∧
    -- row 3: the other slot of a native group is free, and the matching set runs there
    (∀ e l, b.spill = .pathSet e :: l → e.pjoin = some pj → e.pc ≠ pj → g.ganged = false → g.slot (1 - k) = none →
      g.joinRow k p since = some (starts (popped l) (1 - k) e)) ∧
    -- row 5: no free slot: the path waits on the stack and the matching set runs in its place, once the flags are zero
    (∀ e l, b.spill = .pathSet e :: l → e.pjoin = some pj → e.pc ≠ pj →
      (g.ganged = true ∨ ∃ q, g.slot (1 - k) = some q ∧ q.pjoin ≠ some pj) →
      g.joinRow k p since = if p.flagsZero then some (starts ((popped (parked :: l)).disown k) k e) else none) ∧
    -- row 4: the other path of the group has still to come to the same join
    (∀ e l q, b.spill = .pathSet e :: l → e.pjoin = some pj → e.pc ≠ pj → g.ganged = false → g.slot (1 - k) = some q →
      q.pjoin = some pj → q.atJoin = none → g.joinRow k p since = none) ∧
    -- rows 4 and 6, no matching set on top: the other path has still to come, or waits elsewhere
    (∀ q, (∀ e, b.spill.head? = some (.pathSet e) → e.pjoin ≠ some pj) → g.ganged = false → g.slot (1 - k) = some q →
      (q.pjoin ≠ some pj ∨ q.atJoin = none) → g.joinRow k p since = none) ∧
    -- row 7: nothing else waits for the join
    ((∀ e, b.spill.head? = some (.pathSet e) → e.pjoin ≠ some pj) → (g.ganged = true ∨ g.slot (1 - k) = none) →
      g.joinRow k p since = some (match b.spill with
        | .savedJoin j :: l => (popped l).setSlot k (some { p with pc := pj, pjoin := some j, park := .running, clause := none })
        | _ => g.setSlot k (some { p with pc := pj, pjoin := none, park := .running, clause := none })))

/-- R77, R122: EXIT takes its path's lanes out of the group; a spilled set runs in the slot of a group's only path; a group
without path, set or instruction in flight leaves the device. The path waits at its EXIT while an instruction that it owns can
still fault, so that the fault finds it there (log 51). -/
def Obligations.ExitEndsThePath : Prop :=
  ∀ (s : State) (c : Issue) (cl : ClauseState), Issuing .exit s c cl →
    let left := c.g.pend.map (fun r => { (if c.k = 0 then { r with owner0 := false } else { r with owner1 := false }) with
      vdst := r.vdst.map (fun e => (e.1, e.2 &&& ~~~c.p.mask)) })
    let waits := c.g.pend.any (fun r => r.owner c.k && r.mayFault)
    (waits = true → c.g.noJoin = true → ∃ t, exec .exit s = .next t ∧
      Becomes s (c.g.setSlot c.k (some { c.p with park := .exit })) t) ∧
    (waits = false → ∀ q, c.g.ganged = false → c.g.slot (1 - c.k) = some q → q.atJoin = none →
      ∃ t, exec .exit s = .next t ∧ Becomes s (({ c.g with pend := left, demote := none }).setSlot c.k none) t) ∧
    (waits = false → ∀ e l, c.g.ganged = false → c.g.slot (1 - c.k) = none → c.bank.spill = .pathSet e :: l → e.pjoin ≠ some e.pc →
      ∃ t, exec .exit s = .next t ∧
        Becomes s ((({ c.g with pend := left, demote := none }.setBank c.half { c.bank with spill := l }).adopt c.k
          e.owns).setSlot c.k (some { pc := e.pc, mask := e.mask, mode := e.mode, pjoin := e.pjoin,
                                      flags := List.replicate 12 0, drain := e.drain })) t) ∧
    (c.g.slot (1 - c.k) = none → c.bank.spill = [] → c.g.bank0.spill = [] → c.g.bank1.spill = [] → c.g.pend = [] →
      c.g.bank0.raised = [] → c.g.bank1.raised = [] →
      ∃ t, exec .exit s = .next t ∧ t.group? c.g.id = none ∧ t.mem = s.mem ∧ t.contexts = s.contexts ∧
        ∀ n, n ≠ c.g.id → (t.group? n).map Group.plain = (s.group? n).map Group.plain)

/-- R78, R113: YIELD completes wherever it issues: its path goes to the next header, and no register, flag or byte of memory
is changed. Its group then waits for a whole clause of each other group of its issue slot that is resident and has an eligible
path, and for no other; while it waits for one, no word of it issues. -/
def Obligations.YieldOwesTheOthersAClause : Prop :=
  (∀ (s : State) (c : Issue) (cl : ClauseState), Issuing .yield_ s c cl →
    let others := s.groups.filter (fun (h : Group) => decide (h.core = c.g.core) && decide (h.index % 4 = c.g.index % 4) &&
      decide (h.id ≠ c.g.id) && h.resident && s.hasEligible h)
    let G := ({ c.g with owed := others.map (fun (h : Group) => (h.id, false, false)) } : Group).setSlot c.k
      (some (c.p.toHeader (c.p.pc + 4)))
    (∃ t, exec .yield_ s = .next t ∧ Moves s c.k G t) ∧
    (c.g.noJoin = true → ∃ t, exec .yield_ s = .next t ∧ Becomes s G t)) ∧
  ∀ (c : Issue) (cl : ClauseState) (i : Instr), c.p.clause = some cl → c.g.owed ≠ [] → c.holds i cl = true

/-! ### Instructions in flight -/

/-- R19, R22, R34, R176: a word that accesses memory, a capability, a tag, a texture or a unit takes its place among the
instructions in flight with the outcome of its checks, and its path goes on; with an empty effective mask it accesses
nothing, where that UNMAPPED is set and last reads are honoured is the model's choice: log 59. -/
def Obligations.AccessesTakeTheirPlace : Prop :=
  ∀ (i : Instr) (s : State) (c : Issue) (cl : ClauseState), Issuing i s c cl →
    (match i with
      | .ld _ _ _ _ _ _ | .st _ _ _ _ _ _ | .atom _ _ _ _ _ _ | .atomNoreturn _ _ _ _ _ | .lds _ _ _ _ _
      | .sts _ _ _ _ _ | .atoms _ _ _ _ _ _ | .atomsNoreturn _ _ _ _ _ | .ldcTable _ _ _ | .ldcMemory _ _ _ _
      | .stc _ _ _ _ | .xlat _ _ _ | .mint _ _ _ _ | .tlook _ _ _ _ | .tset _ _ _ | .pref _ _ _ _ | .lnchN _ _ _
      | .enq _ _ _ | .ldlod _ _ _ _ | .sample _ _ _ _ | .sampleg _ _ _ _ | .vxm _ _ _ _ | .trace _ _ _ _
      | .hitret _ _ | .cover _ _ => True
      | _ => False) →
    (c.emask = 0 → c.Gives i s [] c.emask (fun _ _ => 0) 0 c.pbits) ∧
    (c.emask ≠ 0 →
      let r := s.numbered.checkPend c.g (c.flown i c.emask)
      c.Flies i s r.1 r.2 .running)

/-- R101, R133, R191, R275: LNCH .w, WAITA and REPACK park their path on their own instruction, unless it faults; REPACK
with another path, a spilled set or in a ganged group raises ILLEGAL, and on a barrier it may not use BARRIER.
UNMAPPED and last reads under an empty effective mask are the model's choice: log 59. -/
def Obligations.ParkingWordsParkTheirPath : Prop :=
  ∀ (s : State) (c : Issue) (cl : ClauseState) (u ne : Bool) (x : Fin 8) (a : Src) (sc : Scope) (sp : WaitSpace)
    (n : Fin 64) (k m : Fin 16) (d e : Fin 64),
    let parks := fun (i : Instr) (park : Nat → Park) =>
      (c.emask = 0 → c.Gives i s [] c.emask (fun _ _ => 0) 0 c.pbits) ∧
      (c.emask ≠ 0 →
        let r := s.numbered.checkPend c.g (c.flown i c.emask)
        c.Flies i s r.1 r.2 (if r.1.isFaulted then .running else park r.1.id))
    (Issuing (.lnchW u x a) s c cl → parks (.lnchW u x a) Park.launchWait) ∧
    (Issuing (.waita u ne sc sp n) s c cl → parks (.waita u ne sc sp n) Park.waita) ∧
    (Issuing (.repack k m d e) s c cl →
      let i : Instr := .repack k m d e
      let q := c.flown i c.emask
      if c.g.ganged = true ∨ c.other.isSome ∨ c.bank.spill ≠ [] then exec i s = .next (c.raise trIllegal)
      else if c.emask = 0 then c.Gives i s [] c.emask (fun _ _ => 0) 0 c.pbits
      else if s.numbered.repackFault c.g k.val m.val then
        c.Flies i s { q with status := .faulted { cause := .barrier, pc := c.p.pc, seq := s.fresh + 1 } }
          s.numbered.numbered .running
      else c.Flies i s q s.numbered (.barrier q.id))

/-- R189, R190, R237, R249, R250, R252, R253, R254, R273, R283: fences and commands to the engines take their place in flight
over the full mask, a copy kick over the effective mask; what each captures beside its operands. UNMAPPED and last reads
of a CKICK under an empty effective mask are the model's choice: log 59. -/
def Obligations.CommandsTakeTheirPlace : Prop :=
  ∀ (s : State) (c : Issue) (cl : ClauseState) (i : Instr), Issuing i s c cl →
    match i with
    | .fence _ _ | .xfence _ _ _ _ | .mloadb _ | .mdrain _ | .mzero _ _ | .compose _ _ | .visb _ _ _ =>
      c.Flies i s (c.flown i c.p.mask) s.numbered .running
    | .mloop a => c.Flies i s
        { c.flown i c.p.mask with qcap := nth c.bank.q (bits (c.bank.sreg (a.val + 3)).toNat 19 17) 0 } s.numbered .running
    | .mdrainv _ _ _ => c.Flies i s
        { c.flown i (c.g.fullMask c.half) with aux := [lowestLane c.p.mask] } s.numbered .running
    | .ckick _ _ b =>
      (c.emask = 0 → c.Gives i s [] c.emask (fun _ _ => 0) 0 c.pbits) ∧
      (c.emask ≠ 0 → c.Flies i s
        { c.flown i c.emask with aux := [(c.src .control b (lowestLane c.emask)).toNat] } s.numbered .running)
    | _ => True

/-- R29, R303, R307, R308: what an instruction in flight holds: its word, its path, its flag, its translation register, and
every source as it was at issue, lane by lane. -/
def Obligations.OperandsAreCapturedAtIssue : Prop :=
  ∀ (c : Issue) (i : Instr) (m : DWord) (cl : ClauseState), c.p.clause = some cl →
    let q := c.flown i m
    let sources := unitSources (i.reads c.p.mode)
    (q.instr = i ∧ q.id = c.s.fresh ∧ q.pc = c.p.pc ∧ q.mode = c.p.mode ∧ q.lmask = m ∧ q.half = c.half ∧
      (q.owner0 = true ↔ c.k = 0) ∧ (q.owner1 = true ↔ c.k ≠ 0) ∧ q.status = .inFlight ∧ q.stage = .queued ∧
      q.flag = (match i.latency with
        | .vr => cl.seta
        | .vn => cl.setb
        | _ => none) ∧
      q.xcap = (xOf i).map (fun x => nth c.bank.x x.val {})) ∧
    ∀ (dl : Delivery) (j l : Nat) (h : j < sources.length), m ≠ 0 → l < 64 →
      q.op c.g dl j l = c.src dl sources[j] (source i.uniform m l)

/-- R158, R176: the checks of one lane in their order, and the fault of an instruction: the first cause in that order that a
lane meets, with the lanes that meet it. -/
def Obligations.AccessChecksStandInOrder : Prop :=
  (∀ (s : State) (core : Nat) (c : Context) (x : XReg) (need : Need) (reads : Bool) (align n o : Nat),
    let bad := fun (cause : Cause) => badLane cause 0 o
    (o % align ≠ 0 → s.checkAccess core c x need reads align n o = bad .misalign) ∧
    (o % align = 0 → x.bound.toNat < o + n → s.checkAccess core c x need reads align n o = bad .bounds) ∧
    (o % align = 0 → o + n ≤ x.bound.toNat → hasPerm x.perm need.perm = false →
      s.checkAccess core c x need reads align n o = bad .perm)) ∧
  (∀ l : List (Nat × LaneCheck), laneFault l = none ↔ ∀ e ∈ l, ∃ runs leaves, e.2 = .ok runs leaves) ∧
  ∀ (l : List (Nat × LaneCheck)) (t : Trap), laneFault l = some t →
    ∃ o lane u f ls, (lane, LaneCheck.bad o t.cause u f ls) ∈ l ∧ t.sub = u ∧ t.faddr = BitVec.ofNat 64 f ∧
      (∀ e o' cs u' f' ls', e ∈ l → e.2 = .bad o' cs u' f' ls' → o ≤ o') ∧
      ∀ n, n < 64 → (t.fmask.getLsbD n = true ↔ ∃ cs u' f' ls', (n, LaneCheck.bad o cs u' f' ls') ∈ l)

/-- R128, R129: an arrival at a barrier is counted, and recorded by its group; the last one starts the next phase and releases
every wait of the phase; BAR sync waits for that. An index or a count out of range, or another count than the phase's,
raises BARRIER. The model's choices in it: log 33. -/
def Obligations.BarrierArrivalsAreCounted : Prop :=
  ∀ (s : State) (c : Issue) (cl : ClauseState) (a b : Src) (tm : Team), s.team? c.g.team = some tm →
    let idx := (c.src .control a (lowestLane c.p.mask)).toNat
    let n := (c.src .control b (lowestLane c.p.mask)).toNat
    let bar := s.numbered.barrierAt tm idx
    let legal := idx < 36 ∧ (32 ≤ idx ∨ idx < tm.nbar) ∧ 0 < n ∧ n ≤ (if idx < 32 then 64 else 768) ∧
      (bar.count = none ∨ bar.count = some n)
    let s1 := s.numbered.setBarrier tm idx { bar with count := some n, arrivals := bar.arrivals + 1 }
    let s2 := s.numbered.setBarrier tm idx { phase := !bar.phase, count := none, arrivals := 0 }
    let s3 : State := ({ s2 with
      groups := s2.groups.map (fun h => if s2.sharesBar tm idx h then h.releaseBar idx bar.phase else h) } : State).acquireBar tm idx
    let recorded := fun (g : Group) => { g with bars := putNth none g.bars idx (some (bar.phase, false)) }
    let goesOn := fun (i : Instr) (s' : State) (f : Group → Group) =>
      let fl := (c.flown i c.p.mask).flag
      ∃ t G, exec i s = .next t ∧ Moves s' c.k ((f G).setSlot c.k (some ((c.p.rise fl).fall fl).advance)) t ∧
        Wrote c i [] c.p.mask c.held 0 c.pbits G
    let faults := fun (i : Instr) => c.Flies i s
      { c.flown i c.p.mask with status := .faulted { cause := .barrier, pc := c.p.pc, seq := s.fresh + 1 } }
      s.numbered.numbered .running
    (¬ legal → (Issuing (.barArrive a b) s c cl → faults (.barArrive a b)) ∧
      (Issuing (.barSync a b) s c cl → faults (.barSync a b))) ∧
    (legal → bar.arrivals + 1 ≠ n →
      (Issuing (.barArrive a b) s c cl → goesOn (.barArrive a b) s1 recorded) ∧
      (Issuing (.barSync a b) s c cl →
        let i : Instr := .barSync a b
        let q := { c.flown i c.p.mask with aux := [idx, if bar.phase then 1 else 0], stage := .atCore }
        ∃ t G, exec i s = .next t ∧ Moves s1 c.k (({ recorded G with pend := G.pend ++ [q] } : Group).setSlot c.k
            (some { (c.p.rise q.flag).advance with park := .barrier q.id })) t ∧
          Wrote c i [] c.p.mask c.held 0 c.pbits G)) ∧
    (legal → bar.arrivals + 1 = n → c.g.pend.all (fun r => !r.awaits idx bar.phase) = true →
      (Issuing (.barArrive a b) s c cl → goesOn (.barArrive a b) s3 (fun g => (recorded g).markBar idx)) ∧
      (Issuing (.barSync a b) s c cl → goesOn (.barSync a b) s3 (fun g => (recorded g).markBar idx)))

/-- R128, R129: BAR wait parks its path until the phase that its group recorded completes, and goes on at once where that has
completed; without a record, or with an index out of range, it raises BARRIER. The model's choices in it: log 33. -/
def Obligations.BarrierWaitsForItsPhase : Prop :=
  ∀ (s : State) (c : Issue) (cl : ClauseState) (a : Src) (tm : Team), s.team? c.g.team = some tm →
    let i : Instr := .barWait a
    let idx := (c.src .control a (lowestLane c.p.mask)).toNat
    let inRange := idx < 36 ∧ (32 ≤ idx ∨ idx < tm.nbar)
    let q := c.flown i c.p.mask
    Issuing i s c cl →
    (¬ inRange ∨ nth c.g.bars idx none = none → c.Flies i s
      { q with status := .faulted { cause := .barrier, pc := c.p.pc, seq := s.fresh + 1 } } s.numbered.numbered .running) ∧
    (∀ ph, inRange → nth c.g.bars idx none = some (ph, false) → c.Flies i s
      { q with aux := [idx, if ph then 1 else 0], stage := .atCore } s.numbered (.barrier q.id)) ∧
    (∀ ph, inRange → nth c.g.bars idx none = some (ph, true) →
      ∃ t G, exec i s = .next t ∧
        Moves (s.numbered.acquireBar tm idx) c.k (G.setSlot c.k (some ((c.p.rise q.flag).fall q.flag).advance)) t ∧
        Wrote c i [] c.p.mask c.held 0 c.pbits G)

/-! ### Returns and completions -/

/-- R19, R105: an instruction that completes leaves its group, its flag falls in the paths that own it, and a path parked on it
runs again. -/
def Obligations.CompletionLowersTheFlag : Prop :=
  ∀ (g : Group) (p : Pend), g.pend? p.id = some p →
    let h := (g.wake p.id).complete p.id
    let woken := fun (q : Path) => if q.park.waitsFor p.id then { q with park := .running } else q
    h.pend = g.pend.filter (fun q => q.id ≠ p.id) ∧
    (∀ k, k = 0 ∨ k = 1 → h.slot k = (g.slot k).map (fun q => if p.owner k then (woken q).fall p.flag else woken q)) ∧
    (∀ (q : Path) (f : Fin 12), p.flag = some f → q.flag f.val ≠ 0 → (q.fall p.flag).flag f.val = q.flag f.val - 1) ∧
    (∀ (q : Path) (f : Fin 12), p.flag = some f → q.flag f.val < 63 → (q.rise p.flag).flag f.val = q.flag f.val + 1) ∧
    ∀ (q : Path) (f n : Fin 12), p.flag = some f → n ≠ f → (q.fall p.flag).flag n.val = q.flag n.val

/-- R22, R173, R175, R177: the parts of an LD that a sector returns write their lanes with the bytes in memory, extended to the
register as its size says, where no store is on its way and the core holds no copy; a lane that a later return is still to write
may keep what it holds. The other lanes and registers, and memory, are as before, and the load completes with its last part. The
model's choices in it: log 16 and 17. -/
def Obligations.LoadReturnsTheBytesOfMemory : Prop :=
  ∀ (s : State) (g : Group) (p : Pend) (sector : Nat) (u : Bool) (d : Dst) (x : Fin 8) (sz : MemSize) (hint : Hint) (a : Src),
    s.group? g.id = some g → g.pend? p.id = some p → p.instr = .ld u d x sz hint a → p.status = .inFlight → p.due = [] →
    g.mayPerform p = true → s.accessWaits g p = false → (p.xcap.getD {}).type ≠ 4 → s.poison = [] →
    (s.coreAt g.core).buffer = [] → (s.coreAt g.core).readCache = [] →
    (g.before p).all (fun r => !writesV r.instr) = true →
    let access := fun (lane : Nat) => p.lanes.find? (fun (e : LaneAccess) => e.lane = lane)
    (∀ e ∈ p.todo, (access e.1).isSome = true) →
    let here := p.todo.filter (fun e => match access e.1 with
      | none => true
      | some e' => (match elementSector e' e.2 with
          | none => true
          | some y => y = sector))
    let rest := p.todo.filter (fun e => !here.contains e)
    let word := fun (e : Nat × Nat) (w : Word) => ∃ y, access e.1 = some y ∧ w = loadWord sz (s.readRuns y.runs) e.2
    let hits := fun (e : Nat × Nat) (n l : Nat) => e.2 < sz.regs ∧ (p.receives e.1).getLsbD l = true ∧
      g.mapped n = true ∧ ∃ live, p.vdst[e.2]? = some (n, live) ∧ live.getLsbD l = true
    let hitsS := fun (e : Nat × Nat) (n : Nat) => e.2 < sz.regs ∧
      (p.receives e.1).getLsbD (lowestLane p.lmask) = true ∧ p.sdst[e.2]? = some n
    ∃ t, exec (.loadSectorReturn g.id p.id ⟨sector, 0⟩) s = .next t ∧ t.mem = s.mem ∧
      ∀ h, t.group? g.id = some h →
        (∀ n l, l < 64 → (∃ e ∈ here, hits e n l ∧ (word e (h.vLane n l) ∨
            ((g.laterLanes p n).getLsbD l = true ∧ h.vLane n l = g.vLane n l))) ∨
          ((∀ e ∈ here, ¬ hits e n l) ∧ h.vLane n l = g.vLane n l)) ∧
        (∀ n, (∃ e ∈ here, hitsS e n ∧ word e ((h.bank p.half).sreg n)) ∨
          ((∀ e ∈ here, ¬ hitsS e n) ∧ (h.bank p.half).sreg n = (g.bank p.half).sreg n)) ∧
        (rest = [] → h.pend? p.id = none) ∧ (rest ≠ [] → ∃ q, h.pend? p.id = some q ∧ q.todo = rest)

/-- R170, R178, R216 row 2, R221: a store leaves its group's queue, in the order of the group's stores, for the core's buffer,
and then reaches memory, behind an earlier store of the core to one of its sectors; memory then holds its bytes, in a byte
written more than once those of the highest lane, and every other byte is as before. An earlier load of the path that is still
outstanding is sent ahead, or holds the store; a store waits for a load of its core that was sent to one of its sectors. The
model's choices in it: log 17. -/
def Obligations.StoreReachesMemory : Prop :=
  ∀ (s : State) (g : Group) (p : Pend), s.group? g.id = some g → g.pend? p.id = some p → p.status = .inFlight →
    s.accessWaits g p = false → (p.xcap.getD {}).type ≠ 4 →
    (match p.instr with
      | .st _ _ _ _ _ _ | .stc _ _ _ _ => True
      | _ => False) →
    g.atRest = true →
    let k := s.coreAt g.core
    let i : Instr := .storePerformed g.id p.id
    let sent := s.sendLoads g p
    (p.stage = .queued → sent.mayPerform p = false ∨ s.readAhead g.core p = true → exec i s = .next s) ∧
    (p.stage = .queued → sent.mayPerform p = true → s.readAhead g.core p = false → g.core < s.cores.length →
      ∃ t w, exec i s = .next t ∧ t.mem = s.mem ∧ t.tags = s.tags ∧ w.group = g.id ∧ w.pend = p.id ∧
        w.bytes = p.storeBytes sent ∧ (t.coreAt g.core).buffer = k.buffer ++ [w] ∧
        (t.coreAt g.core).readCache = k.readCache.map (fun e => (e.1, overlay e.1 w.bytes e.2)) ∧
        sent = { g with pend := sent.pend } ∧
        (t.group? g.id).map Group.plain = some (sent.setPend { p with stage := .atCore }).plain ∧
        ∀ n, n ≠ g.id → (t.group? n).map Group.plain = (s.group? n).map Group.plain) ∧
    ∀ w, p.stage = .atCore → k.buffer.find? (fun v => decide (v.group = g.id) && decide (v.pend = p.id)) = some w →
      let blocked := (k.buffer.takeWhile (fun v => !(decide (v.group = g.id) && decide (v.pend = p.id)))).any (fun v =>
        v.bytes.any (fun e => (w.bytes.map (fun b => sectorOf b.1)).contains (sectorOf e.1)))
      (blocked = true → exec i s = .next s) ∧
      (blocked = false → Memory.wf s.mem = true →
        ∃ t, exec i s = .next t ∧
          (∀ n, memGet t.mem n = match w.bytes.reverse.find? (fun e => e.1 = n) with
            | some e => e.2
            | none => memGet s.mem n) ∧
          (∀ h, t.group? g.id = some h → h.pend? p.id = none))

/-- R179, R180, Table 10.2: an atomic reads and writes its lanes of one sector one after another, in memory, with no other
access between; where it returns, a lane's register gets the value that its lane found. -/
def Obligations.AtomicReadsAndWritesMemory : Prop :=
  ∀ (s : State) (g : Group) (p : Pend) (op : AtomOp) (w : Bool) (u : Bool) (d : Dst) (x : Fin 8) (a : Src) (sector : Nat),
    s.group? g.id = some g → g.pend? p.id = some p → p.status = .inFlight → p.due = [] → s.accessWaits g p = false →
    s.poison = [] → g.mayPerform p = true → s.drained g p (p.lanes.map LaneAccess.runs).flatten = true → s.readAhead g.core p = false →
    let n := if w then 64 else 32
    let runs := fun (lane : Nat) => ((p.lanes.find? (fun (e : LaneAccess) => e.lane = lane)).map LaneAccess.runs).getD []
    let at_ := fun (lane : Nat) => ((runs lane).head?.bind Run.pa).map sectorOf
    let here := p.todo.filter (fun e => at_ e.1 = (p.todo.head?.bind (fun f => at_ f.1)))
    let val := fun (j lane : Nat) => if w then (p.op g .control j lane).toNat + (p.op g .control (j + 1) lane).toNat * 2 ^ 32
      else (p.op g .control j lane).toNat
    let arg := fun (lane : Nat) => if op = .cas then val (if w then 3 else 2) lane else val 1 lane
    let new := fun (m lane : Nat) => match op with
      | .add => (m + arg lane) % 2 ^ n
      | .min => if toSigned n (arg lane) < toSigned n m then arg lane else m
      | .max => if toSigned n m < toSigned n (arg lane) then arg lane else m
      | .and => m &&& arg lane
      | .or => m ||| arg lane
      | .xor => m ^^^ arg lane
      | .exch => arg lane
      | .cas => if m = val 1 lane then arg lane else m
      | .fadd => (add32 (BitVec.ofNat 32 m) (BitVec.ofNat 32 (arg lane))).toNat
      | .umin => min m (arg lane)
      | .umax => max m (arg lane)
    let s1 := here.foldl (fun (s : State) e =>
      s.writeRuns (runs e.1) (leBytes (n / 8) (new (leValue (s.readRuns (runs e.1))) e.1))) s
    (∀ e ∈ p.todo, (p.lanes.find? (fun (y : LaneAccess) => y.lane = e.1)).isSome = true) →
    (p.instr = .atomNoreturn u x op w a → ∃ t, exec (.storePerformed g.id p.id) s = .next t ∧ t.mem = s1.mem ∧
      ∀ h, t.group? g.id = some h → ∀ r l, l < 64 → p.vdst = [] → p.sdst = [] → h.vLane r l = g.vLane r l) ∧
    (p.instr = .atom u d x op w a → ∃ t, exec (.loadSectorReturn g.id p.id ⟨sector, 0⟩) s = .next t ∧ t.mem = s1.mem ∧
      ∀ h lane r live, t.group? g.id = some h → here = [(lane, 0)] → p.vdst[0]? = some (r, live) → g.mapped r = true →
        (∀ r', p.vdst[1]? = some r' → r'.1 ≠ r) →
        ∀ l, l < 64 → (live &&& p.receives lane).getLsbD l = true → (g.laterLanes p r).getLsbD l = false →
          h.vLane r l = BitVec.ofNat 32 (leValue (s.readRuns (runs lane))))

/-- R165, R180, R181: a scratchpad load returns the bytes of the team's window, a store writes them there, an atomic reads and
writes them lane by lane; each then completes. -/
def Obligations.ScratchpadAccessesActOnTheWindow : Prop :=
  ∀ (s : State) (g : Group) (p : Pend) (u w : Bool) (d : Dst) (src a : Src) (sp : Space) (sz : MemSize) (op : AtomOp)
    (sector : Nat), s.group? g.id = some g → g.pend? p.id = some p → p.status = .inFlight → p.due = [] →
    s.accessWaits g p = false → g.mayPerform p = true →
    let h := s.sendLoads g p
    let target := fun (s : State) (lane n : Nat) => s.scratchTarget h sp (p.offset h lane) n
    let bytes := fun (lane : Nat) => match target s lane sz.bytes with
      | none => []
      | some (tm, o) => s.scratchRead tm o sz.bytes
    let parts := p.todo.flatMap (fun e => (upto sz.regs).map (fun j => (e.1, j)))
    (p.instr = .lds u d sp sz a → s.scratchPoison h p sp sz.bytes = [] →
      exec (.loadSectorReturn g.id p.id ⟨sector, 0⟩) s = .next (s.deliver h { p with todo := [], due := p.loaded sz parts bytes } 0)) ∧
    (p.instr = .sts u src sp sz a → s.lateTcopy h p sp sz.bytes = none →
      exec (.storePerformed g.id p.id) s = .next ((p.todo.foldl (fun s e => match target s e.1 sz.bytes with
        | none => s
        | some (tm, o) => s.scratchWrite tm.id o (p.storeData h e.1)) s).progress h { p with todo := [] })) ∧
    ∀ lane tm o, p.todo = [(lane, 0)] → s.lateTcopy h p sp (if w then 8 else 4) = none →
      s.scratchPoison h p sp (if w then 8 else 4) = [] → target s lane (if w then 8 else 4) = some (tm, o) →
      let m := leValue (s.scratchRead tm o (if w then 8 else 4))
      let cv := p.atomArgs h op w lane
      let s' := s.scratchWrite tm.id o (leBytes (if w then 8 else 4) (atomNew op w m cv.1 cv.2))
      let t := s'.deliver h { p with todo := [], due := p.oldValues w [(lane, m)] } 0
      (p.instr = .atoms u d sp op w a → exec (.loadSectorReturn g.id p.id ⟨sector, 0⟩) s = .next t) ∧
      (p.instr = .atomsNoreturn u sp op w a → exec (.storePerformed g.id p.id) s = .next t)

/-- R14, R155, R157, R167, R182 to R188: LDC returns a slot of the context's table with its tag, or 16 bytes of memory; MINT a
capability narrowed as its descriptor says, tagged; XLAT writes its translation register, behind an earlier one of its group to
it; TLOOK returns the lowest tag of its range that holds the key, TSET writes tag entries; PREF completes, and changes no more
than the read cache. That an LDC through a place that is no multiple of 16 delivers no tag is the model's choice: log 68. -/
def Obligations.CapabilityAndTagWordsReturn : Prop :=
  ∀ (s : State) (g : Group) (p : Pend) (c : Context) (tm : Team) (u : Bool) (d : SQuad) (qa qb : SQuad) (x n : Fin 8)
    (a b : Src) (dst : Dst) (pk : PrefKind) (sector : Nat), s.group? g.id = some g → g.pend? p.id = some p →
    p.status = .inFlight → p.due = [] → s.accessWaits g p = false → g.mayPerform p = true → s.contextOf g = some c →
    s.team? g.team = some tm →
    let h := s.sendLoads g p
    let back := exec (.loadSectorReturn g.id p.id ⟨sector, 0⟩) s
    let done := exec (.storePerformed g.id p.id) s
    let word := fun (j : Nat) => p.op g .control j (lowestLane p.lmask)
    let gives := fun (q : QWord) (tag : Bool) => ∃ t, back = .next t ∧ t.mem = s.mem ∧ t.tags = s.tags ∧
      ∀ G, t.group? g.id = some G → G.pend? p.id = none ∧ (G.bank p.half).quadTag d.val = tag ∧
        ∀ i, i < 4 → (G.bank p.half).sreg (4 * d.val + i) = nth (capWords q) i 0
    let quad := p.vdst = [] ∧ p.sdst = (upto 4).map (fun i => 4 * d.val + i)
    (p.instr = .ldcTable u d a → quad → gives (c.slot (word 0).toNat).1 (c.slot (word 0).toNat).2) ∧
    (∀ r pa y, p.instr = .ldcMemory u d x a → quad → s.poison = [] → p.lanes = [y] → y.runs = [r] → r.pa = some pa →
      s.drained g p [r] = true → gives (BitVec.ofNat 128 (leValue (s.readPhys pa r.len)))
        (decide (pa % 16 = 0) && hasPerm (p.xcap.getD {}).perm permK && s.tagAt pa)) ∧
    (p.instr = .mint u d qa qb → quad →
      let parent := quadBits [word 0, word 1, word 2, word 3]
      let off := bits (word 5).toNat 23 0 * 2 ^ 32 + (word 4).toNat
      let len := bits (word 7).toNat 7 0 * 2 ^ 32 + (word 6).toNat
      gives (mkCap ((word 7).extractLsb' 16 8) (BitVec.ofNat 40 len) ((word 7).extractLsb' 8 8)
        (capBase parent + BitVec.ofNat 56 off)) true) ∧
    (p.instr = .xlat u n qa → g.xlatBefore p n = false → s.dieHeld (g.core / 64) = false →
      done = .next (s.landed ((g.setBank p.half { g.bank p.half with
        x := putNth {} (g.bank p.half).x n.val (s.xlatOf c (quadBits [word 0, word 1, word 2, word 3])) }).complete p.id))) ∧
    (p.instr = .xlat u n qa → g.xlatBefore p n = true ∨ s.dieHeld (g.core / 64) = true → done = .next s) ∧
    (s.tagTurn g p = true → p.instr = .tlook u dst a b →
      back = .next ((s.setGroup h).returnAll g.id p 0 (fun _ lane =>
        let y := (p.op h .control 1 lane).toNat
        tagSearch tm (p.op h (.typed (modeType p.mode)) 0 lane) (bits y 10 0) (bits y 21 16 + 1)))) ∧
    (∀ lane, s.tagTurn g p = true → p.instr = .tset u a b → p.accessLanes = [lane] →
      let hi := p.op h .control 2 lane
      let e : DWord := (hi.extractLsb' 31 1) ++ (0 : BitVec 23) ++ (hi.extractLsb' 0 8) ++ p.op h (.typed (modeType p.mode)) 1 lane
      let i := (p.op h .control 0 lane).toNat
      done = .next (((s.setGroup h).setTeam { tm with
        tagTab := if e = 0 then assocErase i tm.tagTab else assocSet i e tm.tagTab }).completePend g.id p.id)) ∧
    (p.instr = .pref u x pk a → ∃ s' : State, done = .next (s'.completePend g.id p.id) ∧
      s' = { s with cores := s'.cores } ∧ s'.cores.length = s.cores.length ∧
      ∀ k, k < s.cores.length → s'.coreAt k = { s.coreAt k with readCache := (s'.coreAt k).readCache })

/-- R132, R133, R136, R170, R189, R190, R191, R195, R217: a fence completes when what it orders is performed, and an acquire at core
scope or wider empties the core's read cache; a release at a scope wider than core, and an XFENCE before an engine's class, then
wait for the stores that the core has on their way; one before the T path has the texture units' lines dropped once their reads that
consulted the map are done. WAITA completes once the word no longer stands as it says; a launch is pushed behind
its path's accesses, and LNCH .w ends with its grids. -/
def Obligations.WaitsFencesAndLaunchesComplete : Prop :=
  ∀ (s : State) (g : Group) (p : Pend), s.group? g.id = some g → g.pend? p.id = some p → s.accessWaits g p = false →
    let done := exec (.storePerformed g.id p.id) s
    let onWay := ((s.coreAt g.core).buffer).map CoreWrite.pend
    -- a fence: ready once what it orders is performed; one that drains waits for the stores that were on their way then
    let ends := fun (ready drain : Bool) (t : State) =>
      (ready = false → done = .next s) ∧
      (ready = true → drain = false ∨ onWay = [] ∨ (p.aux ≠ [] ∧ ∀ n ∈ p.aux, n ∉ onWay) → done = .next (t.completePend g.id p.id)) ∧
      (ready = true → drain = true → onWay ≠ [] → p.aux = [] → done = .next (s.setGroup (g.setPend { p with aux := onWay }))) ∧
      (ready = true → drain = true → (∃ n ∈ p.aux, n ∈ onWay) → done = .next s)
    let wide := fun (k : FenceKind) (sc : Scope) => decide (k ≠ .acq) && decide (3 < scopeNat sc)
    let fresh := fun (k : FenceKind) (sc : Scope) =>
      if k ≠ .rel ∧ 3 ≤ scopeNat sc then s.setCore g.core { s.coreAt g.core with readCache := [] } else s
    (∀ k sc, p.status = .inFlight → p.instr = .fence k sc → ends (fenceDone k sc g p) (wide k sc) (fresh k sc)) ∧
    (∀ k cb sc, p.status = .inFlight → p.instr = .xfence k .v cb sc → ends (classDone s cb .v k sc g p) (wide k sc) (fresh k sc)) ∧
    (∀ k ca cb sc, p.status = .inFlight → p.instr = .xfence k ca cb sc → ca = .h ∨ ca = .p →
      ends (classDone s cb ca k sc g p) (wide k sc) s) ∧
    (∀ k ca cb sc, p.status = .inFlight → p.instr = .xfence k ca cb sc → ca = .c ∨ ca = .m →
      ends (classDone s cb ca k sc g p) true s) ∧
    (∀ k cb sc, p.status = .inFlight → p.instr = .xfence k .t cb sc →
      ends (classDone s cb .t k sc g p && s.texturesDone g sc) true (s.dropTexture (s.sharesScope sc g))) ∧
    (∀ k ca cb sc, p.status = .inFlight → p.instr = .xfence k ca cb sc → ca = .y ∨ ca = .k →
      let held := fun (d : Nat) => decide (d = g.core / 64) || decide (6 < scopeNat sc)
      ends (classDone s cb ca k sc g p) true
        (if scopeNat sc < 6 then s else if ca = .y then s.dropRidge held else s.dropComposer held)) ∧
    (∀ u ne sc sp a m s', p.status = .inFlight ∨ p.status = .waitOnly → g.mayPerform p = true → p.instr = .waita u ne sc sp a →
      s.waitaWord g p = (some m, s') →
      exec (.waitaReread g.id p.id) s =
        if decide (m = p.op g .control 1 (lowestLane p.lmask)) ≠ ne then .next s'
        else .next ((s'.acquire g.core sc).completePend g.id p.id)) ∧
    (∀ u x a ids h t, p.status = .inFlight → s.launchTurn g p = true → s.launchDrained g p = true → s.poison = [] →
      (s.markNodes g p).launch g p = .ok (ids, h, t) →
      (p.instr = .lnchN u x a → done = .next (t.landed (h.complete p.id))) ∧
      (p.instr = .enq u x a → done = .next (t.landed (h.complete p.id))) ∧
      (p.instr = .lnchW u x a → p.stage = .queued →
        done = .next (t.setGroup (h.setPend { p with stage := .atCore, aux := ids })))) ∧
    ∀ u x a, p.instr = .lnchW u x a → p.stage = .atCore → p.status = .inFlight ∨ p.status = .waitOnly →
      (∀ n ∈ p.aux, ∀ d, s.grid? n = some d → d.completed = true) →
      exec (.launchWaitComplete g.id p.id) s =
        .next ((s.setCore g.core { s.coreAt g.core with readCache := [] }).completePend g.id p.id)

/-- R248 to R254, R256, R266, R275, R283, R289, R294, R295, R296: an engine's command and a unit's result complete with the
effect of their instruction; an MLOOP may read some bytes first; MLOADB loads the cells of its regions, MLOOP accumulates the cells
of its rows and columns, MDRAIN writes its rows' bytes, MZERO clears its accumulator rows, and each no other; MDRAINV
returns a column of them, VXM the product of its lane's row, and a unit's result stands in the lanes that it writes. A composer's optimiser writes the body that
its passes give, then DISPATCH, COMP_OFF with BYTES, and status 1; one whose code has grown past the plain body's, or that is
not begun at its bound, ends with status 2, one whose body passes OUT_LEN with status 5. Its passes make Listing 19.3 of
Listing 19.2. The model's choices in it: log 16, 18, 19 and 66. -/
def Obligations.EngineAndUnitResultsComplete : Prop :=
  (∀ (s : State) (g : Group) (p : Pend) (tm : Team) (part : Nat), s.group? g.id = some g → g.pend? p.id = some p →
     p.status = .inFlight → p.due = [] → s.team? g.team = some tm →
     let word := fun (j : Nat) => p.op g .control j (lowestLane p.lmask)
     let engine := exec (.engineCommandComplete g.id p.id) s
     let unit := exec (.unitResultWritten g.id ⟨p.id, part⟩) s
     (s.engineTurn g p = true →
       (∀ a, p.instr = .mloadb a → engine = .next (s.commandDone g p (s.mloadb tm (word 0) (word 1)))) ∧
       (∀ a, p.instr = .mloop a → p.seen = none →
         engine = .next (s.nextFree.commandDone g p ((s.nextFree.mloop tm [word 0, word 1, word 2, word 3] p.qcap).map
           (fun v => v.setScratch tm))) ∨
         engine = .next (s.nextFree.setGroup (g.setPend { p with seen := some (tm.scratch, tm.copied) }))) ∧
       (∀ a, p.instr = .mdrain a → engine = .next (s.commandDone g p (s.mdrain tm (word 0) (word 1) (word 2)))) ∧
       (∀ a b, p.instr = .mzero a b → tm.accrows ≠ 0 → (word 1).toNat ≠ 0 → (word 0).toNat + (word 1).toNat ≤ tm.accrows →
         ∃ t, engine = .next t ∧ ∀ tm', t.team? g.team = some tm' → ∀ r c, c < 512 → tm'.accCell r c =
           if (word 0).toNat ≤ r ∧ r < (word 0).toNat + (word 1).toNat then 0 else tm.accCell r c) ∧
       (∀ d a b lane, p.instr = .mdrainv d a b → p.aux = [lane] →
         let col := (p.op g .control 0 lane).toNat
         let row := (p.op g .control 1 lane).toNat
         col ≤ 511 → row < tm.accrows → ∃ n, engine = .next (s.returnAll g.id p n (fun _ l =>
           if tm.accrows ≤ row + g.laneIndex l then 0 else tm.accCell (row + g.laneIndex l) col))) ∧
       (∀ d a l b, p.instr = .vxm d a l b → s.unitWaits g = false → ∃ n, engine = .next (s.vxm g p n))) ∧
     (g.resident = true →
       (∀ u d sz a, p.instr = .ldlod u d sz a → unit = .next (s.textureResult g p part)) ∧
       (∀ u d a b, p.instr = .sample u d a b → unit = .next (s.textureResult g p part)) ∧
       (∀ u d a b, p.instr = .sampleg u d a b → unit = .next (s.textureResult g p part))) ∧
     (s.unitTurn g p = true →
       (∀ m a k d, p.instr = .trace m a k d → unit = .next (s.traceDone g p part m k)) ∧
       (∀ a d, p.instr = .hitret a d → unit = .next (s.hitretDone g p part)) ∧
       (∀ a b, p.instr = .cover a b → unit = .next (s.coverDone g p)) ∧
       (∀ cl a m, p.instr = .visb cl a m → unit = .next (s.visbDone g p cl m))) ∧
     (∀ k n a b, p.instr = .repack k n a b → unit = .next (s.repackDone g k.val n.val)) ∧
     (∀ d a, p.instr = .compose d a → s.unitWaits g = false → s.composerSpent g = false →
       (g.before p).all (fun q => q.readDone || !isScratch q.instr || isWaita q.instr) = true →
       exec (.plainJoinWritten g.id p.id) s = .next (s.composeDone g p))) ∧
  -- MZERO and a unit's result complete
  (∀ (s : State) (g : Group) (p : Pend) (tm : Team) (q : Path) (k : Nat) (a b : Src), s.group? g.id = some g →
    g.pend? p.id = some p → p.status = .inFlight → p.due = [] → s.team? g.team = some tm → g.resident = true →
    tm.preempted = false → (∀ r ∈ g.before p, r.readDone = true ∨ (isMatrix r.instr = false ∧ isScratch r.instr = false)) →
    g.atRest = true → k ≤ 1 → g.slot k = some q → p.instr = .mzero a b →
    let row := (p.op g .control 0 (lowestLane p.lmask)).toNat
    let n := (p.op g .control 1 (lowestLane p.lmask)).toNat
    0 < n → row + n ≤ tm.accrows →
    ∃ t h tm', exec (.engineCommandComplete g.id p.id) s = .next t ∧ t.mem = s.mem ∧ t.group? g.id = some h ∧
      h.pend? p.id = none ∧ t.team? g.team = some tm' ∧
      ∀ r c, c < 512 → tm'.accCell r c = if row ≤ r ∧ r < row + n then 0 else tm.accCell r c) ∧
  (∀ (s : State) (g : Group) (p : Pend) (q : Path) (k e : Nat) (m : DWord) (vals : List Word), s.group? g.id = some g →
    g.pend? p.id = some p → isRay p.instr = true ∨ isTexture p.instr = true → p.due = [(e, m, vals)] → p.todo = [] →
    g.atRest = true → k ≤ 1 → g.slot k = some q →
    ∃ t h, exec (.unitResultWritten g.id ⟨p.id, 0⟩) s = .next t ∧ t.mem = s.mem ∧ t.group? g.id = some h ∧ h.pend? p.id = none ∧
      ∀ n live, p.vdst[e]? = some (n, live) → g.mapped n = true → ∀ l, l < 64 → (g.laterLanes p n).getLsbD l = false →
        h.vLane n l = if (live &&& m).getLsbD l then nth vals l 0 else g.vLane n l) ∧
  -- MLOADB: every cell, exponent and mark of the regions it loads; the others stay
  (∀ (s s' : State) (tm : Team) (w0 w1 : Word), s.team? tm.id = some tm → s.mloadb tm w0 w1 = .ok s' →
    let m := opMap (leValue (s.scratchRead tm (bits w0.toNat 18 0) 32))
    let k0 := bits w1.toNat 2 0
    let n0 := bits w1.toNat 11 8
    ∃ tm', s'.team? tm.id = some tm' ∧ s' = { s with teams := s'.teams } ∧ ∀ plane k n,
      let loads := plane = bits w1.toNat 16 16 ∧ k0 ≤ k ∧ k ≤ k0 + bits w1.toNat 6 4 ∧ n0 ≤ n ∧ n ≤ n0 + bits w1.toNat 15 12
      let r := tm'.region plane k n
      (¬ loads → r = tm.region plane k n) ∧
      (loads → r.integer = decide (m.fmt = 6) ∧ ∀ j, j < 32 →
        let col := fun (i : Nat) => s.mapElem tm m (32 * (n - n0) + j) (32 * (bits w1.toNat 31 20 + (k - k0)) + i)
        let top := nth r.eb j 0
        (m.fmt = 6 → ∀ i, i < 32 → nth r.cells (32 * i + j) 0 = (col i).asInt) ∧
        (m.fmt ≠ 6 →
          (nth r.exceptional j false = true ↔ ∃ i, i < 32 ∧ (col i).special = true) ∧
          (∀ i n v e, i < 32 → col i = .fin n v e → v ≠ 0 → e + (Nat.log2 v : Int) ≤ top) ∧
          ((∃ i n v e, i < 32 ∧ col i = .fin n v e ∧ v ≠ 0) →
            ∃ i n v e, i < 32 ∧ col i = .fin n v e ∧ v ≠ 0 ∧ e + (Nat.log2 v : Int) = top) ∧
          ∀ i n v e, i < 32 → col i = .fin n v e → nth r.cells (32 * i + j) 0 =
            sgn n (if 0 ≤ e + 7 - top then v * 2 ^ (e + 7 - top).toNat else v / 2 ^ (top - 7 - e).toNat)))) ∧
  -- MLOOP: every cell that it accumulates; the others stay
  (∀ (s s' : State) (tm : Team) (w0 w1 w2 w3 q : Word), s.team? tm.id = some tm → s.mloop tm [w0, w1, w2, w3] q = .ok s' →
    let m := opMap (leValue (s.scratchRead tm (bits w0.toNat 18 0) 32))
    let row0 := bits w1.toNat 13 8
    let plane := bits w3.toNat 16 16
    let n0 := bits w3.toNat 11 8
    let kr := bits w3.toNat 6 4 + 1
    let place := fun (c : Nat) => (if tm.loftMode = 2 then 256 * plane else 0) + 32 * n0 + c
    let groups := (upto (bits w2.toNat 3 0)).flatMap (fun step => (upto kr).map (fun i => (step, i)))
    let a := fun (r : Nat) (g : Nat × Nat) (i : Nat) =>
      s.mapElem tm m r (32 * (bits w2.toNat 31 16 + g.1 * bits w2.toNat 15 8 + g.2) + i)
    let region := fun (c : Nat) (g : Nat × Nat) => tm.region plane (bits w3.toNat 2 0 + g.1 * kr + g.2) (n0 + c / 32)
    let cell := fun (c : Nat) (g : Nat × Nat) (i : Nat) => nth (region c g).cells (32 * i + c % 32) 0
    let start := fun (r c : Nat) => if w3.getLsbD 20 then tm.accCell (row0 + r) (place c) else 0
    ∃ tm', s'.team? tm.id = some tm' ∧ s' = { s with teams := s'.teams } ∧
      (∀ row col, col < 512 → (∀ r c, r < bits w1.toNat 7 0 → c < 32 * (bits w3.toNat 15 12 + 1) →
        row ≠ row0 + r ∨ col ≠ place c) → tm'.accCell row col = tm.accCell row col) ∧
      ∀ r c, r < bits w1.toNat 7 0 → c < 32 * (bits w3.toNat 15 12 + 1) →
        (m.fmt = 6 → tm'.accCell (row0 + r) (place c) = groups.foldl (fun v g =>
          BitVec.ofInt 32 (v.toInt + ((upto 32).map (fun i => (a r g i).asInt * cell c g i)).sum)) (start r c)) ∧
        (m.fmt ≠ 6 → tm'.accCell (row0 + r) (place c) = groups.foldl (fun v g =>
          let row := dotAlign m.wBits ((upto 32).map (a r g))
          let sum := ((upto 32).map (fun i => nth row.2 i 0 * cell c g i)).sum
          let total := if (upto 32).any (fun i => (a r g i).special) || nth (region c g).exceptional (c % 32) false then 0x7FC00000
            else rne32 (decide (sum < 0)) sum.natAbs (row.1 - m.wBits + 1 + nth (region c g).eb (c % 32) 0 - 7)
          add32 v (mul32 total q)) (start r c))) ∧
  -- MDRAIN: the bytes of its rows, where no two of them overlap; the others stay
  (∀ (s s' : State) (tm : Team) (w0 w1 w2 : Word), s.team? tm.id = some tm → Memory.wf tm.scratch = true →
    s.mdrain tm w0 w1 w2 = .ok s' →
    let x := w2.toNat
    let n := match bits x 26 24 with
      | 1 => 2 | 2 => 2 | 3 => 1 | 4 => 1 | _ => 4
    let rows := bits x 13 8 + 1
    let cols := 32 * (bits x 23 20 + 1)
    let at_ := fun (i : Nat) => bits w0.toNat 18 0 + i * bits w1.toNat 18 0
    rows = 1 ∨ cols * n ≤ bits w1.toNat 18 0 →
    ∃ tm', s'.team? tm.id = some tm' ∧ tm'.acc = tm.acc ∧
      (∀ i c b, i < rows → c < cols → b < n →
        let w := tm.accCell (bits x 5 0 + i) (32 * bits x 19 16 + c)
        let v := match bits x 26 24 with
          | 0 => w.toNat
          | 1 => (toFloat .fp16 0 (x.testBit 27) (f32 w)).1
          | 2 => (toFloat .bf16 0 (x.testBit 27) (f32 w)).1
          | 3 => (toFloat .e4m3 0 (x.testBit 27) (f32 w)).1
          | 4 => (toFloat .e5m2 0 (x.testBit 27) (f32 w)).1
          | _ => (toFloat .fp32 0 (x.testBit 27) (intVal w.toInt)).1
        s'.scratchByte tm' (at_ i + n * c + b) = BitVec.ofNat 8 (v / 2 ^ (8 * b))) ∧
      ∀ o, (∀ i, i < rows → o < at_ i ∨ at_ i + cols * n ≤ o) → s'.scratchByte tm' o = s.scratchByte tm o) ∧
  -- VXM: a lane of its results, and p6
  (∀ (s : State) (g : Group) (p : Pend) (c : Context) (d a : Fin 64) (last : Bool) (b : Src), s.group? g.id = some g →
    g.pend? p.id = some p → p.instr = .vxm d a last b → p.due = [] → p.sdst = [] → s.contextOf g = some c → g.atRest = true →
    let off := fun (l : Nat) => p.op g .control 16 l
    let null := fun (l : Nat) => off l = 0xFFFFFFFF
    let checks := ((lanesIn p.lmask).filter (fun l => decide (¬ null l))).map (fun l =>
      (l, s.checkAccess g.core c (p.xcap.getD {}) .load true 64 2048 (off l).toNat))
    let s1 := s.markLanes g.core c.id false checks
    (∀ e ∈ checks, ∃ runs leaves, e.2 = .ok runs leaves) → (p.vdst.map (fun e => e.1)).Nodup →
    ∀ h, (s.vxm g p 0).group? g.id = some h →
      (∀ l, l < 64 → h.pbit 6 l = if p.lmask.getLsbD l then decide (¬ null l) else g.pbit 6 l) ∧
      ∀ k n live l, k < 16 → p.vdst[k]? = some (n, live) → g.mapped n = true → l < 64 → (live &&& p.lmask).getLsbD l = true →
        (g.laterLanes p n).getLsbD l = false →
        (null l → h.vLane n l = 0) ∧
        ∀ runs leaves, (l, .ok runs leaves) ∈ checks →
          let bytes := s1.readRuns runs
          let xs := (upto 32).map (fun i => FFmt.fp16.value (elemNat (p.op g .control (i / 2) l) 16 (i % 2)))
          let ws := fun (j : Nat) => (upto 32).map (fun i => FFmt.fp16.value (leValue ((bytes.drop (2 * (32 * i + j))).take 2)))
          let out := fun (j : Nat) =>
            let x := dotAlign 16 xs
            let w := dotAlign 8 (ws j)
            let sum := ((upto 32).map (fun i => nth x.2 i 0 * nth w.2 i 0)).sum
            if xs.any FVal.special || (ws j).any FVal.special then 0x7E00
            else (roundFin .fp16 (modeRnd p.mode) (modeSat p.mode) (decide (sum < 0)) sum.natAbs (x.1 - 15 + (w.1 - 7)) false).1
          h.vLane n l = ofElems 16 [out (2 * k), out (2 * k + 1)]) ∧
  -- an optimisation
  (∀ (s : State) (die : Nat) (j : OptJob) (rest : List OptJob) (y : Yealm), die < s.dies.length →
    (s.dieAt die).optQueue = j :: rest → s.yealms.find? (fun y => y.id = j.yealm) = some y → s.dieHeld die = false →
    (∀ c ∈ s.contexts, c.id = j.ctx → c.spentOut (.composer die) = false) →
    let i : Instr := .composeOptimise die
    let wrote := fun (t : State) (l : List (Nat × List Byte)) =>
      t.mem = (l.foldl (fun s e => s.writeYealm j.runs e.1 e.2) s).mem
    let goes := fun (l : List (Nat × List Byte)) => ∃ t, exec i s = .next t ∧ wrote t l ∧
      (t.dieAt die).optQueue = { j with step := j.step + 1 } :: rest
    let ends := fun (i : Instr) (n : Nat) => ∃ t, exec i s = .next t ∧ wrote t [(12, leBytes 4 n)] ∧
      (t.dieAt die).optQueue = rest
    (∀ b, composedBody y (composeSeed y.vs y.fs y.frags) = some b →
      let past := b.off + 4 * b.words.length
      (j.step = 0 → past ≤ j.outLen → goes [(b.off, b.words.flatMap (fun w => leBytes 4 w.toNat))] ∧
        ∀ t, exec i s = .next t → ∃ z ∈ t.yealms, z.id = y.id ∧ z.comp = some b) ∧
      (j.step = 0 → j.outLen < past → ends i 5) ∧
      (j.step = 1 → goes [(4, leBytes 4 (encode (.bra (BitVec.ofNat 24 ((b.off - 4) / 4)))).toNat)]) ∧
      (j.step = 2 → goes [(20, leBytes 4 b.off), (28, leBytes 4 past)]) ∧
      (3 ≤ j.step → ends i 1)) ∧
    (composedBody y (composeSeed y.vs y.fs y.frags) = none → ends i 2) ∧
    (j.step = 0 → (∀ z ∈ s.yealms, z.id = j.yealm → isListing z.vs z.fs z.frags = false) →
      ends (.optimiseBoundExpiry die) 2)) ∧
  -- Listing 19.3
  (composedSegments =
    [[.clauseStart 0 none none 14, .mode 0x0003, .movi true (.s 48) 0x0001, .movi true (.s 49) 0x0002,
      .movi true (.s 50) 0x0001, .movi true (.s 51) 0x0000, .movi true (.s 52) 0x000F, .movi true (.s 8) 0x3152,
      .movhi true (.s 8) 0x8764, .movi true (.s 9) 0xECB9, .movhi true (.s 9) 0x0F5A, .icmp true .tr 4 (.const 0) (.const 0),
      .mode 0x4003, .movi true (.s 10) 0x3152, .movhi true (.s 10) 0x8764, .mode 0x0003, .clauseStart 0 none none 5,
      .movi true (.s 11) 0x0002, .movi true (.s 11) 0x0002, .movi true (.s 11) 0x0008, .movi true (.s 53) 0x6431,
      .movhi true (.s 53) 0x0087, .movi true (.s 53) 0x0001],
     [.clauseStart 0 (some 10) none 7, .mode 0x0603, .iadd false (.v 49) (.v 48) (.const 16),
      .iadd false (.v 50) (.v 49) (.const 16), .iadd false (.v 51) (.v 50) (.const 8),
      .ld false (.v 0) 4 .w128 .normal (.v 48), .ld false (.v 4) 4 .w128 .normal (.vLast 49),
      .ld false (.v 8) 4 .w64 .normal (.vLast 50), .ld false (.v 10) 4 .w32 .normal (.vLast 51),
      .clauseStart 0x400 none none 0, .call 0, .clauseStart 0 none (some 11) 3, .mode 0x0603,
      .iadd false (.v 53) (.v 52) (.s 55), .sts false (.v 0) .team .w128 (.v 52), .sts false (.v 4) .team .w128 (.vLast 53)],
     [.clauseStart 0 (some 10) none 6, .mode 0x0603, .iadd false (.v 56) (.v 55) (.s 55),
      .iadd false (.v 57) (.v 56) (.const 16), .iadd false (.v 58) (.v 57) (.const 16),
      .lds false (.v 0) .team .w128 (.vLast 56), .lds false (.v 4) .team .w128 (.vLast 57),
      .lds false (.v 8) .team .w128 (.vLast 58), .clauseStart 0x400 none none 8, .mode 0x0600,
      .fsub false (.v 4) (.vLast 4) (.v 0), .fsub false (.v 5) (.vLast 5) (.v 1), .fsub false (.v 6) (.vLast 6) (.v 2),
      .fsub false (.v 7) (.vLast 7) (.v 3), .fsub false (.v 8) (.vLast 8) (.v 0), .fsub false (.v 9) (.vLast 9) (.v 1),
      .fsub false (.v 10) (.vLast 10) (.v 2), .fsub false (.v 11) (.vLast 11) (.v 3), .clauseStart 0 none (some 11) 6,
      .mode 0x0603, .iadd false (.v 59) (.v 55) (.s 57), .iadd false (.v 60) (.v 59) (.const 16),
      .iadd false (.v 61) (.v 60) (.const 16), .sts false (.v 0) .team .w128 (.vLast 59),
      .sts false (.v 4) .team .w128 (.vLast 60), .sts false (.v 8) .team .w128 (.vLast 61)],
     [.clauseStart 0 none none 4, .mode 0x0003, .movi false (.v 60) 0x0000, .icmp true .tr 3 (.const 0) (.const 0),
      .mode 0x0703, .movi false (.v 60) 0x0001, .clauseStart 0 none none 11, .mode 0x0700, .fcmp false .lt 1 (.v 56) (.v 57),
      .fcmp false .eq 2 (.v 56) (.v 57), .fcmp false .gt 3 (.v 56) (.v 57), .mode 0x3703,
      .sel false (.v 59) (.const 2) (.const 3), .mode 0x2703, .sel false (.v 59) (.const 1) (.vLast 59), .mode 0x1703,
      .sel false (.v 59) (.const 0) (.vLast 59), .shr false (.v 60) (.s 53) (.vLast 59), .andi false (.v 60) 0x0001,
      .clauseStart 0 none none 1, .mode 0x0003, .icmp false .ne 6 (.vLast 60) (.const 0)],
     [.clauseStart 0 none none 2, .mode 0x0003, .icmp true .fl 3 (.const 0) (.const 0), .bra 3, .clauseStart 0 none none 0,
      .call 0, .clauseStart 0 none none 1, .mode 0x0003, .icmp true .tr 3 (.const 0) (.const 0), .clauseStart 0 none none 1,
      .mode 0x0600, .mov false (.v 57) (.v 56)]].map (fun l => l.map encode)) ∧
  (∀ f : Fragments, composedVertex f listingVs (keptSlots listingVs listingFs) =
    ([.clauseStart 0 none none 1, .mode 0x0000, .ret] : List Instr).map encode) ∧
  ∀ (k : Known) (w : Word), (∀ i, decoded w = some i → k.eval i = none) → foldWord k w = [w]

/-- R235 to R242, R327, R346: the fetch of a copy list gives its core its requests, unless the list is misaligned, passes the
window or is poisoned; a request performs piece by piece at core scope, and its pieces reach their coherence point one by one; one
that is performed at its scope signals its word or counts its object down, unless that is poisoned; a new period clears what contexts
have spent. The model's choices in it: log 18 for what `copyHeld` and `drainCopy` make of core scope and wider ones, log 20 for the
order of the pieces, log 49 for the start of a period. -/
def Obligations.CopyRequestsArePerformed : Prop :=
  (∀ (s : State) (g : Group) (p : Pend) (tm : Team) (c : Context) (u : Bool) (a b : Src),
    s.group? g.id = some g → g.pend? p.id = some p → p.status = .inFlight → s.team? g.team = some tm →
    s.contextOf g = some c → p.instr = .ckick u a b → g.mayPerform p = true →
    let i : Instr := .copyRequestFetch g.id p.id
    let off := (p.op g .control 0 (lowestLane p.lmask)).toNat
    let n := (p.op g .control 1 (lowestLane p.lmask)).toNat
    let fault := fun (cs : Cause) => s.faultPend g p
      { cause := cs, fmask := maskFrom [lowestLane p.lmask], faddr := BitVec.ofNat 64 off }
    (off % 64 ≠ 0 → exec i s = .next (fault .misalign)) ∧
    (off % 64 = 0 → n = 0 ∨ 64 < n ∨ tm.scratchSize < off + 64 * n → exec i s = .next (fault .bounds)) ∧
    (off % 64 = 0 → 0 < n → n ≤ 64 → off + 64 * n ≤ tm.scratchSize → tm.poisoned off (64 * n) = true → exec i s =
      .next (s.faultPend g p { cause := .poison, sub := 0xFF, fmask := maskFrom [lowestLane p.lmask],
                               faddr := BitVec.ofNat 64 off })) ∧
    (off % 64 = 0 → 0 < n → n ≤ 64 → off + 64 * n ≤ tm.scratchSize → tm.poisoned off (64 * n) = false →
      let reqs : List CopyReq := (upto n).map (fun i =>
        let x : BitVec 512 := BitVec.ofNat 512 (leValue (s.scratchRead tm (off + 64 * i) 64))
        { id := s.fresh + i, ctx := c.id, grid := g.grid, team := tm.id, group := g.id, half := p.half, offset := off + 64 * i,
          bits := x, src := (c.slot (bits x.toNat 15 0)).1, dst := (c.slot (bits x.toNat 63 48)).1,
          gaps := [(0, (bits x.toNat 143 128 + 1) * (bits x.toNat 159 144 + 1) * bits x.toNat 127 96)] })
      kickFate c tm 0 reqs = none →
        exec i s = .next (({ s.setCore g.core { s.coreAt g.core with copies := (s.coreAt g.core).copies ++ reqs } with
          fresh := s.fresh + n } : State).completePend g.id p.id))) ∧
  (∀ (s : State) (core req part : Nat) (r : CopyReq) (c : Context) (tm : Team), s.copyReq? core req = some r →
    s.context? r.ctx = some c → s.team? r.team = some tm → r.service = none →
    (r.delivered = false → s.copyHeld core req = false →
      exec (.copyRequestPerform core req) s = .next (s.nextFree.copyPiece core c tm r)) ∧
    (r.delivered = false → s.copyHeld core req = true →
      exec (.copyRequestPerform core req) s = .next (s.nextFree.copyPiece core c tm r) ∨
      exec (.copyRequestPerform core req) s = .next (s.nextFree.drainCopy core req)) ∧
    (r.delivered = true → exec (.copyRequestPerform core req) s = .next (s.nextFree.drainCopy core req)) ∧
    let ended := r.scope = 3 ∨ s.copyHeld core req = false
    (r.delivered = true → ¬ ended → exec (.copyCompletion core req part) s = .next s) ∧
    (r.delivered = true → ended → r.map = true → r.mapDone = false →
      exec (.copyCompletion core req part) s = .next (s.mapUpdate core c r)) ∧
    (r.delivered = true → ended → r.map = false ∨ r.mapDone = true → r.signals = true →
      s.engineTcopy tm r.sigOff 4 = none →
      exec (.copyCompletion core req part) s =
        .next ((s.scratchWrite tm.id r.sigOff (leBytes 4 (r.f 351 320))).dropCopyReq core r)) ∧
    (r.delivered = true → ended → r.map = false ∨ r.mapDone = true → r.signals = false →
      s.engineTcopy tm r.sigOff 12 = none → tm.poisoned r.sigOff 12 = true →
      exec (.copyCompletion core req part) s =
        .next (s.stopCopy core r { cause := .poison, sub := 0xFF, faddr := BitVec.ofNat 64 r.sigOff })) ∧
    (r.delivered = true → ended → r.map = false ∨ r.mapDone = true → r.signals = false →
      s.engineTcopy tm r.sigOff 12 = none → tm.poisoned r.sigOff 12 = false →
      let left := r.dstBytes r.total - r.counted
      let n := min (max part 1) left
      let s' := s.scratchWrite tm.id r.sigOff (leBytes 12 (countDown (leValue (s.scratchRead tm r.sigOff 12)) n))
      exec (.copyCompletion core req part) s =
        .next (if n = left then s'.dropCopyReq core r else s'.setCopyReq core { r with counted := r.counted + n }))) ∧
  ∀ s : State, exec .budgetPeriod s = .next { s with contexts := s.contexts.map (fun c => { c with spent := [] }) }

/-- R199 to R201, Table 11.4: an entry of the gutter, the oldest of its core, is written at GUTHEAD modulo the ring's size and
GUTHEAD rises by one; GUTTAIL is written where the ring then holds at most its size, and the core filters forget the context;
GUTHEAD only while it equals GUTTAIL; GUTOVF always. -/
def Obligations.GutterEntriesAndItsCounts : Prop :=
  ∀ (s : State) (ctx core : Nat) (c : Context) (v : Word), s.context? ctx = some c →
    (∀ before id q rest, c.gutPending = before ++ (id, core, q) :: rest → (∀ e ∈ before, e.2.1 ≠ core) → s.dieHeld (core / 64) = false →
      exec (.gutterEntryPerformed ⟨ctx, core⟩) s =
        .next ((s.writeBytes (c.gutBase + 16 * (c.guthead.toNat % c.gutSize))
          (leBytes 16 (q ||| BitVec.ofNat 128 (c.guthead.toNat % 65536 * 2 ^ 112)).toNat)).setContext
            { c with gutPending := before ++ rest, guthead := c.guthead + 1 })) ∧
    ((∀ e ∈ c.gutPending, e.2.1 ≠ core) → exec (.gutterEntryPerformed ⟨ctx, core⟩) s = .next s) ∧
    (c.gutSize < (c.guthead - v).toNat → exec (.guttail ctx v) s = .next s) ∧
    ((c.guthead - v).toNat ≤ c.gutSize → ∃ t, exec (.guttail ctx v) s = .next t ∧
      t = { s.setContext { c with guttail := v } with cores := t.cores } ∧
      t.cores = s.cores.map (fun k => { k with filter := k.filter.filter (fun f => f.ctx ≠ ctx) })) ∧
    (c.guthead = c.guttail → c.gutPending = [] → exec (.guthead ctx v) s = .next (s.setContext { c with guthead := v })) ∧
    (c.guthead ≠ c.guttail ∨ c.gutPending ≠ [] → exec (.guthead ctx v) s = .next s) ∧
    exec (.gutovf ctx v) s = .next (s.setContext { c with gutovf := v })

/-! ### Launches, groups and time -/

/-- R98, R99, R134, R135, R313, R324, R325: of the records from which a core may start a team, those of its deque and those that the
management cores hold among them, it starts the first in rank that can start: with its first cluster on a rectangle where its teams
fit, a draw's on the die of its region and in its tile's turn, and behind a saved team of an earlier rank. Reserved queues rank by
their deadlines, best-effort work behind them by its launch. An idle core takes the upper half of the record at the tail of the first
victim's deque that it may rob. The model's choices in it: log 11, 22, 36 and 37. -/
def Obligations.TeamsStartAndAreStolen : Prop :=
  (∀ (s : State) (core n : Nat) (rank : List Nat) (place : RecordPlace) (r : DequeRecord) (d : Grid) (cs : List Nat)
     (before after : List (List Nat × RecordPlace × Nat × DequeRecord)),
    s.startable core = before ++ (rank, place, n, r) :: after → (∀ e ∈ before, s.startRecord core e = none) →
    s.grid? r.grid = some d → rectangle core d.lpb = some cs → (∀ k ∈ cs, s.fits k d = true) →
    r.die = none ∨ r.die = some (core / 64) → s.tileTurn d (core / 64) r.first = true → s.savedFirst core rank = false →
    let left := if r.count ≤ 1 then [] else [{ r with first := r.first + 1, count := r.count - 1 }]
    let cut := fun (l : List DequeRecord) => l.take n ++ left ++ l.drop (n + 1)
    (place = .deque → exec (.teamStart core) s =
      .next ((s.setCore core { s.coreAt core with deque := cut (s.coreAt core).deque }).startCluster d r.first cs)) ∧
    (place = .placements → exec (.teamStart core) s =
      .next ({ s with placements := cut s.placements }.startCluster d r.first cs)) ∧
    (∀ c, place = .overflow c.id → s.context? c.id = some c → exec (.teamStart core) s =
      .next ((s.setContext { c with overflow := cut c.overflow }).startCluster d r.first cs)) ∧
    (place = .deque → cs = [core] → core < s.cores.length →
      ∃ t tm, exec (.teamStart core) s = .next t ∧ t.mem = s.mem ∧ tm ∈ t.teams ∧ tm.grid = d.id ∧ tm.core = core ∧
        tm.id = s.fresh ∧ (t.coreAt core).deque = cut (s.coreAt core).deque)) ∧
  (∀ (s : State) (core : Nat), (∀ e ∈ s.startable core, s.startRecord core e = none) → exec (.teamStart core) s = .next s) ∧
  -- what keeps a record from starting
  (∀ (s : State) (core n : Nat) (rank : List Nat) (place : RecordPlace) (r : DequeRecord) (d : Grid), s.grid? r.grid = some d →
    (s.startRecord core (rank, place, n, r) = none ↔
      ¬ (∃ cs, rectangle core d.lpb = some cs ∧ ∀ k ∈ cs, s.fits k d = true) ∨ (r.die ≠ none ∧ r.die ≠ some (core / 64)) ∨
        s.tileTurn d (core / 64) r.first = false ∨ s.savedFirst core rank = true)) ∧
  -- the records of a core in the order of their rank
  (∀ (s : State) (core : Nat),
    (s.startable core).Pairwise (fun e f => rankBefore f.1 e.1 = false) ∧
    (∀ n r, (s.coreAt core).deque[n]? = some r →
      (((s.grid? r.grid).map s.rank).getD [], RecordPlace.deque, n, r) ∈ s.startable core) ∧
    ∀ n r, s.placements[n]? = some r →
      (((s.grid? r.grid).map s.rank).getD [], RecordPlace.placements, n, r) ∈ s.startable core) ∧
  (∀ (s : State) (d : Grid) (c : Context) (q : Queue), s.context? d.ctx = some c →
    c.queues.find? (fun q => q.id = d.lpb.queue) = some q →
    let ns := 1000 * q.period.toNat
    s.rank d = if q.period ≠ 0 ∧ q.overrun = false ∧ q.consumed < 1000 * q.budget.toNat
      then [0, (s.clock.toNat / ns + 1) * ns, d.ctx, d.lpb.queue] else [1, d.launch]) ∧
  (∀ (s : State) (core v : Nat) (before after : List Nat) (r : DequeRecord), (s.coreAt core).deque = [] →
    (s.coreAt core).absent = false → stealOrder core = before ++ v :: after →
    (∀ x ∈ before, (s.coreAt x).deque = []) → (s.coreAt v).deque.getLast? = some r → (s.coreAt v).absent = false →
    s.stealable core r = true →
    let kept := if r.count ≤ 1 then [] else [{ r with count := (r.count + 1) / 2 }]
    let taken := if r.count ≤ 1 then r
      else { r with first := r.first + (r.count + 1) / 2, count := r.count - (r.count + 1) / 2 }
    let s' := s.setCore v { s.coreAt v with deque := (s.coreAt v).deque.dropLast ++ kept }
    exec (.steal core) s = .next (s'.setCore core { s'.coreAt core with deque := taken :: (s'.coreAt core).deque })) ∧
  ∀ (s : State) (core : Nat), (s.coreAt core).deque ≠ [] → exec (.steal core) s = .next s

/-- R109, R112, R144, R150, R151, R314, R315: an active group that waits long changes places with the oldest pending one that
can issue, a starving one with the stalest; an evicted or pre-empted group keeps its state in its save area and comes back to
a slot that has its registers; a sheaf that a group misses is put into its core's store; work of a reserved queue takes a core from
teams that rank behind it, and from no others; a saved team comes back to its places, behind work of an earlier rank.
The model's choices in it: log 30, 31 and 32. -/
def Obligations.GroupsAndTeamsChangePlaces : Prop :=
  (∀ (s : State) (g h : Group), s.group? g.id = some g → s.oldestPending g.core (g.index % 4) = some h → g.res = .active →
    s.longWait g = true → exec (.groupExchange g.id h.id) s = .next { s with groups := s.groups.map (fun x =>
      if x.id = g.id then { x with res := .pending } else if x.id = h.id then { x with res := .active } else x) }) ∧
  (∀ (s : State) (g h : Group), s.group? g.id = some g → g.res = .pending → s.hasEligible g = true →
    stalest ((s.slotGroups g.core (g.index % 4)).filter (fun h => h.res = .active)) = some h →
    exec (.starvationTimeout g.id) s = .next { s with groups := s.groups.map (fun x =>
      if x.id = h.id then { x with res := .pending } else if x.id = g.id then { x with res := .active } else x) }) ∧
  (∀ (s : State) (core slot : Nat) (g : Group), s.poolVictim core slot = some g →
    (∃ t, exec (.groupEvict core slot) s = .next t ∧ ∀ h, t.group? g.id = some h → h.res = .evicted) ∧
    (s.quiet = true → exec (.groupEvict core slot) s = .next { s with groups := s.groups.map (fun x =>
      if x.id = g.id then { x with res := .evicted, awayUntil := 0, hungry := false } else x) })) ∧
  (∀ (s : State) (g : Group) (tm : Team), s.group? g.id = some g → s.team? g.team = some tm → g.resident = false →
    tm.preempted = false → g.awayUntil ≤ s.clock.toNat → (s.coreAt g.core).absent = false →
    s.slotPlaces g.core (g.index % 4) < 16 → max g.footprint g.roomFor ≤ s.poolFree g.core (g.index % 4) →
    s.sectorEntries g.core + sectorsBack g.pend ≤ 2048 →
    exec (.groupReturn g.id) s = .next (s.restoreGroup g g.core .pending) ∧
    ∃ t h, exec (.groupReturn g.id) s = .next t ∧ t.group? g.id = some h ∧ h.res = .pending ∧ h.core = g.core ∧
      h.p = g.p ∧ h.slot0.isSome = g.slot0.isSome ∧ h.slot1.isSome = g.slot1.isSome ∧
      ∀ n l, h.vLane n l = g.vLane n l) ∧
  (∀ (s : State) (core sheaf : Nat), (s.sheaf? sheaf).isSome → core < s.cores.length →
    (s.coreAt core).store.length < 8 → (s.coreAt core).store.contains sheaf = false →
    ∃ t, exec (.sheafMiss core sheaf) s = .next t ∧ t.mem = s.mem ∧
      (t.coreAt core).store = sheaf :: (s.coreAt core).store) ∧
  -- pre-emption, by work of a reserved queue alone, of what it needs of a core
  (∀ (s : State) (core : Nat) (w : Incoming) (gs ts : List Nat), core < 256 → w ∈ s.incoming core →
    s.victims core w = some (gs, ts) →
    exec (.preempt gs ts) s = .next (ts.foldl State.saveTeam (gs.foldl (fun s n => s.saveGroup n .preempted 0) s))) ∧
  (∀ (s : State) (gs ts : List Nat), (∀ core, core < 256 → ∀ w ∈ s.incoming core, s.victims core w ≠ some (gs, ts)) →
    exec (.preempt gs ts) s = .next s) ∧
  (∀ (s : State) (core : Nat) (w : Incoming) (gs ts : List Nat), s.victims core w = some (gs, ts) →
    let after := fun (tm : Team) => tm.core = core ∧ tm.preempted = false ∧ tm.ended = false ∧
      ∃ d, s.grid? tm.grid = some d ∧ rankBefore w.rank (s.rank d) = true
    w.rank.head? = some 0 ∧ (gs ≠ [] ∨ ts ≠ []) ∧ (∀ n ∈ ts, ∃ tm ∈ s.teams, tm.id = n ∧ after tm) ∧
      ∀ n ∈ gs, ∃ g ∈ s.groups, g.id = n ∧ g.resident = true ∧ ∃ tm ∈ s.teams, g.team = tm.id ∧ after tm) ∧
  (∀ (s : State) (n : Nat), s.quiet = true → s.saveGroup n .preempted 0 = { s with groups := s.groups.map (fun x =>
    if x.id = n then { x with res := .preempted, awayUntil := 0, hungry := false } else x) }) ∧
  (∀ (s : State) (n : Nat) (tm : Team), s.team? n = some tm → s.quiet = true →
    (s.saveTeam n).groups = s.groups.map (fun g => if g.team = n then
      { g with res := if g.resident then .preempted else .evicted, hungry := false } else g) ∧
    ∃ tm', (s.saveTeam n).team? n = some tm' ∧ tm'.preempted = true ∧ tm'.scratch = tm.scratch ∧ tm'.acc = tm.acc ∧
      tm'.loft = tm.loft ∧ tm'.tagTab = tm.tagTab) ∧
  ∀ (s : State) (n k : Nat) (tm : Team) (d : Grid), s.team? n = some tm → tm.preempted = true → s.placesFor tm = some [(tm, k)] →
    s.grid? tm.grid = some d →
    let first := fun (w : Incoming) => rankBefore w.rank (s.rank d) = true ∧ s.fitsBut k w.grid w.frozen w.but = true
    ((∃ w ∈ s.incoming k, first w) → exec (.switchIn n) s = .next s) ∧
    ((∀ w ∈ s.incoming k, ¬ first w) → exec (.switchIn n) s = .next (s.restoreTeam tm k) ∧
      ∃ t tm', exec (.switchIn n) s = .next t ∧ t.team? n = some tm' ∧ tm'.preempted = false ∧ tm'.core = k)

/-- R114, R301, R302, R304, R313, R316: a watchdog period, before which a group without an eligible path on its core counts no more
as starved; an overrun, with a core on which the queue has teams, a new period, and a write of a queue's period or budget; a half's
fault stops its other path; an answer to a service replays the access, or the trap is forwarded unserviced. The model's choices in it:
log 45 for the writes, log 51, 52, 53, 57 and 65. -/
def Obligations.TimersAndServices : Prop :=
  (∀ (s : State) (core slot : Nat) (g : Group) (d : Grid) (c : Context), busiest (s.slotGroups core slot) = some g →
    s.grid? g.grid = some d → s.contextOf g = some c →
    (s.slotGroups core slot).any (fun h => h.hungry && decide (h.issued = 0) && s.hasEligible h) = true →
    let s1 : State := { s with log := s.log ++ [.watchdog c.id d.lpb.queue core slot g.id s.clock] }
    let s2 : State := { s1 with
      groups := s1.groups.map (fun h => if h.core = core ∧ h.index % 4 = slot then
        { h with issued := 0, hungry := s1.hasEligible h } else h) }
    (c.watchdogAction = 0 → exec (.watchdog core slot g.id) s = .next s2) ∧
    (c.watchdogAction = 1 → exec (.watchdog core slot g.id) s =
      .next (s2.saveGroup g.id .evicted (s.clock.toNat + 1000000 * c.watchdogMs))) ∧
    (c.watchdogAction = 2 → exec (.watchdog core slot g.id) s = .next (s2.endGrid g.grid 2))) ∧
  (∀ (s : State) (ctx queue : Nat) (q : Queue), s.queue? ctx queue = some q →
    (q.period ≠ 0 → 1000 * q.budget.toNat < q.consumed → q.overrun = false → ∃ t core, exec (.overrun ctx queue) s = .next t ∧
      (core ∈ s.queueCores ctx queue ∨ (s.queueCores ctx queue = [] ∧ core = 0)) ∧
      t.log = s.log ++ [.overrun ctx queue (core / 64) core s.clock] ∧
      t = { s with log := t.log, contexts := t.contexts, freeCount := s.freeCount + 1 } ∧
      t.contexts = (s.mapQueue ctx queue (fun q => { q with overrun := true })).contexts) ∧
    (q.period = 0 ∨ q.consumed ≤ 1000 * q.budget.toNat ∨ q.overrun = true → exec (.overrun ctx queue) s = .next s) ∧
    exec (.periodStart ctx queue) s = .next (s.mapQueue ctx queue (fun q => { q with consumed := 0, overrun := false })) ∧
    (∀ k, k ∈ s.queueCores ctx queue ↔ ∃ tm d, tm ∈ s.teams ∧ tm.core = k ∧ tm.ended = false ∧ tm.preempted = false ∧
      s.grid? tm.grid = some d ∧ d.ctx = ctx ∧ d.lpb.queue = queue)) ∧
  (∀ (s : State) (ctx queue : Nat) (budget : Bool) (value : Word), exec (.queueWrite ctx queue budget value) s =
    .next (s.mapQueue ctx queue (fun q =>
      let period := if budget = false ∧ (value = 0 ∨ (10 ≤ value.toNat ∧ value.toNat ≤ 1000000)) then value else q.period
      { q with
        period := period
        budget := BitVec.ofNat 32 (min (if budget then value else q.budget).toNat (256 * period.toNat)) }))) ∧
  (∀ s : State, s.sated = { s with groups := s.groups.map (fun h =>
    if h.hungry = true ∧ ¬ (h.resident = true ∧ s.hasEligible h = true) then { h with hungry := false } else h) }) ∧
  (∀ (s : State) (g : Group) (slot : Nat), s.group? g.id = some g →
    (g.faulting (g.half slot) = true → exec (.pathStopTimeout g.id slot) s =
      .next (s.setGroup (g.setSlot slot ((g.slot slot).map (fun p => { p with stopped := true }))))) ∧
    (g.faulting (g.half slot) = false → exec (.pathStopTimeout g.id slot) s = .next s)) ∧
  ∀ (s : State) (g : Group) (p : Pend) (c : Context) (tr : Trap) (a : ServiceAnswer), s.group? g.id = some g →
    g.pend? p.id = some p → s.contextOf g = some c → p.status = .service tr → p.instr ≠ .nop → p.instr ≠ .tret →
    ((s.answered c tr a).2 = true →
      let r := (s.answered c tr a).1.checkPend g { p with status := .inFlight, served := some tr }
      tr.againIn r.1.status = false → r.1.isFaulted = false →
      exec (.serviceResponse g.id p.id a) s = .next (r.2.setGroup (g.setPend (p.keepTodo r.1)))) ∧
    (let s' := (s.answered c tr a).1
     (s.answered c tr a).2 = false ∨
        tr.againIn (s'.checkPend g { p with status := .inFlight, served := some tr }).1.status = true →
     let tr' := { tr with sub := 0xFF, seq := s'.fresh }
     exec (.serviceResponse g.id p.id a) s = .next (({ s' with fresh := s'.fresh + 1, log := s'.log ++ [.forwarded g.id tr'] } :
        State).setGroup ((g.wake p.id).setPend { p with status := .faulted tr' })))

/-! ### Traps -/

/-- R79, R304, R305, R306, R307, R308, R310: a half that has stopped at a fault takes it: its frame is written at TRAPFRAME's
place of slot 1 (header, an entry for each unfinished instruction, their operand blocks), its unfinished instructions leave
the group, and the handler starts at TRAPVEC with the full mask, in mode 0, as the half's only path. A fault under a handler,
or without one, or whose frame cannot be written, ends the grid. A user trap that the frame of another fault does not report
is as if it had not issued: its path stands at the TRAP again, in the clause that it was in. The model's choices in it: log 24
and 51. -/
def Obligations.TakingATrap : Prop :=
  (∀ (s : State) (g : Group) (half : Nat) (tr : Trap) (c : Context) (x : XReg), s.group? g.id = some g → g.resident = true →
     g.readyFrame half = true → s.dieHeld (g.core / 64) = false → g.firstTrap half = some tr → s.contextOf g = some c → s.frameCap c = some x →
     half = 0 ∨ (half = 1 ∧ g.ganged = true) → (∀ r ∈ (g.bank half).raised, r.user = none ∨ r.seq = tr.seq) →
     let b := g.bank half
     let mine := (g.pend.filter (fun p => decide (p.half = half) && !p.isFetch)).map Pend.queue
     let paths : Option Path × Option Path := if g.ganged then (g.slot half, none) else (g.slot0, g.slot1)
     let ssave := [b.sreg 60, b.sreg 61, b.sreg 62, b.sreg 63]
     let blocks := mine.flatMap Pend.blocks
     let header := frameHeader tr none b.spill.length mine.length blocks.length paths.1 paths.2 ssave (b.quadTag 15)
     let pieces := (framePieces header (layEntries g.ganged encode mine 0) blocks).map (fun e =>
       (16384 * b.trapframe.toNat + e.1, e.2))
     let i : Instr := .trapDelivery g.id half
     (∀ l, b.live = some l → exec i s = .next (s.doubleFault g l.trap tr)) ∧
     (b.live = none → b.trapvec = 0xFFFFFFFC → exec i s = .next (s.doubleFault g tr tr)) ∧
     (∀ e, b.live = none → b.trapvec ≠ 0xFFFFFFFC → s.writeThrough g.core c x pieces = .error e →
       exec i s = .next (s.doubleFault g tr { e with pc := tr.pc })) ∧
     ∀ s', b.live = none → b.trapvec ≠ 0xFFFFFFFC → s.writeThrough g.core c x pieces = .ok s' →
       let handler : Path := { pc := b.trapvec, mask := g.fullMask half, flags := List.replicate 12 0 }
       let live : LiveFrame := { frame := b.trapframe.toNat, trap := tr, entries := mine, ssave := ssave, stag := b.quadTag 15,
                                 spillDepth := b.spill.length,
                                 drains := ((paths.1.map Path.drain).getD [], (paths.2.map Path.drain).getD []),
                                 joined := ((paths.1.map Path.waitsAtJoin).getD false, (paths.2.map Path.waitsAtJoin).getD false) }
       let h := ({ g with pend := g.pend.filter (fun p => p.half ≠ half), demote := none } : Group).setBank half
         { b with raised := [], live := some live }
       exec i s = .next (s'.setGroup (if g.ganged then h.setSlot half (some handler)
         else (h.setSlot 0 (some handler)).setSlot 1 none))) ∧
  (∀ (s : State) (g : Group) (a b : Trap), s.doubleFault g a b =
    ({ s with log := s.log ++ [.doubleFault g.grid a b [pathRecord g.slot0, pathRecord g.slot1]] } : State).endGrid g.grid 2) ∧
  ∀ (g : Group) (half k seq : Nat) (t : Trap) (cl : ClauseState) (p : Path), (g.bank half).raised = [t] →
    t.user = some (k, cl) → t.seq ≠ seq → k ≤ 1 → g.slot k = some p →
    (g.unraise half seq).slot k = some { p with pc := t.pc, clause := some cl } ∧
    (g.unraise half seq).slot (1 - k) = g.slot (1 - k) ∧ (g.unraise half seq).pend = g.pend ∧
    (g.unraise half seq).bank half = g.bank half

/-- R302, R309, R311: TRET restores the paths, s60 to s63 and the tag of their quad from the frame, and issues the
instructions of the frame again in their order, with their operands as the frame holds them, dropped entries apart. Without a
live frame, with another path or another depth of the spill stack, or with a malformed record, it raises ILLEGAL. Where a read
of the frame meets a fault, TRET raises it; PAGE and POISON go to the management cores first. The model's choices in it: log
25. -/
def Obligations.TretReturnsFromTheHandler : Prop :=
  ∀ (s : State) (c : Issue) (cl : ClauseState), Issuing .tret s c cl →
    (c.bank.live = none → exec .tret s = .next (c.raise trIllegal)) ∧
    ∀ (l : LiveFrame) (ctx : Context), c.bank.live = some l → s.contextOf c.g = some ctx →
      (c.other.isSome = true ∨ c.bank.spill.length ≠ l.spillDepth → exec .tret s = .next (c.raise trIllegal)) ∧
      (c.other = none → c.bank.spill.length = l.spillDepth →
        (s.frameCap ctx = none → exec .tret s = .next (c.raise (mkTrap .bounds))) ∧
        (∀ tr s', s.readFrame c.g c.half ctx l = (.error tr, s') →
          exec .tret s = .next (match pendFault tr with
            | .service u => ({ c with s := s' } : Issue).serviceFetch .tret u
            | _ => ({ c with s := s' } : Issue).raise tr)) ∧
        ∀ h es s', s.readFrame c.g c.half ctx l = (.ok (h, es), s') →
          (headerPaths (c.g.fullMask c.half) c.g.ganged h = none → exec .tret s = .next (c.raise trIllegal)) ∧
          ∀ p0 p1, headerPaths (c.g.fullMask c.half) c.g.ganged h = some (p0, p1) →
            (p0.isSome = true ∨ p1.isSome = true) →
            es.all (fun p => if c.g.ganged then p0.isSome else (!p.owner0 || p0.isSome) && (!p.owner1 || p1.isSome)) = true →
            let ss := (upto 4).map (fun i => BitVec.ofNat 32 (bits h (415 + 32 * i) (384 + 32 * i)))
            let b := c.bank.writeSList 60 ss
            let g := c.g.setBank c.half { b with
              stag := putNth false b.stag 15 (l.stag && decide (ss = l.ssave)), live := none }
            let back := fun (x : Path) (joined : Bool) (drain : List Nat) => { x with
              drain := drain, park := if joined = true ∧ x.clause = none ∧ x.pjoin = some x.pc then .join 0 else .running }
            let q0 := p0.map (fun x => back x l.joined.1 l.drains.1)
            let q1 := p1.map (fun x => back x l.joined.2 l.drains.2)
            let g := if c.g.ganged then g.setSlot c.half q0 else (g.setSlot 0 q0).setSlot 1 q1
            let r := s'.reissueAll g es
            exec .tret s = .next (({ c with s := r.2, g := r.1 } : Issue).commit r.1 true))

/-- R137 to R142, R147: FREEZE completes where it issues, its group the only path of a native group with no spilled set, its
size at most the window's and its depth below 4: outside a prologue it captures its group (the mappings of its v registers with their
values, its s, p and x registers, its mode, mask, pending join and TRAPVEC) and the frozen scratchpad as a sheaf
that the group's next launch may use; in a prologue the sheaf becomes its grid's; and it goes to the next header. With another
path or a spilled set it raises ILLEGAL, with a size out of range or at depth 4 TEMPLATE, ahead of any wait for what the group
has in flight. The model's choices in it: log 26 and 58. -/
def Obligations.FreezeCapturesASheaf : Prop :=
  ∀ (s : State) (c : Issue) (cl : ClauseState) (a : Src) (tm : Team) (d : Grid), Issuing (.freeze a) s c cl →
    s.team? c.g.team = some tm → s.grid? c.g.grid = some d →
    let i : Instr := .freeze a
    let n := (c.src .control a (lowestLane c.p.mask)).toNat
    let alone := c.g.ganged = false ∧ c.g.slot (1 - c.k) = none ∧ c.bank.spill = []
    (¬ alone → exec i s = .next (c.raise trIllegal)) ∧
    (alone → 65536 < n ∨ tm.scratchSize < n → exec i s = .next (c.raise (mkTrap .template 2))) ∧
    (alone → n ≤ 65536 → n ≤ tm.scratchSize → c.g.depth = 4 → exec i s = .next (c.raise (mkTrap .template 1))) ∧
    (alone → n ≤ 65536 → n ≤ tm.scratchSize → c.g.depth ≠ 4 →
      ∃ t k, exec i s = .next t ∧ t.mem = s.mem ∧ k ∈ t.sheaves ∧ k.id = s.fresh ∧
        k.grid = c.g.grid ∧ k.ctx = d.ctx ∧ k.lines = (n + 127) / 128 ∧ k.depth = c.g.depth + 1 ∧ k.start = c.p.pc + 4 ∧
        k.mode = c.p.mode ∧ k.mask = c.p.mask ∧ k.pjoin = c.p.pjoin ∧ k.s = c.bank.s ∧ k.stag = c.bank.stag ∧ k.p = c.g.p ∧
        k.x = c.bank.x ∧ k.trapvec = c.bank.trapvec ∧
        (∀ r, (nth k.v r none).map VMap.lanes = if c.lastReads i [] r then none else (nth c.g.v r none).map VMap.lanes) ∧
        (∀ r m, nth k.v r none = some m → m.sheaf = some s.fresh ∧ (nth c.g.v r none).map VMap.reg = some m.reg) ∧
        (∀ o, o < 128 * k.lines → memGet k.scratch o = s.scratchByte tm o) ∧
        ∀ w, w ∈ k.poisonWords ↔ w ∈ tm.poisonWords ∧ 4 * w < 128 * k.lines) ∧
    (alone → n ≤ 65536 → n ≤ tm.scratchSize → c.g.depth ≠ 4 → d.prologue = false →
      ∃ t g, exec i s = .next t ∧ t.fresh = s.fresh + 1 ∧
        t.group? c.g.id = some g ∧ g.nested = some s.fresh ∧ g.slot c.k = some (c.p.toHeader (c.p.pc + 4)) ∧
        ∀ r l, l < 64 → g.vLane r l = if c.lastReads i [] r then 0 else c.g.vLane r l) ∧
    (alone → n ≤ 65536 → n ≤ tm.scratchSize → c.g.depth ≠ 4 → d.prologue = true →
      ∃ t d', exec i s = .next t ∧ s.fresh < t.fresh ∧ t.grid? c.g.grid = some d' ∧ d'.prologue = false ∧
        d'.sheaf = some s.fresh)

/-! ### Host, peers and links -/

/-- R325, R329: a doorbell launches the new entries of a host queue in their order; a grid that has ended is reported, once every
write of it is performed, in its entry's STATUS and leaves the device; a die takes the records of an ordered queue in the order of SEQ; a queue is created with
a legal ring only. The model's choices in it: log 34, 35 and 37. -/
def Obligations.HostQueuesLaunchAndReport : Prop :=
  (∀ (s : State) (ctx queue tail : Nat) (c : Context) (q : Queue), s.context? ctx = some c → s.queue? ctx queue = some q →
    (q.host = true → q.next < tail →
      (∀ i, i < min (tail - q.next) q.size → s.placesHeld (q.base + 256 * ((q.next + i) % q.size)) 128 = false) →
      let n := min (tail - q.next) q.size
      exec (.doorbell ctx queue tail) s =
        .next (((upto n).foldl (fun s i => s.launchEntry c q (q.next + i)) s).mapQueue ctx queue (fun k =>
          { k with tail := tail, next := q.next + n }))) ∧
    (q.host = false ∨ tail ≤ q.next ∨ (∃ i, i < min (tail - q.next) q.size ∧
        s.placesHeld (q.base + 256 * ((q.next + i) % q.size)) 128 = true) → exec (.doorbell ctx queue tail) s = .next s)) ∧
  (∀ (s : State) (d : Grid), s.grid? d.id = some d →
    (d.completed = false ∨ s.reportHeld d = true → exec (.gridCompletion d.id) s = .next s) ∧
    -- a report waits for every write of the grid, and for nothing else but a channel or a link
    ((∃ k ∈ s.cores, ∃ w ∈ k.buffer, w.grid = d.id) → s.reportHeld d = true) ∧
    ((∃ k ∈ s.cores, ∃ r ∈ k.copies, ∃ tm ∈ s.teams, r.team = tm.id ∧ tm.grid = d.id) → s.reportHeld d = true) ∧
    ((∀ k ∈ s.cores, (∀ w ∈ k.buffer, w.grid ≠ d.id) ∧ ∀ r ∈ k.copies, ∀ tm ∈ s.teams, r.team = tm.id → tm.grid ≠ d.id) →
      s.channelCopies = [] → s.links.any Link.retraining = false → s.reportHeld d = false) ∧
    (∀ g n w, d.completed = true → s.reportHeld d = false → d.launcher = .program g n w →
      exec (.gridCompletion d.id) s = .next { s with grids := s.grids.filter (fun e => e.id ≠ d.id) }) ∧
    ∀ ctx queue n c q, d.completed = true → s.reportHeld d = false → d.launcher = .hostQueue ctx queue n → s.context? ctx = some c →
      s.queue? ctx queue = some q →
      let entry := q.base + 256 * (n % q.size)
      let s' := s.writeBytes (entry + 148) (leBytes 4 d.status)
      bits (s.physValue (entry + 128) 128) 55 0 = 0 →
        exec (.gridCompletion d.id) s = .next { s' with grids := s'.grids.filter (fun e => e.id ≠ d.id) }) ∧
  (∀ (s : State) (die ctx queue n : Nat) (q : Queue) (d : Grid), s.queue? ctx queue = some q → die < 4 →
    s.recordsHeld die = false → firstRecord (s.recordsTo ctx q die) = some (n, d) →
    exec (.drawRecord die ctx queue) s = .next ((if d.completed then s else s.pushDraw d die).mapQueue ctx queue (fun k =>
      { k with dieSeq := setNth k.dieSeq die (n + 1) }))) ∧
  ∀ (s : State) (spec : QueueSpec) (c : Context), s.context? spec.ctxid = some c →
    let legal := 16 ≤ spec.size ∧ spec.size ≤ 65536 ∧ spec.size = 2 ^ Nat.log2 spec.size ∧ spec.queue ≤ 63
    (¬ legal → exec (.queueCreate spec) s = .next s) ∧
    (legal → ∃ t c', exec (.queueCreate spec) s = .next t ∧ t.context? spec.ctxid = some c' ∧
      ∃ q ∈ c'.queues, q.id = spec.queue ∧ q.host = true ∧ q.base = spec.base ∧ q.size = spec.size ∧
        q.ordered = spec.ordered ∧ q.tail = 0 ∧ q.next = 0)

/-- R162, R328, R330, R331, R332: a shoot-down takes place once every access that used the page is performed; then no
translation of it is held, and no run of a register of the context meets it. A range is released to the host behind that, and
acquired with empty read caches. An access from outside acts on memory at its home, behind a copy of its channel; an address that is no memory is none. The
model's choices in it: log 42, 43 and 54. -/
def Obligations.CoherenceWithTheHostAndPeers : Prop :=
  (∀ (s : State) (ctx page : Nat),
    (s.pageQuiet ctx page = false → exec (.shootDown ctx page) s = .next s) ∧
    (s.pageQuiet ctx page = true → ∃ t, exec (.shootDown ctx page) s = .next t ∧ t.mem = s.mem ∧
      (∀ k ∈ t.cores, ∀ e ∈ k.tlb, ¬ (e.ctx = ctx ∧ e.page = page)) ∧
      (∀ d ∈ t.dies, ∀ e ∈ d.tlb, ¬ (e.ctx = ctx ∧ e.page = page)) ∧
      ∀ g ∈ t.groups, t.inContext ctx g = true → ∀ x, x ∈ g.bank0.x ++ g.bank1.x →
        meetsPage x.base.toNat (x.base.toNat + x.extent.toNat) page = true → x.extent = 0)) ∧
  (∀ (s : State) (ctx range : Nat) (c : Context), s.context? ctx = some c →
    (s.pageQuiet ctx range = true → c.hostRanges.contains range = false → exec (.rangeRelease ctx range) s =
      .next ((s.shoot ctx range).setContext { c with hostRanges := insertRising range c.hostRanges })) ∧
    (s.pageQuiet ctx range = false → exec (.rangeRelease ctx range) s = .next s) ∧
    (c.hostRanges.contains range = true → ∃ t, exec (.rangeAcquire ctx range) s = .next t ∧
      (∀ k ∈ t.cores, k.readCache = []) ∧
      t = { s.setContext { c with hostRanges := removeNat range c.hostRanges } with cores := t.cores })) ∧
  (∀ (s : State) (pa : Nat) (l : List Byte), Memory.wf s.mem = true → pa + l.length ≤ deviceMemoryEnd →
    s.placesHeld pa l.length = false → (∃ t, exec (.hostAccess pa (.write l)) s = .next t ∧
      ∀ a, memGet t.mem a = if pa ≤ a ∧ a < pa + l.length then nth l (a - pa) 0 else memGet s.mem a) ∧
    (exec (.hostAccess pa (.read l.length)) s = .next s) ∧
    ∀ peer own, s.domain = some own → s.members.contains peer = true → peer ≠ own →
      exec (.peerAccess peer pa (.write l)) s = .next (s.writeBytes pa l)) ∧
  -- a peer writes the memory of a member of the domain; what lies in the host's window is the host's
  (∀ (s : State) (peer pa : Nat) (l : List Byte), s.domain.isSome = true → s.members.contains peer = true → s.domain ≠ some peer →
    0x800000000000 ≤ pa → pa < 0x900000000000 → pa % 0x8000000000 + l.length ≤ deviceMemoryEnd → s.peerGone pa = false →
    s.placesHeld (s.homeAddress pa) l.length = false →
    exec (.peerAccess peer pa (.write l)) s = .next (s.writeBytes (s.homeAddress pa) l)) ∧
  (∀ (s : State) (pa : Nat) (l : List Byte), 0x400000000000 ≤ pa → pa + l.length ≤ 0x800000000000 →
    exec (.hostAccess pa (.write l)) s = .next (s.writeBytes pa l)) ∧
  (∀ (s : State) (pa n : Nat), 0 < n → deviceMemoryEnd < pa + n → pa + n ≤ 0x400000000000 →
    exec (.hostAccess pa (.read n)) s = .fault (.noSuchAddress pa)) ∧
  (∀ (s : State) (own count : Nat),
    (own < count → count ≤ 32 → exec (.domainForm own count) s = .next { s with domain := some own, members := upto count }) ∧
    (count ≤ own ∨ 32 < count → exec (.domainForm own count) s = .next s)) ∧
  ∀ (s : State) (peer : Nat), s.members.contains peer = true → s.domain ≠ some peer →
    ∃ t, exec (.deviceLeavesDomain peer) s = .next t ∧ t.members = removeNat peer s.members ∧ t.mem = s.mem ∧
      ∀ g ∈ t.groups, ∀ p ∈ g.pend, p.status = .inFlight → p.stage = .queued → ∀ a ∈ p.lanes, a.toPeer peer = false

/-- R172, R322, R323, R333 to R337, R346: links, spare channels, spare cores, and lost ones. A retry is counted; a failed lane takes a
spare of its direction, or runs it on 128 lanes; a channel takes one of its stack's 8 spares while it is copied; a core takes
one of its die's 4 spares or is absent, its teams pre-empted; a lost core ends its groups' grids with status 3, on which an LNCH .w
that waits for them then completes. An uncorrectable error poisons its place (R172, R346), and its section goes back to nominal supply
with F raised by 10 mV. The model's choices in it: log 38, 40 and 41. -/
def Obligations.LinksAndSparesKeepTheDeviceRunning : Prop :=
  (∀ (s : State) (link dir : Nat),
    let l := nth s.links link {}
    let put := fun (l : Link) => { s with links := setNth s.links link l }
    exec (.flitRetry link dir) s = .next (put { l with retries := l.retries + 1 }) ∧
    (8 < l.retries → exec (.linkRetrain link dir false) s = .next (put { l with retraining := true, retries := 0 })) ∧
    (l.retries ≤ 8 → exec (.linkRetrain link dir false) s = .next s) ∧
    exec (.linkRetrain link 0 true) s = .next (put { (if l.spare0 < 8 then { l with spare0 := l.spare0 + 1 }
      else { l with narrow0 := true }) with retraining := true, retries := 0 }) ∧
    exec (.linkRetrain link 1 true) s = .next (put { (if l.spare1 < 8 then { l with spare1 := l.spare1 + 1 }
      else { l with narrow1 := true }) with retraining := true, retries := 0 }) ∧
    exec (.linkRetrainEnd link) s = .next (put { l with retraining := false })) ∧
  (∀ s : State, exec .calvenFailover s = .next { s with health := { s.health with standby := true } }) ∧
  (∀ (s : State) (stack channel : Nat), stack < 8 → channel < 128 →
    (nth s.health.chspare stack 0 < 8 → s.channelCopies.contains (stack, channel) = false →
      exec (.channelSpare stack channel) s = .next { s with
        channelCopies := s.channelCopies ++ [(stack, channel)]
        health := { s.health with chspare := setNth s.health.chspare stack (nth s.health.chspare stack 0 + 1) } }) ∧
    exec (.channelCopyEnd stack channel) s =
      .next { s with channelCopies := s.channelCopies.filter (fun e => e ≠ (stack, channel)) }) ∧
  (∀ (s : State) (core : Nat), core < 256 → (s.coreAt core).absent = false → (s.dieAt (core / 64)).sparesUsed < 4 →
    s.cores.length = 256 → s.dies.length = 4 →
    ∃ t, exec (.coreSpare core) s = .next t ∧ (t.coreAt core).remapped = true ∧
      (t.coreAt core).absent = false ∧ (t.dieAt (core / 64)).sparesUsed = (s.dieAt (core / 64)).sparesUsed + 1 ∧
      (s.quiet = true → t.mem = s.mem ∧ ∀ tm ∈ t.teams, tm.core = core → tm.ended = false → tm.preempted = true)) ∧
  -- with no spare left the core is absent
  (∀ (s : State) (core : Nat), core < 256 → (s.coreAt core).absent = false → (s.dieAt (core / 64)).sparesUsed = 4 →
    s.cores.length = 256 → s.health.coresLost.length = 4 →
    let gone := fun (t : State) => (t.coreAt core).absent = true ∧ (t.dieAt (core / 64)).sparesUsed = 4 ∧
      nth t.health.coresLost (core / 64) 0 = nth s.health.coresLost (core / 64) 0 + 1
    (∃ t, exec (.coreSpare core) s = .next t ∧ gone t) ∧ ∃ t, exec (.coreLost core) s = .next t ∧ gone t) ∧
  -- a core with an absent one's number is no core to spare or to lose
  (∀ (s : State) (core : Nat), (s.coreAt core).absent = true →
    exec (.coreSpare core) s = .next s ∧ exec (.coreLost core) s = .next s) ∧
  -- a lost core: its groups are gone, and their grids have ended with status 3
  (∀ (s : State) (core : Nat), core < 256 → (s.coreAt core).absent = false →
    (∀ g ∈ s.groups, (s.grid? g.grid).isSome = true) → (s.groups.map Group.id).Nodup →
    ∃ t, exec (.coreLost core) s = .next t ∧ (∀ g ∈ t.groups, g.core = core → g.resident = false) ∧
      ∀ d, s.grid? d.id = some d →
        (∃ g ∈ s.groups, g.core = core ∧ g.resident = true ∧ g.grid = d.id) ∨
          (∃ tm ∈ s.teams, tm.core = core ∧ tm.preempted = false ∧ tm.ended = false ∧ tm.grid = d.id) →
        ∃ e, t.grid? d.id = some e ∧ e.status = 3 ∧ e.waiting = 0 ∧
          ((∀ g ∈ s.groups, g.grid = d.id → g.core = core ∧ g.resident = true) → e.completed = true)) ∧
  (∀ (s : State) (g : Group) (p : Pend) (u : Bool) (x : Fin 8) (a : Src), s.group? g.id = some g → g.pend? p.id = some p →
    p.instr = .lnchW u x a → p.stage = .atCore → p.status = .inFlight →
    (∀ n ∈ p.aux, ∃ d, s.grid? n = some d ∧ d.completed = true ∧ d.status = 3) →
    exec (.launchWaitComplete g.id p.id) s =
      .next ((s.setCore g.core { s.coreAt g.core with readCache := [] }).completePend g.id p.id)) ∧
  ∀ (s : State) (sec : Nat) (place : ErrorPlace), sec < s.sections.length →
    ∃ t, exec (.uncorrectableError sec place) s = .next t ∧ t.mem = s.mem ∧
      (nth t.sections sec {}).ramping = true ∧ (nth t.sections sec {}).supply = nominalSupply (nth s.sections sec {}).cls ∧
      (nth t.sections sec {}).floor = min (nominalSupply (nth s.sections sec {}).cls) ((nth s.sections sec {}).floor + 10) ∧
      (∀ n, n ≠ sec → nth t.sections n {} = nth s.sections n {}) ∧
      (match place with
        | .memory sector => sector ∈ t.poison
        | .scratchWord n off => ∀ tm, t.team? n = some tm → off / 4 ∈ tm.poisonWords
        | .vWord n r lane => ∀ g, t.group? n = some g → (r.val, lane) ∈ g.poisonV)

/-! ### Power and reset -/

/-- R342 to R347: a section joins another pool after 20 ms in its class, cool if it regains a class that it dropped for its heat, at
the nominal supply of the class behind a ramp; its grant is set to 2 to 8; a clean window steps its supply down by 5 mV and never below
its floor; energy is apportioned in whole steps, once at each 1 ms boundary of CLOCK; a sample gives every core its temperature, and
stops a section's issue above 105 degrees until it reads below 100. The model's choices in it: log 46 and 50; that the links' retries
start anew at an apportionment is log 38. -/
def Obligations.SectionsFollowTheirLimits : Prop :=
  (∀ (s : State) (sec cls : Nat), sec < 8 → s.sections.length = 8 → cls ≤ 2 →
    let x := nth s.sections sec {}
    let cool := ((s.cores.drop (32 * sec)).take 32).all (fun k => decide (k.temp ≤ 91)) = true
    -- classes by heat: 1, then 0, then 2
    let level := fun (c : Nat) => match c with
      | 1 => 2 | 0 => 1 | _ => 0
    (cls ≠ x.cls → 200 ≤ x.dwell → (x.dropped = 0 ∨ level cls < level x.cls ∨ cool) →
      ∃ t, exec (.sectionReassign sec cls) s = .next t ∧
        (nth t.sections sec {}).cls = cls ∧ (nth t.sections sec {}).ramping = true ∧ (nth t.sections sec {}).dwell = 0 ∧
        (nth t.sections sec {}).supply = (match cls with
          | 0 => 350
          | 1 => 420
          | _ => 300) ∧
        (nth t.sections sec {}).dropped = (if x.dropped = 0 then 0 else level x.cls + x.dropped - level cls) ∧
        (∀ n, n ≠ sec → nth t.sections n {} = nth s.sections n {}) ∧
        (s.quiet = true → t.mem = s.mem ∧ ∀ tm ∈ t.teams, tm.core / 32 = sec → tm.ended = false → tm.preempted = true)) ∧
    (cls = x.cls ∨ x.dwell < 200 ∨ (x.dropped ≠ 0 ∧ level x.cls ≤ level cls ∧ ¬ cool) → exec (.sectionReassign sec cls) s = .next s) ∧
    exec (.sectionRampEnd sec) s = .next { s with sections := setNth s.sections sec { x with ramping := false } } ∧
    ∀ grant, (2 ≤ grant → grant ≤ 8 →
        exec (.sectionGrant sec grant) s = .next { s with sections := setNth s.sections sec { x with grant := grant } }) ∧
      (grant < 2 ∨ 8 < grant → exec (.sectionGrant sec grant) s = .next s)) ∧
  (∀ (s : State) (sec : Nat),
    let x := nth s.sections sec {}
    exec (.undervoltWindowEnd sec false) s = .next s ∧
    exec (.undervoltWindowEnd sec true) s =
      .next { s with sections := setNth s.sections sec { x with supply := max x.floor (x.supply - 5) } }) ∧
  (∀ (s : State) (steps : List (Nat × Nat)), s.clock.toNat / 1000000 ≤ s.energyAt →
    exec (.energyApportion steps) s = .next s) ∧
  (∀ (s : State) (steps : List (Nat × Nat)), s.energyAt < s.clock.toNat / 1000000 → ∃ t, exec (.energyApportion steps) s = .next t ∧
    t = { s with contexts := t.contexts, links := t.links, energyAt := s.clock.toNat / 1000000 } ∧
    t.contexts = s.contexts.map (fun c => { c with energy := c.energy + BitVec.ofNat 32 (assoc steps c.id 0) }) ∧
    t.links = s.links.map (fun l => { l with retries := 0 })) ∧
  ∀ (s : State) (temps : List Nat), s.cores.length = 256 → s.sections.length = 8 →
    ∃ t, exec (.thermalSample temps) s = .next t ∧ (s.quiet = true → t.mem = s.mem) ∧
      (∀ n, n < 256 → (t.coreAt n).temp = nth temps n (s.coreAt n).temp) ∧
      ∀ sec, sec < 8 →
        let hot := t.sectionTemp sec
        (105 < hot → (nth t.sections sec {}).hot = true) ∧ (hot < 100 → (nth t.sections sec {}).hot = false)

/-- R155, R199, R313, R317, R318, R338 to R340: a context is created with its table, queues and gutter, where they are legal
and its number is free; one that migrates counts MIGGEN up and finds no translation of its own in the caches, and CLOCK does
not go back; a refused code object changes nothing but the log, a bound one puts its capabilities into the table. The model's
choices in it: log 45, 47 and 56. -/
def Obligations.ContextsAndCodeObjects : Prop :=
  (∀ (s : State) (spec : ContextSpec),
    let ids := spec.queues.map (fun q => q.1)
    let legal := s.ready = true ∧ s.context? spec.ctxid = none ∧ s.contexts.length < 1024 ∧ 1 ≤ spec.watchdogMs ∧
      spec.watchdogMs ≤ 1000 ∧ budgetsOk spec.budgets = true ∧ 64 ≤ spec.gutterSize ∧ spec.gutterSize ≤ 2 ^ 20 ∧
      spec.gutterSize = 2 ^ Nat.log2 spec.gutterSize ∧ spec.watchdogAction ≤ 2 ∧ ids.length ≤ 64 ∧ distinct ids = ids ∧
      (∀ q ∈ ids, q ≤ 63) ∧ ∀ e ∈ spec.slots, e.1 < 65536
    (¬ legal → exec (.contextCreate spec) s = .next s) ∧
    (legal → ∃ t c, exec (.contextCreate spec) s = .next t ∧ t = { s with contexts := t.contexts } ∧
      t.contexts = s.contexts ++ [c] ∧ c.ctxid = spec.ctxid ∧ c.root = spec.root ∧ c.gutBase = spec.gutterBase ∧
      c.gutSize = spec.gutterSize ∧ c.guthead = 0 ∧ c.guttail = 0 ∧ c.energy = 0 ∧ c.miggen = 0 ∧
      c.slots = spec.slots.map (fun e => (e.1, e.2, true)) ∧ c.queues.map Queue.id = ids ∧
      c.budgets = spec.budgets.filter (fun e => e.2 ≠ 0) ∧
      c.feature = 0x01000001 ||| (spec.feature &&& 0x7F00))) ∧
  (∀ (s : State) (ctx : Nat) (c : Context), s.context? ctx = some c → ∃ t c', exec (.liveMigration ctx) s = .next t ∧
    t.context? ctx = some c' ∧ c'.miggen = c.miggen + 1 ∧ (∀ k ∈ t.cores, ∀ e ∈ k.tlb, e.ctx ≠ ctx) ∧
    (∀ d ∈ t.dies, ∀ e ∈ d.tlb, e.ctx ≠ ctx) ∧
    (∃ f, t.clock = s.clock + BitVec.ofNat 64 (Config.clockTick f) ∧
      (s.clock.toNat + Config.clockTick f < 2 ^ 64 → s.clock.toNat ≤ t.clock.toNat)) ∧
    (s.quiet = true → t.mem = s.mem ∧
      ∀ tm ∈ t.teams, (t.grid? tm.grid).map Grid.ctx = some ctx → tm.ended = false → tm.preempted = true)) ∧
  ∀ (s : State) (spec : BindSpec) (c : Context), s.context? spec.ctxid = some c →
    (codeObject c.feature spec.file = none →
      exec (.codeObjectBind spec) s = .next { s with log := s.log ++ [.refusedObject c.id] }) ∧
    ∀ o, codeObject c.feature spec.file = some o →
      let s1 := spec.leaves.foldl (fun s e => s.writeBytes e.1 (leBytes 8 e.2.toNat)) s
      let secs := placedSections spec o
      ((upto secs.length).zip secs).all (fun e => s1.placedOk c spec e.2 (nth spec.places e.1 0)) = true →
      spec.moves = [] ∨ (writablePlace spec o).isSome = true →
      ∃ t c', exec (.codeObjectBind spec) s = .next t ∧ t.context? spec.ctxid = some c' ∧ t.mem = (s1.layObject c spec o).mem ∧
        (∀ e ∈ o.caps, c'.slot e.slot = (mintedCap spec o e, true)) ∧
        ((∀ e ∈ o.caps, e.slot ≠ spec.codeSlot) → c'.slot spec.codeSlot = (codeCapOf spec o, true))

/-- R348: reset runs its steps in their order up to the load of the firmware, and a step that fails stops it there with its
number in RSTSTEP; a good firmware makes the device ready, a bad one stops at step 10, and a failure of step 11 or 12 stops what
follows the load. The model's choices in it: log 48; what R348 does not name, a core's temperature and a section's dwell among it, is
that of log 6. -/
def Obligations.ResetRunsItsSteps : Prop :=
  (∀ (s : State) (spec : ResetSpec), spec.failAt = none → ∃ t, exec (.reset spec) s = .next t ∧
    (∀ a, memGet t.mem a = if a < deviceMemoryEnd then 0 else memGet s.mem a) ∧ (∀ n ∈ t.tags, deviceMemoryEnd ≤ 16 * n) ∧
    (∀ n ∈ t.poison, deviceMemoryEnd ≤ 32 * n) ∧ t.clock = 0 ∧ t.contexts = [] ∧ t.grids = [] ∧ t.teams = [] ∧ t.groups = [] ∧ t.ready = false ∧
    t.firmware = false ∧ t.health.rststep = 0 ∧ t.cores = List.replicate 256 {} ∧ t.sections = List.replicate 8 {} ∧
    (∀ n, n < 4 → (t.dieAt n).sparesUsed = nth spec.spareCores n 0) ∧
    (∀ n, n < 6 → nth t.links n {} = { spare0 := nth spec.spareLanes n 0, spare1 := nth spec.spareLanes n 0 }) ∧
    ∃ u, exec (.managementFirmwareLoad true) t = .next u ∧ u.ready = true ∧ u.firmware = true ∧ u.health.rststep = 0 ∧
      u.mem = t.mem ∧ ∃ v, exec (.managementFirmwareLoad false) t = .next v ∧ v.ready = false ∧ v.health.rststep = 10) ∧
  (∀ (s : State) (spec : ResetSpec) (n : Fin 13), spec.failAt = some n → 1 ≤ n.val → n.val ≤ 9 →
    ∃ t, exec (.reset spec) s = .next t ∧ t.health.rststep = n.val ∧ t.ready = false ∧ t.contexts = [] ∧
      exec (.managementFirmwareLoad true) t = .next t) ∧
  (∀ (s : State) (spec : ResetSpec) (n : Fin 13), spec.failAt = some n → 10 ≤ n.val →
    ∃ t u, exec (.reset spec) s = .next t ∧ t.health.rststep = 0 ∧ t.ready = false ∧
      exec (.managementFirmwareLoad true) t = .next u ∧ u.health.rststep = n.val ∧ u.ready = false ∧
      (u.firmware = true ↔ n.val ≠ 10) ∧ exec (.managementFirmwareLoad true) u = .next u) ∧
  ∀ (s : State) (good : Bool), s.ready = true → exec (.managementFirmwareLoad good) s = .next s

/-! ### Words, steps and reset -/

/-- R18, R23, R26, R41 and the encoding tables of the descriptions: a word of each family, written field by field, is its
instruction; a reserved opcode, field, register or code is none. -/
def Obligations.DecodeWords : Prop :=
  (decoded 0b11111111_000000000001_1111_0011_0011#32 = some (.clauseStart 1 none (some 3) 3) ∧
    decoded 0b0_0000010_111111111111111111110100#32 = some (.bra (BitVec.ofInt 24 (-12))) ∧
    decoded 0b0_0000011_1_100_1_1111111111111111101#32 = some (.bc true 4 true (BitVec.ofInt 19 (-3))) ∧
    decoded 0b0_0001110_00000000_0101_1011_1_001_0001#32 = some (.mode 0x5B91) ∧
    decoded 0b1_0010001_10000100_10000011_11100100#32 = some (.isub true (.s 4) (.s 3) (.const 4)) ∧
    decoded 0b0_0100110_0101_0_010_00000011_00000100#32 = some (.icmp false .ge 2 (.v 3) (.v 4)) ∧
    decoded 0b1_0110011_10000100_01000001_11111001#32 = some (.ffma true (.s 4) (.vLast 1) (.const 25)) ∧
    decoded 0b0_1000010_00001000_00000010_0_010_1001#32 = some (.cvt false (.v 8) (.v 2) 2 .e4m3x4) ∧
    decoded 0b0_1001011_10010100_00000001_000_0_00_11#32 = some (.vote (.reg (.s 20)) (.v 1) .ballot) ∧
    decoded 0b0_1010000_00000010_11100001_11100100#32 = some (.barSync (.const 1) (.const 4)) ∧
    decoded 0b0_1010101_00000000_00_10_0011_0000_0111#32 = some (.xfence .full .t .v .device) ∧
    decoded 0b0_1010110_000_0_0011_000_10000_10001010#32 = some (.waita false false .core .team 10) ∧
    decoded 0b0_1100000_00000100_001_101_10_00001001#32 = some (.ld false (.v 4) 1 .w64 .keep (.v 9)) ∧
    decoded 0b1_1100010_11111111_011_0000_0_10010100#32 = some (.atomNoreturn true 3 .add false (.s 20)) ∧
    decoded 0b0_1100111_10001000_100_00000_10000000#32 = some (.stc false 2 4 (.s 0)) ∧
    decoded 0b0_1101010_00001000_000_01_000_00000000#32 = some (.ldlod false (.v 8) .b8 (.v 0)) ∧
    decoded 0b0_1110110_00010100_01_000000_00010000#32 = some (.vxm 20 0 true (.v 16)) ∧
    decoded 0b0_1111000_00000001_00000000_10_010000#32 = some (.trace 1 0 .cand 16) ∧
    decoded 0b0_1111101_10011110_10000100_00000000#32 = some (.compose 30 (.s 4))) ∧
  (decoded 0b0_0100110_0101_1_010_00000011_00000100#32 = none ∧ decoded 0b0_0100110_1000_0_010_00000011_00000100#32 = none ∧
    decoded 0b0_0010000_01000101_00000001_00000010#32 = none ∧ decoded 0b0_0010000_11000001_00000010_00000011#32 = none ∧
    decoded 0b0_0110000_00000000_00000001_11011011#32 = none ∧ decoded 0b0_0001110_00000000_0000_1000_0_000_0000#32 = none ∧
    decoded 0b0_0000100_1_001_1_0000000000000000011#32 = none ∧ decoded 0b1_0000011_0_000_0_0000000000000000100#32 = none ∧
    decoded 0b11111111_000000000000_1100_1111_0000#32 = none ∧ decoded 0b0_1111111_00000000_00000000_00000000#32 = none ∧
    decoded 0b0_1100000_00000000_000_111_00_00000001#32 = none)

/-- R18, R23, R26, R27, R29, R30, R36, R37, R38, R39, R41, R193: every well-formed instruction that has a word is what its
word decodes to, whatever its operands, also as the four bytes that memory holds of it. -/
def Obligations.RoundTrip : Prop :=
  ∀ i : Instr, i.wf = true → i.isStep = false →
    decodeWord (encode i) = .ok i ∧ decodeTableWord 32 (encode i).toNat = some i

/-- R21, R41, R111, R158: a step is exec of the decoded instruction, after `sated` has noted for the watchdog which groups have no
eligible path (R114). The agenda's head goes first: an event is executed, an
issue slot's turn issues a word of the path that the slot chooses. With no agenda the current path goes on within its clause,
and between clauses the first slot that has a path to issue takes its turn. A path's word is the four bytes at its pc; a word
out of its place raises CLAUSE, one that is no instruction raises ILLEGAL, and the fault of a fetch is the path's. The model's choices in it: log 1, 2 and 3. -/
def Obligations.StepRunsDecoded : Prop :=
  (∀ (s : State) (i : Instr) (l : List Turn), s.agenda = .event i :: l →
    step s = exec i { s.sated with agenda := l }) ∧
  (∀ (s : State) (n : Nat) (l : List Turn) (g k : Nat), s.agenda = .slot n :: l →
    let s1 := State.relieve { s.sated with agenda := l } n
    (s1.slotChoice n = some (g, k) → step s = (s1.activate g).runPath g k) ∧
    (s1.slotChoice n = none → step s = .next s1.tick)) ∧
  (∀ (s : State) (g k : Nat), s.agenda = [] → s.sated.currentReady = some (g, k) → step s = s.sated.runPath g k) ∧
  (∀ (s : State) (n : Nat), s.agenda = [] → s.sated.currentReady = none → s.sated.firstEvent s.sated.progressEvents = none →
    s.sated.firstSlot s.sated.slotRound = some n → step s = s.sated.slotTurn n) ∧
  (∀ (s : State) (gid k : Nat) (c : Issue) (w : Word) (s2 : State), ({ s with cur := some (gid, k) } : State).issue? = some c →
    c.glueDue = false →
    let s1 : State := { s with cur := some (gid, k), slotLast := assocSet c.g.slotNumber (gid, k) s.slotLast }
    s1.fetch c.g c.p.pc = .word w s2 →
    (∀ i, decodeWord w = .ok i → isHeaderWord w = c.p.clause.isNone → s.runPath gid k = exec i s2) ∧
    (isHeaderWord w = c.p.clause.isSome → s.runPath gid k = .next (Issue.raise { c with s := s2 } trClause)) ∧
    (∀ e, decodeWord w = .error e → isHeaderWord w = c.p.clause.isNone →
      s.runPath gid k = .next (Issue.raise { c with s := s2 } trIllegal))) ∧
  (∀ (s : State) (gid k : Nat) (c : Issue) (t : Trap) (s2 : State),
    ({ s with cur := some (gid, k) } : State).issue? = some c → c.glueDue = false →
    ({ s with cur := some (gid, k), slotLast := assocSet c.g.slotNumber (gid, k) s.slotLast } : State).fetch c.g c.p.pc = .fault t s2 →
    s.runPath gid k = .next (Issue.fetchFault { c with s := s2 } .nop t)) ∧
  ∀ (s : State) (g : Group) (pc : Word) (d : Grid) (x : Context) (runs : List Run) (stale : List (Nat × Nat)) (s2 : State),
    s.grid? g.grid = some d → s.context? d.ctx = some x →
    s.access g.core x (capRegister d.codeCap) .fetch true 4 4 pc.toNat = (.ok runs stale, s2) →
    s.fetch g pc = .word (BitVec.ofNat 32 (leValue (s2.readRuns runs))) s2

/-- R348, R154, R172, R155, R331, R335: after reset the device is ready; every byte of its memory is zero, no tag and no
poison is set; the caches, deques and sheaf stores are empty; every section is in class 0 with a grant of 8; there is no
context, grid, team or group, and the device is in no domain. What it holds is in its canonical form. The model's choices in
it: log 6 and 7 for what R348 does not name. -/
def Obligations.ResetState : Prop :=
  let s := State.reset
  s.ready = true ∧ s.firmware = true ∧ s.health.rststep = 0 ∧ (∀ a, a < deviceMemoryEnd → memGet s.mem a = 0) ∧
    s.tags = [] ∧ s.poison = [] ∧ s.contexts = [] ∧ s.grids = [] ∧ s.teams = [] ∧ s.clusters = [] ∧ s.groups = [] ∧
    s.sheaves = [] ∧ s.domain = none ∧ s.members = [] ∧ s.cores.length = 256 ∧ s.dies.length = 4 ∧ s.sections.length = 8 ∧
    (∀ k ∈ s.cores, k.deque = [] ∧ k.readCache = [] ∧ k.buffer = [] ∧ k.texCache = [] ∧ k.tlb = [] ∧ k.store = [] ∧
      k.filter = [] ∧ k.copies = []) ∧
    (∀ d ∈ s.dies, d.tlb = [] ∧ d.ridge = [] ∧ d.comp = [] ∧ d.optQueue = []) ∧
    (∀ x ∈ s.sections, x.cls = 0 ∧ x.grant = 8 ∧ x.ramping = false ∧ x.hot = false) ∧ s.Canonical

/-- Every step, of whatever path or event, keeps device memory, the teams' scratchpads and the sheaves' lines in their
canonical form: addresses strictly rising, and no byte listed that is zero (log 4; the form is the model's). -/
def Obligations.StepKeepsCanonical : Prop :=
  ∀ s t : State, s.Canonical → step s = .next t → t.Canonical
end

