-- ==== Sys2Proof/Laws/State.lean ====
section
/-! SUPPORT. What each update of the state leaves alone: one lemma per field and update. -/
namespace Sys2Proof.Machine


/-! ### setGroup -/

@[simp] theorem State.setGroup_mem (s : State) (g : Group) : (s.setGroup g).mem = s.mem := rfl
@[simp] theorem State.setGroup_tags (s : State) (g : Group) : (s.setGroup g).tags = s.tags := rfl
@[simp] theorem State.setGroup_poison (s : State) (g : Group) : (s.setGroup g).poison = s.poison := rfl
@[simp] theorem State.setGroup_contexts (s : State) (g : Group) : (s.setGroup g).contexts = s.contexts := rfl
@[simp] theorem State.setGroup_grids (s : State) (g : Group) : (s.setGroup g).grids = s.grids := rfl
@[simp] theorem State.setGroup_teams (s : State) (g : Group) : (s.setGroup g).teams = s.teams := rfl
@[simp] theorem State.setGroup_clusters (s : State) (g : Group) : (s.setGroup g).clusters = s.clusters := rfl
@[simp] theorem State.setGroup_sheaves (s : State) (g : Group) : (s.setGroup g).sheaves = s.sheaves := rfl
@[simp] theorem State.setGroup_placements (s : State) (g : Group) : (s.setGroup g).placements = s.placements := rfl
@[simp] theorem State.setGroup_yealms (s : State) (g : Group) : (s.setGroup g).yealms = s.yealms := rfl
@[simp] theorem State.setGroup_cores (s : State) (g : Group) : (s.setGroup g).cores = s.cores := rfl
@[simp] theorem State.setGroup_dies (s : State) (g : Group) : (s.setGroup g).dies = s.dies := rfl
@[simp] theorem State.setGroup_sections (s : State) (g : Group) : (s.setGroup g).sections = s.sections := rfl
@[simp] theorem State.setGroup_links (s : State) (g : Group) : (s.setGroup g).links = s.links := rfl
@[simp] theorem State.setGroup_channelCopies (s : State) (g : Group) : (s.setGroup g).channelCopies = s.channelCopies := rfl
@[simp] theorem State.setGroup_health (s : State) (g : Group) : (s.setGroup g).health = s.health := rfl
@[simp] theorem State.setGroup_domain (s : State) (g : Group) : (s.setGroup g).domain = s.domain := rfl
@[simp] theorem State.setGroup_members (s : State) (g : Group) : (s.setGroup g).members = s.members := rfl
@[simp] theorem State.setGroup_clock (s : State) (g : Group) : (s.setGroup g).clock = s.clock := rfl
@[simp] theorem State.setGroup_energyAt (s : State) (g : Group) : (s.setGroup g).energyAt = s.energyAt := rfl
@[simp] theorem State.setGroup_log (s : State) (g : Group) : (s.setGroup g).log = s.log := rfl
@[simp] theorem State.setGroup_ready (s : State) (g : Group) : (s.setGroup g).ready = s.ready := rfl
@[simp] theorem State.setGroup_firmware (s : State) (g : Group) : (s.setGroup g).firmware = s.firmware := rfl
@[simp] theorem State.setGroup_resetFail (s : State) (g : Group) : (s.setGroup g).resetFail = s.resetFail := rfl
@[simp] theorem State.setGroup_cur (s : State) (g : Group) : (s.setGroup g).cur = s.cur := rfl
@[simp] theorem State.setGroup_slotLast (s : State) (g : Group) : (s.setGroup g).slotLast = s.slotLast := rfl
@[simp] theorem State.setGroup_issues (s : State) (g : Group) : (s.setGroup g).issues = s.issues := rfl
@[simp] theorem State.setGroup_agenda (s : State) (g : Group) : (s.setGroup g).agenda = s.agenda := rfl
@[simp] theorem State.setGroup_fresh (s : State) (g : Group) : (s.setGroup g).fresh = s.fresh := rfl
@[simp] theorem State.setGroup_freeCount (s : State) (g : Group) : (s.setGroup g).freeCount = s.freeCount := rfl

/-! ### setGrid -/

@[simp] theorem State.setGrid_mem (s : State) (d : Grid) : (s.setGrid d).mem = s.mem := rfl
@[simp] theorem State.setGrid_tags (s : State) (d : Grid) : (s.setGrid d).tags = s.tags := rfl
@[simp] theorem State.setGrid_poison (s : State) (d : Grid) : (s.setGrid d).poison = s.poison := rfl
@[simp] theorem State.setGrid_contexts (s : State) (d : Grid) : (s.setGrid d).contexts = s.contexts := rfl
@[simp] theorem State.setGrid_teams (s : State) (d : Grid) : (s.setGrid d).teams = s.teams := rfl
@[simp] theorem State.setGrid_clusters (s : State) (d : Grid) : (s.setGrid d).clusters = s.clusters := rfl
@[simp] theorem State.setGrid_groups (s : State) (d : Grid) : (s.setGrid d).groups = s.groups := rfl
@[simp] theorem State.setGrid_sheaves (s : State) (d : Grid) : (s.setGrid d).sheaves = s.sheaves := rfl
@[simp] theorem State.setGrid_placements (s : State) (d : Grid) : (s.setGrid d).placements = s.placements := rfl
@[simp] theorem State.setGrid_yealms (s : State) (d : Grid) : (s.setGrid d).yealms = s.yealms := rfl
@[simp] theorem State.setGrid_cores (s : State) (d : Grid) : (s.setGrid d).cores = s.cores := rfl
@[simp] theorem State.setGrid_dies (s : State) (d : Grid) : (s.setGrid d).dies = s.dies := rfl
@[simp] theorem State.setGrid_sections (s : State) (d : Grid) : (s.setGrid d).sections = s.sections := rfl
@[simp] theorem State.setGrid_links (s : State) (d : Grid) : (s.setGrid d).links = s.links := rfl
@[simp] theorem State.setGrid_channelCopies (s : State) (d : Grid) : (s.setGrid d).channelCopies = s.channelCopies := rfl
@[simp] theorem State.setGrid_health (s : State) (d : Grid) : (s.setGrid d).health = s.health := rfl
@[simp] theorem State.setGrid_domain (s : State) (d : Grid) : (s.setGrid d).domain = s.domain := rfl
@[simp] theorem State.setGrid_members (s : State) (d : Grid) : (s.setGrid d).members = s.members := rfl
@[simp] theorem State.setGrid_clock (s : State) (d : Grid) : (s.setGrid d).clock = s.clock := rfl
@[simp] theorem State.setGrid_energyAt (s : State) (d : Grid) : (s.setGrid d).energyAt = s.energyAt := rfl
@[simp] theorem State.setGrid_log (s : State) (d : Grid) : (s.setGrid d).log = s.log := rfl
@[simp] theorem State.setGrid_ready (s : State) (d : Grid) : (s.setGrid d).ready = s.ready := rfl
@[simp] theorem State.setGrid_firmware (s : State) (d : Grid) : (s.setGrid d).firmware = s.firmware := rfl
@[simp] theorem State.setGrid_resetFail (s : State) (d : Grid) : (s.setGrid d).resetFail = s.resetFail := rfl
@[simp] theorem State.setGrid_cur (s : State) (d : Grid) : (s.setGrid d).cur = s.cur := rfl
@[simp] theorem State.setGrid_slotLast (s : State) (d : Grid) : (s.setGrid d).slotLast = s.slotLast := rfl
@[simp] theorem State.setGrid_issues (s : State) (d : Grid) : (s.setGrid d).issues = s.issues := rfl
@[simp] theorem State.setGrid_agenda (s : State) (d : Grid) : (s.setGrid d).agenda = s.agenda := rfl
@[simp] theorem State.setGrid_fresh (s : State) (d : Grid) : (s.setGrid d).fresh = s.fresh := rfl
@[simp] theorem State.setGrid_freeCount (s : State) (d : Grid) : (s.setGrid d).freeCount = s.freeCount := rfl

/-! ### setTeam -/

@[simp] theorem State.setTeam_mem (s : State) (t : Team) : (s.setTeam t).mem = s.mem := rfl
@[simp] theorem State.setTeam_tags (s : State) (t : Team) : (s.setTeam t).tags = s.tags := rfl
@[simp] theorem State.setTeam_poison (s : State) (t : Team) : (s.setTeam t).poison = s.poison := rfl
@[simp] theorem State.setTeam_contexts (s : State) (t : Team) : (s.setTeam t).contexts = s.contexts := rfl
@[simp] theorem State.setTeam_grids (s : State) (t : Team) : (s.setTeam t).grids = s.grids := rfl
@[simp] theorem State.setTeam_clusters (s : State) (t : Team) : (s.setTeam t).clusters = s.clusters := rfl
@[simp] theorem State.setTeam_groups (s : State) (t : Team) : (s.setTeam t).groups = s.groups := rfl
@[simp] theorem State.setTeam_sheaves (s : State) (t : Team) : (s.setTeam t).sheaves = s.sheaves := rfl
@[simp] theorem State.setTeam_placements (s : State) (t : Team) : (s.setTeam t).placements = s.placements := rfl
@[simp] theorem State.setTeam_yealms (s : State) (t : Team) : (s.setTeam t).yealms = s.yealms := rfl
@[simp] theorem State.setTeam_cores (s : State) (t : Team) : (s.setTeam t).cores = s.cores := rfl
@[simp] theorem State.setTeam_dies (s : State) (t : Team) : (s.setTeam t).dies = s.dies := rfl
@[simp] theorem State.setTeam_sections (s : State) (t : Team) : (s.setTeam t).sections = s.sections := rfl
@[simp] theorem State.setTeam_links (s : State) (t : Team) : (s.setTeam t).links = s.links := rfl
@[simp] theorem State.setTeam_channelCopies (s : State) (t : Team) : (s.setTeam t).channelCopies = s.channelCopies := rfl
@[simp] theorem State.setTeam_health (s : State) (t : Team) : (s.setTeam t).health = s.health := rfl
@[simp] theorem State.setTeam_domain (s : State) (t : Team) : (s.setTeam t).domain = s.domain := rfl
@[simp] theorem State.setTeam_members (s : State) (t : Team) : (s.setTeam t).members = s.members := rfl
@[simp] theorem State.setTeam_clock (s : State) (t : Team) : (s.setTeam t).clock = s.clock := rfl
@[simp] theorem State.setTeam_energyAt (s : State) (t : Team) : (s.setTeam t).energyAt = s.energyAt := rfl
@[simp] theorem State.setTeam_log (s : State) (t : Team) : (s.setTeam t).log = s.log := rfl
@[simp] theorem State.setTeam_ready (s : State) (t : Team) : (s.setTeam t).ready = s.ready := rfl
@[simp] theorem State.setTeam_firmware (s : State) (t : Team) : (s.setTeam t).firmware = s.firmware := rfl
@[simp] theorem State.setTeam_resetFail (s : State) (t : Team) : (s.setTeam t).resetFail = s.resetFail := rfl
@[simp] theorem State.setTeam_cur (s : State) (t : Team) : (s.setTeam t).cur = s.cur := rfl
@[simp] theorem State.setTeam_slotLast (s : State) (t : Team) : (s.setTeam t).slotLast = s.slotLast := rfl
@[simp] theorem State.setTeam_issues (s : State) (t : Team) : (s.setTeam t).issues = s.issues := rfl
@[simp] theorem State.setTeam_agenda (s : State) (t : Team) : (s.setTeam t).agenda = s.agenda := rfl
@[simp] theorem State.setTeam_fresh (s : State) (t : Team) : (s.setTeam t).fresh = s.fresh := rfl
@[simp] theorem State.setTeam_freeCount (s : State) (t : Team) : (s.setTeam t).freeCount = s.freeCount := rfl

/-! ### setContext -/

@[simp] theorem State.setContext_mem (s : State) (c : Context) : (s.setContext c).mem = s.mem := rfl
@[simp] theorem State.setContext_tags (s : State) (c : Context) : (s.setContext c).tags = s.tags := rfl
@[simp] theorem State.setContext_poison (s : State) (c : Context) : (s.setContext c).poison = s.poison := rfl
@[simp] theorem State.setContext_grids (s : State) (c : Context) : (s.setContext c).grids = s.grids := rfl
@[simp] theorem State.setContext_teams (s : State) (c : Context) : (s.setContext c).teams = s.teams := rfl
@[simp] theorem State.setContext_clusters (s : State) (c : Context) : (s.setContext c).clusters = s.clusters := rfl
@[simp] theorem State.setContext_groups (s : State) (c : Context) : (s.setContext c).groups = s.groups := rfl
@[simp] theorem State.setContext_sheaves (s : State) (c : Context) : (s.setContext c).sheaves = s.sheaves := rfl
@[simp] theorem State.setContext_placements (s : State) (c : Context) : (s.setContext c).placements = s.placements := rfl
@[simp] theorem State.setContext_yealms (s : State) (c : Context) : (s.setContext c).yealms = s.yealms := rfl
@[simp] theorem State.setContext_cores (s : State) (c : Context) : (s.setContext c).cores = s.cores := rfl
@[simp] theorem State.setContext_dies (s : State) (c : Context) : (s.setContext c).dies = s.dies := rfl
@[simp] theorem State.setContext_sections (s : State) (c : Context) : (s.setContext c).sections = s.sections := rfl
@[simp] theorem State.setContext_links (s : State) (c : Context) : (s.setContext c).links = s.links := rfl
@[simp] theorem State.setContext_channelCopies (s : State) (c : Context) : (s.setContext c).channelCopies = s.channelCopies := rfl
@[simp] theorem State.setContext_health (s : State) (c : Context) : (s.setContext c).health = s.health := rfl
@[simp] theorem State.setContext_domain (s : State) (c : Context) : (s.setContext c).domain = s.domain := rfl
@[simp] theorem State.setContext_members (s : State) (c : Context) : (s.setContext c).members = s.members := rfl
@[simp] theorem State.setContext_clock (s : State) (c : Context) : (s.setContext c).clock = s.clock := rfl
@[simp] theorem State.setContext_energyAt (s : State) (c : Context) : (s.setContext c).energyAt = s.energyAt := rfl
@[simp] theorem State.setContext_log (s : State) (c : Context) : (s.setContext c).log = s.log := rfl
@[simp] theorem State.setContext_ready (s : State) (c : Context) : (s.setContext c).ready = s.ready := rfl
@[simp] theorem State.setContext_firmware (s : State) (c : Context) : (s.setContext c).firmware = s.firmware := rfl
@[simp] theorem State.setContext_resetFail (s : State) (c : Context) : (s.setContext c).resetFail = s.resetFail := rfl
@[simp] theorem State.setContext_cur (s : State) (c : Context) : (s.setContext c).cur = s.cur := rfl
@[simp] theorem State.setContext_slotLast (s : State) (c : Context) : (s.setContext c).slotLast = s.slotLast := rfl
@[simp] theorem State.setContext_issues (s : State) (c : Context) : (s.setContext c).issues = s.issues := rfl
@[simp] theorem State.setContext_agenda (s : State) (c : Context) : (s.setContext c).agenda = s.agenda := rfl
@[simp] theorem State.setContext_fresh (s : State) (c : Context) : (s.setContext c).fresh = s.fresh := rfl
@[simp] theorem State.setContext_freeCount (s : State) (c : Context) : (s.setContext c).freeCount = s.freeCount := rfl

/-! ### setCore -/

@[simp] theorem State.setCore_mem (s : State) (k : Nat) (c : Core) : (s.setCore k c).mem = s.mem := rfl
@[simp] theorem State.setCore_tags (s : State) (k : Nat) (c : Core) : (s.setCore k c).tags = s.tags := rfl
@[simp] theorem State.setCore_poison (s : State) (k : Nat) (c : Core) : (s.setCore k c).poison = s.poison := rfl
@[simp] theorem State.setCore_contexts (s : State) (k : Nat) (c : Core) : (s.setCore k c).contexts = s.contexts := rfl
@[simp] theorem State.setCore_grids (s : State) (k : Nat) (c : Core) : (s.setCore k c).grids = s.grids := rfl
@[simp] theorem State.setCore_teams (s : State) (k : Nat) (c : Core) : (s.setCore k c).teams = s.teams := rfl
@[simp] theorem State.setCore_clusters (s : State) (k : Nat) (c : Core) : (s.setCore k c).clusters = s.clusters := rfl
@[simp] theorem State.setCore_groups (s : State) (k : Nat) (c : Core) : (s.setCore k c).groups = s.groups := rfl
@[simp] theorem State.setCore_sheaves (s : State) (k : Nat) (c : Core) : (s.setCore k c).sheaves = s.sheaves := rfl
@[simp] theorem State.setCore_placements (s : State) (k : Nat) (c : Core) : (s.setCore k c).placements = s.placements := rfl
@[simp] theorem State.setCore_yealms (s : State) (k : Nat) (c : Core) : (s.setCore k c).yealms = s.yealms := rfl
@[simp] theorem State.setCore_dies (s : State) (k : Nat) (c : Core) : (s.setCore k c).dies = s.dies := rfl
@[simp] theorem State.setCore_sections (s : State) (k : Nat) (c : Core) : (s.setCore k c).sections = s.sections := rfl
@[simp] theorem State.setCore_links (s : State) (k : Nat) (c : Core) : (s.setCore k c).links = s.links := rfl
@[simp] theorem State.setCore_channelCopies (s : State) (k : Nat) (c : Core) : (s.setCore k c).channelCopies = s.channelCopies := rfl
@[simp] theorem State.setCore_health (s : State) (k : Nat) (c : Core) : (s.setCore k c).health = s.health := rfl
@[simp] theorem State.setCore_domain (s : State) (k : Nat) (c : Core) : (s.setCore k c).domain = s.domain := rfl
@[simp] theorem State.setCore_members (s : State) (k : Nat) (c : Core) : (s.setCore k c).members = s.members := rfl
@[simp] theorem State.setCore_clock (s : State) (k : Nat) (c : Core) : (s.setCore k c).clock = s.clock := rfl
@[simp] theorem State.setCore_energyAt (s : State) (k : Nat) (c : Core) : (s.setCore k c).energyAt = s.energyAt := rfl
@[simp] theorem State.setCore_log (s : State) (k : Nat) (c : Core) : (s.setCore k c).log = s.log := rfl
@[simp] theorem State.setCore_ready (s : State) (k : Nat) (c : Core) : (s.setCore k c).ready = s.ready := rfl
@[simp] theorem State.setCore_firmware (s : State) (k : Nat) (c : Core) : (s.setCore k c).firmware = s.firmware := rfl
@[simp] theorem State.setCore_resetFail (s : State) (k : Nat) (c : Core) : (s.setCore k c).resetFail = s.resetFail := rfl
@[simp] theorem State.setCore_cur (s : State) (k : Nat) (c : Core) : (s.setCore k c).cur = s.cur := rfl
@[simp] theorem State.setCore_slotLast (s : State) (k : Nat) (c : Core) : (s.setCore k c).slotLast = s.slotLast := rfl
@[simp] theorem State.setCore_issues (s : State) (k : Nat) (c : Core) : (s.setCore k c).issues = s.issues := rfl
@[simp] theorem State.setCore_agenda (s : State) (k : Nat) (c : Core) : (s.setCore k c).agenda = s.agenda := rfl
@[simp] theorem State.setCore_fresh (s : State) (k : Nat) (c : Core) : (s.setCore k c).fresh = s.fresh := rfl
@[simp] theorem State.setCore_freeCount (s : State) (k : Nat) (c : Core) : (s.setCore k c).freeCount = s.freeCount := rfl

/-! ### setDie -/

@[simp] theorem State.setDie_mem (s : State) (k : Nat) (d : Die) : (s.setDie k d).mem = s.mem := rfl
@[simp] theorem State.setDie_tags (s : State) (k : Nat) (d : Die) : (s.setDie k d).tags = s.tags := rfl
@[simp] theorem State.setDie_poison (s : State) (k : Nat) (d : Die) : (s.setDie k d).poison = s.poison := rfl
@[simp] theorem State.setDie_contexts (s : State) (k : Nat) (d : Die) : (s.setDie k d).contexts = s.contexts := rfl
@[simp] theorem State.setDie_grids (s : State) (k : Nat) (d : Die) : (s.setDie k d).grids = s.grids := rfl
@[simp] theorem State.setDie_teams (s : State) (k : Nat) (d : Die) : (s.setDie k d).teams = s.teams := rfl
@[simp] theorem State.setDie_clusters (s : State) (k : Nat) (d : Die) : (s.setDie k d).clusters = s.clusters := rfl
@[simp] theorem State.setDie_groups (s : State) (k : Nat) (d : Die) : (s.setDie k d).groups = s.groups := rfl
@[simp] theorem State.setDie_sheaves (s : State) (k : Nat) (d : Die) : (s.setDie k d).sheaves = s.sheaves := rfl
@[simp] theorem State.setDie_placements (s : State) (k : Nat) (d : Die) : (s.setDie k d).placements = s.placements := rfl
@[simp] theorem State.setDie_yealms (s : State) (k : Nat) (d : Die) : (s.setDie k d).yealms = s.yealms := rfl
@[simp] theorem State.setDie_cores (s : State) (k : Nat) (d : Die) : (s.setDie k d).cores = s.cores := rfl
@[simp] theorem State.setDie_sections (s : State) (k : Nat) (d : Die) : (s.setDie k d).sections = s.sections := rfl
@[simp] theorem State.setDie_links (s : State) (k : Nat) (d : Die) : (s.setDie k d).links = s.links := rfl
@[simp] theorem State.setDie_channelCopies (s : State) (k : Nat) (d : Die) : (s.setDie k d).channelCopies = s.channelCopies := rfl
@[simp] theorem State.setDie_health (s : State) (k : Nat) (d : Die) : (s.setDie k d).health = s.health := rfl
@[simp] theorem State.setDie_domain (s : State) (k : Nat) (d : Die) : (s.setDie k d).domain = s.domain := rfl
@[simp] theorem State.setDie_members (s : State) (k : Nat) (d : Die) : (s.setDie k d).members = s.members := rfl
@[simp] theorem State.setDie_clock (s : State) (k : Nat) (d : Die) : (s.setDie k d).clock = s.clock := rfl
@[simp] theorem State.setDie_energyAt (s : State) (k : Nat) (d : Die) : (s.setDie k d).energyAt = s.energyAt := rfl
@[simp] theorem State.setDie_log (s : State) (k : Nat) (d : Die) : (s.setDie k d).log = s.log := rfl
@[simp] theorem State.setDie_ready (s : State) (k : Nat) (d : Die) : (s.setDie k d).ready = s.ready := rfl
@[simp] theorem State.setDie_firmware (s : State) (k : Nat) (d : Die) : (s.setDie k d).firmware = s.firmware := rfl
@[simp] theorem State.setDie_resetFail (s : State) (k : Nat) (d : Die) : (s.setDie k d).resetFail = s.resetFail := rfl
@[simp] theorem State.setDie_cur (s : State) (k : Nat) (d : Die) : (s.setDie k d).cur = s.cur := rfl
@[simp] theorem State.setDie_slotLast (s : State) (k : Nat) (d : Die) : (s.setDie k d).slotLast = s.slotLast := rfl
@[simp] theorem State.setDie_issues (s : State) (k : Nat) (d : Die) : (s.setDie k d).issues = s.issues := rfl
@[simp] theorem State.setDie_agenda (s : State) (k : Nat) (d : Die) : (s.setDie k d).agenda = s.agenda := rfl
@[simp] theorem State.setDie_fresh (s : State) (k : Nat) (d : Die) : (s.setDie k d).fresh = s.fresh := rfl
@[simp] theorem State.setDie_freeCount (s : State) (k : Nat) (d : Die) : (s.setDie k d).freeCount = s.freeCount := rfl

/-! ### setSheaf -/

@[simp] theorem State.setSheaf_mem (s : State) (k : Sheaf) : (s.setSheaf k).mem = s.mem := rfl
@[simp] theorem State.setSheaf_tags (s : State) (k : Sheaf) : (s.setSheaf k).tags = s.tags := rfl
@[simp] theorem State.setSheaf_poison (s : State) (k : Sheaf) : (s.setSheaf k).poison = s.poison := rfl
@[simp] theorem State.setSheaf_contexts (s : State) (k : Sheaf) : (s.setSheaf k).contexts = s.contexts := rfl
@[simp] theorem State.setSheaf_grids (s : State) (k : Sheaf) : (s.setSheaf k).grids = s.grids := rfl
@[simp] theorem State.setSheaf_teams (s : State) (k : Sheaf) : (s.setSheaf k).teams = s.teams := rfl
@[simp] theorem State.setSheaf_clusters (s : State) (k : Sheaf) : (s.setSheaf k).clusters = s.clusters := rfl
@[simp] theorem State.setSheaf_groups (s : State) (k : Sheaf) : (s.setSheaf k).groups = s.groups := rfl
@[simp] theorem State.setSheaf_placements (s : State) (k : Sheaf) : (s.setSheaf k).placements = s.placements := rfl
@[simp] theorem State.setSheaf_yealms (s : State) (k : Sheaf) : (s.setSheaf k).yealms = s.yealms := rfl
@[simp] theorem State.setSheaf_cores (s : State) (k : Sheaf) : (s.setSheaf k).cores = s.cores := rfl
@[simp] theorem State.setSheaf_dies (s : State) (k : Sheaf) : (s.setSheaf k).dies = s.dies := rfl
@[simp] theorem State.setSheaf_sections (s : State) (k : Sheaf) : (s.setSheaf k).sections = s.sections := rfl
@[simp] theorem State.setSheaf_links (s : State) (k : Sheaf) : (s.setSheaf k).links = s.links := rfl
@[simp] theorem State.setSheaf_channelCopies (s : State) (k : Sheaf) : (s.setSheaf k).channelCopies = s.channelCopies := rfl
@[simp] theorem State.setSheaf_health (s : State) (k : Sheaf) : (s.setSheaf k).health = s.health := rfl
@[simp] theorem State.setSheaf_domain (s : State) (k : Sheaf) : (s.setSheaf k).domain = s.domain := rfl
@[simp] theorem State.setSheaf_members (s : State) (k : Sheaf) : (s.setSheaf k).members = s.members := rfl
@[simp] theorem State.setSheaf_clock (s : State) (k : Sheaf) : (s.setSheaf k).clock = s.clock := rfl
@[simp] theorem State.setSheaf_energyAt (s : State) (k : Sheaf) : (s.setSheaf k).energyAt = s.energyAt := rfl
@[simp] theorem State.setSheaf_log (s : State) (k : Sheaf) : (s.setSheaf k).log = s.log := rfl
@[simp] theorem State.setSheaf_ready (s : State) (k : Sheaf) : (s.setSheaf k).ready = s.ready := rfl
@[simp] theorem State.setSheaf_firmware (s : State) (k : Sheaf) : (s.setSheaf k).firmware = s.firmware := rfl
@[simp] theorem State.setSheaf_resetFail (s : State) (k : Sheaf) : (s.setSheaf k).resetFail = s.resetFail := rfl
@[simp] theorem State.setSheaf_cur (s : State) (k : Sheaf) : (s.setSheaf k).cur = s.cur := rfl
@[simp] theorem State.setSheaf_slotLast (s : State) (k : Sheaf) : (s.setSheaf k).slotLast = s.slotLast := rfl
@[simp] theorem State.setSheaf_issues (s : State) (k : Sheaf) : (s.setSheaf k).issues = s.issues := rfl
@[simp] theorem State.setSheaf_agenda (s : State) (k : Sheaf) : (s.setSheaf k).agenda = s.agenda := rfl
@[simp] theorem State.setSheaf_fresh (s : State) (k : Sheaf) : (s.setSheaf k).fresh = s.fresh := rfl
@[simp] theorem State.setSheaf_freeCount (s : State) (k : Sheaf) : (s.setSheaf k).freeCount = s.freeCount := rfl

/-! ### nextFree -/

@[simp] theorem State.nextFree_mem (s : State) : s.nextFree.mem = s.mem := rfl
@[simp] theorem State.nextFree_tags (s : State) : s.nextFree.tags = s.tags := rfl
@[simp] theorem State.nextFree_poison (s : State) : s.nextFree.poison = s.poison := rfl
@[simp] theorem State.nextFree_contexts (s : State) : s.nextFree.contexts = s.contexts := rfl
@[simp] theorem State.nextFree_grids (s : State) : s.nextFree.grids = s.grids := rfl
@[simp] theorem State.nextFree_teams (s : State) : s.nextFree.teams = s.teams := rfl
@[simp] theorem State.nextFree_clusters (s : State) : s.nextFree.clusters = s.clusters := rfl
@[simp] theorem State.nextFree_groups (s : State) : s.nextFree.groups = s.groups := rfl
@[simp] theorem State.nextFree_sheaves (s : State) : s.nextFree.sheaves = s.sheaves := rfl
@[simp] theorem State.nextFree_placements (s : State) : s.nextFree.placements = s.placements := rfl
@[simp] theorem State.nextFree_yealms (s : State) : s.nextFree.yealms = s.yealms := rfl
@[simp] theorem State.nextFree_cores (s : State) : s.nextFree.cores = s.cores := rfl
@[simp] theorem State.nextFree_dies (s : State) : s.nextFree.dies = s.dies := rfl
@[simp] theorem State.nextFree_sections (s : State) : s.nextFree.sections = s.sections := rfl
@[simp] theorem State.nextFree_links (s : State) : s.nextFree.links = s.links := rfl
@[simp] theorem State.nextFree_channelCopies (s : State) : s.nextFree.channelCopies = s.channelCopies := rfl
@[simp] theorem State.nextFree_health (s : State) : s.nextFree.health = s.health := rfl
@[simp] theorem State.nextFree_domain (s : State) : s.nextFree.domain = s.domain := rfl
@[simp] theorem State.nextFree_members (s : State) : s.nextFree.members = s.members := rfl
@[simp] theorem State.nextFree_clock (s : State) : s.nextFree.clock = s.clock := rfl
@[simp] theorem State.nextFree_energyAt (s : State) : s.nextFree.energyAt = s.energyAt := rfl
@[simp] theorem State.nextFree_log (s : State) : s.nextFree.log = s.log := rfl
@[simp] theorem State.nextFree_ready (s : State) : s.nextFree.ready = s.ready := rfl
@[simp] theorem State.nextFree_firmware (s : State) : s.nextFree.firmware = s.firmware := rfl
@[simp] theorem State.nextFree_resetFail (s : State) : s.nextFree.resetFail = s.resetFail := rfl
@[simp] theorem State.nextFree_cur (s : State) : s.nextFree.cur = s.cur := rfl
@[simp] theorem State.nextFree_slotLast (s : State) : s.nextFree.slotLast = s.slotLast := rfl
@[simp] theorem State.nextFree_issues (s : State) : s.nextFree.issues = s.issues := rfl
@[simp] theorem State.nextFree_agenda (s : State) : s.nextFree.agenda = s.agenda := rfl
@[simp] theorem State.nextFree_fresh (s : State) : s.nextFree.fresh = s.fresh := rfl

/-! ### setTag -/

@[simp] theorem State.setTag_mem (s : State) (a : Nat) : (s.setTag a).mem = s.mem := rfl
@[simp] theorem State.setTag_poison (s : State) (a : Nat) : (s.setTag a).poison = s.poison := rfl
@[simp] theorem State.setTag_contexts (s : State) (a : Nat) : (s.setTag a).contexts = s.contexts := rfl
@[simp] theorem State.setTag_grids (s : State) (a : Nat) : (s.setTag a).grids = s.grids := rfl
@[simp] theorem State.setTag_teams (s : State) (a : Nat) : (s.setTag a).teams = s.teams := rfl
@[simp] theorem State.setTag_clusters (s : State) (a : Nat) : (s.setTag a).clusters = s.clusters := rfl
@[simp] theorem State.setTag_groups (s : State) (a : Nat) : (s.setTag a).groups = s.groups := rfl
@[simp] theorem State.setTag_sheaves (s : State) (a : Nat) : (s.setTag a).sheaves = s.sheaves := rfl
@[simp] theorem State.setTag_placements (s : State) (a : Nat) : (s.setTag a).placements = s.placements := rfl
@[simp] theorem State.setTag_yealms (s : State) (a : Nat) : (s.setTag a).yealms = s.yealms := rfl
@[simp] theorem State.setTag_cores (s : State) (a : Nat) : (s.setTag a).cores = s.cores := rfl
@[simp] theorem State.setTag_dies (s : State) (a : Nat) : (s.setTag a).dies = s.dies := rfl
@[simp] theorem State.setTag_sections (s : State) (a : Nat) : (s.setTag a).sections = s.sections := rfl
@[simp] theorem State.setTag_links (s : State) (a : Nat) : (s.setTag a).links = s.links := rfl
@[simp] theorem State.setTag_channelCopies (s : State) (a : Nat) : (s.setTag a).channelCopies = s.channelCopies := rfl
@[simp] theorem State.setTag_health (s : State) (a : Nat) : (s.setTag a).health = s.health := rfl
@[simp] theorem State.setTag_domain (s : State) (a : Nat) : (s.setTag a).domain = s.domain := rfl
@[simp] theorem State.setTag_members (s : State) (a : Nat) : (s.setTag a).members = s.members := rfl
@[simp] theorem State.setTag_clock (s : State) (a : Nat) : (s.setTag a).clock = s.clock := rfl
@[simp] theorem State.setTag_energyAt (s : State) (a : Nat) : (s.setTag a).energyAt = s.energyAt := rfl
@[simp] theorem State.setTag_log (s : State) (a : Nat) : (s.setTag a).log = s.log := rfl
@[simp] theorem State.setTag_ready (s : State) (a : Nat) : (s.setTag a).ready = s.ready := rfl
@[simp] theorem State.setTag_firmware (s : State) (a : Nat) : (s.setTag a).firmware = s.firmware := rfl
@[simp] theorem State.setTag_resetFail (s : State) (a : Nat) : (s.setTag a).resetFail = s.resetFail := rfl
@[simp] theorem State.setTag_cur (s : State) (a : Nat) : (s.setTag a).cur = s.cur := rfl
@[simp] theorem State.setTag_slotLast (s : State) (a : Nat) : (s.setTag a).slotLast = s.slotLast := rfl
@[simp] theorem State.setTag_issues (s : State) (a : Nat) : (s.setTag a).issues = s.issues := rfl
@[simp] theorem State.setTag_agenda (s : State) (a : Nat) : (s.setTag a).agenda = s.agenda := rfl
@[simp] theorem State.setTag_fresh (s : State) (a : Nat) : (s.setTag a).fresh = s.fresh := rfl
@[simp] theorem State.setTag_freeCount (s : State) (a : Nat) : (s.setTag a).freeCount = s.freeCount := rfl

/-! ### writePhys -/

@[simp] theorem State.writePhys_contexts (s : State) (l : List (Nat × Byte)) : (s.writePhys l).contexts = s.contexts := rfl
@[simp] theorem State.writePhys_grids (s : State) (l : List (Nat × Byte)) : (s.writePhys l).grids = s.grids := rfl
@[simp] theorem State.writePhys_teams (s : State) (l : List (Nat × Byte)) : (s.writePhys l).teams = s.teams := rfl
@[simp] theorem State.writePhys_clusters (s : State) (l : List (Nat × Byte)) : (s.writePhys l).clusters = s.clusters := rfl
@[simp] theorem State.writePhys_groups (s : State) (l : List (Nat × Byte)) : (s.writePhys l).groups = s.groups := rfl
@[simp] theorem State.writePhys_sheaves (s : State) (l : List (Nat × Byte)) : (s.writePhys l).sheaves = s.sheaves := rfl
@[simp] theorem State.writePhys_placements (s : State) (l : List (Nat × Byte)) : (s.writePhys l).placements = s.placements := rfl
@[simp] theorem State.writePhys_yealms (s : State) (l : List (Nat × Byte)) : (s.writePhys l).yealms = s.yealms := rfl
@[simp] theorem State.writePhys_cores (s : State) (l : List (Nat × Byte)) : (s.writePhys l).cores = s.cores := rfl
@[simp] theorem State.writePhys_dies (s : State) (l : List (Nat × Byte)) : (s.writePhys l).dies = s.dies := rfl
@[simp] theorem State.writePhys_sections (s : State) (l : List (Nat × Byte)) : (s.writePhys l).sections = s.sections := rfl
@[simp] theorem State.writePhys_links (s : State) (l : List (Nat × Byte)) : (s.writePhys l).links = s.links := rfl
@[simp] theorem State.writePhys_channelCopies (s : State) (l : List (Nat × Byte)) : (s.writePhys l).channelCopies = s.channelCopies := rfl
@[simp] theorem State.writePhys_health (s : State) (l : List (Nat × Byte)) : (s.writePhys l).health = s.health := rfl
@[simp] theorem State.writePhys_domain (s : State) (l : List (Nat × Byte)) : (s.writePhys l).domain = s.domain := rfl
@[simp] theorem State.writePhys_members (s : State) (l : List (Nat × Byte)) : (s.writePhys l).members = s.members := rfl
@[simp] theorem State.writePhys_clock (s : State) (l : List (Nat × Byte)) : (s.writePhys l).clock = s.clock := rfl
@[simp] theorem State.writePhys_energyAt (s : State) (l : List (Nat × Byte)) : (s.writePhys l).energyAt = s.energyAt := rfl
@[simp] theorem State.writePhys_log (s : State) (l : List (Nat × Byte)) : (s.writePhys l).log = s.log := rfl
@[simp] theorem State.writePhys_ready (s : State) (l : List (Nat × Byte)) : (s.writePhys l).ready = s.ready := rfl
@[simp] theorem State.writePhys_firmware (s : State) (l : List (Nat × Byte)) : (s.writePhys l).firmware = s.firmware := rfl
@[simp] theorem State.writePhys_resetFail (s : State) (l : List (Nat × Byte)) : (s.writePhys l).resetFail = s.resetFail := rfl
@[simp] theorem State.writePhys_cur (s : State) (l : List (Nat × Byte)) : (s.writePhys l).cur = s.cur := rfl
@[simp] theorem State.writePhys_slotLast (s : State) (l : List (Nat × Byte)) : (s.writePhys l).slotLast = s.slotLast := rfl
@[simp] theorem State.writePhys_issues (s : State) (l : List (Nat × Byte)) : (s.writePhys l).issues = s.issues := rfl
@[simp] theorem State.writePhys_agenda (s : State) (l : List (Nat × Byte)) : (s.writePhys l).agenda = s.agenda := rfl
@[simp] theorem State.writePhys_fresh (s : State) (l : List (Nat × Byte)) : (s.writePhys l).fresh = s.fresh := rfl
@[simp] theorem State.writePhys_freeCount (s : State) (l : List (Nat × Byte)) : (s.writePhys l).freeCount = s.freeCount := rfl

/-! ### clauseIssued -/

@[simp] theorem State.clauseIssued_mem (s : State) (g k : Nat) : (s.clauseIssued g k).mem = s.mem := rfl
@[simp] theorem State.clauseIssued_tags (s : State) (g k : Nat) : (s.clauseIssued g k).tags = s.tags := rfl
@[simp] theorem State.clauseIssued_poison (s : State) (g k : Nat) : (s.clauseIssued g k).poison = s.poison := rfl
@[simp] theorem State.clauseIssued_contexts (s : State) (g k : Nat) : (s.clauseIssued g k).contexts = s.contexts := rfl
@[simp] theorem State.clauseIssued_grids (s : State) (g k : Nat) : (s.clauseIssued g k).grids = s.grids := rfl
@[simp] theorem State.clauseIssued_teams (s : State) (g k : Nat) : (s.clauseIssued g k).teams = s.teams := rfl
@[simp] theorem State.clauseIssued_clusters (s : State) (g k : Nat) : (s.clauseIssued g k).clusters = s.clusters := rfl
@[simp] theorem State.clauseIssued_sheaves (s : State) (g k : Nat) : (s.clauseIssued g k).sheaves = s.sheaves := rfl
@[simp] theorem State.clauseIssued_placements (s : State) (g k : Nat) : (s.clauseIssued g k).placements = s.placements := rfl
@[simp] theorem State.clauseIssued_yealms (s : State) (g k : Nat) : (s.clauseIssued g k).yealms = s.yealms := rfl
@[simp] theorem State.clauseIssued_cores (s : State) (g k : Nat) : (s.clauseIssued g k).cores = s.cores := rfl
@[simp] theorem State.clauseIssued_dies (s : State) (g k : Nat) : (s.clauseIssued g k).dies = s.dies := rfl
@[simp] theorem State.clauseIssued_sections (s : State) (g k : Nat) : (s.clauseIssued g k).sections = s.sections := rfl
@[simp] theorem State.clauseIssued_links (s : State) (g k : Nat) : (s.clauseIssued g k).links = s.links := rfl
@[simp] theorem State.clauseIssued_channelCopies (s : State) (g k : Nat) : (s.clauseIssued g k).channelCopies = s.channelCopies := rfl
@[simp] theorem State.clauseIssued_health (s : State) (g k : Nat) : (s.clauseIssued g k).health = s.health := rfl
@[simp] theorem State.clauseIssued_domain (s : State) (g k : Nat) : (s.clauseIssued g k).domain = s.domain := rfl
@[simp] theorem State.clauseIssued_members (s : State) (g k : Nat) : (s.clauseIssued g k).members = s.members := rfl
@[simp] theorem State.clauseIssued_clock (s : State) (g k : Nat) : (s.clauseIssued g k).clock = s.clock := rfl
@[simp] theorem State.clauseIssued_energyAt (s : State) (g k : Nat) : (s.clauseIssued g k).energyAt = s.energyAt := rfl
@[simp] theorem State.clauseIssued_log (s : State) (g k : Nat) : (s.clauseIssued g k).log = s.log := rfl
@[simp] theorem State.clauseIssued_ready (s : State) (g k : Nat) : (s.clauseIssued g k).ready = s.ready := rfl
@[simp] theorem State.clauseIssued_firmware (s : State) (g k : Nat) : (s.clauseIssued g k).firmware = s.firmware := rfl
@[simp] theorem State.clauseIssued_resetFail (s : State) (g k : Nat) : (s.clauseIssued g k).resetFail = s.resetFail := rfl
@[simp] theorem State.clauseIssued_cur (s : State) (g k : Nat) : (s.clauseIssued g k).cur = s.cur := rfl
@[simp] theorem State.clauseIssued_slotLast (s : State) (g k : Nat) : (s.clauseIssued g k).slotLast = s.slotLast := rfl
@[simp] theorem State.clauseIssued_issues (s : State) (g k : Nat) : (s.clauseIssued g k).issues = s.issues := rfl
@[simp] theorem State.clauseIssued_agenda (s : State) (g k : Nat) : (s.clauseIssued g k).agenda = s.agenda := rfl
@[simp] theorem State.clauseIssued_fresh (s : State) (g k : Nat) : (s.clauseIssued g k).fresh = s.fresh := rfl
@[simp] theorem State.clauseIssued_freeCount (s : State) (g k : Nat) : (s.clauseIssued g k).freeCount = s.freeCount := rfl

/-! ### newPeriod -/

@[simp] theorem State.newPeriod_mem (s : State) (core slot : Nat) : (s.newPeriod core slot).mem = s.mem := rfl
@[simp] theorem State.newPeriod_tags (s : State) (core slot : Nat) : (s.newPeriod core slot).tags = s.tags := rfl
@[simp] theorem State.newPeriod_poison (s : State) (core slot : Nat) : (s.newPeriod core slot).poison = s.poison := rfl
@[simp] theorem State.newPeriod_contexts (s : State) (core slot : Nat) : (s.newPeriod core slot).contexts = s.contexts := rfl
@[simp] theorem State.newPeriod_grids (s : State) (core slot : Nat) : (s.newPeriod core slot).grids = s.grids := rfl
@[simp] theorem State.newPeriod_teams (s : State) (core slot : Nat) : (s.newPeriod core slot).teams = s.teams := rfl
@[simp] theorem State.newPeriod_clusters (s : State) (core slot : Nat) : (s.newPeriod core slot).clusters = s.clusters := rfl
@[simp] theorem State.newPeriod_sheaves (s : State) (core slot : Nat) : (s.newPeriod core slot).sheaves = s.sheaves := rfl
@[simp] theorem State.newPeriod_placements (s : State) (core slot : Nat) : (s.newPeriod core slot).placements = s.placements := rfl
@[simp] theorem State.newPeriod_yealms (s : State) (core slot : Nat) : (s.newPeriod core slot).yealms = s.yealms := rfl
@[simp] theorem State.newPeriod_cores (s : State) (core slot : Nat) : (s.newPeriod core slot).cores = s.cores := rfl
@[simp] theorem State.newPeriod_dies (s : State) (core slot : Nat) : (s.newPeriod core slot).dies = s.dies := rfl
@[simp] theorem State.newPeriod_sections (s : State) (core slot : Nat) : (s.newPeriod core slot).sections = s.sections := rfl
@[simp] theorem State.newPeriod_links (s : State) (core slot : Nat) : (s.newPeriod core slot).links = s.links := rfl
@[simp] theorem State.newPeriod_channelCopies (s : State) (core slot : Nat) : (s.newPeriod core slot).channelCopies = s.channelCopies := rfl
@[simp] theorem State.newPeriod_health (s : State) (core slot : Nat) : (s.newPeriod core slot).health = s.health := rfl
@[simp] theorem State.newPeriod_domain (s : State) (core slot : Nat) : (s.newPeriod core slot).domain = s.domain := rfl
@[simp] theorem State.newPeriod_members (s : State) (core slot : Nat) : (s.newPeriod core slot).members = s.members := rfl
@[simp] theorem State.newPeriod_clock (s : State) (core slot : Nat) : (s.newPeriod core slot).clock = s.clock := rfl
@[simp] theorem State.newPeriod_energyAt (s : State) (core slot : Nat) : (s.newPeriod core slot).energyAt = s.energyAt := rfl
@[simp] theorem State.newPeriod_log (s : State) (core slot : Nat) : (s.newPeriod core slot).log = s.log := rfl
@[simp] theorem State.newPeriod_ready (s : State) (core slot : Nat) : (s.newPeriod core slot).ready = s.ready := rfl
@[simp] theorem State.newPeriod_firmware (s : State) (core slot : Nat) : (s.newPeriod core slot).firmware = s.firmware := rfl
@[simp] theorem State.newPeriod_resetFail (s : State) (core slot : Nat) : (s.newPeriod core slot).resetFail = s.resetFail := rfl
@[simp] theorem State.newPeriod_cur (s : State) (core slot : Nat) : (s.newPeriod core slot).cur = s.cur := rfl
@[simp] theorem State.newPeriod_slotLast (s : State) (core slot : Nat) : (s.newPeriod core slot).slotLast = s.slotLast := rfl
@[simp] theorem State.newPeriod_issues (s : State) (core slot : Nat) : (s.newPeriod core slot).issues = s.issues := rfl
@[simp] theorem State.newPeriod_agenda (s : State) (core slot : Nat) : (s.newPeriod core slot).agenda = s.agenda := rfl
@[simp] theorem State.newPeriod_fresh (s : State) (core slot : Nat) : (s.newPeriod core slot).fresh = s.fresh := rfl
@[simp] theorem State.newPeriod_freeCount (s : State) (core slot : Nat) : (s.newPeriod core slot).freeCount = s.freeCount := rfl

/-! ### mapQueue -/

@[simp] theorem State.mapQueue_mem (s : State) (c q : Nat) (f : Queue → Queue) : (s.mapQueue c q f).mem = s.mem := rfl
@[simp] theorem State.mapQueue_tags (s : State) (c q : Nat) (f : Queue → Queue) : (s.mapQueue c q f).tags = s.tags := rfl
@[simp] theorem State.mapQueue_poison (s : State) (c q : Nat) (f : Queue → Queue) : (s.mapQueue c q f).poison = s.poison := rfl
@[simp] theorem State.mapQueue_grids (s : State) (c q : Nat) (f : Queue → Queue) : (s.mapQueue c q f).grids = s.grids := rfl
@[simp] theorem State.mapQueue_teams (s : State) (c q : Nat) (f : Queue → Queue) : (s.mapQueue c q f).teams = s.teams := rfl
@[simp] theorem State.mapQueue_clusters (s : State) (c q : Nat) (f : Queue → Queue) : (s.mapQueue c q f).clusters = s.clusters := rfl
@[simp] theorem State.mapQueue_groups (s : State) (c q : Nat) (f : Queue → Queue) : (s.mapQueue c q f).groups = s.groups := rfl
@[simp] theorem State.mapQueue_sheaves (s : State) (c q : Nat) (f : Queue → Queue) : (s.mapQueue c q f).sheaves = s.sheaves := rfl
@[simp] theorem State.mapQueue_placements (s : State) (c q : Nat) (f : Queue → Queue) : (s.mapQueue c q f).placements = s.placements := rfl
@[simp] theorem State.mapQueue_yealms (s : State) (c q : Nat) (f : Queue → Queue) : (s.mapQueue c q f).yealms = s.yealms := rfl
@[simp] theorem State.mapQueue_cores (s : State) (c q : Nat) (f : Queue → Queue) : (s.mapQueue c q f).cores = s.cores := rfl
@[simp] theorem State.mapQueue_dies (s : State) (c q : Nat) (f : Queue → Queue) : (s.mapQueue c q f).dies = s.dies := rfl
@[simp] theorem State.mapQueue_sections (s : State) (c q : Nat) (f : Queue → Queue) : (s.mapQueue c q f).sections = s.sections := rfl
@[simp] theorem State.mapQueue_links (s : State) (c q : Nat) (f : Queue → Queue) : (s.mapQueue c q f).links = s.links := rfl
@[simp] theorem State.mapQueue_channelCopies (s : State) (c q : Nat) (f : Queue → Queue) : (s.mapQueue c q f).channelCopies = s.channelCopies := rfl
@[simp] theorem State.mapQueue_health (s : State) (c q : Nat) (f : Queue → Queue) : (s.mapQueue c q f).health = s.health := rfl
@[simp] theorem State.mapQueue_domain (s : State) (c q : Nat) (f : Queue → Queue) : (s.mapQueue c q f).domain = s.domain := rfl
@[simp] theorem State.mapQueue_members (s : State) (c q : Nat) (f : Queue → Queue) : (s.mapQueue c q f).members = s.members := rfl
@[simp] theorem State.mapQueue_clock (s : State) (c q : Nat) (f : Queue → Queue) : (s.mapQueue c q f).clock = s.clock := rfl
@[simp] theorem State.mapQueue_energyAt (s : State) (c q : Nat) (f : Queue → Queue) : (s.mapQueue c q f).energyAt = s.energyAt := rfl
@[simp] theorem State.mapQueue_log (s : State) (c q : Nat) (f : Queue → Queue) : (s.mapQueue c q f).log = s.log := rfl
@[simp] theorem State.mapQueue_ready (s : State) (c q : Nat) (f : Queue → Queue) : (s.mapQueue c q f).ready = s.ready := rfl
@[simp] theorem State.mapQueue_firmware (s : State) (c q : Nat) (f : Queue → Queue) : (s.mapQueue c q f).firmware = s.firmware := rfl
@[simp] theorem State.mapQueue_resetFail (s : State) (c q : Nat) (f : Queue → Queue) : (s.mapQueue c q f).resetFail = s.resetFail := rfl
@[simp] theorem State.mapQueue_cur (s : State) (c q : Nat) (f : Queue → Queue) : (s.mapQueue c q f).cur = s.cur := rfl
@[simp] theorem State.mapQueue_slotLast (s : State) (c q : Nat) (f : Queue → Queue) : (s.mapQueue c q f).slotLast = s.slotLast := rfl
@[simp] theorem State.mapQueue_issues (s : State) (c q : Nat) (f : Queue → Queue) : (s.mapQueue c q f).issues = s.issues := rfl
@[simp] theorem State.mapQueue_agenda (s : State) (c q : Nat) (f : Queue → Queue) : (s.mapQueue c q f).agenda = s.agenda := rfl
@[simp] theorem State.mapQueue_fresh (s : State) (c q : Nat) (f : Queue → Queue) : (s.mapQueue c q f).fresh = s.fresh := rfl
@[simp] theorem State.mapQueue_freeCount (s : State) (c q : Nat) (f : Queue → Queue) : (s.mapQueue c q f).freeCount = s.freeCount := rfl

/-! ### leaveOwed -/

@[simp] theorem State.leaveOwed_mem (s : State) (g : Nat) : (s.leaveOwed g).mem = s.mem := rfl
@[simp] theorem State.leaveOwed_tags (s : State) (g : Nat) : (s.leaveOwed g).tags = s.tags := rfl
@[simp] theorem State.leaveOwed_poison (s : State) (g : Nat) : (s.leaveOwed g).poison = s.poison := rfl
@[simp] theorem State.leaveOwed_contexts (s : State) (g : Nat) : (s.leaveOwed g).contexts = s.contexts := rfl
@[simp] theorem State.leaveOwed_grids (s : State) (g : Nat) : (s.leaveOwed g).grids = s.grids := rfl
@[simp] theorem State.leaveOwed_teams (s : State) (g : Nat) : (s.leaveOwed g).teams = s.teams := rfl
@[simp] theorem State.leaveOwed_clusters (s : State) (g : Nat) : (s.leaveOwed g).clusters = s.clusters := rfl
@[simp] theorem State.leaveOwed_sheaves (s : State) (g : Nat) : (s.leaveOwed g).sheaves = s.sheaves := rfl
@[simp] theorem State.leaveOwed_placements (s : State) (g : Nat) : (s.leaveOwed g).placements = s.placements := rfl
@[simp] theorem State.leaveOwed_yealms (s : State) (g : Nat) : (s.leaveOwed g).yealms = s.yealms := rfl
@[simp] theorem State.leaveOwed_cores (s : State) (g : Nat) : (s.leaveOwed g).cores = s.cores := rfl
@[simp] theorem State.leaveOwed_dies (s : State) (g : Nat) : (s.leaveOwed g).dies = s.dies := rfl
@[simp] theorem State.leaveOwed_sections (s : State) (g : Nat) : (s.leaveOwed g).sections = s.sections := rfl
@[simp] theorem State.leaveOwed_links (s : State) (g : Nat) : (s.leaveOwed g).links = s.links := rfl
@[simp] theorem State.leaveOwed_channelCopies (s : State) (g : Nat) : (s.leaveOwed g).channelCopies = s.channelCopies := rfl
@[simp] theorem State.leaveOwed_health (s : State) (g : Nat) : (s.leaveOwed g).health = s.health := rfl
@[simp] theorem State.leaveOwed_domain (s : State) (g : Nat) : (s.leaveOwed g).domain = s.domain := rfl
@[simp] theorem State.leaveOwed_members (s : State) (g : Nat) : (s.leaveOwed g).members = s.members := rfl
@[simp] theorem State.leaveOwed_clock (s : State) (g : Nat) : (s.leaveOwed g).clock = s.clock := rfl
@[simp] theorem State.leaveOwed_energyAt (s : State) (g : Nat) : (s.leaveOwed g).energyAt = s.energyAt := rfl
@[simp] theorem State.leaveOwed_log (s : State) (g : Nat) : (s.leaveOwed g).log = s.log := rfl
@[simp] theorem State.leaveOwed_ready (s : State) (g : Nat) : (s.leaveOwed g).ready = s.ready := rfl
@[simp] theorem State.leaveOwed_firmware (s : State) (g : Nat) : (s.leaveOwed g).firmware = s.firmware := rfl
@[simp] theorem State.leaveOwed_resetFail (s : State) (g : Nat) : (s.leaveOwed g).resetFail = s.resetFail := rfl
@[simp] theorem State.leaveOwed_cur (s : State) (g : Nat) : (s.leaveOwed g).cur = s.cur := rfl
@[simp] theorem State.leaveOwed_slotLast (s : State) (g : Nat) : (s.leaveOwed g).slotLast = s.slotLast := rfl
@[simp] theorem State.leaveOwed_issues (s : State) (g : Nat) : (s.leaveOwed g).issues = s.issues := rfl
@[simp] theorem State.leaveOwed_agenda (s : State) (g : Nat) : (s.leaveOwed g).agenda = s.agenda := rfl
@[simp] theorem State.leaveOwed_fresh (s : State) (g : Nat) : (s.leaveOwed g).fresh = s.fresh := rfl
@[simp] theorem State.leaveOwed_freeCount (s : State) (g : Nat) : (s.leaveOwed g).freeCount = s.freeCount := rfl

/-! ### setLink -/

@[simp] theorem State.setLink_mem (s : State) (k : Nat) (l : Link) : (s.setLink k l).mem = s.mem := rfl
@[simp] theorem State.setLink_tags (s : State) (k : Nat) (l : Link) : (s.setLink k l).tags = s.tags := rfl
@[simp] theorem State.setLink_poison (s : State) (k : Nat) (l : Link) : (s.setLink k l).poison = s.poison := rfl
@[simp] theorem State.setLink_contexts (s : State) (k : Nat) (l : Link) : (s.setLink k l).contexts = s.contexts := rfl
@[simp] theorem State.setLink_grids (s : State) (k : Nat) (l : Link) : (s.setLink k l).grids = s.grids := rfl
@[simp] theorem State.setLink_teams (s : State) (k : Nat) (l : Link) : (s.setLink k l).teams = s.teams := rfl
@[simp] theorem State.setLink_clusters (s : State) (k : Nat) (l : Link) : (s.setLink k l).clusters = s.clusters := rfl
@[simp] theorem State.setLink_groups (s : State) (k : Nat) (l : Link) : (s.setLink k l).groups = s.groups := rfl
@[simp] theorem State.setLink_sheaves (s : State) (k : Nat) (l : Link) : (s.setLink k l).sheaves = s.sheaves := rfl
@[simp] theorem State.setLink_placements (s : State) (k : Nat) (l : Link) : (s.setLink k l).placements = s.placements := rfl
@[simp] theorem State.setLink_yealms (s : State) (k : Nat) (l : Link) : (s.setLink k l).yealms = s.yealms := rfl
@[simp] theorem State.setLink_cores (s : State) (k : Nat) (l : Link) : (s.setLink k l).cores = s.cores := rfl
@[simp] theorem State.setLink_dies (s : State) (k : Nat) (l : Link) : (s.setLink k l).dies = s.dies := rfl
@[simp] theorem State.setLink_sections (s : State) (k : Nat) (l : Link) : (s.setLink k l).sections = s.sections := rfl
@[simp] theorem State.setLink_channelCopies (s : State) (k : Nat) (l : Link) : (s.setLink k l).channelCopies = s.channelCopies := rfl
@[simp] theorem State.setLink_health (s : State) (k : Nat) (l : Link) : (s.setLink k l).health = s.health := rfl
@[simp] theorem State.setLink_domain (s : State) (k : Nat) (l : Link) : (s.setLink k l).domain = s.domain := rfl
@[simp] theorem State.setLink_members (s : State) (k : Nat) (l : Link) : (s.setLink k l).members = s.members := rfl
@[simp] theorem State.setLink_clock (s : State) (k : Nat) (l : Link) : (s.setLink k l).clock = s.clock := rfl
@[simp] theorem State.setLink_energyAt (s : State) (k : Nat) (l : Link) : (s.setLink k l).energyAt = s.energyAt := rfl
@[simp] theorem State.setLink_log (s : State) (k : Nat) (l : Link) : (s.setLink k l).log = s.log := rfl
@[simp] theorem State.setLink_ready (s : State) (k : Nat) (l : Link) : (s.setLink k l).ready = s.ready := rfl
@[simp] theorem State.setLink_firmware (s : State) (k : Nat) (l : Link) : (s.setLink k l).firmware = s.firmware := rfl
@[simp] theorem State.setLink_resetFail (s : State) (k : Nat) (l : Link) : (s.setLink k l).resetFail = s.resetFail := rfl
@[simp] theorem State.setLink_cur (s : State) (k : Nat) (l : Link) : (s.setLink k l).cur = s.cur := rfl
@[simp] theorem State.setLink_slotLast (s : State) (k : Nat) (l : Link) : (s.setLink k l).slotLast = s.slotLast := rfl
@[simp] theorem State.setLink_issues (s : State) (k : Nat) (l : Link) : (s.setLink k l).issues = s.issues := rfl
@[simp] theorem State.setLink_agenda (s : State) (k : Nat) (l : Link) : (s.setLink k l).agenda = s.agenda := rfl
@[simp] theorem State.setLink_fresh (s : State) (k : Nat) (l : Link) : (s.setLink k l).fresh = s.fresh := rfl
@[simp] theorem State.setLink_freeCount (s : State) (k : Nat) (l : Link) : (s.setLink k l).freeCount = s.freeCount := rfl

/-! ### setSection -/

@[simp] theorem State.setSection_mem (s : State) (k : Nat) (x : Section) : (s.setSection k x).mem = s.mem := rfl
@[simp] theorem State.setSection_tags (s : State) (k : Nat) (x : Section) : (s.setSection k x).tags = s.tags := rfl
@[simp] theorem State.setSection_poison (s : State) (k : Nat) (x : Section) : (s.setSection k x).poison = s.poison := rfl
@[simp] theorem State.setSection_contexts (s : State) (k : Nat) (x : Section) : (s.setSection k x).contexts = s.contexts := rfl
@[simp] theorem State.setSection_grids (s : State) (k : Nat) (x : Section) : (s.setSection k x).grids = s.grids := rfl
@[simp] theorem State.setSection_teams (s : State) (k : Nat) (x : Section) : (s.setSection k x).teams = s.teams := rfl
@[simp] theorem State.setSection_clusters (s : State) (k : Nat) (x : Section) : (s.setSection k x).clusters = s.clusters := rfl
@[simp] theorem State.setSection_groups (s : State) (k : Nat) (x : Section) : (s.setSection k x).groups = s.groups := rfl
@[simp] theorem State.setSection_sheaves (s : State) (k : Nat) (x : Section) : (s.setSection k x).sheaves = s.sheaves := rfl
@[simp] theorem State.setSection_placements (s : State) (k : Nat) (x : Section) : (s.setSection k x).placements = s.placements := rfl
@[simp] theorem State.setSection_yealms (s : State) (k : Nat) (x : Section) : (s.setSection k x).yealms = s.yealms := rfl
@[simp] theorem State.setSection_cores (s : State) (k : Nat) (x : Section) : (s.setSection k x).cores = s.cores := rfl
@[simp] theorem State.setSection_dies (s : State) (k : Nat) (x : Section) : (s.setSection k x).dies = s.dies := rfl
@[simp] theorem State.setSection_links (s : State) (k : Nat) (x : Section) : (s.setSection k x).links = s.links := rfl
@[simp] theorem State.setSection_channelCopies (s : State) (k : Nat) (x : Section) : (s.setSection k x).channelCopies = s.channelCopies := rfl
@[simp] theorem State.setSection_health (s : State) (k : Nat) (x : Section) : (s.setSection k x).health = s.health := rfl
@[simp] theorem State.setSection_domain (s : State) (k : Nat) (x : Section) : (s.setSection k x).domain = s.domain := rfl
@[simp] theorem State.setSection_members (s : State) (k : Nat) (x : Section) : (s.setSection k x).members = s.members := rfl
@[simp] theorem State.setSection_clock (s : State) (k : Nat) (x : Section) : (s.setSection k x).clock = s.clock := rfl
@[simp] theorem State.setSection_energyAt (s : State) (k : Nat) (x : Section) : (s.setSection k x).energyAt = s.energyAt := rfl
@[simp] theorem State.setSection_log (s : State) (k : Nat) (x : Section) : (s.setSection k x).log = s.log := rfl
@[simp] theorem State.setSection_ready (s : State) (k : Nat) (x : Section) : (s.setSection k x).ready = s.ready := rfl
@[simp] theorem State.setSection_firmware (s : State) (k : Nat) (x : Section) : (s.setSection k x).firmware = s.firmware := rfl
@[simp] theorem State.setSection_resetFail (s : State) (k : Nat) (x : Section) : (s.setSection k x).resetFail = s.resetFail := rfl
@[simp] theorem State.setSection_cur (s : State) (k : Nat) (x : Section) : (s.setSection k x).cur = s.cur := rfl
@[simp] theorem State.setSection_slotLast (s : State) (k : Nat) (x : Section) : (s.setSection k x).slotLast = s.slotLast := rfl
@[simp] theorem State.setSection_issues (s : State) (k : Nat) (x : Section) : (s.setSection k x).issues = s.issues := rfl
@[simp] theorem State.setSection_agenda (s : State) (k : Nat) (x : Section) : (s.setSection k x).agenda = s.agenda := rfl
@[simp] theorem State.setSection_fresh (s : State) (k : Nat) (x : Section) : (s.setSection k x).fresh = s.fresh := rfl
@[simp] theorem State.setSection_freeCount (s : State) (k : Nat) (x : Section) : (s.setSection k x).freeCount = s.freeCount := rfl

/-! ### tick -/

@[simp] theorem State.tick_mem (s : State) : s.tick.mem = s.mem := rfl
@[simp] theorem State.tick_tags (s : State) : s.tick.tags = s.tags := rfl
@[simp] theorem State.tick_poison (s : State) : s.tick.poison = s.poison := rfl
@[simp] theorem State.tick_grids (s : State) : s.tick.grids = s.grids := rfl
@[simp] theorem State.tick_teams (s : State) : s.tick.teams = s.teams := rfl
@[simp] theorem State.tick_clusters (s : State) : s.tick.clusters = s.clusters := rfl
@[simp] theorem State.tick_groups (s : State) : s.tick.groups = s.groups := rfl
@[simp] theorem State.tick_sheaves (s : State) : s.tick.sheaves = s.sheaves := rfl
@[simp] theorem State.tick_placements (s : State) : s.tick.placements = s.placements := rfl
@[simp] theorem State.tick_yealms (s : State) : s.tick.yealms = s.yealms := rfl
@[simp] theorem State.tick_cores (s : State) : s.tick.cores = s.cores := rfl
@[simp] theorem State.tick_dies (s : State) : s.tick.dies = s.dies := rfl
@[simp] theorem State.tick_sections (s : State) : s.tick.sections = s.sections := rfl
@[simp] theorem State.tick_links (s : State) : s.tick.links = s.links := rfl
@[simp] theorem State.tick_channelCopies (s : State) : s.tick.channelCopies = s.channelCopies := rfl
@[simp] theorem State.tick_health (s : State) : s.tick.health = s.health := rfl
@[simp] theorem State.tick_domain (s : State) : s.tick.domain = s.domain := rfl
@[simp] theorem State.tick_members (s : State) : s.tick.members = s.members := rfl
@[simp] theorem State.tick_energyAt (s : State) : s.tick.energyAt = s.energyAt := rfl
@[simp] theorem State.tick_log (s : State) : s.tick.log = s.log := rfl
@[simp] theorem State.tick_ready (s : State) : s.tick.ready = s.ready := rfl
@[simp] theorem State.tick_firmware (s : State) : s.tick.firmware = s.firmware := rfl
@[simp] theorem State.tick_resetFail (s : State) : s.tick.resetFail = s.resetFail := rfl
@[simp] theorem State.tick_cur (s : State) : s.tick.cur = s.cur := rfl
@[simp] theorem State.tick_slotLast (s : State) : s.tick.slotLast = s.slotLast := rfl
@[simp] theorem State.tick_issues (s : State) : s.tick.issues = s.issues := rfl
@[simp] theorem State.tick_agenda (s : State) : s.tick.agenda = s.agenda := rfl
@[simp] theorem State.tick_fresh (s : State) : s.tick.fresh = s.fresh := rfl

/-! ### sated -/

@[simp] theorem State.sated_mem (s : State) : s.sated.mem = s.mem := by
  unfold State.sated; split <;> rfl
@[simp] theorem State.sated_tags (s : State) : s.sated.tags = s.tags := by
  unfold State.sated; split <;> rfl
@[simp] theorem State.sated_poison (s : State) : s.sated.poison = s.poison := by
  unfold State.sated; split <;> rfl
@[simp] theorem State.sated_contexts (s : State) : s.sated.contexts = s.contexts := by
  unfold State.sated; split <;> rfl
@[simp] theorem State.sated_grids (s : State) : s.sated.grids = s.grids := by
  unfold State.sated; split <;> rfl
@[simp] theorem State.sated_teams (s : State) : s.sated.teams = s.teams := by
  unfold State.sated; split <;> rfl
@[simp] theorem State.sated_clusters (s : State) : s.sated.clusters = s.clusters := by
  unfold State.sated; split <;> rfl
@[simp] theorem State.sated_sheaves (s : State) : s.sated.sheaves = s.sheaves := by
  unfold State.sated; split <;> rfl
@[simp] theorem State.sated_placements (s : State) : s.sated.placements = s.placements := by
  unfold State.sated; split <;> rfl
@[simp] theorem State.sated_yealms (s : State) : s.sated.yealms = s.yealms := by
  unfold State.sated; split <;> rfl
@[simp] theorem State.sated_cores (s : State) : s.sated.cores = s.cores := by
  unfold State.sated; split <;> rfl
@[simp] theorem State.sated_dies (s : State) : s.sated.dies = s.dies := by
  unfold State.sated; split <;> rfl
@[simp] theorem State.sated_sections (s : State) : s.sated.sections = s.sections := by
  unfold State.sated; split <;> rfl
@[simp] theorem State.sated_links (s : State) : s.sated.links = s.links := by
  unfold State.sated; split <;> rfl
@[simp] theorem State.sated_channelCopies (s : State) : s.sated.channelCopies = s.channelCopies := by
  unfold State.sated; split <;> rfl
@[simp] theorem State.sated_health (s : State) : s.sated.health = s.health := by
  unfold State.sated; split <;> rfl
@[simp] theorem State.sated_domain (s : State) : s.sated.domain = s.domain := by
  unfold State.sated; split <;> rfl
@[simp] theorem State.sated_members (s : State) : s.sated.members = s.members := by
  unfold State.sated; split <;> rfl
@[simp] theorem State.sated_clock (s : State) : s.sated.clock = s.clock := by
  unfold State.sated; split <;> rfl
@[simp] theorem State.sated_energyAt (s : State) : s.sated.energyAt = s.energyAt := by
  unfold State.sated; split <;> rfl
@[simp] theorem State.sated_log (s : State) : s.sated.log = s.log := by
  unfold State.sated; split <;> rfl
@[simp] theorem State.sated_ready (s : State) : s.sated.ready = s.ready := by
  unfold State.sated; split <;> rfl
@[simp] theorem State.sated_firmware (s : State) : s.sated.firmware = s.firmware := by
  unfold State.sated; split <;> rfl
@[simp] theorem State.sated_resetFail (s : State) : s.sated.resetFail = s.resetFail := by
  unfold State.sated; split <;> rfl
@[simp] theorem State.sated_cur (s : State) : s.sated.cur = s.cur := by
  unfold State.sated; split <;> rfl
@[simp] theorem State.sated_slotLast (s : State) : s.sated.slotLast = s.slotLast := by
  unfold State.sated; split <;> rfl
@[simp] theorem State.sated_issues (s : State) : s.sated.issues = s.issues := by
  unfold State.sated; split <;> rfl
@[simp] theorem State.sated_agenda (s : State) : s.sated.agenda = s.agenda := by
  unfold State.sated; split <;> rfl
@[simp] theorem State.sated_fresh (s : State) : s.sated.fresh = s.fresh := by
  unfold State.sated; split <;> rfl
@[simp] theorem State.sated_freeCount (s : State) : s.sated.freeCount = s.freeCount := by
  unfold State.sated; split <;> rfl

/-! ### A group's own updates -/

@[simp] theorem Group.writeV_id (g : Group) (n : Nat) (m : DWord) (f : Nat → Word) : (g.writeV n m f).id = g.id := rfl
@[simp] theorem Group.writeV_grid (g : Group) (n : Nat) (m : DWord) (f : Nat → Word) : (g.writeV n m f).grid = g.grid := rfl
@[simp] theorem Group.writeV_team (g : Group) (n : Nat) (m : DWord) (f : Nat → Word) : (g.writeV n m f).team = g.team := rfl
@[simp] theorem Group.writeV_index (g : Group) (n : Nat) (m : DWord) (f : Nat → Word) : (g.writeV n m f).index = g.index := rfl
@[simp] theorem Group.writeV_core (g : Group) (n : Nat) (m : DWord) (f : Nat → Word) : (g.writeV n m f).core = g.core := rfl
@[simp] theorem Group.writeV_pos (g : Group) (n : Nat) (m : DWord) (f : Nat → Word) : (g.writeV n m f).pos = g.pos := rfl
@[simp] theorem Group.writeV_res (g : Group) (n : Nat) (m : DWord) (f : Nat → Word) : (g.writeV n m f).res = g.res := rfl
@[simp] theorem Group.writeV_ganged (g : Group) (n : Nat) (m : DWord) (f : Nat → Word) : (g.writeV n m f).ganged = g.ganged := rfl
@[simp] theorem Group.writeV_opclass (g : Group) (n : Nat) (m : DWord) (f : Nat → Word) : (g.writeV n m f).opclass = g.opclass := rfl
@[simp] theorem Group.writeV_p (g : Group) (n : Nat) (m : DWord) (f : Nat → Word) : (g.writeV n m f).p = g.p := rfl
@[simp] theorem Group.writeV_bank0 (g : Group) (n : Nat) (m : DWord) (f : Nat → Word) : (g.writeV n m f).bank0 = g.bank0 := rfl
@[simp] theorem Group.writeV_bank1 (g : Group) (n : Nat) (m : DWord) (f : Nat → Word) : (g.writeV n m f).bank1 = g.bank1 := rfl
@[simp] theorem Group.writeV_slot0 (g : Group) (n : Nat) (m : DWord) (f : Nat → Word) : (g.writeV n m f).slot0 = g.slot0 := rfl
@[simp] theorem Group.writeV_slot1 (g : Group) (n : Nat) (m : DWord) (f : Nat → Word) : (g.writeV n m f).slot1 = g.slot1 := rfl
@[simp] theorem Group.writeV_bars (g : Group) (n : Nat) (m : DWord) (f : Nat → Word) : (g.writeV n m f).bars = g.bars := rfl
@[simp] theorem Group.writeV_depth (g : Group) (n : Nat) (m : DWord) (f : Nat → Word) : (g.writeV n m f).depth = g.depth := rfl
@[simp] theorem Group.writeV_sheaf (g : Group) (n : Nat) (m : DWord) (f : Nat → Word) : (g.writeV n m f).sheaf = g.sheaf := rfl
@[simp] theorem Group.writeV_nested (g : Group) (n : Nat) (m : DWord) (f : Nat → Word) : (g.writeV n m f).nested = g.nested := rfl
@[simp] theorem Group.writeV_cands (g : Group) (n : Nat) (m : DWord) (f : Nat → Word) : (g.writeV n m f).cands = g.cands := rfl
@[simp] theorem Group.writeV_glue (g : Group) (n : Nat) (m : DWord) (f : Nat → Word) : (g.writeV n m f).glue = g.glue := rfl
@[simp] theorem Group.writeV_owed (g : Group) (n : Nat) (m : DWord) (f : Nat → Word) : (g.writeV n m f).owed = g.owed := rfl
@[simp] theorem Group.writeV_demote (g : Group) (n : Nat) (m : DWord) (f : Nat → Word) : (g.writeV n m f).demote = g.demote := rfl
@[simp] theorem Group.writeV_issued (g : Group) (n : Nat) (m : DWord) (f : Nat → Word) : (g.writeV n m f).issued = g.issued := rfl
@[simp] theorem Group.writeV_hungry (g : Group) (n : Nat) (m : DWord) (f : Nat → Word) : (g.writeV n m f).hungry = g.hungry := rfl
@[simp] theorem Group.writeV_lastIssue (g : Group) (n : Nat) (m : DWord) (f : Nat → Word) : (g.writeV n m f).lastIssue = g.lastIssue := rfl
@[simp] theorem Group.writeV_roomFor (g : Group) (n : Nat) (m : DWord) (f : Nat → Word) : (g.writeV n m f).roomFor = g.roomFor := rfl
@[simp] theorem Group.writeV_awayUntil (g : Group) (n : Nat) (m : DWord) (f : Nat → Word) : (g.writeV n m f).awayUntil = g.awayUntil := rfl
@[simp] theorem Group.writeV_missing (g : Group) (n : Nat) (m : DWord) (f : Nat → Word) : (g.writeV n m f).missing = g.missing := rfl
@[simp] theorem Group.renameV_id (g : Group) (n : Nat) : (g.renameV n).id = g.id := rfl
@[simp] theorem Group.renameV_grid (g : Group) (n : Nat) : (g.renameV n).grid = g.grid := rfl
@[simp] theorem Group.renameV_team (g : Group) (n : Nat) : (g.renameV n).team = g.team := rfl
@[simp] theorem Group.renameV_index (g : Group) (n : Nat) : (g.renameV n).index = g.index := rfl
@[simp] theorem Group.renameV_core (g : Group) (n : Nat) : (g.renameV n).core = g.core := rfl
@[simp] theorem Group.renameV_pos (g : Group) (n : Nat) : (g.renameV n).pos = g.pos := rfl
@[simp] theorem Group.renameV_res (g : Group) (n : Nat) : (g.renameV n).res = g.res := rfl
@[simp] theorem Group.renameV_ganged (g : Group) (n : Nat) : (g.renameV n).ganged = g.ganged := rfl
@[simp] theorem Group.renameV_opclass (g : Group) (n : Nat) : (g.renameV n).opclass = g.opclass := rfl
@[simp] theorem Group.renameV_p (g : Group) (n : Nat) : (g.renameV n).p = g.p := rfl
@[simp] theorem Group.renameV_bank0 (g : Group) (n : Nat) : (g.renameV n).bank0 = g.bank0 := rfl
@[simp] theorem Group.renameV_bank1 (g : Group) (n : Nat) : (g.renameV n).bank1 = g.bank1 := rfl
@[simp] theorem Group.renameV_slot0 (g : Group) (n : Nat) : (g.renameV n).slot0 = g.slot0 := rfl
@[simp] theorem Group.renameV_slot1 (g : Group) (n : Nat) : (g.renameV n).slot1 = g.slot1 := rfl
@[simp] theorem Group.renameV_bars (g : Group) (n : Nat) : (g.renameV n).bars = g.bars := rfl
@[simp] theorem Group.renameV_depth (g : Group) (n : Nat) : (g.renameV n).depth = g.depth := rfl
@[simp] theorem Group.renameV_sheaf (g : Group) (n : Nat) : (g.renameV n).sheaf = g.sheaf := rfl
@[simp] theorem Group.renameV_nested (g : Group) (n : Nat) : (g.renameV n).nested = g.nested := rfl
@[simp] theorem Group.renameV_cands (g : Group) (n : Nat) : (g.renameV n).cands = g.cands := rfl
@[simp] theorem Group.renameV_glue (g : Group) (n : Nat) : (g.renameV n).glue = g.glue := rfl
@[simp] theorem Group.renameV_pend (g : Group) (n : Nat) : (g.renameV n).pend = g.pend := rfl
@[simp] theorem Group.renameV_owed (g : Group) (n : Nat) : (g.renameV n).owed = g.owed := rfl
@[simp] theorem Group.renameV_demote (g : Group) (n : Nat) : (g.renameV n).demote = g.demote := rfl
@[simp] theorem Group.renameV_issued (g : Group) (n : Nat) : (g.renameV n).issued = g.issued := rfl
@[simp] theorem Group.renameV_hungry (g : Group) (n : Nat) : (g.renameV n).hungry = g.hungry := rfl
@[simp] theorem Group.renameV_lastIssue (g : Group) (n : Nat) : (g.renameV n).lastIssue = g.lastIssue := rfl
@[simp] theorem Group.renameV_roomFor (g : Group) (n : Nat) : (g.renameV n).roomFor = g.roomFor := rfl
@[simp] theorem Group.renameV_awayUntil (g : Group) (n : Nat) : (g.renameV n).awayUntil = g.awayUntil := rfl
@[simp] theorem Group.renameV_poisonV (g : Group) (n : Nat) : (g.renameV n).poisonV = g.poisonV := rfl
@[simp] theorem Group.renameV_missing (g : Group) (n : Nat) : (g.renameV n).missing = g.missing := rfl
@[simp] theorem Group.disown_id (g : Group) (k : Nat) : (g.disown k).id = g.id := rfl
@[simp] theorem Group.disown_grid (g : Group) (k : Nat) : (g.disown k).grid = g.grid := rfl
@[simp] theorem Group.disown_team (g : Group) (k : Nat) : (g.disown k).team = g.team := rfl
@[simp] theorem Group.disown_index (g : Group) (k : Nat) : (g.disown k).index = g.index := rfl
@[simp] theorem Group.disown_core (g : Group) (k : Nat) : (g.disown k).core = g.core := rfl
@[simp] theorem Group.disown_pos (g : Group) (k : Nat) : (g.disown k).pos = g.pos := rfl
@[simp] theorem Group.disown_res (g : Group) (k : Nat) : (g.disown k).res = g.res := rfl
@[simp] theorem Group.disown_ganged (g : Group) (k : Nat) : (g.disown k).ganged = g.ganged := rfl
@[simp] theorem Group.disown_opclass (g : Group) (k : Nat) : (g.disown k).opclass = g.opclass := rfl
@[simp] theorem Group.disown_v (g : Group) (k : Nat) : (g.disown k).v = g.v := rfl
@[simp] theorem Group.disown_p (g : Group) (k : Nat) : (g.disown k).p = g.p := rfl
@[simp] theorem Group.disown_bank0 (g : Group) (k : Nat) : (g.disown k).bank0 = g.bank0 := rfl
@[simp] theorem Group.disown_bank1 (g : Group) (k : Nat) : (g.disown k).bank1 = g.bank1 := rfl
@[simp] theorem Group.disown_slot0 (g : Group) (k : Nat) : (g.disown k).slot0 = g.slot0 := rfl
@[simp] theorem Group.disown_slot1 (g : Group) (k : Nat) : (g.disown k).slot1 = g.slot1 := rfl
@[simp] theorem Group.disown_bars (g : Group) (k : Nat) : (g.disown k).bars = g.bars := rfl
@[simp] theorem Group.disown_depth (g : Group) (k : Nat) : (g.disown k).depth = g.depth := rfl
@[simp] theorem Group.disown_sheaf (g : Group) (k : Nat) : (g.disown k).sheaf = g.sheaf := rfl
@[simp] theorem Group.disown_nested (g : Group) (k : Nat) : (g.disown k).nested = g.nested := rfl
@[simp] theorem Group.disown_cands (g : Group) (k : Nat) : (g.disown k).cands = g.cands := rfl
@[simp] theorem Group.disown_glue (g : Group) (k : Nat) : (g.disown k).glue = g.glue := rfl
@[simp] theorem Group.disown_owed (g : Group) (k : Nat) : (g.disown k).owed = g.owed := rfl
@[simp] theorem Group.disown_demote (g : Group) (k : Nat) : (g.disown k).demote = g.demote := rfl
@[simp] theorem Group.disown_issued (g : Group) (k : Nat) : (g.disown k).issued = g.issued := rfl
@[simp] theorem Group.disown_hungry (g : Group) (k : Nat) : (g.disown k).hungry = g.hungry := rfl
@[simp] theorem Group.disown_lastIssue (g : Group) (k : Nat) : (g.disown k).lastIssue = g.lastIssue := rfl
@[simp] theorem Group.disown_roomFor (g : Group) (k : Nat) : (g.disown k).roomFor = g.roomFor := rfl
@[simp] theorem Group.disown_nextReg (g : Group) (k : Nat) : (g.disown k).nextReg = g.nextReg := rfl
@[simp] theorem Group.disown_awayUntil (g : Group) (k : Nat) : (g.disown k).awayUntil = g.awayUntil := rfl
@[simp] theorem Group.disown_poisonV (g : Group) (k : Nat) : (g.disown k).poisonV = g.poisonV := rfl
@[simp] theorem Group.disown_missing (g : Group) (k : Nat) : (g.disown k).missing = g.missing := rfl
@[simp] theorem Group.release_id (g : Group) (n : Nat) : (g.release n).id = g.id := rfl
@[simp] theorem Group.release_grid (g : Group) (n : Nat) : (g.release n).grid = g.grid := rfl
@[simp] theorem Group.release_team (g : Group) (n : Nat) : (g.release n).team = g.team := rfl
@[simp] theorem Group.release_index (g : Group) (n : Nat) : (g.release n).index = g.index := rfl
@[simp] theorem Group.release_core (g : Group) (n : Nat) : (g.release n).core = g.core := rfl
@[simp] theorem Group.release_pos (g : Group) (n : Nat) : (g.release n).pos = g.pos := rfl
@[simp] theorem Group.release_res (g : Group) (n : Nat) : (g.release n).res = g.res := rfl
@[simp] theorem Group.release_ganged (g : Group) (n : Nat) : (g.release n).ganged = g.ganged := rfl
@[simp] theorem Group.release_opclass (g : Group) (n : Nat) : (g.release n).opclass = g.opclass := rfl
@[simp] theorem Group.release_p (g : Group) (n : Nat) : (g.release n).p = g.p := rfl
@[simp] theorem Group.release_bank0 (g : Group) (n : Nat) : (g.release n).bank0 = g.bank0 := rfl
@[simp] theorem Group.release_bank1 (g : Group) (n : Nat) : (g.release n).bank1 = g.bank1 := rfl
@[simp] theorem Group.release_slot0 (g : Group) (n : Nat) : (g.release n).slot0 = g.slot0 := rfl
@[simp] theorem Group.release_slot1 (g : Group) (n : Nat) : (g.release n).slot1 = g.slot1 := rfl
@[simp] theorem Group.release_bars (g : Group) (n : Nat) : (g.release n).bars = g.bars := rfl
@[simp] theorem Group.release_depth (g : Group) (n : Nat) : (g.release n).depth = g.depth := rfl
@[simp] theorem Group.release_sheaf (g : Group) (n : Nat) : (g.release n).sheaf = g.sheaf := rfl
@[simp] theorem Group.release_nested (g : Group) (n : Nat) : (g.release n).nested = g.nested := rfl
@[simp] theorem Group.release_cands (g : Group) (n : Nat) : (g.release n).cands = g.cands := rfl
@[simp] theorem Group.release_glue (g : Group) (n : Nat) : (g.release n).glue = g.glue := rfl
@[simp] theorem Group.release_owed (g : Group) (n : Nat) : (g.release n).owed = g.owed := rfl
@[simp] theorem Group.release_demote (g : Group) (n : Nat) : (g.release n).demote = g.demote := rfl
@[simp] theorem Group.release_issued (g : Group) (n : Nat) : (g.release n).issued = g.issued := rfl
@[simp] theorem Group.release_hungry (g : Group) (n : Nat) : (g.release n).hungry = g.hungry := rfl
@[simp] theorem Group.release_lastIssue (g : Group) (n : Nat) : (g.release n).lastIssue = g.lastIssue := rfl
@[simp] theorem Group.release_roomFor (g : Group) (n : Nat) : (g.release n).roomFor = g.roomFor := rfl
@[simp] theorem Group.release_nextReg (g : Group) (n : Nat) : (g.release n).nextReg = g.nextReg := rfl
@[simp] theorem Group.release_awayUntil (g : Group) (n : Nat) : (g.release n).awayUntil = g.awayUntil := rfl
@[simp] theorem Group.release_missing (g : Group) (n : Nat) : (g.release n).missing = g.missing := rfl
@[simp] theorem Group.writeP_id (g : Group) (n : Nat) (m : DWord) (f : Nat → Bool) : (g.writeP n m f).id = g.id := rfl
@[simp] theorem Group.writeP_grid (g : Group) (n : Nat) (m : DWord) (f : Nat → Bool) : (g.writeP n m f).grid = g.grid := rfl
@[simp] theorem Group.writeP_team (g : Group) (n : Nat) (m : DWord) (f : Nat → Bool) : (g.writeP n m f).team = g.team := rfl
@[simp] theorem Group.writeP_index (g : Group) (n : Nat) (m : DWord) (f : Nat → Bool) : (g.writeP n m f).index = g.index := rfl
@[simp] theorem Group.writeP_core (g : Group) (n : Nat) (m : DWord) (f : Nat → Bool) : (g.writeP n m f).core = g.core := rfl
@[simp] theorem Group.writeP_pos (g : Group) (n : Nat) (m : DWord) (f : Nat → Bool) : (g.writeP n m f).pos = g.pos := rfl
@[simp] theorem Group.writeP_res (g : Group) (n : Nat) (m : DWord) (f : Nat → Bool) : (g.writeP n m f).res = g.res := rfl
@[simp] theorem Group.writeP_ganged (g : Group) (n : Nat) (m : DWord) (f : Nat → Bool) : (g.writeP n m f).ganged = g.ganged := rfl
@[simp] theorem Group.writeP_opclass (g : Group) (n : Nat) (m : DWord) (f : Nat → Bool) : (g.writeP n m f).opclass = g.opclass := rfl
@[simp] theorem Group.writeP_v (g : Group) (n : Nat) (m : DWord) (f : Nat → Bool) : (g.writeP n m f).v = g.v := rfl
@[simp] theorem Group.writeP_bank0 (g : Group) (n : Nat) (m : DWord) (f : Nat → Bool) : (g.writeP n m f).bank0 = g.bank0 := rfl
@[simp] theorem Group.writeP_bank1 (g : Group) (n : Nat) (m : DWord) (f : Nat → Bool) : (g.writeP n m f).bank1 = g.bank1 := rfl
@[simp] theorem Group.writeP_slot0 (g : Group) (n : Nat) (m : DWord) (f : Nat → Bool) : (g.writeP n m f).slot0 = g.slot0 := rfl
@[simp] theorem Group.writeP_slot1 (g : Group) (n : Nat) (m : DWord) (f : Nat → Bool) : (g.writeP n m f).slot1 = g.slot1 := rfl
@[simp] theorem Group.writeP_bars (g : Group) (n : Nat) (m : DWord) (f : Nat → Bool) : (g.writeP n m f).bars = g.bars := rfl
@[simp] theorem Group.writeP_depth (g : Group) (n : Nat) (m : DWord) (f : Nat → Bool) : (g.writeP n m f).depth = g.depth := rfl
@[simp] theorem Group.writeP_sheaf (g : Group) (n : Nat) (m : DWord) (f : Nat → Bool) : (g.writeP n m f).sheaf = g.sheaf := rfl
@[simp] theorem Group.writeP_nested (g : Group) (n : Nat) (m : DWord) (f : Nat → Bool) : (g.writeP n m f).nested = g.nested := rfl
@[simp] theorem Group.writeP_cands (g : Group) (n : Nat) (m : DWord) (f : Nat → Bool) : (g.writeP n m f).cands = g.cands := rfl
@[simp] theorem Group.writeP_glue (g : Group) (n : Nat) (m : DWord) (f : Nat → Bool) : (g.writeP n m f).glue = g.glue := rfl
@[simp] theorem Group.writeP_pend (g : Group) (n : Nat) (m : DWord) (f : Nat → Bool) : (g.writeP n m f).pend = g.pend := rfl
@[simp] theorem Group.writeP_owed (g : Group) (n : Nat) (m : DWord) (f : Nat → Bool) : (g.writeP n m f).owed = g.owed := rfl
@[simp] theorem Group.writeP_demote (g : Group) (n : Nat) (m : DWord) (f : Nat → Bool) : (g.writeP n m f).demote = g.demote := rfl
@[simp] theorem Group.writeP_issued (g : Group) (n : Nat) (m : DWord) (f : Nat → Bool) : (g.writeP n m f).issued = g.issued := rfl
@[simp] theorem Group.writeP_hungry (g : Group) (n : Nat) (m : DWord) (f : Nat → Bool) : (g.writeP n m f).hungry = g.hungry := rfl
@[simp] theorem Group.writeP_lastIssue (g : Group) (n : Nat) (m : DWord) (f : Nat → Bool) : (g.writeP n m f).lastIssue = g.lastIssue := rfl
@[simp] theorem Group.writeP_roomFor (g : Group) (n : Nat) (m : DWord) (f : Nat → Bool) : (g.writeP n m f).roomFor = g.roomFor := rfl
@[simp] theorem Group.writeP_nextReg (g : Group) (n : Nat) (m : DWord) (f : Nat → Bool) : (g.writeP n m f).nextReg = g.nextReg := rfl
@[simp] theorem Group.writeP_awayUntil (g : Group) (n : Nat) (m : DWord) (f : Nat → Bool) : (g.writeP n m f).awayUntil = g.awayUntil := rfl
@[simp] theorem Group.writeP_poisonV (g : Group) (n : Nat) (m : DWord) (f : Nat → Bool) : (g.writeP n m f).poisonV = g.poisonV := rfl
@[simp] theorem Group.writeP_missing (g : Group) (n : Nat) (m : DWord) (f : Nat → Bool) : (g.writeP n m f).missing = g.missing := rfl
@[simp] theorem Group.setPend_id (g : Group) (p : Pend) : (g.setPend p).id = g.id := rfl
@[simp] theorem Group.setPend_grid (g : Group) (p : Pend) : (g.setPend p).grid = g.grid := rfl
@[simp] theorem Group.setPend_team (g : Group) (p : Pend) : (g.setPend p).team = g.team := rfl
@[simp] theorem Group.setPend_index (g : Group) (p : Pend) : (g.setPend p).index = g.index := rfl
@[simp] theorem Group.setPend_core (g : Group) (p : Pend) : (g.setPend p).core = g.core := rfl
@[simp] theorem Group.setPend_pos (g : Group) (p : Pend) : (g.setPend p).pos = g.pos := rfl
@[simp] theorem Group.setPend_res (g : Group) (p : Pend) : (g.setPend p).res = g.res := rfl
@[simp] theorem Group.setPend_ganged (g : Group) (p : Pend) : (g.setPend p).ganged = g.ganged := rfl
@[simp] theorem Group.setPend_opclass (g : Group) (p : Pend) : (g.setPend p).opclass = g.opclass := rfl
@[simp] theorem Group.setPend_v (g : Group) (p : Pend) : (g.setPend p).v = g.v := rfl
@[simp] theorem Group.setPend_p (g : Group) (p : Pend) : (g.setPend p).p = g.p := rfl
@[simp] theorem Group.setPend_bank0 (g : Group) (p : Pend) : (g.setPend p).bank0 = g.bank0 := rfl
@[simp] theorem Group.setPend_bank1 (g : Group) (p : Pend) : (g.setPend p).bank1 = g.bank1 := rfl
@[simp] theorem Group.setPend_slot0 (g : Group) (p : Pend) : (g.setPend p).slot0 = g.slot0 := rfl
@[simp] theorem Group.setPend_slot1 (g : Group) (p : Pend) : (g.setPend p).slot1 = g.slot1 := rfl
@[simp] theorem Group.setPend_bars (g : Group) (p : Pend) : (g.setPend p).bars = g.bars := rfl
@[simp] theorem Group.setPend_depth (g : Group) (p : Pend) : (g.setPend p).depth = g.depth := rfl
@[simp] theorem Group.setPend_sheaf (g : Group) (p : Pend) : (g.setPend p).sheaf = g.sheaf := rfl
@[simp] theorem Group.setPend_nested (g : Group) (p : Pend) : (g.setPend p).nested = g.nested := rfl
@[simp] theorem Group.setPend_cands (g : Group) (p : Pend) : (g.setPend p).cands = g.cands := rfl
@[simp] theorem Group.setPend_glue (g : Group) (p : Pend) : (g.setPend p).glue = g.glue := rfl
@[simp] theorem Group.setPend_owed (g : Group) (p : Pend) : (g.setPend p).owed = g.owed := rfl
@[simp] theorem Group.setPend_demote (g : Group) (p : Pend) : (g.setPend p).demote = g.demote := rfl
@[simp] theorem Group.setPend_issued (g : Group) (p : Pend) : (g.setPend p).issued = g.issued := rfl
@[simp] theorem Group.setPend_hungry (g : Group) (p : Pend) : (g.setPend p).hungry = g.hungry := rfl
@[simp] theorem Group.setPend_lastIssue (g : Group) (p : Pend) : (g.setPend p).lastIssue = g.lastIssue := rfl
@[simp] theorem Group.setPend_roomFor (g : Group) (p : Pend) : (g.setPend p).roomFor = g.roomFor := rfl
@[simp] theorem Group.setPend_nextReg (g : Group) (p : Pend) : (g.setPend p).nextReg = g.nextReg := rfl
@[simp] theorem Group.setPend_awayUntil (g : Group) (p : Pend) : (g.setPend p).awayUntil = g.awayUntil := rfl
@[simp] theorem Group.setPend_poisonV (g : Group) (p : Pend) : (g.setPend p).poisonV = g.poisonV := rfl
@[simp] theorem Group.setPend_missing (g : Group) (p : Pend) : (g.setPend p).missing = g.missing := rfl
@[simp] theorem Group.markBar_id (g : Group) (i : Nat) : (Group.markBar i g).id = g.id := rfl
@[simp] theorem Group.markBar_grid (g : Group) (i : Nat) : (Group.markBar i g).grid = g.grid := rfl
@[simp] theorem Group.markBar_team (g : Group) (i : Nat) : (Group.markBar i g).team = g.team := rfl
@[simp] theorem Group.markBar_index (g : Group) (i : Nat) : (Group.markBar i g).index = g.index := rfl
@[simp] theorem Group.markBar_core (g : Group) (i : Nat) : (Group.markBar i g).core = g.core := rfl
@[simp] theorem Group.markBar_pos (g : Group) (i : Nat) : (Group.markBar i g).pos = g.pos := rfl
@[simp] theorem Group.markBar_res (g : Group) (i : Nat) : (Group.markBar i g).res = g.res := rfl
@[simp] theorem Group.markBar_ganged (g : Group) (i : Nat) : (Group.markBar i g).ganged = g.ganged := rfl
@[simp] theorem Group.markBar_opclass (g : Group) (i : Nat) : (Group.markBar i g).opclass = g.opclass := rfl
@[simp] theorem Group.markBar_v (g : Group) (i : Nat) : (Group.markBar i g).v = g.v := rfl
@[simp] theorem Group.markBar_p (g : Group) (i : Nat) : (Group.markBar i g).p = g.p := rfl
@[simp] theorem Group.markBar_bank0 (g : Group) (i : Nat) : (Group.markBar i g).bank0 = g.bank0 := rfl
@[simp] theorem Group.markBar_bank1 (g : Group) (i : Nat) : (Group.markBar i g).bank1 = g.bank1 := rfl
@[simp] theorem Group.markBar_slot0 (g : Group) (i : Nat) : (Group.markBar i g).slot0 = g.slot0 := rfl
@[simp] theorem Group.markBar_slot1 (g : Group) (i : Nat) : (Group.markBar i g).slot1 = g.slot1 := rfl
@[simp] theorem Group.markBar_depth (g : Group) (i : Nat) : (Group.markBar i g).depth = g.depth := rfl
@[simp] theorem Group.markBar_sheaf (g : Group) (i : Nat) : (Group.markBar i g).sheaf = g.sheaf := rfl
@[simp] theorem Group.markBar_nested (g : Group) (i : Nat) : (Group.markBar i g).nested = g.nested := rfl
@[simp] theorem Group.markBar_cands (g : Group) (i : Nat) : (Group.markBar i g).cands = g.cands := rfl
@[simp] theorem Group.markBar_glue (g : Group) (i : Nat) : (Group.markBar i g).glue = g.glue := rfl
@[simp] theorem Group.markBar_pend (g : Group) (i : Nat) : (Group.markBar i g).pend = g.pend := rfl
@[simp] theorem Group.markBar_owed (g : Group) (i : Nat) : (Group.markBar i g).owed = g.owed := rfl
@[simp] theorem Group.markBar_demote (g : Group) (i : Nat) : (Group.markBar i g).demote = g.demote := rfl
@[simp] theorem Group.markBar_issued (g : Group) (i : Nat) : (Group.markBar i g).issued = g.issued := rfl
@[simp] theorem Group.markBar_hungry (g : Group) (i : Nat) : (Group.markBar i g).hungry = g.hungry := rfl
@[simp] theorem Group.markBar_lastIssue (g : Group) (i : Nat) : (Group.markBar i g).lastIssue = g.lastIssue := rfl
@[simp] theorem Group.markBar_roomFor (g : Group) (i : Nat) : (Group.markBar i g).roomFor = g.roomFor := rfl
@[simp] theorem Group.markBar_nextReg (g : Group) (i : Nat) : (Group.markBar i g).nextReg = g.nextReg := rfl
@[simp] theorem Group.markBar_awayUntil (g : Group) (i : Nat) : (Group.markBar i g).awayUntil = g.awayUntil := rfl
@[simp] theorem Group.markBar_poisonV (g : Group) (i : Nat) : (Group.markBar i g).poisonV = g.poisonV := rfl
@[simp] theorem Group.markBar_missing (g : Group) (i : Nat) : (Group.markBar i g).missing = g.missing := rfl
@[simp] theorem Group.setSlot_id (g : Group) (k : Nat) (p : Option Path) : (g.setSlot k p).id = g.id := by
  unfold Group.setSlot; split <;> rfl
@[simp] theorem Group.setSlot_grid (g : Group) (k : Nat) (p : Option Path) : (g.setSlot k p).grid = g.grid := by
  unfold Group.setSlot; split <;> rfl
@[simp] theorem Group.setSlot_team (g : Group) (k : Nat) (p : Option Path) : (g.setSlot k p).team = g.team := by
  unfold Group.setSlot; split <;> rfl
@[simp] theorem Group.setSlot_index (g : Group) (k : Nat) (p : Option Path) : (g.setSlot k p).index = g.index := by
  unfold Group.setSlot; split <;> rfl
@[simp] theorem Group.setSlot_core (g : Group) (k : Nat) (p : Option Path) : (g.setSlot k p).core = g.core := by
  unfold Group.setSlot; split <;> rfl
@[simp] theorem Group.setSlot_pos (g : Group) (k : Nat) (p : Option Path) : (g.setSlot k p).pos = g.pos := by
  unfold Group.setSlot; split <;> rfl
@[simp] theorem Group.setSlot_res (g : Group) (k : Nat) (p : Option Path) : (g.setSlot k p).res = g.res := by
  unfold Group.setSlot; split <;> rfl
@[simp] theorem Group.setSlot_ganged (g : Group) (k : Nat) (p : Option Path) : (g.setSlot k p).ganged = g.ganged := by
  unfold Group.setSlot; split <;> rfl
@[simp] theorem Group.setSlot_opclass (g : Group) (k : Nat) (p : Option Path) : (g.setSlot k p).opclass = g.opclass := by
  unfold Group.setSlot; split <;> rfl
@[simp] theorem Group.setSlot_v (g : Group) (k : Nat) (p : Option Path) : (g.setSlot k p).v = g.v := by
  unfold Group.setSlot; split <;> rfl
@[simp] theorem Group.setSlot_p (g : Group) (k : Nat) (p : Option Path) : (g.setSlot k p).p = g.p := by
  unfold Group.setSlot; split <;> rfl
@[simp] theorem Group.setSlot_bank0 (g : Group) (k : Nat) (p : Option Path) : (g.setSlot k p).bank0 = g.bank0 := by
  unfold Group.setSlot; split <;> rfl
@[simp] theorem Group.setSlot_bank1 (g : Group) (k : Nat) (p : Option Path) : (g.setSlot k p).bank1 = g.bank1 := by
  unfold Group.setSlot; split <;> rfl
@[simp] theorem Group.setSlot_bars (g : Group) (k : Nat) (p : Option Path) : (g.setSlot k p).bars = g.bars := by
  unfold Group.setSlot; split <;> rfl
@[simp] theorem Group.setSlot_depth (g : Group) (k : Nat) (p : Option Path) : (g.setSlot k p).depth = g.depth := by
  unfold Group.setSlot; split <;> rfl
@[simp] theorem Group.setSlot_sheaf (g : Group) (k : Nat) (p : Option Path) : (g.setSlot k p).sheaf = g.sheaf := by
  unfold Group.setSlot; split <;> rfl
@[simp] theorem Group.setSlot_nested (g : Group) (k : Nat) (p : Option Path) : (g.setSlot k p).nested = g.nested := by
  unfold Group.setSlot; split <;> rfl
@[simp] theorem Group.setSlot_cands (g : Group) (k : Nat) (p : Option Path) : (g.setSlot k p).cands = g.cands := by
  unfold Group.setSlot; split <;> rfl
@[simp] theorem Group.setSlot_glue (g : Group) (k : Nat) (p : Option Path) : (g.setSlot k p).glue = g.glue := by
  unfold Group.setSlot; split <;> rfl
@[simp] theorem Group.setSlot_pend (g : Group) (k : Nat) (p : Option Path) : (g.setSlot k p).pend = g.pend := by
  unfold Group.setSlot; split <;> rfl
@[simp] theorem Group.setSlot_owed (g : Group) (k : Nat) (p : Option Path) : (g.setSlot k p).owed = g.owed := by
  unfold Group.setSlot; split <;> rfl
@[simp] theorem Group.setSlot_demote (g : Group) (k : Nat) (p : Option Path) : (g.setSlot k p).demote = g.demote := by
  unfold Group.setSlot; split <;> rfl
@[simp] theorem Group.setSlot_issued (g : Group) (k : Nat) (p : Option Path) : (g.setSlot k p).issued = g.issued := by
  unfold Group.setSlot; split <;> rfl
@[simp] theorem Group.setSlot_hungry (g : Group) (k : Nat) (p : Option Path) : (g.setSlot k p).hungry = g.hungry := by
  unfold Group.setSlot; split <;> rfl
@[simp] theorem Group.setSlot_lastIssue (g : Group) (k : Nat) (p : Option Path) : (g.setSlot k p).lastIssue = g.lastIssue := by
  unfold Group.setSlot; split <;> rfl
@[simp] theorem Group.setSlot_roomFor (g : Group) (k : Nat) (p : Option Path) : (g.setSlot k p).roomFor = g.roomFor := by
  unfold Group.setSlot; split <;> rfl
@[simp] theorem Group.setSlot_nextReg (g : Group) (k : Nat) (p : Option Path) : (g.setSlot k p).nextReg = g.nextReg := by
  unfold Group.setSlot; split <;> rfl
@[simp] theorem Group.setSlot_awayUntil (g : Group) (k : Nat) (p : Option Path) : (g.setSlot k p).awayUntil = g.awayUntil := by
  unfold Group.setSlot; split <;> rfl
@[simp] theorem Group.setSlot_poisonV (g : Group) (k : Nat) (p : Option Path) : (g.setSlot k p).poisonV = g.poisonV := by
  unfold Group.setSlot; split <;> rfl
@[simp] theorem Group.setSlot_missing (g : Group) (k : Nat) (p : Option Path) : (g.setSlot k p).missing = g.missing := by
  unfold Group.setSlot; split <;> rfl
@[simp] theorem Group.setBank_id (g : Group) (k : Nat) (b : Bank) : (g.setBank k b).id = g.id := by
  unfold Group.setBank; split <;> rfl
@[simp] theorem Group.setBank_grid (g : Group) (k : Nat) (b : Bank) : (g.setBank k b).grid = g.grid := by
  unfold Group.setBank; split <;> rfl
@[simp] theorem Group.setBank_team (g : Group) (k : Nat) (b : Bank) : (g.setBank k b).team = g.team := by
  unfold Group.setBank; split <;> rfl
@[simp] theorem Group.setBank_index (g : Group) (k : Nat) (b : Bank) : (g.setBank k b).index = g.index := by
  unfold Group.setBank; split <;> rfl
@[simp] theorem Group.setBank_core (g : Group) (k : Nat) (b : Bank) : (g.setBank k b).core = g.core := by
  unfold Group.setBank; split <;> rfl
@[simp] theorem Group.setBank_pos (g : Group) (k : Nat) (b : Bank) : (g.setBank k b).pos = g.pos := by
  unfold Group.setBank; split <;> rfl
@[simp] theorem Group.setBank_res (g : Group) (k : Nat) (b : Bank) : (g.setBank k b).res = g.res := by
  unfold Group.setBank; split <;> rfl
@[simp] theorem Group.setBank_ganged (g : Group) (k : Nat) (b : Bank) : (g.setBank k b).ganged = g.ganged := by
  unfold Group.setBank; split <;> rfl
@[simp] theorem Group.setBank_opclass (g : Group) (k : Nat) (b : Bank) : (g.setBank k b).opclass = g.opclass := by
  unfold Group.setBank; split <;> rfl
@[simp] theorem Group.setBank_v (g : Group) (k : Nat) (b : Bank) : (g.setBank k b).v = g.v := by
  unfold Group.setBank; split <;> rfl
@[simp] theorem Group.setBank_p (g : Group) (k : Nat) (b : Bank) : (g.setBank k b).p = g.p := by
  unfold Group.setBank; split <;> rfl
@[simp] theorem Group.setBank_slot0 (g : Group) (k : Nat) (b : Bank) : (g.setBank k b).slot0 = g.slot0 := by
  unfold Group.setBank; split <;> rfl
@[simp] theorem Group.setBank_slot1 (g : Group) (k : Nat) (b : Bank) : (g.setBank k b).slot1 = g.slot1 := by
  unfold Group.setBank; split <;> rfl
@[simp] theorem Group.setBank_bars (g : Group) (k : Nat) (b : Bank) : (g.setBank k b).bars = g.bars := by
  unfold Group.setBank; split <;> rfl
@[simp] theorem Group.setBank_depth (g : Group) (k : Nat) (b : Bank) : (g.setBank k b).depth = g.depth := by
  unfold Group.setBank; split <;> rfl
@[simp] theorem Group.setBank_sheaf (g : Group) (k : Nat) (b : Bank) : (g.setBank k b).sheaf = g.sheaf := by
  unfold Group.setBank; split <;> rfl
@[simp] theorem Group.setBank_nested (g : Group) (k : Nat) (b : Bank) : (g.setBank k b).nested = g.nested := by
  unfold Group.setBank; split <;> rfl
@[simp] theorem Group.setBank_cands (g : Group) (k : Nat) (b : Bank) : (g.setBank k b).cands = g.cands := by
  unfold Group.setBank; split <;> rfl
@[simp] theorem Group.setBank_glue (g : Group) (k : Nat) (b : Bank) : (g.setBank k b).glue = g.glue := by
  unfold Group.setBank; split <;> rfl
@[simp] theorem Group.setBank_pend (g : Group) (k : Nat) (b : Bank) : (g.setBank k b).pend = g.pend := by
  unfold Group.setBank; split <;> rfl
@[simp] theorem Group.setBank_owed (g : Group) (k : Nat) (b : Bank) : (g.setBank k b).owed = g.owed := by
  unfold Group.setBank; split <;> rfl
@[simp] theorem Group.setBank_demote (g : Group) (k : Nat) (b : Bank) : (g.setBank k b).demote = g.demote := by
  unfold Group.setBank; split <;> rfl
@[simp] theorem Group.setBank_issued (g : Group) (k : Nat) (b : Bank) : (g.setBank k b).issued = g.issued := by
  unfold Group.setBank; split <;> rfl
@[simp] theorem Group.setBank_hungry (g : Group) (k : Nat) (b : Bank) : (g.setBank k b).hungry = g.hungry := by
  unfold Group.setBank; split <;> rfl
@[simp] theorem Group.setBank_lastIssue (g : Group) (k : Nat) (b : Bank) : (g.setBank k b).lastIssue = g.lastIssue := by
  unfold Group.setBank; split <;> rfl
@[simp] theorem Group.setBank_roomFor (g : Group) (k : Nat) (b : Bank) : (g.setBank k b).roomFor = g.roomFor := by
  unfold Group.setBank; split <;> rfl
@[simp] theorem Group.setBank_nextReg (g : Group) (k : Nat) (b : Bank) : (g.setBank k b).nextReg = g.nextReg := by
  unfold Group.setBank; split <;> rfl
@[simp] theorem Group.setBank_awayUntil (g : Group) (k : Nat) (b : Bank) : (g.setBank k b).awayUntil = g.awayUntil := by
  unfold Group.setBank; split <;> rfl
@[simp] theorem Group.setBank_poisonV (g : Group) (k : Nat) (b : Bank) : (g.setBank k b).poisonV = g.poisonV := by
  unfold Group.setBank; split <;> rfl
@[simp] theorem Group.setBank_missing (g : Group) (k : Nat) (b : Bank) : (g.setBank k b).missing = g.missing := by
  unfold Group.setBank; split <;> rfl

end Sys2Proof.Machine
end

