-- ==== Sys2Proof/Laws/Memory.lean ====
section
/-! SUPPORT. Memory: a byte read back after a write, every other byte as before, and the canonical form kept by every
write; registers read back from their lists. -/
namespace Sys2Proof.Machine

/-! ### Registers in lists -/

@[simp] theorem nth_putNth {α : Type} (d : α) (l : List α) (n m : Nat) (a : α) :
    nth (putNth d l n a) m d = if m = n then a else nth l m d := by
  induction l generalizing n m with
  | nil =>
    induction n generalizing m with
    | zero => cases m <;> simp [putNth, nth]
    | succ n ih =>
      cases m with
      | zero => simp [putNth, nth]
      | succ m => simpa [putNth, nth] using ih m
  | cons b l ih =>
    cases n with
    | zero => cases m <;> simp [putNth, nth]
    | succ n =>
      cases m with
      | zero => simp [putNth, nth]
      | succ m => simpa [putNth, nth] using ih n m

theorem nth_setNth {α : Type} (d : α) (l : List α) (n m : Nat) (a : α) :
    nth (setNth l n a) m d = if m = n ∧ n < l.length then a else nth l m d := by
  induction l generalizing n m with
  | nil => simp [setNth]
  | cons b l ih =>
    cases n with
    | zero => cases m <;> simp [setNth, nth]
    | succ n =>
      cases m with
      | zero => simp [setNth, nth]
      | succ m => simpa [setNth, nth] using ih n m

@[simp] theorem nth_tabulate (f : Nat → Word) (i : Nat) (d : Word) :
    nth (tabulate f) i d = if i < 64 then f i else d := by
  unfold nth tabulate upto
  by_cases h : i < 64 <;> simp [h]

/-! ### One byte -/

theorem memGet_of_wfFrom {m : List Host.Cell} {lo a : Nat} (h : Memory.wfFrom lo m = true) (ha : a < lo) :
    memGet m a = unlisted := by
  induction m generalizing lo with
  | nil => rfl
  | cons e m ih =>
    obtain ⟨k, b⟩ := e
    simp only [Memory.wfFrom, Bool.and_eq_true, decide_eq_true_eq] at h
    have : k ≠ a := by omega
    simp only [memGet, this, if_false]
    exact ih h.2 (by omega)

/-- A byte is read back, and every other byte is as before. -/
theorem memGet_memSet {m : List Host.Cell} (h : Memory.wf m = true) (a : Nat) (b : Byte) (x : Nat) :
    memGet (memSet a b m) x = if x = a then b else memGet m x := by
  unfold Memory.wf at h
  generalize (0 : Nat) = lo at h
  induction m generalizing lo with
  | nil =>
    by_cases hb : b = unlisted <;> by_cases hx : x = a
    all_goals first | (subst hx; simp [memSet, memGet, hb]) | simp [memSet, memGet, hb, hx]
    exact fun h => absurd h.symm hx
  | cons e m ih =>
    obtain ⟨k, c⟩ := e
    simp only [Memory.wfFrom, Bool.and_eq_true, decide_eq_true_eq] at h
    obtain ⟨⟨h1, h2⟩, h3⟩ := h
    have hlow : ∀ y, y < k + 1 → memGet m y = unlisted := fun y hy => memGet_of_wfFrom h3 hy
    unfold memSet
    by_cases hak : a < k
    · rw [if_pos hak]
      by_cases hb : b = unlisted
      · rw [if_pos hb]
        by_cases hx : x = a
        · subst hx
          have : k ≠ x := by omega
          simp [memGet, this, hb, hlow x (by omega)]
        · simp [hx]
      · rw [if_neg hb]
        by_cases hx : x = a
        · subst hx; simp [memGet]
        · have : a ≠ x := fun h => hx h.symm
          simp [memGet, hx, this]
    · rw [if_neg hak]
      by_cases hk : a = k
      · subst hk
        rw [if_pos rfl]
        by_cases hb : b = unlisted
        · rw [if_pos hb]
          by_cases hx : x = a
          · subst hx; simp [hb, hlow x (by omega)]
          · have : a ≠ x := fun h => hx h.symm
            simp [memGet, hx, this]
        · rw [if_neg hb]
          by_cases hx : x = a
          · subst hx; simp [memGet]
          · have : a ≠ x := fun h => hx h.symm
            simp [memGet, hx, this]
      · rw [if_neg hk]
        by_cases hx : k = x
        · subst hx
          have : k ≠ a := fun h => hk h.symm
          simp [memGet, this]
        · simp only [memGet, hx, if_false]
          exact ih _ h3

theorem memSet_wfFrom {m : List Host.Cell} {lo : Nat} (h : Memory.wfFrom lo m = true) {a : Nat} (ha : lo ≤ a) (b : Byte) :
    Memory.wfFrom lo (memSet a b m) = true := by
  induction m generalizing lo with
  | nil => unfold memSet; split <;> simp_all [Memory.wfFrom]
  | cons e m ih =>
    obtain ⟨k, c⟩ := e
    simp only [Memory.wfFrom, Bool.and_eq_true, decide_eq_true_eq] at h
    obtain ⟨⟨h1, h2⟩, h3⟩ := h
    have mono : ∀ {l l' : Nat} {m : List Host.Cell}, l' ≤ l → Memory.wfFrom l m = true → Memory.wfFrom l' m = true := by
      intro l l' m hl hm
      cases m with
      | nil => rfl
      | cons e m =>
        simp only [Memory.wfFrom, Bool.and_eq_true, decide_eq_true_eq] at hm ⊢
        exact ⟨⟨by omega, hm.1.2⟩, hm.2⟩
    unfold memSet
    split
    · split
      · simp [Memory.wfFrom, h1, h2, h3]
      · rename_i h4 h5
        simp only [Memory.wfFrom, Bool.and_eq_true, decide_eq_true_eq]
        exact ⟨⟨ha, h5⟩, ⟨by omega, h2⟩, h3⟩
    · split
      · split
        · exact mono (by omega) h3
        · rename_i h4 h5 h6
          subst h5
          simp only [Memory.wfFrom, Bool.and_eq_true, decide_eq_true_eq]
          exact ⟨⟨ha, h6⟩, h3⟩
      · rename_i h4 h5
        simp only [Memory.wfFrom, Bool.and_eq_true, decide_eq_true_eq]
        exact ⟨⟨h1, h2⟩, ih h3 (by omega)⟩

/-- Writing a byte keeps the canonical form. -/
theorem memSet_wf {m : List Host.Cell} (h : Memory.wf m = true) (a : Nat) (b : Byte) : Memory.wf (memSet a b m) = true :=
  memSet_wfFrom h (Nat.zero_le a) b

/-- Writing bytes keeps the canonical form. -/
theorem memWrite_wf {m : List Host.Cell} (h : Memory.wf m = true) (a : Nat) (l : List Byte) :
    Memory.wf (memWrite m a l) = true := by
  induction l generalizing m a with
  | nil => exact h
  | cons b l ih => exact ih (memSet_wf h a b) (a + 1)

/-- Writing listed bytes keeps the canonical form. -/
theorem memWriteList_wf {m : List Host.Cell} (h : Memory.wf m = true) (l : List (Nat × Byte)) :
    Memory.wf (memWriteList m l) = true := by
  induction l generalizing m with
  | nil => exact h
  | cons e l ih => exact ih (memSet_wf h e.1 e.2)

theorem nil_wf : Memory.wf [] = true := rfl

/-- Equal contents are equal data: two canonical memories that read alike are the same list. -/
theorem wfFrom_ext {m n : List Host.Cell} {lo : Nat} (hm : Memory.wfFrom lo m = true) (hn : Memory.wfFrom lo n = true)
    (h : ∀ a, memGet m a = memGet n a) : m = n := by
  induction m generalizing n lo with
  | nil =>
    cases n with
    | nil => rfl
    | cons e n =>
      obtain ⟨k, b⟩ := e
      simp only [Memory.wfFrom, Bool.and_eq_true, decide_eq_true_eq] at hn
      have := h k
      simp only [memGet, if_true] at this
      exact absurd this.symm hn.1.2
  | cons e m ih =>
    obtain ⟨k, b⟩ := e
    have hm0 := hm
    simp only [Memory.wfFrom, Bool.and_eq_true, decide_eq_true_eq] at hm
    cases n with
    | nil =>
      have := h k
      simp only [memGet, if_true] at this
      exact absurd this hm.1.2
    | cons f n =>
      obtain ⟨j, c⟩ := f
      have hn0 := hn
      simp only [Memory.wfFrom, Bool.and_eq_true, decide_eq_true_eq] at hn
      have hkj : k = j := by
        by_contra hne
        rcases Nat.lt_or_gt_of_ne hne with hlt | hgt
        · have := h k
          have hj : j ≠ k := fun e => hne e.symm
          simp only [memGet, if_true, hj, if_false, memGet_of_wfFrom hn.2 (show k < j + 1 by omega)] at this
          exact hm.1.2 this
        · have := h j
          simp only [memGet, if_true, hne, if_false, memGet_of_wfFrom hm.2 (show j < k + 1 by omega)] at this
          exact hn.1.2 this.symm
      subst hkj
      have hb : b = c := by simpa [memGet] using h k
      subst hb
      congr 1
      refine ih hm.2 hn.2 (fun a => ?_)
      by_cases ha : k = a
      · subst ha
        rw [memGet_of_wfFrom hm.2 (by omega), memGet_of_wfFrom hn.2 (by omega)]
      · simpa [memGet, ha] using h a

/-! ### Runs of bytes -/

theorem memGet_memWriteList_of_notMem {m : List Host.Cell} (h : Memory.wf m = true) (l : List (Nat × Byte)) (x : Nat)
    (hx : ∀ e ∈ l, e.1 ≠ x) : memGet (memWriteList m l) x = memGet m x := by
  induction l generalizing m with
  | nil => rfl
  | cons e l ih =>
    have h1 : x ≠ e.1 := fun h => hx e (by simp) h.symm
    simp only [memWriteList]
    rw [ih (memSet_wf h _ _) (fun f hf => hx f (by simp [hf])), memGet_memSet h, if_neg h1]

theorem withAddresses_fst {a : Nat} {l : List Byte} {e : Nat × Byte} (h : e ∈ withAddresses a l) :
    a ≤ e.1 ∧ e.1 < a + l.length := by
  induction l generalizing a with
  | nil => simp [withAddresses] at h
  | cons b l ih =>
    simp only [withAddresses, List.mem_cons] at h
    rcases h with h | h
    · subst h; simp
    · have := ih h
      simp only [List.length_cons]; omega

/-- Consecutive bytes written are read back, and every byte outside them is as before. -/
theorem memGet_writeBytes {m : List Host.Cell} (h : Memory.wf m = true) (a : Nat) (l : List Byte) (x : Nat) :
    memGet (memWriteList m (withAddresses a l)) x =
      if a ≤ x ∧ x < a + l.length then nth l (x - a) 0 else memGet m x := by
  induction l generalizing m a with
  | nil => simp [withAddresses, memWriteList]
  | cons b l ih =>
    simp only [withAddresses, memWriteList]
    rw [ih (memSet_wf h _ _), memGet_memSet h]
    simp only [List.length_cons]
    by_cases h1 : a + 1 ≤ x ∧ x < a + 1 + l.length
    · have h2 : a ≤ x ∧ x < a + (l.length + 1) := by omega
      rw [if_pos h1, if_pos h2]
      have h3 : x - a = (x - (a + 1)) + 1 := by omega
      rw [h3]; rfl
    · rw [if_neg h1]
      by_cases h2 : x = a
      · subst h2
        rw [if_pos rfl, if_pos (by omega)]
        simp [nth]
      · rw [if_neg h2, if_neg (by omega)]

theorem memRead_length (m : List Host.Cell) (a n : Nat) : (memRead m a n).length = n := by
  induction n generalizing a with
  | zero => rfl
  | succ n ih => simp [memRead, ih]

theorem nth_memRead (m : List Host.Cell) (a n i : Nat) : nth (memRead m a n) i 0 = if i < n then memGet m (a + i) else 0 := by
  induction n generalizing a i with
  | zero => simp [memRead, nth]
  | succ n ih =>
    cases i with
    | zero => simp [memRead, nth]
    | succ i =>
      have h := ih (a + 1) i
      rw [show a + 1 + i = a + (i + 1) by omega] at h
      simpa [memRead, nth] using h

/-! ### Writes of the state -/

@[simp] theorem State.writePhys_mem (s : State) (l : List (Nat × Byte)) : (s.writePhys l).mem = memWriteList s.mem l := rfl

theorem State.writePhys_wf {s : State} (h : Memory.wf s.mem = true) (l : List (Nat × Byte)) :
    Memory.wf (s.writePhys l).mem = true := memWriteList_wf h l

theorem reset_mem_wf : Memory.wf State.reset.mem = true := rfl

end Sys2Proof.Machine
end

