-- ==== Sys2Proof/Laws/Issue.lean ====
section
/-! SUPPORT. Issue of one word: what `issue` answers where a word issues, what the JOIN test of the other path leaves alone,
and what committing a word does to the group, the other groups and the machine. -/
namespace Sys2Proof.Machine

/-! ### Slots and halves -/

@[simp] theorem Group.slot_setSlot_self (g : Group) (k : Nat) (p : Option Path) : (g.setSlot k p).slot k = p := by
  unfold Group.setSlot Group.slot; split <;> rfl

theorem Group.slot_setSlot_other (g : Group) (k : Nat) (p : Option Path) : (g.setSlot (1 - k) p).slot k = g.slot k := by
  unfold Group.setSlot Group.slot
  by_cases h : k = 0
  · subst h; simp
  · have : 1 - k = 0 := by omega
    simp [h, this]

theorem Group.slot_setSlot_other' (g : Group) (k : Nat) (p : Option Path) : (g.setSlot k p).slot (1 - k) = g.slot (1 - k) := by
  unfold Group.setSlot Group.slot
  by_cases h : k = 0
  · subst h; simp
  · have : 1 - k = 0 := by omega
    simp [h, this]

@[simp] theorem Group.bank_setSlot (g : Group) (k : Nat) (p : Option Path) (h : Nat) : (g.setSlot k p).bank h = g.bank h := by
  unfold Group.setSlot Group.bank; by_cases h1 : k = 0 <;> by_cases h2 : h = 0 <;> simp [h1, h2]

@[simp] theorem Group.slot_setBank (g : Group) (k : Nat) (b : Bank) (h : Nat) : (g.setBank k b).slot h = g.slot h := by
  unfold Group.setBank Group.slot; by_cases h1 : k = 0 <;> by_cases h2 : h = 0 <;> simp [h1, h2]

@[simp] theorem Group.bank_setBank_self (g : Group) (h : Nat) (b : Bank) : (g.setBank h b).bank h = b := by
  unfold Group.setBank Group.bank; split <;> rfl

theorem Group.bank_setBank_other (g : Group) (h : Nat) (b : Bank) : (g.setBank h b).bank (1 - h) = g.bank (1 - h) := by
  unfold Group.setBank Group.bank
  by_cases e : h = 0
  · subst e; simp
  · have : 1 - h = 0 := by omega
    simp [e, this]

@[simp] theorem Group.half_setSlot (g : Group) (k : Nat) (p : Option Path) (j : Nat) : (g.setSlot k p).half j = g.half j := by
  unfold Group.half; simp

@[simp] theorem Group.half_setBank (g : Group) (k : Nat) (b : Bank) (j : Nat) : (g.setBank k b).half j = g.half j := by
  unfold Group.half; simp

@[simp] theorem Group.setBank_bank (g : Group) (h : Nat) : g.setBank h (g.bank h) = g := by
  unfold Group.setBank Group.bank; split <;> rfl

/-! ### What the JOIN test of the other path leaves alone -/

/-- The group's own part after a change of the other slot and of spill stacks. -/
theorem Group.own_setSlot_other (g : Group) (k : Nat) (p : Option Path) : (g.setSlot (1 - k) p).own k = g.own k := by
  unfold Group.own Group.setSlot
  split <;> rfl

/-- Whose an instruction in flight is, the path of slot k apart, is no part of what is k's own. -/
theorem Group.own_disown (g : Group) (k : Nat) : (g.disown (1 - k)).own k = g.own k := by
  unfold Group.own Group.disown Group.setSlot
  by_cases h : 1 - k = 0 <;> simp only [h, if_true, if_false, List.map_map, Function.comp_def]

/-- What the path of the other slot takes over is no part of what is k's own. -/
theorem Group.own_adopt (g : Group) (k : Nat) (ids : List Nat) : (g.adopt (1 - k) ids).own k = g.own k := by
  unfold Group.adopt
  split
  · rfl
  · unfold Group.own Group.disown Group.setSlot
    have e : ∀ (f : Pend → Pend) (l : List Pend), (∀ r, f r = { r with owner0 := (f r).owner0 }) →
        (l.map f).map (fun r => ({ r with owner0 := false } : Pend)) = l.map (fun r => { r with owner0 := false }) := by
      intro f l hf; rw [List.map_map]; apply List.map_congr_left; intro r _; simp only [Function.comp]; rw [hf r]
    have e' : ∀ (f : Pend → Pend) (l : List Pend), (∀ r, f r = { r with owner1 := (f r).owner1 }) →
        (l.map f).map (fun r => ({ r with owner1 := false } : Pend)) = l.map (fun r => { r with owner1 := false }) := by
      intro f l hf; rw [List.map_map]; apply List.map_congr_left; intro r _; simp only [Function.comp]; rw [hf r]
    by_cases h : 1 - k = 0 <;> simp only [h, if_true, if_false]
    · rw [e _ _ (by intro r; split <;> rfl)]
    · rw [e' _ _ (by intro r; split <;> rfl)]

theorem Group.own_setBank_spill (g : Group) (k h : Nat) (l : List SpillEntry) :
    (g.setBank h { g.bank h with spill := l }).own k = g.own k := by
  unfold Group.own Group.disown Group.setSlot Group.setBank Group.bank
  split <;> split <;> rfl

theorem Group.own_pop (g : Group) (k h : Nat) : (g.pop h).own k = g.own k := by
  unfold Group.pop; exact Group.own_setBank_spill ..

theorem Group.own_push (g : Group) (k h : Nat) (e : SpillEntry) : (g.push h e).own k = g.own k := by
  unfold Group.push; exact Group.own_setBank_spill ..

theorem Group.own_slot (g : Group) (k : Nat) : (g.own k).slot k = g.slot k := by
  have e : ∀ (G : Group) (j : Nat), (G.disown j).slot k = G.slot k := fun _ _ => rfl
  unfold Group.own
  rw [e, Group.slot_setSlot_other]
  unfold Group.slot; rfl

theorem Group.own_id (g : Group) (k : Nat) : (g.own k).id = g.id := by
  unfold Group.own Group.disown Group.setSlot; split <;> rfl

theorem Group.slot_of_own {g h : Group} {k : Nat} (e : h.own k = g.own k) : h.slot k = g.slot k := by
  rw [← Group.own_slot h, e, Group.own_slot]

theorem Group.id_of_own {g h : Group} {k : Nat} (e : h.own k = g.own k) : h.id = g.id := by
  rw [← Group.own_id h k, e, Group.own_id]

theorem Group.own_setSlot_self_of {g : Group} {k j : Nat} (h : j = 1 - k) (p : Option Path) :
    (g.setSlot j p).own k = g.own k := by subst h; exact Group.own_setSlot_other ..

theorem Group.own_startSet (g : Group) (k : Nat) (e : PathSet) : (g.startSet (1 - k) e).own k = g.own k := by
  unfold Group.startSet; rw [Group.own_setSlot_other, Group.own_adopt]

theorem Group.own_joinSet (g : Group) (k : Nat) (p : Path) (e : PathSet) : (g.joinSet (1 - k) p e).own k = g.own k := by
  unfold Group.joinSet; rw [Group.own_setSlot_other, Group.own_adopt, Group.own_pop]

theorem Group.own_joinSwap {g g' : Group} {k : Nat} {p : Path} {pj : Word} {e : PathSet}
    (h : g.joinSwap (1 - k) p pj e = some g') : g'.own k = g.own k := by
  unfold Group.joinSwap at h
  split at h
  · simp only [Option.some.injEq] at h
    subst h; rw [Group.own_startSet, Group.own_disown, Group.own_push, Group.own_pop]
  · simp at h

theorem Group.own_joinDone (g : Group) (k : Nat) (p : Path) (pj : Word) : (g.joinDone (1 - k) p pj).own k = g.own k := by
  unfold Group.joinDone
  simp only
  split <;> simp only [Group.own_setSlot_other, Group.own_pop]

/-- The slots are 0 and any other number. -/
theorem Group.slot_twice (g : Group) (k : Nat) : g.slot (1 - (1 - k)) = g.slot k := by
  unfold Group.slot
  by_cases e : k = 0
  · subst e; rfl
  · have e1 : 1 - k = 0 := by omega
    simp [e, e1]

/-- One row of Table 7.1 for the other path, while this path is not parked at JOIN. -/
theorem Group.joinRow_own {g g' : Group} {k : Nat} {p q : Path} {since : Nat} (hk : g.slot k = some p)
    (hp : p.atJoin = none) (h : g.joinRow (1 - k) q since = some g') : g'.own k = g.own k := by
  have hr : g.rival (1 - k) = if g.ganged then none else some p := by
    unfold Group.rival; rw [Group.slot_twice, hk]
  unfold Group.joinRow at h
  cases hpj : q.pjoin with
  | none => rw [hpj] at h; simp at h
  | some pj =>
    rw [hpj] at h
    simp only [hr] at h
    cases hg : g.ganged <;> cases hm : g.matching (g.half (1 - k)) pj <;>
      simp only [hg, hm, hp, Bool.false_eq_true, if_true, if_false, Option.map_none] at h
    · simp at h
    · split at h
      · simp only [Option.some.injEq] at h; subst h; exact Group.own_joinSet ..
      · split at h
        · simp at h
        · exact Group.own_joinSwap h
    · simp only [Option.some.injEq] at h; subst h; exact Group.own_joinDone ..
    · split at h
      · simp only [Option.some.injEq] at h; subst h; exact Group.own_joinSet ..
      · exact Group.own_joinSwap h

/-- The JOIN test of one slot leaves alone what belongs to a path that is not parked at JOIN. -/
theorem Group.tryJoin_own {g g' : Group} {k j : Nat} {p : Path} (hk : g.slot k = some p) (hp : p.atJoin = none)
    (h : g.tryJoin j = some g') (hj : j = 0 ∨ j = 1) : g'.own k = g.own k := by
  by_cases same : g.slot j = some p
  · unfold Group.tryJoin at h; rw [same] at h; simp [hp] at h
  · have hjk : j = 1 - k := by
      rcases hj with e | e
      · subst e
        by_cases e0 : k = 0
        · subst e0; exact absurd hk same
        · omega
      · subst e
        by_cases e0 : k = 0
        · subst e0; rfl
        · refine absurd ?_ same
          unfold Group.slot at hk ⊢
          simpa [e0] using hk
    subst hjk
    unfold Group.tryJoin at h
    cases hs : g.slot (1 - k) with
    | none => rw [hs] at h; simp at h
    | some q =>
      rw [hs] at h
      simp only at h
      cases hq : q.atJoin with
      | none => rw [hq] at h; simp at h
      | some since =>
        rw [hq] at h
        exact Group.joinRow_own hk hp h

/-- The JOIN tests of a group leave alone what belongs to a path that is not parked at JOIN (R121). -/
theorem Group.joins_own (n : Nat) {g : Group} {k : Nat} {p : Path} (hk : g.slot k = some p) (hp : p.atJoin = none) :
    (g.joins n).own k = g.own k := by
  induction n generalizing g with
  | zero => rfl
  | succ n ih =>
    have step : ∀ {g' : Group}, g'.own k = g.own k → (g'.joins n).own k = g.own k := by
      intro g' e
      rw [ih (by rw [Group.slot_of_own e]; exact hk), e]
    unfold Group.joins
    cases h0 : g.tryJoin 0 with
    | some g' => exact step (Group.tryJoin_own hk hp h0 (Or.inl rfl))
    | none =>
      cases h1 : g.tryJoin 1 with
      | some g' => exact step (Group.tryJoin_own hk hp h1 (Or.inr rfl))
      | none => rfl

/-! ### Groups found by number -/

/-- A change of every group that keeps its number. -/
theorem find?_map_id (l : List Group) (f : Group → Group) (hf : ∀ g, (f g).id = g.id) (n : Nat) :
    (l.map f).find? (fun x => decide (x.id = n)) = (l.find? (fun x => decide (x.id = n))).map f := by
  induction l with
  | nil => rfl
  | cons x l ih =>
    by_cases hn : x.id = n
    · rw [List.map_cons, List.find?_cons_of_pos (by simp [hf, hn]), List.find?_cons_of_pos (by simp [hn])]; rfl
    · rw [List.map_cons, List.find?_cons_of_neg (by simp [hf, hn]), List.find?_cons_of_neg (by simp [hn])]; exact ih

theorem State.group?_id {s : State} {n : Nat} {g : Group} (h : s.group? n = some g) : g.id = n := by
  unfold State.group? at h
  have := List.find?_some h
  simpa using this

theorem State.group?_setGroup (s : State) (g : Group) (n : Nat) :
    (s.setGroup g).group? n = (s.group? n).map (fun x => if x.id = g.id then g else x) := by
  unfold State.group? State.setGroup
  exact find?_map_id s.groups (fun x => if x.id = g.id then g else x) (fun x => by
    by_cases h : x.id = g.id <;> simp [h]) n

theorem State.group?_setGroup_self {s : State} {g : Group} (h : (s.group? g.id).isSome) :
    (s.setGroup g).group? g.id = some g := by
  rw [State.group?_setGroup]
  obtain ⟨x, hx⟩ := Option.isSome_iff_exists.mp h
  rw [hx, Option.map_some, if_pos (State.group?_id hx)]

theorem State.group?_setGroup_other {s : State} {g : Group} {n : Nat} (h : n ≠ g.id) :
    (s.setGroup g).group? n = s.group? n := by
  rw [State.group?_setGroup]
  cases hx : s.group? n with
  | none => rfl
  | some x =>
    have := State.group?_id hx
    rw [Option.map_some, if_neg (by rw [this]; exact h)]

theorem State.group?_clauseIssued (s : State) (g k n : Nat) : (s.clauseIssued g k).group? n = (s.group? n).map (fun h =>
    { h with owed := h.owed.filter (fun e => !(e.1 = g && (if k = 0 then e.2.1 else e.2.2))) }) := by
  unfold State.group? State.clauseIssued
  exact find?_map_id s.groups (fun h =>
    { h with owed := h.owed.filter (fun e => !(e.1 = g && (if k = 0 then e.2.1 else e.2.2))) }) (fun _ => rfl) n

/-! ### Committing a word -/

theorem Group.not_ended_of_slot {g : Group} {k : Nat} {p : Path} (h : g.slot k = some p) : g.ended = false := by
  unfold Group.ended Group.slot at *
  split at h <;> simp [h]

theorem Group.not_allParked {g : Group} {k : Nat} {p : Path} (h : g.slot k = some p) (hp : p.park = .running) :
    g.allParked = false := by
  unfold Group.allParked Group.slot at *
  split at h <;> simp [h, hp]

theorem Path.atJoin_of_running {p : Path} (h : p.park = .running) : p.atJoin = none := by
  unfold Path.atJoin; rw [h]

/-- A group whose path runs, written back after an event or a word (R121, R113, R77). -/
theorem State.settle_running {s : State} {g : Group} {k : Nat} {p : Path} (hk : g.slot k = some p)
    (hp : p.park = .running) (hs : (s.group? g.id).isSome) :
    s.settle g = s.setGroup (g.joins 80) ∧ (g.joins 80).own k = g.own k ∧ (g.joins 80).id = g.id := by
  have hown := Group.joins_own 80 hk (Path.atJoin_of_running hp)
  have hid := Group.id_of_own hown
  have hslot : (g.joins 80).slot k = some p := by rw [Group.slot_of_own hown, hk]
  refine ⟨?_, hown, hid⟩
  unfold State.settle
  simp only [Group.not_allParked hslot hp, Bool.false_eq_true, if_false]
  unfold State.reap
  rw [State.group?_setGroup_self (by rw [hid]; exact hs)]
  simp [Group.not_ended_of_slot hslot]

theorem Group.own_counted (g : Group) (k n : Nat) : (g.counted n).own k = (g.own k).counted n := by
  unfold Group.counted Group.own Group.disown Group.setSlot; split <;> rfl

/-- A group whose path runs, written back, and its clause ended where `ended` says so. -/
theorem State.settle_moves {s : State} {g : Group} {k j : Nat} {p : Path} (ended : Bool) (hk : g.slot k = some p)
    (hp : p.park = .running) (hs : (s.group? g.id).isSome) (hO : g.owed = []) :
    ∃ t, (if ended then (s.settle g).clauseIssued g.id j else s.settle g) = t ∧ t = { s with groups := t.groups } ∧
      (∃ h, t.group? g.id = some h ∧ h.own k = g.own k) ∧
      ∀ n, n ≠ g.id → (t.group? n).map Group.plain = (s.group? n).map Group.plain := by
  obtain ⟨h1, h2, hid⟩ := State.settle_running hk hp hs
  have hfind : (s.setGroup (g.joins 80)).group? g.id = some (g.joins 80) := by
    have := State.group?_setGroup_self (s := s) (g := g.joins 80) (by rw [hid]; exact hs)
    rwa [hid] at this
  have hother : ∀ n, n ≠ g.id → (s.setGroup (g.joins 80)).group? n = s.group? n := by
    intro n hn
    exact State.group?_setGroup_other (by rw [hid]; exact hn)
  have howed : (g.joins 80).owed = [] := by
    have : ((g.joins 80).own k).owed = (g.own k).owed := by rw [h2]
    unfold Group.own Group.disown Group.setSlot at this
    split at this <;> simpa [hO] using this
  cases ended with
  | false => exact ⟨s.setGroup (g.joins 80), h1, rfl, ⟨_, hfind, h2⟩, fun n hn => by rw [hother n hn]⟩
  | true =>
    refine ⟨(s.setGroup (g.joins 80)).clauseIssued g.id j, by simp [h1], rfl,
      ⟨{ g.joins 80 with owed := [] }, ?_, ?_⟩, fun n hn => ?_⟩
    · rw [State.group?_clauseIssued, hfind]
      simp [howed]
    · rw [← h2, ← howed]
    · rw [State.group?_clauseIssued, hother n hn]
      cases s.group? n <;> rfl

/-- A committed word: the group, the others, the rest (R18, R112, R113). -/
theorem Issue.commit_moves {c : Issue} {G : Group} {ended : Bool} {k : Nat} {p : Path} (hk : G.slot k = some p)
    (hp : p.park = .running) (hs : (c.s.group? G.id).isSome) (hO : G.owed = []) :
    Moves c.s k G (c.commit G ended) := by
  have hk' : (G.counted c.s.issues).slot k = some p := by
    unfold Group.counted Group.slot at *; exact hk
  obtain ⟨t, h1, h2, ⟨h, h3, h4⟩, h5⟩ :=
    State.settle_moves (s := { c.s with issues := c.s.issues + 1 }) (g := G.counted c.s.issues) (j := c.k) ended hk' hp hs hO
  have : c.commit G ended = t := h1
  rw [this]
  exact ⟨h2, ⟨h, h3, h4⟩, h5⟩

/-! ### A word that issues -/

/-- Where a word issues, its step is its effect. -/
theorem issue_of_issuing {i : Instr} {s : State} {c : Issue} {cl : ClauseState} (h : Issuing i s c cl)
    (body : Issue → Eff) : issue i body s = .next ((body c).apply c) := by
  unfold issue
  rw [h.path]
  simp only [h.clause, h.formed, h.position, h.runs, h.free, h.clean, Bool.not_true, Bool.or_false, Bool.false_and, Bool.false_eq_true,
    if_false]

/-- The issue of a state, taken apart. -/
theorem State.issue?_spec {s : State} {c : Issue} (h : s.issue? = some c) :
    c.s = s ∧ s.cur = some (c.g.id, c.k) ∧ s.group? c.g.id = some c.g ∧ c.g.slot c.k = some c.p ∧ c.p.park = .running ∧
      c.p.stopped = false := by
  unfold State.issue? at h
  cases hc : s.cur with
  | none => rw [hc] at h; simp at h
  | some gk =>
    obtain ⟨g, k⟩ := gk
    rw [hc] at h
    simp only at h
    cases hg : s.group? g with
    | none => rw [hg] at h; simp at h
    | some G =>
      rw [hg] at h
      simp only at h
      cases hk : G.slot k with
      | none => rw [hk] at h; simp at h
      | some p =>
        rw [hk] at h
        simp only at h
        split at h
        · rename_i hp
          simp only [Option.some.injEq] at h
          subst h
          have := State.group?_id hg
          unfold Path.canIssue at hp
          simp only [Bool.and_eq_true, decide_eq_true_eq, Bool.not_eq_true'] at hp
          exact ⟨rfl, by rw [this], by rw [this]; exact hg, hk, hp.1.1, hp.1.2⟩
        · simp at h

/-- A group that issues is owed nothing. -/
theorem Issuing.owed {i : Instr} {s : State} {c : Issue} {cl : ClauseState} (h : Issuing i s c cl) : c.g.owed = [] := by
  have := h.free
  unfold Issue.holds at this
  simp only [Bool.or_eq_false_iff, Bool.not_eq_false'] at this
  simpa using this.1.1.1.1.1.1.1.2

end Sys2Proof.Machine
end

