-- ==== Sys2Proof/Laws/Fixed.lean ====
section
/-! SUPPORT. Register-only instructions: what the shared operations of a fixed-latency word do to the registers of its group,
one at a time, and together. -/
namespace Sys2Proof.Machine

/-- G is a group g after the registers `ds` of the half h were written with `val` in the lanes of m, the names of `rel`
released, UNMAPPED set where `um` says so, and `fl` merged. -/
structure Did (g : Group) (h : Nat) (ds : List Dst) (m : DWord) (val : Dst → Nat → Word) (rel : Nat → Bool) (um : Bool)
    (fl : BitVec 6) (pv : Fin 8 → Nat → Bool) (G : Group) : Prop where
  vreg : ∀ (n : Fin 64) (l : Nat), l < 64 → G.vLane n.val l =
    if Dst.v n ∈ ds then (if m.getLsbD l then val (.v n) l else g.vLane n.val l)
    else if rel n.val = true then 0 else g.vLane n.val l
  mapped : ∀ n : Fin 64, G.mapped n.val = true ↔ (Dst.v n ∈ ds ∨ (g.mapped n.val = true ∧ rel n.val = false))
  sreg : ∀ n : Fin 64, (G.bank h).sreg n.val = if Dst.s n ∈ ds then val (.s n) (lowestLane m) else (g.bank h).sreg n.val
  tags : ∀ q : Fin 16, (G.bank h).quadTag q.val = true ↔
    ((g.bank h).quadTag q.val = true ∧ ∀ n : Fin 64, Dst.s n ∈ ds → n.val / 4 ≠ q.val)
  pbits : ∀ (n : Fin 8) (l : Nat), l < 64 → G.pbit n.val l = pv n l
  unmapped : (G.bank h).unmapped = ((g.bank h).unmapped || um)
  fpstat : (G.bank h).fpstat = (g.bank h).fpstat ||| fl
  half : (G.bank h).others = (g.bank h).others
  otherHalf : G.bank (1 - h) = g.bank (1 - h)
  flying : G.pend.map Pend.unclaimed = g.pend.map Pend.unclaimed
  frame : ∀ b, G.frame b = g.frame b

theorem Did.refl (g : Group) (h : Nat) (m : DWord) (val : Dst → Nat → Word) :
    Did g h [] m val (fun _ => false) false 0 (fun n l => g.pbit n.val l) g where
  vreg := by simp
  mapped := by simp
  sreg := by simp
  tags := by simp
  pbits := fun _ _ _ => rfl
  unmapped := by simp
  fpstat := by simp
  half := rfl
  otherHalf := rfl
  flying := rfl
  frame := fun _ => rfl

theorem Group.frame_setBank (g : Group) (h : Nat) (b c : Bank) : (g.setBank h b).frame c = g.frame c := by
  unfold Group.frame Group.setBank; split <;> rfl

theorem Group.vLane_setBank (g : Group) (h : Nat) (b : Bank) (n l : Nat) : (g.setBank h b).vLane n l = g.vLane n l := by
  unfold Group.vLane; simp

theorem Group.mapped_setBank (g : Group) (h : Nat) (b : Bank) (n : Nat) : (g.setBank h b).mapped n = g.mapped n := by
  unfold Group.mapped; simp

theorem Group.pbit_setBank (g : Group) (h : Nat) (b : Bank) (n l : Nat) : (g.setBank h b).pbit n l = g.pbit n l := by
  unfold Group.pbit; simp

/-- UNMAPPED set. -/
theorem Did.note {g G : Group} {h : Nat} {ds m val rel um fl pv} (d : Did g h ds m val rel um fl pv G) (b : Bool) :
    Did g h ds m val rel (um || b) fl pv (if b then G.setBank h { G.bank h with unmapped := true } else G) := by
  cases b with
  | false => simpa using d
  | true =>
    simp only [if_true]
    exact
      { vreg := fun n l hl => by rw [Group.vLane_setBank]; exact d.vreg n l hl
        mapped := fun n => by rw [Group.mapped_setBank]; exact d.mapped n
        sreg := fun n => by rw [Group.bank_setBank_self]; exact d.sreg n
        tags := fun q => by rw [Group.bank_setBank_self]; exact d.tags q
        pbits := fun n l hl => by rw [Group.pbit_setBank]; exact d.pbits n l hl
        unmapped := by rw [Group.bank_setBank_self]; simp
        fpstat := by rw [Group.bank_setBank_self]; exact d.fpstat
        half := by rw [Group.bank_setBank_self]; exact d.half
        otherHalf := by rw [Group.bank_setBank_other]; exact d.otherHalf
        flying := by rw [Group.setBank_pend]; exact d.flying
        frame := fun b => by rw [Group.frame_setBank]; exact d.frame b }

/-- FPSTAT flags merged. -/
theorem Did.merge {g G : Group} {h : Nat} {ds m val rel um fl pv} (d : Did g h ds m val rel um fl pv G) (f : BitVec 6) :
    Did g h ds m val rel um (fl ||| f) pv (G.setBank h { G.bank h with fpstat := (G.bank h).fpstat ||| f }) :=
  { vreg := fun n l hl => by rw [Group.vLane_setBank]; exact d.vreg n l hl
    mapped := fun n => by rw [Group.mapped_setBank]; exact d.mapped n
    sreg := fun n => by rw [Group.bank_setBank_self]; exact d.sreg n
    tags := fun q => by rw [Group.bank_setBank_self]; exact d.tags q
    pbits := fun n l hl => by rw [Group.pbit_setBank]; exact d.pbits n l hl
    unmapped := by rw [Group.bank_setBank_self]; exact d.unmapped
    fpstat := by rw [Group.bank_setBank_self]; simp only; rw [d.fpstat, BitVec.or_assoc]
    half := by rw [Group.bank_setBank_self]; exact d.half
    otherHalf := by rw [Group.bank_setBank_other]; exact d.otherHalf
    flying := by rw [Group.setBank_pend]; exact d.flying
    frame := fun b => by rw [Group.frame_setBank]; exact d.frame b }

theorem Pend.unclaimed_claim (n : Nat) (m : DWord) (p : Pend) : (p.claim n m).unclaimed = p.unclaimed := by
  unfold Pend.claim Pend.unclaimed
  simp only [List.map_map]
  congr 1
  apply List.map_congr_left
  intro e _
  simp only [Function.comp]
  split <;> rfl

/-- Lanes of a v register after a write (R107). -/
theorem Group.vLane_writeV (g : Group) (n : Nat) (m : DWord) (f : Nat → Word) (k l : Nat) (hl : l < 64) :
    (g.writeV n m f).vLane k l = if k = n then (if m.getLsbD l then f l else g.vLane n l) else g.vLane k l := by
  unfold Group.writeV Group.vLane
  by_cases hk : k = n
  · subst hk
    simp only [nth_putNth, if_true, nth_tabulate, hl]
  · simp [hk]

theorem Group.mapped_writeV (g : Group) (n : Nat) (m : DWord) (f : Nat → Word) (k : Nat) :
    (g.writeV n m f).mapped k = (decide (k = n) || g.mapped k) := by
  unfold Group.writeV Group.mapped
  by_cases hk : k = n <;> simp [hk]

/-- A released name reads zero and is unmapped (R108). -/
theorem Group.vLane_release (g : Group) (n k l : Nat) : (g.release n).vLane k l = if k = n then 0 else g.vLane k l := by
  unfold Group.release Group.vLane
  by_cases hk : k = n <;> simp [hk]

theorem Group.mapped_release (g : Group) (n k : Nat) : (g.release n).mapped k = (!decide (k = n) && g.mapped k) := by
  unfold Group.release Group.mapped
  by_cases hk : k = n <;> simp [hk]

/-- An s register written, its quad's tag cleared (R155). -/
theorem Bank.sreg_writeS (b : Bank) (n k : Nat) (w : Word) : (b.writeS n w).sreg k = if k = n then w else b.sreg k := by
  unfold Bank.writeS Bank.sreg; simp

theorem Bank.quadTag_writeS (b : Bank) (n q : Nat) (w : Word) :
    (b.writeS n w).quadTag q = (!decide (q = n / 4) && b.quadTag q) := by
  unfold Bank.writeS Bank.quadTag
  by_cases h : q = n / 4 <;> simp [h]

/-- A destination of a group written. -/
def Group.writeDst (g : Group) (h : Nat) (d : Dst) (m : DWord) (f : Nat → Word) : Group :=
  match d with
  | .v n => g.writeV n.val m f
  | .s n => g.setBank h ((g.bank h).writeS n.val (f (lowestLane m)))

/-- An s register written, after whatever was released. -/
theorem Did.writeS {g G : Group} {h : Nat} {ds m val rel um fl pv} (d : Did g h ds m val rel um fl pv G) (n : Fin 64) :
    Did g h (ds ++ [.s n]) m val rel um fl pv (G.setBank h ((G.bank h).writeS n.val (val (.s n) (lowestLane m)))) :=
  { vreg := fun k l hl => by
      show (G.setBank h _).vLane k.val l = _
      rw [Group.vLane_setBank, d.vreg k l hl]
      simp
    mapped := fun k => by
      show (G.setBank h _).mapped k.val = true ↔ _
      rw [Group.mapped_setBank, d.mapped k]
      simp
    sreg := fun k => by
      show ((G.setBank h _).bank h).sreg k.val = _
      rw [Group.bank_setBank_self, Bank.sreg_writeS, d.sreg k]
      by_cases hk : k = n
      · subst hk; simp
      · have h1 : k.val ≠ n.val := fun e => hk (Fin.ext e)
        have h2 : ¬ (Dst.s k = Dst.s n) := fun e => hk (by injection e)
        simp [h1, h2]
    tags := fun q => by
      show ((G.setBank h _).bank h).quadTag q.val = true ↔ _
      rw [Group.bank_setBank_self, Bank.quadTag_writeS]
      simp only [Bool.and_eq_true, Bool.not_eq_true', decide_eq_false_iff_not, d.tags q, List.mem_append,
        List.mem_singleton]
      constructor
      · rintro ⟨h1, h2, h3⟩
        refine ⟨h2, fun k hk => ?_⟩
        rcases hk with hk | hk
        · exact h3 k hk
        · injection hk with hk; subst hk; exact fun e => h1 e.symm
      · rintro ⟨h1, h2⟩
        exact ⟨fun e => h2 n (Or.inr rfl) e.symm, h1, fun k hk => h2 k (Or.inl hk)⟩
    pbits := fun k l hl => by
      show (G.setBank h _).pbit k.val l = _
      rw [Group.pbit_setBank]; exact d.pbits k l hl
    unmapped := by
      show ((G.setBank h _).bank h).unmapped = _
      rw [Group.bank_setBank_self]; exact d.unmapped
    fpstat := by
      show ((G.setBank h _).bank h).fpstat = _
      rw [Group.bank_setBank_self]; exact d.fpstat
    half := by
      show ((G.setBank h _).bank h).others = _
      rw [Group.bank_setBank_self]; exact d.half
    otherHalf := by
      show (G.setBank h _).bank (1 - h) = _
      rw [Group.bank_setBank_other]; exact d.otherHalf
    flying := by
      show (G.setBank h _).pend.map _ = _
      rw [Group.setBank_pend]; exact d.flying
    frame := fun b => by
      show (G.setBank h _).frame b = _
      rw [Group.frame_setBank]; exact d.frame b }

theorem Did.write {g G : Group} {h : Nat} {ds m val um fl pv} (d : Did g h ds m val (fun _ => false) um fl pv G) (x : Dst) :
    Did g h (ds ++ [x]) m val (fun _ => false) um fl pv (G.writeDst h x m (val x)) := by
  cases x with
  | v n =>
    exact
      { vreg := fun k l hl => by
          show (G.writeV n.val m (val (.v n))).vLane k.val l = _
          rw [Group.vLane_writeV _ _ _ _ _ _ hl, d.vreg n l hl, d.vreg k l hl]
          by_cases hk : k = n
          · subst hk
            by_cases hm : Dst.v k ∈ ds <;> by_cases hb : m.getLsbD l <;> simp [hm, hb]
          · have h1 : k.val ≠ n.val := fun e => hk (Fin.ext e)
            have h2 : ¬ (Dst.v k = Dst.v n) := fun e => hk (by injection e)
            simp [h1, h2]
        mapped := fun k => by
          show (G.writeV n.val m (val (.v n))).mapped k.val = true ↔ _
          rw [Group.mapped_writeV]
          have h1 : (Dst.v k = Dst.v n) ↔ (k.val = n.val) := by
            constructor
            · intro e; injection e with e; rw [e]
            · intro e; rw [Fin.ext e]
          simp only [Bool.or_eq_true, decide_eq_true_eq, d.mapped k, List.mem_append, List.mem_singleton, h1]
          tauto
        sreg := fun k => by
          show ((G.writeV n.val m (val (.v n))).bank h).sreg k.val = _
          have : ¬ Dst.s k = Dst.v n := by simp
          simp only [List.mem_append, List.mem_singleton, this, or_false]
          exact d.sreg k
        tags := fun q => by
          have := d.tags q
          show (G.bank h).quadTag q.val = true ↔ _
          rw [this]
          simp
        pbits := d.pbits
        unmapped := d.unmapped
        fpstat := d.fpstat
        half := d.half
        otherHalf := d.otherHalf
        flying := by
          show (G.pend.map (Pend.claim n.val m)).map Pend.unclaimed = _
          rw [List.map_map, ← d.flying]
          exact List.map_congr_left (fun p _ => Pend.unclaimed_claim ..)
        frame := fun b => d.frame b }
  | s n => exact d.writeS n

/-- Lanes of a v register after a renaming: those it had (R22). -/
theorem Group.vLane_renameV (g : Group) (n k l : Nat) (hl : l < 64) : (g.renameV n).vLane k l = g.vLane k l := by
  unfold Group.renameV
  by_cases hk : k = n
  · subst hk
    show (match nth (putNth none g.v k _) k none with
      | none => 0
      | some m => nth m.lanes l 0) = _
    simp only [nth_putNth, if_true, nth_tabulate, hl]
  · unfold Group.vLane; simp [hk]

theorem Group.mapped_renameV (g : Group) (n k : Nat) : (g.renameV n).mapped k = (decide (k = n) || g.mapped k) := by
  unfold Group.renameV Group.mapped
  by_cases hk : k = n <;> simp [hk]

/-- A v register renamed for a return to come keeps its values (R22). -/
theorem Did.rename {g G : Group} {h : Nat} {ds m val um fl pv} (d : Did g h ds m val (fun _ => false) um fl pv G)
    (hv : ∀ (k : Fin 64) (l : Nat), val (.v k) l = g.vLane k.val l) (n : Fin 64) :
    Did g h (ds ++ [.v n]) m val (fun _ => false) um fl pv (G.renameV n.val) :=
  { vreg := fun k l hl => by
      rw [Group.vLane_renameV _ _ _ _ hl, d.vreg k l hl, hv]
      simp
    mapped := fun k => by
      rw [Group.mapped_renameV]
      have h1 : (Dst.v k = Dst.v n) ↔ (k.val = n.val) := by
        constructor
        · intro e; injection e with e; rw [e]
        · intro e; rw [Fin.ext e]
      simp only [Bool.or_eq_true, decide_eq_true_eq, d.mapped k, List.mem_append, List.mem_singleton, h1]
      tauto
    sreg := fun k => by
      have : ¬ Dst.s k = Dst.v n := by simp
      simp only [List.mem_append, List.mem_singleton, this, or_false]
      exact d.sreg k
    tags := fun q => by
      have := d.tags q
      show (G.bank h).quadTag q.val = true ↔ _
      rw [this]
      simp
    pbits := d.pbits
    unmapped := d.unmapped
    fpstat := d.fpstat
    half := d.half
    otherHalf := d.otherHalf
    flying := d.flying
    frame := fun b => d.frame b }

theorem Did.release {g G : Group} {h : Nat} {ds m val rel um fl pv} (d : Did g h ds m val rel um fl pv G) (n : Nat)
    (hn : n ∉ vRegs ds) : Did g h ds m val (fun k => rel k || decide (k = n)) um fl pv (G.release n) := by
  have hv : ∀ k : Fin 64, Dst.v k ∈ ds → k.val ≠ n := by
    intro k hk e
    apply hn
    subst e
    clear d hn
    induction ds with
    | nil => simp at hk
    | cons x l ih =>
      rcases List.mem_cons.mp hk with e | hk'
      · subst e; simp [vRegs]
      · cases x <;> simp [vRegs, ih hk']
  exact
    { vreg := fun k l hl => by
        rw [Group.vLane_release, d.vreg k l hl]
        by_cases hk : Dst.v k ∈ ds
        · simp [hk, hv k hk]
        · by_cases e : k.val = n <;> simp [hk, e]
      mapped := fun k => by
        rw [Group.mapped_release]
        simp only [Bool.and_eq_true, Bool.not_eq_true', decide_eq_false_iff_not, d.mapped k, Bool.or_eq_false_iff]
        constructor
        · rintro ⟨h1, h2 | h2⟩
          · exact Or.inl h2
          · exact Or.inr ⟨h2.1, h2.2, h1⟩
        · rintro (h1 | h1)
          · exact ⟨hv k h1, Or.inl h1⟩
          · exact ⟨h1.2.2, Or.inr ⟨h1.1, h1.2.1⟩⟩
      sreg := d.sreg
      tags := d.tags
      pbits := d.pbits
      unmapped := d.unmapped
      fpstat := d.fpstat
      half := d.half
      otherHalf := d.otherHalf
      flying := by
        show (G.pend.map (Pend.claim n _)).map Pend.unclaimed = _
        rw [List.map_map, ← d.flying]
        exact List.map_congr_left (fun p _ => Pend.unclaimed_claim ..)
      frame := fun b => d.frame b }

theorem Did.releases {g G : Group} {h : Nat} {ds m val rel um fl pv} (d : Did g h ds m val rel um fl pv G) (names : List Nat)
    (hn : ∀ n ∈ names, n ∉ vRegs ds) :
    Did g h ds m val (fun k => rel k || names.contains k) um fl pv (names.foldl Group.release G) := by
  induction names generalizing G rel with
  | nil => simpa using d
  | cons n l ih =>
    have := ih (d.release n (hn n (by simp))) (fun k hk => hn k (by simp [hk]))
    simp only [List.foldl_cons]
    convert this using 2
    rename_i k
    by_cases e : k = n <;> simp [e]

/-- A group's honour of last reads does not depend on its registers. -/
theorem Group.honoursLast_congr {g G : Group} (k : Nat) (h1 : G.slot (1 - k) = g.slot (1 - k))
    (h2 : G.bank0.spill = g.bank0.spill) (h3 : G.bank1.spill = g.bank1.spill) : G.honoursLast k = g.honoursLast k := by
  unfold Group.honoursLast; rw [h1, h2, h3]

theorem Did.honours {g G : Group} {h : Nat} {ds m val rel um fl pv} (d : Did g h ds m val rel um fl pv G) (k : Nat) :
    G.honoursLast k = g.honoursLast k := by
  have hf := d.frame g.bank0
  have hs : G.slot (1 - k) = g.slot (1 - k) := by
    have : (G.frame g.bank0).slot (1 - k) = (g.frame g.bank0).slot (1 - k) := by rw [hf]
    unfold Group.slot at this ⊢
    exact this
  have hh : (G.bank h).spill = (g.bank h).spill := by
    have := congrArg Bank.spill d.half
    exact this
  have ho : (G.bank (1 - h)).spill = (g.bank (1 - h)).spill := by rw [d.otherHalf]
  apply Group.honoursLast_congr k hs
  · unfold Group.bank at hh ho
    by_cases e : h = 0
    · subst e; simpa using hh
    · have : 1 - h = 0 := by omega
      simpa [this] using ho
  · unfold Group.bank at hh ho
    by_cases e : h = 0
    · subst e; simpa using ho
    · simpa [e] using hh

/-! ### The operations of an issue -/

theorem Issue.half_eq (c : Issue) (g : Group) (hg : g.ganged = c.g.ganged) : ({ c with g := g } : Issue).half = c.half := by
  unfold Issue.half Group.half; simp [hg]

theorem Group.frame_ganged {g G : Group} (h : ∀ b, G.frame b = g.frame b) : G.ganged = g.ganged := by
  have := congrArg Group.ganged (h g.bank0)
  exact this

/-- Registers of an issue: the group g, what was done to it since, and the place of the path. -/
structure Stage1 (c0 c : Issue) (ds : List Dst) (m : DWord) (val : Dst → Nat → Word) (rel : Nat → Bool) (um : Bool)
    (fl : BitVec 6) (pv : Fin 8 → Nat → Bool) : Prop where
  did : Did c0.g c0.half ds m val rel um fl pv c.g
  s : c.s = c0.s
  k : c.k = c0.k
  p : c.p = c0.p

theorem Stage1.half {c0 c : Issue} {ds m val rel um fl pv} (d : Stage1 c0 c ds m val rel um fl pv) : c.half = c0.half := by
  unfold Issue.half Group.half; rw [Group.frame_ganged d.did.frame, d.k]

theorem Stage1.refl (c : Issue) (m : DWord) (val : Dst → Nat → Word) : Stage1 c c [] m val (fun _ => false) false 0 c.pbits :=
  ⟨Did.refl .., rfl, rfl, rfl⟩

theorem Stage1.note {c : Issue} (m : DWord) (val : Dst → Nat → Word) (rs : List (Src × Nat)) :
    Stage1 c (c.noteReads rs) [] m val (fun _ => false) (rs.any (fun e => (vNames e).any (fun n => !c.g.mapped n))) 0 c.pbits := by
  have := (Did.refl c.g c.half m val).note (rs.any (fun e => (vNames e).any (fun n => !c.g.mapped n)))
  unfold Issue.noteReads
  split
  · rename_i h
    rw [if_pos h] at this
    exact ⟨this, rfl, rfl, rfl⟩
  · rename_i h
    rw [if_neg h] at this
    exact ⟨this, rfl, rfl, rfl⟩

theorem Stage1.write {c0 c : Issue} {ds m val um fl pv} (d : Stage1 c0 c ds m val (fun _ => false) um fl pv) (x : Dst) :
    Stage1 c0 (c.write x m (val x)) (ds ++ [x]) m val (fun _ => false) um fl pv := by
  have := d.did.write x
  refine ⟨?_, ?_, ?_, ?_⟩
  · cases x with
    | v n => exact this
    | s n =>
      have hh := d.half
      show Did c0.g c0.half _ m val _ um fl pv (c.g.setBank c.half ((c.g.bank c.half).writeS n.val _))
      rw [hh]; exact this
  · cases x <;> exact d.s
  · cases x <;> exact d.k
  · cases x <;> exact d.p

theorem Stage1.writeS {c0 c : Issue} {ds m val rel um fl pv} (d : Stage1 c0 c ds m val rel um fl pv) (n : Fin 64) :
    Stage1 c0 (c.setBank (c.bank.writeS n.val (val (.s n) (lowestLane m)))) (ds ++ [.s n]) m val rel um fl pv := by
  refine ⟨?_, d.s, d.k, d.p⟩
  have := d.did.writeS n
  show Did c0.g c0.half _ m val rel um fl pv (c.g.setBank c.half ((c.g.bank c.half).writeS n.val _))
  rw [d.half]; exact this

theorem Stage1.releaseReads {c0 c : Issue} {ds m val um fl pv} (d : Stage1 c0 c ds m val (fun _ => false) um fl pv)
    (rs : List (Src × Nat)) :
    Stage1 c0 (c.releaseReads rs (vRegs ds)) ds m val
      (fun n => c0.g.honoursLast c0.k && (rs.flatMap lastNames).contains n && !(vRegs ds).contains n) um fl pv := by
  have hh : c.g.honoursLast c.k = c0.g.honoursLast c0.k := by rw [d.k]; exact d.did.honours c0.k
  unfold Issue.releaseReads
  rw [hh]
  split
  · rename_i h
    have := d.did.releases ((rs.flatMap lastNames).filter (fun n => !(vRegs ds).contains n)) (by simp)
    refine ⟨?_, d.s, d.k, d.p⟩
    convert this using 2
    rename_i n
    simp only [h, Bool.true_and, Bool.false_or]
    rw [Bool.eq_iff_iff]
    simp [List.mem_filter]
  · rename_i h
    simp only [Bool.not_eq_true] at h
    simp only [h, Bool.false_and]
    exact d

theorem Stage1.merge {c0 c : Issue} {ds m val rel um fl pv} (d : Stage1 c0 c ds m val rel um fl pv) (f : BitVec 6) :
    Stage1 c0 (c.mergeFlags f) ds m val rel um (fl ||| f) pv := by
  refine ⟨?_, d.s, d.k, d.p⟩
  have := d.did.merge f
  show Did c0.g c0.half ds m val rel um (fl ||| f) pv (c.g.setBank c.half { c.g.bank c.half with fpstat := (c.g.bank c.half).fpstat ||| f })
  rw [d.half]; exact this

/-- Bits of a mask made from a test. -/
theorem maskOf_bit (f : Nat → Bool) (l : Nat) (hl : l < 64) : (maskOf f).getLsbD l = f l := by
  unfold maskOf
  have key : ∀ n, n ≤ 64 → ∃ x, (upto n).foldl (fun acc i => if f i then acc + 2 ^ i else acc) 0 = x ∧ x < 2 ^ n ∧
      ∀ j, j < n → x.testBit j = f j := by
    intro n
    induction n with
    | zero => intro _; exact ⟨0, rfl, by norm_num, fun j hj => by omega⟩
    | succ n ih =>
      intro hn
      obtain ⟨x, h1, h2, h3⟩ := ih (by omega)
      unfold upto at h1 ⊢
      rw [List.range_succ, List.foldl_append, h1]
      simp only [List.foldl_cons, List.foldl_nil]
      by_cases hf : f n
      · refine ⟨x + 2 ^ n, by rw [if_pos hf], by rw [pow_succ]; omega, fun j hj => ?_⟩
        by_cases hjn : j = n
        · subst hjn
          rw [Nat.add_comm, Nat.testBit_two_pow_add_eq, Nat.testBit_lt_two_pow h2, hf]; rfl
        · rw [Nat.add_comm, Nat.testBit_two_pow_add_gt (by omega), h3 j (by omega)]
      · refine ⟨x, by rw [if_neg hf], by rw [pow_succ]; omega, fun j hj => ?_⟩
        by_cases hjn : j = n
        · subst hjn
          rw [Nat.testBit_lt_two_pow h2]; simpa using hf
        · exact h3 j (by omega)
  obtain ⟨x, h1, h2, h3⟩ := key 64 (Nat.le_refl _)
  rw [h1, BitVec.getLsbD_ofNat]
  simp [hl, h3 l hl]

/-- A predicate register written. -/
theorem Stage1.writeP {c0 c : Issue} {ds m val rel um fl} (d : Stage1 c0 c ds m val rel um fl c0.pbits) (p : Fin 8)
    (f : Nat → Bool) :
    Stage1 c0 { c with g := c.g.writeP p.val m f } ds m val rel um fl (c0.pbitsWith p m f) := by
  refine ⟨?_, d.s, d.k, d.p⟩
  exact
    { vreg := d.did.vreg, mapped := d.did.mapped, sreg := d.did.sreg, tags := d.did.tags
      pbits := fun n l hl => by
        have h := d.did.pbits n l hl
        show (c.g.writeP p.val m f).pbit n.val l = _
        unfold Group.writeP Group.pbit
        unfold Group.pbit Issue.pbits at h
        unfold Issue.pbitsWith
        by_cases hn : n = p
        · subst hn
          simp only [nth_putNth, if_true, true_and, BitVec.getLsbD_or, BitVec.getLsbD_and, BitVec.getLsbD_not, hl,
            decide_true, Bool.true_and, h, maskOf_bit f l hl]
          by_cases hm : m.getLsbD l <;> simp [hm]
        · have : ¬ n.val = p.val := fun e => hn (Fin.ext e)
          simp only [nth_putNth, this, if_false, hn, false_and]
          exact h
      unmapped := d.did.unmapped, fpstat := d.did.fpstat, half := d.did.half, otherHalf := d.did.otherHalf
      flying := d.did.flying, frame := d.did.frame }

/-! ### A whole word -/

theorem Group.setSlot_comm_frame (g : Group) (k : Nat) (p : Option Path) (b : Bank) :
    (g.setSlot k p).frame b = (g.frame b).setSlot k p := by
  unfold Group.frame Group.setSlot; split <;> rfl

/-- What was done by an instruction that reads as it should, in the words of the statements. -/
theorem Stage1.wrote {c0 c : Issue} {i : Instr} {ds m val fl pv}
    (d : Stage1 c0 c ds m val (c0.lastReads i ds) (c0.readsUnmapped i) fl pv) :
    Wrote c0 i ds m val fl pv (c.g.setSlot c.k (some c.p.advance)) where
  vreg := fun n l hl => by
    have : (c.g.setSlot c.k (some c.p.advance)).vLane n.val l = c.g.vLane n.val l := by unfold Group.vLane; simp
    rw [this]; exact d.did.vreg n l hl
  mapped := fun n => by
    have : (c.g.setSlot c.k (some c.p.advance)).mapped n.val = c.g.mapped n.val := by unfold Group.mapped; simp
    rw [this]; exact d.did.mapped n
  sreg := fun n => by rw [Group.bank_setSlot]; exact d.did.sreg n
  tags := fun q => by rw [Group.bank_setSlot]; exact d.did.tags q
  pbits := fun n l hl => by
    have : (c.g.setSlot c.k (some c.p.advance)).pbit n.val l = c.g.pbit n.val l := by unfold Group.pbit; simp
    rw [this]; exact d.did.pbits n l hl
  unmapped := by rw [Group.bank_setSlot]; exact d.did.unmapped
  fpstat := by rw [Group.bank_setSlot]; exact d.did.fpstat
  half := by rw [Group.bank_setSlot]; exact d.did.half
  otherHalf := by rw [Group.bank_setSlot]; exact d.did.otherHalf
  flying := by simpa using d.did.flying
  frame := fun b => by rw [Group.setSlot_comm_frame, d.did.frame, d.k, d.p, ← Group.setSlot_comm_frame]

/-- The group of an issue, its path moved on, has issued the word. -/
theorem Issue.done_moves {s : State} {c0 c : Issue} {ds m val rel um fl pv} (d : Stage1 c0 c ds m val rel um fl pv)
    (h : s.issue? = some c0) (hO : c0.g.owed = []) :
    Moves s c0.k (c.g.setSlot c.k (some c.p.advance)) ((Eff.done c).apply c0) := by
  obtain ⟨h1, -, h3, h4, h5, -⟩ := State.issue?_spec h
  have hid : (c.g.setSlot c.k (some c.p.advance)).id = c0.g.id := by
    rw [Group.setSlot_id]
    have := congrArg Group.id (d.did.frame c0.g.bank0)
    exact this
  have hs : c.s = s := by rw [d.s, h1]
  have hm := Issue.commit_moves (c := c) (G := c.g.setSlot c.k (some c.p.advance)) (ended := c.p.advance.clause.isNone)
    (k := c.k) (Group.slot_setSlot_self ..)
    (by show c.p.park = _; rw [d.p]; exact h5) (by rw [hid, hs, h3]; rfl)
    (by
      have := congrArg Group.owed (d.did.frame c0.g.bank0)
      rw [Group.setSlot_owed, ← hO]; exact this)
  rw [hs] at hm
  rw [← d.k]
  exact hm

/-! ### Lanes that compute -/

theorem mem_lanesIn {m : DWord} {l : Nat} : l ∈ lanesIn m ↔ l < 64 ∧ m.getLsbD l = true := by
  unfold lanesIn upto; simp

theorem lanesIn_eq_nil {m : DWord} : lanesIn m = [] ↔ m = 0 := by
  constructor
  · intro h
    apply BitVec.eq_of_getLsbD_eq
    intro i hi
    cases hb : m.getLsbD i with
    | false => simp
    | true =>
      have : i ∈ lanesIn m := mem_lanesIn.mpr ⟨hi, hb⟩
      rw [h] at this; simp at this
  · rintro rfl; unfold lanesIn; simp

theorem lowestLane_mem {m : DWord} (h : m ≠ 0) : lowestLane m ∈ lanesIn m := by
  unfold lowestLane
  cases hl : lanesIn m with
  | nil => exact absurd (lanesIn_eq_nil.mp hl) h
  | cons a l => simp

theorem lowestLane_lt {m : DWord} (h : m ≠ 0) : lowestLane m < 64 := (mem_lanesIn.mp (lowestLane_mem h)).1

theorem lowestLane_bit {m : DWord} (h : m ≠ 0) : m.getLsbD (lowestLane m) = true := (mem_lanesIn.mp (lowestLane_mem h)).2

theorem computing_true {m : DWord} (h : m ≠ 0) : computing true m = [lowestLane m] := by
  unfold computing lowestLane
  cases hl : lanesIn m with
  | nil => exact absurd (lanesIn_eq_nil.mp hl) h
  | cons a l => simp

theorem computing_zero (u : Bool) : computing u 0 = [] := by
  unfold computing; rw [lanesIn_eq_nil.mpr rfl]; simp

theorem foldl_or_filter {α : Type} (l : List α) (b : α → Bool) (f : α → BitVec 6) (a : BitVec 6) :
    (l.map (fun i => if b i then f i else 0)).foldl (fun x y => x ||| y) a =
      ((l.filter b).map f).foldl (fun x y => x ||| y) a := by
  induction l generalizing a with
  | nil => rfl
  | cons x l ih =>
    have e : ∀ y : BitVec 6, y ||| 0 = y := by intro y; simp
    by_cases h : b x = true
    · rw [List.filter_cons_of_pos h]
      simp only [List.map_cons, List.foldl_cons, h, if_true]
      exact ih _
    · rw [List.filter_cons_of_neg h]
      simp only [List.map_cons, List.foldl_cons, h, Bool.false_eq_true, if_false]
      rw [e]; exact ih _

/-- The results of a fixed-latency instruction, lane by lane, and its flags (R29, R34). -/
theorem laneResults_spec (u : Bool) {m : DWord} (hm : m ≠ 0) (f : Nat → Word × FFlags) :
    (∀ l, l < 64 → m.getLsbD l = true → (laneResults u m f).1 l = (f (source u m l)).1) ∧
      (laneResults u m f).2 = orFlags ((computing u m).map (fun l => (f l).2)) := by
  cases u with
  | true =>
    refine ⟨fun l _ _ => by simp [laneResults, source], ?_⟩
    rw [computing_true hm]
    simp [laneResults, orFlags]
  | false =>
    refine ⟨fun l hl hb => ?_, ?_⟩
    · simp only [laneResults, source, Bool.false_eq_true, if_false]
      unfold nth upto
      simp [hl, hb]
    · simp only [laneResults, computing, orFlags, Bool.false_eq_true, if_false, lanesIn]
      have h1 := foldl_or_filter (upto 64) (fun i => m.getLsbD i) (fun i => (f i).2) 0
      rw [← h1]
      rw [List.foldl_map, List.foldl_map]
      congr 1
      funext x y
      split <;> rfl

/-- Values matter in the lanes of the mask only. -/
theorem Wrote.congr {c : Issue} {i : Instr} {ds : List Dst} {m : DWord} {val val' : Dst → Nat → Word} {fl fl' : BitVec 6}
    {pv : Fin 8 → Nat → Bool} {G : Group} (w : Wrote c i ds m val fl pv G) (hf : fl = fl')
    (h : ∀ d ∈ ds, ∀ l, l < 64 → m.getLsbD l = true → val d l = val' d l) (hd : ds ≠ [] → m ≠ 0) :
    Wrote c i ds m val' fl' pv G :=
  { w with
    vreg := fun n l hl => by
      rw [w.vreg n l hl]
      by_cases hn : Dst.v n ∈ ds
      · by_cases hb : m.getLsbD l = true
        · simp only [hn, if_true, hb]; exact h _ hn l hl hb
        · simp [hn, hb]
      · simp [hn]
    sreg := fun n => by
      rw [w.sreg n]
      by_cases hn : Dst.s n ∈ ds
      · have hm : m ≠ 0 := hd (List.ne_nil_of_mem hn)
        simp only [hn, if_true]; exact h _ hn _ (lowestLane_lt hm) (lowestLane_bit hm)
      · simp [hn]
    fpstat := by rw [← hf]; exact w.fpstat }

/-! ### Fixed-latency words -/

/-- What a word's own reads and last reads come to, in the words of `Wrote`. -/
theorem Stage1.wrote' {c0 c : Issue} {i : Instr} {ds m val fl pv}
    (d : Stage1 c0 c ds m val (fun n => c0.g.honoursLast c0.k && ((i.reads c0.p.mode).flatMap lastNames).contains n &&
      !(vRegs ds).contains n) ((i.reads c0.p.mode).any (fun e => (vNames e).any (fun n => !c0.g.mapped n))) fl pv) :
    Wrote c0 i ds m val fl pv (c.g.setSlot c.k (some c.p.advance)) := Stage1.wrote d

theorem Stage1.copy {c0 c : Issue} {ds m val rel um fl pv} (d : Stage1 c0 c ds m val rel um fl pv) {fl' : BitVec 6} {pv'}
    (h : fl = fl') (hp : ∀ n l, l < 64 → pv n l = pv' n l) : Stage1 c0 c ds m val rel um fl' pv' := by
  subst h
  exact { d with did := { d.did with pbits := fun n l hl => by rw [d.did.pbits n l hl, hp n l hl] } }

/-- An effect that goes on, from what its operations did. -/
theorem Issuing.gives {i : Instr} {s : State} {c c' : Issue} {cl : ClauseState} {ds m val fl pv} {body : Issue → Eff}
    (h : Issuing i s c cl) (he : exec i s = issue i body s) (hb : body c = .done c')
    (d : Stage1 c c' ds m val (c.lastReads i ds) (c.readsUnmapped i) fl pv) :
    c.Gives i s ds m val fl pv := by
  refine ⟨(Eff.done c').apply c, c'.g.setSlot c'.k (some c'.p.advance), ?_, ?_, d.wrote⟩
  · rw [he, issue_of_issuing h, hb]
  · exact Issue.done_moves d h.path h.owed

/-- An instruction with an empty effective mask. -/
theorem Issue.idle_stage (c : Issue) (i : Instr) (m : DWord) (val : Dst → Nat → Word) :
    ∃ c', c.idle i = .done c' ∧ Stage1 c c' [] m val (c.lastReads i []) (c.readsUnmapped i) 0 c.pbits := by
  refine ⟨_, rfl, ?_⟩
  exact (Stage1.note m val (i.reads c.p.mode)).releaseReads (i.reads c.p.mode)

/-- `fixed` from an issue: its registers. -/
theorem Issue.fixed_stage (c : Issue) (i : Instr) (u : Bool) (d : Dst) (f : Nat → Word × FFlags) :
    ∃ c', c.fixed i u d f = .done c' ∧ Stage1 c c' (if c.emask = 0 then [] else [d]) c.emask
      (fun _ => (laneResults u c.emask f).1) (c.lastReads i (if c.emask = 0 then [] else [d])) (c.readsUnmapped i)
      (orFlags ((computing u c.emask).map (fun l => (f l).2))) c.pbits := by
  unfold Issue.fixed
  by_cases hm : c.emask = 0
  · obtain ⟨c', h1, h2⟩ := c.idle_stage i c.emask (fun _ => (laneResults u c.emask f).1)
    refine ⟨c', by simp only [hm, if_true]; exact h1, ?_⟩
    rw [if_pos hm]
    refine h2.copy ?_ (fun _ _ _ => rfl)
    rw [hm, computing_zero]; rfl
  · refine ⟨_, by simp only [hm, if_false]; rfl, ?_⟩
    rw [if_neg hm]
    have h1 := Stage1.note c.emask (fun _ => (laneResults u c.emask f).1) (c := c) (i.reads c.p.mode)
    have h2 := ((h1.write d).releaseReads (i.reads c.p.mode)).merge (laneResults u c.emask f).2
    refine h2.copy ?_ (fun _ _ _ => rfl)
    rw [(laneResults_spec u hm f).2]; simp

/-- A fixed-latency word with one destination completes with its results (R29, R34, R48, R107, R108). -/
theorem Issuing.results {i : Instr} {s : State} {c : Issue} {cl : ClauseState} {body : Issue → Eff} {u : Bool} {d : Dst}
    {f : Nat → Word × FFlags} (h : Issuing i s c cl) (he : exec i s = issue i body s)
    (hb : body c = c.fixed i u d f) : c.Results i s u d f := by
  obtain ⟨c', h1, h2⟩ := c.fixed_stage i u d f
  obtain ⟨t, G, h3, h4, h5⟩ := h.gives he (hb.trans h1) h2
  refine ⟨t, G, h3, h4, h5.congr rfl ?_ ?_⟩
  · intro x hx l hl hbit
    have hm : c.emask ≠ 0 := by
      intro e; rw [if_pos e] at hx; simp at hx
    exact (laneResults_spec u hm f).1 l hl hbit
  · intro hne e
    rw [if_pos e] at hne; exact hne rfl

/-- `fixedP` from an issue: its registers. -/
theorem Issue.fixedP_stage (c : Issue) (i : Instr) (u : Bool) (p : Fin 8) (f : Nat → Bool × FFlags) :
    ∃ c', c.fixedP i u p f = .done c' ∧ Stage1 c c' [] c.emask (fun _ _ => 0) (c.lastReads i []) (c.readsUnmapped i)
      (orFlags ((computing u c.emask).map (fun l => (f l).2)))
      (c.pbitsWith p c.emask (fun l => (f (source u c.emask l)).1)) := by
  unfold Issue.fixedP
  by_cases hm : c.emask = 0
  · obtain ⟨c', h1, h2⟩ := c.idle_stage i c.emask (fun _ _ => (0 : Word))
    refine ⟨c', by simp only [hm, if_true]; exact h1, ?_⟩
    refine h2.copy ?_ (fun n l _ => ?_)
    · rw [hm, computing_zero]; rfl
    · unfold Issue.pbitsWith Issue.pbits; simp [hm]
  · refine ⟨_, by simp only [hm, if_false]; rfl, ?_⟩
    have h1 := Stage1.note c.emask (fun _ _ => (0 : Word)) (c := c) (i.reads c.p.mode)
    have key := laneResults_spec u hm (fun l => let x := f l; ((if x.1 then 1 else 0 : Word), x.2))
    have h2 := ((h1.writeP p (fun l => decide ((laneResults u c.emask (fun l => let x := f l; ((if x.1 then 1 else 0 : Word), x.2))).1 l = 1))).releaseReads
      (i.reads c.p.mode)).merge (laneResults u c.emask (fun l => let x := f l; ((if x.1 then 1 else 0 : Word), x.2))).2
    refine h2.copy ?_ (fun n l hl => ?_)
    · rw [key.2]; simp
    · unfold Issue.pbitsWith
      by_cases hc : n = p ∧ c.emask.getLsbD l = true
      · rw [if_pos hc, if_pos hc]
        show decide (_ = _) = _
        rw [key.1 l hl hc.2]
        cases h : (f (source u c.emask l)).1 <;> simp [h]
      · rw [if_neg hc, if_neg hc]

/-- A fixed-latency word with a predicate destination completes with its results (R29, R34, R48, R66). -/
theorem Issuing.sets {i : Instr} {s : State} {c : Issue} {cl : ClauseState} {body : Issue → Eff} {u : Bool} {p : Fin 8}
    {f : Nat → Bool × FFlags} (h : Issuing i s c cl) (he : exec i s = issue i body s)
    (hb : body c = c.fixedP i u p f) : c.Sets i s u p f := by
  obtain ⟨c', h1, h2⟩ := c.fixedP_stage i u p f
  exact h.gives he (hb.trans h1) h2

/-- A precise fault (R304). -/
theorem Issuing.raises {i : Instr} {s : State} {c : Issue} {cl : ClauseState} {body : Issue → Eff} {t : Trap}
    (h : Issuing i s c cl) (he : exec i s = issue i body s) (hb : body c = .raise t) :
    exec i s = .next (c.raise t) := by
  rw [he, issue_of_issuing h, hb]; rfl

end Sys2Proof.Machine
end

