-- ==== Sys2Proof/Laws/Control.lean ====
section
/-! SUPPORT. Words that send their path elsewhere: where the path is afterwards, and what the rest of the group and of the
machine is; groups without a path at JOIN. -/
namespace Sys2Proof.Machine

theorem Group.setSlot_setSlot (g : Group) (k : Nat) (p q : Option Path) : (g.setSlot k p).setSlot k q = g.setSlot k q := by
  unfold Group.setSlot; split <;> rfl

theorem Group.setBank_setSlot (g : Group) (k h : Nat) (p : Option Path) (b : Bank) :
    (g.setSlot k p).setBank h b = (g.setBank h b).setSlot k p := by
  unfold Group.setSlot Group.setBank; split <;> split <;> rfl

theorem Group.setBank_id' (g : Group) (h : Nat) (b : Bank) : (g.setBank h b).id = g.id := by
  unfold Group.setBank; split <;> rfl

theorem Group.setBank_owed' (g : Group) (h : Nat) (b : Bank) : (g.setBank h b).owed = g.owed := by
  unfold Group.setBank; split <;> rfl

theorem Stage1.owed {c0 c : Issue} {ds m val rel um fl pv} (d : Stage1 c0 c ds m val rel um fl pv) : c.g.owed = c0.g.owed := by
  have := congrArg Group.owed (d.did.frame c0.g.bank0)
  exact this

theorem Stage1.id {c0 c : Issue} {ds m val rel um fl pv} (d : Stage1 c0 c ds m val rel um fl pv) : c.g.id = c0.g.id := by
  have := congrArg Group.id (d.did.frame c0.g.bank0)
  exact this

/-- An effect from what its operations did to the registers, the half's other scalar state changed by `f`, and the path. -/
theorem Issuing.leaves {i : Instr} {s : State} {c c' : Issue} {cl : ClauseState} {ds val} {body : Issue → Eff} {P : Path}
    {f : Bank → Bank} {t : State} (h : Issuing i s c cl) (he : exec i s = issue i body s)
    (d : Stage1 c c' ds c.p.mask val (c.lastReads i ds) (c.readsUnmapped i) 0 c.pbits) {ended : Bool} (hP : P.park = .running)
    (hb : (body c).apply c = t)
    (ht : t = c'.commit ((c'.g.setBank c.half (f (c'.g.bank c.half))).setSlot c.k (some P)) ended) :
    c.Leaves i s ds val P f := by
  refine ⟨t, c'.g.setSlot c'.k (some c'.p.advance), ?_, ?_, d.wrote⟩
  · rw [he, issue_of_issuing h, hb]
  · obtain ⟨h1, -, h3, h4, h5, -⟩ := State.issue?_spec h.path
    have hs : c'.s = s := by rw [d.s, h1]
    rw [Group.setBank_setSlot, d.k, Group.setSlot_setSlot, Group.bank_setSlot, ht]
    have hm := Issue.commit_moves (c := c') (G := (c'.g.setBank c.half (f (c'.g.bank c.half))).setSlot c.k (some P))
      (ended := ended) (k := c.k) (Group.slot_setSlot_self ..) hP
      (by rw [Group.setSlot_id, Group.setBank_id', d.id, hs, h3]; rfl)
      (by rw [Group.setSlot_owed, Group.setBank_owed', d.owed]; exact h.owed)
    rw [hs] at hm
    exact hm

/-! ### Groups without a path at JOIN -/

theorem Group.tryJoin_none {g : Group} (h : g.noJoin = true) (k : Nat) : g.tryJoin k = none := by
  unfold Group.noJoin at h
  unfold Group.tryJoin Group.slot
  simp only [List.all_append, Bool.and_eq_true] at h
  split
  · rfl
  · rename_i p hp
    have : p.atJoin = none := by
      split at hp
      · have := h.1; rw [hp] at this; simpa using this
      · have := h.2; rw [hp] at this; simpa using this
    rw [this]

theorem Group.joins_none {g : Group} (h : g.noJoin = true) (n : Nat) : g.joins n = g := by
  cases n with
  | zero => rfl
  | succ n => unfold Group.joins; rw [Group.tryJoin_none h, Group.tryJoin_none h]

theorem State.group?_leaveOwed (s : State) (g n : Nat) : (s.leaveOwed g).group? n = (s.group? n).map (fun h =>
    { h with owed := h.owed.filter (fun e => e.1 ≠ g) }) := by
  unfold State.group? State.leaveOwed
  exact find?_map_id s.groups (fun h => { h with owed := h.owed.filter (fun e => e.1 ≠ g) }) (fun _ => rfl) n

/-- A group with a path and none at JOIN, written back after a word: exactly that group. -/
theorem Issue.commit_becomes {c : Issue} {G : Group} {ended : Bool} {k : Nat} {p : Path} (hk : G.slot k = some p)
    (hj : G.noJoin = true) (hs : (c.s.group? G.id).isSome) (hO : ∀ e ∈ G.owed, e.1 ≠ G.id) :
    Becomes c.s G (c.commit G ended) := by
  have hj' : (G.counted c.s.issues).noJoin = true := hj
  have hid : (G.counted c.s.issues).id = G.id := rfl
  have hfilter : G.owed.filter (fun e => decide (e.1 ≠ G.id)) = G.owed := by
    rw [List.filter_eq_self]; intro e he; simpa using hO e he
  have hfilter' : G.owed.filter (fun e => !(decide (e.1 = G.id) && (if c.k = 0 then e.2.1 else e.2.2))) = G.owed := by
    rw [List.filter_eq_self]; intro e he; simp [hO e he]
  have hend : (G.counted c.s.issues).ended = false :=
    Group.not_ended_of_slot (k := k) (p := p) (by unfold Group.counted Group.slot at *; exact hk)
  let s1 : State := { c.s with issues := c.s.issues + 1 }
  have hs1 : (s1.group? (G.counted c.s.issues).id).isSome := hs
  have hput : (s1.setGroup (G.counted c.s.issues)).group? G.id = some (G.counted c.s.issues) :=
    State.group?_setGroup_self hs1
  have hoth : ∀ n, n ≠ G.id → (s1.setGroup (G.counted c.s.issues)).group? n = c.s.group? n := fun n hn =>
    State.group?_setGroup_other hn
  have hreap : ∀ u : State, u.group? G.id = some (G.counted c.s.issues) → u.reap G.id = u := by
    intro u hu
    unfold State.reap
    rw [hu]
    simp only [hend, Bool.not_false, if_true]
  have hleave : ((s1.setGroup (G.counted c.s.issues)).leaveOwed G.id).group? G.id = some (G.counted c.s.issues) := by
    rw [State.group?_leaveOwed, hput]
    simp only [Option.map_some, Group.counted, hfilter]
  have key : ∃ u, s1.settle (G.counted c.s.issues) = u ∧ u = { s1 with groups := u.groups } ∧
      u.group? G.id = some (G.counted c.s.issues) ∧
      ∀ n, n ≠ G.id → (u.group? n).map Group.plain = (c.s.group? n).map Group.plain := by
    unfold State.settle
    rw [Group.joins_none hj']
    simp only [hid]
    split
    · refine ⟨_, hreap _ hleave, rfl, hleave, fun n hn => ?_⟩
      rw [State.group?_leaveOwed, hoth n hn]
      cases c.s.group? n <;> rfl
    · exact ⟨_, hreap _ hput, rfl, hput, fun n hn => by rw [hoth n hn]⟩
  obtain ⟨u, h1, h2, h3, h4⟩ := key
  have hc : c.commit G ended = if ended then u.clauseIssued G.id c.k else u := by
    rw [← h1]; rfl
  rw [hc]
  cases ended with
  | false =>
    simp only [Bool.false_eq_true, if_false]
    exact ⟨h2, h3, h4⟩
  | true =>
    simp only [if_true]
    refine ⟨?_, ?_, ?_⟩
    · show { u with groups := _ } = _
      rw [h2]
      rfl
    · rw [State.group?_clauseIssued, h3]
      simp only [Option.map_some, Group.counted, hfilter']
    · intro n hn
      rw [State.group?_clauseIssued]
      have := h4 n hn
      rw [← this]
      cases u.group? n <;> rfl

/-- One group written back (R304). -/
theorem State.setGroup_puts {s : State} {G : Group} (h : (s.group? G.id).isSome) : Puts s G (s.setGroup G) :=
  ⟨rfl, State.group?_setGroup_self h, fun _ hn => State.group?_setGroup_other hn⟩

/-! ### The spill area in context memory (R103) -/

theorem length_leBytes (n x : Nat) : (leBytes n x).length = n := by
  induction n generalizing x with
  | zero => rfl
  | succ n ih => exact congrArg (· + 1) (ih _)

theorem length_flatMap_const {α β : Type} (n : Nat) (l : List α) (f : α → List β) (h : ∀ a ∈ l, (f a).length = n) :
    (l.flatMap f).length = l.length * n := by
  induction l with
  | nil => simp
  | cons a t ih =>
    simp only [List.flatMap_cons, List.length_append, List.length_cons, h a (by simp), ih (fun b hb => h b (by simp [hb]))]
    rw [Nat.succ_mul, Nat.add_comm]

/-- R103: a group's spill area is 2 KiB. -/
theorem Group.length_spillArea (g : Group) : g.spillArea.length = 2048 := by
  unfold Group.spillArea
  rw [length_flatMap_const 32 _ _ (fun n _ => length_leBytes _ _)]
  simp [upto]

/-- Table 6.3: bits 255:152 are zero. -/
theorem SpillEntry.pack_lt (e : SpillEntry) : e.pack < 2 ^ 152 := by
  cases e with
  | pathSet e =>
    simp only [SpillEntry.pack]
    have h1 := e.pc.isLt
    have h2 := (e.pjoin.getD 0xFFFFFFFF).isLt
    have h3 := e.mask.isLt
    have h4 := e.mode.isLt
    omega
  | savedJoin j => simp only [SpillEntry.pack]; have := j.isLt; omega

/-- Table 6.3: the fields of a path set. -/
theorem SpillEntry.bits_pack_pathSet (e : PathSet) : bits (SpillEntry.pathSet e).pack 31 0 = e.pc.toNat ∧
    bits (SpillEntry.pathSet e).pack 63 32 = (e.pjoin.getD 0xFFFFFFFF).toNat ∧ bits (SpillEntry.pathSet e).pack 127 64 = e.mask.toNat ∧
    bits (SpillEntry.pathSet e).pack 143 128 = e.mode.toNat ∧ bits (SpillEntry.pathSet e).pack 151 144 = 0 := by
  have h1 := e.pc.isLt
  have h2 := (e.pjoin.getD 0xFFFFFFFF).isLt
  have h3 := e.mask.isLt
  have h4 := e.mode.isLt
  simp only [SpillEntry.pack, bits]
  omega
/-- Table 6.3: the fields of a saved pending join. -/
theorem SpillEntry.bits_pack_savedJoin (j : Word) : bits (SpillEntry.savedJoin j).pack 31 0 = j.toNat ∧
    bits (SpillEntry.savedJoin j).pack 143 32 = 0 ∧ bits (SpillEntry.savedJoin j).pack 151 144 = 1 := by
  have := j.isLt
  simp only [SpillEntry.pack, bits]
  omega

end Sys2Proof.Machine
end

