-- ==== Sys2Proof/Laws/Decode.lean ====
section
/-! SUPPORT. Fields of encoded words, and operands read back from their encodings. -/
namespace Sys2Proof

/-! ### Bits of a word of each format -/

theorem bits_wordA (u op d a b) (i : Nat) : (wordA u op d a b).getLsbD i =
    if i < 8 then (b).getLsbD (i - 0) else if i < 16 then (a).getLsbD (i - 8) else if i < 24 then (d).getLsbD (i - 16) else if i < 31 then (op).getLsbD (i - 24) else (bool1 u).getLsbD (i - 31) := by
  unfold wordA
  change (bool1 u ++ op ++ d ++ a ++ b : BitVec (1+7+8+8+8)).getLsbD i = _
  simp only [BitVec.getLsbD_append, Nat.sub_sub, Nat.sub_zero]
  split_ifs <;> first | rfl | omega

theorem bits_wordI (u op d imm) (i : Nat) : (wordI u op d imm).getLsbD i =
    if i < 16 then (imm).getLsbD (i - 0) else if i < 24 then (d).getLsbD (i - 16) else if i < 31 then (op).getLsbD (i - 24) else (bool1 u).getLsbD (i - 31) := by
  unfold wordI
  change (bool1 u ++ op ++ d ++ imm : BitVec (1+7+8+16)).getLsbD i = _
  simp only [BitVec.getLsbD_append, Nat.sub_sub, Nat.sub_zero]
  split_ifs <;> first | rfl | omega

theorem bits_wordJ (op off) (i : Nat) : (wordJ op off).getLsbD i =
    if i < 24 then (off).getLsbD (i - 0) else if i < 31 then (op).getLsbD (i - 24) else ((0 : BitVec 1)).getLsbD (i - 31) := by
  unfold wordJ
  change ((0 : BitVec 1) ++ op ++ off : BitVec (1+7+24)).getLsbD i = _
  simp only [BitVec.getLsbD_append, Nat.sub_sub, Nat.sub_zero]
  split_ifs <;> first | rfl | omega

theorem bits_wordC (op neg p all off) (i : Nat) : (wordC op neg p all off).getLsbD i =
    if i < 19 then (off).getLsbD (i - 0) else if i < 20 then (bool1 all).getLsbD (i - 19) else if i < 23 then (bits3 p).getLsbD (i - 20) else if i < 24 then (bool1 neg).getLsbD (i - 23) else if i < 31 then (op).getLsbD (i - 24) else ((0 : BitVec 1)).getLsbD (i - 31) := by
  unfold wordC
  change ((0 : BitVec 1) ++ op ++ bool1 neg ++ bits3 p ++ bool1 all ++ off : BitVec (1+7+1+3+1+19)).getLsbD i = _
  simp only [BitVec.getLsbD_append, Nat.sub_sub, Nat.sub_zero]
  split_ifs <;> first | rfl | omega

theorem bits_wordM (u op d x ctl a) (i : Nat) : (wordM u op d x ctl a).getLsbD i =
    if i < 8 then (a).getLsbD (i - 0) else if i < 13 then (ctl).getLsbD (i - 8) else if i < 16 then (x).getLsbD (i - 13) else if i < 24 then (d).getLsbD (i - 16) else if i < 31 then (op).getLsbD (i - 24) else (bool1 u).getLsbD (i - 31) := by
  unfold wordM
  change (bool1 u ++ op ++ d ++ x ++ ctl ++ a : BitVec (1+7+8+3+5+8)).getLsbD i = _
  simp only [BitVec.getLsbD_append, Nat.sub_sub, Nat.sub_zero]
  split_ifs <;> first | rfl | omega

/-! ### Fields -/

@[simp] theorem fU_wordA (u op d a b) : fU (wordA u op d a b) = bool1 u := by
  unfold fU
  ext i h
  simp only [BitVec.getElem_extractLsb', bits_wordA]
  rw [if_neg (by omega), if_neg (by omega), if_neg (by omega), if_neg (by omega), BitVec.getLsbD_eq_getElem (by omega)]
  congr 1; omega

@[simp] theorem fOp_wordA (u op d a b) : fOp (wordA u op d a b) = op := by
  unfold fOp
  ext i h
  simp only [BitVec.getElem_extractLsb', bits_wordA]
  rw [if_neg (by omega), if_neg (by omega), if_neg (by omega), if_pos (by omega), BitVec.getLsbD_eq_getElem (by omega)]
  congr 1; omega

@[simp] theorem fD_wordA (u op d a b) : fD (wordA u op d a b) = d := by
  unfold fD
  ext i h
  simp only [BitVec.getElem_extractLsb', bits_wordA]
  rw [if_neg (by omega), if_neg (by omega), if_pos (by omega), BitVec.getLsbD_eq_getElem (by omega)]
  congr 1; omega

@[simp] theorem fA_wordA (u op d a b) : fA (wordA u op d a b) = a := by
  unfold fA
  ext i h
  simp only [BitVec.getElem_extractLsb', bits_wordA]
  rw [if_neg (by omega), if_pos (by omega), BitVec.getLsbD_eq_getElem (by omega)]
  congr 1; omega

@[simp] theorem fB_wordA (u op d a b) : fB (wordA u op d a b) = b := by
  unfold fB
  ext i h
  simp only [BitVec.getElem_extractLsb', bits_wordA]
  rw [if_pos (by omega), BitVec.getLsbD_eq_getElem (by omega)]
  congr 1; omega

@[simp] theorem fU_wordI (u op d imm) : fU (wordI u op d imm) = bool1 u := by
  unfold fU
  ext i h
  simp only [BitVec.getElem_extractLsb', bits_wordI]
  rw [if_neg (by omega), if_neg (by omega), if_neg (by omega), BitVec.getLsbD_eq_getElem (by omega)]
  congr 1; omega

@[simp] theorem fOp_wordI (u op d imm) : fOp (wordI u op d imm) = op := by
  unfold fOp
  ext i h
  simp only [BitVec.getElem_extractLsb', bits_wordI]
  rw [if_neg (by omega), if_neg (by omega), if_pos (by omega), BitVec.getLsbD_eq_getElem (by omega)]
  congr 1; omega

@[simp] theorem fD_wordI (u op d imm) : fD (wordI u op d imm) = d := by
  unfold fD
  ext i h
  simp only [BitVec.getElem_extractLsb', bits_wordI]
  rw [if_neg (by omega), if_pos (by omega), BitVec.getLsbD_eq_getElem (by omega)]
  congr 1; omega

@[simp] theorem fImm_wordI (u op d imm) : fImm (wordI u op d imm) = imm := by
  unfold fImm
  ext i h
  simp only [BitVec.getElem_extractLsb', bits_wordI]
  rw [if_pos (by omega), BitVec.getLsbD_eq_getElem (by omega)]
  congr 1; omega

@[simp] theorem fU_wordJ (op off) : fU (wordJ op off) = (0 : BitVec 1) := by
  unfold fU
  ext i h
  simp only [BitVec.getElem_extractLsb', bits_wordJ]
  rw [if_neg (by omega), if_neg (by omega), BitVec.getLsbD_eq_getElem (by omega)]
  congr 1; omega

@[simp] theorem fOp_wordJ (op off) : fOp (wordJ op off) = op := by
  unfold fOp
  ext i h
  simp only [BitVec.getElem_extractLsb', bits_wordJ]
  rw [if_neg (by omega), if_pos (by omega), BitVec.getLsbD_eq_getElem (by omega)]
  congr 1; omega

@[simp] theorem fU_wordC (op neg p all off) : fU (wordC op neg p all off) = (0 : BitVec 1) := by
  unfold fU
  ext i h
  simp only [BitVec.getElem_extractLsb', bits_wordC]
  rw [if_neg (by omega), if_neg (by omega), if_neg (by omega), if_neg (by omega), if_neg (by omega), BitVec.getLsbD_eq_getElem (by omega)]
  congr 1; omega

@[simp] theorem fOp_wordC (op neg p all off) : fOp (wordC op neg p all off) = op := by
  unfold fOp
  ext i h
  simp only [BitVec.getElem_extractLsb', bits_wordC]
  rw [if_neg (by omega), if_neg (by omega), if_neg (by omega), if_neg (by omega), if_pos (by omega), BitVec.getLsbD_eq_getElem (by omega)]
  congr 1; omega

@[simp] theorem fU_wordM (u op d x ctl a) : fU (wordM u op d x ctl a) = bool1 u := by
  unfold fU
  ext i h
  simp only [BitVec.getElem_extractLsb', bits_wordM]
  rw [if_neg (by omega), if_neg (by omega), if_neg (by omega), if_neg (by omega), if_neg (by omega), BitVec.getLsbD_eq_getElem (by omega)]
  congr 1; omega

@[simp] theorem fOp_wordM (u op d x ctl a) : fOp (wordM u op d x ctl a) = op := by
  unfold fOp
  ext i h
  simp only [BitVec.getElem_extractLsb', bits_wordM]
  rw [if_neg (by omega), if_neg (by omega), if_neg (by omega), if_neg (by omega), if_pos (by omega), BitVec.getLsbD_eq_getElem (by omega)]
  congr 1; omega

@[simp] theorem fD_wordM (u op d x ctl a) : fD (wordM u op d x ctl a) = d := by
  unfold fD
  ext i h
  simp only [BitVec.getElem_extractLsb', bits_wordM]
  rw [if_neg (by omega), if_neg (by omega), if_neg (by omega), if_pos (by omega), BitVec.getLsbD_eq_getElem (by omega)]
  congr 1; omega

@[simp] theorem fB_wordM (u op d x ctl a) : fB (wordM u op d x ctl a) = a := by
  unfold fB
  ext i h
  simp only [BitVec.getElem_extractLsb', bits_wordM]
  rw [if_pos (by omega), BitVec.getLsbD_eq_getElem (by omega)]
  congr 1; omega

@[simp] theorem fX_wordM (u op d x ctl a) : fX (wordM u op d x ctl a) = x := by
  unfold fX
  ext i h
  simp only [BitVec.getElem_extractLsb', bits_wordM]
  rw [if_neg (by omega), if_neg (by omega), if_pos (by omega), BitVec.getLsbD_eq_getElem (by omega)]
  congr 1; omega

@[simp] theorem fCtl_wordM (u op d x ctl a) : fCtl (wordM u op d x ctl a) = ctl := by
  unfold fCtl
  ext i h
  simp only [BitVec.getElem_extractLsb', bits_wordM]
  rw [if_neg (by omega), if_pos (by omega), BitVec.getLsbD_eq_getElem (by omega)]
  congr 1; omega

@[simp] theorem off_wordJ (op off) : (wordJ op off).extractLsb' 0 24 = off := by
  ext i h
  simp only [BitVec.getElem_extractLsb', bits_wordJ]
  rw [if_pos (by omega), BitVec.getLsbD_eq_getElem (by omega)]
  congr 1; omega

@[simp] theorem off_wordC (op neg p all off) : (wordC op neg p all off).extractLsb' 0 19 = off := by
  ext i h
  simp only [BitVec.getElem_extractLsb', bits_wordC]
  rw [if_pos (by omega), BitVec.getLsbD_eq_getElem (by omega)]
  congr 1; omega

@[simp] theorem all_wordC (op neg p all off) : (wordC op neg p all off).extractLsb' 19 1 = bool1 all := by
  ext i h
  simp only [BitVec.getElem_extractLsb', bits_wordC]
  rw [if_neg (by omega), if_pos (by omega), BitVec.getLsbD_eq_getElem (by omega)]
  congr 1; omega

@[simp] theorem p_wordC (op neg p all off) : (wordC op neg p all off).extractLsb' 20 3 = bits3 p := by
  ext i h
  simp only [BitVec.getElem_extractLsb', bits_wordC]
  rw [if_neg (by omega), if_neg (by omega), if_pos (by omega), BitVec.getLsbD_eq_getElem (by omega)]
  congr 1; omega

@[simp] theorem neg_wordC (op neg p all off) : (wordC op neg p all off).extractLsb' 23 1 = bool1 neg := by
  ext i h
  simp only [BitVec.getElem_extractLsb', bits_wordC]
  rw [if_neg (by omega), if_neg (by omega), if_neg (by omega), if_pos (by omega), BitVec.getLsbD_eq_getElem (by omega)]
  congr 1; omega

theorem header_byte : ∀ y : BitVec 8,
    decide (y = 255) = (decide (y.extractLsb' 7 1 = 1) && decide (y.extractLsb' 0 7 = 127)) := by decide

theorem isHeader_of (w : Word) : isHeader w = (decide (fU w = 1) && decide (fOp w = 127)) := by
  have h1 : fU w = (w.extractLsb' 24 8).extractLsb' 7 1 := by
    ext i h; simp only [fU, BitVec.getElem_extractLsb', BitVec.getLsbD_extractLsb']
    rw [decide_eq_true (by omega), Bool.true_and]; congr 1; omega
  have h2 : fOp w = (w.extractLsb' 24 8).extractLsb' 0 7 := by
    ext i h; simp only [fOp, BitVec.getElem_extractLsb', BitVec.getLsbD_extractLsb']
    rw [decide_eq_true (by omega), Bool.true_and]; congr 1; omega
  rw [h1, h2]; exact header_byte _

@[simp] theorem low24_wordA (op : BitVec 7) : (wordA false op 0#8 0#8 0#8).extractLsb' 0 24 = 0#24 := by
  ext i h
  simp only [BitVec.getElem_extractLsb', bits_wordA]
  split_ifs <;> first | omega | simp

/-! ### Operands and codes -/

@[simp] theorem Dst.decode_encode (d : Dst) : Dst.decode d.encode = .ok d := by
  cases d <;> rename_i n <;> revert n <;> decide
@[simp] theorem Src.decode_encode (a : Src) : Src.decode a.encode = .ok a := by
  cases a <;> rename_i n <;> first | (revert n; decide) | (cases n <;> rfl)
@[simp] theorem PDst.decode_encode (d : PDst) : PDst.decode d.pd d.encode = .ok d := by
  cases d with
  | reg d => simp [PDst.decode, PDst.pd, PDst.encode, Except.map]
  | pred n => revert n; decide
@[simp] theorem quadDecode_encode (k : SQuad) : quadDecode (quadEncode k) = .ok k := by revert k; decide
@[simp] theorem sregDecode_encode (n : Fin 64) : sregDecode (sregEncode n) = .ok n := by revert n; decide
@[simp] theorem vregDecode_encode (n : Fin 64) : vregDecode (vregEncode n) = .ok n := by revert n; decide
@[simp] theorem reg6_vregEncode (n : Fin 64) : reg6 (vregEncode n) = n := by revert n; decide
@[simp] theorem reg3_bits3 (n : Fin 8) : reg3 (bits3 n) = n := by revert n; decide
@[simp] theorem reg4_bits4 (n : Fin 16) : reg4 (bits4 n) = n := by revert n; decide
@[simp] theorem bit1_bool1 (b : Bool) : bit1 (bool1 b) = b := by revert b; decide
@[simp] theorem flagOfCode_flagCode (f : Option (Fin 12)) : flagOfCode (flagCode f) = .ok f := by revert f; decide
@[simp] theorem Dst.encode_ne_255 (d : Dst) : (d.encode = 255#8) = False := by
  cases d <;> rename_i n <;> revert n <;> decide
@[simp] theorem bool1_false : bool1 false = 0#1 := rfl

@[simp] theorem Cond.ofCode_code (x : Cond) : Cond.ofCode x.code = .ok x := by cases x <;> rfl
@[simp] theorem Scope.ofCode_code (x : Scope) : Scope.ofCode x.code = .ok x := by cases x <;> rfl
@[simp] theorem PathClass.ofCode_code (x : PathClass) : PathClass.ofCode x.code = .ok x := by cases x <;> rfl
@[simp] theorem FenceKind.ofCode_code (x : FenceKind) : FenceKind.ofCode x.code = .ok x := by cases x <;> rfl
@[simp] theorem ElemType.ofCode_code (x : ElemType) : ElemType.ofCode x.code = .ok x := by cases x <;> rfl
@[simp] theorem MemSize.ofCode_code (x : MemSize) : MemSize.ofCode x.code = .ok x := by cases x <;> rfl
@[simp] theorem Hint.ofCode_code (x : Hint) : Hint.ofCode x.code = .ok x := by cases x <;> rfl
@[simp] theorem AtomOp.ofCode_code (x : AtomOp) : AtomOp.ofCode x.code = .ok x := by cases x <;> rfl
@[simp] theorem RedOp.ofCode_code (x : RedOp) : RedOp.ofCode x.code = .ok x := by cases x <;> rfl
@[simp] theorem VoteKind.ofCode_code (x : VoteKind) : VoteKind.ofCode x.code = .ok x := by cases x <;> rfl
@[simp] theorem TraceKind.ofCode_code (x : TraceKind) : TraceKind.ofCode x.code = .ok x := by cases x <;> rfl
@[simp] theorem PrefKind.ofCode_code (x : PrefKind) : PrefKind.ofCode x.code = .ok x := by cases x <;> rfl
@[simp] theorem LodSize.ofCode_code (x : LodSize) : LodSize.ofCode x.code = .ok x := by cases x <;> rfl
@[simp] theorem Space.ofCode_code (x : Space) : Space.ofCode x.code = .ok x := by cases x <;> rfl
/-! ### Fields of a byte or half word laid together -/

@[simp] theorem piece_cmp_0 (x : BitVec 4) (y : BitVec 3) : BitVec.extractLsb' 4 4 (x ++ 0#1 ++ y) = x := by
  ext i h
  simp only [BitVec.getElem_extractLsb']
  simp only [BitVec.getLsbD_append]
  rw [if_neg (by omega), if_neg (by omega), BitVec.getLsbD_eq_getElem (by omega)]
  congr 1; omega

@[simp] theorem piece_cmp_1 (x : BitVec 4) (y : BitVec 3) : BitVec.extractLsb' 3 1 (x ++ 0#1 ++ y) = 0#1 := by
  ext i h
  simp only [BitVec.getElem_extractLsb']
  simp only [BitVec.getLsbD_append]
  rw [if_neg (by omega), if_pos (by omega)]; simp

@[simp] theorem piece_cmp_2 (x : BitVec 4) (y : BitVec 3) : BitVec.extractLsb' 0 3 (x ++ 0#1 ++ y) = y := by
  ext i h
  simp only [BitVec.getElem_extractLsb']
  simp only [BitVec.getLsbD_append]
  rw [if_pos (by omega), BitVec.getLsbD_eq_getElem (by omega)]
  congr 1; omega

@[simp] theorem piece_cvt_0 (x : BitVec 3) (y : BitVec 4) : BitVec.extractLsb' 7 1 (0#1 ++ x ++ y) = 0#1 := by
  ext i h
  simp only [BitVec.getElem_extractLsb']
  simp only [BitVec.getLsbD_append]
  rw [if_neg (by omega), if_neg (by omega)]; simp

@[simp] theorem piece_cvt_1 (x : BitVec 3) (y : BitVec 4) : BitVec.extractLsb' 4 3 (0#1 ++ x ++ y) = x := by
  ext i h
  simp only [BitVec.getElem_extractLsb']
  simp only [BitVec.getLsbD_append]
  rw [if_neg (by omega), if_pos (by omega), BitVec.getLsbD_eq_getElem (by omega)]
  congr 1; omega

@[simp] theorem piece_cvt_2 (x : BitVec 3) (y : BitVec 4) : BitVec.extractLsb' 0 4 (0#1 ++ x ++ y) = y := by
  ext i h
  simp only [BitVec.getElem_extractLsb']
  simp only [BitVec.getLsbD_append]
  rw [if_pos (by omega), BitVec.getLsbD_eq_getElem (by omega)]
  congr 1; omega

@[simp] theorem piece_unpk_0 (x : BitVec 1) (y : BitVec 1) : BitVec.extractLsb' 2 6 (0#6 ++ x ++ y) = 0#6 := by
  ext i h
  simp only [BitVec.getElem_extractLsb']
  simp only [BitVec.getLsbD_append]
  rw [if_neg (by omega), if_neg (by omega)]; simp

@[simp] theorem piece_unpk_1 (x : BitVec 1) (y : BitVec 1) : BitVec.extractLsb' 1 1 (0#6 ++ x ++ y) = x := by
  ext i h
  simp only [BitVec.getElem_extractLsb']
  simp only [BitVec.getLsbD_append]
  rw [if_neg (by omega), if_pos (by omega), BitVec.getLsbD_eq_getElem (by omega)]
  congr 1; omega

@[simp] theorem piece_unpk_2 (x : BitVec 1) (y : BitVec 1) : BitVec.extractLsb' 0 1 (0#6 ++ x ++ y) = y := by
  ext i h
  simp only [BitVec.getElem_extractLsb']
  simp only [BitVec.getLsbD_append]
  rw [if_pos (by omega), BitVec.getLsbD_eq_getElem (by omega)]
  congr 1; omega

@[simp] theorem piece_vote_0 (x : BitVec 1) (y : BitVec 2) : BitVec.extractLsb' 5 3 (0#3 ++ x ++ 0#2 ++ y) = 0#3 := by
  ext i h
  simp only [BitVec.getElem_extractLsb']
  simp only [BitVec.getLsbD_append]
  rw [if_neg (by omega), if_neg (by omega), if_neg (by omega)]; simp

@[simp] theorem piece_vote_1 (x : BitVec 1) (y : BitVec 2) : BitVec.extractLsb' 4 1 (0#3 ++ x ++ 0#2 ++ y) = x := by
  ext i h
  simp only [BitVec.getElem_extractLsb']
  simp only [BitVec.getLsbD_append]
  rw [if_neg (by omega), if_neg (by omega), if_pos (by omega), BitVec.getLsbD_eq_getElem (by omega)]
  congr 1; omega

@[simp] theorem piece_vote_2 (x : BitVec 1) (y : BitVec 2) : BitVec.extractLsb' 2 2 (0#3 ++ x ++ 0#2 ++ y) = 0#2 := by
  ext i h
  simp only [BitVec.getElem_extractLsb']
  simp only [BitVec.getLsbD_append]
  rw [if_neg (by omega), if_pos (by omega)]; simp

@[simp] theorem piece_vote_3 (x : BitVec 1) (y : BitVec 2) : BitVec.extractLsb' 0 2 (0#3 ++ x ++ 0#2 ++ y) = y := by
  ext i h
  simp only [BitVec.getElem_extractLsb']
  simp only [BitVec.getLsbD_append]
  rw [if_pos (by omega), BitVec.getLsbD_eq_getElem (by omega)]
  congr 1; omega

@[simp] theorem piece_lred_0 (x : BitVec 4) : BitVec.extractLsb' 4 4 (0#4 ++ x) = 0#4 := by
  ext i h
  simp only [BitVec.getElem_extractLsb']
  simp only [BitVec.getLsbD_append]
  rw [if_neg (by omega)]; simp

@[simp] theorem piece_lred_1 (x : BitVec 4) : BitVec.extractLsb' 0 4 (0#4 ++ x) = x := by
  ext i h
  simp only [BitVec.getElem_extractLsb']
  simp only [BitVec.getLsbD_append]
  rw [if_pos (by omega), BitVec.getLsbD_eq_getElem (by omega)]
  congr 1; omega

@[simp] theorem piece_lscan_0 (x : BitVec 1) (y : BitVec 4) : BitVec.extractLsb' 7 1 (x ++ 0#3 ++ y) = x := by
  ext i h
  simp only [BitVec.getElem_extractLsb']
  simp only [BitVec.getLsbD_append]
  rw [if_neg (by omega), if_neg (by omega), BitVec.getLsbD_eq_getElem (by omega)]
  congr 1; omega

@[simp] theorem piece_lscan_1 (x : BitVec 1) (y : BitVec 4) : BitVec.extractLsb' 4 3 (x ++ 0#3 ++ y) = 0#3 := by
  ext i h
  simp only [BitVec.getElem_extractLsb']
  simp only [BitVec.getLsbD_append]
  rw [if_neg (by omega), if_pos (by omega)]; simp

@[simp] theorem piece_lscan_2 (x : BitVec 1) (y : BitVec 4) : BitVec.extractLsb' 0 4 (x ++ 0#3 ++ y) = y := by
  ext i h
  simp only [BitVec.getElem_extractLsb']
  simp only [BitVec.getLsbD_append]
  rw [if_pos (by omega), BitVec.getLsbD_eq_getElem (by omega)]
  congr 1; omega

@[simp] theorem piece_elect_0 (x : BitVec 1) : BitVec.extractLsb' 5 3 (0#3 ++ x ++ 0#4) = 0#3 := by
  ext i h
  simp only [BitVec.getElem_extractLsb']
  simp only [BitVec.getLsbD_append]
  rw [if_neg (by omega), if_neg (by omega)]; simp

@[simp] theorem piece_elect_1 (x : BitVec 1) : BitVec.extractLsb' 4 1 (0#3 ++ x ++ 0#4) = x := by
  ext i h
  simp only [BitVec.getElem_extractLsb']
  simp only [BitVec.getLsbD_append]
  rw [if_neg (by omega), if_pos (by omega), BitVec.getLsbD_eq_getElem (by omega)]
  congr 1; omega

@[simp] theorem piece_elect_2 (x : BitVec 1) : BitVec.extractLsb' 0 4 (0#3 ++ x ++ 0#4) = 0#4 := by
  ext i h
  simp only [BitVec.getElem_extractLsb']
  simp only [BitVec.getLsbD_append]
  rw [if_pos (by omega)]; simp

@[simp] theorem piece_low3_0 (x : BitVec 3) : BitVec.extractLsb' 3 5 (0#5 ++ x) = 0#5 := by
  ext i h
  simp only [BitVec.getElem_extractLsb']
  simp only [BitVec.getLsbD_append]
  rw [if_neg (by omega)]; simp

@[simp] theorem piece_low3_1 (x : BitVec 3) : BitVec.extractLsb' 0 3 (0#5 ++ x) = x := by
  ext i h
  simp only [BitVec.getElem_extractLsb']
  simp only [BitVec.getLsbD_append]
  rw [if_pos (by omega), BitVec.getLsbD_eq_getElem (by omega)]
  congr 1; omega

@[simp] theorem piece_fence_0 (x : BitVec 2) (y : BitVec 4) : BitVec.extractLsb' 6 10 (0#10 ++ x ++ y) = 0#10 := by
  ext i h
  simp only [BitVec.getElem_extractLsb']
  simp only [BitVec.getLsbD_append]
  rw [if_neg (by omega), if_neg (by omega)]; simp

@[simp] theorem piece_fence_1 (x : BitVec 2) (y : BitVec 4) : BitVec.extractLsb' 4 2 (0#10 ++ x ++ y) = x := by
  ext i h
  simp only [BitVec.getElem_extractLsb']
  simp only [BitVec.getLsbD_append]
  rw [if_neg (by omega), if_pos (by omega), BitVec.getLsbD_eq_getElem (by omega)]
  congr 1; omega

@[simp] theorem piece_fence_2 (x : BitVec 2) (y : BitVec 4) : BitVec.extractLsb' 0 4 (0#10 ++ x ++ y) = y := by
  ext i h
  simp only [BitVec.getElem_extractLsb']
  simp only [BitVec.getLsbD_append]
  rw [if_pos (by omega), BitVec.getLsbD_eq_getElem (by omega)]
  congr 1; omega

@[simp] theorem piece_xfence_0 (x : BitVec 2) (y : BitVec 4) (z : BitVec 4) (t : BitVec 4) : BitVec.extractLsb' 14 2 (0#2 ++ x ++ y ++ z ++ t) = 0#2 := by
  ext i h
  simp only [BitVec.getElem_extractLsb']
  simp only [BitVec.getLsbD_append]
  rw [if_neg (by omega), if_neg (by omega), if_neg (by omega), if_neg (by omega)]; simp

@[simp] theorem piece_xfence_1 (x : BitVec 2) (y : BitVec 4) (z : BitVec 4) (t : BitVec 4) : BitVec.extractLsb' 12 2 (0#2 ++ x ++ y ++ z ++ t) = x := by
  ext i h
  simp only [BitVec.getElem_extractLsb']
  simp only [BitVec.getLsbD_append]
  rw [if_neg (by omega), if_neg (by omega), if_neg (by omega), if_pos (by omega), BitVec.getLsbD_eq_getElem (by omega)]
  congr 1; omega

@[simp] theorem piece_xfence_2 (x : BitVec 2) (y : BitVec 4) (z : BitVec 4) (t : BitVec 4) : BitVec.extractLsb' 8 4 (0#2 ++ x ++ y ++ z ++ t) = y := by
  ext i h
  simp only [BitVec.getElem_extractLsb']
  simp only [BitVec.getLsbD_append]
  rw [if_neg (by omega), if_neg (by omega), if_pos (by omega), BitVec.getLsbD_eq_getElem (by omega)]
  congr 1; omega

@[simp] theorem piece_xfence_3 (x : BitVec 2) (y : BitVec 4) (z : BitVec 4) (t : BitVec 4) : BitVec.extractLsb' 4 4 (0#2 ++ x ++ y ++ z ++ t) = z := by
  ext i h
  simp only [BitVec.getElem_extractLsb']
  simp only [BitVec.getLsbD_append]
  rw [if_neg (by omega), if_pos (by omega), BitVec.getLsbD_eq_getElem (by omega)]
  congr 1; omega

@[simp] theorem piece_xfence_4 (x : BitVec 2) (y : BitVec 4) (z : BitVec 4) (t : BitVec 4) : BitVec.extractLsb' 0 4 (0#2 ++ x ++ y ++ z ++ t) = t := by
  ext i h
  simp only [BitVec.getElem_extractLsb']
  simp only [BitVec.getLsbD_append]
  rw [if_pos (by omega), BitVec.getLsbD_eq_getElem (by omega)]
  congr 1; omega

@[simp] theorem piece_csr_0 (x : BitVec 12) : BitVec.extractLsb' 12 4 (0#4 ++ x) = 0#4 := by
  ext i h
  simp only [BitVec.getElem_extractLsb']
  simp only [BitVec.getLsbD_append]
  rw [if_neg (by omega)]; simp

@[simp] theorem piece_csr_1 (x : BitVec 12) : BitVec.extractLsb' 0 12 (0#4 ++ x) = x := by
  ext i h
  simp only [BitVec.getElem_extractLsb']
  simp only [BitVec.getLsbD_append]
  rw [if_pos (by omega), BitVec.getLsbD_eq_getElem (by omega)]
  congr 1; omega

@[simp] theorem piece_ld_0 (x : BitVec 3) (y : BitVec 2) : BitVec.extractLsb' 2 3 (x ++ y) = x := by
  ext i h
  simp only [BitVec.getElem_extractLsb']
  simp only [BitVec.getLsbD_append]
  rw [if_neg (by omega), BitVec.getLsbD_eq_getElem (by omega)]
  congr 1; omega

@[simp] theorem piece_ld_1 (x : BitVec 3) (y : BitVec 2) : BitVec.extractLsb' 0 2 (x ++ y) = y := by
  ext i h
  simp only [BitVec.getElem_extractLsb']
  simp only [BitVec.getLsbD_append]
  rw [if_pos (by omega), BitVec.getLsbD_eq_getElem (by omega)]
  congr 1; omega

@[simp] theorem piece_atom_0 (x : BitVec 4) (y : BitVec 1) : BitVec.extractLsb' 1 4 (x ++ y) = x := by
  ext i h
  simp only [BitVec.getElem_extractLsb']
  simp only [BitVec.getLsbD_append]
  rw [if_neg (by omega), BitVec.getLsbD_eq_getElem (by omega)]
  congr 1; omega

@[simp] theorem piece_atom_1 (x : BitVec 4) (y : BitVec 1) : BitVec.extractLsb' 0 1 (x ++ y) = y := by
  ext i h
  simp only [BitVec.getElem_extractLsb']
  simp only [BitVec.getLsbD_append]
  rw [if_pos (by omega), BitVec.getLsbD_eq_getElem (by omega)]
  congr 1; omega

@[simp] theorem piece_lodsz_0 (x : BitVec 2) : BitVec.extractLsb' 3 2 (x ++ 0#3) = x := by
  ext i h
  simp only [BitVec.getElem_extractLsb']
  simp only [BitVec.getLsbD_append]
  rw [if_neg (by omega), BitVec.getLsbD_eq_getElem (by omega)]
  congr 1; omega

@[simp] theorem piece_lodsz_1 (x : BitVec 2) : BitVec.extractLsb' 0 3 (x ++ 0#3) = 0#3 := by
  ext i h
  simp only [BitVec.getElem_extractLsb']
  simp only [BitVec.getLsbD_append]
  rw [if_pos (by omega)]; simp

@[simp] theorem piece_sz0_0 (x : BitVec 3) : BitVec.extractLsb' 2 3 (x ++ 0#2) = x := by
  ext i h
  simp only [BitVec.getElem_extractLsb']
  simp only [BitVec.getLsbD_append]
  rw [if_neg (by omega), BitVec.getLsbD_eq_getElem (by omega)]
  congr 1; omega

@[simp] theorem piece_sz0_1 (x : BitVec 3) : BitVec.extractLsb' 0 2 (x ++ 0#2) = 0#2 := by
  ext i h
  simp only [BitVec.getElem_extractLsb']
  simp only [BitVec.getLsbD_append]
  rw [if_pos (by omega)]; simp

@[simp] theorem piece_pref_0 (x : BitVec 2) : BitVec.extractLsb' 2 3 (0#3 ++ x) = 0#3 := by
  ext i h
  simp only [BitVec.getElem_extractLsb']
  simp only [BitVec.getLsbD_append]
  rw [if_neg (by omega)]; simp

@[simp] theorem piece_pref_1 (x : BitVec 2) : BitVec.extractLsb' 0 2 (0#3 ++ x) = x := by
  ext i h
  simp only [BitVec.getElem_extractLsb']
  simp only [BitVec.getLsbD_append]
  rw [if_pos (by omega), BitVec.getLsbD_eq_getElem (by omega)]
  congr 1; omega

@[simp] theorem piece_trace_0 (x : BitVec 2) (y : BitVec 6) : BitVec.extractLsb' 6 2 (x ++ y) = x := by
  ext i h
  simp only [BitVec.getElem_extractLsb']
  simp only [BitVec.getLsbD_append]
  rw [if_neg (by omega), BitVec.getLsbD_eq_getElem (by omega)]
  congr 1; omega

@[simp] theorem piece_trace_1 (x : BitVec 2) (y : BitVec 6) : BitVec.extractLsb' 0 6 (x ++ y) = y := by
  ext i h
  simp only [BitVec.getElem_extractLsb']
  simp only [BitVec.getLsbD_append]
  rw [if_pos (by omega), BitVec.getLsbD_eq_getElem (by omega)]
  congr 1; omega

@[simp] theorem piece_nib_0 (x : BitVec 4) (y : BitVec 4) : BitVec.extractLsb' 4 4 (x ++ y) = x := by
  ext i h
  simp only [BitVec.getElem_extractLsb']
  simp only [BitVec.getLsbD_append]
  rw [if_neg (by omega), BitVec.getLsbD_eq_getElem (by omega)]
  congr 1; omega

@[simp] theorem piece_nib_1 (x : BitVec 4) (y : BitVec 4) : BitVec.extractLsb' 0 4 (x ++ y) = y := by
  ext i h
  simp only [BitVec.getElem_extractLsb']
  simp only [BitVec.getLsbD_append]
  rw [if_pos (by omega), BitVec.getLsbD_eq_getElem (by omega)]
  congr 1; omega

@[simp] theorem piece_visb_0 (x : BitVec 1) : BitVec.extractLsb' 1 7 (0#7 ++ x) = 0#7 := by
  ext i h
  simp only [BitVec.getElem_extractLsb']
  simp only [BitVec.getLsbD_append]
  rw [if_neg (by omega)]; simp

@[simp] theorem piece_visb_1 (x : BitVec 1) : BitVec.extractLsb' 0 1 (0#7 ++ x) = x := by
  ext i h
  simp only [BitVec.getElem_extractLsb']
  simp only [BitVec.getLsbD_append]
  rw [if_pos (by omega), BitVec.getLsbD_eq_getElem (by omega)]
  congr 1; omega

@[simp] theorem piece_header_0 (c : BitVec 8) (w : BitVec 12) (x : BitVec 4) (y : BitVec 4) (z : BitVec 4) : BitVec.extractLsb' 24 8 (c ++ w ++ x ++ y ++ z) = c := by
  ext i h
  simp only [BitVec.getElem_extractLsb']
  simp only [BitVec.getLsbD_append]
  rw [if_neg (by omega), if_neg (by omega), if_neg (by omega), if_neg (by omega), BitVec.getLsbD_eq_getElem (by omega)]
  congr 1; omega

@[simp] theorem piece_header_1 (c : BitVec 8) (w : BitVec 12) (x : BitVec 4) (y : BitVec 4) (z : BitVec 4) : BitVec.extractLsb' 12 12 (c ++ w ++ x ++ y ++ z) = w := by
  ext i h
  simp only [BitVec.getElem_extractLsb']
  simp only [BitVec.getLsbD_append]
  rw [if_neg (by omega), if_neg (by omega), if_neg (by omega), if_pos (by omega), BitVec.getLsbD_eq_getElem (by omega)]
  congr 1; omega

@[simp] theorem piece_header_2 (c : BitVec 8) (w : BitVec 12) (x : BitVec 4) (y : BitVec 4) (z : BitVec 4) : BitVec.extractLsb' 8 4 (c ++ w ++ x ++ y ++ z) = x := by
  ext i h
  simp only [BitVec.getElem_extractLsb']
  simp only [BitVec.getLsbD_append]
  rw [if_neg (by omega), if_neg (by omega), if_pos (by omega), BitVec.getLsbD_eq_getElem (by omega)]
  congr 1; omega

@[simp] theorem piece_header_3 (c : BitVec 8) (w : BitVec 12) (x : BitVec 4) (y : BitVec 4) (z : BitVec 4) : BitVec.extractLsb' 4 4 (c ++ w ++ x ++ y ++ z) = y := by
  ext i h
  simp only [BitVec.getElem_extractLsb']
  simp only [BitVec.getLsbD_append]
  rw [if_neg (by omega), if_pos (by omega), BitVec.getLsbD_eq_getElem (by omega)]
  congr 1; omega

@[simp] theorem piece_header_4 (c : BitVec 8) (w : BitVec 12) (x : BitVec 4) (y : BitVec 4) (z : BitVec 4) : BitVec.extractLsb' 0 4 (c ++ w ++ x ++ y ++ z) = z := by
  ext i h
  simp only [BitVec.getElem_extractLsb']
  simp only [BitVec.getLsbD_append]
  rw [if_pos (by omega), BitVec.getLsbD_eq_getElem (by omega)]
  congr 1; omega

@[simp] theorem piece_waita_0 (x : BitVec 1) (y : BitVec 4) : BitVec.extractLsb' 5 3 (0#3 ++ x ++ y) = 0#3 := by
  ext i h
  simp only [BitVec.getElem_extractLsb']
  simp only [BitVec.getLsbD_append]
  rw [if_neg (by omega), if_neg (by omega)]; simp

@[simp] theorem piece_waita_1 (x : BitVec 1) (y : BitVec 4) : BitVec.extractLsb' 4 1 (0#3 ++ x ++ y) = x := by
  ext i h
  simp only [BitVec.getElem_extractLsb']
  simp only [BitVec.getLsbD_append]
  rw [if_neg (by omega), if_pos (by omega), BitVec.getLsbD_eq_getElem (by omega)]
  congr 1; omega

@[simp] theorem piece_waita_2 (x : BitVec 1) (y : BitVec 4) : BitVec.extractLsb' 0 4 (0#3 ++ x ++ y) = y := by
  ext i h
  simp only [BitVec.getElem_extractLsb']
  simp only [BitVec.getLsbD_append]
  rw [if_pos (by omega), BitVec.getLsbD_eq_getElem (by omega)]
  congr 1; omega

@[simp] theorem piece_elect_all (x : BitVec 1) : BitVec.extractLsb' 0 4 (0#3 ++ x ++ 0#4) = 0#4 := by
  revert x; decide
@[simp] theorem piece_low3_hi (x : BitVec 3) : BitVec.extractLsb' 4 4 (0#5 ++ x) = 0#4 := by revert x; decide
@[simp] theorem piece_low3_bit (x : BitVec 3) : BitVec.extractLsb' 3 1 (0#5 ++ x) = 0#1 := by revert x; decide
@[simp] theorem piece_lnch_hi (x : BitVec 3) : BitVec.extractLsb' 4 4 (1#5 ++ x) = 0#4 := by revert x; decide
@[simp] theorem piece_lnch_bit (x : BitVec 3) : BitVec.extractLsb' 3 1 (1#5 ++ x) = 1#1 := by revert x; decide
@[simp] theorem piece_lnch_x (x : BitVec 3) : BitVec.extractLsb' 0 3 (1#5 ++ x) = x := by revert x; decide
@[simp] theorem vregEncode_hi (n : Fin 64) : BitVec.extractLsb' 6 2 (vregEncode n) = 0#2 := by revert n; decide
@[simp] theorem reg6_trace (x : BitVec 2) (n : Fin 64) : reg6 (x ++ BitVec.ofNat 6 n.val) = n := by revert x n; decide
theorem vxm_a (last : Bool) (n : Fin 64) : reg6 (BitVec.ofNat 8 ((if last then 64 else 0) + n.val)) = n ∧
    decide ((BitVec.ofNat 8 ((if last then 64 else 0) + n.val)).toNat < 128) = true ∧
    decide (64 ≤ (BitVec.ofNat 8 ((if last then 64 else 0) + n.val)).toNat) = last := by
  revert last n; decide

/-- The four bytes of a word make the word. -/
theorem wordOfBytes_pieces (x : Word) :
    wordOfBytes (x.extractLsb' 0 8) (x.extractLsb' 8 8) (x.extractLsb' 16 8) (x.extractLsb' 24 8) = x := by
  unfold wordOfBytes
  rw [BitVec.extractLsb'_append_extractLsb'_eq_extractLsb' (by omega),
    BitVec.extractLsb'_append_extractLsb'_eq_extractLsb' (by omega),
    BitVec.extractLsb'_append_extractLsb'_eq_extractLsb' (by omega)]
  simp

/-- The decoder reads a word's bytes as it reads the word. -/
theorem decodeTableWord_of_word (w : Word) (i : Instr) (h : decodeWord w = .ok i) :
    decodeTableWord 32 w.toNat = some i := by
  simp only [decodeTableWord, BitVec.ofNat_toNat, BitVec.setWidth_eq, decodeBytes, wordOfBytes_pieces, h, Except.map]

end Sys2Proof
end

