-- ==== Sys2Proof/Laws/Flight.lean ====
section
/-! SUPPORT. Words that fly: what issue does to the group, and that the checks of an access read nothing that issue
changes. -/
namespace Sys2Proof.Machine

/-- The names of an instruction in flight, one by one. -/
theorem Stage1.claims {c0 c : Issue} {um : Bool} (m : DWord) (l : List Dst) (ds : List Dst)
    (d : Stage1 c0 c ds m c0.held (fun _ => false) um 0 c0.pbits) :
    Stage1 c0 { c with g := (vRegs l).foldl Group.renameV c.g }
      (ds ++ l.filter (fun d => match d with
        | .v _ => true
        | .s _ => false)) m c0.held (fun _ => false) um 0 c0.pbits := by
  induction l generalizing c ds with
  | nil => simpa [vRegs] using d
  | cons x l ih =>
    cases x with
    | s n => simpa [vRegs] using ih ds d
    | v n =>
      have := ih (c := { c with g := c.g.renameV n.val }) (ds ++ [.v n])
        ⟨d.did.rename (fun _ _ => rfl) n, d.s, d.k, d.p⟩
      simpa [vRegs] using this

theorem vRegs_filter (l : List Dst) : vRegs (l.filter (fun d => match d with
    | .v _ => true
    | .s _ => false)) = vRegs l := by
  induction l with
  | nil => rfl
  | cons x l ih => cases x <;> simp [vRegs, ih]

/-- What issue does for an instruction that flies. -/
theorem Issue.fly_stage (c : Issue) (i : Instr) (m : DWord) (edit : Issue → Pend → Pend) :
    ∃ c1 : Issue, Stage1 c c1 (renamed i) m c.held (c.lastReads i (renamed i)) (c.readsUnmapped i) 0 c.pbits ∧
      (c.fly i m edit).1 = { c1 with
        s := { c1.s with fresh := c1.s.fresh + 1 }
        g := { c1.g with pend := c1.g.pend ++ [(c.fly i m edit).2] }
        p := c1.p.rise (c.fly i m edit).2.flag } := by
  have h1 := (Stage1.note m c.held (i.reads c.p.mode)).claims m i.returns []
  have h2 := h1.releaseReads (i.reads c.p.mode)
  refine ⟨_, h2.copy rfl (fun _ _ _ => rfl), ?_⟩
  have he : vRegs ([] ++ i.returns.filter (fun d => match d with
    | .v _ => true
    | .s _ => false)) = vRegs i.returns := by rw [List.nil_append, vRegs_filter]
  rw [he]
  rfl

/-! ### The checks of an access read nothing that issue changes -/

theorem State.tcopyLanes_regs (s : State) (g : Group) (sp : Space) (n : Nat) (l tk : List (Nat × Nat)) (v pp b0 b1 pend pv nr) :
    s.tcopyLanes { g with v := v, p := pp, bank0 := b0, bank1 := b1, pend := pend, poisonV := pv, nextReg := nr } sp n l tk =
      s.tcopyLanes g sp n l tk := by
  induction l generalizing tk with
  | nil => rfl
  | cons x l ih =>
    obtain ⟨a, b⟩ := x
    have e : s.scratchTarget { g with v := v, p := pp, bank0 := b0, bank1 := b1, pend := pend, poisonV := pv, nextReg := nr } sp b n =
      s.scratchTarget g sp b n := rfl
    simp only [State.tcopyLanes, e, ih]

theorem State.checkPend_regs (s : State) (g : Group) (p : Pend) (v pp b0 b1 pend pv nr) :
    s.checkPend { g with v := v, p := pp, bank0 := b0, bank1 := b1, pend := pend, poisonV := pv, nextReg := nr } p = s.checkPend g p := by
  generalize hG : ({ g with v := v, p := pp, bank0 := b0, bank1 := b1, pend := pend, poisonV := pv, nextReg := nr } : Group) = G
  have e0 : ∀ sp n l tk, s.tcopyLanes G sp n l tk = s.tcopyLanes g sp n l tk := by
    subst hG; exact fun sp n l tk => State.tcopyLanes_regs ..
  have e1 : s.contextOf G = s.contextOf g := by subst hG; rfl
  have e2 : ∀ lane, p.offset G lane = p.offset g lane := by subst hG; exact fun _ => rfl
  have e3 : ∀ dl j lane, p.op G dl j lane = p.op g dl j lane := by subst hG; exact fun _ _ _ => rfl
  have e4 : ∀ j, p.opc G j = p.opc g j := by subst hG; exact fun _ => rfl
  have e5 : ∀ sp r n off, s.scratchCheck G sp r n off = s.scratchCheck g sp r n off := by
    subst hG; exact fun _ _ _ _ => rfl
  have e6 : ∀ c x n al need r lane, s.globalLane G c p x n al need r lane = s.globalLane g c p x n al need r lane := by
    subst hG; exact fun _ _ _ _ _ _ _ => rfl
  have e7 : ∀ l, laneAccesses G p l = laneAccesses g p l := by subst hG; exact fun _ => rfl
  have e8 : G.core = g.core := by subst hG; rfl
  have e9 : G.team = g.team := by subst hG; rfl
  have e10 : ∀ t, s.notePoison G t = s.notePoison g t := by subst hG; exact fun _ => rfl
  unfold State.checkPend
  simp only [e0, e1, e2, e3, e4, e5, e6, e7, e8, e9, e10]

/-- Two groups alike but for their registers and what is in flight have the same checks. -/
theorem State.checkPend_congr {g G : Group} (h : ∀ b, G.frame b = g.frame b) (s : State) (l : List Pend) (p : Pend) :
    s.checkPend { G with pend := l } p = s.checkPend g p := by
  have e : ({ G with pend := l } : Group) =
      { g with
        v := G.v, p := G.p, bank0 := G.bank0, bank1 := G.bank1, pend := l, poisonV := G.poisonV, nextReg := G.nextReg } := by
    have := h g.bank0
    unfold Group.frame at this
    cases G; cases g
    simp only [Group.mk.injEq] at this ⊢
    simp only [this, and_self]
  rw [e, State.checkPend_regs]

theorem State.markLeaf_groups (s : State) (a : Nat) (d : Bool) : (s.markLeaf a d).groups = s.groups := by
  unfold State.markLeaf
  simp only
  repeat' split
  all_goals rfl

theorem State.installTlb_groups (s : State) (a b c d : Nat) : (s.installTlb a b c d).groups = s.groups := by
  unfold State.installTlb
  repeat' split
  all_goals rfl

theorem State.markLeaves_groups (s : State) (core ctx : Nat) (w : Bool) (l : List (Nat × Nat)) :
    (s.markLeaves core ctx w l).groups = s.groups := by
  unfold State.markLeaves
  induction l generalizing s with
  | nil => rfl
  | cons e l ih =>
    rw [List.foldl_cons, ih, State.installTlb_groups, State.markLeaf_groups]

theorem State.markCheck_groups (s : State) (core ctx : Nat) (w : Bool) (r : LaneCheck) :
    (s.markCheck core ctx w r).groups = s.groups := by
  unfold State.markCheck
  repeat' split
  all_goals first
    | rfl
    | exact State.markLeaves_groups ..

theorem State.markLanes_groups (s : State) (core ctx : Nat) (w : Bool) (l : List (Nat × LaneCheck)) :
    (s.markLanes core ctx w l).groups = s.groups := by
  unfold State.markLanes
  induction l generalizing s with
  | nil => rfl
  | cons e l ih => rw [List.foldl_cons, ih, State.markCheck_groups]

theorem State.notePoison_groups (s : State) (g : Group) (t : Trap) : (s.notePoison g t).groups = s.groups := by
  unfold State.notePoison; split <;> rfl

/-- The checks leave an instruction's place, mask, flag and operands, and the groups of the machine. -/
theorem State.checkPend_keeps (s : State) (g : Group) (p : Pend) :
    (s.checkPend g p).2.groups = s.groups ∧ (s.checkPend g p).1.lmask = p.lmask ∧ (s.checkPend g p).1.flag = p.flag := by
  unfold State.checkPend
  simp only
  repeat' split
  all_goals (refine ⟨?_, rfl, rfl⟩; first
    | rfl
    | exact State.markLanes_groups ..
    | exact State.notePoison_groups ..)

/-! ### A word whose path may be parked -/

/-- A group written back after a word, whose path is not at JOIN: as `Issue.commit_moves`, whether or not the path is
parked. -/
theorem Issue.commit_moves_parked {c : Issue} {G : Group} {ended : Bool} {k : Nat} {p : Path} (hk : G.slot k = some p)
    (hp : p.atJoin = none) (hs : (c.s.group? G.id).isSome) (hO : G.owed = []) :
    Moves c.s k G (c.commit G ended) := by
  have hk' : (G.counted c.s.issues).slot k = some p := by unfold Group.counted Group.slot at *; exact hk
  have hown := Group.joins_own 80 hk' hp
  have hid := Group.id_of_own hown
  have hslot : ((G.counted c.s.issues).joins 80).slot k = some p := by rw [Group.slot_of_own hown, hk']
  have howed : ((G.counted c.s.issues).joins 80).owed = [] := by
    have : (((G.counted c.s.issues).joins 80).own k).owed = ((G.counted c.s.issues).own k).owed := by rw [hown]
    have e : (G.counted c.s.issues).owed = [] := hO
    unfold Group.own Group.setSlot at this
    split at this <;> simpa [e] using this
  let s1 : State := { c.s with issues := c.s.issues + 1 }
  let H := (G.counted c.s.issues).joins 80
  have hfind : (s1.setGroup H).group? G.id = some H := by
    have := State.group?_setGroup_self (s := s1) (g := H) (by rw [hid]; exact hs)
    rwa [hid] at this
  have hother : ∀ n, n ≠ G.id → (s1.setGroup H).group? n = c.s.group? n := fun n hn =>
    State.group?_setGroup_other (by rw [hid]; exact hn)
  have hreap : ∀ u : State, u.group? H.id = some H → u.reap H.id = u := by
    intro u hu
    unfold State.reap
    rw [hu]
    simp [H, Group.not_ended_of_slot hslot]
  have hHid : H.id = G.id := hid
  have key : ∃ u, s1.settle (G.counted c.s.issues) = u ∧ u = { s1 with groups := u.groups } ∧ u.group? G.id = some H ∧
      ∀ n, n ≠ G.id → (u.group? n).map Group.plain = (c.s.group? n).map Group.plain := by
    unfold State.settle
    simp only
    split
    · have hl : ((s1.setGroup H).leaveOwed H.id).group? G.id = some H := by
        rw [State.group?_leaveOwed, hfind]
        have : ({ H with owed := H.owed.filter (fun e => decide (e.1 ≠ H.id)) } : Group) = H := by
          have e : H.owed = [] := howed
          rw [e]; show ({ H with owed := [] } : Group) = H; rw [← e]
        simp only [Option.map_some, this]
      have hl' := hl
      rw [hHid] at hl'
      refine ⟨_, hreap _ (by rw [hHid]; exact hl'), rfl, hl, fun n hn => ?_⟩
      rw [State.group?_leaveOwed, hother n hn]
      cases c.s.group? n <;> rfl
    · exact ⟨_, hreap _ (by rw [hHid]; exact hfind), rfl, hfind, fun n hn => by rw [hother n hn]⟩
  obtain ⟨u, h1, h2, h3, h4⟩ := key
  have hc : c.commit G ended = if ended then u.clauseIssued G.id c.k else u := by rw [← h1]; rfl
  rw [hc]
  cases ended with
  | false => exact ⟨by simpa using h2, ⟨H, by simpa using h3, hown⟩, by simpa using h4⟩
  | true =>
    simp only [if_true]
    refine ⟨?_, ⟨{ H with owed := [] }, ?_, ?_⟩, ?_⟩
    · show { u with groups := _ } = _
      rw [h2]; rfl
    · rw [State.group?_clauseIssued, h3]
      have e : H.owed = [] := howed
      simp [e]
    · have e : H.owed = [] := howed
      have : ({ H with owed := [] } : Group) = H := by rw [← e]
      rw [this]; exact hown
    · intro n hn
      rw [State.group?_clauseIssued]
      have := h4 n hn
      rw [← this]
      cases u.group? n <;> rfl

/-- A word that flies, from its effect: `q` is the instruction in flight, `s'` the machine but for the groups. -/
theorem Issuing.flies {i : Instr} {s : State} {c : Issue} {cl : ClauseState} {body : Issue → Eff} {m : DWord} {park : Park}
    {edit : Issue → Pend → Pend} {q : Pend} {s' : State} (h : Issuing i s c cl) (he : exec i s = issue i body s)
    (hb : body c = .done { (c.fly i m edit).1 with
      s := s', g := (c.fly i m edit).1.g.setLast q, p := { (c.fly i m edit).1.p with park := park } })
    (hm : q.lmask = m) (hf : q.flag = (c.fly i m edit).2.flag) (hg : s'.groups = s.groups)
    (hp : ∀ n, park ≠ .join n) : c.Flies i s q s' park := by
  obtain ⟨c1, d, h1⟩ := c.fly_stage i m edit
  have hlast : (c.fly i m edit).1.g.setLast q = { c1.g with pend := c1.g.pend ++ [q] } := by
    rw [h1]; simp [Group.setLast]
  obtain ⟨e1, -, e3, e4, e5, -⟩ := State.issue?_spec h.path
  have hk : (c.fly i m edit).1.k = c.k := by rw [h1]; exact d.k
  have hpp : (c.fly i m edit).1.p = c.p.rise q.flag := by rw [h1, hf]; show c1.p.rise _ = _; rw [d.p]
  refine ⟨_, c1.g.setSlot c1.k (some c1.p.advance), by rw [he, issue_of_issuing h], ?_, hm ▸ d.wrote⟩
  rw [hb, hlast, hpp]
  unfold Eff.apply
  simp only [hk]
  have hG : ({ c1.g.setSlot c1.k (some c1.p.advance) with pend := (c1.g.setSlot c1.k (some c1.p.advance)).pend ++ [q] } :
      Group).setSlot c.k (some { (c.p.rise q.flag).advance with park := park }) =
    ({ c1.g with pend := c1.g.pend ++ [q] } : Group).setSlot c.k
      (some ({ c.p.rise q.flag with park := park } : Path).advance) := by
    rw [d.k]
    unfold Group.setSlot Path.advance
    split <;> rfl
  rw [hG]
  refine Issue.commit_moves_parked
    (c := { s := s', g := { c1.g with pend := c1.g.pend ++ [q] }, k := c.k, p := { c.p.rise q.flag with park := park } })
    (G := ({ c1.g with pend := c1.g.pend ++ [q] } : Group).setSlot c.k
      (some ({ c.p.rise q.flag with park := park } : Path).advance))
    (p := ({ c.p.rise q.flag with park := park } : Path).advance) (k := c.k) (Group.slot_setSlot_self ..) ?_ ?_ ?_
  · clear hb hG
    cases hpk : park with
    | join n => exact absurd hpk (hp n)
    | _ => rfl
  · rw [Group.setSlot_id]
    show (s'.group? c1.g.id).isSome = true
    rw [d.id]
    unfold State.group? at e3 ⊢
    rw [hg, e3]; rfl
  · rw [Group.setSlot_owed]
    show c1.g.owed = []
    rw [d.owed, h.owed]

theorem captureCap_keeps (i : Instr) (c : Issue) (p : Pend) :
    (captureCap i c p).lmask = p.lmask ∧ (captureCap i c p).flag = p.flag ∧ (captureCap i c p).id = p.id := by
  unfold captureCap
  simp only
  repeat' split
  all_goals exact ⟨rfl, rfl, rfl⟩

theorem Issue.flown_lmask (c : Issue) (i : Instr) (m : DWord) : (c.flown i m).lmask = m :=
  (captureCap_keeps i c _).1

/-- A word whose access is checked at issue (R176). -/
theorem Issuing.fliesChecked {i : Instr} {s : State} {c : Issue} {cl : ClauseState} (h : Issuing i s c cl)
    (he : exec i s = flyChecked i s) (hm : c.emask ≠ 0) :
    c.Flies i s (s.numbered.checkPend c.g (c.flown i c.emask)).1 (s.numbered.checkPend c.g (c.flown i c.emask)).2 .running := by
  obtain ⟨c1, d, h1⟩ := c.fly_stage i c.emask (captureCap i)
  obtain ⟨e1, -, -, -, e5, -⟩ := State.issue?_spec h.path
  have hs : (c.fly i c.emask (captureCap i)).1.s = s.numbered := by
    rw [h1]; show { c1.s with fresh := c1.s.fresh + 1 } = _; rw [d.s, e1]; rfl
  have hc : ∀ p, s.numbered.checkPend (c.fly i c.emask (captureCap i)).1.g p = s.numbered.checkPend c.g p := by
    intro p; rw [h1]; exact State.checkPend_congr d.did.frame ..
  have hk := State.checkPend_keeps s.numbered c.g (c.flown i c.emask)
  refine h.flies he (edit := captureCap i) (m := c.emask) ?_ ?_ ?_ ?_ (by simp)
  · simp only [if_neg hm]
    simp only [hs, hc]
    have : (c.fly i c.emask (captureCap i)).1.p.park = .running := by
      rw [h1]; show (c1.p.rise _).park = _
      rw [d.p]; unfold Path.rise; split <;> exact e5
    rw [← this]; rfl
  · rw [hk.2.1, Issue.flown_lmask]
  · rw [hk.2.2]; rfl
  · rw [hk.1]; rfl

/-- A word whose effective mask is empty accesses nothing and completes at once (R34). -/
theorem Issuing.idles {i : Instr} {s : State} {c : Issue} {cl : ClauseState} {body : Issue → Eff} (h : Issuing i s c cl)
    (he : exec i s = issue i body s) (hb : body c = c.idle i) : c.Gives i s [] c.emask (fun _ _ => 0) 0 c.pbits := by
  obtain ⟨c', h1, d⟩ := c.idle_stage i c.emask (fun _ _ => (0 : Word))
  exact h.gives he (hb.trans h1) d

end Sys2Proof.Machine
end

