-- ==== Sys2Proof/Laws/Landed.lean ====
section
/-! SUPPORT. What a group keeps when it is written back after an event: JOIN tests and EXITs move its paths and spilled sets and
their owners, and nothing else of it. -/
namespace Sys2Proof.Machine

/-- A group without its paths, its spilled sets and who owns what; with the names of what is in flight. -/
def Group.kept (g : Group) : Group × List Nat :=
  ({ g with
      slot0 := none, slot1 := none, demote := none, pend := []
      bank0 := { g.bank0 with spill := [] }, bank1 := { g.bank1 with spill := [] } }, g.pend.map Pend.id)

@[simp] theorem Group.kept_setSlot (g : Group) (k : Nat) (p : Option Path) : (g.setSlot k p).kept = g.kept := by
  unfold Group.setSlot; split <;> rfl

theorem Group.kept_setBank (g : Group) (h : Nat) (l : List SpillEntry) :
    (g.setBank h { g.bank h with spill := l }).kept = g.kept := by
  unfold Group.setBank Group.bank; split <;> rfl

@[simp] theorem Group.kept_pop (g : Group) (h : Nat) : (g.pop h).kept = g.kept := g.kept_setBank h _

@[simp] theorem Group.kept_push (g : Group) (h : Nat) (e : SpillEntry) : (g.push h e).kept = g.kept := g.kept_setBank h _

/-- Owners changed: the same names are in flight. -/
theorem Group.kept_pend (g : Group) (f : Pend → Pend) (hf : ∀ p, (f p).id = p.id) : ({ g with pend := g.pend.map f } : Group).kept = g.kept := by
  simp [Group.kept, Function.comp_def, hf]

@[simp] theorem Group.kept_adopt (g : Group) (k : Nat) (ids : List Nat) : (g.adopt k ids).kept = g.kept := by
  unfold Group.adopt
  split
  · rfl
  · exact g.kept_pend _ (fun p => by split <;> (try split) <;> rfl)

@[simp] theorem Group.kept_disown (g : Group) (k : Nat) : (g.disown k).kept = g.kept :=
  g.kept_pend _ (fun p => by split <;> rfl)

@[simp] theorem Group.kept_startSet (g : Group) (k : Nat) (e : PathSet) : (g.startSet k e).kept = g.kept := by
  simp [Group.startSet]

theorem Group.kept_joinPaths (g : Group) (p q : Path) (a b : Nat) : (g.joinPaths p q a b).kept = g.kept :=
  g.kept_pend _ (fun _ => rfl)

/-- A row of Table 7.1 moves paths and sets alone. -/
theorem Group.kept_joinRow {g h : Group} {k : Nat} {p : Path} {since : Nat} (e : g.joinRow k p since = some h) : h.kept = g.kept := by
  have swap : ∀ {pj x}, g.joinSwap k p pj x = some h → h.kept = g.kept := by
    intro pj x e
    unfold Group.joinSwap at e
    split at e
    · simp only [Option.some.injEq] at e
      subst e
      simp
    · exact absurd e (by simp)
  have set : ∀ x, (g.joinSet k p x).kept = g.kept := fun x => by simp [Group.joinSet]
  have two : ∀ {q : Path}, q.atJoin.map (g.joinPaths p q since) = some h → h.kept = g.kept := by
    intro q e
    rw [Option.map_eq_some_iff] at e
    obtain ⟨qs, -, rfl⟩ := e
    exact g.kept_joinPaths p q since qs
  unfold Group.joinRow at e
  split at e
  · exact absurd e (by simp)
  · split at e
    · split at e
      · simp only [Option.some.injEq] at e; subst e; exact set _
      · split at e
        · exact two e
        · exact swap e
    · split at e
      · simp only [Option.some.injEq] at e; subst e; exact set _
      · split at e
        · exact swap e
        · simp only [Option.some.injEq] at e; subst e; simp
    · split at e
      · exact two e
      · exact absurd e (by simp)
    · simp only [Option.some.injEq] at e
      subst e
      unfold Group.joinDone
      simp only
      split <;> simp

theorem Group.kept_tryJoin {g h : Group} {k : Nat} (e : g.tryJoin k = some h) : h.kept = g.kept := by
  unfold Group.tryJoin at e
  split at e
  · exact absurd e (by simp)
  · split at e
    · exact absurd e (by simp)
    · exact Group.kept_joinRow e

theorem Group.kept_joins (n : Nat) : ∀ g : Group, (g.joins n).kept = g.kept := by
  induction n with
  | zero => intro g; rfl
  | succ n ih =>
    intro g
    unfold Group.joins
    split
    · rename_i h e; rw [ih, Group.kept_tryJoin e]
    · split
      · rename_i h e; rw [ih, Group.kept_tryJoin e]
      · rfl

theorem Group.kept_refill (k : Nat) : ∀ (l : List SpillEntry) (g : Group), (g.refill k l).kept = g.kept
  | [], g => g.kept_setBank _ _
  | .savedJoin _ :: l, g => by rw [Group.refill]; exact Group.kept_refill k l g
  | .pathSet e :: l, g => by rw [Group.refill]; simp [g.kept_setBank]

/-- An EXIT discards returns of the lanes that leave, and moves paths and sets. -/
theorem Group.kept_exitPath (g : Group) (k : Nat) (m : DWord) : (g.exitPath k m).kept = g.kept := by
  have refills : ∀ (h : Group) (b : Bool), (if b then h.refill k (h.bank (h.half k)).spill else h).kept = h.kept := by
    intro h b
    split
    · exact Group.kept_refill k _ h
    · rfl
  refine (refills _ _).trans ?_
  rw [Group.kept_setSlot]
  exact g.kept_pend _ (fun p => by split <;> rfl)

theorem Group.kept_exits (g : Group) : g.exits.kept = g.kept := by
  have e : ∀ (g : Group) (k : Nat), (if g.mayLeave k then (match g.slot k with
      | some p => g.exitPath k p.mask
      | none => g) else g).kept = g.kept := by
    intro g k
    split
    · split
      · exact g.kept_exitPath _ _
      · rfl
    · rfl
  exact (e _ 1).trans (e g 0)

/-- Lists of what a group waits for do not name what is in flight. -/
theorem Group.kept_owed {g h : Group} (e : g.kept = h.kept) (l : List (Nat × Bool × Bool)) :
    ({ g with owed := l } : Group).kept = ({ h with owed := l } : Group).kept := by
  have := congrArg (fun x : Group × List Nat => (({ x.1 with owed := l } : Group), x.2)) e
  exact this

theorem State.group?_dropSheaves_none {s : State} {n : Nat} (e : s.group? n = none) : s.dropSheaves.group? n = none := by
  unfold State.dropSheaves
  simp only
  split
  · exact e
  · rw [State.group?, List.find?_eq_none] at *
    intro g hg
    rw [List.mem_map] at hg
    obtain ⟨h, hh, rfl⟩ := hg
    exact e h hh

theorem State.closeTeam_groups (s : State) (n : Nat) : (s.closeTeam n).groups = s.groups := by
  unfold State.closeTeam
  split
  · rfl
  · simp only
    split
    · rfl
    · split <;> rfl

theorem State.group?_closeGrid_none {s : State} {n m : Nat} (e : s.group? n = none) : (s.closeGrid m).group? n = none := by
  unfold State.closeGrid
  split
  · exact e
  · split
    · exact State.group?_dropSheaves_none e
    · exact e

/-- A group that reaping leaves has not changed. -/
theorem State.group?_reap {s : State} {n m : Nat} {h : Group} (e : (s.reap m).group? n = some h) (hn : n = m) : s.group? n = some h := by
  subst hn
  unfold State.reap at e
  split at e
  · exact e
  · rename_i g hg
    simp only at e
    split at e
    · exact e
    · exfalso
      have none_ : ∀ s' : State, s'.group? n = none → ((s'.dropSheaves.closeTeam g.team).closeGrid g.grid).group? n = none := by
        intro s' hs
        apply State.group?_closeGrid_none
        unfold State.group?
        rw [State.closeTeam_groups]
        exact State.group?_dropSheaves_none hs
      rw [none_] at e
      · exact absurd e (by simp)
      · unfold State.group?
        simp only
        rw [List.find?_eq_none]
        intro x hx
        rw [List.mem_map] at hx
        obtain ⟨y, hy, rfl⟩ := hx
        rw [List.mem_filter] at hy
        simpa using hy.2

/-- A group written back after an event is still all that it keeps, or has ended. -/
theorem State.landed_kept {s : State} {g h : Group} (hg : (s.group? g.id).isSome) (e : (s.landed g).group? g.id = some h) :
    ({ h with owed := [] } : Group).kept = ({ g with owed := [] } : Group).kept := by
  have hk : (g.exits.joins 80).kept = g.kept := (Group.kept_joins 80 g.exits).trans g.kept_exits
  have hid : (g.exits.joins 80).id = g.id := congrArg (fun x : Group × List Nat => x.1.id) hk
  unfold State.landed State.settle at e
  simp only [hid] at e
  have e := State.group?_reap e rfl
  have hs : (s.setGroup (g.exits.joins 80)).group? g.id = some (g.exits.joins 80) := by
    rw [← hid] at hg ⊢
    exact State.group?_setGroup_self hg
  split at e
  · rw [State.group?_leaveOwed, hs] at e
    simp only [Option.map_some, Option.some.injEq] at e
    subst e
    exact Group.kept_owed hk []
  · rw [hs] at e
    simp only [Option.some.injEq] at e
    subst e
    exact Group.kept_owed hk []

@[simp] theorem Group.kept_mapSlot (g : Group) (k : Nat) (f : Path → Path) : (g.mapSlot k f).kept = g.kept :=
  g.kept_setSlot k _

@[simp] theorem Group.kept_wake (g : Group) (id : Nat) : (g.wake id).kept = g.kept := by
  simp [Group.wake]

/-- A completed instruction is no longer in flight; nothing else that the group keeps changes. -/
theorem Group.kept_complete (g : Group) (id : Nat) :
    (g.complete id).kept = (g.kept.1, (g.pend.filter (fun q => q.id ≠ id)).map Pend.id) := by
  unfold Group.complete
  split
  · rename_i h
    rw [List.find?_eq_none] at h
    have : g.pend.filter (fun q => decide (q.id ≠ id)) = g.pend :=
      List.filter_eq_self.mpr (fun q hq => by simpa using h q hq)
    rw [this]
    rfl
  · simp only
    split <;> split <;> (try simp only [Group.kept_mapSlot]) <;> rfl

/-- What is left of a group once an instruction of it has completed, or nothing. -/
theorem State.landed_complete {s : State} {g h : Group} {id : Nat} (hg : (s.group? g.id).isSome)
    (e : (s.landed ((g.wake id).complete id)).group? g.id = some h) :
    h.pend? id = none ∧ ({ h with owed := [] } : Group).kept.1 = ({ g with owed := [] } : Group).kept.1 := by
  have hk : ((g.wake id).complete id).kept = (g.kept.1, ((g.wake id).pend.filter (fun q => q.id ≠ id)).map Pend.id) := by
    rw [Group.kept_complete, Group.kept_wake]
  have hid : ((g.wake id).complete id).id = g.id := congrArg (fun x : Group × List Nat => x.1.id) hk
  rw [← hid] at e hg
  have k := State.landed_kept hg e
  constructor
  · have k2 : h.pend.map Pend.id = ((g.wake id).pend.filter (fun q => q.id ≠ id)).map Pend.id :=
      (congrArg (fun x : Group × List Nat => x.2) k).trans (congrArg (fun x : Group × List Nat => x.2) hk)
    unfold Group.pend?
    rw [List.find?_eq_none]
    intro q hq hq'
    have hm : q.id ∈ h.pend.map Pend.id := List.mem_map_of_mem hq
    rw [k2, List.mem_map] at hm
    obtain ⟨r, hr, hrq⟩ := hm
    rw [List.mem_filter] at hr
    have := hr.2
    simp only [decide_eq_true_eq] at hq' this
    exact this (hrq.trans hq')
  · have k1 : ({ h with owed := [] } : Group).kept.1 = ({ ((g.wake id).complete id) with owed := [] } : Group).kept.1 :=
      congrArg Prod.fst k
    rw [k1]
    exact congrArg (fun x : Group × List Nat => ({ x.1 with owed := [] } : Group)) hk

/-! ### The rest of the machine -/

/-- A machine without its groups and what ends with them. -/
def State.outside (s : State) : State :=
  { s with groups := [], grids := [], teams := [], sheaves := [], clusters := [], cur := none }

theorem State.outside_dropSheaves (s : State) : s.dropSheaves.outside = s.outside := by
  unfold State.dropSheaves
  simp only
  split <;> rfl

theorem State.outside_closeTeam (s : State) (n : Nat) : (s.closeTeam n).outside = s.outside := by
  unfold State.closeTeam
  split
  · rfl
  · simp only
    split
    · rfl
    · split <;> rfl

theorem State.outside_closeGrid (s : State) (n : Nat) : (s.closeGrid n).outside = s.outside := by
  unfold State.closeGrid
  split
  · rfl
  · split
    · exact State.outside_dropSheaves _
    · rfl

theorem State.outside_reap (s : State) (n : Nat) : (s.reap n).outside = s.outside := by
  unfold State.reap
  split
  · rfl
  · simp only
    split
    · rfl
    · rw [State.outside_closeGrid, State.outside_closeTeam, State.outside_dropSheaves]
      rfl

/-- A group written back after an event changes groups, and what ends with them, alone. -/
theorem State.outside_landed (s : State) (g : Group) : (s.landed g).outside = s.outside := by
  unfold State.landed State.settle
  simp only
  rw [State.outside_reap]
  split <;> rfl

theorem State.mem_landed (s : State) (g : Group) : (s.landed g).mem = s.mem :=
  (show (s.landed g).outside.mem = s.outside.mem by rw [s.outside_landed g])

theorem State.tags_landed (s : State) (g : Group) : (s.landed g).tags = s.tags :=
  (show (s.landed g).outside.tags = s.outside.tags by rw [s.outside_landed g])

/-- A group at rest that holds a path is written back as it is. -/
theorem State.landed_rest {s : State} {g : Group} {k : Nat} {p : Path} (hg : (s.group? g.id).isSome) (hr : g.atRest = true)
    (hp : g.slot k = some p) : s.landed g = s.setGroup g ∨ s.landed g = (s.setGroup g).leaveOwed g.id := by
  have paths : ∀ (j : Nat) (q : Path), g.slot j = some q → q.atJoin = none ∧ q.park ≠ .exit := by
    intro j q hq
    have : q ∈ g.slot0.toList ++ g.slot1.toList := by
      unfold Group.slot at hq
      split at hq <;> simp [hq]
    have := List.all_eq_true.mp hr q this
    simpa using this
  have he : g.exits = g := by
    have one : ∀ j, g.mayLeave j = false := by
      intro j
      unfold Group.mayLeave
      split
      · rfl
      · rename_i q hq; simp [(paths j q hq).2]
    simp [Group.exits, one]
  have hn : g.noJoin = true := by
    unfold Group.noJoin
    unfold Group.atRest at hr
    rw [List.all_eq_true] at *
    intro q hq
    have := hr q hq
    simp_all
  have hend : g.ended = false := Group.not_ended_of_slot hp
  have hs := State.group?_setGroup_self hg
  unfold State.landed State.settle
  rw [he, Group.joins_none hn]
  simp only
  split
  · right
    unfold State.reap
    rw [State.group?_leaveOwed, hs]
    simp only [Option.map_some]
    exact if_pos (by rw [Bool.not_eq_true']; exact hend)
  · left
    unfold State.reap
    rw [hs]
    simp [hend]

end Sys2Proof.Machine
end

