-- ==== Sys2Proof/Laws/Order.lean ====
section
/-! SUPPORT. Local order (R216): where no load needs to be sent ahead, nothing is; what sending changes; and groups without a
load that was sent are saved as they are. -/
namespace Sys2Proof.Machine

theorem readsV_of_isLoad {i : Instr} (h : isLoad i = true) : readsV i = true := by
  cases i <;> simp_all [isLoad, readsV]

theorem writesV_of_isLoad {i : Instr} (h : isLoad i = true) : writesV i = false := by
  cases i <;> simp_all [isLoad, writesV]

/-- An access that may be performed finds no load of its path to send. -/
theorem sendLoads_of_mayPerform {s : State} {g : Group} {p : Pend} (h : g.mayPerform p = true) : s.sendLoads g p = g := by
  simp only [Group.mayPerform, Bool.and_eq_true, List.all_eq_true] at h
  have key : ∀ (l : List Pend) (a : Group), (∀ q ∈ l, q ∈ g.before p) →
      l.foldl (fun h q => if sharePath p q && s.canSend h p q then h.setPend { q with stage := .atCore } else h) a = a := by
    intro l
    induction l with
    | nil => intro a _; rfl
    | cons q l ih =>
      intro a hm
      have hq := h.2 q (hm q (by simp))
      have : (sharePath p q && s.canSend a p q) = false := by
        cases hs : sharePath p q
        · rfl
        · cases hc : s.canSend a p q
          · rfl
          · simp only [State.canSend, Bool.and_eq_true, decide_eq_true_eq] at hc
            have hr := readsV_of_isLoad hc.1.1.1.1.1.1.1.1
            have hd : q.readDone = false := by simpa using hc.1.1.1.1.1.1.2
            have hst := hc.1.1.1.1.1.2
            have hf : q.isFaulted = false := by
              have := hc.1.1.1.1.1.1.1.2
              unfold Pend.isFaulted; unfold Pend.active at this
              cases hq' : q.status <;> simp_all
            simp [Pend.holdsBack, hr, hs, hst, hd, hf] at hq
      rw [List.foldl_cons, this]
      exact ih a (fun x hx => hm x (by simp [hx]))
  exact key _ g (fun _ hq => hq)

/-- Sending changes the instructions in flight of the group only. -/
theorem sendLoads_eq (s : State) (g : Group) (p : Pend) : s.sendLoads g p = { g with pend := (s.sendLoads g p).pend } := by
  have key : ∀ (l : List Pend) (a : Group), a = { g with pend := a.pend } →
      (l.foldl (fun h q => if sharePath p q && s.canSend h p q then h.setPend { q with stage := .atCore } else h) a) =
        { g with pend := (l.foldl (fun h q => if sharePath p q && s.canSend h p q then h.setPend { q with stage := .atCore }
          else h) a).pend } := by
    intro l
    induction l with
    | nil => intro a ha; exact ha
    | cons q l ih =>
      intro a ha
      rw [List.foldl_cons]
      apply ih
      split
      · rw [ha]; rfl
      · exact ha
  exact key _ g rfl

/-- What stands at a place of a list is one of its members, or the default. -/
theorem nth_mem_or {α : Type} (l : List α) (n : Nat) (d : α) : nth l n d = d ∨ nth l n d ∈ l := by
  induction l generalizing n with
  | nil => cases n <;> exact .inl rfl
  | cons x l ih =>
    cases n with
    | zero => exact .inr (by simp [nth])
    | succ n =>
      rcases ih n with h | h
      · exact .inl (by simpa [nth] using h)
      · exact .inr (by simpa [nth] using .inr h)

theorem quiet_pend {s : State} (h : s.quiet = true) {g : Group} (hg : g ∈ s.groups) {p : Pend} (hp : p ∈ g.pend) :
    p.isSent = false ∧ p.due = [] ∧ p.tex = [] := by
  simp only [State.quiet, Bool.and_eq_true, List.all_eq_true, Bool.not_eq_true', List.isEmpty_iff] at h
  have := h.1 g hg p hp
  exact ⟨this.1.1, this.1.2, this.2⟩

theorem quiet_buffer {s : State} (h : s.quiet = true) (core : Nat) : (s.coreAt core).buffer = [] := by
  simp only [State.quiet, Bool.and_eq_true, List.all_eq_true, List.isEmpty_iff] at h
  unfold State.coreAt
  rcases nth_mem_or s.cores core {} with e | e
  · rw [e]
  · exact h.2 _ e

/-- What is on its way to a core's coherence points is performed: nothing, where nothing is. -/
theorem flushCore_of_quiet {s : State} (h : s.quiet = true) (core : Nat) : s.flushCore core = s := by
  unfold State.flushCore
  rw [quiet_buffer h]; rfl

/-- Nothing to return and nothing to deliver before a group is saved. -/
theorem land_of_quiet {s : State} (h : s.quiet = true) (gid : Nat) : s.land gid = s := by
  unfold State.land
  split
  · rfl
  · rename_i g hg
    have hm : g ∈ s.groups := List.mem_of_find?_eq_some hg
    have hgroups : s.groups.map (fun h => if h.id = gid then
        { h with pend := h.pend.map (fun p => { p with tex := [] }) } else h) = s.groups := by
      conv_rhs => rw [← List.map_id s.groups]
      apply List.map_congr_left
      intro x hx
      split
      · have : x.pend.map (fun p => ({ p with tex := [] } : Pend)) = x.pend := by
          conv_rhs => rw [← List.map_id x.pend]
          apply List.map_congr_left
          intro p hp
          rw [← (quiet_pend h hx hp).2.2]; rfl
        rw [this]; rfl
      · rfl
    have hs : ({ s with groups := s.groups.map (fun h => if h.id = gid then
        { h with pend := h.pend.map (fun p => { p with tex := [] }) } else h) } : State) = s := by rw [hgroups]
    simp only [hs]
    rw [List.filter_eq_nil_iff.mpr (fun q hq => by simp [(quiet_pend h hm hq).1])]
    have hdue : ∀ l : List Nat, l.foldl (State.landDue gid) s = s := by
      intro l
      induction l with
      | nil => rfl
      | cons id l ih =>
        have : State.landDue gid s id = s := by
          unfold State.landDue
          rw [hg]
          simp only
          split
          · rfl
          · rename_i p hp
            have := (quiet_pend h hm (List.mem_of_find?_eq_some hp)).2.1
            simp [this]
        rw [List.foldl_cons, this, ih]
    exact hdue _

/-- Saving a group then only moves it. -/
theorem saveGroup_of_quiet {s : State} (h : s.quiet = true) (gid : Nat) (res : Residency) (n : Nat) :
    s.saveGroup gid res n = { s with groups := s.groups.map (fun g =>
      if g.id = gid then { g with res := res, awayUntil := n, hungry := false } else g) } := by
  unfold State.saveGroup
  simp only [land_of_quiet h]
  cases s.group? gid with
  | none => rfl
  | some g => simp only [flushCore_of_quiet h]

/-- The groups of a team return nothing before it is saved. -/
theorem land_all_of_quiet {s : State} (h : s.quiet = true) (l : List Nat) : l.foldl State.land s = s := by
  induction l with
  | nil => rfl
  | cons n l ih => rw [List.foldl_cons, land_of_quiet h]; exact ih

/-- Saving a group keeps that nothing is on its way. -/
theorem quiet_saveGroup {s : State} (h : s.quiet = true) (gid : Nat) (res : Residency) (n : Nat) :
    (s.saveGroup gid res n).quiet = true := by
  rw [saveGroup_of_quiet h]
  simp only [State.quiet, Bool.and_eq_true, List.all_eq_true, List.mem_map] at h ⊢
  refine ⟨?_, h.2⟩
  rintro x ⟨g, hg, rfl⟩
  have := h.1 g hg
  split <;> simpa using this

end Sys2Proof.Machine
end

