-- ==== Sys2Proof/Laws/PerInstr.lean ====
section
/-! SUPPORT. Per instruction: a well-formed instruction that has a word is what that word decodes to. -/
namespace Sys2Proof.Laws.RoundTrip

/-- Decoding gives back what encoding took. -/
def Statement (i : Instr) : Prop := i.wf = true → i.isStep = false → decodeWord (encode i) = .ok i

theorem of_fields (i : Instr) (h : decFields (encode i) = .ok i) : Statement i := by
  intro hw _
  simp only [decodeWord, h, hw, if_true]

theorem of_step (i : Instr) (h : i.isStep = true) : Statement i := by
  intro _ h'
  rw [h] at h'
  exact absurd h' (by decide)

theorem clauseStart (wait seta setb len) : Statement (.clauseStart wait seta setb len) := by
  apply of_fields
  show decFields (255#8 ++ wait ++ flagCode seta ++ flagCode setb ++ bits4 len) = _
  have hh : isHeader (255#8 ++ wait ++ flagCode seta ++ flagCode setb ++ bits4 len) = true := by
    rw [isHeader, piece_header_0]; rfl
  rw [decFields, if_pos hh, decHeader, piece_header_1, piece_header_2, piece_header_3, piece_header_4]
  simp [bind, Except.bind, pure, Except.pure]
theorem nop : Statement (.nop) := by
  apply of_fields
  show decFields (wordA false 0x00 0 0 0) = _
  simp only [decFields, isHeader_of]
  simp [decRow0, decBare, noU, need, bind, Except.bind, pure, Except.pure]
theorem exit : Statement (.exit) := by
  apply of_fields
  show decFields (wordA false 0x01 0 0 0) = _
  simp only [decFields, isHeader_of]
  simp [decRow0, decBare, noU, need, bind, Except.bind, pure, Except.pure]
theorem bra (off) : Statement (.bra off) := by
  apply of_fields
  show decFields (wordJ 0x02 off) = _
  simp only [decFields, isHeader_of]
  simp [decRow0, noU, need, bind, Except.bind, pure, Except.pure]
theorem bc (neg p all off) : Statement (.bc neg p all off) := by
  apply of_fields
  show decFields (wordC 0x03 neg p all off) = _
  simp only [decFields, isHeader_of]
  simp [decRow0, noU, need, bind, Except.bind, pure, Except.pure]
theorem bdiv (neg p off) : Statement (.bdiv neg p off) := by
  apply of_fields
  show decFields (wordC 0x04 neg p false off) = _
  simp only [decFields, isHeader_of]
  simp [decRow0, noU, need, bind, Except.bind, pure, Except.pure]
theorem setj (off) : Statement (.setj off) := by
  apply of_fields
  show decFields (wordJ 0x05 off) = _
  simp only [decFields, isHeader_of]
  simp [decRow0, noU, need, bind, Except.bind, pure, Except.pure]
theorem join : Statement (.join) := by
  apply of_fields
  show decFields (wordA false 0x06 0 0 0) = _
  simp only [decFields, isHeader_of]
  simp [decRow0, decBare, noU, need, bind, Except.bind, pure, Except.pure]
theorem call (off) : Statement (.call off) := by
  apply of_fields
  show decFields (wordJ 0x07 off) = _
  simp only [decFields, isHeader_of]
  simp [decRow0, noU, need, bind, Except.bind, pure, Except.pure]
theorem ret : Statement (.ret) := by
  apply of_fields
  show decFields (wordA false 0x08 0 0 0) = _
  simp only [decFields, isHeader_of]
  simp [decRow0, decBare, noU, need, bind, Except.bind, pure, Except.pure]
theorem brx (a) : Statement (.brx a) := by
  apply of_fields
  show decFields (wordA false 0x09 0 a.encode 0) = _
  simp only [decFields, isHeader_of]
  simp [decRow0, decSrcA, noU, need, bind, Except.bind, pure, Except.pure]
theorem callx (a) : Statement (.callx a) := by
  apply of_fields
  show decFields (wordA false 0x0A 0 a.encode 0) = _
  simp only [decFields, isHeader_of]
  simp [decRow0, decSrcA, noU, need, bind, Except.bind, pure, Except.pure]
theorem yield_ : Statement (.yield_) := by
  apply of_fields
  show decFields (wordA false 0x0B 0 0 0) = _
  simp only [decFields, isHeader_of]
  simp [decRow0, decBare, noU, need, bind, Except.bind, pure, Except.pure]
theorem trap (n) : Statement (.trap n) := by
  apply of_fields
  show decFields (wordA false 0x0C 0 0 n) = _
  simp only [decFields, isHeader_of]
  simp [decRow0, noU, need, bind, Except.bind, pure, Except.pure]
theorem tret : Statement (.tret) := by
  apply of_fields
  show decFields (wordA false 0x0D 0 0 0) = _
  simp only [decFields, isHeader_of]
  simp [decRow0, decBare, noU, need, bind, Except.bind, pure, Except.pure]
theorem mode (imm) : Statement (.mode imm) := by
  apply of_fields
  show decFields (wordI false 0x0E 0 imm) = _
  simp only [decFields, isHeader_of]
  simp [decRow0, noU, need, bind, Except.bind, pure, Except.pure]
theorem iadd (u d a b) : Statement (.iadd u d a b) := by
  apply of_fields
  show decFields (wordA u 0x10 d.encode a.encode b.encode) = _
  simp only [decFields, isHeader_of]
  simp [decRow1, decABC, bind, Except.bind, pure, Except.pure]
theorem isub (u d a b) : Statement (.isub u d a b) := by
  apply of_fields
  show decFields (wordA u 0x11 d.encode a.encode b.encode) = _
  simp only [decFields, isHeader_of]
  simp [decRow1, decABC, bind, Except.bind, pure, Except.pure]
theorem imul (u d a b) : Statement (.imul u d a b) := by
  apply of_fields
  show decFields (wordA u 0x12 d.encode a.encode b.encode) = _
  simp only [decFields, isHeader_of]
  simp [decRow1, decABC, bind, Except.bind, pure, Except.pure]
theorem imulh (u d a b) : Statement (.imulh u d a b) := by
  apply of_fields
  show decFields (wordA u 0x13 d.encode a.encode b.encode) = _
  simp only [decFields, isHeader_of]
  simp [decRow1, decABC, bind, Except.bind, pure, Except.pure]
theorem imad (u d a b) : Statement (.imad u d a b) := by
  apply of_fields
  show decFields (wordA u 0x14 d.encode a.encode b.encode) = _
  simp only [decFields, isHeader_of]
  simp [decRow1, decABC, bind, Except.bind, pure, Except.pure]
theorem imin (u d a b) : Statement (.imin u d a b) := by
  apply of_fields
  show decFields (wordA u 0x15 d.encode a.encode b.encode) = _
  simp only [decFields, isHeader_of]
  simp [decRow1, decABC, bind, Except.bind, pure, Except.pure]
theorem imax (u d a b) : Statement (.imax u d a b) := by
  apply of_fields
  show decFields (wordA u 0x16 d.encode a.encode b.encode) = _
  simp only [decFields, isHeader_of]
  simp [decRow1, decABC, bind, Except.bind, pure, Except.pure]
theorem iabs (u d a) : Statement (.iabs u d a) := by
  apply of_fields
  show decFields (wordA u 0x17 d.encode a.encode 0) = _
  simp only [decFields, isHeader_of]
  simp [decRow1, decAB, need, bind, Except.bind, pure, Except.pure]
theorem and (u d a b) : Statement (.and u d a b) := by
  apply of_fields
  show decFields (wordA u 0x18 d.encode a.encode b.encode) = _
  simp only [decFields, isHeader_of]
  simp [decRow1, decABC, bind, Except.bind, pure, Except.pure]
theorem or (u d a b) : Statement (.or u d a b) := by
  apply of_fields
  show decFields (wordA u 0x19 d.encode a.encode b.encode) = _
  simp only [decFields, isHeader_of]
  simp [decRow1, decABC, bind, Except.bind, pure, Except.pure]
theorem xor (u d a b) : Statement (.xor u d a b) := by
  apply of_fields
  show decFields (wordA u 0x1A d.encode a.encode b.encode) = _
  simp only [decFields, isHeader_of]
  simp [decRow1, decABC, bind, Except.bind, pure, Except.pure]
theorem andn (u d a b) : Statement (.andn u d a b) := by
  apply of_fields
  show decFields (wordA u 0x1B d.encode a.encode b.encode) = _
  simp only [decFields, isHeader_of]
  simp [decRow1, decABC, bind, Except.bind, pure, Except.pure]
theorem shl (u d a b) : Statement (.shl u d a b) := by
  apply of_fields
  show decFields (wordA u 0x1C d.encode a.encode b.encode) = _
  simp only [decFields, isHeader_of]
  simp [decRow1, decABC, bind, Except.bind, pure, Except.pure]
theorem shr (u d a b) : Statement (.shr u d a b) := by
  apply of_fields
  show decFields (wordA u 0x1D d.encode a.encode b.encode) = _
  simp only [decFields, isHeader_of]
  simp [decRow1, decABC, bind, Except.bind, pure, Except.pure]
theorem sar (u d a b) : Statement (.sar u d a b) := by
  apply of_fields
  show decFields (wordA u 0x1E d.encode a.encode b.encode) = _
  simp only [decFields, isHeader_of]
  simp [decRow1, decABC, bind, Except.bind, pure, Except.pure]
theorem rol (u d a b) : Statement (.rol u d a b) := by
  apply of_fields
  show decFields (wordA u 0x1F d.encode a.encode b.encode) = _
  simp only [decFields, isHeader_of]
  simp [decRow1, decABC, bind, Except.bind, pure, Except.pure]
theorem bfe (u d a b) : Statement (.bfe u d a b) := by
  apply of_fields
  show decFields (wordA u 0x20 d.encode a.encode b.encode) = _
  simp only [decFields, isHeader_of]
  simp [decRow2, decABC, bind, Except.bind, pure, Except.pure]
theorem bfi (u d a b) : Statement (.bfi u d a b) := by
  apply of_fields
  show decFields (wordA u 0x21 d.encode a.encode b.encode) = _
  simp only [decFields, isHeader_of]
  simp [decRow2, decABC, bind, Except.bind, pure, Except.pure]
theorem popc (u d a) : Statement (.popc u d a) := by
  apply of_fields
  show decFields (wordA u 0x22 d.encode a.encode 0) = _
  simp only [decFields, isHeader_of]
  simp [decRow2, decAB, need, bind, Except.bind, pure, Except.pure]
theorem clz (u d a) : Statement (.clz u d a) := by
  apply of_fields
  show decFields (wordA u 0x23 d.encode a.encode 0) = _
  simp only [decFields, isHeader_of]
  simp [decRow2, decAB, need, bind, Except.bind, pure, Except.pure]
theorem brev (u d a) : Statement (.brev u d a) := by
  apply of_fields
  show decFields (wordA u 0x24 d.encode a.encode 0) = _
  simp only [decFields, isHeader_of]
  simp [decRow2, decAB, need, bind, Except.bind, pure, Except.pure]
theorem sel (u d a b) : Statement (.sel u d a b) := by
  apply of_fields
  show decFields (wordA u 0x25 d.encode a.encode b.encode) = _
  simp only [decFields, isHeader_of]
  simp [decRow2, decABC, bind, Except.bind, pure, Except.pure]
theorem icmp (u c p a b) : Statement (.icmp u c p a b) := by
  apply of_fields
  show decFields (wordA u 0x26 (c.code ++ (0 : BitVec 1) ++ bits3 p) a.encode b.encode) = _
  simp only [decFields, isHeader_of]
  simp [decRow2, decCmp, need, bind, Except.bind, pure, Except.pure]
theorem mov (u d a) : Statement (.mov u d a) := by
  apply of_fields
  show decFields (wordA u 0x27 d.encode a.encode 0) = _
  simp only [decFields, isHeader_of]
  simp [decRow2, decAB, need, bind, Except.bind, pure, Except.pure]
theorem iaddi (u d imm) : Statement (.iaddi u d imm) := by
  apply of_fields
  show decFields (wordI u 0x28 d.encode imm) = _
  simp only [decFields, isHeader_of]
  simp [decRow2, decDI, bind, Except.bind, pure, Except.pure]
theorem movi (u d imm) : Statement (.movi u d imm) := by
  apply of_fields
  show decFields (wordI u 0x29 d.encode imm) = _
  simp only [decFields, isHeader_of]
  simp [decRow2, decDI, bind, Except.bind, pure, Except.pure]
theorem movhi (u d imm) : Statement (.movhi u d imm) := by
  apply of_fields
  show decFields (wordI u 0x2A d.encode imm) = _
  simp only [decFields, isHeader_of]
  simp [decRow2, decDI, bind, Except.bind, pure, Except.pure]
theorem andi (u d imm) : Statement (.andi u d imm) := by
  apply of_fields
  show decFields (wordI u 0x2B d.encode imm) = _
  simp only [decFields, isHeader_of]
  simp [decRow2, decDI, bind, Except.bind, pure, Except.pure]
theorem ori (u d imm) : Statement (.ori u d imm) := by
  apply of_fields
  show decFields (wordI u 0x2C d.encode imm) = _
  simp only [decFields, isHeader_of]
  simp [decRow2, decDI, bind, Except.bind, pure, Except.pure]
theorem xori (u d imm) : Statement (.xori u d imm) := by
  apply of_fields
  show decFields (wordI u 0x2D d.encode imm) = _
  simp only [decFields, isHeader_of]
  simp [decRow2, decDI, bind, Except.bind, pure, Except.pure]
theorem imuli (u d imm) : Statement (.imuli u d imm) := by
  apply of_fields
  show decFields (wordI u 0x2E d.encode imm) = _
  simp only [decFields, isHeader_of]
  simp [decRow2, decDI, bind, Except.bind, pure, Except.pure]
theorem fadd (u d a b) : Statement (.fadd u d a b) := by
  apply of_fields
  show decFields (wordA u 0x30 d.encode a.encode b.encode) = _
  simp only [decFields, isHeader_of]
  simp [decRow3, decABC, bind, Except.bind, pure, Except.pure]
theorem fsub (u d a b) : Statement (.fsub u d a b) := by
  apply of_fields
  show decFields (wordA u 0x31 d.encode a.encode b.encode) = _
  simp only [decFields, isHeader_of]
  simp [decRow3, decABC, bind, Except.bind, pure, Except.pure]
theorem fmul (u d a b) : Statement (.fmul u d a b) := by
  apply of_fields
  show decFields (wordA u 0x32 d.encode a.encode b.encode) = _
  simp only [decFields, isHeader_of]
  simp [decRow3, decABC, bind, Except.bind, pure, Except.pure]
theorem ffma (u d a b) : Statement (.ffma u d a b) := by
  apply of_fields
  show decFields (wordA u 0x33 d.encode a.encode b.encode) = _
  simp only [decFields, isHeader_of]
  simp [decRow3, decABC, bind, Except.bind, pure, Except.pure]
theorem fmin (u d a b) : Statement (.fmin u d a b) := by
  apply of_fields
  show decFields (wordA u 0x34 d.encode a.encode b.encode) = _
  simp only [decFields, isHeader_of]
  simp [decRow3, decABC, bind, Except.bind, pure, Except.pure]
theorem fmax (u d a b) : Statement (.fmax u d a b) := by
  apply of_fields
  show decFields (wordA u 0x35 d.encode a.encode b.encode) = _
  simp only [decFields, isHeader_of]
  simp [decRow3, decABC, bind, Except.bind, pure, Except.pure]
theorem fabs (u d a) : Statement (.fabs u d a) := by
  apply of_fields
  show decFields (wordA u 0x36 d.encode a.encode 0) = _
  simp only [decFields, isHeader_of]
  simp [decRow3, decAB, need, bind, Except.bind, pure, Except.pure]
theorem fneg (u d a) : Statement (.fneg u d a) := by
  apply of_fields
  show decFields (wordA u 0x37 d.encode a.encode 0) = _
  simp only [decFields, isHeader_of]
  simp [decRow3, decAB, need, bind, Except.bind, pure, Except.pure]
theorem fcmp (u c p a b) : Statement (.fcmp u c p a b) := by
  apply of_fields
  show decFields (wordA u 0x38 (c.code ++ (0 : BitVec 1) ++ bits3 p) a.encode b.encode) = _
  simp only [decFields, isHeader_of]
  simp [decRow3, decCmp, need, bind, Except.bind, pure, Except.pure]
theorem frcp (u d a) : Statement (.frcp u d a) := by
  apply of_fields
  show decFields (wordA u 0x39 d.encode a.encode 0) = _
  simp only [decFields, isHeader_of]
  simp [decRow3, decAB, need, bind, Except.bind, pure, Except.pure]
theorem frsq (u d a) : Statement (.frsq u d a) := by
  apply of_fields
  show decFields (wordA u 0x3A d.encode a.encode 0) = _
  simp only [decFields, isHeader_of]
  simp [decRow3, decAB, need, bind, Except.bind, pure, Except.pure]
theorem fsqrt (u d a) : Statement (.fsqrt u d a) := by
  apply of_fields
  show decFields (wordA u 0x3B d.encode a.encode 0) = _
  simp only [decFields, isHeader_of]
  simp [decRow3, decAB, need, bind, Except.bind, pure, Except.pure]
theorem fexp2 (u d a) : Statement (.fexp2 u d a) := by
  apply of_fields
  show decFields (wordA u 0x3C d.encode a.encode 0) = _
  simp only [decFields, isHeader_of]
  simp [decRow3, decAB, need, bind, Except.bind, pure, Except.pure]
theorem flog2 (u d a) : Statement (.flog2 u d a) := by
  apply of_fields
  show decFields (wordA u 0x3D d.encode a.encode 0) = _
  simp only [decFields, isHeader_of]
  simp [decRow3, decAB, need, bind, Except.bind, pure, Except.pure]
theorem fsin (u d a) : Statement (.fsin u d a) := by
  apply of_fields
  show decFields (wordA u 0x3E d.encode a.encode 0) = _
  simp only [decFields, isHeader_of]
  simp [decRow3, decAB, need, bind, Except.bind, pure, Except.pure]
theorem fcos (u d a) : Statement (.fcos u d a) := by
  apply of_fields
  show decFields (wordA u 0x3F d.encode a.encode 0) = _
  simp only [decFields, isHeader_of]
  simp [decRow3, decAB, need, bind, Except.bind, pure, Except.pure]
theorem frnd (u d a) : Statement (.frnd u d a) := by
  apply of_fields
  show decFields (wordA u 0x40 d.encode a.encode 0) = _
  simp only [decFields, isHeader_of]
  simp [decRow4, decAB, need, bind, Except.bind, pure, Except.pure]
theorem ffrac (u d a) : Statement (.ffrac u d a) := by
  apply of_fields
  show decFields (wordA u 0x41 d.encode a.encode 0) = _
  simp only [decFields, isHeader_of]
  simp [decRow4, decAB, need, bind, Except.bind, pure, Except.pure]
theorem cvt (u d a pos dst) : Statement (.cvt u d a pos dst) := by
  apply of_fields
  show decFields (wordA u 0x42 d.encode a.encode ((0 : BitVec 1) ++ bits3 pos ++ dst.code)) = _
  simp only [decFields, isHeader_of]
  simp [decRow4, need, bind, Except.bind, pure, Except.pure]
theorem pack (u d a b) : Statement (.pack u d a b) := by
  apply of_fields
  show decFields (wordA u 0x43 d.encode a.encode b.encode) = _
  simp only [decFields, isHeader_of]
  simp [decRow4, decABC, bind, Except.bind, pure, Except.pure]
theorem unpk (u d a i4 hi) : Statement (.unpk u d a i4 hi) := by
  apply of_fields
  show decFields (wordA u 0x44 d.encode a.encode ((0 : BitVec 6) ++ bool1 i4 ++ bool1 hi)) = _
  simp only [decFields, isHeader_of]
  simp [decRow4, need, bind, Except.bind, pure, Except.pure]
theorem fdot2 (u d a b) : Statement (.fdot2 u d a b) := by
  apply of_fields
  show decFields (wordA u 0x45 d.encode a.encode b.encode) = _
  simp only [decFields, isHeader_of]
  simp [decRow4, decABC, bind, Except.bind, pure, Except.pure]
theorem fclass (u d a) : Statement (.fclass u d a) := by
  apply of_fields
  show decFields (wordA u 0x46 d.encode a.encode 0) = _
  simp only [decFields, isHeader_of]
  simp [decRow4, decAB, need, bind, Except.bind, pure, Except.pure]
theorem fmulb (u d imm) : Statement (.fmulb u d imm) := by
  apply of_fields
  show decFields (wordI u 0x47 d.encode imm) = _
  simp only [decFields, isHeader_of]
  simp [decRow4, decDI, bind, Except.bind, pure, Except.pure]
theorem shfl (d a b) : Statement (.shfl d a b) := by
  apply of_fields
  show decFields (wordA false 0x48 d.encode a.encode b.encode) = _
  simp only [decFields, isHeader_of]
  simp [decRow4, decLane3, noU, need, bind, Except.bind, pure, Except.pure]
theorem shflx (d a b) : Statement (.shflx d a b) := by
  apply of_fields
  show decFields (wordA false 0x49 d.encode a.encode b.encode) = _
  simp only [decFields, isHeader_of]
  simp [decRow4, decLane3, noU, need, bind, Except.bind, pure, Except.pure]
theorem shflup (d a b) : Statement (.shflup d a b) := by
  apply of_fields
  show decFields (wordA false 0x4A d.encode a.encode b.encode) = _
  simp only [decFields, isHeader_of]
  simp [decRow4, decLane3, noU, need, bind, Except.bind, pure, Except.pure]
theorem vote (d a k) : Statement (.vote d a k) := by
  apply of_fields
  show decFields (wordA false 0x4B d.encode a.encode ((0 : BitVec 3) ++ bool1 d.pd ++ (0 : BitVec 2) ++ k.code)) = _
  simp only [decFields, isHeader_of]
  simp [decRow4, noU, need, bind, Except.bind, pure, Except.pure]
theorem lred (d a op) : Statement (.lred d a op) := by
  apply of_fields
  show decFields (wordA false 0x4C d.encode a.encode ((0 : BitVec 4) ++ op.code)) = _
  simp only [decFields, isHeader_of]
  simp [decRow4, noU, need, bind, Except.bind, pure, Except.pure]
theorem lscan (d a ex op) : Statement (.lscan d a ex op) := by
  apply of_fields
  show decFields (wordA false 0x4D d.encode a.encode (bool1 ex ++ (0 : BitVec 3) ++ op.code)) = _
  simp only [decFields, isHeader_of]
  simp [decRow4, noU, need, bind, Except.bind, pure, Except.pure]
theorem elect (d) : Statement (.elect d) := by
  apply of_fields
  show decFields (wordA false 0x4E d.encode 0 ((0 : BitVec 3) ++ bool1 d.pd ++ (0 : BitVec 4))) = _
  simp only [decFields, isHeader_of]
  simp [decRow4, noU, need, bind, Except.bind, pure, Except.pure]
theorem barArrive (a b) : Statement (.barArrive a b) := by
  apply of_fields
  show decFields (wordA false 0x50 0 a.encode b.encode) = _
  simp only [decFields, isHeader_of]
  simp [decRow5, decBar, noU, need, bind, Except.bind, pure, Except.pure]
theorem barWait (a) : Statement (.barWait a) := by
  apply of_fields
  show decFields (wordA false 0x50 1 a.encode 0) = _
  simp only [decFields, isHeader_of]
  simp [decRow5, decBar, noU, need, bind, Except.bind, pure, Except.pure]
theorem barSync (a b) : Statement (.barSync a b) := by
  apply of_fields
  show decFields (wordA false 0x50 2 a.encode b.encode) = _
  simp only [decFields, isHeader_of]
  simp [decRow5, decBar, noU, need, bind, Except.bind, pure, Except.pure]
theorem freeze (a) : Statement (.freeze a) := by
  apply of_fields
  show decFields (wordA false 0x51 0 a.encode 0) = _
  simp only [decFields, isHeader_of]
  simp [decRow5, decSrcA, noU, need, bind, Except.bind, pure, Except.pure]
theorem lnchW (u x a) : Statement (.lnchW u x a) := by
  apply of_fields
  show decFields (wordA u 0x52 ((0 : BitVec 4) ++ (1 : BitVec 1) ++ bits3 x) a.encode 0) = _
  simp only [decFields, isHeader_of]
  simp [decRow5, decLnch, decLaunch, need, bind, Except.bind, pure, Except.pure]
theorem lnchN (u x a) : Statement (.lnchN u x a) := by
  apply of_fields
  show decFields (wordA u 0x52 ((0 : BitVec 4) ++ (0 : BitVec 1) ++ bits3 x) a.encode 0) = _
  simp only [decFields, isHeader_of]
  simp [decRow5, decLnch, decLaunch, need, bind, Except.bind, pure, Except.pure]
theorem enq (u x a) : Statement (.enq u x a) := by
  apply of_fields
  show decFields (wordA u 0x53 ((0 : BitVec 5) ++ bits3 x) a.encode 0) = _
  simp only [decFields, isHeader_of]
  simp [decRow5, decLaunch, need, bind, Except.bind, pure, Except.pure]
theorem fence (k sc) : Statement (.fence k sc) := by
  apply of_fields
  show decFields (wordI false 0x54 0 ((0 : BitVec 10) ++ k.code ++ sc.code)) = _
  simp only [decFields, isHeader_of]
  simp [decRow5, noU, need, bind, Except.bind, pure, Except.pure]
theorem xfence (k after before sc) : Statement (.xfence k after before sc) := by
  apply of_fields
  show decFields (wordI false 0x55 0 ((0 : BitVec 2) ++ k.code ++ after.code ++ before.code ++ sc.code)) = _
  simp only [decFields, isHeader_of]
  simp [decRow5, noU, need, bind, Except.bind, pure, Except.pure]
theorem waita (u ne sc sp a) : Statement (.waita u ne sc sp a) := by
  apply of_fields
  cases sp with
  | global x =>
    show decFields (wordM u 0x56 ((0 : BitVec 3) ++ bool1 ne ++ sc.code) (bits3 x) 0 (sregEncode a)) = _
    simp only [decFields, isHeader_of]
    cases ne <;> cases sc <;> simp [decRow5, decWaita, Scope.code, need, bind, Except.bind, pure, Except.pure, Scope.ofCode, bool1, bit1]
  | team =>
    show decFields (wordM u 0x56 ((0 : BitVec 3) ++ bool1 ne ++ sc.code) 0 0x10 (sregEncode a)) = _
    simp only [decFields, isHeader_of]
    cases ne <;> cases sc <;> simp [decRow5, decWaita, Scope.code, need, bind, Except.bind, pure, Except.pure, Scope.ofCode, bool1, bit1]
theorem ckick (u a b) : Statement (.ckick u a b) := by
  apply of_fields
  show decFields (wordA u 0x57 0 a.encode b.encode) = _
  simp only [decFields, isHeader_of]
  simp [decRow5, need, bind, Except.bind, pure, Except.pure]
theorem csrr (u d n) : Statement (.csrr u d n) := by
  apply of_fields
  show decFields (wordI u 0x58 d.encode ((0 : BitVec 4) ++ n)) = _
  simp only [decFields, isHeader_of]
  simp [decRow5, need, bind, Except.bind, pure, Except.pure]
theorem csrw (u d n) : Statement (.csrw u d n) := by
  intro hw _
  have hn : n ≠ 9#12 := by
    intro h; subst h
    have : (Instr.csrw u d 9#12).wf = false := rfl
    rw [this] at hw
    exact absurd hw (by decide)
  have h : decFields (encode (.csrw u d n)) = .ok (.csrw u d n) := by
    show decFields (wordI u 0x59 d.encode ((0 : BitVec 4) ++ n)) = _
    simp only [decFields, isHeader_of]
    simp [decRow5, decCsrw, need, bind, Except.bind, pure, Except.pure, hn]
  simp only [decodeWord, h, hw, if_true]
theorem mint (u d a b) : Statement (.mint u d a b) := by
  apply of_fields
  show decFields (wordA u 0x5A (quadEncode d) (quadEncode a) (quadEncode b)) = _
  simp only [decFields, isHeader_of]
  simp [decRow5, bind, Except.bind, pure, Except.pure]
theorem xlat (u n a) : Statement (.xlat u n a) := by
  apply of_fields
  show decFields (wordA u 0x5B ((0 : BitVec 5) ++ bits3 n) (quadEncode a) 0) = _
  simp only [decFields, isHeader_of]
  simp [decRow5, need, bind, Except.bind, pure, Except.pure]
theorem ld (u d x sz h a) : Statement (.ld u d x sz h a) := by
  apply of_fields
  show decFields (wordM u 0x60 d.encode (bits3 x) (sz.code ++ h.code) a.encode) = _
  simp only [decFields, isHeader_of]
  simp [decRow6, decLd, bind, Except.bind, pure, Except.pure]
theorem st (u d x sz h a) : Statement (.st u d x sz h a) := by
  apply of_fields
  show decFields (wordM u 0x61 d.encode (bits3 x) (sz.code ++ h.code) a.encode) = _
  simp only [decFields, isHeader_of]
  simp [decRow6, decSt, bind, Except.bind, pure, Except.pure]
theorem atom (u d x op w64 a) : Statement (.atom u d x op w64 a) := by
  apply of_fields
  show decFields (wordM u 0x62 d.encode (bits3 x) (op.code ++ bool1 w64) a.encode) = _
  simp only [decFields, isHeader_of]
  simp [decRow6, decAtom, bind, Except.bind, pure, Except.pure]
theorem atomNoreturn (u x op w64 a) : Statement (.atomNoreturn u x op w64 a) := by
  apply of_fields
  show decFields (wordM u 0x62 255 (bits3 x) (op.code ++ bool1 w64) a.encode) = _
  simp only [decFields, isHeader_of]
  simp [decRow6, decAtom, bind, Except.bind, pure, Except.pure]
theorem lds (u d sp sz a) : Statement (.lds u d sp sz a) := by
  apply of_fields
  show decFields (wordM u 0x63 d.encode sp.code (sz.code ++ (0 : BitVec 2)) a.encode) = _
  simp only [decFields, isHeader_of]
  simp [decRow6, decLds, need, bind, Except.bind, pure, Except.pure]
theorem sts (u d sp sz a) : Statement (.sts u d sp sz a) := by
  apply of_fields
  show decFields (wordM u 0x64 d.encode sp.code (sz.code ++ (0 : BitVec 2)) a.encode) = _
  simp only [decFields, isHeader_of]
  simp [decRow6, decSts, need, bind, Except.bind, pure, Except.pure]
theorem atoms (u d sp op w64 a) : Statement (.atoms u d sp op w64 a) := by
  apply of_fields
  show decFields (wordM u 0x65 d.encode sp.code (op.code ++ bool1 w64) a.encode) = _
  simp only [decFields, isHeader_of]
  simp [decRow6, decAtoms, bind, Except.bind, pure, Except.pure]
theorem atomsNoreturn (u sp op w64 a) : Statement (.atomsNoreturn u sp op w64 a) := by
  apply of_fields
  show decFields (wordM u 0x65 255 sp.code (op.code ++ bool1 w64) a.encode) = _
  simp only [decFields, isHeader_of]
  simp [decRow6, decAtoms, bind, Except.bind, pure, Except.pure]
theorem ldcTable (u d a) : Statement (.ldcTable u d a) := by
  apply of_fields
  show decFields (wordM u 0x66 (quadEncode d) 0 0 a.encode) = _
  simp only [decFields, isHeader_of]
  simp [decRow6, decLdc, need, bind, Except.bind, pure, Except.pure]
theorem ldcMemory (u d x a) : Statement (.ldcMemory u d x a) := by
  apply of_fields
  show decFields (wordM u 0x66 (quadEncode d) (bits3 x) 0x10 a.encode) = _
  simp only [decFields, isHeader_of]
  simp [decRow6, decLdc, need, bind, Except.bind, pure, Except.pure]
theorem stc (u d x a) : Statement (.stc u d x a) := by
  apply of_fields
  show decFields (wordM u 0x67 (quadEncode d) (bits3 x) 0 a.encode) = _
  simp only [decFields, isHeader_of]
  simp [decRow6, need, bind, Except.bind, pure, Except.pure]
theorem tlook (u d a b) : Statement (.tlook u d a b) := by
  apply of_fields
  show decFields (wordA u 0x68 d.encode a.encode b.encode) = _
  simp only [decFields, isHeader_of]
  simp [decRow6, decABC, bind, Except.bind, pure, Except.pure]
theorem tset (u a b) : Statement (.tset u a b) := by
  apply of_fields
  show decFields (wordA u 0x69 0 a.encode b.encode) = _
  simp only [decFields, isHeader_of]
  simp [decRow6, need, bind, Except.bind, pure, Except.pure]
theorem ldlod (u d sz a) : Statement (.ldlod u d sz a) := by
  apply of_fields
  show decFields (wordM u 0x6A d.encode 0 (sz.code ++ (0 : BitVec 3)) a.encode) = _
  simp only [decFields, isHeader_of]
  simp [decRow6, need, bind, Except.bind, pure, Except.pure]
theorem sample (u d a b) : Statement (.sample u d a b) := by
  apply of_fields
  show decFields (wordA u 0x6B d.encode a.encode b.encode) = _
  simp only [decFields, isHeader_of]
  simp [decRow6, decABC, bind, Except.bind, pure, Except.pure]
theorem sampleg (u d a b) : Statement (.sampleg u d a b) := by
  apply of_fields
  show decFields (wordA u 0x6C d.encode a.encode b.encode) = _
  simp only [decFields, isHeader_of]
  simp [decRow6, decABC, bind, Except.bind, pure, Except.pure]
theorem pref (u x k a) : Statement (.pref u x k a) := by
  apply of_fields
  show decFields (wordM u 0x6D 0 (bits3 x) ((0 : BitVec 3) ++ k.code) a.encode) = _
  simp only [decFields, isHeader_of]
  simp [decRow6, need, bind, Except.bind, pure, Except.pure]
theorem mloadb (a) : Statement (.mloadb a) := by
  apply of_fields
  show decFields (wordA false 0x70 0 (sregEncode a) 0) = _
  simp only [decFields, isHeader_of]
  simp [decRow7, decSregA, noU, need, bind, Except.bind, pure, Except.pure]
theorem mloop (a) : Statement (.mloop a) := by
  apply of_fields
  show decFields (wordA false 0x71 0 (sregEncode a) 0) = _
  simp only [decFields, isHeader_of]
  simp [decRow7, decSregA, noU, need, bind, Except.bind, pure, Except.pure]
theorem mdrain (a) : Statement (.mdrain a) := by
  apply of_fields
  show decFields (wordA false 0x72 0 (sregEncode a) 0) = _
  simp only [decFields, isHeader_of]
  simp [decRow7, decSregA, noU, need, bind, Except.bind, pure, Except.pure]
theorem mdrainv (d a b) : Statement (.mdrainv d a b) := by
  apply of_fields
  show decFields (wordA false 0x73 (vregEncode d) a.encode b.encode) = _
  simp only [decFields, isHeader_of]
  simp [decRow7, noU, need, bind, Except.bind, pure, Except.pure]
theorem mzero (a b) : Statement (.mzero a b) := by
  apply of_fields
  show decFields (wordA false 0x74 0 a.encode b.encode) = _
  simp only [decFields, isHeader_of]
  simp [decRow7, noU, need, bind, Except.bind, pure, Except.pure]
theorem mscale (q a) : Statement (.mscale q a) := by
  apply of_fields
  show decFields (wordA false 0x75 ((0 : BitVec 5) ++ bits3 q) a.encode 0) = _
  simp only [decFields, isHeader_of]
  simp [decRow7, noU, need, bind, Except.bind, pure, Except.pure]
theorem vxm (d a last b) : Statement (.vxm d a last b) := by
  apply of_fields
  show decFields (wordA false 0x76 (vregEncode d) (BitVec.ofNat 8 ((if last then 64 else 0) + a.val)) b.encode) = _
  obtain ⟨h1, h2, h3⟩ := vxm_a last a
  generalize BitVec.ofNat 8 ((if last = true then 64 else 0) + a.val) = y at h1 h2 h3 ⊢
  simp only [decFields, isHeader_of]
  simp only [decide_eq_true_eq] at h2
  simp [decRow7, decVxm, noU, need, bind, Except.bind, pure, Except.pure, h1, h2, h3]
theorem trace (mask a k d) : Statement (.trace mask a k d) := by
  apply of_fields
  show decFields (wordA false 0x78 mask (vregEncode a) (k.code ++ BitVec.ofNat 6 d.val)) = _
  have h := reg6_trace k.code d
  generalize hy : BitVec.ofNat 6 d.val = y at h ⊢
  simp only [decFields, isHeader_of]
  simp [decRow7, noU, need, bind, Except.bind, pure, Except.pure, h]
theorem hitret (a d) : Statement (.hitret a d) := by
  apply of_fields
  show decFields (wordA false 0x79 0 a.encode (vregEncode d)) = _
  simp only [decFields, isHeader_of]
  simp [decRow7, noU, need, bind, Except.bind, pure, Except.pure]
theorem repack (k nm1 a b) : Statement (.repack k nm1 a b) := by
  apply of_fields
  show decFields (wordA false 0x7A (bits4 k ++ bits4 nm1) (vregEncode a) (vregEncode b)) = _
  simp only [decFields, isHeader_of]
  simp [decRow7, noU, need, bind, Except.bind, pure, Except.pure]
theorem visb (clear a mask) : Statement (.visb clear a mask) := by
  apply of_fields
  show decFields (wordA false 0x7B ((0 : BitVec 7) ++ bool1 clear) (sregEncode a) mask) = _
  simp only [decFields, isHeader_of]
  simp [decRow7, noU, need, bind, Except.bind, pure, Except.pure]
theorem cover (a b) : Statement (.cover a b) := by
  apply of_fields
  show decFields (wordA false 0x7C 0 (vregEncode a) b.encode) = _
  simp only [decFields, isHeader_of]
  simp [decRow7, noU, need, bind, Except.bind, pure, Except.pure]
theorem compose (d a) : Statement (.compose d a) := by
  apply of_fields
  show decFields (wordA false 0x7D (sregEncode d) a.encode 0) = _
  simp only [decFields, isHeader_of]
  simp [decRow7, noU, need, bind, Except.bind, pure, Except.pure]
theorem waitaReread (g id) : Statement (.waitaReread g id) := of_step _ rfl
theorem resdrain (u d) : Statement (.resdrain u d) := by
  apply of_fields
  show decFields (wordI u 0x59 d.encode 9) = _
  simp only [decFields, isHeader_of]
  simp [decRow5, decCsrw, need, bind, Except.bind, pure, Except.pure]
theorem guttail (ctx value) : Statement (.guttail ctx value) := of_step _ rfl
theorem guthead (ctx value) : Statement (.guthead ctx value) := of_step _ rfl
/-- GUTOVF. -/
theorem gutovf (ctx value) : Statement (.gutovf ctx value) := of_step _ rfl

/-- CSRW of CQPERIOD or CQBUDGET. -/
theorem queueWrite (ctx queue budget value) : Statement (.queueWrite ctx queue budget value) := of_step _ rfl

/-- The grant of a section. -/
theorem sectionGrant (sec grant) : Statement (.sectionGrant sec grant) := of_step _ rfl
theorem gutterEntryPerformed (unit) : Statement (.gutterEntryPerformed unit) := of_step _ rfl
theorem engineCommandComplete (g id) : Statement (.engineCommandComplete g id) := of_step _ rfl
theorem unitResultWritten (g result) : Statement (.unitResultWritten g result) := of_step _ rfl
theorem composeOptimise (die) : Statement (.composeOptimise die) := of_step _ rfl
theorem optimiseBoundExpiry (die) : Statement (.optimiseBoundExpiry die) := of_step _ rfl
theorem loadSectorReturn (g id sector) : Statement (.loadSectorReturn g id sector) := of_step _ rfl
theorem storePerformed (g id) : Statement (.storePerformed g id) := of_step _ rfl
theorem shootDown (ctx page) : Statement (.shootDown ctx page) := of_step _ rfl
theorem teamStart (core) : Statement (.teamStart core) := of_step _ rfl
theorem steal (core) : Statement (.steal core) := of_step _ rfl
theorem launchWaitComplete (g id) : Statement (.launchWaitComplete g id) := of_step _ rfl
theorem groupExchange (gOut gIn) : Statement (.groupExchange gOut gIn) := of_step _ rfl
theorem starvationTimeout (gIn) : Statement (.starvationTimeout gIn) := of_step _ rfl
theorem groupEvict (core slot) : Statement (.groupEvict core slot) := of_step _ rfl
theorem groupReturn (g) : Statement (.groupReturn g) := of_step _ rfl
theorem sheafMiss (core sheaf) : Statement (.sheafMiss core sheaf) := of_step _ rfl
theorem watchdog (core slot g) : Statement (.watchdog core slot g) := of_step _ rfl
theorem overrun (ctx queue) : Statement (.overrun ctx queue) := of_step _ rfl
theorem periodStart (ctx queue) : Statement (.periodStart ctx queue) := of_step _ rfl
theorem preempt (groups teams) : Statement (.preempt groups teams) := of_step _ rfl
theorem switchIn (team) : Statement (.switchIn team) := of_step _ rfl
theorem trapDelivery (g half) : Statement (.trapDelivery g half) := of_step _ rfl
theorem pathStopTimeout (g slot) : Statement (.pathStopTimeout g slot) := of_step _ rfl
theorem serviceResponse (g id answer) : Statement (.serviceResponse g id answer) := of_step _ rfl
theorem copyRequestFetch (g id) : Statement (.copyRequestFetch g id) := of_step _ rfl
theorem copyRequestPerform (core req) : Statement (.copyRequestPerform core req) := of_step _ rfl
theorem copyCompletion (core req part) : Statement (.copyCompletion core req part) := of_step _ rfl
theorem budgetPeriod : Statement (.budgetPeriod) := of_step _ rfl
theorem drawRecord (die queueCtx queue) : Statement (.drawRecord die queueCtx queue) := of_step _ rfl
theorem doorbell (ctx queue tail) : Statement (.doorbell ctx queue tail) := of_step _ rfl
theorem gridCompletion (grid) : Statement (.gridCompletion grid) := of_step _ rfl
theorem rangeRelease (ctx range) : Statement (.rangeRelease ctx range) := of_step _ rfl
theorem rangeAcquire (ctx range) : Statement (.rangeAcquire ctx range) := of_step _ rfl
theorem hostAccess (pa acc) : Statement (.hostAccess pa acc) := of_step _ rfl
theorem peerAccess (peer pa acc) : Statement (.peerAccess peer pa acc) := of_step _ rfl
theorem flitRetry (link dir) : Statement (.flitRetry link dir) := of_step _ rfl
theorem linkRetrain (link dir laneFailed) : Statement (.linkRetrain link dir laneFailed) := of_step _ rfl
theorem linkRetrainEnd (link) : Statement (.linkRetrainEnd link) := of_step _ rfl
theorem calvenFailover : Statement (.calvenFailover) := of_step _ rfl
theorem channelSpare (stack channel) : Statement (.channelSpare stack channel) := of_step _ rfl
theorem coreSpare (core) : Statement (.coreSpare core) := of_step _ rfl
theorem coreLost (core) : Statement (.coreLost core) := of_step _ rfl
theorem uncorrectableError (sec place) : Statement (.uncorrectableError sec place) := of_step _ rfl
theorem undervoltWindowEnd (sec clean) : Statement (.undervoltWindowEnd sec clean) := of_step _ rfl
theorem thermalSample (temps) : Statement (.thermalSample temps) := of_step _ rfl
theorem sectionReassign (sec cls) : Statement (.sectionReassign sec cls) := of_step _ rfl
theorem energyApportion (steps) : Statement (.energyApportion steps) := of_step _ rfl
theorem liveMigration (ctx) : Statement (.liveMigration ctx) := of_step _ rfl
theorem contextCreate (spec) : Statement (.contextCreate spec) := of_step _ rfl
theorem queueCreate (spec) : Statement (.queueCreate spec) := of_step _ rfl
theorem domainForm (own count) : Statement (.domainForm own count) := of_step _ rfl
theorem reset (spec) : Statement (.reset spec) := of_step _ rfl
theorem plainJoinWritten (g id) : Statement (.plainJoinWritten g id) := of_step _ rfl
theorem sectionRampEnd (sec) : Statement (.sectionRampEnd sec) := of_step _ rfl
theorem channelCopyEnd (stack channel) : Statement (.channelCopyEnd stack channel) := of_step _ rfl
theorem deviceLeavesDomain (peer) : Statement (.deviceLeavesDomain peer) := of_step _ rfl
theorem codeObjectBind (spec) : Statement (.codeObjectBind spec) := of_step _ rfl
theorem managementFirmwareLoad (good) : Statement (.managementFirmwareLoad good) := of_step _ rfl

end Sys2Proof.Laws.RoundTrip
end

