-- ==== Sys2Proof/Tests/Slice0.lean ====
section
/-! SUPPORT. Tests: ill-formed terms refused, words of the spec's encoding tables decoded, single steps with results from
the spec's tables, and for each statement a state and operands that meet its hypotheses. -/
namespace Sys2Proof.Tests
open Sys2Proof Sys2Proof.Machine

/-! ### Well-formedness: a term for each check -/

theorem test_wf_refuses_control : ∀ i ∈ [Instr.mode 0x000C, .mode 0x0050, .mode 0x0800, .icmp false .ord 0 (.v 0) (.v 0),
    .vote (.pred 0) (.v 0) .ballot, .vote (.reg (.v 63)) (.v 0) .ballot, .csrr false (.v 0) 9, .csrr false (.v 63) 4,
    .csrw false (.v 0) 4, .waita false false .lane .team 63], i.wf = false := by decide

theorem test_wf_refuses_memory : ∀ i ∈ [Instr.ld false (.v 63) 0 .w64 .normal (.v 0), .st false (.const 0) 0 .w64 .normal (.v 0),
    .lds false (.v 61) .team .w128 (.v 0), .sts false (.v 63) .team .w64 (.v 0), .atom false (.v 0) 0 .fadd true (.v 0),
    .atom false (.v 63) 0 .add true (.v 0), .atom false (.v 0) 0 .cas true (.v 60), .atomNoreturn false 0 .fadd true (.v 0),
    .atomNoreturn false 0 .add false (.const 7), .atoms false (.v 0) .team .fadd true (.v 0),
    .atoms false (.v 63) .team .add true (.v 0), .atoms false (.v 0) .team .add false (.v 63),
    .atomsNoreturn false .team .fadd true (.v 0), .atomsNoreturn false .team .add false (.v 63)], i.wf = false := by decide

theorem test_wf_refuses_units : ∀ i ∈ [Instr.tset false (.v 0) (.v 63), .ldlod false (.v 60) .b16 (.v 0),
    .ldlod false (.v 0) .b4 (.v 62), .sample false (.v 60) (.v 0) (.s 0), .sample false (.v 0) (.v 62) (.s 0),
    .sampleg false (.v 60) (.v 0) (.s 0), .sampleg false (.v 0) (.v 58) (.s 0), .mloadb 63, .mloop 61, .mdrain 62,
    .vxm 49 0 false (.v 0), .vxm 0 49 false (.v 0), .trace 0 57 .any 0, .trace 0 0 .any 59, .hitret (.v 0) 59,
    .repack 0 15 0 49, .repack 0 3 10 8, .visb false 61 0, .cover 58 (.v 0)], i.wf = false := by decide

/-! ### Words of the encoding tables -/

/-- Listing 1.1 of 01_notation.md, and Tables 2.17 and 4.8. -/
theorem test_decode_control : ∀ e ∈ [(0xFF0000F3, Instr.clauseStart 0 (some 0) none 3), (0xFF001FF1, .clauseStart 1 none none 1),
    (0x00000000, .nop), (0x01000000, .exit), (0x02FFFFF4, .bra (BitVec.ofInt 24 (-12))), (0x03100005, .bc false 1 false 5),
    (0x03CFFFFD, .bc true 4 true (BitVec.ofInt 19 (-3))), (0x04100004, .bdiv false 1 4), (0x05000008, .setj 8),
    (0x06000000, .join), (0x07000009, .call 9), (0x08000000, .ret), (0x09000700, .brx (.v 7)), (0x0A008C00, .callx (.s 12)),
    (0x0B000000, .yield_), (0x0C000025, .trap 37), (0x0D000000, .tret), (0x0E005B91, .mode 0x5B91)],
    decodeTableWord 32 e.1 = some e.2 ∧ (encode e.2).toNat = e.1 := by decide +kernel

/-- Listing 1.1, Table 2.17, and the encoding tables of 04 and 05. -/
theorem test_decode_arithmetic : ∀ e ∈ [(0x90858584, Instr.iadd true (.s 5) (.s 5) (.s 4)), (0x10030102, .iadd false (.v 3) (.v 1) (.v 2)),
    (0x94034286, .imad true (.v 3) (.vLast 2) (.s 6)), (0x20040582, .bfe false (.v 4) (.v 5) (.s 2)),
    (0x97894000, .iabs true (.s 9) (.vLast 0)), (0x26238187, .icmp false .lt 3 (.s 1) (.s 7)),
    (0x250001E0, .sel false (.v 0) (.v 1) (.const 0)), (0xA8810004, .iaddi true (.s 1) 4),
    (0x2985FFFE, .movi false (.s 5) 0xFFFE), (0x2A851234, .movhi false (.s 5) 0x1234), (0x2B0200FF, .andi false (.v 2) 255),
    (0xB38441F9, .ffma true (.s 4) (.vLast 1) (.const 25)), (0x38820005, .fcmp false .ltu 2 (.v 0) (.v 5)),
    (0x3E060600, .fsin false (.v 6) (.v 6)), (0x40020200, .frnd false (.v 2) (.v 2)),
    (0x42080229, .cvt false (.v 8) (.v 2) 2 .e4m3x4), (0x43090405, .pack false (.v 9) (.v 4) (.v 5)),
    (0x440A0303, .unpk false (.v 10) (.v 3) true true), (0x450C0102, .fdot2 false (.v 12) (.v 1) (.v 2)),
    (0x46820700, .fclass false (.s 2) (.v 7)), (0x47013FC0, .fmulb false (.v 1) 0x3FC0)],
    decodeTableWord 32 e.1 = some e.2 ∧ (encode e.2).toNat = e.1 := by decide +kernel

/-- Table 7.6, and Table 10.5. -/
theorem test_decode_lanes_and_memory : ∀ e ∈ [(0x490605E1, Instr.shflx (.v 6) (.v 5) (.const 1)), (0x4B030110, .vote (.pred 3) (.v 1) .any),
    (0x4B940103, .vote (.reg (.s 20)) (.v 1) .ballot), (0x4C840708, .lred (.s 4) (.v 7) .fadd),
    (0x4D030180, .lscan (.v 3) (.v 1) true .iadd), (0x4E020010, .elect (.pred 2)),
    (0x60043609, .ld false (.v 4) 1 .w64 .keep (.v 9)), (0x61074403, .st false (.v 7) 2 .n8 .normal (.v 3)),
    (0x62056008, .atom false (.v 5) 3 .add false (.v 8)), (0x620A6F14, .atom false (.v 10) 3 .cas true (.v 20)),
    (0xE2FF6094, .atomNoreturn true 3 .add false (.s 20)), (0x63021006, .lds false (.v 2) .team .w32 (.v 6)),
    (0x64013089, .sts false (.v 1) .peer .w32 (.s 9)), (0xE68800E2, .ldcTable true 2 (.const 2)),
    (0x668C9002, .ldcMemory false 3 4 (.v 2)), (0x67888080, .stc false 2 4 (.s 0)), (0x6D004101, .pref false 2 .l2Only (.v 1)),
    (0x5603108A, .waita false false .core .team 10), (0xDB028800, .xlat true 2 2), (0x5A908C94, .mint false 4 3 5),
    (0x68030482, .tlook false (.v 3) (.v 4) (.s 2)), (0x69008506, .tset false (.s 5) (.v 6)),
    (0x54000017, .fence .rel .device), (0x55002307, .xfence .full .t .v .device), (0x58850001, .csrr false (.s 5) 1),
    (0x59800009, .resdrain false (.s 0))], decodeTableWord 32 e.1 = some e.2 ∧ (encode e.2).toNat = e.1 := by decide +kernel

/-- The encoding tables of 11, 15, 16, 17 and 18. -/
theorem test_decode_units : ∀ e ∈ [(0x6A080800, Instr.ldlod false (.v 8) .b8 (.v 0)), (0xEA940004, .ldlod true (.s 20) .b4 (.v 4)),
    (0x6B0C0084, .sample false (.v 12) (.v 0) (.s 4)), (0x6C100109, .sampleg false (.v 16) (.v 1) (.v 9)),
    (0xD700E0E1, .ckick true (.const 0) (.const 1)), (0x7000A800, .mloadb 40), (0x7100AC00, .mloop 44), (0x7200B000, .mdrain 48),
    (0x730AE0E0, .mdrainv 10 (.const 0) (.const 0)), (0x7400E0F0, .mzero (.const 0) (.const 16)),
    (0x7501F900, .mscale 1 (.const 25)), (0x76144010, .vxm 20 0 true (.v 16)), (0x78FF0008, .trace 255 0 .closest 8),
    (0x78010090, .trace 1 0 .cand 16), (0x79001E10, .hitret (.v 30) 16), (0x7A130A14, .repack 1 3 10 20),
    (0x7B01A8FF, .visb true 40 255), (0x7C000084, .cover 0 (.s 4)), (0x7D9E8400, .compose 30 (.s 4))],
    decodeTableWord 32 e.1 = some e.2 ∧ (encode e.2).toNat = e.1 := by decide +kernel

/-- Table 2.17 and Table 10.6: words that are no instruction. -/
theorem test_decode_refuses : ∀ w ∈ [0x265A0304, 0x26820304, 0x10450102, 0x10C10203, 0x300001DB, 0x0E000800, 0x0E00000C,
    0x04980003, 0x83000004, 0xFF000CF0, 0x7F000000, 0x60001C01, 0x60C20000, 0x603E1801, 0x62057608, 0x62057108, 0x620560E7, 0x63025006, 0x66890002,
    0x54000037, 0x55002907,
    0x0F000000, 0x2F000000, 0x4F000000, 0x5C000000, 0x6E000000, 0x77000000, 0x7E000000], decodeTableWord 32 w = none := by
  decide +kernel

/-! ### Single steps -/

/-- The state of `placeWord` with its group changed. -/
def tState (f : Group → Group) : State :=
  let s := State.reset.placeWord 0
  { s with groups := s.groups.map f }

/-- The path of slot 0 changed. -/
def onPath (f : Path → Path) (g : Group) : Group := g.mapSlot 0 f

/-- The mode of the path. -/
def inMode (m : Half) : State := tState (onPath (fun p => { p with mode := m }))

/-- The mode of the path, and v registers with one word in every lane. -/
def withV (m : Half) (l : List (Nat × Word)) : State :=
  tState (fun g => { (onPath (fun p => { p with mode := m }) g) with
    v := (upto 64).map (fun n => (l.find? (fun e => e.1 = n)).map (fun e => { lanes := List.replicate 64 e.2 })) })

/-- v register n in lane 5, and FPSTAT, after an outcome. -/
def after (r : Result) (n : Nat) : Option (Word × BitVec 6) :=
  match r with
  | .next t => (t.group? 3).map (fun g => (g.vLane n 5, g.bank0.fpstat))
  | .fault _ => none
  | .refused _ => none

/-- The path of slot 0 after an outcome. -/
def pathAfter (r : Result) : Option Path :=
  match r with
  | .next t => (t.group? 3).bind Group.slot0
  | .fault _ => none
  | .refused _ => none

/-- Table 4.2. -/
theorem test_integer_results :
    after (exec (.iadd false (.v 3) (.v 1) (.v 2)) (withV 5 [(1, 0x7FF00005), (2, 0x0020FFFA)])) 3 = some (0x8010FFFF, 0) ∧
    after (exec (.iadd false (.v 3) (.v 1) (.v 2)) (withV 0x85 [(1, 0x7FF00005), (2, 0x0020FFFA)])) 3 = some (0x7FFFFFFF, flSATD) ∧
    after (exec (.imulh false (.v 3) (.v 1) (.v 2)) (withV 3 [(1, 0x80000000), (2, 3)])) 3 = some (0xFFFFFFFE, 0) ∧
    after (exec (.imulh false (.v 3) (.v 1) (.v 2)) (withV 4 [(1, 0x80000000), (2, 3)])) 3 = some (1, 0) ∧
    after (exec (.imad true (.v 3) (.v 1) (.v 2)) (withV 0x87 [(1, 0x0110F07F), (2, 0x01020202), (3, 0x10)])) 3 =
      some (0x0120E07F, flSATD) ∧
    after (exec (.iabs false (.v 3) (.v 1)) (withV 0x83 [(1, 0x80000000)])) 3 = some (0x7FFFFFFF, flSATD) := by decide +kernel

/-- Tables 4.4 and 4.5, and the example of R65. -/
theorem test_shift_results :
    after (exec (.shl false (.v 3) (.v 1) (.v 2)) (withV 5 [(1, 0x00018001), (2, 0x00100001)])) 3 = some (0x00000002, 0) ∧
    after (exec (.sar false (.v 3) (.v 1) (.v 2)) (withV 5 [(1, 0x00018001), (2, 0x00100001)])) 3 = some (0x0000C000, 0) ∧
    after (exec (.rol false (.v 3) (.v 1) (.v 2)) (withV 5 [(1, 0x00018001), (2, 0x00100001)])) 3 = some (0x00010003, 0) ∧
    after (exec (.bfe false (.v 3) (.v 1) (.v 2)) (withV 4 [(1, 0xF0F01234), (2, 0x081C)])) 3 = some (0x0000000F, 0) ∧
    after (exec (.bfe false (.v 3) (.v 1) (.v 2)) (withV 3 [(1, 0xF0F01234), (2, 0x081C)])) 3 = some (0xFFFFFFFF, 0) ∧
    after (exec (.bfi false (.v 3) (.v 1) (.v 2)) (withV 3 [(1, 0x12), (2, 0x0804), (3, 0xFFFFFFFF)])) 3 = some (0xFFFFF12F, 0) ∧
    after (exec (.clz false (.v 3) (.v 1)) (withV 6 [(1, 0xF1)])) 3 = some (0x00100008, 0) ∧
    after (exec (.popc false (.v 3) (.v 1)) (withV 6 [(1, 0xF1)])) 3 = some (5, 0) := by decide +kernel

/-- Tables 5.4 and 5.6, and the examples of R92 and R95. -/
theorem test_float_results :
    after (exec (.frnd false (.v 3) (.v 1)) (withV 0x40 [(1, 0x40200000)])) 3 = some (0x40400000, flNX) ∧
    after (exec (.ffrac false (.v 3) (.v 1)) (withV 0 [(1, 0xBE99999A)])) 3 = some (0x3F333333, 0) ∧
    after (exec (.cvt false (.v 8) (.v 2) 2 .e4m3x4) (withV 0 [(2, 0x43FA0000), (8, 0x0000AA38)])) 8 =
      some (0x007FAA38, flOF ||| flNX) ∧
    after (exec (.fdot2 false (.v 3) (.v 1) (.v 2)) (withV 1 [(1, 0x00103C00), (2, 0x3C003C00), (3, 0)])) 3 =
      some (0x3F800000, 0) ∧
    after (exec (.unpk false (.v 10) (.v 3) true true) (withV 7 [(3, 0x89AB7F01)])) 10 = some (0xF8F9FAFB, 0) := by decide +kernel

/-- R72, R75, R79, R30: a branch to offset −12 from byte 48, a call by the register that it writes, a trap, a mode. -/
theorem test_control_results :
    (pathAfter (exec (.bra (BitVec.ofInt 24 (-9))) (tState (onPath (fun p => { p with pc := 48 }))))).map Path.pc = some 12 ∧
    (pathAfter (exec (.callx (.s 63)) (tState (fun g => g.setBank 0 (g.bank0.writeS 63 32))))).map Path.pc = some 32 ∧
    (pathAfter (exec (.trap 37) (tState (fun g => g)))).map Path.stopped = some true ∧
    (pathAfter (exec (.mode 0x0085) (tState (fun g => g)))).map Path.mode = some 0x0085 := by decide +kernel

/-- The state of the group's half after an outcome. -/
def bankAfter (r : Result) : Option Bank :=
  match r with
  | .next t => (t.group? 3).map Group.bank0
  | .fault _ => none
  | .refused _ => none

/-- A step from reset with a word placed runs it: IADD of two unmapped registers sets UNMAPPED (R108); an undefined word
raises ILLEGAL (R41); FADD under an integer type raises ILLTYPE (Table 2.17). -/
theorem test_step_runs_the_word :
    (bankAfter (step (State.reset.withFetchWord 32 0x10030102))).map Bank.unmapped = some true ∧
    (bankAfter (step (State.reset.withFetchWord 32 0x7F000000))).map (fun b => b.raised.map Trap.cause) = some [.illegal] ∧
    (bankAfter (exec (.fadd false (.v 0) (.v 1) (.v 2)) (inMode 3))).map (fun b => b.raised.map Trap.cause) = some [.illtype] ∧
    (pathAfter (step (State.reset.withFetchWord 32 0xFF0000F3))).map Path.clause =
      some (some { seta := some 0, setb := none, left := 4 }) := by decide +kernel

/-- The example of R168: lane 40 of v5 of group slot 18 on core 9 of die 1. -/
theorem test_window_address :
    ((tState (fun g => { g with core := 73, index := 1, pos := 2 })).windowGroup 0 0x00FE0000049485A0).map Group.id = some 3 ∧
    ((tState (fun g => { g with core := 73, index := 1, pos := 3 })).windowGroup 0 0x00FE0000049485A0).map Group.id = none ∧
    bits 0x00FE0000049485A0 13 8 = 5 ∧ windowByte 0x00FE0000049485A0 0 = (40, 0) := by
  refine ⟨?_, ?_, ?_, ?_⟩ <;> decide +kernel

/-! ### Hypotheses that hold somewhere: words that issue -/

/-- The word of an instruction issues on a state's current path, and a condition holds of it. -/
def Meets (i : Instr) (s : State) (cond : Issue → Bool) : Prop := ∃ c cl, Issuing i s c cl ∧ cond c = true

/-- `Meets`, computed. -/
def issues (i : Instr) (s : State) (cond : Issue → Bool) : Bool :=
  match s.issue? with
  | none => false
  | some c =>
    match c.p.clause with
    | none => false
    | some cl => i.wf && !misplaced i cl && !c.mustStop i && !c.holds i cl && !c.meetsPoison i && cond c

theorem issues_sound {i : Instr} {s : State} {cond : Issue → Bool} (h : issues i s cond = true) : Meets i s cond := by
  unfold issues at h
  split at h
  · cases h
  · rename_i c hc
    split at h
    · cases h
    · rename_i cl hcl
      simp only [Bool.and_eq_true, Bool.not_eq_true'] at h
      exact ⟨c, cl, ⟨hc, hcl, h.1.1.1.1.1, h.1.1.1.1.2, h.1.1.1.2, h.1.1.2, h.1.2⟩, h.2⟩

theorem issues_all {l : List (Instr × State)} {cond : Issue → Bool} (h : l.all (fun e => issues e.1 e.2 cond) = true) :
    ∀ e ∈ l, Meets e.1 e.2 cond :=
  fun e he => issues_sound (List.all_eq_true.mp h e he)

/-- Several instructions on one state. -/
def onState (s : State) (l : List Instr) : List (Instr × State) := l.map (fun i => (i, s))

/-- The integer instructions. -/
def integers : List Instr := [.iadd true (.v 1) (.s 2) (.const 3), .isub false (.v 1) (.s 2) (.const 3),
  .imul false (.s 63) (.v 2) (.vLast 3), .imulh true (.v 1) (.s 2) (.const 3), .imad false (.v 1) (.p 2) (.special .lane),
  .imin false (.v 1) (.s 2) (.const 3), .imax false (.v 1) (.s 2) (.const 3), .iabs false (.v 1) (.s 2),
  .iaddi false (.v 1) 5, .imuli true (.s 1) 5, .and false (.v 1) (.s 2) (.const 3), .or false (.v 1) (.s 2) (.const 3),
  .xor false (.v 1) (.s 2) (.const 3), .andn true (.v 1) (.s 2) (.const 3), .movi false (.v 1) 5, .movhi false (.v 1) 5,
  .andi false (.v 1) 5, .ori false (.v 1) 5, .xori false (.v 1) 5, .shl false (.v 1) (.s 2) (.const 3),
  .shr false (.v 1) (.s 2) (.const 3), .sar false (.v 1) (.s 2) (.const 3), .rol false (.v 1) (.s 2) (.const 3),
  .bfe false (.v 1) (.s 2) (.const 3), .bfi false (.v 1) (.s 2) (.const 3), .popc false (.v 1) (.s 2),
  .clz false (.v 1) (.s 2), .brev true (.v 1) (.s 2), .icmp false .le 7 (.v 1) (.const 3)]

/-- The float instructions. -/
def floats : List Instr := [.fadd false (.v 1) (.v 2) (.const 3), .fsub true (.v 1) (.v 2) (.const 3),
  .fmul false (.s 1) (.v 2) (.const 3), .ffma false (.v 1) (.v 2) (.const 3), .fmin false (.v 1) (.v 2) (.const 3),
  .fmax false (.v 1) (.v 2) (.const 3), .fabs false (.v 1) (.v 2), .fneg false (.v 1) (.v 2), .fmulb false (.v 1) 5,
  .frcp false (.v 1) (.v 2), .frsq false (.v 1) (.v 2), .fsqrt false (.v 1) (.v 2), .fexp2 false (.v 1) (.v 2),
  .flog2 false (.v 1) (.v 2), .fsin false (.v 1) (.v 2), .fcos true (.v 1) (.v 2), .frnd false (.v 1) (.v 2),
  .ffrac false (.v 1) (.v 2), .fclass false (.v 1) (.v 2), .fcmp false .uno 7 (.v 1) (.const 3),
  .fdot2 false (.v 1) (.v 2) (.const 3)]

/-- IntegerArithmeticByElement, LogicActsOnWholeWords, ShiftsAndBitFields, CompareSelectMove. -/
theorem wit_integers : ∀ e ∈ onState (inMode 3) integers, Meets e.1 e.2 (fun c =>
    decide (intType (modeType c.p.mode) = some (true, 32))) := issues_all (by decide +kernel)

theorem wit_integerResult : (0 < 8 ∧ intMin true 8 ≤ 127 ∧ (127 : Int) ≤ intMax true 8) ∧ (-129 : Int) < intMin true 8 ∧
    intMax true 8 < (128 : Int) ∧ 3 < 32 / 8 := by decide

theorem wit_selectAndMove : ∀ e ∈ onState (inMode 0x7000) [.sel false (.v 1) (.s 2) (.const 3), .mov true (.s 1) (.p 2)],
    Meets e.1 e.2 (fun _ => true) := issues_all (by decide +kernel)

/-- WrongTypeRaisesIlltype: both clauses. -/
theorem wit_wrongType : (∀ e ∈ onState (inMode 9) integers, Meets e.1 e.2 (fun c =>
      decide (intType (modeType c.p.mode) = none))) ∧
    ∀ e ∈ onState (inMode 8) floats, Meets e.1 e.2 (fun c => decide (floatType (modeType c.p.mode) = none)) :=
  ⟨issues_all (by decide +kernel), issues_all (by decide +kernel)⟩

/-- FloatArithmetic, FloatFunctions, FloatCompareAndDot: under f32, where FDOT2 raises ILLTYPE, and under bf16x2. -/
theorem wit_floats : (∀ e ∈ onState (inMode 0) floats, Meets e.1 e.2 (fun c =>
      decide (floatType (modeType c.p.mode) = some .fp32))) ∧
    ∀ e ∈ onState (inMode 2) floats, Meets e.1 e.2 (fun c => decide (floatType (modeType c.p.mode) = some .bf16)) :=
  ⟨issues_all (by decide +kernel), issues_all (by decide +kernel)⟩

/-- ConversionsByElement: each branch. -/
theorem wit_conversions : ∀ e ∈ [(Instr.cvt false (.v 8) (.v 2) 3 .e4m3x4, inMode 0), (.cvt false (.v 8) (.v 2) 4 .e4m3x4, inMode 0),
    (.cvt true (.v 8) (.v 2) 1 .f32, inMode 1), (.pack false (.v 8) (.v 2) (.v 3), inMode 11), (.pack false (.v 8) (.v 2) (.v 3), inMode 0),
    (.unpk false (.v 8) (.v 2) true true, inMode 7), (.unpk false (.v 8) (.v 2) true false, inMode 0),
    (.unpk false (.v 8) (.v 2) false true, inMode 2), (.unpk false (.v 8) (.v 2) false true, inMode 9),
    (.unpk false (.v 8) (.v 2) false true, inMode 4)], Meets e.1 e.2 (fun _ => true) := issues_all (by decide +kernel)

/-- ShufflesReadAnotherLane, VotesAndElections. -/
theorem wit_lanes : ∀ e ∈ onState (inMode 3) [.shfl (.v 1) (.v 2) (.v 3), .shflx (.v 1) (.v 2) (.const 1), .shflup (.v 1) (.v 2) (.const 16),
    .vote (.pred 3) (.v 1) .any, .vote (.reg (.s 3)) (.v 1) .all, .vote (.reg (.v 3)) (.v 1) .eq, .vote (.reg (.s 62)) (.v 1) .ballot,
    .elect (.pred 3), .elect (.reg (.v 3)), .elect (.reg (.s 3))], Meets e.1 e.2 (fun _ => true) := issues_all (by decide +kernel)

/-- ReductionsAndScans: an operation that has the type, and one that has not. -/
theorem wit_reductions : (∀ e ∈ onState (inMode 3) [.lred (.v 1) (.v 2) .iadd, .lscan (.v 1) (.v 2) true .iadd, .lscan (.v 1) (.v 2) false .iadd],
      Meets e.1 e.2 (fun c => (redType .iadd (modeType c.p.mode)).isSome)) ∧
    ∀ e ∈ onState (inMode 3) [.lred (.v 1) (.v 2) .fadd, .lscan (.v 1) (.v 2) true .fadd],
      Meets e.1 e.2 (fun c => (redType .fadd (modeType c.p.mode)).isNone) :=
  ⟨issues_all (by decide +kernel), issues_all (by decide +kernel)⟩

/-- PathWordsChangeTheirPath, CsrrReadsTheRegister, CsrwAndMscaleWriteTheHalf, and the trap of PreciseFaultStopsItsPath. -/
theorem wit_pathWords : ∀ e ∈ onState (inMode 3) ([.nop, .mode 0x5B91, .setj 8, .resdrain true (.s 0), .trap 255, .mscale 7 (.s 2),
      .csrr false (.v 62) 4] ++ ([0, 1, 2, 3, 5, 6, 7, 8].map (fun n => .csrr true (.s 63) n)) ++ ([0, 1, 2, 3].map (fun n => .csrw false (.v 1) n))),
    Meets e.1 e.2 (fun c => c.p.pjoin.isNone) := issues_all (by decide +kernel)

/-- A register s63 of the half. -/
def withLink (w : Word) : State := tState (fun g => g.setBank 0 (g.bank0.writeS 63 w))

/-- TransfersGoToTheirTarget. -/
theorem wit_transfers : ∀ e ∈ onState (withLink 0xFFFFFFFC) [.bra 5, .bc true 7 true 5, .call 5, .ret, .brx (.const 16), .callx (.s 63)],
    Meets e.1 e.2 (fun c => decide ((c.bank.sreg 63).toNat % 4 = 0) && decide ((c.src .control (.const 16) 0).toNat % 4 = 0)) :=
  issues_all (by decide +kernel)

/-- MisalignedTargetRaisesMisalign. -/
theorem wit_misaligned : ∀ e ∈ onState (withLink 1) [.ret, .brx (.const 3), .callx (.s 63)],
    Meets e.1 e.2 (fun c => decide ((c.bank.sreg 63).toNat % 4 ≠ 0) && decide ((c.src .control (.const 3) 0).toNat % 4 ≠ 0)) :=
  issues_all (by decide +kernel)

/-- HeaderStartsItsClause: flags zero and not, a header and a word out of their places. -/
theorem wit_headers :
    (∃ c, (tState (onPath (fun p => { p with clause := none, flags := putNth 0 p.flags 11 63 }))).issue? = some c ∧
      c.p.clause = none ∧ c.g.faulting c.half = false ∧ c.g.demote ≠ some (1 - c.k) ∧ c.g.owed = [] ∧ c.s.draining c.p = false ∧
      c.s.sectionStopped c.g.core = false ∧ c.p.flag 0 = 0 ∧ c.p.flag 11 ≠ 0) ∧
    (∃ c, (tState (fun g => g)).issue? = some c ∧ c.p.clause ≠ none) ∧ Instr.nop.latency ≠ .header ∧ Instr.nop.latency ≠ .deviceStep := by
  refine ⟨⟨_, rfl, ?_⟩, ⟨_, rfl, ?_⟩, ?_⟩ <;> decide +kernel

/-- A second path in slot 1, with the upper lanes, and predicate 1 in the lanes of a mask. -/
def split (f : Path → Path) (g : Group) : Group :=
  let g : Group := g.mapSlot 0 (fun p => { p with mask := 0xFF })
  { g with slot1 := some (f { newPath 0 0xFF00 with pjoin := some 64 }) }

/-- Predicate 1 in the lanes of a mask. -/
def withP1 (m : DWord) (g : Group) : Group := { g with p := putNth 0 g.p 1 m }

/-- A spill stack of n sets that wait elsewhere. -/
def stacked (n : Nat) (g : Group) : Group :=
  g.setBank 0 { g.bank0 with spill := List.replicate n (.pathSet { pc := 128, pjoin := some 256, mask := 0xFF0000, mode := 0 }) }

/-- BdivSplitsThePath: its five clauses. -/
theorem wit_bdiv : (∀ e ∈ [(Instr.bdiv false 1 4, tState (withP1 0)), (.bdiv false 1 4, tState (withP1 (BitVec.allOnes 64))),
      (.bdiv true 1 4, tState (withP1 1))], Meets e.1 e.2 (fun c => c.g.otherFree c.k)) ∧
    Meets (.bdiv false 1 4) (tState (fun g => withP1 1 (split (fun q => q) g))) (fun c =>
      !c.g.otherFree c.k && decide (0 < c.g.spillRoom c.half) && c.g.noJoin) ∧
    Meets (.bdiv false 1 4) (tState (fun g => stacked 64 (withP1 1 (split (fun q => q) g)))) (fun c =>
      !c.g.otherFree c.k && decide (c.g.spillRoom c.half = 0)) :=
  ⟨issues_all (by decide +kernel), issues_sound (by decide +kernel), issues_sound (by decide +kernel)⟩

/-- A pending join on the path of slot 0. -/
def joining (g : Group) : Group := onPath (fun p => { p with pjoin := some 64 }) g

/-- SetjSavesThePendingJoin: its clauses. -/
theorem wit_setj :
    Meets (.setj 4) (tState joining) (fun c => c.other.isNone && decide (1 ≤ c.g.spillRoom c.half) && c.g.noJoin) ∧
    Meets (.setj 4) (tState (fun g => stacked 64 (joining g))) (fun c => c.other.isNone && decide (c.g.spillRoom c.half = 0)) ∧
    Meets (.setj 4) (tState (fun g => stacked 63 (joining (split (fun q => q) g)))) (fun c =>
      c.other.isSome && decide (c.g.spillRoom c.half < 2)) ∧
    Meets (.setj 4) (tState (fun g => joining (split (fun q => { q with park := .barrier 9 }) g))) (fun c =>
      decide (c.other.map Path.demotable = some false) && decide (2 ≤ c.g.spillRoom c.half)) ∧
    Meets (.setj 4) (tState (fun g => stacked 62 (joining (split (fun q => q) g)))) (fun c =>
      decide (c.other.map Path.demotable = some true) && decide (2 ≤ c.g.spillRoom c.half)) :=
  ⟨issues_sound (by decide +kernel), issues_sound (by decide +kernel), issues_sound (by decide +kernel),
    issues_sound (by decide +kernel), issues_sound (by decide +kernel)⟩

/-- JoinParksAndReconverges: its clauses. -/
theorem wit_join :
    Meets .join (tState (fun g => g)) (fun c => c.p.pjoin.isNone) ∧
    Meets .join (tState joining) (fun c => !c.g.ganged && (c.g.slot (1 - c.k)).isNone && c.bank.spill.isEmpty) ∧
    Meets .join (tState (fun g => joining (g.setBank 0 { g.bank0 with spill := [.savedJoin 96] }))) (fun c =>
      !c.g.ganged && (c.g.slot (1 - c.k)).isNone && decide (c.bank.spill = [.savedJoin 96])) ∧
    Meets .join (tState (fun g => joining (split (fun q => q) g))) (fun c => !c.g.ganged && c.bank.spill.isEmpty &&
      decide ((c.g.slot (1 - c.k)).map (fun q => (q.pjoin, q.atJoin)) = some (c.p.pjoin, none))) :=
  ⟨issues_sound (by decide +kernel), issues_sound (by decide +kernel), issues_sound (by decide +kernel), issues_sound (by decide +kernel)⟩

/-- ExitEndsThePath, YieldOwesTheOthersAClause. -/
theorem wit_exit :
    Meets .exit (tState (split (fun q => q))) (fun c => !c.g.ganged &&
      decide ((c.g.slot (1 - c.k)).map Path.atJoin = some none)) ∧
    Meets .exit (tState (stacked 1)) (fun c => !c.g.ganged && (c.g.slot (1 - c.k)).isNone && !c.bank.spill.isEmpty) ∧
    Meets .exit (tState (fun g => g)) (fun c => (c.g.slot (1 - c.k)).isNone && c.g.bank0.spill.isEmpty && c.g.bank1.spill.isEmpty &&
      c.g.pend.isEmpty && c.g.bank0.raised.isEmpty && c.g.bank1.raised.isEmpty) ∧
    Meets .yield_ (tState (fun g => g)) (fun c => c.g.noJoin) :=
  ⟨issues_sound (by decide +kernel), issues_sound (by decide +kernel), issues_sound (by decide +kernel), issues_sound (by decide +kernel)⟩

/-- The words of AccessesTakeTheirPlace. -/
def accesses : List Instr := [.ld false (.v 60) 7 .w128 .normal (.v 1), .st true (.s 1) 0 .w32 .keep (.v 1), .atom false (.v 1) 0 .cas true (.v 59),
  .atomNoreturn false 0 .umax false (.v 1), .lds false (.v 1) .peer .n8 (.v 2), .sts false (.v 1) .team .w64 (.s 2),
  .atoms false (.s 1) .team .add false (.v 2), .atomsNoreturn true .peer .exch true (.v 1), .ldcTable false 15 (.const 1),
  .ldcMemory false 1 3 (.v 1), .stc false 1 3 (.v 1), .xlat false 7 2, .mint false 1 2 3, .tlook false (.v 1) (.v 2) (.s 3),
  .tset false (.v 1) (.v 2), .pref false 1 .l2Keep (.v 2), .lnchN false 1 (.const 0), .enq true 1 (.v 3),
  .ldlod false (.v 1) .b16 (.v 61), .sample false (.v 1) (.v 2) (.s 3), .sampleg false (.v 1) (.v 57) (.v 3), .vxm 48 16 true (.v 1),
  .trace 255 56 .any 58, .hitret (.v 1) 58, .cover 57 (.s 1)]

/-- AccessesTakeTheirPlace: with a mask, and with an empty one (GUARD 1 where p1 is 0). -/
theorem wit_accesses : (∀ e ∈ onState (inMode 3) accesses, Meets e.1 e.2 (fun c => decide (c.emask ≠ 0))) ∧
    ∀ e ∈ onState (inMode 0x0103) accesses, Meets e.1 e.2 (fun c => decide (c.emask = 0)) :=
  ⟨issues_all (by decide +kernel), issues_all (by decide +kernel)⟩

/-- The group's team has barriers. -/
def withBarriers (s : State) : State := { s with teams := s.teams.map (fun t => { t with nbar := 4 }) }

/-- ParkingWordsParkTheirPath: with a mask and with an empty one; REPACK alone and not. -/
theorem wit_parking : (∀ e ∈ onState (inMode 3) [.lnchW false 1 (.const 0), .waita false true .device (.global 2) 62, .repack 0 0 10 20],
      Meets e.1 e.2 (fun c => decide (c.emask ≠ 0))) ∧
    (∀ e ∈ onState (inMode 0x0103) [.lnchW false 1 (.const 0), .waita false true .device (.global 2) 62],
      Meets e.1 e.2 (fun c => decide (c.emask = 0))) ∧
    Meets (.repack 0 0 10 20) (tState (split (fun q => q))) (fun c => c.other.isSome) ∧
    Meets (.repack 0 0 10 20) (inMode 3) (fun c => !c.g.ganged && c.other.isNone && c.bank.spill.isEmpty &&
      c.s.numbered.repackFault c.g 0 0) ∧
    Meets (.repack 3 0 10 20) (withBarriers (inMode 3)) (fun c => !c.g.ganged && c.other.isNone && c.bank.spill.isEmpty &&
      !c.s.numbered.repackFault c.g 3 0) :=
  ⟨issues_all (by decide +kernel), issues_all (by decide +kernel), issues_sound (by decide +kernel), issues_sound (by decide +kernel),
    issues_sound (by decide +kernel)⟩

/-- CommandsTakeTheirPlace, OperandsAreCapturedAtIssue. -/
theorem wit_commands : (∀ e ∈ onState (inMode 3) [.fence .full .system, .xfence .rel .v .c .die, .mloadb 62, .mdrain 61, .mzero (.const 0) (.const 16),
      .compose 30 (.s 4), .visb true 60 255, .mloop 60, .mdrainv 1 (.const 0) (.const 0), .ckick false (.const 0) (.const 1)],
      Meets e.1 e.2 (fun c => decide (c.emask ≠ 0) && c.p.clause.isSome)) ∧
    Meets (.ckick false (.const 0) (.const 1)) (inMode 0x0103) (fun c => decide (c.emask = 0)) ∧
    1 < (unitSources (Instr.reads 0 (.st false (.v 1) 0 .w32 .normal (.v 2)))).length :=
  ⟨issues_all (by decide +kernel), issues_sound (by decide +kernel), by decide +kernel⟩

/-- BarrierArrivalsAreCounted, BarrierWaitsForItsPhase: illegal, not the last, the last; no record, a record, a completed one. -/
theorem wit_barriers :
    (∀ e ∈ onState (inMode 3) [.barArrive (.const 0) (.const 1), .barSync (.const 0) (.const 1), .barWait (.const 0)], Meets e.1 e.2 (fun c =>
      decide ((c.s.team? c.g.team).map Team.nbar = some 0))) ∧
    (∀ e ∈ onState (withBarriers (inMode 3)) [.barArrive (.const 3) (.const 1), .barSync (.const 3) (.const 2)], Meets e.1 e.2 (fun c =>
      decide ((c.s.team? c.g.team).map (fun t => (t.nbar, (c.s.numbered.barrierAt t 3).arrivals, (c.s.numbered.barrierAt t 3).count)) =
        some (4, 0, none)) && c.g.pend.all (fun r => !r.awaits 3 false))) ∧
    (∀ e ∈ [none, some (false, false), some (false, true)], Meets (.barWait (.const 3))
      (withBarriers (tState (fun g => { g with bars := putNth none g.bars 3 e }))) (fun c => decide (nth c.g.bars 3 none = e))) :=
  ⟨issues_all (by decide +kernel), issues_all (by decide +kernel), fun e he => issues_sound (by revert e; decide +kernel)⟩

/-! ### Hypotheses that hold somewhere: groups and instructions in flight -/

/-- A condition holds of group 3 of a state. -/
def GroupMeets (s : State) (cond : Group → Bool) : Prop := ∃ g, s.group? g.id = some g ∧ cond g = true

/-- `GroupMeets`, computed. -/
def groupHas (s : State) (cond : Group → Bool) : Bool :=
  match s.group? 3 with
  | none => false
  | some g => decide (g.id = 3) && cond g

theorem groupHas_sound {s : State} {cond : Group → Bool} (h : groupHas s cond = true) : GroupMeets s cond := by
  unfold groupHas at h
  split at h
  · cases h
  · rename_i g hg
    simp only [Bool.and_eq_true, decide_eq_true_eq] at h
    exact ⟨g, by rw [h.1]; exact hg, h.2⟩

/-- An instruction in flight in the group, and a condition of both. -/
def Flying (s : State) (cond : Group → Pend → Bool) : Prop :=
  ∃ g p, s.group? g.id = some g ∧ g.pend? p.id = some p ∧ cond g p = true

/-- `Flying`, computed for instruction 9. -/
def flies (s : State) (cond : Group → Pend → Bool) : Bool :=
  groupHas s (fun g => match g.pend? 9 with
    | none => false
    | some p => decide (p.id = 9) && cond g p)

theorem flies_sound {s : State} {cond : Group → Pend → Bool} (h : flies s cond = true) : Flying s cond := by
  obtain ⟨g, hg, h⟩ := groupHas_sound h
  dsimp only at h
  split at h
  · cases h
  · rename_i p hp
    simp only [Bool.and_eq_true, decide_eq_true_eq] at h
    exact ⟨g, p, hg, by rw [h.1]; exact hp, h.2⟩

/-- The four bytes at physical address 0x10100, for lane 0. -/
def lane0 (n : Nat) : LaneAccess := { lane := 0, off := 0x100, runs := [{ pa := some 0x10100, len := n, mtype := 0 }] }

/-- Instruction 9 in flight in lane 0. -/
def tPend (i : Instr) : Pend :=
  { id := 9, instr := i, pc := 0, mode := 3, lmask := 1, half := 0, owner0 := true, owner1 := false, flag := some 0,
    xcap := some {}, lanes := [lane0 4], todo := [(0, 0)] }

/-- The state with instructions in flight, the team with a window, barriers, accumulator rows and tags. -/
def flying (l : List Pend) : State :=
  let s := tState (fun g => { g with v := putNth none g.v 1 (some { lanes := List.replicate 64 0 }), pend := l })
  { s with teams := s.teams.map (fun t => { t with nbar := 4, scratchSize := 4096, accrows := 64, tags := 64 }) }

/-- The state with something of core 0 changed. -/
def onCore (f : Core → Core) (s : State) : State := s.setCore 0 (f (s.coreAt 0))

/-- JoinTableRows: rows 1, 2, 3, 5, 4, 4 and 6, 7. -/
theorem wit_joinTable :
    let top := fun (pc : Word) => SpillEntry.pathSet { pc := pc, pjoin := some 64, mask := 0xFF0000, mode := 0 }
    let own := fun (g : Group) => decide (g.slot0.map Path.pjoin = some (some 64)) && !g.ganged
    GroupMeets (tState (fun g => joining (g.setBank 0 { g.bank0 with spill := [top 64] }))) (fun g => own g && decide (g.bank0.spill = [top 64])) ∧
    GroupMeets (tState (fun g => joining (split (fun q => { q with park := .join 5 }) g))) (fun g => own g && g.bank0.spill.isEmpty &&
      decide (g.slot1.map (fun q => (q.pjoin, q.atJoin)) = some (some 64, some 5))) ∧
    GroupMeets (tState (fun g => joining (g.setBank 0 { g.bank0 with spill := [top 32] }))) (fun g => own g && g.slot1.isNone &&
      decide (g.bank0.spill = [top 32])) ∧
    GroupMeets (tState (fun g => joining (split (fun q => { q with pjoin := none }) (g.setBank 0 { g.bank0 with spill := [top 32] })))) (fun g =>
      own g && decide (g.slot1.map Path.pjoin = some none) && decide (g.bank0.spill = [top 32])) ∧
    GroupMeets (tState (fun g => joining (split (fun q => q) (g.setBank 0 { g.bank0 with spill := [top 32] })))) (fun g =>
      own g && decide (g.slot1.map (fun q => (q.pjoin, q.atJoin)) = some (some 64, none)) && decide (g.bank0.spill = [top 32])) ∧
    GroupMeets (tState (fun g => joining (split (fun q => q) g))) (fun g => own g && g.bank0.spill.isEmpty &&
      decide (g.slot1.map Path.atJoin = some none)) ∧
    GroupMeets (tState (fun g => joining (g.setBank 0 { g.bank0 with spill := [.savedJoin 96] }))) (fun g => own g && g.slot1.isNone) := by
  refine ⟨?_, ?_, ?_, ?_, ?_, ?_, ?_⟩ <;> exact groupHas_sound (by decide +kernel)

/-- AccessChecksStandInOrder: each check, and a fault of two lanes. -/
theorem wit_checks : (3 % 4 ≠ 0) ∧ (4 % 4 = 0 ∧ ({} : XReg).bound.toNat < 4 + 4) ∧
    (4 % 4 = 0 ∧ 4 + 4 ≤ ({ bound := 8 } : XReg).bound.toNat ∧ hasPerm ({ bound := 8 } : XReg).perm (Need.perm .load) = false) ∧
    (∃ t, laneFault [(0, badLane .perm 0 4), (1, badLane .misalign 0 3)] = some t) := by
  refine ⟨by decide, by decide, by decide, _, rfl⟩

/-- CompletionLowersTheFlag: a flag that has risen, and one that has not. -/
theorem wit_completion : Flying (flying [tPend .nop]) (fun g p => decide (p.flag = some 0) &&
      decide (g.slot0.map (fun q => (q.rise p.flag).flag 0) = some 1) && decide (g.slot0.map (fun q => q.flag 0) = some 0)) :=
  flies_sound (by decide +kernel)

/-- LoadReturnsTheBytesOfMemory: what its clauses ask of a load, whose one part a sector returns. -/
theorem wit_load : Flying (flying [{ tPend (.ld false (.v 1) 0 .w32 .normal (.v 2)) with vdst := [(1, 1)] }]) (fun g p =>
      decide (p.status = .inFlight) && p.due.isEmpty && g.mayPerform p && !(flying []).accessWaits g p && decide ((p.xcap.getD {}).type ≠ 4) &&
      (g.before p).all (fun r => !writesV r.instr) && p.todo.all (fun e => (p.lanes.find? (fun y => y.lane = e.1)).isSome) &&
      g.mapped 1 && decide (elementSector (lane0 4) 0 = some 0x808)) ∧
    (flying []).channelCopies = [] ∧ (flying []).poison = [] ∧ ((flying []).coreAt 0).buffer = [] ∧ ((flying []).coreAt 0).readCache = [] :=
  ⟨flies_sound (by decide +kernel), by decide +kernel⟩

/-- A store in flight. -/
def tStore (st : Stage) : Pend := { tPend (.st false (.const 1) 0 .w32 .normal (.v 2)) with stage := st }

/-- A load of 4 bytes at another sector, before the store; it stands at a stage, and belongs to path 0 or to path 1. -/
def tLoad (st : Stage) (owner0 : Bool) (pa : Nat) : Pend :=
  { tPend (.ld false (.v 1) 0 .w32 .normal (.v 2)) with
    id := 8, stage := st, owner0 := owner0, owner1 := !owner0, lanes := [{ lane := 0, off := 0x180, runs := [{ pa := some pa, len := 4, mtype := 0 }] }] }

/-- StoreReachesMemory: behind an earlier store, behind a load that was sent to its sector, first in its queue, ahead of an
earlier load, in the core's buffer behind another and first there. -/
theorem wit_store :
    Flying (flying [{ tStore .queued with id := 8 }, tStore .queued]) (fun g p => decide (p.stage = .queued) && g.atRest &&
      !((flying [{ tStore .queued with id := 8 }, tStore .queued]).sendLoads g p).mayPerform p) ∧
    Flying (flying [tLoad .atCore false 0x10104, tStore .queued]) (fun g p => decide (p.stage = .queued) &&
      (flying [tLoad .atCore false 0x10104, tStore .queued]).readAhead g.core p) ∧
    Flying (flying [tStore .queued]) (fun g p => decide (p.stage = .queued) && g.atRest && !(flying []).accessWaits g p && ((flying [tStore .queued]).sendLoads g p).mayPerform p &&
      !(flying [tStore .queued]).readAhead g.core p) ∧
    Flying (flying [tLoad .queued true 0x10180, tStore .queued]) (fun g p => !g.mayPerform p &&
      ((flying [tLoad .queued true 0x10180, tStore .queued]).sendLoads g p).mayPerform p &&
      !(flying [tLoad .queued true 0x10180, tStore .queued]).readAhead g.core p) ∧
    Flying (onCore (fun k => { k with buffer := [{ group := 3, pend := 8, bytes := [(0x10100, 1)] }, { group := 3, pend := 9, bytes := [(0x10101, 1)] }] }) (flying [tStore .atCore])) (fun g p =>
      g.atRest && decide (p.stage = .atCore)) ∧
    Flying (onCore (fun k => { k with buffer := [{ group := 3, pend := 9, bytes := [(0x10101, 1)] }] }) (flying [tStore .atCore])) (fun g p =>
      g.atRest && decide (p.stage = .atCore) && decide ((p.xcap.getD {}).type ≠ 4)) ∧
    0 < (flying []).cores.length ∧ Memory.wf (flying []).mem = true := by
  refine ⟨flies_sound ?_, flies_sound ?_, flies_sound ?_, flies_sound ?_, flies_sound ?_, flies_sound ?_, ?_, ?_⟩ <;> decide +kernel

/-- The stages of the instructions in flight after an outcome. -/
def stagesAfter (r : Result) : Option (List Stage) :=
  match r with
  | .next t => (t.group? 3).map (fun g => g.pend.map Pend.stage)
  | .fault _ => none
  | .refused _ => none

/-- Table 12.10, load buffering: a store goes on while an earlier load of its path to another sector is outstanding, and not
where it touches its sector; a load that was sent holds a store of its core to its sector. -/
theorem test_load_buffering :
    stagesAfter (exec (.storePerformed 3 9) (flying [tLoad .queued true 0x10180, tStore .queued])) = some [.atCore, .atCore] ∧
    stagesAfter (exec (.storePerformed 3 9) (flying [tLoad .queued true 0x10104, tStore .queued])) = some [.queued, .queued] ∧
    stagesAfter (exec (.storePerformed 3 9) (flying [tLoad .atCore false 0x10104, tStore .queued])) = some [.atCore, .queued] := by
  refine ⟨?_, ?_, ?_⟩ <;> decide +kernel

/-- AtomicReadsAndWritesMemory: its two forms. -/
theorem wit_atomic : ∀ i ∈ [Instr.atomNoreturn false 0 .add false (.v 2), .atom false (.v 1) 0 .cas true (.v 2)],
    Flying (flying [{ tPend i with vdst := [(1, 1)] }]) (fun g p => g.mayPerform p && !(flying []).accessWaits g p &&
      (flying []).drained g p (p.lanes.map LaneAccess.runs).flatten && !(flying []).readAhead g.core p && p.todo.all (fun e => (p.lanes.find? (fun y => y.lane = e.1)).isSome)) :=
  fun i hi => flies_sound (by revert i; decide +kernel)

/-- ScratchpadAccessesActOnTheWindow: its four forms. -/
theorem wit_scratch : ∀ i ∈ [Instr.lds false (.v 1) .team .w32 (.v 2), .sts false (.v 1) .team .w32 (.v 2),
      .atoms false (.v 1) .team .add false (.v 2), .atomsNoreturn false .team .add true (.v 2)],
    Flying (flying [{ tPend i with vops := List.replicate 3 (List.replicate 64 0) }]) (fun g p => decide (p.status = .inFlight) && g.mayPerform p &&
      !(flying []).accessWaits g p && p.due.isEmpty && decide (p.todo = [(0, 0)]) && ((flying []).lateTcopy g p .team 8).isNone && ((flying []).scratchPoison g p .team 8).isEmpty && ((flying []).scratchTarget g .team (p.offset g 0) 8).isSome) :=
  fun i hi => flies_sound (by revert i; decide +kernel)

/-- CapabilityAndTagWordsReturn: its words, and an XLAT behind an earlier one to its register. -/
theorem wit_capWords : (∀ i ∈ [Instr.ldcTable false 1 (.const 2), .ldcMemory false 1 0 (.v 2), .mint false 1 2 3, .xlat false 7 2,
      .tlook false (.v 1) (.v 2) (.s 3), .tset false (.v 2) (.v 4), .pref false 0 .l2Only (.v 2)],
    Flying (flying [{ tPend i with lanes := [lane0 16], vops := List.replicate 3 (List.replicate 64 0), sdst := [4, 5, 6, 7] }]) (fun g p =>
      decide (p.status = .inFlight) && p.due.isEmpty && p.vdst.isEmpty && g.mayPerform p && !(flying []).accessWaits g p && (flying []).tagTurn g p &&
      decide (p.accessLanes = [0]) && (flying []).drained g p (p.lanes.map LaneAccess.runs).flatten && ((flying []).contextOf g).isSome &&
      ((flying []).team? g.team).isSome && !g.xlatBefore p 7 && !(flying []).dieHeld (g.core / 64))) ∧
    Flying (flying [{ tPend (.xlat false 7 2) with id := 8 }, tPend (.xlat false 7 2)]) (fun g p => g.mayPerform p && g.xlatBefore p 7) :=
  ⟨fun i hi => flies_sound (by revert i; decide +kernel), flies_sound (by decide +kernel)⟩

/-- A launch parameter block of one team of one group at physical address 0x10100. -/
def withBlock (s : State) : State :=
  { s with mem := memWriteList s.mem (withAddresses 0x10100 (leBytes 128
      (2 + 2 ^ 64 + 2 ^ 96 + 2 ^ 128 + 2 ^ 160 + 2 ^ 168 + 2 ^ 176))) }

/-- A launch in flight with its block. -/
def tLaunch (i : Instr) : Pend := { tPend i with lanes := [lane0 128] }

/-- Every grid completed. -/
def gridsDone (s : State) : State := { s with grids := s.grids.map (fun d => { d with completed := true }) }

/-- An ENQ record at physical address 0x10100, tagged: a capability of the block at 0x10200, which asks for 1 KiB of scratchpad. -/
def withRecord (s : State) : State :=
  { s with
    mem := memWriteList s.mem (withAddresses 0x10100 (leBytes 16 (mkCap 0 128 permR 0x200).toNat) ++ withAddresses 0x10200 (leBytes 128
      (2 + 2 ^ 64 + 2 ^ 96 + 2 ^ 128 + 2 ^ 160 + 2 ^ 168 + 2 ^ 176 + 1024 * 2 ^ 192)))
    tags := [0x1010] }

/-- A launch in flight may be made, and its block is good. -/
def mayLaunch (s : State) (g : Group) (p : Pend) : Bool :=
  decide (p.status = .inFlight) && decide (p.stage = .queued) && s.launchTurn g p && s.launchDrained g p &&
    (match (s.markNodes g p).launch g p with
      | .ok _ => true
      | .error _ => false)

/-- Core 0 has a store on its way. -/
def onTheWay (s : State) : State := onCore (fun k => { k with buffer := [{ group := 5, pend := 8, bytes := [(0x10100, 1)] }] }) s

/-- WaitsFencesAndLaunchesComplete: fences with and without an earlier access; a fence that drains, with a store on its way, and
behind one that has gone; the classes of an XFENCE; a wait, launches, the end of an LNCH .w. -/
theorem wit_waits :
    Flying (flying [tPend (.fence .rel .device)]) (fun g p => fenceDone .rel .device g p && decide (p.status = .inFlight) &&
      !(flying []).accessWaits g p) ∧
    Flying (flying [tPend (.fence .full .core)]) (fun g p => fenceDone .full .core g p) ∧
    Flying (flying [{ tStore .queued with id := 8 }, tPend (.fence .full .device)]) (fun g p => !fenceDone .full .device g p) ∧
    (∀ aux ∈ [[], [8], [7]], Flying (onTheWay (flying [{ tPend (.fence .rel .device) with aux := aux }])) (fun g p =>
      fenceDone .rel .device g p && decide (p.aux = aux) &&
        decide ((((onTheWay (flying [])).coreAt g.core).buffer).map CoreWrite.pend = [8]))) ∧
    (∀ ca ∈ [PathClass.v, .h, .p, .c, .m, .t, .y, .k], Flying (flying [tPend (.xfence .full ca .v .device)]) (fun g p =>
      classDone (flying []) .v ca .full .device g p && (flying []).texturesDone g .device && !(flying []).accessWaits g p)) ∧
    Flying (flying [tPend (.xfence .rel .v .m .device)]) (fun g p => classDone (flying []) .m .v .rel .device g p) ∧
    Flying (flying [{ tPend (.mloadb 2) with id := 8 }, tPend (.xfence .rel .v .m .device)]) (fun g p =>
      !classDone (flying []) .m .v .rel .device g p) ∧
    Flying (flying [tPend (.waita false true .device .team 2)]) (fun g p => g.mayPerform p && decide (p.status = .inFlight) &&
      ((flying []).waitaWord g p).1.isSome) ∧
    (∀ i ∈ [Instr.lnchN false 0 (.const 0), .lnchW false 0 (.const 0)], Flying (withBlock (flying [tLaunch i]))
      (mayLaunch (withBlock (flying [tLaunch i])))) ∧
    Flying (withRecord (flying [tLaunch (.enq false 0 (.const 0))])) (mayLaunch (withRecord (flying []))) ∧
    Flying (gridsDone (flying [{ tPend (.lnchW false 0 (.const 0)) with stage := .atCore, aux := [1] }])) (fun _ p => decide (p.stage = .atCore) && decide (p.aux = [1])) :=
  ⟨flies_sound (by decide +kernel), flies_sound (by decide +kernel), flies_sound (by decide +kernel),
    fun aux ha => flies_sound (by revert aux; decide +kernel), fun ca hc => flies_sound (by revert ca; decide +kernel),
    flies_sound (by decide +kernel), flies_sound (by decide +kernel), flies_sound (by decide +kernel), fun i hi => flies_sound (by revert i; decide +kernel),
    flies_sound (by decide +kernel), flies_sound (by decide +kernel)⟩

/-- A unit's result that is due in lane 0 of v1. -/
def tDue (i : Instr) : Pend := { tPend i with todo := [], vdst := [(1, 1)], due := [(0, 1, [7])] }

/-- A yealm of empty stages, with n words of plain body. -/
def tYealm (n : Nat) : Yealm :=
  { id := 5, vs := ⟨[], [], []⟩, fs := ⟨[], [], []⟩, frags := {}, plain := ⟨64, List.replicate n 0, [], [], []⟩ }

/-- An optimisation queued on die 0, with its yealm. -/
def optimising (step outLen n : Nat) : State :=
  { (flying []).setDie 0 { optQueue := [{ yealm := 5, runs := [], outLen := outLen, step := step }] } with yealms := [tYealm n] }

/-- Whether the yealm gets a composed body: whether its plain body has a word for each stretch of glue. -/
theorem body_iff (n : Nat) (seed : List Byte) : (composedBody (tYealm n) seed).isSome = true ↔ 3 ≤ n := by
  have h1 : isListing (tYealm n).vs (tYealm n).fs (tYealm n).frags = false := (by decide +kernel : isListing (tYealm 0).vs (tYealm 0).fs (tYealm 0).frags = false)
  have h2 : composedVertex (tYealm n).frags (tYealm n).vs (keptSlots (tYealm n).vs (tYealm n).fs) = [] :=
    (by decide +kernel : composedVertex (tYealm 0).frags (tYealm 0).vs (keptSlots (tYealm 0).vs (tYealm 0).fs) = [])
  have h3 : foldStage (tYealm n).frags (tYealm n).fs = [] := (by decide +kernel : foldStage (tYealm 0).frags (tYealm 0).fs = [])
  have h5 : (tYealm n).plain.words.length = n := List.length_replicate
  have h6 : sumNat ([([] : List Word), []].map List.length) = 0 := rfl
  unfold composedBody
  simp only [h1, h2, h3, h5, Bool.false_eq_true, if_false, h6, Nat.sub_zero]
  split
  · simp; omega
  · simp; omega

theorem body_large (seed : List Byte) : (composedBody (tYealm 1200) seed).isSome = true := (body_iff 1200 seed).mpr (by decide)

theorem body_none (seed : List Byte) : (composedBody (tYealm 0) seed).isSome = false :=
  Bool.eq_false_iff.mpr (fun h => absurd ((body_iff 0 seed).mp h) (by decide))

theorem makeBody_off (seed : List Byte) (salt : Nat → Nat) (off : Nat) (slots : List IfaceEntry) (sizes : List Nat)
    (codes : List (List Word)) : (makeBody seed salt off slots sizes codes).off = off := rfl

theorem composedBody_off {y : Yealm} {seed : List Byte} {b : YealmBody} (h : composedBody y seed = some b) :
    b.off = 64 + 4 * y.plain.words.length := by
  unfold composedBody at h
  split at h <;> simp only [Option.ite_none_left_eq_some, Option.some.injEq] at h <;> rw [← h.2, makeBody_off]

/-- Whether a result is one. -/
def succeeds {α : Type} (r : Except Trap α) : Bool :=
  match r with
  | .ok _ => true
  | .error _ => false

/-- The context's table holds a capability of virtual page 1 in slot 1, and the page may be read and written. -/
def readable (s : State) : State :=
  { s with
    contexts := s.contexts.map (fun c => { c with slots := c.slots ++ [(1, mkCap 0 65536 (permR ||| permW) 65536, true)] })
    mem := memWriteList s.mem (withAddresses 0x8008 (leBytes 8 0x2006F)) }

/-- A window with the map of 32 rows of 32 fp16 elements that stand at 256, and a loft. -/
def matrices : State :=
  let s := flying []
  { s with teams := s.teams.map (fun t => { t with
      loftMode := 1
      scratch := memWriteList [] (withAddresses 0 (leBytes 16 (32 * 2 ^ 16 + 32 * 2 ^ 32 + 64 * 2 ^ 64 + 256 * 2 ^ 96))) }) }

/-- A VXM in flight for lane 0, whose weights stand at an offset of virtual page 1. -/
def tVxm (off : Word) : Pend :=
  { tPend (.vxm 16 32 true (.v 1)) with
    xcap := some (capRegister (mkCap 0 65536 permR 65536)), vdst := (upto 16).map (fun k => (16 + k, 1)),
    vops := List.replicate 16 (List.replicate 64 0) ++ [List.replicate 64 off] }

/-- EngineAndUnitResultsComplete: commands of the engine, results of the units, a due result, operands of the commands that pass their
checks, a VXM of a lane with weights and of one without, an optimisation in each step, one whose body fits, passes OUT_LEN or is none. -/
theorem wit_engines :
    (∀ i ∈ [Instr.mloadb 2, .mloop 2, .mdrain 2, .vxm 16 32 true (.v 1), .ldlod false (.v 1) .b4 (.v 2), .sample false (.v 1) (.v 2) (.s 2),
        .sampleg false (.v 1) (.v 2) (.s 2), .trace 1 2 .any 16, .hitret (.v 1) 16, .cover 2 (.s 1), .visb true 2 255, .repack 0 0 1 2],
      Flying (flying [tPend i]) (fun g p => decide (p.status = .inFlight) && p.due.isEmpty && p.seen.isNone && g.resident &&
        (flying []).engineTurn g p && (flying []).unitTurn g p && ((flying []).team? g.team).isSome && !(flying []).unitWaits g)) ∧
    Flying (flying [{ tPend (.mzero (.const 0) (.const 16)) with vops := [], sops := [] }]) (fun g p =>
      let w := fun j => (p.op g .control j (lowestLane p.lmask)).toNat
      (flying []).engineTurn g p && g.atRest && g.slot0.isSome && (g.before p).all (fun r => r.readDone) && decide (w 1 ≠ 0) &&
        decide (w 0 + w 1 ≤ 64) && decide (((flying []).team? g.team).map (fun t => (t.accrows, t.preempted)) = some (64, false))) ∧
    Flying (flying [{ tPend (.mdrainv 1 (.const 0) (.const 16)) with aux := [0] }]) (fun g p =>
      (flying []).engineTurn g p && decide ((p.op g .control 0 0).toNat ≤ 511) && decide ((p.op g .control 1 0).toNat < 64)) ∧
    Flying (flying [tPend (.compose 16 (.s 4))]) (fun g p => !(flying []).unitWaits g && !(flying []).composerSpent g &&
      (g.before p).all (fun q => q.readDone || !isScratch q.instr || isWaita q.instr)) ∧
    (∀ i ∈ [Instr.sample false (.v 1) (.v 2) (.s 2), .trace 1 2 .any 16], Flying (flying [tDue i]) (fun g p =>
      (isRay p.instr || isTexture p.instr) && decide (p.due = [(0, 1, [7])]) && p.todo.isEmpty && g.atRest && g.slot0.isSome && g.mapped 1 &&
        decide (g.laterLanes p 1 = 0))) ∧
    (optimising 0 64 0).dieHeld 0 = false ∧ (∀ c ∈ (optimising 0 64 0).contexts, c.spentOut (.composer 0) = false) ∧
    (((matrices.team? 2).map (fun tm => (tm.id, Memory.wf tm.scratch, succeeds (matrices.mloadb tm 0 0),
      succeeds (matrices.mloop tm [0, 8, 0x101, 0] 0), succeeds (matrices.mdrain tm 0 128 0)))) = some (2, true, true, true, true)) ∧
    (Flying (readable (flying [tVxm 0])) (fun g p => match (readable (flying [])).contextOf g with
        | none => false
        | some c => p.due.isEmpty && p.sdst.isEmpty && g.atRest && decide (p.vdst.map (fun e => e.1)).Nodup &&
            decide (nth (nth p.vops 16 []) 0 0 = (0 : Word)) &&
            (match (readable (flying [])).checkAccess g.core c (p.xcap.getD {}) .load true 64 2048 0 with
              | .ok _ _ => true
              | .bad _ _ _ _ _ => false)) ∧
      Flying (flying [tVxm 0xFFFFFFFF]) (fun g p => g.atRest && decide (nth (nth p.vops 16 []) 0 0 = (0xFFFFFFFF : Word)))) ∧
    (∀ step outLen n, ∃ j, ((optimising step outLen n).dieAt 0).optQueue = [j] ∧ j.step = step ∧ j.outLen = outLen ∧
      (optimising step outLen n).yealms.find? (fun y => y.id = j.yealm) = some (tYealm n) ∧
      ∀ z ∈ (optimising step outLen n).yealms, z.id = j.yealm → isListing z.vs z.fs z.frags = false) ∧
    (∃ b, composedBody (tYealm 1200) (composeSeed (tYealm 1200).vs (tYealm 1200).fs (tYealm 1200).frags) = some b ∧
      0 < b.off + 4 * b.words.length) ∧ 0 < (optimising 0 64 0).dies.length ∧
    composedBody (tYealm 0) (composeSeed (tYealm 0).vs (tYealm 0).fs (tYealm 0).frags) = none ∧
    ∃ k : Known, ∀ i, decoded 0 = some i → k.eval i = none := by
  refine ⟨fun i hi => flies_sound (by revert i; decide +kernel), flies_sound (by decide +kernel), flies_sound (by decide +kernel),
    flies_sound (by decide +kernel), fun i hi => flies_sound (by revert i; decide +kernel), by decide +kernel, by decide +kernel, by decide +kernel,
    ⟨flies_sound (by decide +kernel), flies_sound (by decide +kernel)⟩, ?_, ?_, by decide +kernel, ?_, ⟨{}, by decide +kernel⟩⟩
  · intro step outLen n
    refine ⟨_, rfl, rfl, rfl, List.find?_cons_of_pos (by rfl), ?_⟩
    intro z hz _
    rw [List.mem_singleton.mp hz]
    exact (by decide +kernel : isListing (tYealm 0).vs (tYealm 0).fs (tYealm 0).frags = false)
  · obtain ⟨b, hb⟩ := Option.isSome_iff_exists.mp (body_large _)
    refine ⟨b, hb, ?_⟩
    rw [composedBody_off hb]
    omega
  · exact Option.not_isSome_iff_eq_none.mp (by rw [body_none]; decide)

/-! ### Hypotheses that hold somewhere: the rest of the device -/

/-- A copy request of 4 bytes inside a scratchpad, to offset 0x100, at a scope, which signals a word at 0x200, or counts an object
down. -/
def copyBits (signals : Bool) (scope extra : Nat) : Nat :=
  0x100 * 2 ^ 64 + 4 * 2 ^ 96 + 0x200 * 2 ^ 288 + scope * 2 ^ 404 + (if signals then 2 ^ 408 else 0) + 3 * 2 ^ 410 + extra

/-- The team's scratchpad begins with a copy list of one request. -/
def withList (s : State) : State :=
  { s with teams := s.teams.map (fun t => { t with scratch := memWriteList [] (withAddresses 0 (leBytes 64 (copyBits true 7 0))) }) }

/-- A copy request with n source bytes delivered. -/
def tCopy (n : Nat) (bits : Nat) : CopyReq :=
  { id := 20, ctx := 0, grid := 1, team := 2, group := 3, half := 0, offset := 0, bits := BitVec.ofNat 512 bits, src := 0, dst := 0, done := n }

/-- Core 0 has a copy request, and writes of it that it holds. -/
def copying (r : CopyReq) (held : List CoreWrite) : State := onCore (fun k => { k with copies := [r], buffer := held }) (flying [])

/-- A write of the copy request that its core holds. -/
def tHeld : List CoreWrite := [{ group := 3, pend := 20, bytes := [(0x10100, 1)] }]

/-- CopyRequestsArePerformed: the fetch of a list that is misaligned, empty, or good; a request that is to deliver, and one that its
core holds writes of; that has not ended at its scope; that has a map to update, that signals, that counts down. -/
theorem wit_copies :
    (∀ e ∈ [(1, 1), (0, 0)], Flying (flying [tPend (.ckick false (.const (Fin.ofNat 32 e.1)) (.const (Fin.ofNat 32 e.2)))]) (fun g p =>
      g.mayPerform p && decide ((p.op g .control 0 0).toNat = e.1) && decide ((p.op g .control 1 0).toNat = e.2))) ∧
    Flying ((withList (flying [tPend (.ckick false (.const 0) (.const 1))])).poisonPlace (.scratchWord 2 60)) (fun g p => g.mayPerform p &&
      ((((withList (flying [])).poisonPlace (.scratchWord 2 60)).team? g.team).map (fun t => t.poisoned 0 64)).getD false) ∧
    Flying (withList (flying [tPend (.ckick false (.const 0) (.const 1))])) (fun g p => g.mayPerform p &&
      (match (withList (flying [])).team? 2, (withList (flying [])).contextOf g with
        | some t, some c => (kickFate c t 0 [{ tCopy 0 0 with bits := BitVec.ofNat 512 (leValue ((withList (flying [])).scratchRead t 0 64)) }]).isNone
        | _, _ => false)) ∧
    (∀ e ∈ [(tCopy 0 (copyBits true 7 0), []), (tCopy 0 (copyBits true 7 0), tHeld), (tCopy 4 (copyBits true 7 0), tHeld),
        (tCopy 4 (copyBits true 7 (2 ^ 409)), []), (tCopy 4 (copyBits true 3 0), tHeld), (tCopy 4 (copyBits false 7 0), [])],
      (copying e.1 e.2).copyReq? 0 20 = some e.1 ∧ ((copying e.1 e.2).context? e.1.ctx).isSome = true ∧ e.1.service = none ∧
        (copying e.1 e.2).copyHeld 0 20 = !e.2.isEmpty ∧
        ((copying e.1 e.2).team? e.1.team).map (fun t => ((copying e.1 e.2).engineTcopy t e.1.sigOff 12).isNone) = some true) ∧
    ((tCopy 0 (copyBits true 7 0)).delivered = false ∧ (tCopy 4 (copyBits true 7 0)).scope ≠ 3 ∧ (tCopy 4 (copyBits true 7 0)).delivered = true ∧
      (tCopy 4 (copyBits true 7 (2 ^ 409))).map = true ∧ (tCopy 4 (copyBits true 3 0)).signals = true ∧ (tCopy 4 (copyBits true 3 0)).scope = 3 ∧
      (tCopy 4 (copyBits false 7 0)).map = false ∧ (tCopy 4 (copyBits false 7 0)).signals = false) ∧
    (([copying (tCopy 4 (copyBits false 7 0)) [], (copying (tCopy 4 (copyBits false 7 0)) []).poisonPlace (.scratchWord 2 0x208)].map (fun s =>
      (s.team? 2).map (fun t => t.poisoned (tCopy 4 (copyBits false 7 0)).sigOff 12))) = [some false, some true]) :=
  ⟨fun e he => flies_sound (by revert e; decide +kernel), flies_sound (by decide +kernel), flies_sound (by decide +kernel), by decide +kernel,
    by decide +kernel, by decide +kernel⟩

/-- The context changed. -/
def onContext (f : Context → Context) (s : State) : State := { s with contexts := s.contexts.map f }

/-- GutterEntriesAndItsCounts: a pending entry; a full ring and one with room; counts that are equal and not. -/
theorem wit_gutter :
    (∀ c ∈ [([(1, 0, 5)], 0), ([], 0), ([], 5)], ((onContext (fun x => { x with gutPending := c.1, guthead := c.2 }) (flying [])).context? 0).map
      (fun x => (x.gutPending, x.guthead)) = some c) ∧
    (flying []).dieHeld 0 = false ∧ 64 < ((0 : Word) - 1).toNat ∧ ((5 : Word) - 5).toNat ≤ 64 := by decide +kernel

/-- A deque on some core. -/
def withDeque (core count : Nat) (s : State) : State :=
  s.setCore core { s.coreAt core with deque := [{ grid := 1, first := 0, count := count }] }

/-- A record of clusters of two teams with the management cores, no team on the device. -/
def placing : State :=
  let s := flying []
  { s with placements := [{ grid := 1, first := 0, count := 2 }], teams := [], groups := [],
           grids := s.grids.map (fun d => { d with lpb := { d.lpb with clw := 2, gx := 4 } }) }

/-- The first record from which core 0 may start a team, with its place, whether none stands before it, and what it needs. -/
def firstStart (s : State) : Option (List Nat × RecordPlace × Nat × List Nat × Bool) :=
  match s.startable 0 with
  | [] => none
  | (rank, place, n, r) :: _ => (s.grid? r.grid).map (fun d => (rank, place, n, ((rectangle 0 d.lpb).getD []).filter (fun k => s.fits k d),
      r.die.isNone && s.tileTurn d 0 r.first && !s.savedFirst 0 rank))

/-- A second queue of the context, reserved, whose grid 8 waits for core 0 with teams of a size. -/
def reserving (size : Nat) (s : State) : State :=
  let s := s.setCore 0 { s.coreAt 0 with deque := [{ grid := 8, first := 0, count := 1 }] }
  { s with
    contexts := s.contexts.map (fun c => { c with queues := c.queues ++ [{ id := 1, period := 10, budget := 5 }] })
    grids := s.grids.flatMap (fun d => [d, { d with id := 8, lpb := { d.lpb with queue := 1, scratch := size } }]) }

/-- A record of a draw's grid in the overflow deque of the context. -/
def overflowing : State :=
  let s := flying []
  { s with
    contexts := s.contexts.map (fun c => { c with overflow := [{ grid := 1, first := 0, count := 2, die := some 0 }] })
    grids := s.grids.map (fun d => { d with seq := some 0 }) }

/-- TeamsStartAndAreStolen: a record of the core's deque, of the management cores for a cluster of two, and of an overflow deque; an
absent core and a saved team that comes first keep it from starting; queues that reserve and that do not; a core that is robbed. -/
theorem wit_teams :
    firstStart (withDeque 0 1 (flying [])) = some ([1, 0], .deque, 0, [0], true) ∧ 0 < (flying []).cores.length ∧
    firstStart placing = some ([1, 0], .placements, 0, [0, 1], true) ∧
    ((overflowing.startable 0).map (fun e => (e.2.1, e.2.2.2.die)) = [(.overflow 0, some 0)] ∧ (overflowing.grid? 1).map (fun d =>
      (overflowing.fits 0 d, overflowing.tileTurn d 0 0, overflowing.savedFirst 0 [1, 0])) = some (true, true, false)) ∧
    (onCore (fun k => { k with absent := true }) (withDeque 0 1 (flying []))).startable 0 = [([1, 0], .deque, 0, { grid := 1, first := 0, count := 1 })] ∧
    ((flying []).grid? 1).map (fun d => (onCore (fun k => { k with absent := true }) (flying [])).fits 0 d) = some false ∧
    (let s := reserving 0 (flying []);
      (s.grid? 8).map s.rank = some [0, 10000, 0, 1] ∧ (s.grid? 1).map s.rank = some [1, 0] ∧
        (s.context? 0).map (fun c => ((c.queues.find? (fun q => q.id = 1)).map (fun q => (q.period, q.overrun, q.consumed)))) =
          some (some (10, false, 0))) ∧
    (let s := withDeque 1 5 (flying []);
      (s.coreAt 0).deque = [] ∧ (stealOrder 0).head? = some 1 ∧ (s.coreAt 1).deque.getLast? = some { grid := 1, first := 0, count := 5 } ∧
        s.stealable 0 { grid := 1, first := 0, count := 5 } = true) := by
  refine ⟨?_, ?_, ?_, ?_, ?_, ?_, ?_, ?_⟩ <;> decide +kernel

/-- Two groups, 3 and 7, of one issue slot. -/
def twoGroups (f h : Group → Group) : State :=
  let s := State.reset.placeWord 0
  { s with groups := s.groups.flatMap (fun g => [f g, h { g with id := 7, index := 4, pos := 1 }]) }

/-- A group stands in the pending set. -/
def waits (g : Group) : Group := { g with res := .pending }

/-- Eight groups that hold the registers of a pool; one stands before a word that asks for one more. -/
def fullPool : State :=
  let s := State.reset.placeWord 0x10030102
  { s with groups := s.groups.flatMap (fun g => (upto 8).map (fun i =>
    { onPath (fun p => if i < 7 then { p with park := .barrier 9 } else p) g with
      id := 3 + i, index := 4 * i, pos := i, v := (upto 64).map (fun n => some { lanes := [], reg := (3 + i, n) }) })) }

/-- The group away from its core. -/
def awayState (r : Residency) : State := tState (fun g => { g with res := r })

/-- A group that waits for sheaf 30, which is there. -/
def missing : State :=
  let s := tState (fun g => onPath (fun p => { p with park := .sheafMiss }) { g with sheaf := some 30 })
  { s with sheaves := [{ id := 30, ctx := 0, grid := 1, v := [], s := [], stag := [], p := [], x := [], mode := 0, pjoin := none, mask := 0,
                         trapvec := 0, lines := 0, scratch := [], depth := 1, start := 0, imageCap := 0 }] }

/-- GroupsAndTeamsChangePlaces: its clauses. -/
theorem wit_places :
    (let s := twoGroups (onPath (fun p => { p with park := .barrier 9 })) waits;
      (s.group? 3).map (fun g => (g.res, s.longWait g)) = some (.active, true) ∧ (s.oldestPending 0 0).map Group.id = some 7) ∧
    (let s := twoGroups (fun g => g) waits;
      (s.group? 7).map (fun g => (g.res, s.hasEligible g)) = some (.pending, true) ∧
        (stalest ((s.slotGroups 0 0).filter (fun h => h.res = .active))).map Group.id = some 3) ∧
    ((fullPool.poolVictim 0 0).isSome = true ∧ fullPool.quiet = true) ∧
    (let s := awayState .evicted;
      (s.group? 3).map (fun g => decide (max g.footprint g.roomFor ≤ s.poolFree g.core 0) && decide (g.awayUntil ≤ s.clock.toNat) && !g.resident &&
        decide (s.slotPlaces g.core 0 < 16) && ((s.team? g.team).map (fun t => !t.preempted)).getD false && !(s.coreAt g.core).absent &&
        decide (s.sectorEntries g.core + sectorsBack g.pend ≤ 2048)) = some true) ∧
    ((missing.sheaf? 30).isSome = true ∧ (missing.coreAt 0).store = [] ∧ 0 < missing.cores.length) ∧
    (let s : State := { awayState .preempted with teams := (awayState .preempted).teams.map (fun t => { t with preempted := true }) };
      (s.team? 2).map (fun t => (t.preempted, (s.placesFor t).map (fun l => l.map (fun e => (e.1.id, e.2))))) = some (true, some [(2, 0)]) ∧
        s.incoming 0 ≠ [] ∧ (s.grid? 1).map (fun d => (s.incoming 0).any (fun w => rankBefore w.rank (s.rank d))) = some false ∧
        ((reserving 0 s).grid? 1).map (fun d => ((reserving 0 s).incoming 0).any (fun w => rankBefore w.rank ((reserving 0 s).rank d) &&
          (reserving 0 s).fitsBut 0 w.grid w.frozen w.but)) = some true) ∧
    (let s := reserving 524288 (flying []);
      (s.incoming 0).map (fun w => (w.rank, w.grid.id, s.victims 0 w)) = [([0, 10000, 0, 1], 8, some ([], [2]))] ∧
        ∀ w ∈ s.incoming 0, s.victims 0 w ≠ some ([3], [])) := by
  refine ⟨?_, ?_, ?_, ?_, ?_, ?_, ?_⟩ <;> decide +kernel

/-- The context's queue changed. -/
def onQueue (f : Queue → Queue) (s : State) : State := onContext (fun c => { c with queues := c.queues.map f }) s

/-- A fault of a page at virtual address 0x10100. -/
def pageTrap : Trap := { cause := .page, faddr := 0x10100 }

/-- An answer that maps virtual page 1 to the physical page at 0x20000. -/
def mapsPage : ServiceAnswer := .mapped 0x8008 0x2006F

/-- An LD of virtual page 1 that waits for a service. -/
def serving (s : State) : State :=
  { s with groups := s.groups.map (fun g => { g with pend := [{ tPend (.ld false (.v 1) 0 .w32 .normal (.v 2)) with
      status := .service pageTrap, xcap := some (capRegister (mkCap 0 65536 permR 65536)), vops := List.replicate 2 (List.replicate 64 0x100) }] }) }

/-- TimersAndServices: a slot that starves a group; queues; a faulting half and one that is not; both fates of an answer. -/
theorem wit_timers :
    (∀ n ∈ [0, 1, 2], let s := onContext (fun c => { c with watchdogAction := n }) (twoGroups (fun g => { g with issued := 5 }) (fun g => waits { g with hungry := true }));
      (busiest (s.slotGroups 0 0)).map Group.id = some 3 ∧ (s.slotGroups 0 0).any (fun h => h.hungry && decide (h.issued = 0) && s.hasEligible h) = true ∧
        (s.context? 0).map Context.watchdogAction = some n) ∧
    (∀ n ∈ [0, 3000], ((onQueue (fun q => { q with period := 9, budget := 2, consumed := n }) (flying [])).queue? 0 0).map
      (fun q => (q.period, q.overrun, decide (1000 * q.budget.toNat < q.consumed))) = some (9, false, decide (n = 3000))) ∧
    (flying []).queueCores 0 0 = [0] ∧
    GroupMeets (tState (fun g => g.setBank 0 { g.bank0 with raised := [trIllegal] })) (fun g => g.faulting 0) ∧
    GroupMeets (flying []) (fun g => !g.faulting 0) ∧
    Flying (flying [{ tPend (.ld false (.v 1) 0 .w32 .normal (.v 2)) with status := .service pageTrap }]) (fun _ p =>
      decide (p.status = .service pageTrap) && decide (p.instr ≠ .nop) && decide (p.instr ≠ .tret)) ∧
    ((flying []).context? 0).map (fun c => (((flying []).answered c pageTrap mapsPage).2, ((flying []).answered c pageTrap .declined).2)) =
      some (true, false) ∧
    Flying (serving (flying [])) (fun g p => match (flying []).context? 0 with
      | none => false
      | some c =>
        let r := ((serving (flying [])).answered c pageTrap mapsPage).1.checkPend g { p with status := .inFlight, served := some pageTrap }
        !pageTrap.againIn r.1.status && !r.1.isFaulted) := by
  refine ⟨?_, ?_, ?_, groupHas_sound ?_, groupHas_sound ?_, flies_sound ?_, ?_, flies_sound ?_⟩ <;> decide +kernel

/-- A half with a fault, a handler at 0x100 and an instruction that waits, and a frame region in virtual page 1. -/
def trapped (b : Bank → Bank) : State :=
  let s := tState (fun g => onPath (fun p => { p with stopped := true })
    { g.setBank 0 (b { g.bank0 with raised := [trIllegal], trapvec := 0x100 }) with
      pend := [{ tPend (.ld false (.v 1) 0 .w32 .normal (.v 2)) with status := .waitOnly, vdst := [(1, 1)] }] })
  onContext (fun c => { c with slots := c.slots ++ [(1, mkCap 0 65536 (permR ||| permW) 65536, true)] })
    { s with mem := memWriteList s.mem (withAddresses 0x8008 (leBytes 8 0x2006F)) }

/-- A live frame. -/
def tLive : LiveFrame := { frame := 0, trap := trIllegal, entries := [], ssave := [0, 0, 0, 0], stag := false, spillDepth := 0 }

/-- A fault of group 3 that may be taken: what else holds of the group, its context and the frame region. -/
def takes (s : State) (cond : Group → Context → XReg → Bool) : Bool :=
  groupHas s (fun g => g.resident && g.readyFrame 0 && !s.dieHeld (g.core / 64) && (g.firstTrap 0).isSome && g.bank0.raised.all (fun r => decide (r.user = none)) &&
    (match s.contextOf g with
      | none => false
      | some c => match s.frameCap c with
        | none => false
        | some x => cond g c x))

/-- A user trap of path 0 that has been raised. -/
def tUser : Trap := { cause := .trap 37, pc := 64, seq := 7, user := some (0, { seta := none, setb := none, left := 2 }) }

/-- TakingATrap: under a handler, without one, with a frame that cannot be written, and with one that can; a user trap
that another fault's frame does not report. -/
theorem wit_trap :
    takes (trapped (fun b => { b with live := some tLive })) (fun g _ _ => g.bank0.live.isSome) = true ∧
    takes (trapped (fun b => { b with trapvec := 0xFFFFFFFC })) (fun g _ _ => g.bank0.live.isNone && decide (g.bank0.trapvec = 0xFFFFFFFC)) = true ∧
    takes (trapped (fun b => { b with trapframe := 4 })) (fun g c x => g.bank0.live.isNone &&
      !succeeds ((trapped (fun b => { b with trapframe := 4 })).writeThrough g.core c x [(65536, [0])])) = true ∧
    takes (trapped (fun b => b)) (fun g c x => g.bank0.live.isNone && succeeds ((trapped (fun b => b)).writeThrough g.core c x
      [(0, leBytes 512 0), (512, leBytes 128 0), (3584, leBytes 256 0)])) = true ∧
    GroupMeets (tState (fun g => g.setBank 0 { g.bank0 with raised := [tUser] })) (fun g => decide ((g.bank 0).raised = [tUser]) &&
      (g.slot 0).isSome) ∧ tUser.user = some (0, { seta := none, setb := none, left := 2 }) ∧ tUser.seq ≠ 8 := by
  refine ⟨?_, ?_, ?_, ?_, groupHas_sound ?_, ?_, ?_⟩ <;> decide +kernel

/-- The state in its handler, before TRET. -/
def inHandler (l : LiveFrame) (bytes : List Byte) : State :=
  let s := tState (fun g => g.setBank 0 { g.bank0 with live := some l })
  onContext (fun c => { c with slots := c.slots ++ [(1, mkCap 0 65536 (permR ||| permW) 65536, true)] })
    { s with mem := memWriteList s.mem (withAddresses 0x8008 (leBytes 8 0x2006F) ++ withAddresses 0x20000 bytes) }

/-- A header of a path at 0x40 with the full mask. -/
def tHeader : List Byte :=
  leBytes 512 (frameHeader trIllegal none 0 0 0 (some (newPath 0x40 (BitVec.allOnes 64))) none [0, 0, 0, 0] false)

/-- TretReturnsFromTheHandler: without a live frame; another depth; no region; frames outside it; a bad header; a good one. -/
theorem wit_tret :
    Meets .tret (tState (fun g => g)) (fun c => c.bank.live.isNone) ∧
    Meets .tret (inHandler { tLive with spillDepth := 1 } []) (fun c => c.bank.live.isSome && c.bank.spill.isEmpty) ∧
    Meets .tret (onContext (fun c => { c with slots := [(2, placedCode, true)] }) (inHandler tLive [])) (fun c =>
      decide (c.bank.live = some tLive) && c.other.isNone && ((c.s.contextOf c.g).map c.s.frameCap = some none)) ∧
    (∀ l ∈ [{ tLive with frame := 4 }, { tLive with frame := 100000 }], Meets .tret (inHandler l []) (fun c => match c.s.contextOf c.g with
      | none => false
      | some x => !succeeds (c.s.readFrame c.g c.half x l).1)) ∧
    (∀ good ∈ [true, false], Meets .tret (inHandler tLive (if good then tHeader else [])) (fun c => match c.s.contextOf c.g with
      | none => false
      | some x => match c.s.readFrame c.g c.half x tLive with
        | (.error _, _) => false
        | (.ok (h, es), _) => es.isEmpty &&
          decide ((headerPaths (c.g.fullMask c.half) c.g.ganged h).map (fun e => e.1.isSome) = if good then some true else none))) :=
  ⟨issues_sound (by decide +kernel), issues_sound (by decide +kernel), issues_sound (by decide +kernel), fun l hl => issues_sound (by revert l; decide +kernel),
    fun e he => issues_sound (by revert e; decide +kernel)⟩

/-- The team has a window of 256 bytes, and its grid a prologue or not. -/
def freezing (prologue : Bool) (f : Group → Group) : State :=
  let s := tState f
  { s with
    teams := s.teams.map (fun t => { t with scratchSize := 256 })
    grids := s.grids.map (fun d => { d with prologue := prologue }) }

/-- FreezeCapturesASheaf: its clauses. -/
theorem wit_freeze :
    Meets (.freeze (.const 1)) (freezing false (split (fun q => q))) (fun c => (c.g.slot (1 - c.k)).isSome) ∧
    Meets (.freeze (.special .lane)) (tState (fun g => onPath (fun p => { p with mask := 2 }) g)) (fun c =>
      decide (c.src .control (.special .lane) (lowestLane c.p.mask) = 1) && (c.g.slot (1 - c.k)).isNone) ∧
    Meets (.freeze (.const 1)) (freezing false (fun g => { g with depth := 4 })) (fun c => decide (c.g.depth = 4) && (c.g.slot (1 - c.k)).isNone) ∧
    (∀ b ∈ [false, true], Meets (.freeze (.const 1)) (freezing b (fun g => g)) (fun c => !c.g.ganged && (c.g.slot (1 - c.k)).isNone &&
      c.bank.spill.isEmpty && decide ((c.src .control (.const 1) 0).toNat ≤ 256) && c.g.pend.isEmpty && decide (c.g.depth ≠ 4) &&
      decide ((c.s.grid? c.g.grid).map Grid.prologue = some b) && decide ((c.s.team? c.g.team).map Team.scratchSize = some 256))) :=
  ⟨issues_sound (by decide +kernel), issues_sound (by decide +kernel), issues_sound (by decide +kernel),
    fun e he => issues_sound (by revert e; decide +kernel)⟩

/-- A host queue, and a grid changed. -/
def hosted (f : Grid → Grid) : State :=
  let s := onQueue (fun q => { q with host := true, base := 0x30000, size := 16, ordered := true }) (flying [])
  { s with grids := s.grids.map f }

/-- Every channel of the device that is copied to a spare. -/
def spareCopies : List (Nat × Nat) := (upto 8).flatMap (fun s => (upto 128).map (fun c => (s, c)))

/-- HostQueuesLaunchAndReport: a doorbell with new entries and without; grids that have ended; a draw's record; both kinds of rings. -/
theorem wit_host :
    ((hosted id).queue? 0 0).map (fun q => (q.host, decide (q.next < 2), decide (0 ≤ q.next))) = some (true, true, true) ∧
    ((hosted id).placesHeld 0x30000 128 = false ∧ ({ hosted id with channelCopies := spareCopies } : State).placesHeld 0x30000 128 = true) ∧
    (∀ e ∈ [(false, false), (true, true)], ((onCore (fun k => { k with buffer := if e.1 then [{ group := 3, pend := 9, bytes := [], grid := 1 }] else [] })
      (hosted id)).grid? 1).map (fun d => (onCore (fun k => { k with buffer := if e.1 then [{ group := 3, pend := 9, bytes := [], grid := 1 }] else [] })
        (hosted id)).reportHeld d) = some e.2) ∧
    ((onCore (fun k => { k with copies := [tCopy 0 0] }) (hosted id)).grid? 1).map
      (fun d => (onCore (fun k => { k with copies := [tCopy 0 0] }) (hosted id)).reportHeld d) = some true ∧
    (∀ e ∈ [(false, Launcher.hostQueue 0 0 0), (true, .program 3 9 false), (true, .hostQueue 0 0 0)],
      ((hosted (fun d => { d with completed := e.1, launcher := e.2 })).grid? 1).map (fun d => (d.completed, d.launcher)) = some e) ∧
    bits ((hosted id).physValue (0x30000 + 128) 128) 55 0 = 0 ∧
    (let s := hosted (fun d => { d with seq := some 0 });
      s.recordsHeld 1 = false ∧ (s.queue? 0 0).map (fun q => (firstRecord (s.recordsTo 0 q 1)).map (fun e => (e.1, e.2.id))) =
        some (some (0, 1))) ∧
    ((16 ≤ 32 ∧ 32 ≤ 65536 ∧ 32 = 2 ^ Nat.log2 32) ∧ ¬ 24 = 2 ^ Nat.log2 24) := by
  refine ⟨?_, ?_, ?_, ?_, ?_, ?_, ?_, ?_⟩ <;> decide +kernel

/-- CoherenceWithTheHostAndPeers: a page in use and one that is not; a range that the host holds; a domain. -/
theorem wit_coherence :
    (flying []).pageQuiet 0 0 = true ∧ (flying [tPend (.ld false (.v 1) 0 .w32 .normal (.v 2))]).pageQuiet 0 0 = false ∧
    ((flying []).context? 0).map (fun c => c.hostRanges.contains 1) = some false ∧
    ((onContext (fun c => { c with hostRanges := [1] }) (flying [])).context? 0).map (fun c => c.hostRanges.contains 1) = some true ∧
    Memory.wf (flying []).mem = true ∧ (0x10000 + [(1 : Byte), 2].length ≤ deviceMemoryEnd) ∧
    (let s : State := { flying [] with domain := some 0, members := [0, 1] };
      s.members.contains 1 = true ∧ s.domain ≠ some 1 ∧ s.domain.isSome = true ∧ s.peerGone 0x808000000000 = false ∧
        s.placesHeld (s.homeAddress 0x808000000000) 2 = false ∧ 0x808000000000 % 0x8000000000 + 2 ≤ deviceMemoryEnd ∧
        s.placesHeld 0x10000 2 = false) ∧
    deviceMemoryEnd < (deviceMemoryEnd + 64) + 4 ∧ (deviceMemoryEnd + 64) + 4 ≤ 0x400000000000 ∧ 0 < 2 ∧ 2 ≤ 32 ∧ 2 ≤ 2 ∧ 32 < 33 := by
  refine ⟨?_, ?_, ?_, ?_, ?_, ?_, ?_, ?_, ?_, ?_, ?_, ?_, ?_⟩ <;> decide +kernel

/-- LinksAndSparesKeepTheDeviceRunning: what its clauses ask of the device. -/
theorem wit_links :
    8 < (nth (State.reset.links.map (fun l => { l with retries := 9 })) 0 {} : Link).retries ∧ (nth State.reset.links 0 {} : Link).retries ≤ 8 ∧
    nth State.reset.health.chspare 7 0 < 8 ∧ State.reset.channelCopies.contains (7, 127) = false ∧ (flying []).cores.length = 256 ∧
    (flying []).dies.length = 4 ∧ (flying []).quiet = true ∧ ((flying []).coreAt 255).absent = false ∧ ((flying []).dieAt (255 / 64)).sparesUsed < 4 ∧
    (let s := (onCore (fun k => { k with absent := true }) (flying [])).setDie 3 { (flying []).dieAt 3 with sparesUsed := 4 };
      (s.dieAt (255 / 64)).sparesUsed = 4 ∧ (s.coreAt 255).absent = false ∧ (s.coreAt 0).absent = true ∧ s.cores.length = 256 ∧
        s.health.coresLost.length = 4) ∧
    Flying ({ flying [{ tPend (.lnchW false 0 (.const 0)) with stage := .atCore, aux := [1] }] with
      grids := (flying []).grids.map (fun d => { d with completed := true, status := 3 }) }) (fun _ p => decide (p.stage = .atCore) && decide (p.aux = [1])) ∧
    (∀ g ∈ (flying []).groups, ((flying []).grid? g.grid).isSome = true) ∧ ((flying []).groups.map Group.id).Nodup ∧
    7 < (flying []).sections.length := by
  refine ⟨?_, ?_, ?_, ?_, ?_, ?_, ?_, ?_, ?_, ?_, flies_sound ?_, ?_, ?_, ?_⟩ <;> decide +kernel

/-- A section of the reset device changed, and every core at a temperature. -/
def sectioned (f : Section → Section) (temp : Nat) : State :=
  { State.reset with sections := State.reset.sections.map f, cores := State.reset.cores.map (fun k => { k with temp := temp }) }

/-- Every core of a section is at most at 91 degrees. -/
def isCool (s : State) (sec : Nat) : Bool := ((s.cores.drop (32 * sec)).take 32).all (fun k => decide (k.temp ≤ 91))

/-- SectionsFollowTheirLimits: a section that joins another pool, one that has not stayed long enough, one that is too hot. -/
theorem wit_sections :
    (let s := sectioned (fun x => x) 40;
      s.sections.length = 8 ∧ s.cores.length = 256 ∧ s.quiet = true ∧ (nth s.sections 7 {}).cls ≠ 2 ∧ 200 ≤ (nth s.sections 7 {}).dwell ∧
        (nth s.sections 7 {}).dropped = 0) ∧
    (let s := sectioned (fun x => { x with dropped := 1 }) 91;
      200 ≤ (nth s.sections 0 {}).dwell ∧ (nth s.sections 0 {}).dropped = 1 ∧ isCool s 0 = true) ∧
    (let s := sectioned (fun x => { x with dropped := 2 }) 92;
      (nth s.sections 0 {}).dropped = 2 ∧ isCool s 0 = false) ∧
    (State.reset.clock.toNat / 1000000 ≤ State.reset.energyAt ∧ State.reset.energyAt < ({ State.reset with clock := 1000000 } : State).clock.toNat / 1000000) ∧
    (nth (sectioned (fun x => { x with dwell := 199 }) 40).sections 0 {}).dwell < 200 ∧
    105 < (sectioned (fun x => x) 106).sectionTemp 3 ∧ (sectioned (fun x => x) 99).sectionTemp 3 < 100 := by
  refine ⟨?_, ?_, ?_, ?_, ?_, ?_, ?_⟩ <;> decide +kernel

/-- What CONTEXT_CREATE asks for. -/
def tContext (gutter : Nat) : ContextSpec :=
  { ctxid := 5, root := 0x2000, queues := [(0, 0, 0), (63, 0, 0)], slots := [(2, placedCode), (65535, placedCode)], feature := 0, watchdogMs := 10,
    watchdogAction := 2, gutterBase := 0, gutterSize := gutter, budgets := [(.ridge 0, 4096), (.composer 1, 0)] }

/-- A code object of one section of one word (Tables 24.1 and 24.2), and one with a capability table too (Table 24.3). -/
def tFile (caps : Bool) : List Byte :=
  leBytes 64 (0x00424F59 + 2 ^ 32 + 64 * 2 ^ 48 + (if caps then 2 else 1) * 2 ^ 64) ++ leBytes 16 (4 * 2 ^ 96 + 4 * 2 ^ 64 + 112 * 2 ^ 32 + 2 * 2 ^ 8) ++
    leBytes 16 (16 * 2 ^ 96 + 16 * 2 ^ 64 + 96 * 2 ^ 32 + 3) ++ leBytes 16 (4 * 2 ^ 96 + 0x10000 + 9) ++ leBytes 4 0x01000000

/-- What the runtime gives the loader. -/
def tBind (caps : Bool) : BindSpec := { ctxid := 0, file := tFile caps, codeSlot := 3, places := [0, 0], leaves := [], moves := [] }

/-- A file is a code object, and its sections may stand where the runtime places them. -/
def binds (s : State) (spec : BindSpec) (caps : Nat) : Bool :=
  match s.context? spec.ctxid with
  | none => false
  | some c => match codeObject c.feature spec.file with
    | none => false
    | some o => decide (o.caps.length = caps) && ((upto o.sections.length).zip o.sections).all (fun e => s.placedOk c spec e.2 (nth spec.places e.1 0))

/-- ContextsAndCodeObjects: legal and illegal contexts; a context that migrates; files that are no code object, and that are. -/
theorem wit_contexts :
    (State.reset.ready = true ∧ State.reset.context? 5 = none ∧ (2 : Nat) ^ 20 = 2 ^ Nat.log2 (2 ^ 20) ∧ (64 : Nat) = 2 ^ Nat.log2 64 ∧
      distinct [0, 63] = [0, 63] ∧ (∀ e ∈ (tContext 64).slots, e.1 < 65536) ∧ budgetsOk (tContext 64).budgets = true ∧ (tContext 63).gutterSize < 64) ∧
    (((flying []).context? 0).isSome = true ∧ (flying []).quiet = true) ∧ codeObject 0x01007F01 [] = none ∧
    (binds (flying []) (tBind false) 0 = true ∧ binds (flying []) (tBind true) 1 = true) := by
  refine ⟨⟨?_, ?_, ?_, ?_, ?_, ?_, ?_, ?_⟩, ?_, ?_, ?_, ?_⟩ <;> decide +kernel

/-- ResetRunsItsSteps, and the instructions of RoundTrip. -/
theorem wit_reset : (∀ n ∈ [none, some (1 : Fin 13), some 9, some 10, some 11, some 12], ∃ spec : ResetSpec, spec.failAt = n) ∧ State.reset.ready = true ∧
    (Instr.iadd false (.v 1) (.s 2) (.const 3)).wf = true ∧ (Instr.iadd false (.v 1) (.s 2) (.const 3)).isStep = false :=
  ⟨fun n _ => ⟨⟨n, [], [], []⟩, rfl⟩, rfl, by decide, by decide⟩

/-- The word that a state's current path fetches, and where it stands. -/
def fetches (s : State) (cond : Issue → Word → Bool) : Bool :=
  match s.issue? with
  | none => false
  | some c => !c.glueDue && (match s.fetch c.g c.p.pc with
    | .fault _ _ => false
    | .word w _ => cond c w)

/-- The state's current path meets a fault where it fetches. -/
def fetchFaults (s : State) : Bool :=
  match s.issue? with
  | none => false
  | some c => !c.glueDue && (match s.fetch c.g c.p.pc with
    | .fault _ _ => true
    | .word _ _ => false)

/-- StepRunsDecoded: an event and a slot on the agenda; a path in its clause; a path at a header; a word in its place, out of
its place, and one that is no instruction; a path beyond its code. StepKeepsCanonical, and the invariant of the tests' states. -/
theorem wit_step :
    (let s := tState (fun g => g);
      ({ s with agenda := [.event .budgetPeriod] } : State).agenda = [.event .budgetPeriod] ∧ (s.slotChoice 0).isSome = true ∧
        s.agenda = [] ∧ s.currentReady = some (3, 0)) ∧
    (let s := (State.reset.placeWord 0xFF0000F3).sated;
      s.currentReady = none ∧ (s.firstEvent s.progressEvents).isNone = true ∧ s.firstSlot s.slotRound = some 0) ∧
    (State.reset.slotChoice 0 = none ∧ fetchFaults (tState (onPath (fun p => { p with pc := 65536 }))) = true) ∧
    fetches (tState (fun g => g)) (fun c w => (match decodeWord w with
      | .ok _ => true
      | .error _ => false) && decide (isHeaderWord w = c.p.clause.isNone)) = true ∧
    fetches (tState (onPath (fun p => { p with clause := none }))) (fun c w => decide (isHeaderWord w = c.p.clause.isSome)) = true ∧
    fetches (State.reset.placeWord 0x7F000000) (fun c w => (match decodeWord w with
      | .ok _ => false
      | .error _ => true) && decide (isHeaderWord w = c.p.clause.isNone)) = true ∧
    (pathAfter (step (tState (fun g => g)))).isSome = true := by
  refine ⟨?_, ?_, ?_, ?_, ?_, ?_, ?_⟩ <;> decide +kernel

/-- A state with memory, a scratchpad and a sheaf is canonical. -/
theorem wit_canonical : (withList (flying [])).Canonical := by
  unfold State.Canonical
  decide +kernel
end Sys2Proof.Tests
end

section
/-! The canonical form of memory, scratchpads and sheaves' lines is kept by every step (O60): first the rules of the state's
operations, then of the effects of words and events by the part of the device that they belong to, at last the dispatch of
`exec` and the choice of `step`. -/
namespace Sys2Proof.Machine

/-! ### The canonical form and its three parts -/

/-- Every team's scratchpad stands in canonical form. -/
def TeamsWf (l : List Team) : Prop := ∀ t ∈ l, Memory.wf t.scratch = true

/-- Every sheaf's lines stand in canonical form. -/
def SheavesWf (l : List Sheaf) : Prop := ∀ k ∈ l, Memory.wf k.scratch = true

theorem State.Canonical.mem {s : State} (h : s.Canonical) : Memory.wf s.mem = true := h.1

theorem State.Canonical.teams {s : State} (h : s.Canonical) : TeamsWf s.teams := h.2.1

theorem State.Canonical.sheaves {s : State} (h : s.Canonical) : SheavesWf s.sheaves := h.2.2

/-- The state of a pair whose state is canonical. -/
theorem State.Canonical.snd {α : Type} {p : α × State} {a : α} {t : State} (h : p.2.Canonical) (e : p = (a, t)) :
    t.Canonical := by
  subst e; exact h

/-- The same for a pair whose first part is the state. -/
theorem State.Canonical.fst {α : Type} {p : State × α} {a : α} {t : State} (h : p.1.Canonical) (e : p = (t, a)) :
    t.Canonical := by
  subst e; exact h

theorem State.Canonical.ite {c : Prop} [Decidable c] {s t : State} (hs : s.Canonical) (ht : t.Canonical) :
    (if c then s else t).Canonical := by
  split
  · exact hs
  · exact ht

/-- A fold of operations that keep the canonical form keeps it. -/
theorem State.Canonical.foldl {α : Type} {f : State → α → State} {s : State} (h : s.Canonical)
    (hf : ∀ {t : State}, t.Canonical → ∀ a, (f t a).Canonical) (l : List α) : (l.foldl f s).Canonical := by
  induction l generalizing s with
  | nil => exact h
  | cons a l ih => exact ih (hf h a)

/-- The same where the operation asks something of the listed values. -/
theorem State.Canonical.foldlMem {α : Type} {f : State → α → State} {s : State} (h : s.Canonical) {l : List α}
    (hf : ∀ {t : State}, t.Canonical → ∀ a ∈ l, (f t a).Canonical) : (l.foldl f s).Canonical := by
  induction l generalizing s with
  | nil => exact h
  | cons a l ih => exact ih (hf h a List.mem_cons_self) (fun ht b hb => hf ht b (List.mem_cons_of_mem a hb))

/-- The same for a fold that carries something beside the state. -/
theorem State.Canonical.foldlSnd {α β : Type} {f : β × State → α → β × State} {p : β × State} (h : p.2.Canonical)
    (hf : ∀ {q : β × State}, q.2.Canonical → ∀ a, (f q a).2.Canonical) (l : List α) : (l.foldl f p).2.Canonical := by
  induction l generalizing p with
  | nil => exact h
  | cons a l ih => exact ih (hf h a)

theorem TeamsWf.map {l : List Team} {f : Team → Team} (h : TeamsWf l)
    (hf : ∀ t, Memory.wf t.scratch = true → Memory.wf (f t).scratch = true) : TeamsWf (l.map f) := by
  intro t ht
  obtain ⟨u, hu, rfl⟩ := List.mem_map.mp ht
  exact hf u (h u hu)

theorem TeamsWf.filter {l : List Team} (h : TeamsWf l) (p : Team → Bool) : TeamsWf (l.filter p) :=
  fun t ht => h t (List.mem_filter.mp ht).1

theorem SheavesWf.map {l : List Sheaf} {f : Sheaf → Sheaf} (h : SheavesWf l)
    (hf : ∀ k, Memory.wf k.scratch = true → Memory.wf (f k).scratch = true) : SheavesWf (l.map f) := by
  intro k hk
  obtain ⟨u, hu, rfl⟩ := List.mem_map.mp hk
  exact hf u (h u hu)

theorem SheavesWf.filter {l : List Sheaf} (h : SheavesWf l) (p : Sheaf → Bool) : SheavesWf (l.filter p) :=
  fun k hk => h k (List.mem_filter.mp hk).1

/-- A team found by number has a canonical scratchpad. -/
theorem State.Canonical.team {s : State} (h : s.Canonical) {n : Nat} {t : Team} (e : s.team? n = some t) :
    Memory.wf t.scratch = true := h.teams t (List.mem_of_find?_eq_some e)

/-- A sheaf found by number has canonical lines. -/
theorem State.Canonical.sheaf {s : State} (h : s.Canonical) {n : Nat} {k : Sheaf} (e : s.sheaf? n = some k) :
    Memory.wf k.scratch = true := h.sheaves k (List.mem_of_find?_eq_some e)

/-! ### One field replaced -/

theorem State.Canonical.setContext {s : State} (h : s.Canonical) (c : Context) : (s.setContext c).Canonical := h

theorem State.Canonical.setCore {s : State} (h : s.Canonical) (c : Nat) (v : Core) : (s.setCore c v).Canonical := h

theorem State.Canonical.setDie {s : State} (h : s.Canonical) (d : Nat) (v : Die) : (s.setDie d v).Canonical := h

theorem State.Canonical.nextFree {s : State} (h : s.Canonical) : s.nextFree.Canonical := h

theorem State.Canonical.setTag {s : State} (h : s.Canonical) (pa : Nat) : (s.setTag pa).Canonical := h

theorem State.Canonical.setGroup {s : State} (h : s.Canonical) (g : Group) : (s.setGroup g).Canonical := h

theorem State.Canonical.setGrid {s : State} (h : s.Canonical) (d : Grid) : (s.setGrid d).Canonical := h

theorem State.Canonical.withGroups {s : State} (h : s.Canonical) (l : List Group) :
    ({ s with groups := l } : State).Canonical := h

theorem State.Canonical.withFresh {s : State} (h : s.Canonical) (n : Nat) :
    ({ s with fresh := n } : State).Canonical := h

theorem State.Canonical.tick {s : State} (h : s.Canonical) : s.tick.Canonical := h

theorem State.Canonical.leaveOwed {s : State} (h : s.Canonical) (gid : Nat) : (s.leaveOwed gid).Canonical := h

theorem State.Canonical.clauseIssued {s : State} (h : s.Canonical) (gid k : Nat) : (s.clauseIssued gid k).Canonical := h

theorem State.Canonical.setTeam {s : State} (h : s.Canonical) {t : Team} (ht : Memory.wf t.scratch = true) :
    (s.setTeam t).Canonical := by
  refine ⟨h.mem, h.teams.map (fun u hu => ?_), h.sheaves⟩
  split
  · exact ht
  · exact hu

/-! ### Bytes of memory, page tables and caches -/

theorem State.Canonical.writePhys {s : State} (h : s.Canonical) (l : List (Nat × Byte)) : (s.writePhys l).Canonical :=
  ⟨memWriteList_wf h.mem l, h.teams, h.sheaves⟩

theorem State.Canonical.writeBytes {s : State} (h : s.Canonical) (pa : Nat) (l : List Byte) :
    (s.writeBytes pa l).Canonical := h.writePhys _

theorem State.Canonical.writeRuns {s : State} (h : s.Canonical) (r : List Run) (l : List Byte) :
    (s.writeRuns r l).Canonical := h.writePhys _

theorem State.Canonical.markLeaf {s : State} (h : s.Canonical) (a : Nat) (dirty : Bool) :
    (s.markLeaf a dirty).Canonical := h.ite (h.writeBytes _ _)

theorem State.Canonical.installTlb {s : State} (h : s.Canonical) (core ctx va a : Nat) :
    (s.installTlb core ctx va a).Canonical := (h.setCore _ _).setDie _ _

theorem State.Canonical.markLeaves {s : State} (h : s.Canonical) (core ctx : Nat) (dirty : Bool) (l : List (Nat × Nat)) :
    (s.markLeaves core ctx dirty l).Canonical :=
  h.foldl (fun ht e => (ht.markLeaf e.1 dirty).installTlb core ctx e.2 e.1) l

theorem State.Canonical.markCheck {s : State} (h : s.Canonical) (core ctx : Nat) (writes : Bool) (r : LaneCheck) :
    (s.markCheck core ctx writes r).Canonical := by
  cases r with
  | ok runs l => exact h.markLeaves _ _ _ _
  | bad o cause sub f l =>
    unfold State.markCheck
    dsimp only
    split
    · exact h.markLeaves _ _ _ _
    · split
      · exact h.markLeaves _ _ _ _
      · exact h

theorem State.Canonical.access {s : State} (h : s.Canonical) (core : Nat) (c : Context) (x : XReg) (need : Need)
    (reads : Bool) (align n o : Nat) : (s.access core c x need reads align n o).2.Canonical :=
  (h.markCheck _ _ _ _).nextFree

theorem State.Canonical.invalidate {s : State} (h : s.Canonical) (core : Nat) : (s.invalidate core).Canonical := h

theorem State.Canonical.refreshSector {s : State} (h : s.Canonical) (core sector : Nat) :
    (s.refreshSector core sector).Canonical := h

theorem State.Canonical.loadSector {s : State} (h : s.Canonical) (core sector : Nat) (cacheable : Bool) :
    (s.loadSector core sector cacheable).2.Canonical := by
  unfold State.loadSector
  dsimp only
  split
  · split
    · exact h.nextFree
    · exact (h.setCore _ _).nextFree
  · dsimp only
    split
    · exact h.setCore _ _
    · exact h

theorem State.Canonical.loadSectors {s : State} (h : s.Canonical) (core : Nat) (cacheable : Bool) (l : List Nat) :
    (s.loadSectors core cacheable l).2.Canonical := by
  induction l generalizing s with
  | nil => exact h
  | cons x l ih => exact ih (h.loadSector core x cacheable)

theorem State.Canonical.readL2 {s : State} (h : s.Canonical) (core : Nat) (l : List Run) :
    (s.readL2 core l).2.Canonical := h.foldl (fun ht x => ht.refreshSector core x) _

theorem State.Canonical.dropTexture {s : State} (h : s.Canonical) (within : Nat → Bool) :
    (s.dropTexture within).Canonical := h

theorem State.Canonical.dropRidge {s : State} (h : s.Canonical) (within : Nat → Bool) : (s.dropRidge within).Canonical := h

theorem State.Canonical.dropComposer {s : State} (h : s.Canonical) (within : Nat → Bool) :
    (s.dropComposer within).Canonical := h

/-! ### Scratchpads -/

theorem State.copyLines_wf (s : State) {t : Team} (h : Memory.wf t.scratch = true) (lines : List Nat) :
    Memory.wf (s.copyLines t lines).scratch = true := by
  unfold State.copyLines
  induction lines generalizing t with
  | nil => exact h
  | cons l lines ih =>
    rw [List.foldl_cons]
    apply ih
    dsimp only
    exact memWrite_wf h _ _

theorem State.Canonical.scratchWrite {s : State} (h : s.Canonical) (team off : Nat) (l : List Byte) :
    (s.scratchWrite team off l).Canonical := by
  unfold State.scratchWrite
  split
  · exact h
  · next t ht =>
    have hc := s.copyLines_wf (h.team ht) (s.linesToCopy t off l.length)
    exact h.setTeam (memWrite_wf hc off l)

/-! ### Ends of groups, teams and grids -/

theorem State.Canonical.dropSheaves {s : State} (h : s.Canonical) : s.dropSheaves.Canonical := by
  unfold State.dropSheaves
  dsimp only
  split
  · exact h
  · exact ⟨h.mem, h.teams, h.sheaves.filter _⟩

/-- Sheaves that are marked as dropped keep their lines. -/
theorem SheavesWf.drop {l : List Sheaf} (h : SheavesWf l) (p : Sheaf → Prop) [DecidablePred p] :
    SheavesWf (l.map (fun k => if p k then { k with dropped := true } else k)) :=
  h.map (fun k hk => by split <;> exact hk)

theorem State.Canonical.markDropped {s : State} (h : s.Canonical) (p : Sheaf → Prop) [DecidablePred p] :
    ({ s with sheaves := s.sheaves.map (fun k => if p k then { k with dropped := true } else k) } : State).Canonical :=
  ⟨h.mem, h.teams, h.sheaves.drop p⟩

theorem State.Canonical.closeGrid {s : State} (h : s.Canonical) (gid : Nat) : (s.closeGrid gid).Canonical := by
  unfold State.closeGrid
  split
  · exact h
  · split
    · refine State.Canonical.dropSheaves ⟨h.mem, (h.teams.map (fun t ht => ?_)).filter _, h.sheaves.drop _⟩
      split <;> exact ht
    · exact h

theorem State.Canonical.closeTeam {s : State} (h : s.Canonical) (tid : Nat) : (s.closeTeam tid).Canonical := by
  unfold State.closeTeam
  split
  · exact h
  · next t ht =>
    dsimp only
    have hw := h.team ht
    have he : (s.setTeam { t with ended := true }).Canonical := h.setTeam hw
    split
    · exact h
    · split
      · exact ⟨he.mem, he.teams.filter _, he.sheaves⟩
      · exact he

theorem State.Canonical.reap {s : State} (h : s.Canonical) (gid : Nat) : (s.reap gid).Canonical := by
  unfold State.reap
  split
  · exact h
  · dsimp only
    split
    · exact h
    · refine State.Canonical.closeGrid (State.Canonical.closeTeam (State.Canonical.dropSheaves ?_) _) _
      exact ⟨h.mem, h.teams, h.sheaves.drop _⟩

theorem State.Canonical.settle {s : State} (h : s.Canonical) (g : Group) : (s.settle g).Canonical := by
  exact (((h.setGroup _).leaveOwed _).ite (h.setGroup _)).reap _

theorem State.Canonical.landed {s : State} (h : s.Canonical) (g : Group) : (s.landed g).Canonical := h.settle _

theorem State.Canonical.completePend {s : State} (h : s.Canonical) (gid id : Nat) : (s.completePend gid id).Canonical := by
  unfold State.completePend
  split
  · exact h
  · exact h.landed _

/-! ### What an issue does to its state -/

@[simp] theorem Issue.setBank_s (c : Issue) (b : Bank) : (c.setBank b).s = c.s := rfl

@[simp] theorem Issue.write_s (c : Issue) (d : Dst) (m : DWord) (f : Nat → Word) : (c.write d m f).s = c.s := by
  cases d <;> rfl

@[simp] theorem Issue.noteReads_s (c : Issue) (l : List (Src × Nat)) : (c.noteReads l).s = c.s := by
  unfold Issue.noteReads
  split <;> rfl

@[simp] theorem Issue.releaseReads_s (c : Issue) (l : List (Src × Nat)) (w : List Nat) : (c.releaseReads l w).s = c.s := by
  unfold Issue.releaseReads
  split <;> rfl

@[simp] theorem Issue.mergeFlags_s (c : Issue) (fl : FFlags) : (c.mergeFlags fl).s = c.s := rfl

theorem Issue.raise_canonical {c : Issue} (h : c.s.Canonical) (t : Trap) : (c.raise t).Canonical := h

theorem Issue.fetchFault_canonical {c : Issue} (h : c.s.Canonical) (i : Instr) (t : Trap) :
    (c.fetchFault i t).Canonical := by
  unfold Issue.fetchFault
  split <;> exact h

theorem State.Canonical.notePoison {s : State} (h : s.Canonical) (g : Group) (t : Trap) : (s.notePoison g t).Canonical := by
  unfold State.notePoison
  split <;> exact h

theorem Issue.commit_canonical {c : Issue} (h : c.s.Canonical) (g : Group) (ended : Bool) : (c.commit g ended).Canonical := by
  have hs : ({ c.s with issues := c.s.issues + 1 } : State).Canonical := h
  unfold Issue.commit
  dsimp only
  split
  · exact (hs.settle _).clauseIssued _ _
  · exact hs.settle _

theorem Issue.fly_s (c : Issue) (i : Instr) (m : DWord) (edit : Issue → Pend → Pend) :
    (c.fly i m edit).1.s = { c.s with fresh := c.s.fresh + 1 } := by
  unfold Issue.fly
  simp

theorem Issue.fly_canonical {c : Issue} (h : c.s.Canonical) (i : Instr) (m : DWord) (edit : Issue → Pend → Pend) :
    (c.fly i m edit).1.s.Canonical := by
  rw [Issue.fly_s]; exact h

/-- An effect that leaves a canonical state where it is applied to one. -/
@[simp] def Eff.Canonical : Eff → Prop
  | .raise _ => True
  | .raiseAfter _ => True
  | .meets c _ => c.s.Canonical
  | .wait _ => True
  | .done c => c.s.Canonical
  | .goto c _ => c.s.Canonical
  | .final c _ => c.s.Canonical

theorem Eff.apply_canonical {c : Issue} (h : c.s.Canonical) {e : Eff} (he : e.Canonical) : (e.apply c).Canonical := by
  cases e with
  | raise t => exact c.raise_canonical h t
  | raiseAfter t => exact h
  | meets c' t => exact c'.fetchFault_canonical he _ t
  | wait g => exact h.setGroup g
  | done c' => exact c'.commit_canonical he _ _
  | goto c' pc => exact c'.commit_canonical he _ _
  | final c' g => exact c'.commit_canonical he g _

/-- An answer of a step that leaves a canonical state, where it leaves one. -/
def Keeps (r : Result) : Prop := ∀ t, r = .next t → t.Canonical

theorem Keeps.next {t : State} (h : t.Canonical) : Keeps (.next t) := by
  rintro _ ⟨⟩; exact h

theorem Keeps.fault (f : Fault) : Keeps (.fault f) := nofun

/-- The path that issues stands in the state itself. -/
theorem State.issue?_s {s : State} {c : Issue} (h : s.issue? = some c) : c.s = s := (State.issue?_spec h).1

theorem State.Canonical.issue? {s : State} (h : s.Canonical) {c : Issue} (e : s.issue? = some c) : c.s.Canonical := by
  rw [State.issue?_s e]; exact h

/-- A word keeps the canonical form where its own effect does. -/
theorem State.Canonical.issue {s : State} (h : s.Canonical) {i : Instr} {body : Issue → Eff}
    (hb : ∀ c, c.s.Canonical → (body c).Canonical) : Keeps (issue i body s) := by
  unfold Machine.issue
  split
  · exact .next h
  · next c hc =>
    have hs : c.s.Canonical := h.issue? hc
    split
    · exact .next (c.raise_canonical hs _)
    · split
      · exact .next (c.raise_canonical hs _)
      · split
        · exact .next hs
        · split
          · exact .next h
          · split
            · exact .next ((c.raise_canonical hs _).notePoison _ _)
            · exact .next (Eff.apply_canonical hs (hb c hs))

theorem Keeps.ite {c : Prop} [Decidable c] {r q : Result} (hr : Keeps r) (hq : Keeps q) : Keeps (if c then r else q) := by
  split
  · exact hr
  · exact hq

theorem Eff.Canonical.ite {c : Prop} [Decidable c] {e f : Eff} (he : e.Canonical) (hf : f.Canonical) :
    (if c then e else f).Canonical := by
  split
  · exact he
  · exact hf

theorem Eff.Canonical.raise (t : Trap) : (Eff.raise t).Canonical := trivial

theorem Eff.Canonical.done {c : Issue} (h : c.s.Canonical) : (Eff.done c).Canonical := h

theorem Eff.Canonical.goto {c : Issue} (h : c.s.Canonical) (pc : Word) : (Eff.goto c pc).Canonical := h

/-! ### Words that compute -/

theorem Issue.idle_canonical {c : Issue} (h : c.s.Canonical) (i : Instr) : (c.idle i).Canonical := by
  simpa [Issue.idle, Eff.Canonical] using h

theorem Issue.fixed_canonical {c : Issue} (h : c.s.Canonical) (i : Instr) (u : Bool) (d : Dst) (f : Nat → Word × FFlags) :
    (c.fixed i u d f).Canonical :=
  (c.idle_canonical h i).ite (.done (by simpa using h))

theorem Issue.fixedP_canonical {c : Issue} (h : c.s.Canonical) (i : Instr) (u : Bool) (p : Fin 8)
    (f : Nat → Bool × FFlags) : (c.fixedP i u p f).Canonical :=
  (c.idle_canonical h i).ite (.done (by simpa using h))

theorem Issue.withInt_canonical {c : Issue} {k : Bool → Nat → Delivery → Eff} (hk : ∀ sg w dl, (k sg w dl).Canonical) :
    (c.withInt k).Canonical := by
  unfold Issue.withInt
  split
  · exact .raise _
  · exact hk _ _ _

theorem Issue.withFloat_canonical {c : Issue} {k : FFmt → Delivery → Eff} (hk : ∀ f dl, (k f dl).Canonical) :
    (c.withFloat k).Canonical := by
  unfold Issue.withFloat
  split
  · exact .raise _
  · exact hk _ _

theorem State.Canonical.floatOp {s : State} (h : s.Canonical) (i : Instr) (u : Bool) (d : Dst) (a b : Src)
    (op : FFmt → Nat → Bool → Nat → Nat → Nat → Nat × FFlags) : Keeps (floatOp i u d a b op s) :=
  h.issue (fun c hc => c.withFloat_canonical (fun _ _ => c.fixed_canonical hc ..))

theorem State.Canonical.intArith {s : State} (h : s.Canonical) (i : Instr) (u : Bool) (d : Dst) (a b : Src)
    (op : Bool → Nat → Bool → Int → Int → Int → Nat × FFlags) : Keeps (intArith i u d a b op s) :=
  h.issue (fun c hc => c.withInt_canonical (fun _ _ _ => c.fixed_canonical hc ..))

theorem State.Canonical.intWord {s : State} (h : s.Canonical) (i : Instr) (u : Bool) (d : Dst)
    (f : Issue → Bool → Nat → Delivery → Nat → Word) : Keeps (intWord i u d f s) :=
  h.issue (fun c hc => c.withInt_canonical (fun _ _ _ => c.fixed_canonical hc ..))

theorem State.Canonical.execIcmp {s : State} (h : s.Canonical) (u : Bool) (cd : Cond) (p : Fin 8) (a b : Src) :
    Keeps (execIcmp u cd p a b s) :=
  h.issue (fun c hc => c.withInt_canonical (fun _ _ _ => c.fixedP_canonical hc ..))

theorem State.Canonical.execSel {s : State} (h : s.Canonical) (u : Bool) (d : Dst) (a b : Src) : Keeps (execSel u d a b s) :=
  h.issue (fun c hc => c.fixed_canonical hc ..)

theorem State.Canonical.execMov {s : State} (h : s.Canonical) (u : Bool) (d : Dst) (a : Src) : Keeps (execMov u d a s) :=
  h.issue (fun c hc => c.fixed_canonical hc ..)

theorem State.Canonical.execFcmp {s : State} (h : s.Canonical) (u : Bool) (cd : Cond) (p : Fin 8) (a b : Src) :
    Keeps (execFcmp u cd p a b s) :=
  h.issue (fun c hc => c.withFloat_canonical (fun _ _ => c.fixedP_canonical hc ..))

theorem State.Canonical.execCvt {s : State} (h : s.Canonical) (u : Bool) (d : Dst) (a : Src) (pos : Fin 8) (t : ElemType) :
    Keeps (execCvt u d a pos t s) :=
  h.issue (fun c hc => (c.fixed_canonical hc ..).ite (.raise _))

theorem State.Canonical.execPack {s : State} (h : s.Canonical) (u : Bool) (d : Dst) (a b : Src) :
    Keeps (execPack u d a b s) := by
  refine h.issue (fun c hc => ?_)
  dsimp only
  split
  · exact .raise _
  · exact c.fixed_canonical hc ..

theorem State.Canonical.execUnpk {s : State} (h : s.Canonical) (u : Bool) (d : Dst) (a : Src) (i4 hi : Bool) :
    Keeps (execUnpk u d a i4 hi s) := by
  refine h.issue (fun c hc => ((c.fixed_canonical hc ..).ite (.raise _)).ite ?_)
  split
  · exact .raise _
  · exact c.fixed_canonical hc ..

theorem State.Canonical.execFdot2 {s : State} (h : s.Canonical) (u : Bool) (d : Dst) (a b : Src) :
    Keeps (execFdot2 u d a b s) :=
  h.issue (fun c hc => c.withFloat_canonical (fun _ _ => (Eff.Canonical.raise _).ite (c.fixed_canonical hc ..)))

theorem State.Canonical.shuffle {s : State} (h : s.Canonical) (i : Instr) (d : Dst) (a b : Src)
    (source : Nat → Nat → Nat → Option Nat) : Keeps (shuffle i d a b source s) := by
  refine h.issue (fun c hc => ?_)
  exact c.fixed_canonical hc ..

theorem State.Canonical.execVote {s : State} (h : s.Canonical) (d : PDst) (a : Src) (k : VoteKind) :
    Keeps (execVote d a k s) := by
  refine h.issue (fun c hc => ?_)
  cases d with
  | pred p => exact c.fixedP_canonical hc ..
  | reg d =>
    exact ((c.idle_canonical hc _).ite (.done (by simpa using hc))).ite (c.fixed_canonical hc ..)

theorem State.Canonical.execLred {s : State} (h : s.Canonical) (d : Dst) (a : Src) (op : RedOp) :
    Keeps (execLred d a op s) := by
  refine h.issue (fun c hc => ?_)
  split
  · exact .raise _
  · exact c.fixed_canonical hc ..

theorem State.Canonical.execLscan {s : State} (h : s.Canonical) (d : Dst) (a : Src) (ex : Bool) (op : RedOp) :
    Keeps (execLscan d a ex op s) := by
  refine h.issue (fun c hc => ?_)
  split
  · exact .raise _
  · exact c.fixed_canonical hc ..

theorem State.Canonical.execElect {s : State} (h : s.Canonical) (d : PDst) : Keeps (execElect d s) := by
  refine h.issue (fun c hc => ?_)
  rcases d with (n | n) | p
  · exact c.fixed_canonical hc ..
  · exact c.fixed_canonical hc ..
  · exact c.fixedP_canonical hc ..

/-! ### Words that change their path, and control registers -/

theorem Issue.target_canonical {c : Issue} (h : c.s.Canonical) (i : Instr) (a : Src) {k : Issue → Word → Eff}
    (hk : ∀ c' t, c'.s.Canonical → (k c' t).Canonical) : (c.target i a k).Canonical :=
  (Eff.Canonical.raise _).ite (hk _ _ (by simpa using h))

theorem Issue.setCsr_s (c : Issue) (n : Nat) (w : Word) : (c.setCsr n w).s = c.s := by
  unfold Issue.setCsr
  split <;> rfl

theorem State.Canonical.execBdiv {s : State} (h : s.Canonical) (neg : Bool) (p : Fin 8) (off : BitVec 19) :
    Keeps (execBdiv neg p off s) := by
  refine h.issue (fun c hc => ?_)
  dsimp only
  split_ifs <;> simp [hc]

theorem State.Canonical.execSetj {s : State} (h : s.Canonical) (off : BitVec 24) : Keeps (execSetj off s) := by
  refine h.issue (fun c hc => ?_)
  dsimp only
  split
  · exact hc
  · split
    · split_ifs <;> simp [hc]
    · split_ifs <;> simp [hc]

theorem State.Canonical.execJoin {s : State} (h : s.Canonical) : Keeps (execJoin s) := by
  refine h.issue (fun c hc => ?_)
  split
  · exact .raise _
  · exact hc

theorem State.Canonical.execRet {s : State} (h : s.Canonical) : Keeps (execRet s) :=
  h.issue (fun _ hc => (Eff.Canonical.raise _).ite (.goto hc _))

theorem State.Canonical.execBrx {s : State} (h : s.Canonical) (a : Src) : Keeps (execBrx a s) :=
  h.issue (fun c hc => c.target_canonical hc _ a (fun _ _ hc' => hc'))

theorem State.Canonical.execCallx {s : State} (h : s.Canonical) (a : Src) : Keeps (execCallx a s) :=
  h.issue (fun c hc => c.target_canonical hc _ a (fun _ _ hc' => hc'))

theorem State.Canonical.execClauseStart {s : State} (h : s.Canonical) (wait : BitVec 12) (seta setb : Option (Fin 12))
    (len : Fin 16) : Keeps (execClauseStart wait seta setb len s) := by
  unfold Machine.execClauseStart
  split
  · exact .next h
  · next c hc =>
    have hs : c.s.Canonical := h.issue? hc
    split
    · exact .next (c.raise_canonical hs _)
    · refine Keeps.ite (.next hs) (Keeps.ite (.next h) (Keeps.ite (.next ?_) (.next h)))
      exact hs

theorem State.Canonical.execCsrr {s : State} (h : s.Canonical) (u : Bool) (d : Dst) (n : BitVec 12) :
    Keeps (execCsrr u d n s) := by
  refine h.issue (fun c hc => ?_)
  split_ifs
  · simpa using hc.tick
  · simpa using hc

theorem State.Canonical.execCsrw {s : State} (h : s.Canonical) (u : Bool) (d : Src) (n : BitVec 12) :
    Keeps (execCsrw u d n s) :=
  h.issue (fun _ hc => .done (by simpa [Issue.setCsr_s] using hc))

theorem State.Canonical.execResdrain {s : State} (h : s.Canonical) (u : Bool) (d : Src) : Keeps (execResdrain u d s) :=
  h.issue (fun _ hc => .done (by simpa using hc))

theorem State.Canonical.execYield {s : State} (h : s.Canonical) : Keeps (execYield s) :=
  h.issue (fun _ hc => hc)

/-! ### Instructions in flight -/

theorem State.Canonical.gutter {s : State} (h : s.Canonical) (core ctx id : Nat) (w : GutterWant) :
    (s.gutter core ctx id w).Canonical := by
  unfold State.gutter
  split
  · exact h
  · exact h.ite (.ite (h.setContext _) ((h.setContext _).setCore _ _))

theorem State.Canonical.putGutters {s : State} (h : s.Canonical) (g : Group) (p : Pend) : (s.putGutters g p).Canonical := by
  unfold State.putGutters
  split
  · exact h
  · split
    · exact h
    · exact h.foldl (fun ht w => ht.gutter _ _ _ w) _

theorem State.Canonical.progress {s : State} (h : s.Canonical) (g : Group) (p : Pend) : (s.progress g p).Canonical :=
  ((h.putGutters g p).landed _).ite (h.landed _)

theorem State.Canonical.deliver {s : State} (h : s.Canonical) (g : Group) (p : Pend) (part : Nat) :
    (s.deliver g p part).Canonical := h.nextFree.progress _ _

theorem State.Canonical.returnAll {s : State} (h : s.Canonical) (gid : Nat) (p : Pend) (part : Nat)
    (val : Nat → Nat → Word) : (s.returnAll gid p part val).Canonical := by
  unfold State.returnAll
  split
  · exact h
  · exact h.deliver _ _ _

/-! ### Bytes through capabilities, and frames -/

theorem State.Canonical.writeThroughRuns {s : State} (h : s.Canonical) (core : Nat) (runs : List Run) (l : List Byte) :
    (s.writeThroughRuns core runs l).Canonical := (h.writeRuns _ _).setCore _ _

theorem State.Canonical.writeThrough {s t : State} (h : s.Canonical) {core : Nat} {c : Context} {x : XReg}
    {l : List (Nat × List Byte)} (e : s.writeThrough core c x l = .ok t) : t.Canonical := by
  induction l generalizing s with
  | nil => cases e; exact h
  | cons a l ih =>
    unfold State.writeThrough at e
    split at e
    · next he => exact ih (((h.access ..).snd he).writeThroughRuns _ _ _) e
    · cases e

theorem State.Canonical.readThrough {s : State} (h : s.Canonical) (core : Nat) (c : Context) (x : XReg) (n o : Nat) :
    (s.readThrough core c x n o).2.Canonical := by
  unfold State.readThrough
  split
  · next he => exact (h.access ..).snd he
  · next he => exact (h.access ..).snd he

theorem State.Canonical.endGrid {s : State} (h : s.Canonical) (gid status : Nat) : (s.endGrid gid status).Canonical := by
  unfold State.endGrid
  split
  · exact h
  · extract_lets t u mine
    have hu : u.Canonical := h
    exact (hu.foldl (fun ht g => ht.reap g) mine).closeGrid gid

theorem State.Canonical.doubleFault {s : State} (h : s.Canonical) (g : Group) (first second : Trap) :
    (s.doubleFault g first second).Canonical := by
  have hl : ({ s with log := s.log ++ [.doubleFault g.grid first second g.pathRecords] } : State).Canonical := h
  exact hl.endGrid _ _

theorem State.Canonical.takeTrap {s : State} (h : s.Canonical) (word : Instr → Word) (g : Group) (half : Nat) :
    (s.takeTrap word g half).Canonical := by
  unfold State.takeTrap
  dsimp only
  split
  · exact h.doubleFault _ _ _
  · split
    · exact h.doubleFault _ _ _
    · split
      · exact h
      · split
        · exact h.doubleFault _ _ _
        · next t hw =>
          have ht : t.Canonical := by
            split at hw
            · cases hw
            · exact h.writeThrough hw
          exact ht.setGroup _

/-! ### Memory instructions at issue -/

theorem State.Canonical.markLanes {s : State} (h : s.Canonical) (core ctx : Nat) (writes : Bool)
    (l : List (Nat × LaneCheck)) : (s.markLanes core ctx writes l).Canonical :=
  h.foldl (fun ht e => ht.markCheck _ _ _ e.2) l

theorem State.Canonical.checkPend {s : State} (h : s.Canonical) (g : Group) (p : Pend) : (s.checkPend g p).2.Canonical := by
  unfold State.checkPend
  dsimp only
  split
  · split <;> exact (h.markLanes _ _ _ _).nextFree
  · split
    · exact h
    · exact h
    · exact h.notePoison _ _
    · split <;> exact h
  · split
    · split_ifs <;> exact h
    · split <;> exact h
    · split <;> exact h
    · split <;> exact h
    · split <;> exact h
    · exact h

theorem State.Canonical.flyChecked {s : State} (h : s.Canonical) (i : Instr) : Keeps (flyChecked i s) :=
  h.issue (fun c hc => (c.idle_canonical hc i).ite (.done ((c.fly_canonical hc _ _ _).checkPend _ _)))

theorem State.Canonical.flyParked {s : State} (h : s.Canonical) (i : Instr) (park : Nat → Park) :
    Keeps (flyParked i park s) :=
  h.issue (fun c hc =>
    have hp := (c.fly_canonical hc i c.emask (captureCap i)).checkPend (c.fly i c.emask (captureCap i)).1.g
      (c.fly i c.emask (captureCap i)).2
    (c.idle_canonical hc i).ite (Eff.Canonical.ite (Eff.Canonical.done hp) (Eff.Canonical.done hp)))

theorem State.Canonical.flyFull {s : State} (h : s.Canonical) (i : Instr) : Keeps (flyFull i s) :=
  h.issue (fun c hc => .done (c.fly_canonical hc _ _ _))

/-! ### Barriers -/

theorem State.Canonical.setBarrier {s : State} (h : s.Canonical) {t : Team} (ht : Memory.wf t.scratch = true) (idx : Nat)
    (b : Barrier) : (s.setBarrier t idx b).Canonical := by
  unfold State.setBarrier
  split
  · exact h.setTeam ht
  · exact h

theorem State.Canonical.acquireBar {s : State} (h : s.Canonical) (t : Team) (idx : Nat) : (s.acquireBar t idx).Canonical :=
  h.ite (h.foldl (fun hu _ => hu.invalidate _) _)

theorem State.Canonical.arriveGo {s : State} (h : s.Canonical) (g : Group) (idx : Nat) {t : Team}
    (ht : Memory.wf t.scratch = true) (b : Barrier) (count : Nat) : (State.arrive.go s g idx t b count).1.Canonical := by
  unfold State.arrive.go
  dsimp only
  split
  · exact ((h.setBarrier ht idx _).withGroups _).acquireBar t idx
  · exact h.setBarrier ht idx _

theorem State.Canonical.arrive {s t : State} (h : s.Canonical) {g g' : Group} {idx count : Nat} {ph done : Bool}
    (e : s.arrive g idx count = some (t, g', ph, done)) : t.Canonical := by
  unfold State.arrive at e
  split at e
  · cases e
  · next u hu =>
    have hgo := fun b => h.arriveGo g idx (h.team hu) b count
    split at e
    · cases e
    · dsimp only at e
      split at e
      · split at e
        · exact (hgo _).fst (Option.some.inj e)
        · cases e
      · exact (hgo _).fst (Option.some.inj e)

/-- A BAR that leaves a canonical state, where it leaves one. -/
@[simp] def BarRes.Canonical : BarRes → Prop
  | .fault => True
  | .complete s _ => s.Canonical
  | .waits s _ _ _ => s.Canonical

theorem State.Canonical.waitBar {s : State} (h : s.Canonical) (g : Group) (idx : Nat) : (s.waitBar g idx).Canonical := by
  unfold State.waitBar
  split
  · trivial
  · split
    · trivial
    · split
      · trivial
      · exact h.acquireBar _ _
      · exact h

theorem State.Canonical.bar {s : State} (h : s.Canonical) (g : Group) (i : Instr) (idx count : Nat) :
    (s.bar g i idx count).Canonical := by
  unfold State.bar
  split
  · exact h.waitBar g idx
  · split
    · trivial
    · next he => exact h.arrive he
  · split
    · trivial
    · next he =>
      split
      · exact h.arrive he
      · exact h.arrive he

theorem State.Canonical.barIssue {s : State} (h : s.Canonical) (i : Instr) (a : Src) (b : Option Src) :
    Keeps (barIssue i a b s) := by
  refine h.issue (fun c hc => ?_)
  dsimp only
  have hf := c.fly_canonical hc i c.p.mask (fun _ p => p)
  have hb := fun n m => hf.bar (c.fly i c.p.mask (fun _ p => p)).1.g i n m
  split
  · exact hf
  · next he => exact (he ▸ hb _ _ :)
  · next he => exact (he ▸ hb _ _ :)

/-! ### Launches -/

theorem State.Canonical.pushRecord {s : State} (h : s.Canonical) (core ctx : Nat) (r : DequeRecord) :
    (s.pushRecord core ctx r).Canonical := by
  unfold State.pushRecord
  dsimp only
  split
  · exact h
  · split
    · exact h.setCore _ _
    · split
      · exact h.setCore _ _
      · exact (h.setCore _ _).setContext _

theorem State.Canonical.pushDraw {s : State} (h : s.Canonical) (d : Grid) (die : Nat) : (s.pushDraw d die).Canonical :=
  h.foldl (fun ht _ => ht.nextFree.pushRecord _ _ _) _

theorem State.Canonical.addGrid {s : State} (h : s.Canonical) (core : Nat) (c : Context) (b : Lpb) (launcher : Launcher)
    (payload : List Byte) (sheaf seq : Option Nat) : (s.addGrid core c b launcher payload sheaf seq).2.Canonical := by
  unfold State.addGrid
  dsimp only
  have hd := fun d => show State.Canonical { s.newId.2 with grids := s.newId.2.grids ++ [d] } from h
  split
  · split
    · exact hd _
    · exact (hd _).foldl (fun ht die => ht.pushDraw _ die) _
  · split
    · exact (hd _).pushRecord _ _ _
    · exact (hd _).nextFree.pushRecord _ _ _

theorem State.Canonical.markNodes {s : State} (h : s.Canonical) (g : Group) (p : Pend) : (s.markNodes g p).Canonical := by
  unfold State.markNodes
  split
  · exact h
  · split
    · refine h.foldl (fun ht a => ?_) _
      split
      · exact ht.markCheck _ _ _ _
      · exact ht
    · exact h

theorem State.Canonical.launch {s t : State} (h : s.Canonical) {g g' : Group} {p : Pend} {ids : List Nat}
    (e : s.launch g p = .ok (ids, g', t)) : t.Canonical := by
  unfold State.launch at e
  split at e
  · cases e
  · next c hc =>
    extract_lets wait at e
    split at e
    · cases e
    · next blocks hb =>
      split at e
      · cases e
      · simp only [Except.ok.injEq, Prod.mk.injEq] at e
        obtain ⟨-, -, rfl⟩ := e
        refine State.Canonical.ite (State.Canonical.markDropped ?_ _) ?_
        all_goals exact State.Canonical.foldlSnd (p := ([], s)) h (fun hq b => hq.addGrid ..) blocks

theorem State.Canonical.useSheaf {s : State} (h : s.Canonical) (core sheaf : Nat) : (s.useSheaf core sheaf).Canonical :=
  (h.setCore _ _).ite h

theorem State.Canonical.addGroup {s : State} (h : s.Canonical) (d : Grid) (t : Team) (index : Nat) (sheaf : Option Sheaf) :
    (s.addGroup d t index sheaf).Canonical := by
  cases sheaf with
  | none => exact h
  | some k => exact State.Canonical.useSheaf (s := { s.newId.2 with groups := _ }) h _ _

/-- A new team's window is written from an empty one, or from a copy of one frozen line. -/
theorem State.addTeam_wf (s : State) (d : Grid) (core gx gy gz : Nat) (frozen : Option Sheaf) :
    Memory.wf (s.addTeam d core gx gy gz frozen).1.scratch = true := by
  refine memWrite_wf ?_ _ _
  split
  · split
    · exact nil_wf
    · exact memWrite_wf nil_wf _ _
  · exact nil_wf

theorem TeamsWf.append {l : List Team} (h : TeamsWf l) {t : Team} (ht : Memory.wf t.scratch = true) : TeamsWf (l ++ [t]) := by
  intro u hu
  rcases List.mem_append.mp hu with hu | hu
  · exact h u hu
  · rw [List.mem_singleton.mp hu]; exact ht

theorem SheavesWf.append {l : List Sheaf} (h : SheavesWf l) {k : Sheaf} (hk : Memory.wf k.scratch = true) :
    SheavesWf (l ++ [k]) := by
  intro u hu
  rcases List.mem_append.mp hu with hu | hu
  · exact h u hu
  · rw [List.mem_singleton.mp hu]; exact hk

theorem State.Canonical.addTeam {s : State} (h : s.Canonical) (d : Grid) (core gx gy gz : Nat) (frozen : Option Sheaf) :
    (s.addTeam d core gx gy gz frozen).2.Canonical :=
  ⟨h.mem, h.teams.append (s.addTeam_wf d core gx gy gz frozen), h.sheaves⟩

theorem State.Canonical.addGroups {s : State} (h : s.Canonical) (d : Grid) (t : Team) (n : Nat) (sheaf : Option Sheaf) :
    (s.addGroups d t n sheaf).Canonical := h.foldl (fun hu i => hu.addGroup d t i sheaf) _

theorem State.Canonical.openGrid {s : State} (h : s.Canonical) (d : Grid) : (s.openGrid d).Canonical :=
  h.ite (((h.dropTexture _).dropRidge _).dropComposer _)

theorem State.Canonical.withClusters {s : State} (h : s.Canonical) (l : List ClusterBars) :
    ({ s with clusters := l } : State).Canonical := h

theorem State.Canonical.startCluster {s : State} (h : s.Canonical) (d : Grid) (ci : Nat) (cores : List Nat) :
    (s.startCluster d ci cores).Canonical := by
  unfold State.startCluster
  refine State.Canonical.setGrid (State.Canonical.foldl ((h.openGrid d).withClusters _) (fun ht e => ?_) _) _
  have hi := fun x y z f => (ht.addTeam d e.2 x y z f).invalidate e.2
  dsimp only
  split
  · exact ((hi ..).addGroup ..).ite (hi ..)
  · exact (hi ..).addGroups ..

theorem State.Canonical.startRecord {s t : State} (h : s.Canonical) {core : Nat}
    {e : List Nat × RecordPlace × Nat × DequeRecord} (he : s.startRecord core e = some t) : t.Canonical := by
  obtain ⟨rank, place, n, r⟩ := e
  unfold State.startRecord at he
  simp -zeta only at he
  extract_lets without at he
  have hw : ∀ new, (without new s).Canonical := by
    intro new
    unfold without
    split
    · exact h.setCore _ _
    · exact h
    · split
      · exact h.setContext _
      · exact h
  split at he
  · exact Option.some.inj he ▸ hw _
  · split at he
    · cases he
    · split at he
      · exact Option.some.inj he ▸ (hw _).startCluster _ _ _
      · cases he

/-- Where a search answers with canonical states alone, the state that it leaves is canonical. -/
theorem State.Canonical.getD {s : State} (h : s.Canonical) {o : Option State} (ho : ∀ t, o = some t → t.Canonical) :
    (o.getD s).Canonical := by
  cases o with
  | none => exact h
  | some t => exact ho t rfl

theorem State.Canonical.execTeamStart {s : State} (h : s.Canonical) (core : Nat) : Keeps (execTeamStart core s) := by
  refine .next (h.getD (fun t ht => ?_))
  obtain ⟨e, -, he⟩ := List.exists_of_findSome?_eq_some ht
  exact h.startRecord he

theorem State.Canonical.stealFrom {s t : State} (h : s.Canonical) {core : Nat} {l : List Nat}
    (e : s.stealFrom core l = some t) : t.Canonical := by
  induction l with
  | nil => cases e
  | cons v l ih =>
    unfold State.stealFrom at e
    split at e
    · exact ih e
    · split at e
      · exact Option.some.inj e ▸ (h.setCore _ _).setCore _ _
      · exact ih e

theorem State.Canonical.stealOverflow {s t : State} (h : s.Canonical) {core : Nat} {l : List Context}
    (e : s.stealOverflow core l = some t) : t.Canonical := by
  induction l with
  | nil => cases e
  | cons c l ih =>
    unfold State.stealOverflow at e
    split at e
    · exact ih e
    · split at e
      · exact Option.some.inj e ▸ (h.setContext _).setCore _ _
      · exact ih e

theorem State.Canonical.execSteal {s : State} (h : s.Canonical) (core : Nat) : Keeps (execSteal core s) := by
  unfold Machine.execSteal
  split
  · split
    · next he => exact .next (h.stealFrom he)
    · exact .next (h.getD (fun t ht => h.stealOverflow ht))
  · exact .next h

/-! ### FREEZE and sheaves -/

theorem captureSheaf_wf (s : State) (g : Group) (p : Path) (ctx lines : Nat) (start : Word) (id : Nat) :
    Memory.wf (captureSheaf s g p ctx lines start id).scratch = true := by
  unfold captureSheaf
  dsimp only
  split
  · exact nil_wf
  · exact memWrite_wf nil_wf _ _

theorem State.Canonical.installSheaf {s t : State} (h : s.Canonical) {core sheaf : Nat}
    (e : s.installSheaf core sheaf = some t) : t.Canonical := by
  unfold State.installSheaf at e
  extract_lets k pinned at e
  split at e
  · exact Option.some.inj e ▸ h.setCore _ _
  · split at e
    · exact Option.some.inj e ▸ h.setCore _ _
    · split at e
      · cases e
      · exact Option.some.inj e ▸ h.setCore _ _

theorem State.Canonical.addSheaf {s : State} (h : s.Canonical) {k : Sheaf} (hk : Memory.wf k.scratch = true) :
    ({ s with sheaves := s.sheaves ++ [k] } : State).Canonical := ⟨h.mem, h.teams, h.sheaves.append hk⟩

theorem State.Canonical.wakeSheaf {s : State} (h : s.Canonical) (gid : Nat) : (s.wakeSheaf gid).Canonical := by
  unfold State.wakeSheaf
  split
  · exact h
  · exact (h.setGroup _).ite h

theorem State.Canonical.execSheafMiss {s : State} (h : s.Canonical) (core sheaf : Nat) : Keeps (execSheafMiss core sheaf s) := by
  unfold Machine.execSheafMiss
  split
  · exact .next h
  · split
    · exact .next h
    · next he => exact .next ((h.installSheaf he).foldl (fun hu g => hu.wakeSheaf g) _)

/-- The teams of a cluster have canonical scratchpads. -/
theorem State.Canonical.clusterTeams {s : State} (h : s.Canonical) {t : Team} (ht : Memory.wf t.scratch = true) :
    TeamsWf (s.clusterTeams t) := by
  unfold State.clusterTeams
  split
  · intro u hu
    rw [List.mem_singleton.mp hu]; exact ht
  · exact h.teams.filter _

theorem State.Canonical.execFreeze {s : State} (h : s.Canonical) (a : Src) : Keeps (execFreeze a s) := by
  refine h.issue (fun c hc => ?_)
  extract_lets +onlyGivenNames n rs
  split
  · exact .raise _
  · next t d _ ht _ =>
    have hw : Memory.wf t.scratch = true := hc.team ht
    refine Eff.Canonical.ite (e := .wait _) trivial ?_
    extract_lets +onlyGivenNames c1
    have h1 : c1.s.Canonical := by simpa [c1] using hc
    extract_lets +onlyGivenNames lines
    dsimp -zeta only [State.newId]
    extract_lets +onlyGivenNames k s1
    have h2 : s1.Canonical := State.Canonical.addSheaf (s := { c1.s with fresh := _ }) h1 (captureSheaf_wf ..)
    extract_lets +onlyGivenNames s2 g0 g
    have h3 : s2.Canonical := h2.getD (fun u hu => h2.installSheaf hu)
    split
    · extract_lets +onlyGivenNames d' s3 s4 s5 others s6 s7
      have h5 : s5.Canonical := (((h3.setGrid d').setGroup g).invalidate t.core).addGroups d' t 1 (some k)
      have h6 : s6.Canonical := by
        refine h5.foldlMem (fun hv u hu => ?_)
        have hw' : Memory.wf u.scratch = true := h5.clusterTeams hw u (List.mem_filter.mp hu).1
        apply State.Canonical.addGroups
        apply State.Canonical.invalidate
        exact hv.setTeam hw'
      exact (h6.pushRecord _ _ _).ite h6
    · exact ((h3.markDropped _).setGroup _).dropSheaves
  · exact .raise _

/-! ### Returns -/

theorem State.Canonical.forward {s : State} (h : s.Canonical) (g : Group) (p : Pend) (t : Trap) :
    (s.forward g p t).Canonical := by
  unfold State.forward
  dsimp only
  split <;> exact h

theorem State.Canonical.poisonPend {s : State} (h : s.Canonical) (g : Group) (p : Pend) : (s.poisonPend g p).Canonical := by
  unfold State.poisonPend
  dsimp only
  split
  · exact h.forward _ _ _
  · exact h

theorem State.Canonical.returnLoad {s : State} (h : s.Canonical) (g : Group) (p : Pend) (sz : MemSize) (cacheable : Bool)
    (sector part : Nat) : (s.returnLoad g p sz cacheable sector part).Canonical := by
  unfold State.returnLoad
  dsimp only
  split
  · exact h.poisonPend _ _
  · exact (h.loadSectors _ _ _).deliver _ _ _

theorem State.Canonical.faultPend {s : State} (h : s.Canonical) (g : Group) (p : Pend) (t : Trap) :
    (s.faultPend g p t).Canonical := by
  have hf : ({ s with fresh := s.fresh + 1 } : State).Canonical := h
  exact (h.forward _ _ _).ite ((hf.setGroup _).notePoison _ _)

theorem State.Canonical.windowLoad {s : State} (h : s.Canonical) (g : Group) (p : Pend) (sz : MemSize) (part : Nat) :
    (s.windowLoad g p sz part).Canonical := by
  unfold State.windowLoad
  split
  · exact h
  · split
    · exact h.faultPend _ _ _
    · exact h.deliver _ _ _

theorem State.Canonical.performAtom {s : State} (h : s.Canonical) (g : Group) (p : Pend) (op : AtomOp) (w : Bool)
    (part : Nat) : (s.performAtom g p op w part).Canonical := by
  unfold State.performAtom
  dsimp only
  split
  · exact h.poisonPend _ _
  · refine State.Canonical.deliver (State.Canonical.foldl ?_ (fun ht x => ht.refreshSector _ x) _) _ _ _
    refine State.Canonical.foldlSnd (p := ([], s)) h (fun hq t => ?_) _
    split
    · exact hq
    · exact hq.writeRuns _ _

theorem State.Canonical.scratchPoisoned {s : State} (h : s.Canonical) (g : Group) (p : Pend) (bad : List LaneAccess) :
    (s.scratchPoisoned g p bad).Canonical := h.faultPend _ _ _

theorem State.Canonical.performAtoms {s : State} (h : s.Canonical) (g : Group) (p : Pend) (sp : Space) (op : AtomOp)
    (w : Bool) (part : Nat) : (s.performAtoms g p sp op w part).Canonical := by
  unfold State.performAtoms
  dsimp only
  split
  · exact h.scratchPoisoned _ _ _
  · refine State.Canonical.deliver ?_ _ _ _
    refine State.Canonical.foldlSnd (p := ([], s)) h (fun hq t => ?_) _
    split
    · exact hq
    · exact hq.scratchWrite _ _ _

theorem State.Canonical.performLds {s : State} (h : s.Canonical) (g : Group) (p : Pend) (sp : Space) (sz : MemSize)
    (part : Nat) : (s.performLds g p sp sz part).Canonical := by
  unfold State.performLds
  split
  · exact h.scratchPoisoned _ _ _
  · exact h.deliver _ _ _

theorem State.Canonical.returnQuad {s : State} (h : s.Canonical) (g : Group) (p : Pend) (q : QWord) (tag : Bool)
    (part : Nat) : (s.returnQuad g p q tag part).Canonical := h.deliver _ _ _

theorem State.Canonical.charge {s : State} (h : s.Canonical) (ctx : Nat) (l : List (Resource × Nat)) :
    (s.charge ctx l).Canonical := by
  unfold State.charge
  split
  · exact h
  · exact h.ite (h.setContext _)

theorem State.Canonical.chargeAccess {s : State} (h : s.Canonical) (g : Group) (secs : List Nat) :
    (s.chargeAccess g secs).Canonical := by
  unfold State.chargeAccess
  split
  · exact h
  · exact h.ite (h.charge _ _)

theorem State.Canonical.execLoadSectorReturn {s : State} (h : s.Canonical) (gid id : Nat) (part : SectorPart) :
    Keeps (execLoadSectorReturn gid id part s) := by
  unfold Machine.execLoadSectorReturn
  dsimp only
  split
  · exact .next h
  · split
    · exact .next h
    · refine Keeps.ite (.next (h.deliver _ _ _)) (Keeps.ite (.next h) ?_)
      split
      · exact .ite (.next (h.windowLoad _ _ _ _)) (.next ((h.chargeAccess _ _).returnLoad _ _ _ _ _ _))
      · exact .next (h.performLds _ _ _ _ _)
      · exact .next (h.returnQuad _ _ _ _ _)
      · exact .ite (.next h) (.ite (.next (h.poisonPend _ _)) (.next (((h.chargeAccess _ _).readL2 _ _).returnQuad _ _ _ _ _)))
      · exact .next (h.returnQuad _ _ _ _ _)
      · exact .ite (.next ((h.chargeAccess _ _).performAtom _ _ _ _ _)) (.next h)
      · split
        · exact .next (h.faultPend _ _ _)
        · exact .next (h.performAtoms _ _ _ _ _ _)
      · split
        · exact .next h
        · split
          · exact .next h
          · exact .next ((h.setGroup _).returnAll _ _ _ _)
      · exact .next h

theorem State.Canonical.landLoad {s : State} (h : s.Canonical) (gid id n : Nat) : (State.landLoad gid id n s).Canonical := by
  induction n generalizing s with
  | zero => exact h
  | succ n ih =>
    unfold State.landLoad
    split
    · exact h
    · split
      · exact h
      · split
        · exact .ite (ih (h.returnLoad _ _ _ _ _ _)) h
        · exact h

theorem State.Canonical.landDue {s : State} (h : s.Canonical) (gid id : Nat) : (State.landDue gid s id).Canonical := by
  unfold State.landDue
  split
  · exact h
  · split
    · exact h
    · exact h.ite (h.deliver _ _ _)

theorem State.Canonical.land {s : State} (h : s.Canonical) (gid : Nat) : (s.land gid).Canonical := by
  unfold State.land
  split
  · exact h
  · exact State.Canonical.foldl (State.Canonical.foldl (h.withGroups _) (fun ht p => ht.landLoad _ _ _) _)
      (fun ht id => ht.landDue _ id) _

/-! ### Stores, fences and launches performed -/

theorem State.Canonical.windowStore {s : State} (h : s.Canonical) (g : Group) (p : Pend) : (s.windowStore g p).Canonical := by
  unfold State.windowStore
  dsimp only
  split
  · exact h.faultPend _ _ _
  · refine h.ite (State.Canonical.landed ?_ _)
    refine State.Canonical.foldlSnd (p := (g, s)) h (fun hq a => ?_) _
    split
    · exact hq
    · split
      · exact hq
      · split
        · exact hq
        · exact hq.setGroup _

theorem State.Canonical.storeToCore {s : State} (h : s.Canonical) (g : Group) (p : Pend) : (s.storeToCore g p).Canonical :=
  (h.windowStore g p).ite ((h.setCore _ _).landed _)

theorem State.Canonical.setTags {s : State} (h : s.Canonical) (l : List Nat) :
    (l.foldl (fun s a => s.setTag a) s).Canonical := h.foldl (fun ht a => ht.setTag a) l

theorem State.Canonical.storeToMemory {s : State} (h : s.Canonical) (g : Group) (p : Pend) :
    (s.storeToMemory g p).Canonical := by
  unfold State.storeToMemory
  dsimp only
  split
  · exact h.landed _
  · exact h.ite (((((h.writePhys _).chargeAccess _ _).setTags _).setCore _ _).landed _)

theorem State.Canonical.flushOne {s : State} (h : s.Canonical) (core : Nat) : (s.flushOne core).Canonical := by
  unfold State.flushOne
  split
  · exact h
  · split
    · exact h.storeToMemory _ _
    · exact ((h.writePhys _).setTags _).setCore _ _

theorem State.Canonical.flushCore {s : State} (h : s.Canonical) (core : Nat) : (s.flushCore core).Canonical :=
  h.foldl (fun ht _ => ht.flushOne core) _

theorem State.Canonical.fenceTurn {s : State} (h : s.Canonical) (g : Group) (p : Pend) (ready drain : Bool)
    {finish : State → State} (hf : (finish s).Canonical) : (s.fenceTurn g p ready drain finish).Canonical :=
  h.ite (hf.ite ((h.setGroup _).ite (h.ite hf)))

theorem State.Canonical.acquire {s : State} (h : s.Canonical) (core : Nat) (sc : Scope) : (s.acquire core sc).Canonical :=
  (h.invalidate core).ite h

theorem State.Canonical.prefetchLine {s : State} (h : s.Canonical) (g : Group) (c : Context) (x : XReg) (o : Nat) :
    (s.prefetchLine g c x o).Canonical := by
  unfold State.prefetchLine
  split
  · exact h
  · split
    · split
      · exact h.ite (h.foldl (fun ht i => ht.setCore _ _) _)
      · exact h
    · exact h
    · exact h

theorem State.Canonical.launchNow {s : State} (h : s.Canonical) (g : Group) (p : Pend) : (s.launchNow g p).Canonical := by
  unfold State.launchNow
  have hm := h.markNodes g p
  split
  · exact h
  · split
    · exact h.poisonPend _ _
    · dsimp only
      split
      · exact hm.faultPend _ _ _
      · next he _ => exact (hm.launch he).setGroup _
      · next he _ => exact (hm.launch he).landed _

theorem State.Canonical.execStorePerformed {s : State} (h : s.Canonical) (gid id : Nat) :
    Keeps (execStorePerformed gid id s) := by
  unfold Machine.execStorePerformed
  split
  · exact .next h
  · split
    · exact .next h
    · refine Keeps.ite (.next h) ?_
      dsimp only
      split
      · exact .ite (.next (h.storeToMemory _ _)) (.ite (.next (h.storeToCore _ _)) (.next h))
      · exact .ite (.next (h.storeToMemory _ _)) (.ite (.next (h.storeToCore _ _)) (.next h))
      · refine Keeps.ite (.next h) ?_
        split
        · exact .next (h.faultPend _ _ _)
        · refine .next (State.Canonical.progress (h.foldl (fun ht t => ?_) _) _ _)
          split
          · exact ht
          · exact ht.scratchWrite _ _ _
      · exact .ite (.next ((h.chargeAccess _ _).performAtom _ _ _ _ _)) (.next h)
      · refine Keeps.ite (.next h) ?_
        split
        · exact .next (h.faultPend _ _ _)
        · exact .next (h.performAtoms _ _ _ _ _ _)
      · refine Keeps.ite (.next h) ?_
        split
        · exact .next h
        · next t ht =>
          have hw : Memory.wf t.scratch = true := h.team ht
          refine .next (State.Canonical.completePend (State.Canonical.setTeam (h.setGroup _) ?_) _ _)
          exact hw
      · refine Keeps.ite (.next h) ?_
        split
        · exact .next h
        · exact .next (h.landed _)
      · refine .next (State.Canonical.completePend ?_ _ _)
        split
        · exact h.foldl (fun ht l => ht.prefetchLine _ _ _ _) _
        · exact h
      · refine .next (h.fenceTurn _ _ _ _ (State.Canonical.completePend ?_ _ _))
        split
        · exact h
        · exact h.acquire _ _
        · exact h.acquire _ _
      · refine .next (h.fenceTurn _ _ _ _ (State.Canonical.completePend ?_ _ _))
        split
        · exact h.acquire _ _
        · exact h.acquire _ _
        · exact h.dropTexture _
        · exact h.ite (h.dropRidge _)
        · exact h.ite (h.dropComposer _)
        · exact h
      · exact .next (h.launchNow _ _)
      · exact .next (h.launchNow _ _)
      · exact .ite (.next (h.launchNow _ _)) (.next h)
      · exact .next h

theorem State.Canonical.waitaWord {s : State} (h : s.Canonical) (g : Group) (p : Pend) : (s.waitaWord g p).2.Canonical := by
  unfold State.waitaWord
  have hp := h.checkPend g { p with status := .inFlight }
  split
  · exact h
  · dsimp only
    split
    · split
      · split
        · exact hp
        · exact hp
      · split
        · exact hp.readL2 _ _
        · exact hp
    · exact hp.setGroup _

theorem State.Canonical.execWaitaReread {s : State} (h : s.Canonical) (gid id : Nat) : Keeps (execWaitaReread gid id s) := by
  unfold Machine.execWaitaReread
  split
  · exact .next h
  · split
    · exact .next h
    · split
      · split
        · split
          · next he => exact .next ((h.waitaWord _ _).snd he)
          · next he =>
            have hw := (h.waitaWord _ _).snd he
            exact .ite (.next hw) (.next ((hw.acquire _ _).completePend _ _))
        · exact .next h
      · exact .next h

theorem State.Canonical.execLaunchWaitComplete {s : State} (h : s.Canonical) (gid id : Nat) :
    Keeps (execLaunchWaitComplete gid id s) := by
  unfold Machine.execLaunchWaitComplete
  split
  · exact .next h
  · split
    · exact .next h
    · split
      · exact .ite (.next ((h.invalidate _).completePend _ _)) (.next h)
      · exact .next h

/-! ### The copy engine -/

theorem State.Canonical.execCkick {s : State} (h : s.Canonical) (u : Bool) (a b : Src) : Keeps (execCkick u a b s) :=
  h.issue (fun c hc => (c.idle_canonical hc _).ite (.done (c.fly_canonical hc _ _ _)))

theorem State.Canonical.execCopyRequestFetch {s : State} (h : s.Canonical) (gid id : Nat) :
    Keeps (execCopyRequestFetch gid id s) := by
  unfold Machine.execCopyRequestFetch
  split
  · exact .next h
  · split
    · exact .next h
    · split
      · refine Keeps.ite (.next h) (Keeps.ite (.next (h.faultPend _ _ _)) (Keeps.ite (.next (h.faultPend _ _ _))
          (Keeps.ite (.next (h.faultPend _ _ _)) ?_)))
        dsimp only
        split
        · exact .next (h.faultPend _ _ _)
        · refine .next (State.Canonical.completePend ?_ _ _)
          exact h
      · exact .next h

theorem State.Canonical.setCopyReq {s : State} (h : s.Canonical) (core : Nat) (r : CopyReq) :
    (s.setCopyReq core r).Canonical := h

theorem State.Canonical.dropCopyReq {s : State} (h : s.Canonical) (core : Nat) (r : CopyReq) :
    (s.dropCopyReq core r).Canonical := (h.setCore _ _).closeTeam _

theorem State.Canonical.stopCopy {s : State} (h : s.Canonical) (core : Nat) (r : CopyReq) (t : Trap) :
    (s.stopCopy core r t).Canonical := by
  unfold State.stopCopy
  refine State.Canonical.dropCopyReq ?_ _ _
  split
  · exact h.withFresh _
  · exact ((h.withFresh _).setGroup _).notePoison _ _

theorem State.Canonical.copyFault {s : State} (h : s.Canonical) (core : Nat) (r : CopyReq) (t : Trap) :
    (s.copyFault core r t).Canonical := by
  unfold State.copyFault
  split
  · exact h.setCopyReq _ _
  · exact h.stopCopy _ _ _
  · exact h
  · exact h

theorem State.Canonical.copySource {s : State} (h : s.Canonical) (core : Nat) (c : Context) (t : Team) (r : CopyReq)
    (off n : Nat) : (s.copySource core c t r off n).2.Canonical := by
  unfold State.copySource
  split
  · split
    · exact h
    · exact h
  · split
    · next he => exact (h.access ..).snd he
    · next he => exact (h.access ..).snd he

theorem State.Canonical.copyDest {s : State} (h : s.Canonical) (core : Nat) (c : Context) (t : Team) (r : CopyReq)
    (off : Nat) (bytes : List Byte) (tags : List Nat) : (s.copyDest core c t r off bytes tags).2.Canonical := by
  unfold State.copyDest
  split
  · split
    · exact h.scratchWrite _ _ _
    · exact h
  · split
    · next he => exact ((h.access ..).snd he).setCore _ _
    · next he => exact (h.access ..).snd he

theorem State.Canonical.copyPiece {s : State} (h : s.Canonical) (core : Nat) (c : Context) (t : Team) (r : CopyReq) :
    (s.copyPiece core c t r).Canonical := by
  unfold State.copyPiece
  split
  split
  refine h.nextFree.nextFree.nextFree.ite ?_
  have hs := fun r off n => h.nextFree.nextFree.nextFree.copySource core c t r off n
  dsimp only
  split
  · next he => exact ((hs ..).snd he).copyFault _ _ _
  · next he =>
    have hd := fun r off b tags => ((hs ..).snd he).copyDest core c t r off b tags
    split
    · next he' => exact ((hd ..).snd he').copyFault _ _ _
    · next he' => exact (((hd ..).snd he').setCopyReq _ _).charge _ _

theorem State.Canonical.drainCopy {s : State} (h : s.Canonical) (core req : Nat) : (s.drainCopy core req).Canonical := by
  unfold State.drainCopy
  dsimp only
  split
  · exact h
  · exact h.ite (((h.writePhys _).setTags _).setCore _ _)

theorem State.Canonical.execCopyRequestPerform {s : State} (h : s.Canonical) (core req : Nat) :
    Keeps (execCopyRequestPerform core req s) := by
  unfold Machine.execCopyRequestPerform
  split
  · exact .ite (.next h) (.next (h.drainCopy _ _))
  · split
    · exact .ite (.next (h.nextFree.drainCopy _ _)) (.next (h.nextFree.copyPiece _ _ _ _))
    · exact .next h

theorem State.Canonical.mapUpdate {s : State} (h : s.Canonical) (core : Nat) (c : Context) (r : CopyReq) :
    (s.mapUpdate core c r).Canonical := by
  unfold State.mapUpdate
  refine h.ite ?_
  split
  · next he =>
    have ha := (h.access ..).snd he
    exact ha.ite (((ha.writeRuns _ _).dropTexture _).setCopyReq _ _)
  · next he => exact ((h.access ..).snd he).copyFault _ _ _

theorem State.Canonical.execCopyCompletion {s : State} (h : s.Canonical) (core req part : Nat) :
    Keeps (execCopyCompletion core req part s) := by
  unfold Machine.execCopyCompletion
  split
  · exact .next h
  · split
    · refine Keeps.ite (.next h) (Keeps.ite (.next (h.mapUpdate _ _ _)) ?_)
      dsimp only
      split
      · exact .next (h.stopCopy _ _ _)
      · exact .ite (.next (h.stopCopy _ _ _)) (.ite (.next ((h.scratchWrite _ _ _).dropCopyReq _ _))
          (.ite (.next ((h.scratchWrite _ _ _).dropCopyReq _ _)) (.next ((h.scratchWrite _ _ _).setCopyReq _ _))))
    · exact .next h

/-! ### TRET, deliveries and service answers -/

theorem State.Canonical.reissueBar {s : State} (h : s.Canonical) (g : Group) (p : Pend) : (s.reissueBar g p).2.Canonical := by
  unfold State.reissueBar
  dsimp only
  have hb := h.bar g p.instr (p.opc g 0).toNat (p.opc g 1).toNat
  split
  · split
    · split
      · exact h
      · exact h.acquireBar _ _
    · exact h
  · split
    · exact h
    · next he => exact (he ▸ hb :)
    · next he => exact (he ▸ hb :)

theorem State.Canonical.reissue {s : State} (h : s.Canonical) (g : Group) (p : Pend) : (s.reissue g p).2.Canonical := by
  unfold State.reissue
  split
  · exact h.reissueBar _ _
  · exact h.reissueBar _ _
  · exact h.reissueBar _ _
  · split
    · exact h
    · exact h
  · split
    · exact h
    · exact h.checkPend _ _

theorem State.Canonical.reissueAll {s : State} (h : s.Canonical) (g : Group) (l : List Pend) :
    (s.reissueAll g l).2.Canonical := by
  induction l generalizing s g with
  | nil => exact h
  | cons p l ih => exact ih (h.reissue g p) _

theorem State.Canonical.frameValue {s : State} (h : s.Canonical) (core : Nat) (c : Context) (x : XReg)
    (frame off n : Nat) : (s.frameValue core c x frame off n).2.Canonical := by
  unfold State.frameValue
  split
  · next he => exact (h.readThrough ..).snd he
  · next he => exact (h.readThrough ..).snd he

theorem State.Canonical.frameBlocks {s : State} (h : s.Canonical) (core : Nat) (c : Context) (x : XReg)
    (frame base n : Nat) : (s.frameBlocks core c x frame base n).2.Canonical := by
  induction n generalizing s base with
  | zero => exact h
  | succ n ih =>
    unfold State.frameBlocks
    split
    · next he => exact (h.frameValue ..).snd he
    · next he =>
      have hr := ih ((h.frameValue ..).snd he) (base + 1)
      split
      · next he' => exact hr.snd he'
      · next he' => exact hr.snd he'

theorem State.Canonical.frameEntries {s : State} (h : s.Canonical) (core : Nat) (c : Context) (x : XReg)
    (frame nent i base : Nat) (l : List Pend) : (s.frameEntries core c x frame nent i base l).2.Canonical := by
  induction l generalizing s i base with
  | nil => exact h
  | cons p l ih =>
    unfold State.frameEntries
    split
    · exact h
    · split
      · next he => exact (h.frameValue ..).snd he
      · next he =>
        have hb := ((h.frameValue ..).snd he).frameBlocks core c x frame base p.blocks.length
        split
        · next he' => exact hb.snd he'
        · next he' =>
          have hr := ih (hb.snd he') (i + 1) (base + p.blocks.length)
          split
          · next he'' => exact hr.snd he''
          · next he'' => exact hr.snd he''

theorem State.Canonical.readFrame {s : State} (h : s.Canonical) (g : Group) (half : Nat) (c : Context) (l : LiveFrame) :
    (s.readFrame g half c l).2.Canonical := by
  unfold State.readFrame
  split
  · exact h
  · split
    · next he => exact (h.frameValue ..).snd he
    · next he =>
      have hv := (h.frameValue ..).snd he
      split
      · exact hv
      · split
        · next he' => exact (hv.frameEntries ..).snd he'
        · next he' => exact (hv.frameEntries ..).snd he'

theorem State.Canonical.execTret {s : State} (h : s.Canonical) : Keeps (execTret s) := by
  refine h.issue (fun c hc => ?_)
  split
  · refine (Eff.Canonical.raise _).ite ?_
    split
    · next he => exact (hc.readFrame ..).snd he
    · next he =>
      have hr := (hc.readFrame ..).snd he
      split
      · exact .raise _
      · exact (Eff.Canonical.raise _).ite (hr.reissueAll _ _)
  · exact .raise _

theorem State.Canonical.execTrapDelivery {s : State} (h : s.Canonical) (gid half : Nat) :
    Keeps (execTrapDelivery gid half s) := by
  unfold Machine.execTrapDelivery
  split
  · exact .next h
  · exact .ite (.next (h.takeTrap _ _ _)) (.next h)

theorem State.Canonical.execPathStopTimeout {s : State} (h : s.Canonical) (gid slot : Nat) :
    Keeps (execPathStopTimeout gid slot s) := by
  unfold Machine.execPathStopTimeout
  split
  · exact .next h
  · exact .ite (.next (h.setGroup _)) (.next h)

theorem State.Canonical.answered {s : State} (h : s.Canonical) (c : Context) (t : Trap) (a : ServiceAnswer) :
    (s.answered c t a).1.Canonical := by
  unfold State.answered
  split
  · dsimp only
    split
    · exact h.writeBytes _ _
    · exact h
    · exact h
  · split
    · exact h.writeBytes _ _
    · exact h
  · exact h

theorem State.Canonical.answerPend {s : State} (h : s.Canonical) (g : Group) (p : Pend) (t : Trap) (replay : Bool) :
    (s.answerPend g p t replay).Canonical :=
  (h.forward _ _ _).ite (((h.forward _ _ _).ite (h.setGroup _)).ite ((h.forward _ _ _).ite ((h.checkPend _ _).setGroup _)))

theorem State.Canonical.answerCopies {s : State} (h : s.Canonical) (id : Nat) (a : ServiceAnswer) :
    (execServiceResponse.copies id a s).Canonical := by
  unfold Machine.execServiceResponse.copies
  split
  · exact h
  · split
    · exact h
    · split
      · exact ((h.answered _ _ _).setCopyReq _ _).ite ((h.answered _ _ _).stopCopy _ _ _)
      · exact h

theorem State.Canonical.execServiceResponse {s : State} (h : s.Canonical) (gid id : Nat) (a : ServiceAnswer) :
    Keeps (execServiceResponse gid id a s) := by
  unfold Machine.execServiceResponse
  split
  · split
    · split
      · exact .next ((h.answered _ _ _).answerPend _ _ _ _)
      · exact .next h
      · exact .next h
      · exact .next h
    · exact .next (h.answerCopies _ _)
  · exact .next (h.answerCopies _ _)

/-! ### The matrix engine -/

/-- A fold over a team of operations that keep its scratchpad canonical. -/
theorem Team.foldl_wf {α : Type} {f : Team → α → Team} {t : Team} (h : Memory.wf t.scratch = true)
    (hf : ∀ {u : Team}, Memory.wf u.scratch = true → ∀ a, Memory.wf (f u a).scratch = true) (l : List α) :
    Memory.wf (l.foldl f t).scratch = true := by
  induction l generalizing t with
  | nil => exact h
  | cons a l ih => exact ih (hf h a)

theorem Team.setRegion_wf {t : Team} (h : Memory.wf t.scratch = true) (r : LoftRegion) :
    Memory.wf (t.setRegion r).scratch = true := h

theorem Team.setAcc_wf {t : Team} (h : Memory.wf t.scratch = true) (row col : Nat) (w : Word) :
    Memory.wf (t.setAcc row col w).scratch = true := h

theorem State.Canonical.mloadb {s u : State} (h : s.Canonical) {t : Team} (ht : Memory.wf t.scratch = true) {w0 w1 : Word}
    (e : s.mloadb t w0 w1 = .ok u) : u.Canonical := by
  unfold State.mloadb at e
  dsimp only at e
  split at e
  · cases e
  · obtain rfl := Except.ok.inj e
    refine h.setTeam ?_
    exact Team.foldl_wf ht (fun hu _ => Team.foldl_wf hu (fun hv _ => Team.setRegion_wf hv _) _) _

theorem State.Canonical.mloop {s u : State} (h : s.Canonical) {t : Team} (ht : Memory.wf t.scratch = true) {w : List Word}
    {q : Word} (e : s.mloop t w q = .ok u) : u.Canonical := by
  unfold State.mloop at e
  dsimp only at e
  split at e
  · cases e
  · obtain rfl := Except.ok.inj e
    refine h.setTeam ?_
    exact Team.foldl_wf ht (fun hu _ => Team.foldl_wf hu (fun hv _ => Team.setAcc_wf hv _ _ _) _) _

theorem State.Canonical.engineWrites {s u : State} (h : s.Canonical) {t : Team} {rows : List (Nat × List Byte)}
    (e : s.engineWrites t rows = .ok u) : u.Canonical := by
  unfold State.engineWrites at e
  dsimp only at e
  split at e
  · obtain rfl := Except.ok.inj e
    exact h.foldl (fun hv r => hv.scratchWrite _ _ _) _
  · cases e

theorem State.Canonical.mdrain {s u : State} (h : s.Canonical) {t : Team} {w0 w1 w2 : Word}
    (e : s.mdrain t w0 w1 w2 = .ok u) : u.Canonical := by
  unfold State.mdrain at e
  dsimp only at e
  split at e
  · cases e
  · split at e
    · cases e
    · split at e
      · cases e
      · exact h.engineWrites e

theorem State.Canonical.mzero {s u : State} (h : s.Canonical) {t : Team} (ht : Memory.wf t.scratch = true) {a b : Nat}
    (e : s.mzero t a b = .ok u) : u.Canonical := by
  unfold State.mzero at e
  split at e
  · cases e
  · obtain rfl := Except.ok.inj e
    exact h.setTeam ht

theorem State.Canonical.vxm {s : State} (h : s.Canonical) (g : Group) (p : Pend) (part : Nat) :
    (s.vxm g p part).Canonical := by
  unfold State.vxm
  split
  · exact h
  · have hm := fun c l => (h.markLanes g.core c false l).nextFree
    dsimp only
    split
    · exact (hm _ _).faultPend _ _ _
    · split
      · exact (hm _ _).chargeAccess _ _
      · exact ((hm _ _).chargeAccess _ _).deliver _ _ _

theorem State.Canonical.flyCommand {s : State} (h : s.Canonical) (i : Instr) : Keeps (flyCommand i s) :=
  h.issue (fun c hc => .done (c.fly_canonical hc _ _ _))

theorem State.Canonical.execMloop {s : State} (h : s.Canonical) (a : Fin 64) : Keeps (execMloop a s) :=
  h.issue (fun c hc => .done (c.fly_canonical hc _ _ _))

theorem State.Canonical.execMdrainv {s : State} (h : s.Canonical) (d : Fin 64) (a b : Src) : Keeps (execMdrainv d a b s) :=
  h.issue (fun c hc => .done (c.fly_canonical hc _ _ _))

theorem State.Canonical.execMscale {s : State} (h : s.Canonical) (q : Fin 8) (a : Src) : Keeps (execMscale q a s) :=
  h.issue (fun c hc => .done (by simpa using hc))

theorem State.Canonical.setScratch {s : State} (h : s.Canonical) {t : Team} (ht : Memory.wf t.scratch = true) :
    (s.setScratch t).Canonical := by
  refine ⟨h.mem, h.teams.map (fun u hu => ?_), h.sheaves⟩
  split
  · exact ht
  · exact hu

/-- The scratchpad that an MLOOP sees is written anew from an empty one. -/
theorem State.mloopTeam_wf (s : State) {t : Team} (ht : Memory.wf t.scratch = true) (p : Pend) :
    Memory.wf (s.mloopTeam t p).scratch = true := by
  unfold State.mloopTeam
  split
  · exact ht
  · exact memWriteList_wf nil_wf _

theorem State.Canonical.commandDone {s : State} (h : s.Canonical) (g : Group) (p : Pend) {r : Except Trap State}
    (hr : ∀ u, r = .ok u → u.Canonical) : (s.commandDone g p r).Canonical := by
  cases r with
  | error t => exact h.faultPend _ _ _
  | ok u => exact (hr u rfl).completePend _ _

theorem exists_ok_of_map {f : State → State} {r : Except Trap State} {v : State} (e : r.map f = .ok v) :
    ∃ u, r = .ok u ∧ f u = v := by
  cases r with
  | error t => cases e
  | ok u => exact ⟨u, rfl, Except.ok.inj e⟩

theorem State.Canonical.mloopTurn {s : State} (h : s.Canonical) (g : Group) (p : Pend) {t : Team}
    (ht : Memory.wf t.scratch = true) : (s.mloopTurn g p t).Canonical := by
  refine (h.nextFree.setGroup _).ite (h.nextFree.commandDone g p (fun v hv => ?_))
  obtain ⟨u, hu, rfl⟩ := exists_ok_of_map hv
  exact (h.nextFree.mloop (s.mloopTeam_wf ht p) hu).setScratch ht

theorem State.Canonical.execEngineCommandComplete {s : State} (h : s.Canonical) (gid id : Nat) :
    Keeps (execEngineCommandComplete gid id s) := by
  unfold Machine.execEngineCommandComplete
  split
  · exact .next h
  · split
    · next t _ ht =>
      have hw : Memory.wf t.scratch = true := h.team ht
      refine Keeps.ite (.next (h.deliver _ _ _)) (Keeps.ite (.next h) ?_)
      dsimp only
      split
      · exact .next (h.commandDone _ _ (fun u hu => h.mloadb hw hu))
      · exact .next (h.mloopTurn _ _ hw)
      · exact .next (h.commandDone _ _ (fun u hu => h.mdrain hu))
      · exact .next (h.commandDone _ _ (fun u hu => h.mzero hw hu))
      · split
        · exact .next (h.faultPend _ _ _)
        · exact .next (h.returnAll _ _ _ _)
      · exact .ite (.next h) (.next (h.vxm _ _ _))
      · exact .next h
    · exact .next h

/-! ### The gutter and the texture unit -/

theorem State.Canonical.execGutterEntryPerformed {s : State} (h : s.Canonical) (unit : GutterUnit) :
    Keeps (execGutterEntryPerformed unit s) := by
  unfold Machine.execGutterEntryPerformed
  split
  · exact .next h
  · split
    · exact .next h
    · exact .ite (.next h) (.next ((h.writeBytes _ _).setContext _))

theorem State.Canonical.execGuttail {s : State} (h : s.Canonical) (ctx : Nat) (value : Word) :
    Keeps (execGuttail ctx value s) := by
  unfold Machine.execGuttail
  split
  · exact .next h
  · exact .ite (.next h) (.next h)

theorem State.Canonical.execGuthead {s : State} (h : s.Canonical) (ctx : Nat) (value : Word) :
    Keeps (execGuthead ctx value s) := by
  unfold Machine.execGuthead
  split
  · exact .next h
  · exact .ite (.next (h.setContext _)) (.next h)

theorem State.Canonical.execGutovf {s : State} (h : s.Canonical) (ctx : Nat) (value : Word) :
    Keeps (execGutovf ctx value s) := by
  unfold Machine.execGutovf
  split
  · exact .next h
  · exact .next (h.setContext _)

theorem State.Canonical.textureLook {s : State} (h : s.Canonical) (g : Group) (p : Pend) (c : Context) :
    (s.textureLook g p c).Canonical := by
  unfold State.textureLook
  extract_lets e l use s1
  have h1 : s1.Canonical := (h.markLeaves _ _ _ _).chargeAccess _ _
  clear_value s1
  split
  · exact h1.faultPend _ _ _
  · exact h1

theorem State.Canonical.textureRead {s : State} (h : s.Canonical) (g : Group) (p : Pend) (part : Nat) :
    (s.textureRead g p part).Canonical := by
  unfold State.textureRead
  split
  · exact h.faultPend _ _ _
  · refine State.Canonical.returnAll ?_ _ _ _ _
    exact (h.setCore _ _).chargeAccess _ _

theorem State.Canonical.textureResult {s : State} (h : s.Canonical) (g : Group) (p : Pend) (part : Nat) :
    (s.textureResult g p part).Canonical := by
  unfold State.textureResult
  split
  · exact h
  · next c _ =>
    have hl := h.nextFree.textureLook g p c
    refine h.ite ((h.textureRead _ _ _).ite ?_)
    dsimp only
    split
    · split
      · exact hl.ite (hl.textureRead _ _ _)
      · exact hl
    · exact hl

/-! ### Rays, coverage, visibility and repacking -/

theorem State.Canonical.keepRidge {s : State} (h : s.Canonical) (core ctx : Nat) (cache : List (Nat × List Byte))
    (use : TexUse) : (s.keepRidge core ctx cache use).Canonical :=
  (h.markLeaves core ctx false use.leaves).charge _ _

theorem State.Canonical.returnLanes {s : State} (h : s.Canonical) (g : Group) (p : Pend) (part : Nat)
    (out : List (Nat × List Word)) : (s.returnLanes g p part out).Canonical := h.deliver _ _ _

theorem State.Canonical.traceAll {s : State} (h : s.Canonical) (g : Group) (p : Pend) (part : Nat) (c : Context)
    (lanes : List (Nat × Option (Ray × TraceKind × Candidate))) (ended : List (Nat × LaneTrace)) :
    (s.traceAll g p part c lanes ended).Canonical := by
  unfold State.traceAll
  dsimp only
  split
  · exact (h.keepRidge _ _ _ _).faultPend _ _ _
  · exact (h.keepRidge _ _ _ _).returnLanes _ _ _ _

theorem State.Canonical.traceDone {s : State} (h : s.Canonical) (g : Group) (p : Pend) (part : Nat) (mask : Byte)
    (k : TraceKind) : (s.traceDone g p part mask k).Canonical := by
  unfold State.traceDone
  split
  · exact h
  · exact (h.faultPend _ _ _).ite ((h.nextFree.setGroup _).ite (h.nextFree.traceAll _ _ _ _ _ _))

theorem State.Canonical.hitretDone {s : State} (h : s.Canonical) (g : Group) (p : Pend) (part : Nat) :
    (s.hitretDone g p part).Canonical := by
  unfold State.hitretDone
  split
  · exact h
  · exact h.traceAll _ _ _ _ _ _

theorem State.Canonical.coverDone {s : State} (h : s.Canonical) (g : Group) (p : Pend) : (s.coverDone g p).Canonical := by
  unfold State.coverDone
  split
  · exact h
  · dsimp only
    split
    · exact h.faultPend _ _ _
    · split
      · exact h.faultPend _ _ _
      · exact (h.foldl (fun ht l => ht.scratchWrite _ _ _) _).completePend _ _

theorem exists_ok_of_bind {α β : Type} {r : Except Trap α} {f : α → Except Trap β} {v : β} (e : r.bind f = .ok v) :
    ∃ u, r = .ok u ∧ f u = .ok v := by
  cases r with
  | error t => cases e
  | ok u => exact ⟨u, rfl, e⟩

theorem State.Canonical.visbDone {s : State} (h : s.Canonical) (g : Group) (p : Pend) (clear : Bool) (mask : Byte) :
    (s.visbDone g p clear mask).Canonical := by
  unfold State.visbDone
  split
  · dsimp only
    split
    · exact h.faultPend _ _ _
    · refine (h.faultPend _ _ _).ite ?_
      split
      · exact (h.keepRidge _ _ _ _).faultPend _ _ _
      · next he =>
        obtain ⟨rows, _, hw⟩ := exists_ok_of_bind he
        exact ((h.keepRidge _ _ _ _).engineWrites hw).completePend _ _
  · exact h

theorem State.Canonical.repackDone {s : State} (h : s.Canonical) (g : Group) (k nm1 : Nat) :
    (s.repackDone g k nm1).Canonical := by
  unfold State.repackDone
  split
  · exact h
  · refine h.foldl (fun ht e => ?_) _
    split
    · exact ht.settle _
    · exact ht

theorem State.Canonical.execVisb {s : State} (h : s.Canonical) (clear : Bool) (a : Fin 64) (mask : Byte) :
    Keeps (execVisb clear a mask s) :=
  h.issue (fun c hc => .done (c.fly_canonical hc _ _ _))

theorem State.Canonical.execRepack {s : State} (h : s.Canonical) (k nm1 : Fin 16) (a b : Fin 64) :
    Keeps (execRepack k nm1 a b s) := by
  refine h.issue (fun c hc => (Eff.Canonical.raise _).ite ?_)
  have hf := c.fly_canonical hc (.repack k nm1 a b) c.emask (fun _ p => p)
  exact (c.idle_canonical hc _).ite (.ite (.done hf) (.done hf))

theorem State.Canonical.execUnitResultWritten {s : State} (h : s.Canonical) (gid : Nat) (result : ResultPart) :
    Keeps (execUnitResultWritten gid result s) := by
  unfold Machine.execUnitResultWritten
  dsimp only
  split
  · exact .next h
  · split
    · exact .next h
    · refine .ite (.next (h.deliver _ _ _)) (.ite (.next h) ?_)
      split
      · exact .ite (.next (h.textureResult _ _ _)) (.next h)
      · exact .ite (.next (h.textureResult _ _ _)) (.next h)
      · exact .ite (.next (h.textureResult _ _ _)) (.next h)
      · exact .ite (.next (h.traceDone _ _ _ _ _)) (.next h)
      · exact .ite (.next (h.hitretDone _ _ _)) (.next h)
      · exact .ite (.next (h.coverDone _ _)) (.next h)
      · exact .ite (.next (h.visbDone _ _ _ _)) (.next h)
      · exact .next (h.repackDone _ _ _)
      · exact .next h

/-! ### The composer -/

theorem State.Canonical.keepComposer {s : State} (h : s.Canonical) (core ctx : Nat) (cache : List (Nat × List Byte))
    (use : TexUse) : (s.keepComposer core ctx cache use).Canonical :=
  (h.markLeaves core ctx false use.leaves).charge _ _

theorem State.Canonical.writeYealm {s : State} (h : s.Canonical) (runs : List Run) (off : Nat) (b : List Byte) :
    (s.writeYealm runs off b).Canonical := h.writePhys _

theorem State.Canonical.composeDone {s : State} (h : s.Canonical) (g : Group) (p : Pend) : (s.composeDone g p).Canonical := by
  unfold State.composeDone
  split
  · next c _ _ _ =>
    dsimp only
    split
    · exact h.faultPend _ _ _
    · refine (h.faultPend _ _ _).ite ?_
      split
      · exact (h.markLeaves _ _ _ _).faultPend _ _ _
      · split
        · refine ((h.keepComposer _ _ _ _).returnAll _ _ _ _).ite ?_
          split
          · exact h.faultPend _ _ _
          · refine State.Canonical.returnAll (State.Canonical.keepComposer (State.Canonical.ite ?_ ?_) _ _ _ _) _ _ _ _
            all_goals exact ((h.markLeaves _ _ _ _).charge _ _).writeYealm _ _ _
        · exact (h.keepComposer _ _ _ _).returnAll _ _ _ _
        · exact (h.keepComposer _ _ _ _).returnAll _ _ _ _
  · exact h

theorem State.Canonical.execPlainJoinWritten {s : State} (h : s.Canonical) (gid id : Nat) :
    Keeps (execPlainJoinWritten gid id s) := by
  unfold Machine.execPlainJoinWritten
  split
  · exact .next h
  · split
    · exact .next h
    · split
      · exact .ite (.next (h.composeDone _ _)) (.next h)
      · exact .next h

theorem State.Canonical.endOptimise {s : State} (h : s.Canonical) (die : Nat) (j : OptJob) (rest : List OptJob)
    (stat : Nat) : (s.endOptimise die j rest stat).Canonical := (h.setDie _ _).writeYealm _ _ _

theorem State.Canonical.optimise {s : State} (h : s.Canonical) (die : Nat) (j : OptJob) (rest : List OptJob) (y : Yealm)
    (body : YealmBody) : (s.optimise die j rest y body).Canonical := by
  unfold State.optimise
  dsimp only
  split
  · exact (h.endOptimise _ _ _ _).ite (h.writeYealm _ _ _)
  · exact (h.writeYealm _ _ _).setDie _ _
  · exact ((h.writeYealm _ _ _).writeYealm _ _ _).setDie _ _
  · exact h.endOptimise _ _ _ _

theorem State.Canonical.execComposeOptimise {s : State} (h : s.Canonical) (die : Nat) :
    Keeps (execComposeOptimise die s) := by
  unfold Machine.execComposeOptimise
  split
  · exact .next h
  · refine .ite (.next h) ?_
    split
    · exact .next (h.setDie _ _)
    · split
      · exact .next (h.endOptimise _ _ _ _)
      · exact .next (((h.charge _ _).ite h).optimise _ _ _ _ _)

theorem State.Canonical.execOptimiseBoundExpiry {s : State} (h : s.Canonical) (die : Nat) :
    Keeps (execOptimiseBoundExpiry die s) := by
  unfold Machine.execOptimiseBoundExpiry
  split
  · exact .next h
  · exact .ite (.next (h.endOptimise _ _ _ _)) (.next h)

/-! ### A draw's glue -/

theorem State.Canonical.glueLoad {s t : State} (h : s.Canonical) {core : Nat} {c : Context} {x : XReg} {lane off : Nat}
    {w : Word} (e : s.glueLoad core c x lane off = .ok (w, t)) : t.Canonical := by
  unfold State.glueLoad at e
  split at e
  · next he =>
    obtain ⟨_, rfl⟩ := Prod.mk.inj (Except.ok.inj e)
    exact (h.access ..).snd he
  · cases e

theorem State.Canonical.glueLoads {s t : State} (h : s.Canonical) {core : Nat} {c : Context} {x : XReg}
    {l : List (Nat × Nat)} {ws : List (Nat × Word)} (e : s.glueLoads core c x l = .ok (ws, t)) : t.Canonical := by
  induction l generalizing s ws with
  | nil =>
    obtain ⟨_, rfl⟩ := Prod.mk.inj (Except.ok.inj e)
    exact h
  | cons a l ih =>
    unfold State.glueLoads at e
    split at e
    · cases e
    · next ha =>
      split at e
      · cases e
      · next hl =>
        obtain ⟨_, rfl⟩ := Prod.mk.inj (Except.ok.inj e)
        exact ih (h.glueLoad ha) hl

theorem State.Canonical.glueStores {s t : State} (h : s.Canonical) {core : Nat} {c : Context} {x : XReg}
    {l : List (Nat × Nat × Word)} (e : s.glueStores core c x l = .ok t) : t.Canonical := by
  induction l generalizing s with
  | nil =>
    obtain rfl := Except.ok.inj e
    exact h
  | cons a l ih =>
    unfold State.glueStores at e
    split at e
    · next ha => exact ih (((h.access ..).snd ha).writeThroughRuns _ _ _) e
    · cases e

theorem GlueEnv.call_canonical (e : GlueEnv) (g : Group) {s : State} (h : s.Canonical) (mask : DWord)
    (stage : ComposeStage) (pc join on : Word) (ph : GluePhase) : (e.call g s mask stage pc join on ph).Canonical := h

theorem Issue.glueJoin_canonical {c : Issue} (h : c.s.Canonical) : c.glueJoin.Canonical := h.settle _

theorem GlueEnv.prologue_canonical {e : GlueEnv} (h : e.c.s.Canonical) : e.prologue.Canonical := by
  unfold GlueEnv.prologue
  refine (e.c.raise_canonical h _).ite ?_
  split
  · exact e.c.fetchFault_canonical h _ _
  · next he =>
    have ht := h.glueLoads he
    refine (e.c.raise_canonical h _).ite ?_
    dsimp only
    split
    · exact ht
    · exact ht

theorem GlueEnv.vertexInputs_canonical {e : GlueEnv} {lanes : List Nat} {v : Nat → Nat} {mask : DWord}
    {l : List (Nat × Option Nat)} {g g' : Group} {s t : State} (h : s.Canonical)
    (he : e.vertexInputs lanes v mask l g s = .ok (g', t)) : t.Canonical := by
  induction l generalizing g s with
  | nil =>
    obtain ⟨_, rfl⟩ := Prod.mk.inj (Except.ok.inj he)
    exact h
  | cons a l ih =>
    obtain ⟨reg, off⟩ := a
    cases off with
    | none => exact ih h he
    | some off =>
      unfold GlueEnv.vertexInputs at he
      split at he
      · cases he
      · next hl => exact ih (h.glueLoads hl) he

theorem GlueEnv.vertex_canonical {e : GlueEnv} (h : e.c.s.Canonical) : e.vertex.Canonical := by
  unfold GlueEnv.vertex
  refine State.Canonical.ite h (State.Canonical.ite h ?_)
  dsimp only
  split
  · exact e.c.fetchFault_canonical h _ _
  · next he => exact e.call_canonical _ (GlueEnv.vertexInputs_canonical h he) _ _ _ _ _ _

theorem GlueEnv.vertexDone_canonical {e : GlueEnv} (h : e.c.s.Canonical) (mask : DWord) : (e.vertexDone mask).Canonical :=
  State.Canonical.ite h (h.foldl (fun ht _ => ht.scratchWrite _ _ _) _)

theorem GlueEnv.bar_canonical {e : GlueEnv} (h : e.c.s.Canonical) (ph : GluePhase) : (e.bar ph).Canonical := by
  have hf := e.c.fly_canonical h (.barSync (.const 0) (.const 16)) e.c.p.mask (fun _ p => p)
  have hb := fun g => hf.bar g (.barSync (.const 0) (.const 16)) 0 16
  unfold GlueEnv.bar
  dsimp only
  split
  · exact e.c.raise_canonical h _
  · next he => exact (he ▸ hb _ :)
  · next he => exact (he ▸ hb _ :)

theorem GlueEnv.cover1_canonical (e : GlueEnv) (k : Nat) {s : State} (h : s.Canonical) : (e.cover1 k s).Canonical := by
  unfold GlueEnv.cover1
  split
  · exact h
  · exact h.scratchWrite _ _ _

theorem GlueEnv.setup1_canonical (e : GlueEnv) (k : Nat) {s : State} (h : s.Canonical) : (e.setup1 k s).Canonical :=
  h.foldl (fun ht _ => ht.foldl (fun hu _ => hu.scratchWrite _ _ _) _) _

theorem GlueEnv.cover_canonical {e : GlueEnv} (h : e.c.s.Canonical) : e.cover.Canonical := by
  have hc := fun (k : Nat → Nat) l => h.foldl (fun ht i => e.cover1_canonical (k i) ht) l
  exact State.Canonical.ite (hc _ _) ((hc _ _).foldl (fun ht i => e.setup1_canonical _ ht) _)

theorem GlueEnv.load_canonical {e : GlueEnv} (h : e.c.s.Canonical) : e.load.Canonical := by
  unfold GlueEnv.load
  dsimp only
  split
  · exact e.c.fetchFault_canonical h _ _
  · next hd =>
    split
    · exact e.c.fetchFault_canonical h _ _
    · next hc =>
      have ht := (h.glueLoads hd).glueLoads hc
      exact ht

theorem GlueEnv.shade_canonical {e : GlueEnv} (h : e.c.s.Canonical) (k : Nat) (mask : DWord) :
    (e.shade k mask).Canonical := h

theorem GlueEnv.tri_canonical {e : GlueEnv} (h : e.c.s.Canonical) (k : Nat) : (e.tri k).Canonical := by
  unfold GlueEnv.tri
  refine State.Canonical.ite h ?_
  split
  · exact h
  · exact State.Canonical.ite h (State.Canonical.ite h (State.Canonical.ite h h))

theorem GlueEnv.passed_canonical {e : GlueEnv} (h : e.c.s.Canonical) (k : Nat) : (e.passed k).Canonical :=
  State.Canonical.ite h (e.shade_canonical h _ _)

theorem GlueEnv.triDone_canonical {e : GlueEnv} (h : e.c.s.Canonical) (k : Nat) (mask : DWord) :
    (e.triDone k mask).Canonical := State.Canonical.ite h h

theorem GlueEnv.finish_canonical {e : GlueEnv} (h : e.c.s.Canonical) : e.finish.Canonical := by
  unfold GlueEnv.finish
  dsimp only
  split
  · exact e.c.fetchFault_canonical h _ _
  · next hc =>
    split
    · exact e.c.fetchFault_canonical h _ _
    · next hd => exact ((h.glueStores hc).glueStores hd).settle _

theorem GlueEnv.run_canonical {e : GlueEnv} (h : e.c.s.Canonical) : e.run.Canonical := by
  unfold GlueEnv.run
  refine (e.c.glueJoin_canonical h).ite ?_
  extract_lets src e'
  have h' : e'.c.s.Canonical := h
  clear_value e'
  split
  · exact GlueEnv.prologue_canonical h'
  · exact GlueEnv.vertex_canonical h'
  · exact GlueEnv.vertexDone_canonical h' _
  · exact GlueEnv.bar_canonical h' _
  · exact GlueEnv.cover_canonical h'
  · exact GlueEnv.bar_canonical h' _
  · exact GlueEnv.load_canonical h'
  · exact GlueEnv.tri_canonical h' _
  · exact GlueEnv.passed_canonical h' _
  · exact GlueEnv.triDone_canonical h' _ _
  · exact GlueEnv.finish_canonical h'

theorem Issue.glueStep_canonical {c : Issue} (h : c.s.Canonical) : c.glueStep.Canonical := by
  unfold Issue.glueStep
  split
  · split
    · exact h
    · refine State.Canonical.ite h (State.Canonical.leaveOwed (GlueEnv.run_canonical ?_) _)
      exact h
  · exact h

/-! ### Scheduling -/

theorem State.Canonical.exchange {s : State} (h : s.Canonical) (gOut gIn : Nat) : (s.exchange gOut gIn).Canonical := h

theorem State.Canonical.execGroupExchange {s : State} (h : s.Canonical) (gOut gIn : Nat) :
    Keeps (execGroupExchange gOut gIn s) := by
  unfold Machine.execGroupExchange
  split
  · exact .next h
  · split
    · exact .next h
    · exact .ite (.next (h.exchange _ _)) (.next h)

theorem State.Canonical.execStarvationTimeout {s : State} (h : s.Canonical) (gIn : Nat) :
    Keeps (execStarvationTimeout gIn s) := by
  unfold Machine.execStarvationTimeout
  split
  · exact .next h
  · refine .ite ?_ (.next h)
    split
    · exact .next h
    · exact .next (h.exchange _ _)

theorem State.Canonical.saveGroup {s : State} (h : s.Canonical) (gid : Nat) (res : Residency) (awayUntil : Nat) :
    (s.saveGroup gid res awayUntil).Canonical := by
  unfold State.saveGroup
  dsimp only
  split
  · exact (h.land _).withGroups _
  · exact ((h.land _).flushCore _).withGroups _

theorem State.Canonical.saveTeam {s : State} (h : s.Canonical) (tid : Nat) : (s.saveTeam tid).Canonical := by
  have hl := fun l => h.foldl (fun hv g => hv.land g) l
  unfold State.saveTeam
  dsimp only
  split
  · exact hl _
  · next t ht =>
    have hw : Memory.wf t.scratch = true := (hl _).team ht
    refine State.Canonical.withGroups (State.Canonical.setTeam ((hl _).flushCore _).nextFree ?_) _
    exact hw

theorem State.Canonical.saveTeams {s : State} (h : s.Canonical) (l : List Nat) : (l.foldl State.saveTeam s).Canonical :=
  h.foldl (fun hv t => hv.saveTeam t) l

theorem State.Canonical.execGroupEvict {s : State} (h : s.Canonical) (core slot : Nat) :
    Keeps (execGroupEvict core slot s) := by
  unfold Machine.execGroupEvict
  split
  · exact .next (h.saveGroup _ _ _)
  · refine .ite ?_ (.next h)
    split
    · exact .next h
    · exact .ite (.next (h.saveGroup _ _ _)) (.next ((h.saveGroup _ _ _).saveTeam _))

theorem State.Canonical.recheckAll {s : State} (h : s.Canonical) (g : Group) (l : List Pend) :
    (s.recheckAll g l).2.Canonical := by
  induction l generalizing s g with
  | nil => exact h
  | cons p l ih =>
    unfold State.recheckAll
    split
    · exact ih (h.checkPend _ _) _
    · exact ih h _

theorem State.Canonical.restoreGroup {s : State} (h : s.Canonical) (g : Group) (core : Nat) (res : Residency) :
    (s.restoreGroup g core res).Canonical := by
  have hr := fun l g' q => ((h.invalidate core).foldl (fun hv k => hv.useSheaf core k) l).recheckAll g' q
  exact State.Canonical.ite (((hr _ _ _).setGroup _).leaveOwed _) ((hr _ _ _).setGroup _)

theorem State.Canonical.execGroupReturn {s : State} (h : s.Canonical) (gid : Nat) : Keeps (execGroupReturn gid s) := by
  unfold Machine.execGroupReturn
  split
  · exact .next h
  · split
    · exact .next h
    · exact .ite (.next (h.restoreGroup _ _ _)) (.next h)

theorem State.Canonical.newPeriod {s : State} (h : s.Canonical) (core slot : Nat) : (s.newPeriod core slot).Canonical := h

theorem State.Canonical.sated {s : State} (h : s.Canonical) : s.sated.Canonical := State.Canonical.ite h h

theorem State.Canonical.execWatchdog {s : State} (h : s.Canonical) (core slot gid : Nat) :
    Keeps (execWatchdog core slot gid s) := by
  have hl := fun l => State.Canonical.newPeriod (s := { s with log := l }) h core slot
  unfold Machine.execWatchdog
  dsimp only
  split
  · exact .next h
  · split
    · refine .ite ?_ (.next (h.newPeriod _ _))
      split
      · exact .next ((hl _).saveGroup _ _ _)
      · exact .next ((hl _).endGrid _ _)
      · exact .next (hl _)
    · exact .next h

theorem State.Canonical.mapQueue {s : State} (h : s.Canonical) (ctx queue : Nat) (f : Queue → Queue) :
    (s.mapQueue ctx queue f).Canonical := h

theorem State.Canonical.execOverrun {s : State} (h : s.Canonical) (ctx queue : Nat) : Keeps (execOverrun ctx queue s) := by
  unfold Machine.execOverrun
  split
  · exact .next h
  · exact .ite (.next h) (.next h)

theorem State.Canonical.execPreempt {s : State} (h : s.Canonical) (groups teams : List Nat) :
    Keeps (execPreempt groups teams s) :=
  .ite (.next ((h.foldl (fun hv g => hv.saveGroup g _ _) groups).saveTeams teams)) (.next h)

theorem State.Canonical.restoreTeam {s : State} (h : s.Canonical) {t : Team} (ht : Memory.wf t.scratch = true)
    (core : Nat) : (s.restoreTeam t core).Canonical := by
  unfold State.restoreTeam
  refine State.Canonical.foldl (State.Canonical.setTeam h ?_) (fun hv g => ?_) _
  · exact ht
  split
  · exact hv
  · exact (hv.restoreGroup _ _ _).ite (hv.ite (hv.setGroup _))

/-- Teams that are each given a core keep their scratchpads. -/
theorem TeamsWf.places {l : List Team} (h : TeamsWf l) (f : Team → Nat) :
    ∀ a ∈ l.map (fun u => (u, f u)), Memory.wf a.1.scratch = true := by
  intro a ha
  obtain ⟨u, hu, rfl⟩ := List.mem_map.mp ha
  exact h u hu

/-- The teams that a saved team is placed with have canonical scratchpads. -/
theorem State.Canonical.placesFor {s : State} (h : s.Canonical) {t : Team} (ht : Memory.wf t.scratch = true)
    {l : List (Team × Nat)} (e : s.placesFor t = some l) : ∀ a ∈ l, Memory.wf a.1.scratch = true := by
  have hm := h.clusterTeams ht
  unfold State.placesFor at e
  split at e
  · cases e
  · dsimp only at e
    split at e
    · obtain ⟨_, e⟩ := Option.ite_none_right_eq_some.mp e
      obtain rfl := Option.some.inj e
      exact TeamsWf.places (l := [t]) (by simpa [TeamsWf] using ht) (fun u => u.core)
    · split at e
      · obtain rfl := Option.some.inj e
        exact (hm.filter _).places _
      · obtain ⟨_, e⟩ := Option.ite_none_left_eq_some.mp e
        obtain ⟨k, _, e⟩ := List.exists_of_findSome?_eq_some e
        obtain ⟨_, e⟩ := Option.ite_none_right_eq_some.mp e
        obtain ⟨cs, _, e⟩ := Option.bind_eq_some_iff.mp e
        obtain ⟨_, e⟩ := Option.ite_none_right_eq_some.mp e
        obtain rfl := Option.some.inj e
        exact hm.places _

theorem State.Canonical.execSwitchIn {s : State} (h : s.Canonical) (tid : Nat) : Keeps (execSwitchIn tid s) := by
  unfold Machine.execSwitchIn
  split
  · exact .next h
  · next t ht =>
    refine .ite ?_ (.next h)
    split
    · next hp _ => exact .ite (.next h) (.next (h.foldlMem (fun hv a ha => hv.restoreTeam (h.placesFor (h.team ht) hp a ha) _)))
    · exact .next h

/-! ### The host, the links and the peers -/

theorem State.Canonical.execQueueCreate {s : State} (h : s.Canonical) (spec : QueueSpec) : Keeps (execQueueCreate spec s) := by
  unfold Machine.execQueueCreate
  split
  · exact .next h
  · exact .ite (.next (h.setContext _)) (.next h)

theorem State.Canonical.launchEntry {s : State} (h : s.Canonical) (c : Context) (q : Queue) (n : Nat) :
    (s.launchEntry c q n).Canonical := State.Canonical.ite (h.addGrid ..) h

theorem State.Canonical.execDoorbell {s : State} (h : s.Canonical) (ctx queue tail : Nat) :
    Keeps (execDoorbell ctx queue tail s) := by
  unfold Machine.execDoorbell
  split
  · exact .ite (.next ((h.foldl (fun hv i => hv.launchEntry _ _ _) _).mapQueue _ _ _)) (.next h)
  · exact .next h

theorem State.Canonical.writeDone {s : State} (h : s.Canonical) (c : Context) (q : Queue) (n status : Nat) :
    (s.writeDone c q n status).Canonical := by
  unfold State.writeDone
  refine State.Canonical.ite (h.writeBytes _ _) ?_
  split
  · next he => exact (((h.writeBytes _ _).access ..).snd he).writeRuns _ _
  · next he => exact ((h.writeBytes _ _).access ..).snd he

theorem State.Canonical.execGridCompletion {s : State} (h : s.Canonical) (grid : Nat) :
    Keeps (execGridCompletion grid s) := by
  unfold Machine.execGridCompletion
  split
  · exact .next h
  · have hd : ∀ s' : State, s'.Canonical → Keeps (.next { s' with grids := s'.grids.filter (fun e => e.id ≠ grid) }) :=
      fun s' h' => .next h'
    refine .ite (hd _ ?_) (.next h)
    split
    · exact h
    · split
      · exact h.writeDone _ _ _ _
      · exact h

theorem State.Canonical.execDrawRecord {s : State} (h : s.Canonical) (die queueCtx queue : Nat) :
    Keeps (execDrawRecord die queueCtx queue s) := by
  unfold Machine.execDrawRecord
  split
  · exact .next h
  · refine .ite ?_ (.next h)
    split
    · exact .next h
    · exact .next ((h.ite (h.pushDraw _ _)).mapQueue _ _ _)

theorem State.Canonical.setLink {s : State} (h : s.Canonical) (link : Nat) (l : Link) : (s.setLink link l).Canonical := h

theorem State.Canonical.execLinkRetrain {s : State} (h : s.Canonical) (link dir : Nat) (laneFailed : Bool) :
    Keeps (execLinkRetrain link dir laneFailed s) :=
  .ite (.next (h.setLink _ _)) (.ite (.next (h.setLink _ _)) (.next h))

theorem State.Canonical.shoot {s : State} (h : s.Canonical) (ctx page : Nat) : (s.shoot ctx page).Canonical := by
  refine ⟨h.mem, h.teams, h.sheaves.map (fun k hk => ?_)⟩
  split
  · exact hk
  · exact hk

theorem State.Canonical.execShootDown {s : State} (h : s.Canonical) (ctx page : Nat) : Keeps (execShootDown ctx page s) :=
  .ite (.next (h.shoot _ _)) (.next h)

theorem State.Canonical.execRangeRelease {s : State} (h : s.Canonical) (ctx range : Nat) :
    Keeps (execRangeRelease ctx range s) := by
  unfold Machine.execRangeRelease
  split
  · exact .next h
  · exact .ite (.next ((h.shoot _ _).setContext _)) (.next h)

theorem State.Canonical.execRangeAcquire {s : State} (h : s.Canonical) (ctx range : Nat) :
    Keeps (execRangeAcquire ctx range s) := by
  unfold Machine.execRangeAcquire
  split
  · exact .next h
  · exact .ite (.next h) (.next h)

theorem State.Canonical.serve {s : State} (h : s.Canonical) (pa : Nat) (a : OutsideAccess) : (s.serve pa a).Canonical := by
  cases a with
  | read n => exact h
  | write l => exact h.writeBytes _ _
  | atom op w cmp v => exact h.writeBytes _ _

theorem State.Canonical.execHostAccess {s : State} (h : s.Canonical) (pa : Nat) (a : OutsideAccess) :
    Keeps (execHostAccess pa a s) := .ite (.ite (.next h) (.next (h.serve _ _))) (.fault _)

theorem State.Canonical.execPeerAccess {s : State} (h : s.Canonical) (peer pa : Nat) (a : OutsideAccess) :
    Keeps (execPeerAccess peer pa a s) := .ite (.next h) (.ite (.ite (.next h) (.next (h.serve _ _))) (.fault _))

theorem State.Canonical.execDomainForm {s : State} (h : s.Canonical) (own count : Nat) : Keeps (execDomainForm own count s) :=
  .ite (.next h) (.next h)

theorem State.Canonical.execDeviceLeavesDomain {s : State} (h : s.Canonical) (peer : Nat) :
    Keeps (execDeviceLeavesDomain peer s) := .ite (.next h) (.next h)

/-! ### Staying in service -/

theorem State.Canonical.execChannelSpare {s : State} (h : s.Canonical) (stack channel : Nat) :
    Keeps (execChannelSpare stack channel s) := .ite (.next h) (.next h)

theorem State.Canonical.rehome {s : State} (h : s.Canonical) (core : Nat) : (s.rehome core).Canonical := by
  refine (h.setCore core _).foldl (fun hv r => ?_) _
  split
  · exact hv
  · exact hv.nextFree.pushRecord _ _ _

theorem State.Canonical.replaceCore {s : State} (h : s.Canonical) (core : Nat) : (s.replaceCore core).Canonical :=
  State.Canonical.ite h (State.Canonical.rehome (by exact h) core)

/-- Teams changed without their scratchpads. -/
theorem State.Canonical.mapTeams {s : State} (h : s.Canonical) {f : Team → Team} (hf : ∀ t, (f t).scratch = t.scratch) :
    ({ s with teams := s.teams.map f } : State).Canonical :=
  ⟨h.mem, h.teams.map (fun t ht => by rw [hf]; exact ht), h.sheaves⟩

theorem State.Canonical.execCoreSpare {s : State} (h : s.Canonical) (core : Nat) : Keeps (execCoreSpare core s) := by
  refine .ite (.next (State.Canonical.replaceCore ((h.saveTeams _).mapTeams (fun t => ?_)) _)) (.next h)
  split
  · rfl
  · rfl

theorem State.Canonical.execCoreLost {s : State} (h : s.Canonical) (core : Nat) : Keeps (execCoreLost core s) := by
  refine .ite (.next (State.Canonical.replaceCore (State.Canonical.foldl
    (State.Canonical.setCore (State.Canonical.foldl ?_ (fun hv r => hv.dropCopyReq core r) _) core _)
    (fun hv d => hv.endGrid d 3) _) _)) (.next h)
  exact h

/-! ### Contexts, code objects and power -/

theorem State.Canonical.execContextCreate {s : State} (h : s.Canonical) (spec : ContextSpec) :
    Keeps (execContextCreate spec s) := .ite (.next h) (.next h)

theorem State.Canonical.execLiveMigration {s : State} (h : s.Canonical) (ctx : Nat) : Keeps (execLiveMigration ctx s) := by
  unfold Machine.execLiveMigration
  split
  · exact .next h
  · have hs := fun l => (h.saveTeams l).tick
    dsimp only
    split
    · exact .next (hs _)
    · exact .next (hs _)

theorem State.Canonical.writeVirtual {s : State} (h : s.Canonical) (c : Context) (va : Nat) (l : List Byte) :
    (s.writeVirtual c va l).Canonical := by
  refine h.foldl (fun hv e => ?_) _
  split
  · exact hv.writeBytes _ _
  · exact hv
  · exact hv

theorem State.Canonical.layObject {s : State} (h : s.Canonical) (c : Context) (spec : BindSpec) (o : CodeObject) :
    (s.layObject c spec o).Canonical := by
  unfold State.layObject
  extract_lets secs s1
  have h1 : s1.Canonical := by
    refine h.foldl (fun hv e => ?_) secs
    split
    · exact hv
    · exact hv.writeVirtual _ _ _
  clear_value s1
  split
  · exact h1.foldl (fun hv m => hv.writeVirtual _ _ _) _
  · exact h1

theorem State.Canonical.execCodeObjectBind {s : State} (h : s.Canonical) (spec : BindSpec) :
    Keeps (execCodeObjectBind spec s) := by
  unfold Machine.execCodeObjectBind
  split
  · exact .next h
  · split
    · exact .next h
    · exact .ite (.next (((h.foldl (fun hv e => hv.writeBytes _ _) _).layObject _ _ _).setContext _)) (.next h)

theorem State.Canonical.setSection {s : State} (h : s.Canonical) (sec : Nat) (x : Section) :
    (s.setSection sec x).Canonical := h

theorem State.Canonical.clearSection {s : State} (h : s.Canonical) (sec : Nat) : (s.clearSection sec).Canonical :=
  h.saveTeams _

theorem State.Canonical.execSectionReassign {s : State} (h : s.Canonical) (sec cls : Nat) :
    Keeps (execSectionReassign sec cls s) := .ite (.next ((h.clearSection sec).setSection _ _)) (.next h)

theorem State.Canonical.execSectionGrant {s : State} (h : s.Canonical) (sec grant : Nat) :
    Keeps (execSectionGrant sec grant s) := .ite (.next (h.setSection _ _)) (.next h)

theorem State.Canonical.execEnergyApportion {s : State} (h : s.Canonical) (steps : List (Nat × Nat)) :
    Keeps (execEnergyApportion steps s) := .ite (.next h) (.next h)

theorem State.Canonical.execUndervoltWindowEnd {s : State} (h : s.Canonical) (sec : Nat) (clean : Bool) :
    Keeps (execUndervoltWindowEnd sec clean s) := .ite (.next (h.setSection _ _)) (.next h)

theorem State.Canonical.poisonPlace {s : State} (h : s.Canonical) (place : ErrorPlace) : (s.poisonPlace place).Canonical := by
  unfold State.poisonPlace
  split
  · exact h
  · split
    · exact h
    · next t ht =>
      have hw : Memory.wf t.scratch = true := h.team ht
      refine h.setTeam ?_
      exact hw
  · split
    · exact h
    · exact h.setGroup _

theorem State.Canonical.execUncorrectableError {s : State} (h : s.Canonical) (sec : Nat) (place : ErrorPlace) :
    Keeps (execUncorrectableError sec place s) := .next ((h.poisonPlace place).setSection _ _)

/-! ### Heat -/

theorem State.Canonical.moveTeam {s : State} (h : s.Canonical) (target tid : Nat) : (s.moveTeam target tid).Canonical := by
  unfold State.moveTeam
  split
  · exact h
  · refine h.foldl (fun hv e => ?_) _
    have hs := hv.ite (c := e.1.preempted = true) (hv.saveTeam e.1.id)
    dsimp only
    split
    · exact hs
    · next t ht =>
      have hw : Memory.wf t.scratch = true := hs.team ht
      refine hs.setTeam ?_
      exact hw

theorem State.Canonical.heatCore {a : State × List Nat} (h : a.1.Canonical) (core : Nat) :
    (State.heatCore a core).1.Canonical := by
  obtain ⟨s, taken⟩ := a
  unfold State.heatCore
  dsimp only
  split
  · exact h
  · split
    · exact State.Canonical.foldl h (fun hv t => hv.moveTeam _ _) _
    · split
      · exact h
      · split
        · exact (h.clearSection _).setSection _ _
        · exact h

theorem State.Canonical.heatCores {a : State × List Nat} (h : a.1.Canonical) (l : List Nat) :
    (l.foldl State.heatCore a).1.Canonical := by
  induction l generalizing a with
  | nil => exact h
  | cons core l ih => exact ih (State.Canonical.heatCore h core)

theorem State.Canonical.execThermalSample {s : State} (h : s.Canonical) (temps : List Nat) :
    Keeps (execThermalSample temps s) := by
  have hc := h.mapTeams (f := fun t => { t with cool := min 200 (t.cool + 1) }) (fun t => rfl)
  unfold Machine.execThermalSample
  extract_lets sampled heated
  have hh : heated.Canonical := State.Canonical.heatCores (a := (sampled, [])) hc _
  clear_value heated
  exact .next hh

/-! ### Reset -/

theorem wfFrom_mono {m : List Host.Cell} {lo lo' : Nat} (hle : lo' ≤ lo) (h : Memory.wfFrom lo m = true) :
    Memory.wfFrom lo' m = true := by
  cases m with
  | nil => rfl
  | cons c m =>
    simp only [Memory.wfFrom, Bool.and_eq_true, decide_eq_true_eq] at h ⊢
    obtain ⟨⟨hlo, hb⟩, hm⟩ := h
    exact ⟨⟨hle.trans hlo, hb⟩, hm⟩

/-- Cells taken out of a canonical memory leave a canonical one. -/
theorem wfFrom_filter (p : Host.Cell → Bool) {m : List Host.Cell} {lo : Nat} (h : Memory.wfFrom lo m = true) :
    Memory.wfFrom lo (m.filter p) = true := by
  induction m generalizing lo with
  | nil => rfl
  | cons c m ih =>
    obtain ⟨hc, hm⟩ := Bool.and_eq_true_iff.mp h
    rw [List.filter_cons]
    split
    · exact Bool.and_eq_true_iff.mpr ⟨hc, ih hm⟩
    · obtain ⟨hlo, _⟩ := Bool.and_eq_true_iff.mp hc
      exact wfFrom_mono (Nat.le_succ_of_le (of_decide_eq_true hlo)) (ih hm)

theorem State.Canonical.resetBegin {s : State} (h : s.Canonical) (failAt : Nat) : (s.resetBegin failAt).Canonical :=
  ⟨h.mem, nofun, nofun⟩

theorem State.Canonical.resetStep {s : State} (h : s.Canonical) (spec : ResetSpec) (n : Nat) :
    (s.resetStep spec n).Canonical := by
  unfold State.resetStep
  split
  case h_4 => exact ⟨wfFrom_filter _ h.mem, h.teams, h.sheaves⟩
  all_goals exact h

theorem State.Canonical.resetSteps {s : State} (h : s.Canonical) (spec : ResetSpec) (n k : Nat) :
    (s.resetSteps spec n k).Canonical := by
  induction k generalizing s n with
  | zero => exact h
  | succ k ih => exact State.Canonical.ite h (ih (h.resetStep spec n) (n + 1))

theorem State.Canonical.execReset {s : State} (h : s.Canonical) (spec : ResetSpec) : Keeps (execReset spec s) :=
  .next ((h.resetBegin _).resetSteps _ _ _)

theorem State.Canonical.execManagementFirmwareLoad {s : State} (h : s.Canonical) (good : Bool) :
    Keeps (execManagementFirmwareLoad good s) :=
  .ite (.next h) (.next (State.Canonical.resetSteps (State.Canonical.ite (t := { s with resetFail := 10 }) h h) _ _ _))

/-! ### Every instruction and event -/

theorem State.Canonical.exec {s : State} (h : s.Canonical) (i : Instr) : Keeps (exec i s) := by
  cases i with
  | nop | exit | bra | bc | call | mode =>
    dsimp only [Machine.exec]
    exact h.issue (fun _ hc => hc)
  | trap n => exact h.issue (fun _ _ => trivial)
  | iadd | isub | imul | imulh | imad | imin | imax | iabs | iaddi | imuli =>
    dsimp only [Machine.exec]
    exact h.intArith _ _ _ _ _ _
  | and | or | xor | andn | bfe | bfi | movi | movhi | andi | ori | xori | shl | shr | sar | rol | popc | clz | brev =>
    dsimp only [Machine.exec]
    exact h.intWord _ _ _ _
  | fadd | fsub | fmul | ffma | fmin | fmax | fabs | fneg | frcp | frsq | fsqrt | fexp2 | flog2 | fsin | fcos | frnd
  | ffrac | fclass | fmulb =>
    dsimp only [Machine.exec]
    exact h.floatOp _ _ _ _ _ _
  | shfl | shflx | shflup =>
    dsimp only [Machine.exec]
    exact h.shuffle _ _ _ _ _
  | barArrive | barWait | barSync =>
    dsimp only [Machine.exec]
    exact h.barIssue _ _ _
  | lnchN | enq | mint | xlat | ld | st | atom | atomNoreturn | lds | sts | atoms | atomsNoreturn | ldcTable
  | ldcMemory | stc | tlook | tset | ldlod | sample | sampleg | pref | vxm | trace | hitret | cover =>
    dsimp only [Machine.exec]
    exact h.flyChecked _
  | lnchW | waita =>
    dsimp only [Machine.exec]
    exact h.flyParked _ _
  | fence | xfence =>
    dsimp only [Machine.exec]
    exact h.flyFull _
  | mloadb | mdrain | mzero | compose =>
    dsimp only [Machine.exec]
    exact h.flyCommand _
  | queueWrite | periodStart | budgetPeriod | linkRetrainEnd | calvenFailover | sectionRampEnd | channelCopyEnd
  | flitRetry =>
    exact .next h
  | clauseStart wait seta setb len => exact h.execClauseStart wait seta setb len
  | bdiv neg p off => exact h.execBdiv neg p off
  | setj off => exact h.execSetj off
  | join => exact h.execJoin
  | ret => exact h.execRet
  | brx a => exact h.execBrx a
  | callx a => exact h.execCallx a
  | yield_ => exact h.execYield
  | tret => exact h.execTret
  | sel u d a b => exact h.execSel u d a b
  | icmp u c p a b => exact h.execIcmp u c p a b
  | mov u d a => exact h.execMov u d a
  | fcmp u c p a b => exact h.execFcmp u c p a b
  | cvt u d a pos dst => exact h.execCvt u d a pos dst
  | pack u d a b => exact h.execPack u d a b
  | unpk u d a i4 hi => exact h.execUnpk u d a i4 hi
  | fdot2 u d a b => exact h.execFdot2 u d a b
  | vote d a k => exact h.execVote d a k
  | lred d a op => exact h.execLred d a op
  | lscan d a ex op => exact h.execLscan d a ex op
  | elect d => exact h.execElect d
  | freeze a => exact h.execFreeze a
  | ckick u a b => exact h.execCkick u a b
  | csrr u d n => exact h.execCsrr u d n
  | csrw u d n => exact h.execCsrw u d n
  | mloop a => exact h.execMloop a
  | mdrainv d a b => exact h.execMdrainv d a b
  | mscale q a => exact h.execMscale q a
  | repack k nm1 a b => exact h.execRepack k nm1 a b
  | visb clear a mask => exact h.execVisb clear a mask
  | waitaReread g id => exact h.execWaitaReread g id
  | resdrain u d => exact h.execResdrain u d
  | guttail ctx value => exact h.execGuttail ctx value
  | guthead ctx value => exact h.execGuthead ctx value
  | gutovf ctx value => exact h.execGutovf ctx value
  | sectionGrant sec grant => exact h.execSectionGrant sec grant
  | gutterEntryPerformed unit => exact h.execGutterEntryPerformed unit
  | engineCommandComplete g id => exact h.execEngineCommandComplete g id
  | unitResultWritten g result => exact h.execUnitResultWritten g result
  | composeOptimise die => exact h.execComposeOptimise die
  | optimiseBoundExpiry die => exact h.execOptimiseBoundExpiry die
  | loadSectorReturn g id sector => exact h.execLoadSectorReturn g id sector
  | storePerformed g id => exact h.execStorePerformed g id
  | shootDown ctx page => exact h.execShootDown ctx page
  | teamStart core => exact h.execTeamStart core
  | steal core => exact h.execSteal core
  | launchWaitComplete g id => exact h.execLaunchWaitComplete g id
  | groupExchange gOut gIn => exact h.execGroupExchange gOut gIn
  | starvationTimeout gIn => exact h.execStarvationTimeout gIn
  | groupEvict core slot => exact h.execGroupEvict core slot
  | groupReturn g => exact h.execGroupReturn g
  | sheafMiss core sheaf => exact h.execSheafMiss core sheaf
  | watchdog core slot g => exact h.execWatchdog core slot g
  | overrun ctx queue => exact h.execOverrun ctx queue
  | preempt groups teams => exact h.execPreempt groups teams
  | switchIn team => exact h.execSwitchIn team
  | trapDelivery g half => exact h.execTrapDelivery g half
  | pathStopTimeout g slot => exact h.execPathStopTimeout g slot
  | serviceResponse g id answer => exact h.execServiceResponse g id answer
  | copyRequestFetch g id => exact h.execCopyRequestFetch g id
  | copyRequestPerform core req => exact h.execCopyRequestPerform core req
  | copyCompletion core req part => exact h.execCopyCompletion core req part
  | drawRecord die queueCtx queue => exact h.execDrawRecord die queueCtx queue
  | doorbell ctx queue tail => exact h.execDoorbell ctx queue tail
  | gridCompletion grid => exact h.execGridCompletion grid
  | rangeRelease ctx range => exact h.execRangeRelease ctx range
  | rangeAcquire ctx range => exact h.execRangeAcquire ctx range
  | hostAccess pa acc => exact h.execHostAccess pa acc
  | peerAccess peer pa acc => exact h.execPeerAccess peer pa acc
  | linkRetrain link dir laneFailed => exact h.execLinkRetrain link dir laneFailed
  | channelSpare stack channel => exact h.execChannelSpare stack channel
  | coreSpare core => exact h.execCoreSpare core
  | coreLost core => exact h.execCoreLost core
  | uncorrectableError sec place => exact h.execUncorrectableError sec place
  | undervoltWindowEnd sec clean => exact h.execUndervoltWindowEnd sec clean
  | thermalSample temps => exact h.execThermalSample temps
  | sectionReassign sec cls => exact h.execSectionReassign sec cls
  | energyApportion steps => exact h.execEnergyApportion steps
  | liveMigration ctx => exact h.execLiveMigration ctx
  | contextCreate spec => exact h.execContextCreate spec
  | queueCreate spec => exact h.execQueueCreate spec
  | domainForm own count => exact h.execDomainForm own count
  | reset spec => exact h.execReset spec
  | plainJoinWritten g id => exact h.execPlainJoinWritten g id
  | deviceLeavesDomain peer => exact h.execDeviceLeavesDomain peer
  | codeObjectBind spec => exact h.execCodeObjectBind spec
  | managementFirmwareLoad good => exact h.execManagementFirmwareLoad good

/-! ### The choice of a step -/

/-- The state that a fetch leaves. -/
def Fetched.state : Fetched → State
  | .word _ s => s
  | .fault _ s => s

theorem State.Canonical.fetch {s : State} (h : s.Canonical) (g : Group) (pc : Word) : (s.fetch g pc).state.Canonical := by
  unfold State.fetch
  split
  · exact h
  · split
    · exact h
    · split
      · next he => exact (h.access ..).snd he
      · next he => exact (h.access ..).snd he

theorem State.Canonical.runPath {s : State} (h : s.Canonical) (gid k : Nat) : Keeps (s.runPath gid k) := by
  unfold State.runPath
  extract_lets s1
  have h1 : s1.Canonical := h
  clear_value s1
  split
  · exact .next h1
  · next c hc =>
    extract_lets s2 c2
    have h2 : s2.Canonical := h1
    have hc2 : c2.s.Canonical := h2
    have hf := h2.fetch c2.g c2.p.pc
    refine .ite (.ite (.next (Issue.glueStep_canonical hc2)) (.next h2)) ?_
    split
    · next t s3 he =>
      have h3 : s3.Canonical := by rw [he] at hf; exact hf
      exact .next (Issue.fetchFault_canonical (c := { c2 with s := s3 }) h3 _ _)
    · next w s3 he =>
      have h3 : s3.Canonical := by rw [he] at hf; exact hf
      split
      · exact .next (Issue.raise_canonical (c := { c2 with s := s3 }) h3 _)
      · exact h3.exec _

theorem State.Canonical.activate {s : State} (h : s.Canonical) (gid : Nat) : (s.activate gid).Canonical := by
  unfold State.activate
  split
  · exact h
  · refine h.ite ((h.setGroup _).ite ?_)
    split
    · exact h.exchange _ _
    · exact h.exchange _ _
    · exact h

theorem State.Canonical.relieve {s : State} (h : s.Canonical) (n : Nat) : (s.relieve n).Canonical := by
  unfold State.relieve
  refine State.Canonical.ite ?_ h
  split
  · exact h
  · split
    · exact h
    · exact h.exchange _ _

theorem State.Canonical.slotTurn {s : State} (h : s.Canonical) (n : Nat) : Keeps (s.slotTurn n) := by
  unfold State.slotTurn
  dsimp only
  split
  · exact .next (h.relieve n).tick
  · exact ((h.relieve n).activate _).runPath _ _

theorem State.Canonical.firstEvent {s : State} (h : s.Canonical) {l : List Instr} {r : Result}
    (e : s.firstEvent l = some r) : Keeps r := by
  induction l with
  | nil => cases e
  | cons i l ih =>
    unfold State.firstEvent at e
    split at e
    · next he =>
      split at e
      · obtain rfl := Option.some.inj e
        exact .next (h.exec i _ he)
      · exact ih e
    · obtain rfl := Option.some.inj e
      exact .fault _
    · obtain rfl := Option.some.inj e
      exact nofun

theorem State.Canonical.choose {s : State} (h : s.Canonical) : Keeps s.choose := by
  unfold State.choose
  split
  · exact h.runPath _ _
  · split
    · next he => exact h.firstEvent he
    · split
      · exact h.slotTurn _
      · cases he : s.firstEvent s.lateEvents with
        | none => exact .next h.tick
        | some r => exact h.firstEvent he

theorem State.Canonical.next {s : State} (h : s.Canonical) : Keeps s.next := by
  have hs := h.sated
  unfold State.next
  dsimp only
  split
  · exact hs.choose
  · exact State.Canonical.exec (by exact hs) _
  · exact State.Canonical.slotTurn (by exact hs) _

/-- Settles O60: each instruction and event writes device memory, scratchpads and sheaves' lines through the operations of
`memSet`, which keep the canonical form, or drops cells of them (`State.Canonical.exec`); what a step runs is one of these. -/
theorem stepKeepsCanonical : Obligations.StepKeepsCanonical := by
  unfold Obligations.StepKeepsCanonical
  exact fun _ t hs he => State.Canonical.next hs t he

end Sys2Proof.Machine
end

section
/-! Words of the encoding tables (O56) and the round trip of decoding and encoding (O57). -/
namespace Sys2Proof

/-- Four bytes of a word, laid together again (R8). -/
theorem wordOfBytes_bytes (w : Word) :
    wordOfBytes (w.extractLsb' 0 8) (w.extractLsb' 8 8) (w.extractLsb' 16 8) (w.extractLsb' 24 8) = w := by
  unfold wordOfBytes
  ext i h
  simp only [BitVec.getElem_append, BitVec.getElem_extractLsb']
  split_ifs <;> (rw [BitVec.getLsbD_eq_getElem (by omega)]; congr 1; omega)

/-- The table's decoder answers with the instruction of the word (R18). -/
theorem decodeTableWord_of_decodeWord {w : Word} {i : Instr} (h : decodeWord w = .ok i) :
    decodeTableWord 32 w.toNat = some i := by
  simp only [decodeTableWord, decodeBytes, BitVec.ofNat_toNat, BitVec.setWidth_eq, wordOfBytes_bytes, h, Except.map]

/-- Every well-formed instruction that has a word is what its word decodes to: one case per row with a word; the other rows are
steps. -/
theorem decodeWord_encode (i : Instr) : Laws.RoundTrip.Statement i := by
  cases i with
  | clauseStart wait seta setb len => exact Laws.RoundTrip.clauseStart wait seta setb len
  | nop => exact Laws.RoundTrip.nop
  | exit => exact Laws.RoundTrip.exit
  | bra off => exact Laws.RoundTrip.bra off
  | bc neg p all off => exact Laws.RoundTrip.bc neg p all off
  | bdiv neg p off => exact Laws.RoundTrip.bdiv neg p off
  | setj off => exact Laws.RoundTrip.setj off
  | join => exact Laws.RoundTrip.join
  | call off => exact Laws.RoundTrip.call off
  | ret => exact Laws.RoundTrip.ret
  | brx a => exact Laws.RoundTrip.brx a
  | callx a => exact Laws.RoundTrip.callx a
  | yield_ => exact Laws.RoundTrip.yield_
  | trap n => exact Laws.RoundTrip.trap n
  | tret => exact Laws.RoundTrip.tret
  | mode imm => exact Laws.RoundTrip.mode imm
  | iadd u d a b => exact Laws.RoundTrip.iadd u d a b
  | isub u d a b => exact Laws.RoundTrip.isub u d a b
  | imul u d a b => exact Laws.RoundTrip.imul u d a b
  | imulh u d a b => exact Laws.RoundTrip.imulh u d a b
  | imad u d a b => exact Laws.RoundTrip.imad u d a b
  | imin u d a b => exact Laws.RoundTrip.imin u d a b
  | imax u d a b => exact Laws.RoundTrip.imax u d a b
  | iabs u d a => exact Laws.RoundTrip.iabs u d a
  | and u d a b => exact Laws.RoundTrip.and u d a b
  | or u d a b => exact Laws.RoundTrip.or u d a b
  | xor u d a b => exact Laws.RoundTrip.xor u d a b
  | andn u d a b => exact Laws.RoundTrip.andn u d a b
  | shl u d a b => exact Laws.RoundTrip.shl u d a b
  | shr u d a b => exact Laws.RoundTrip.shr u d a b
  | sar u d a b => exact Laws.RoundTrip.sar u d a b
  | rol u d a b => exact Laws.RoundTrip.rol u d a b
  | bfe u d a b => exact Laws.RoundTrip.bfe u d a b
  | bfi u d a b => exact Laws.RoundTrip.bfi u d a b
  | popc u d a => exact Laws.RoundTrip.popc u d a
  | clz u d a => exact Laws.RoundTrip.clz u d a
  | brev u d a => exact Laws.RoundTrip.brev u d a
  | sel u d a b => exact Laws.RoundTrip.sel u d a b
  | icmp u c p a b => exact Laws.RoundTrip.icmp u c p a b
  | mov u d a => exact Laws.RoundTrip.mov u d a
  | iaddi u d imm => exact Laws.RoundTrip.iaddi u d imm
  | movi u d imm => exact Laws.RoundTrip.movi u d imm
  | movhi u d imm => exact Laws.RoundTrip.movhi u d imm
  | andi u d imm => exact Laws.RoundTrip.andi u d imm
  | ori u d imm => exact Laws.RoundTrip.ori u d imm
  | xori u d imm => exact Laws.RoundTrip.xori u d imm
  | imuli u d imm => exact Laws.RoundTrip.imuli u d imm
  | fadd u d a b => exact Laws.RoundTrip.fadd u d a b
  | fsub u d a b => exact Laws.RoundTrip.fsub u d a b
  | fmul u d a b => exact Laws.RoundTrip.fmul u d a b
  | ffma u d a b => exact Laws.RoundTrip.ffma u d a b
  | fmin u d a b => exact Laws.RoundTrip.fmin u d a b
  | fmax u d a b => exact Laws.RoundTrip.fmax u d a b
  | fabs u d a => exact Laws.RoundTrip.fabs u d a
  | fneg u d a => exact Laws.RoundTrip.fneg u d a
  | fcmp u c p a b => exact Laws.RoundTrip.fcmp u c p a b
  | frcp u d a => exact Laws.RoundTrip.frcp u d a
  | frsq u d a => exact Laws.RoundTrip.frsq u d a
  | fsqrt u d a => exact Laws.RoundTrip.fsqrt u d a
  | fexp2 u d a => exact Laws.RoundTrip.fexp2 u d a
  | flog2 u d a => exact Laws.RoundTrip.flog2 u d a
  | fsin u d a => exact Laws.RoundTrip.fsin u d a
  | fcos u d a => exact Laws.RoundTrip.fcos u d a
  | frnd u d a => exact Laws.RoundTrip.frnd u d a
  | ffrac u d a => exact Laws.RoundTrip.ffrac u d a
  | cvt u d a pos dst => exact Laws.RoundTrip.cvt u d a pos dst
  | pack u d a b => exact Laws.RoundTrip.pack u d a b
  | unpk u d a i4 hi => exact Laws.RoundTrip.unpk u d a i4 hi
  | fdot2 u d a b => exact Laws.RoundTrip.fdot2 u d a b
  | fclass u d a => exact Laws.RoundTrip.fclass u d a
  | fmulb u d imm => exact Laws.RoundTrip.fmulb u d imm
  | shfl d a b => exact Laws.RoundTrip.shfl d a b
  | shflx d a b => exact Laws.RoundTrip.shflx d a b
  | shflup d a b => exact Laws.RoundTrip.shflup d a b
  | vote d a k => exact Laws.RoundTrip.vote d a k
  | lred d a op => exact Laws.RoundTrip.lred d a op
  | lscan d a ex op => exact Laws.RoundTrip.lscan d a ex op
  | elect d => exact Laws.RoundTrip.elect d
  | barArrive a b => exact Laws.RoundTrip.barArrive a b
  | barWait a => exact Laws.RoundTrip.barWait a
  | barSync a b => exact Laws.RoundTrip.barSync a b
  | freeze a => exact Laws.RoundTrip.freeze a
  | lnchW u x a => exact Laws.RoundTrip.lnchW u x a
  | lnchN u x a => exact Laws.RoundTrip.lnchN u x a
  | enq u x a => exact Laws.RoundTrip.enq u x a
  | fence k sc => exact Laws.RoundTrip.fence k sc
  | xfence k after before sc => exact Laws.RoundTrip.xfence k after before sc
  | waita u ne sc sp a => exact Laws.RoundTrip.waita u ne sc sp a
  | ckick u a b => exact Laws.RoundTrip.ckick u a b
  | csrr u d n => exact Laws.RoundTrip.csrr u d n
  | csrw u d n => exact Laws.RoundTrip.csrw u d n
  | mint u d a b => exact Laws.RoundTrip.mint u d a b
  | xlat u n a => exact Laws.RoundTrip.xlat u n a
  | ld u d x sz h a => exact Laws.RoundTrip.ld u d x sz h a
  | st u d x sz h a => exact Laws.RoundTrip.st u d x sz h a
  | atom u d x op w64 a => exact Laws.RoundTrip.atom u d x op w64 a
  | atomNoreturn u x op w64 a => exact Laws.RoundTrip.atomNoreturn u x op w64 a
  | lds u d sp sz a => exact Laws.RoundTrip.lds u d sp sz a
  | sts u d sp sz a => exact Laws.RoundTrip.sts u d sp sz a
  | atoms u d sp op w64 a => exact Laws.RoundTrip.atoms u d sp op w64 a
  | atomsNoreturn u sp op w64 a => exact Laws.RoundTrip.atomsNoreturn u sp op w64 a
  | ldcTable u d a => exact Laws.RoundTrip.ldcTable u d a
  | ldcMemory u d x a => exact Laws.RoundTrip.ldcMemory u d x a
  | stc u d x a => exact Laws.RoundTrip.stc u d x a
  | tlook u d a b => exact Laws.RoundTrip.tlook u d a b
  | tset u a b => exact Laws.RoundTrip.tset u a b
  | ldlod u d sz a => exact Laws.RoundTrip.ldlod u d sz a
  | sample u d a b => exact Laws.RoundTrip.sample u d a b
  | sampleg u d a b => exact Laws.RoundTrip.sampleg u d a b
  | pref u x k a => exact Laws.RoundTrip.pref u x k a
  | mloadb a => exact Laws.RoundTrip.mloadb a
  | mloop a => exact Laws.RoundTrip.mloop a
  | mdrain a => exact Laws.RoundTrip.mdrain a
  | mdrainv d a b => exact Laws.RoundTrip.mdrainv d a b
  | mzero a b => exact Laws.RoundTrip.mzero a b
  | mscale q a => exact Laws.RoundTrip.mscale q a
  | vxm d a last b => exact Laws.RoundTrip.vxm d a last b
  | trace mask a k d => exact Laws.RoundTrip.trace mask a k d
  | hitret a d => exact Laws.RoundTrip.hitret a d
  | repack k nm1 a b => exact Laws.RoundTrip.repack k nm1 a b
  | visb clear a mask => exact Laws.RoundTrip.visb clear a mask
  | cover a b => exact Laws.RoundTrip.cover a b
  | compose d a => exact Laws.RoundTrip.compose d a
  | resdrain u d => exact Laws.RoundTrip.resdrain u d
  | _ => exact Laws.RoundTrip.of_step _ rfl

/-- Settles O57: the word decodes to its instruction, row by row, and the four bytes of a word are that word again. -/
theorem roundTrip : Obligations.RoundTrip := by
  unfold Obligations.RoundTrip
  intro i hwf hword
  have h := decodeWord_encode i hwf hword
  exact ⟨h, decodeTableWord_of_decodeWord h⟩

/-- Settles O56: the words are closed terms, which the decoder computes. -/
theorem decodeWords : Obligations.DecodeWords := by
  unfold Obligations.DecodeWords
  refine ⟨?_, ?_⟩
  · decide
  · decide
end Sys2Proof
end

section
/-! A step is `exec` of the decoded instruction (O58): what a path's word gives, and what a step does by the head of the agenda
or, without one, by the machine's choice. -/
namespace Sys2Proof.Machine

/-! ### The word of a path -/

/-- A word in its place that is an instruction. -/
theorem placed_of_decodeWord {cl : Option ClauseState} {w : Word} {i : Instr} (h : decodeWord w = .ok i)
    (hp : isHeaderWord w = cl.isNone) : placed cl w = .ok i := by
  cases cl <;> simp_all [placed, decoded]

/-- A word in its place that is no instruction (R41). -/
theorem placed_of_reject {cl : Option ClauseState} {w : Word} {e : Reject} (h : decodeWord w = .error e)
    (hp : isHeaderWord w = cl.isNone) : placed cl w = .error trIllegal := by
  cases cl <;> simp_all [placed, decoded]

/-- A word out of its place (R21). -/
theorem placed_of_misplaced {cl : Option ClauseState} {w : Word} (hp : isHeaderWord w = cl.isSome) :
    placed cl w = .error trClause := by
  cases cl <;> simp_all [placed]

/-- The machine in which a path of a group is the current one of the device and of its issue slot. -/
def State.onPath (s : State) (c : Issue) (gid k : Nat) : State :=
  { s with cur := some (gid, k), slotLast := assocSet c.g.slotNumber (gid, k) s.slotLast }

section
variable {s s2 : State} {gid k : Nat} {c : Issue} (hc : ({ s with cur := some (gid, k) } : State).issue? = some c)
  (hglue : c.glueDue = false)
include hc hglue

theorem State.runPath_of_placed {w : Word} {i : Instr} (hf : (s.onPath c gid k).fetch c.g c.p.pc = .word w s2)
    (hp : placed c.p.clause w = .ok i) : s.runPath gid k = exec i s2 := by
  have hglue' : ({ c with s := s.onPath c gid k } : Issue).glueDue = false := hglue
  unfold State.onPath at hf hglue'
  simp only [State.runPath, hc, hglue', hf, hp, Bool.false_eq_true, if_false]

theorem State.runPath_of_misplaced {w : Word} {t : Trap} (hf : (s.onPath c gid k).fetch c.g c.p.pc = .word w s2)
    (hp : placed c.p.clause w = .error t) : s.runPath gid k = .next (Issue.raise { c with s := s2 } t) := by
  have hglue' : ({ c with s := s.onPath c gid k } : Issue).glueDue = false := hglue
  unfold State.onPath at hf hglue'
  simp only [State.runPath, hc, hglue', hf, hp, Bool.false_eq_true, if_false]

theorem State.runPath_of_fetchFault {t : Trap} (hf : (s.onPath c gid k).fetch c.g c.p.pc = .fault t s2) :
    s.runPath gid k = .next (Issue.fetchFault { c with s := s2 } .nop t) := by
  have hglue' : ({ c with s := s.onPath c gid k } : Issue).glueDue = false := hglue
  unfold State.onPath at hf hglue'
  simp only [State.runPath, hc, hglue', hf, Bool.false_eq_true, if_false]

end

/-- The fetched word is the four bytes at the path's pc (R8, R158). -/
theorem State.fetch_word {s s2 : State} {g : Group} {pc : Word} {d : Grid} {x : Context} {runs : List Run}
    {stale : List (Nat × Nat)} (hd : s.grid? g.grid = some d) (hx : s.context? d.ctx = some x)
    (ha : s.access g.core x (capRegister d.codeCap) .fetch true 4 4 pc.toNat = (.ok runs stale, s2)) :
    s.fetch g pc = .word (BitVec.ofNat 32 (leValue (s2.readRuns runs))) s2 := by
  simp only [State.fetch, hd, hx, ha]

/-! ### What a step runs -/

theorem step_of_event {s : State} {i : Instr} {l : List Turn} (h : s.agenda = .event i :: l) :
    step s = exec i { s.sated with agenda := l } := by
  simp only [step, State.next, State.sated_agenda, h]

theorem step_of_slot {s : State} {n : Nat} {l : List Turn} (h : s.agenda = .slot n :: l) :
    step s = State.slotTurn { s.sated with agenda := l } n := by
  simp only [step, State.next, State.sated_agenda, h]

theorem step_of_noAgenda {s : State} (h : s.agenda = []) : step s = s.sated.choose := by
  simp only [step, State.next, State.sated_agenda, h]

theorem State.slotTurn_of_choice {s : State} {n gid k : Nat} (h : (s.relieve n).slotChoice n = some (gid, k)) :
    s.slotTurn n = ((s.relieve n).activate gid).runPath gid k := by
  simp only [State.slotTurn, h]

theorem State.slotTurn_of_none {s : State} {n : Nat} (h : (s.relieve n).slotChoice n = none) :
    s.slotTurn n = .next (s.relieve n).tick := by
  simp only [State.slotTurn, h]

theorem State.choose_of_current {s : State} {gid k : Nat} (h : s.currentReady = some (gid, k)) :
    s.choose = s.runPath gid k := by
  simp only [State.choose, h]

theorem State.choose_of_slot {s : State} {n : Nat} (h : s.currentReady = none)
    (he : s.firstEvent s.progressEvents = none) (hs : s.firstSlot s.slotRound = some n) : s.choose = s.slotTurn n := by
  simp only [State.choose, h, he, hs]

/-- Settles O58: the agenda's head, else the choice of `State.choose`; the word of a path by `State.runPath`. -/
theorem stepRunsDecoded : Obligations.StepRunsDecoded := by
  unfold Obligations.StepRunsDecoded
  refine ⟨fun s i l h => step_of_event h, fun s n l g k h => ?_, fun s g k h hr => ?_, fun s n h hr he hs => ?_,
    fun s gid k c w s2 hc hglue hf => ?_, fun s gid k c t s2 hc hglue hf => State.runPath_of_fetchFault hc hglue hf,
    fun s g pc d x runs stale s2 hd hx ha => State.fetch_word hd hx ha⟩
  · rw [step_of_slot h]
    exact ⟨fun e => State.slotTurn_of_choice e, fun e => State.slotTurn_of_none e⟩
  · rw [step_of_noAgenda h, State.choose_of_current hr]
  · rw [step_of_noAgenda h, State.choose_of_slot hr he hs]
  · exact ⟨fun i hi hp => State.runPath_of_placed hc hglue hf (placed_of_decodeWord hi hp),
      fun hp => State.runPath_of_misplaced hc hglue hf (placed_of_misplaced hp),
      fun e he hp => State.runPath_of_misplaced hc hglue hf (placed_of_reject he hp)⟩

end Sys2Proof.Machine
end

section
/-! Clause headers (O20): every other word of the tables issues by `issue`, which raises CLAUSE between clauses; a header starts
its clause, waits, or raises CLAUSE by what its path and its group are. -/
namespace Sys2Proof.Machine

/-- Every word but the header is executed by `issue`, with an effect of its own. -/
theorem exec_eq_issue {j : Instr} (s : State) (hh : j.latency ≠ .header) (hd : j.latency ≠ .deviceStep) :
    ∃ body, exec j s = issue j body s := by
  cases j with
  | clauseStart => exact absurd rfl hh
  | nop | exit | bra | bc | bdiv | setj | join | call | ret | brx | callx | yield_ | trap | tret | mode | iadd | isub | imul
  | imulh | imad | imin | imax | iabs | and | or | xor | andn | shl | shr | sar | rol | bfe | bfi | popc | clz | brev | sel
  | icmp | mov | iaddi | movi | movhi | andi | ori | xori | imuli | fadd | fsub | fmul | ffma | fmin | fmax | fabs | fneg
  | fcmp | frcp | frsq | fsqrt | fexp2 | flog2 | fsin | fcos | frnd | ffrac | cvt | pack | unpk | fdot2 | fclass | fmulb
  | shfl | shflx | shflup | vote | lred | lscan | elect | barArrive | barWait | barSync | freeze | lnchW | lnchN | enq
  | fence | xfence | waita | ckick | csrr | csrw | mint | xlat | ld | st | atom | atomNoreturn | lds | sts | atoms
  | atomsNoreturn | ldcTable | ldcMemory | stc | tlook | tset | ldlod | sample | sampleg | pref | mloadb | mloop | mdrain
  | mdrainv | mzero | mscale | vxm | trace | hitret | repack | visb | cover | compose | resdrain => exact ⟨_, rfl⟩
  | _ => exact absurd rfl hd

/-- Between clauses a word that is no header raises CLAUSE (R21). -/
theorem issue_of_noClause {s : State} {c : Issue} {i : Instr} {body : Issue → Eff} (h : s.issue? = some c)
    (hcl : c.p.clause = none) : issue i body s = .next (c.raise trClause) := by
  simp only [issue, h, hcl]

/-- Marks that a group issues a clause, in the lists of the groups that wait for it (R113). -/
def markOwed (gid k : Nat) (h : Group) : Group :=
  { h with owed := h.owed.map (fun e => if e.1 = gid then
      (if k = 0 then (e.1, true, e.2.2) else (e.1, e.2.1, true)) else e) }

theorem markOwed_of_owed_nil {g : Group} (h : g.owed = []) (gid k : Nat) : markOwed gid k g = g := by
  unfold markOwed
  rw [h, List.map_nil, ← h]

theorem State.group?_markOwed (s : State) (gid k n : Nat) :
    ({ s with groups := s.groups.map (markOwed gid k) } : State).group? n = (s.group? n).map (markOwed gid k) :=
  find?_map_id s.groups (markOwed gid k) (fun _ => rfl) n

/-- The path of a header whose clause starts (R18, R19). -/
def Path.inClause (p : Path) (seta setb : Option (Fin 12)) (len : Fin 16) : Path :=
  { p with pc := p.pc + 4, clause := some { seta := seta, setb := setb, left := len.val + 1 } }

section
variable {s : State} {c : Issue} {wait : BitVec 12} {seta setb : Option (Fin 12)} {len : Fin 16}
  (hc : s.issue? = some c)
include hc

/-- A header in a clause (R21). -/
theorem execClauseStart_of_clause (h : c.p.clause ≠ none) :
    execClauseStart wait seta setb len s = .next (c.raise trClause) := by
  obtain ⟨cl, hcl⟩ := Option.ne_none_iff_exists'.mp h
  simp only [execClauseStart, hc, hcl]

variable (hcl : c.p.clause = none) (hf : c.g.faulting c.half = false) (hdem : c.g.demote ≠ some (1 - c.k))
  (howed : c.g.owed = []) (hdrain : s.draining c.p = false) (hstop : s.sectionStopped c.g.core = false)
include hcl hf hdem howed hdrain hstop

/-- Nothing but its WAIT holds the header: it starts its clause where every flag named is zero, and waits otherwise. -/
theorem execClauseStart_of_free : execClauseStart wait seta setb len s =
    if (upto 12).all (fun f => !wait.getLsbD f || c.p.flag f = 0) then
      .next { ({ c with p := c.p.inClause seta setb len } : Issue).state with
        groups := ({ c with p := c.p.inClause seta setb len } : Issue).state.groups.map (markOwed c.g.id c.k) }
    else .next s := by
  have hfree : ¬ (c.g.demote = some (1 - c.k) ∨ ¬ c.g.owed.isEmpty = true ∨ s.draining c.p = true ∨
      s.sectionStopped c.g.core = true) := by simp [hdem, howed, hdrain, hstop]
  simp only [execClauseStart, hc, hcl, hf, if_neg hfree, Bool.false_eq_true, if_false]
  rfl

end

/-- The WAIT test of a header, flag by flag (R19). -/
theorem waitTest_iff (wait : BitVec 12) (p : Path) : (upto 12).all (fun f => !wait.getLsbD f || p.flag f = 0) = true ↔
    ∀ f : Fin 12, wait.getLsbD f.val = true → p.flag f.val = 0 := by
  simp only [upto, List.all_eq_true, List.mem_range, Bool.or_eq_true, Bool.not_eq_true', decide_eq_true_eq]
  constructor
  · intro h f hw
    exact (h f.val f.isLt).resolve_left (by simp [hw])
  · intro h f hf
    cases hw : wait.getLsbD f with
    | false => exact .inl rfl
    | true => exact .inr (h ⟨f, hf⟩ hw)

/-- A group written back by a header, and the marks in the lists of the others. -/
theorem Issue.state_markOwed {s : State} {c : Issue} (hc : s.issue? = some c) (howed : c.g.owed = []) (q : Path) :
    let u := ({ c with p := q } : Issue).state
    let t : State := { u with groups := u.groups.map (markOwed c.g.id c.k) }
    t = { s with groups := t.groups } ∧ t.group? c.g.id = some (c.g.setSlot c.k (some q)) ∧
      ∀ n, n ≠ c.g.id → (t.group? n).map Group.plain = (s.group? n).map Group.plain := by
  obtain ⟨hs, -, hg, -, -, -⟩ := State.issue?_spec hc
  subst hs
  have hid : (c.g.setSlot c.k (some q)).id = c.g.id := Group.setSlot_id ..
  refine ⟨rfl, ?_, fun n hn => ?_⟩
  · have hself : (c.s.setGroup (c.g.setSlot c.k (some q))).group? c.g.id = some (c.g.setSlot c.k (some q)) := by
      have := State.group?_setGroup_self (s := c.s) (g := c.g.setSlot c.k (some q)) (by rw [hid, hg]; rfl)
      rwa [hid] at this
    rw [State.group?_markOwed]
    show ((c.s.setGroup (c.g.setSlot c.k (some q))).group? c.g.id).map _ = _
    rw [hself, Option.map_some, markOwed_of_owed_nil (by rw [Group.setSlot_owed, howed])]
  · rw [State.group?_markOwed]
    show (((c.s.setGroup (c.g.setSlot c.k (some q))).group? n).map _).map _ = _
    rw [State.group?_setGroup_other (by rw [hid]; exact hn), Option.map_map]
    rfl

/-- Settles O20: by what the path and its group are, through `execClauseStart_of_free`. -/
theorem headerStartsItsClause : Obligations.HeaderStartsItsClause := by
  unfold Obligations.HeaderStartsItsClause
  intro s c wait seta setb len hc
  refine ⟨fun h => execClauseStart_of_clause hc h, fun hcl hf hdem howed hdrain hstop => ?_, fun j hcl hh hd => ?_⟩
  · have hexec := execClauseStart_of_free (wait := wait) (seta := seta) (setb := setb) (len := len) hc hcl hf hdem howed
      hdrain hstop
    refine ⟨fun hzero => ?_, fun ⟨f, hw, hne⟩ => ?_⟩
    · obtain ⟨hrest, hhere, hothers⟩ := Issue.state_markOwed hc howed (c.p.inClause seta setb len)
      rw [if_pos ((waitTest_iff wait c.p).mpr hzero)] at hexec
      exact ⟨_, hexec, hrest, hhere, hothers⟩
    · rw [if_neg (fun h => hne ((waitTest_iff wait c.p).mp h f hw))] at hexec
      exact hexec
  · obtain ⟨body, hbody⟩ := exec_eq_issue s hh hd
    rw [hbody]
    exact issue_of_noClause hc hcl

end Sys2Proof.Machine
end

section
/-! Instructions in flight: an access takes its place (O27), what it holds (O30), and what its completion does (O34). -/
namespace Sys2Proof.Machine

/-! ### Accesses that are checked at issue -/

/-- The words that access memory, a capability, a tag, a texture or a unit over their effective mask. -/
def Instr.checkedAccess : Instr → Prop
  | .ld _ _ _ _ _ _ | .st _ _ _ _ _ _ | .atom _ _ _ _ _ _ | .atomNoreturn _ _ _ _ _ | .lds _ _ _ _ _
  | .sts _ _ _ _ _ | .atoms _ _ _ _ _ _ | .atomsNoreturn _ _ _ _ _ | .ldcTable _ _ _ | .ldcMemory _ _ _ _
  | .stc _ _ _ _ | .xlat _ _ _ | .mint _ _ _ _ | .tlook _ _ _ _ | .tset _ _ _ | .pref _ _ _ _ | .lnchN _ _ _
  | .enq _ _ _ | .ldlod _ _ _ _ | .sample _ _ _ _ | .sampleg _ _ _ _ | .vxm _ _ _ _ | .trace _ _ _ _
  | .hitret _ _ | .cover _ _ => True
  | _ => False

/-- Each of them captures, is checked, and flies or faults (R19, R34, R176). -/
theorem exec_of_checkedAccess {i : Instr} (h : Instr.checkedAccess i) (s : State) : exec i s = flyChecked i s := by
  cases i with
  | ld | st | atom | atomNoreturn | lds | sts | atoms | atomsNoreturn | ldcTable | ldcMemory | stc | xlat | mint | tlook
  | tset | pref | lnchN | enq | ldlod | sample | sampleg | vxm | trace | hitret | cover => rfl
  | _ => exact h.elim

/-- Settles O27: each access is `flyChecked`, which does nothing over an empty mask and otherwise puts the checked
instruction in flight. -/
theorem accessesTakeTheirPlace : Obligations.AccessesTakeTheirPlace := by
  unfold Obligations.AccessesTakeTheirPlace
  intro i s c cl hi hacc
  have hexec := exec_of_checkedAccess (i := i) hacc s
  exact ⟨fun hm => hi.idles hexec (if_pos hm), fun hm => hi.fliesChecked hexec hm⟩


/-! ### What an instruction in flight holds -/

/-- Beside its operands it holds its translation register, and the tag of a quad (R307, R309). -/
theorem captureCap_eq (i : Instr) (c : Issue) (p : Pend) (hx : p.xcap = none) :
    ∃ tag, captureCap i c p = { p with xcap := (xOf i).map (fun x => nth c.bank.x x.val {}), stag := tag } := by
  unfold captureCap
  cases xOf i with
  | some x => dsimp only [Option.map_some]; split <;> exact ⟨_, rfl⟩
  | none => dsimp only [Option.map_none]; rw [← hx]; split <;> exact ⟨_, rfl⟩

theorem extractLsb'_halves (x : DWord) : x.extractLsb' 32 32 ++ x.extractLsb' 0 32 = x := by
  ext i h
  simp only [BitVec.getElem_append, BitVec.getElem_extractLsb']
  split_ifs <;> (rw [BitVec.getLsbD_eq_getElem (by omega)]; congr 1; omega)

/-- A lane of a captured v register. -/
theorem Group.nth_vBlock (g : Group) (n lane : Nat) : nth (g.vBlock n) lane 0 = g.vLane n lane := by
  unfold Group.vBlock Group.vLane
  cases nth g.v n none with
  | some m => rfl
  | none =>
    simp only [nth, List.getElem?_replicate]
    split <;> rfl

/-- A special value but `$lane` is the same in every lane. -/
theorem Issue.src_special_lane (c : Issue) {sp : Special} (h : sp ≠ .lane) (dl dl' : Delivery) (l l' : Nat) :
    c.src dl (.special sp) l = c.src dl' (.special sp) l' := by
  cases sp with
  | lane => exact absurd rfl h
  | _ => rfl

/-- What was captured of the sources, looked up, is what they held (R303, R308). -/
theorem lookupOp_capture (c : Issue) (dl : Delivery) (low lane : Nat) (l : List Src) (j : Nat) (h : j < l.length) :
    lookupOp (c.g.laneIndex lane) lane dl l (captureV c.g l) (captureS c low l) j = c.src dl l[j] lane := by
  induction l generalizing j with
  | nil => exact absurd h (Nat.not_lt_zero j)
  | cons a l ih =>
    cases j with
    | succ j =>
      have hj := ih j (Nat.lt_of_succ_lt_succ h)
      cases a <;> simpa [lookupOp, captureV, captureS] using hj
    | zero =>
      cases a with
      | v n => exact c.g.nth_vBlock n.val lane
      | vLast n => exact c.g.nth_vBlock n.val lane
      | s n => rfl
      | const k => rfl
      | p n =>
        show boolWord dl ((_ ++ _ : DWord).getLsbD lane) = _
        rw [extractLsb'_halves]
        rfl
      | special sp =>
        show (if sp = .lane then BitVec.ofNat 32 (c.g.laneIndex lane) else c.src .control (.special sp) low) = _
        split
        · next hl => subst hl; rfl
        · next hl => exact c.src_special_lane hl ..

/-- The instruction that `Issue.fly` lays down before a word captures more. -/
def Issue.pendOf (c : Issue) (i : Instr) (m : DWord) (cl : ClauseState) : Pend :=
  { id := c.s.fresh, instr := i, pc := c.p.pc, mode := c.p.mode, lmask := m, half := c.half,
    owner0 := decide (c.k = 0), owner1 := decide (c.k ≠ 0), flag := flagFor i cl,
    vops := captureV c.g (unitSources (i.reads c.p.mode)),
    sops := captureS c (lowestLane m) (unitSources (i.reads c.p.mode)),
    vdst := (vRegs i.returns).map (fun n => (n, m)), sdst := sRegs i.returns, sectors := c.sectorsAsked i }

/-- What flies is that instruction with its translation register, a tag, and the physical registers that it will write. -/
theorem Issue.flown_eq {c : Issue} {cl : ClauseState} (hcl : c.p.clause = some cl) (i : Instr) (m : DWord) :
    ∃ tag regs, c.flown i m = { c.pendOf i m cl with
      xcap := (xOf i).map (fun x => nth c.bank.x x.val {}), stag := tag, regs := regs } := by
  obtain ⟨tag, hcap⟩ := captureCap_eq i c (c.pendOf i m cl) rfl
  have hfly : c.flown i m = { captureCap i c (c.pendOf i m cl) with regs := (c.flown i m).regs } := by
    unfold Issue.flown Issue.fly Issue.pendOf
    simp only [hcl, Option.getD_some]
  rw [hcap] at hfly
  exact ⟨tag, _, hfly⟩

theorem flagFor_eq (i : Instr) (cl : ClauseState) : flagFor i cl = (match i.latency with
    | .vr => cl.seta
    | .vn => cl.setb
    | _ => none) := by
  unfold flagFor
  cases i.latency <;> rfl

/-- A source of an instruction in flight, looked up in a lane, is what it was at issue in the lane that supplies it (R29). -/
theorem Issue.flown_op {c : Issue} {cl : ClauseState} (hcl : c.p.clause = some cl) (i : Instr) (m : DWord) (dl : Delivery)
    (j l : Nat) (h : j < (unitSources (i.reads c.p.mode)).length) :
    (c.flown i m).op c.g dl j l = c.src dl (unitSources (i.reads c.p.mode))[j] (source i.uniform m l) := by
  obtain ⟨tag, regs, hq⟩ := Issue.flown_eq hcl i m
  rw [hq]
  exact lookupOp_capture c dl (lowestLane m) (source i.uniform m l) _ j h

/-- Settles O30: the fields are those that `Issue.fly` lays down, and `lookupOp_capture` gives back each source. -/
theorem operandsAreCapturedAtIssue : Obligations.OperandsAreCapturedAtIssue := by
  unfold Obligations.OperandsAreCapturedAtIssue
  intro c i m cl hcl
  refine ⟨?_, fun dl j l h _ _ => Issue.flown_op hcl i m dl j l h⟩
  obtain ⟨tag, regs, hq⟩ := Issue.flown_eq hcl i m
  rw [hq]
  exact ⟨rfl, rfl, rfl, rfl, rfl, rfl, decide_eq_true_iff, decide_eq_true_iff, rfl, rfl, flagFor_eq i cl, rfl⟩

/-! ### Completion -/

theorem Path.flag_rise (q : Path) (f n : Fin 12) :
    ((q.rise (some f)).flag n.val) = if n = f then (nth q.flags f.val 0 + 1).toNat else q.flag n.val := by
  simp only [Path.rise, Path.flag, nth_putNth, Fin.val_inj]
  split <;> rfl

theorem Path.flag_fall (q : Path) (f n : Fin 12) :
    ((q.fall (some f)).flag n.val) = if n = f then (nth q.flags f.val 0 - 1).toNat else q.flag n.val := by
  simp only [Path.fall, Path.flag, nth_putNth, Fin.val_inj]
  split <;> rfl

/-- A flag that has risen falls by one. -/
theorem Path.flag_fall_self (q : Path) (f : Fin 12) (h : q.flag f.val ≠ 0) :
    (q.fall (some f)).flag f.val = q.flag f.val - 1 := by
  rw [Path.flag_fall, if_pos rfl]
  unfold Path.flag at h ⊢
  bv_omega

/-- A flag below its limit rises by one. -/
theorem Path.flag_rise_self (q : Path) (f : Fin 12) (h : q.flag f.val < 63) :
    (q.rise (some f)).flag f.val = q.flag f.val + 1 := by
  rw [Path.flag_rise, if_pos rfl]
  unfold Path.flag at h ⊢
  bv_omega

theorem Group.slot_mapSlot_self (g : Group) (k : Nat) (f : Path → Path) : (g.mapSlot k f).slot k = (g.slot k).map f :=
  Group.slot_setSlot_self ..

theorem Group.slot_mapSlot_one_zero (g : Group) (f : Path → Path) : (g.mapSlot 1 f).slot 0 = g.slot 0 := rfl

theorem Group.slot_mapSlot_zero_one (g : Group) (f : Path → Path) : (g.mapSlot 0 f).slot 1 = g.slot 1 := rfl

@[simp] theorem Group.pend_mapSlot (g : Group) (k : Nat) (f : Path → Path) : (g.mapSlot k f).pend = g.pend := by
  unfold Group.mapSlot Group.setSlot
  split <;> rfl

/-- A path goes on where it is parked on an instruction. -/
def Path.woken (id : Nat) (q : Path) : Path := if q.park.waitsFor id then { q with park := .running } else q

theorem Group.slot_wake (g : Group) (id k : Nat) (hk : k = 0 ∨ k = 1) :
    (g.wake id).slot k = (g.slot k).map (Path.woken id) := by
  rcases hk with rfl | rfl
  · exact Group.slot_mapSlot_self g 0 _
  · exact Group.slot_mapSlot_self (g.mapSlot 0 _) 1 _

@[simp] theorem Group.pend_wake (g : Group) (id : Nat) : (g.wake id).pend = g.pend := by
  simp only [Group.wake, Group.pend_mapSlot]

/-- An instruction that completes, found in its group: the paths that own it are told. -/
theorem Group.complete_of_pend {g : Group} {p : Pend} (h : g.pend? p.id = some p) :
    g.complete p.id =
      let g1 : Group := { g with pend := g.pend.filter (fun q => q.id ≠ p.id) }
      let g2 := if p.owner0 then g1.mapSlot 0 (Path.fall p.flag) else g1
      if p.owner1 then g2.mapSlot 1 (Path.fall p.flag) else g2 := by
  unfold Group.pend? at h
  simp only [Group.complete, h]

theorem Group.pend_complete {g : Group} {p : Pend} (h : g.pend? p.id = some p) :
    (g.complete p.id).pend = g.pend.filter (fun q => q.id ≠ p.id) := by
  rw [Group.complete_of_pend h]
  dsimp only
  split <;> split <;> simp only [Group.pend_mapSlot]

theorem Group.slot_complete {g : Group} {p : Pend} (h : g.pend? p.id = some p) (k : Nat) (hk : k = 0 ∨ k = 1) :
    (g.complete p.id).slot k = (g.slot k).map (fun q => if p.owner k then q.fall p.flag else q) := by
  rw [Group.complete_of_pend h]
  dsimp only
  rcases hk with rfl | rfl
  · have howner : p.owner 0 = p.owner0 := rfl
    rw [howner]
    cases p.owner0 <;> cases p.owner1 <;> simp [Group.slot_mapSlot_one_zero, Group.slot_mapSlot_self] <;> rfl
  · have howner : p.owner 1 = p.owner1 := rfl
    rw [howner]
    cases p.owner0 <;> cases p.owner1 <;> simp [Group.slot_mapSlot_zero_one, Group.slot_mapSlot_self] <;> rfl

/-- Settles O34: what wakes, what leaves the list, and the arithmetic of six-bit flags. -/
theorem completionLowersTheFlag : Obligations.CompletionLowersTheFlag := by
  unfold Obligations.CompletionLowersTheFlag
  intro g p hp
  have hw : (g.wake p.id).pend? p.id = some p := by
    unfold Group.pend?
    rw [Group.pend_wake]
    exact hp
  refine ⟨?_, fun k hk => ?_, fun q f hf h => ?_, fun q f hf h => ?_, fun q f n hf hn => ?_⟩
  · rw [Group.pend_complete hw, Group.pend_wake]
  · rw [Group.slot_complete hw k hk, Group.slot_wake g p.id k hk, Option.map_map]
    rfl
  · rw [hf]; exact q.flag_fall_self f h
  · rw [hf]; exact q.flag_rise_self f h
  · rw [hf, Path.flag_fall, if_neg hn]

end Sys2Proof.Machine
end

section
/-! Returns of instructions in flight: what a return leaves of the machine and of its group, and what it writes to registers. The
layer under O35 and O39. -/
namespace Sys2Proof.Machine

/-! ### Operations that leave groups, memory and tags alone -/

/-- Of the groups, of memory and of its validity tags nothing has changed. -/
structure State.SameStore (s t : State) : Prop where
  groups : t.groups = s.groups
  mem : t.mem = s.mem
  tags : t.tags = s.tags

theorem State.SameStore.refl (s : State) : s.SameStore s := ⟨rfl, rfl, rfl⟩

theorem State.SameStore.trans {s t u : State} (h : s.SameStore t) (h' : t.SameStore u) : s.SameStore u :=
  ⟨h'.groups.trans h.groups, h'.mem.trans h.mem, h'.tags.trans h.tags⟩

theorem State.SameStore.foldl {α : Type} {f : State → α → State} (hf : ∀ s a, State.SameStore s (f s a)) (l : List α)
    (s : State) : s.SameStore (l.foldl f s) := by
  induction l generalizing s with
  | nil => exact .refl s
  | cons a l ih => exact (hf s a).trans (ih _)

theorem State.SameStore.group? {s t : State} (h : s.SameStore t) (n : Nat) : t.group? n = s.group? n := by
  unfold State.group?
  rw [h.groups]

theorem State.sameStore_gutter (s : State) (core ctx id : Nat) (w : GutterWant) : s.SameStore (s.gutter core ctx id w) := by
  unfold State.gutter
  split
  · exact .refl s
  · dsimp only
    split
    · exact .refl s
    · split <;> exact ⟨rfl, rfl, rfl⟩

theorem State.sameStore_putGutters (s : State) (g : Group) (p : Pend) : s.SameStore (s.putGutters g p) := by
  unfold State.putGutters
  split
  · exact .refl s
  · split
    · exact .refl s
    · exact .foldl (fun s w => s.sameStore_gutter ..) ..

theorem State.sameStore_chargeAccess (s : State) (g : Group) (secs : List Nat) : s.SameStore (s.chargeAccess g secs) := by
  unfold State.chargeAccess State.charge
  split
  · exact .refl s
  · split
    · exact .refl s
    · split
      · exact .refl s
      · split
        · exact .refl s
        · exact ⟨rfl, rfl, rfl⟩

theorem State.sameStore_readL2 (s : State) (core : Nat) (l : List Run) : s.SameStore (s.readL2 core l).2 :=
  .foldl (f := fun (s : State) x => s.refreshSector core x) (fun _ _ => ⟨rfl, rfl, rfl⟩) ..

theorem State.sameStore_loadSector (s : State) (core sector : Nat) (cacheable : Bool) :
    s.SameStore (s.loadSector core sector cacheable).2 := by
  unfold State.loadSector
  dsimp only
  split
  · split <;> exact ⟨rfl, rfl, rfl⟩
  · dsimp only
    split
    · exact ⟨rfl, rfl, rfl⟩
    · exact .refl s

theorem State.sameStore_loadSectors (s : State) (core : Nat) (cacheable : Bool) (l : List Nat) :
    s.SameStore (s.loadSectors core cacheable l).2 := by
  induction l generalizing s with
  | nil => exact .refl s
  | cons x l ih => exact (s.sameStore_loadSector core x cacheable).trans (ih _)

/-! ### What remains to be returned, per instruction in flight -/

/-- The instructions in flight by number, with what each has still to read or perform. -/
def Group.parts (g : Group) : List (Nat × List (Nat × Nat)) := g.pend.map (fun p => (p.id, p.todo))

/-- A change of every instruction in flight that keeps numbers and what is left. -/
theorem Group.parts_map {g h : Group} {f : Pend → Pend} (e : h.pend = g.pend.map f)
    (hf : ∀ p, (f p).id = p.id ∧ (f p).todo = p.todo) : h.parts = g.parts := by
  unfold Group.parts
  rw [e, List.map_map]
  exact List.map_congr_left (fun p _ => Prod.ext (hf p).1 (hf p).2)

@[simp] theorem Group.parts_setSlot (g : Group) (k : Nat) (p : Option Path) : (g.setSlot k p).parts = g.parts := by
  unfold Group.setSlot
  split <;> rfl

@[simp] theorem Group.parts_setBank (g : Group) (k : Nat) (b : Bank) : (g.setBank k b).parts = g.parts := by
  unfold Group.setBank
  split <;> rfl

@[simp] theorem Group.parts_pop (g : Group) (k : Nat) : (g.pop k).parts = g.parts := g.parts_setBank ..

@[simp] theorem Group.parts_push (g : Group) (k : Nat) (e : SpillEntry) : (g.push k e).parts = g.parts := g.parts_setBank ..

@[simp] theorem Group.parts_adopt (g : Group) (k : Nat) (ids : List Nat) : (g.adopt k ids).parts = g.parts := by
  unfold Group.adopt
  split
  · rfl
  · refine Group.parts_map rfl (fun p => ?_)
    split
    · split <;> exact ⟨rfl, rfl⟩
    · exact ⟨rfl, rfl⟩

@[simp] theorem Group.parts_disown (g : Group) (k : Nat) : (g.disown k).parts = g.parts :=
  Group.parts_map rfl (fun p => by split <;> exact ⟨rfl, rfl⟩)

@[simp] theorem Group.parts_startSet (g : Group) (k : Nat) (e : PathSet) : (g.startSet k e).parts = g.parts := by
  simp only [Group.startSet, Group.parts_setSlot, Group.parts_adopt]

@[simp] theorem Group.parts_joinSet (g : Group) (k : Nat) (p : Path) (e : PathSet) : (g.joinSet k p e).parts = g.parts := by
  simp only [Group.joinSet, Group.parts_setSlot, Group.parts_adopt, Group.parts_pop]

@[simp] theorem Group.parts_joinPaths (g : Group) (p q : Path) (a b : Nat) : (g.joinPaths p q a b).parts = g.parts :=
  Group.parts_map rfl (fun _ => ⟨rfl, rfl⟩)

@[simp] theorem Group.parts_joinDone (g : Group) (k : Nat) (p : Path) (pj : Word) : (g.joinDone k p pj).parts = g.parts := by
  unfold Group.joinDone
  dsimp only
  split <;> simp only [Group.parts_setSlot, Group.parts_pop]

theorem Group.parts_joinSwap {g h : Group} {k : Nat} {p : Path} {pj : Word} {e : PathSet}
    (he : g.joinSwap k p pj e = some h) : h.parts = g.parts := by
  unfold Group.joinSwap at he
  split at he
  · obtain rfl := Option.some.inj he
    simp only [Group.parts_startSet, Group.parts_disown, Group.parts_push, Group.parts_pop]
  · exact absurd he (by simp)

theorem Group.parts_atJoin {g h : Group} {p q : Path} {since : Nat} (he : q.atJoin.map (g.joinPaths p q since) = some h) :
    h.parts = g.parts := by
  obtain ⟨n, -, rfl⟩ := Option.map_eq_some_iff.mp he
  exact g.parts_joinPaths ..

theorem Group.parts_joinRow {g h : Group} {k : Nat} {p : Path} {since : Nat} (he : g.joinRow k p since = some h) :
    h.parts = g.parts := by
  have some_ : ∀ {G : Group}, some G = some h → G.parts = g.parts → h.parts = g.parts := fun e hG =>
    Option.some.inj e ▸ hG
  unfold Group.joinRow at he
  split at he
  · exact absurd he (by simp)
  · split at he
    · split at he
      · exact some_ he (by simp)
      · split at he
        · exact Group.parts_atJoin he
        · exact Group.parts_joinSwap he
    · split at he
      · exact some_ he (by simp)
      · split at he
        · exact Group.parts_joinSwap he
        · exact some_ he (by simp)
    · split at he
      · exact Group.parts_atJoin he
      · exact absurd he (by simp)
    · exact some_ he (by simp)

theorem Group.parts_tryJoin {g h : Group} {k : Nat} (he : g.tryJoin k = some h) : h.parts = g.parts := by
  unfold Group.tryJoin at he
  split at he
  · exact absurd he (by simp)
  · split at he
    · exact absurd he (by simp)
    · exact Group.parts_joinRow he

@[simp] theorem Group.parts_joins (n : Nat) (g : Group) : (g.joins n).parts = g.parts := by
  induction n generalizing g with
  | zero => rfl
  | succ n ih =>
    unfold Group.joins
    split
    · next h he => rw [ih, Group.parts_tryJoin he]
    · split
      · next h he => rw [ih, Group.parts_tryJoin he]
      · rfl

@[simp] theorem Group.parts_refill (k : Nat) (l : List SpillEntry) (g : Group) : (g.refill k l).parts = g.parts := by
  induction l generalizing g with
  | nil => exact g.parts_setBank ..
  | cons e l ih =>
    cases e with
    | savedJoin j => rw [Group.refill, ih]
    | pathSet e => simp only [Group.refill, Group.parts_setSlot, Group.parts_adopt, Group.parts_setBank]

@[simp] theorem Group.parts_exitPath (g : Group) (k : Nat) (m : DWord) : (g.exitPath k m).parts = g.parts := by
  have hrefill : ∀ (h : Group) (b : Bool), (if b then h.refill k (h.bank (h.half k)).spill else h).parts = h.parts := by
    intro h b
    split
    · exact Group.parts_refill ..
    · rfl
  refine (hrefill _ _).trans ?_
  rw [Group.parts_setSlot]
  exact Group.parts_map rfl (fun p => by split <;> exact ⟨rfl, rfl⟩)

@[simp] theorem Group.parts_exits (g : Group) : g.exits.parts = g.parts := by
  have hgo : ∀ (g : Group) (k : Nat), (if g.mayLeave k then (match g.slot k with
      | some p => g.exitPath k p.mask
      | none => g) else g).parts = g.parts := by
    intro g k
    split
    · split
      · exact g.parts_exitPath ..
      · rfl
    · rfl
  exact (hgo _ 1).trans (hgo g 0)

/-- A group written back after an event has the same instructions in flight, with the same left of each, or has ended. -/
theorem State.landed_parts {s : State} {g h : Group} (hg : (s.group? g.id).isSome)
    (e : (s.landed g).group? g.id = some h) : h.parts = g.parts := by
  have hid : (g.exits.joins 80).id = g.id :=
    congrArg (fun x : Group × List Nat => x.1.id) ((Group.kept_joins 80 g.exits).trans g.kept_exits)
  have hset : (s.setGroup (g.exits.joins 80)).group? g.id = some (g.exits.joins 80) := by
    rw [← hid] at hg ⊢
    exact State.group?_setGroup_self hg
  have hparts : (g.exits.joins 80).parts = g.parts := by simp
  unfold State.landed State.settle at e
  simp only [hid] at e
  have e := State.group?_reap e rfl
  split at e
  · rw [State.group?_leaveOwed, hset, Option.map_some] at e
    rw [← Option.some.inj e]
    exact hparts
  · rw [hset] at e
    rw [← Option.some.inj e]
    exact hparts

/-- An instruction found by number, from what is left of each. -/
theorem Group.pend?_of_parts {g h : Group} {id : Nat} {p : Pend} (e : h.parts = g.parts) (hp : g.pend? id = some p) :
    ∃ q, h.pend? id = some q ∧ q.todo = p.todo := by
  have hfind : ∀ G : Group, G.parts.find? (fun x => decide (x.1 = id)) = (G.pend? id).map (fun q => (q.id, q.todo)) := by
    intro G
    unfold Group.parts Group.pend?
    rw [List.find?_map]
    rfl
  have hq := hfind h
  rw [e, hfind g, hp, Option.map_some] at hq
  obtain ⟨q, hq, htodo⟩ := Option.map_eq_some_iff.mp hq.symm
  exact ⟨q, hq, congrArg Prod.snd htodo⟩


/-! ### A return that leaves nothing due -/

/-- What is due written to the registers of a group, place by place; `shows` says of each place which lanes show its value before
a later return (R22). -/
def Group.returned (g : Group) (p : Pend) (l : List (Nat × DWord × List Word)) (shows : Nat → Nat → Bool) : Group :=
  l.foldl (fun (g : Group) x => g.returnOne p x.1 x.2.1 (fun l => nth x.2.2 l 0) (shows x.1)) g

/-- Which lanes of a return show its value before a later one: the model's free choice (log 16). -/
def State.shows (s : State) (e l : Nat) : Bool := Config.showsEarlier s.freeCount (64 * e + l)

theorem State.deliver_whole (s : State) (g : Group) (p : Pend) :
    s.deliver g p 0 = s.nextFree.progress (g.returned p p.due s.shows) { p with due := [] } := rfl

theorem State.progress_last {s : State} {g : Group} {p : Pend} (ht : p.todo = []) (hd : p.due = []) :
    s.progress g p = (s.putGutters g p).landed (((g.tagReturned p).wake p.id).complete p.id) := by
  unfold State.progress
  rw [ht, hd]
  rfl

theorem State.progress_more {s : State} {g : Group} {p : Pend} (ht : p.todo ≠ []) :
    s.progress g p = s.landed (g.setPend p) := by
  have hne : (p.todo.isEmpty && p.due.isEmpty) = false := by simp [ht]
  unfold State.progress
  rw [hne]
  rfl

/-- Progress changes groups, and what ends with them, but not memory and its tags. -/
theorem State.progress_mem_tags (s : State) (g : Group) (p : Pend) :
    (s.progress g p).mem = s.mem ∧ (s.progress g p).tags = s.tags := by
  have hput := s.sameStore_putGutters g p
  unfold State.progress
  split
  · rw [State.mem_landed, State.tags_landed]
    exact ⟨hput.mem, hput.tags⟩
  · rw [State.mem_landed, State.tags_landed]
    exact ⟨rfl, rfl⟩

theorem Group.tagReturned_id (g : Group) (p : Pend) : (g.tagReturned p).id = g.id := by
  unfold Group.tagReturned
  split
  · rfl
  · split
    · exact g.setBank_id' ..
    · rfl

theorem Group.v_setBank (g : Group) (h : Nat) (b : Bank) : (g.setBank h b).v = g.v := by
  unfold Group.setBank
  split <;> rfl

theorem Group.tagReturned_v (g : Group) (p : Pend) : (g.tagReturned p).v = g.v := by
  unfold Group.tagReturned
  split
  · rfl
  · split
    · exact g.v_setBank ..
    · rfl

/-- The returned tag is set in the half that the instruction belongs to; the registers are as they were. -/
theorem Group.tagReturned_sreg (g : Group) (p : Pend) (n : Nat) :
    ((g.tagReturned p).bank p.half).sreg n = (g.bank p.half).sreg n := by
  unfold Group.tagReturned
  split
  · rfl
  · split
    · rw [Group.bank_setBank_self]
      rfl
    · rfl

/-- Two groups that keep the same, lists of R113 apart, hold the same v registers and s registers and tags of quads. -/
theorem Group.registers_of_kept {g h : Group}
    (e : ({ h with owed := [] } : Group).kept.1 = ({ g with owed := [] } : Group).kept.1) :
    h.v = g.v ∧ ∀ k n, (h.bank k).sreg n = (g.bank k).sreg n ∧ (h.bank k).quadTag n = (g.bank k).quadTag n := by
  have hv := congrArg Group.v e
  have h0 := congrArg Group.bank0 e
  have h1 := congrArg Group.bank1 e
  refine ⟨hv, fun k n => ?_⟩
  unfold Group.bank
  split
  · have hs := congrArg (fun b : Bank => b.sreg n) h0
    have ht := congrArg (fun b : Bank => b.quadTag n) h0
    exact ⟨hs, ht⟩
  · have hs := congrArg (fun b : Bank => b.sreg n) h1
    have ht := congrArg (fun b : Bank => b.quadTag n) h1
    exact ⟨hs, ht⟩

/-- The last part of a return: the instruction leaves its group, whose registers are those written, with the tag bit. -/
theorem State.progress_last_group {s : State} {g h : Group} {p : Pend} (ht : p.todo = []) (hd : p.due = [])
    (hg : (s.group? g.id).isSome) (e : (s.progress g p).group? g.id = some h) :
    h.pend? p.id = none ∧ h.v = g.v ∧ ∀ k n, (h.bank k).sreg n = ((g.tagReturned p).bank k).sreg n ∧
      (h.bank k).quadTag n = ((g.tagReturned p).bank k).quadTag n := by
  have hid := g.tagReturned_id p
  rw [State.progress_last ht hd, ← hid] at e
  have hsome : ((s.putGutters g p).group? (g.tagReturned p).id).isSome := by
    rw [hid, (s.sameStore_putGutters g p).group?]
    exact hg
  obtain ⟨hgone, hkept⟩ := State.landed_complete hsome e
  obtain ⟨hv, hbank⟩ := Group.registers_of_kept hkept
  exact ⟨hgone, hv.trans (g.tagReturned_v p), hbank⟩

theorem Group.kept_setPend (g : Group) (p : Pend) : (g.setPend p).kept = g.kept :=
  g.kept_pend _ (fun q => by split <;> simp_all)

/-- The instruction replaced in its group is found there. -/
theorem Group.pend?_setPend {g : Group} {p q : Pend} (h : g.pend? p.id = some q) : (g.setPend p).pend? p.id = some p := by
  unfold Group.pend? at h ⊢
  unfold Group.setPend
  rw [List.find?_map]
  have hcomp : ((fun r : Pend => decide (r.id = p.id)) ∘ fun r : Pend => if r.id = p.id then p else r) =
      fun r : Pend => decide (r.id = p.id) := by
    funext r
    by_cases hr : r.id = p.id <;> simp [hr]
  rw [hcomp, h, Option.map_some, if_pos (by simpa using List.find?_some h)]

/-- A part of a return that is not the last: the instruction stays with what is left. -/
theorem State.progress_more_group {s : State} {g h : Group} {p q : Pend} (ht : p.todo ≠ [])
    (hq : g.pend? p.id = some q) (hg : (s.group? g.id).isSome) (e : (s.progress g p).group? g.id = some h) :
    (∃ r, h.pend? p.id = some r ∧ r.todo = p.todo) ∧ h.v = g.v ∧ ∀ k n, (h.bank k).sreg n = (g.bank k).sreg n := by
  rw [State.progress_more ht] at e
  have hkept := State.landed_kept (g := g.setPend p) hg e
  have hset : ({ g.setPend p with owed := [] } : Group).kept = ({ g with owed := [] } : Group).kept :=
    Group.kept_owed (g.kept_setPend p) []
  obtain ⟨hv, hbank⟩ := Group.registers_of_kept (congrArg Prod.fst (hkept.trans hset))
  exact ⟨Group.pend?_of_parts (State.landed_parts (g := g.setPend p) hg e) (Group.pend?_setPend hq), hv,
    fun k n => (hbank k n).1⟩

/-! ### Registers written by a return -/

/-- An s register written with what stands at one place of a return. -/
def Bank.returnS (b : Bank) (p : Pend) (e : Nat) (mask : DWord) (val : Nat → Word) : Bank :=
  match p.sdst[e]? with
  | none => b
  | some n => if mask.getLsbD (lowestLane p.lmask) then b.writeS n (val (lowestLane p.lmask)) else b

/-- The v and p registers of a group written with what stands at one place of a return (R22). -/
def Group.returnV (g : Group) (p : Pend) (e : Nat) (mask : DWord) (val : Nat → Word) (shows : Nat → Bool) : Group :=
  g.returnOne { p with sdst := [] } e mask val shows

@[simp] theorem Group.bank_returnV (g : Group) (p : Pend) (e : Nat) (mask : DWord) (val : Nat → Word) (shows : Nat → Bool)
    (h : Nat) : (g.returnV p e mask val shows).bank h = g.bank h := by
  unfold Group.returnV Group.returnOne
  simp only [List.getElem?_nil]
  split
  · split <;> rfl
  · split
    · rfl
    · split <;> rfl

/-- A return at one place writes v registers and an s register, apart. -/
theorem Group.returnOne_eq (g : Group) (p : Pend) (e : Nat) (mask : DWord) (val : Nat → Word) (shows : Nat → Bool) :
    g.returnOne p e mask val shows =
      (g.returnV p e mask val shows).setBank p.half ((g.bank p.half).returnS p e mask val) := by
  have hone : g.returnOne p e mask val shows = match p.sdst[e]? with
      | none => g.returnV p e mask val shows
      | some n => if mask.getLsbD (lowestLane p.lmask) then
          (g.returnV p e mask val shows).setBank p.half
            (((g.returnV p e mask val shows).bank p.half).writeS n (val (lowestLane p.lmask)))
        else g.returnV p e mask val shows := rfl
  have hkeep : (g.returnV p e mask val shows).setBank p.half (g.bank p.half) = g.returnV p e mask val shows := by
    rw [← g.bank_returnV p e mask val shows, Group.setBank_bank]
  rw [hone]
  unfold Bank.returnS
  cases p.sdst[e]? with
  | none => exact hkeep.symm
  | some n =>
    dsimp only
    split
    · rw [Group.bank_returnV]
    · exact hkeep.symm

theorem Group.bank_returnOne (g : Group) (p : Pend) (e : Nat) (mask : DWord) (val : Nat → Word) (shows : Nat → Bool) :
    (g.returnOne p e mask val shows).bank p.half = (g.bank p.half).returnS p e mask val := by
  rw [Group.returnOne_eq, Group.bank_setBank_self]

/-- The s registers and tags after a return: place by place. -/
theorem Group.bank_returned (g : Group) (p : Pend) (l : List (Nat × DWord × List Word)) (shows : Nat → Nat → Bool) :
    (g.returned p l shows).bank p.half =
      l.foldl (fun b x => b.returnS p x.1 x.2.1 (fun l => nth x.2.2 l 0)) (g.bank p.half) := by
  induction l generalizing g with
  | nil => rfl
  | cons x l ih =>
    refine (ih _).trans ?_
    rw [Group.bank_returnOne]
    rfl

/-! ### What a return leaves of the list of instructions -/

theorem claimBefore_parts (id n : Nat) (m : DWord) (l : List Pend) :
    (claimBefore id n m l).map (fun p => (p.id, p.todo)) = l.map (fun p => (p.id, p.todo)) := by
  induction l with
  | nil => rfl
  | cons q l ih =>
    unfold claimBefore
    split
    · rfl
    · exact congrArg (List.cons (q.id, q.todo)) ih

/-- What was issued after an instruction is not touched by its claims. -/
theorem claimBefore_later (id n : Nat) (m : DWord) (l : List Pend) :
    (claimBefore id n m l).dropWhile (fun q => decide (q.id ≠ id)) = l.dropWhile (fun q => decide (q.id ≠ id)) := by
  induction l with
  | nil => rfl
  | cons q l ih =>
    unfold claimBefore
    split
    · rfl
    · next h =>
      have hc : (q.claim n m).id ≠ id := h
      rw [List.dropWhile_cons, List.dropWhile_cons, if_pos (decide_eq_true hc), if_pos (decide_eq_true h), ih]

/-- A return leaves the group's number, the instructions in flight with what is left of each, and what later ones are to
write. -/
structure Group.Kept (g G : Group) (p : Pend) : Prop where
  id : G.id = g.id
  parts : G.parts = g.parts
  later : ∀ n, G.laterLanes p n = g.laterLanes p n
  mapped : ∀ n, G.mapped n = g.mapped n

theorem Group.Kept.refl (g : Group) (p : Pend) : g.Kept g p := ⟨rfl, rfl, fun _ => rfl, fun _ => rfl⟩

theorem Group.Kept.trans {g G H : Group} {p : Pend} (a : g.Kept G p) (b : G.Kept H p) : g.Kept H p :=
  ⟨b.id.trans a.id, b.parts.trans a.parts, fun n => (b.later n).trans (a.later n),
    fun n => (b.mapped n).trans (a.mapped n)⟩

theorem Group.Kept.setBank {g G : Group} {p : Pend} (a : g.Kept G p) (h : Nat) (b : Bank) : g.Kept (G.setBank h b) p where
  id := (G.setBank_id' h b).trans a.id
  parts := (G.parts_setBank h b).trans a.parts
  later := fun n => by
    rw [← a.later n]
    unfold Group.laterLanes Group.setBank
    split <;> rfl
  mapped := fun n => (G.mapped_setBank h b n).trans (a.mapped n)

/-- Lanes of a v register replaced, and those of earlier instructions claimed (R22). -/
def Group.putLanes (g : Group) (p : Pend) (n : Nat) (old : VMap) (claimed m : DWord) (val : Nat → Word) : Group :=
  { g with
    v := putNth none g.v n (some { old with lanes := tabulate (fun l => if m.getLsbD l then val l else nth old.lanes l 0) })
    pend := claimBefore p.id n claimed g.pend
    poisonV := cleanse n m g.poisonV }

theorem Group.kept_putLanes {g : Group} {n : Nat} {old : VMap} (h : nth g.v n none = some old) (p : Pend)
    (claimed m : DWord) (val : Nat → Word) : g.Kept (g.putLanes p n old claimed m val) p where
  id := rfl
  parts := claimBefore_parts ..
  later := fun k => by
    unfold Group.laterLanes Group.putLanes
    rw [claimBefore_later]
  mapped := fun k => by
    unfold Group.mapped Group.putLanes
    rw [nth_putNth]
    split
    · next hk => rw [hk, h]; rfl
    · rfl

theorem Group.vLane_putLanes {g : Group} {n : Nat} {old : VMap} (h : nth g.v n none = some old) (p : Pend)
    (claimed m : DWord) (val : Nat → Word) (k l : Nat) (hl : l < 64) :
    (g.putLanes p n old claimed m val).vLane k l = if k = n ∧ m.getLsbD l = true then val l else g.vLane k l := by
  unfold Group.putLanes Group.vLane
  dsimp only
  rw [nth_putNth]
  by_cases hk : k = n
  · subst hk
    rw [if_pos rfl, h]
    dsimp only
    rw [nth_tabulate, if_pos hl]
    simp
  · rw [if_neg hk, if_neg (fun e => hk e.1)]

/-- The lanes that a return writes at once: all that are live, those of a later return apart where that return shows first (R22). -/
def shownLanes (later m : DWord) (shows : Nat → Bool) : DWord :=
  if later = 0 then m else m &&& ~~~(later &&& ~~~(maskOf shows))

theorem shownLanes_bit {later m : DWord} {shows : Nat → Bool} {l : Nat} (h : m.getLsbD l = true) (hl : l < 64) :
    (shownLanes later m shows).getLsbD l = true ∨ later.getLsbD l = true := by
  unfold shownLanes
  split
  · exact .inl h
  · simp only [BitVec.getLsbD_and, BitVec.getLsbD_not, h, decide_eq_true hl, Bool.true_and]
    cases later.getLsbD l <;> simp

theorem shownLanes_subset {later m : DWord} {shows : Nat → Bool} {l : Nat}
    (h : (shownLanes later m shows).getLsbD l = true) : m.getLsbD l = true := by
  unfold shownLanes at h
  split at h
  · exact h
  · simp only [BitVec.getLsbD_and, Bool.and_eq_true] at h
    exact h.1

section
variable (g : Group) (p : Pend) (e : Nat) (mask : DWord) (val : Nat → Word) (shows : Nat → Bool)

/-- No v register stands at the place: at most a predicate is written. -/
theorem Group.returnV_none (h : p.vdst[e]? = none) : g.returnV p e mask val shows = g ∨
    g.returnV p e mask val shows = g.writeP 6 mask (fun l => val l ≠ 0) := by
  unfold Group.returnV Group.returnOne
  simp only [List.getElem?_nil, h]
  split
  · exact .inr rfl
  · exact .inl rfl

/-- The name of the place is not mapped, or none of its lanes is live any more: nothing is written. -/
theorem Group.returnV_dead {n : Nat} {live : DWord} (h : p.vdst[e]? = some (n, live))
    (hd : g.mapped n = false ∨ live &&& mask = 0) : g.returnV p e mask val shows = g := by
  unfold Group.returnV Group.returnOne
  simp only [List.getElem?_nil, h]
  split
  · rfl
  · next old hold =>
    have hmap : g.mapped n = true := by
      unfold Group.mapped
      rw [hold]
      rfl
    rw [if_pos (hd.resolve_left (by simp [hmap]))]

theorem Group.returnV_live {n : Nat} {live : DWord} {old : VMap} (h : p.vdst[e]? = some (n, live))
    (hold : nth g.v n none = some old) (hm : live &&& mask ≠ 0) :
    g.returnV p e mask val shows =
      g.putLanes p n old (live &&& mask) (shownLanes (g.laterLanes p n) (live &&& mask) shows) val := by
  unfold Group.returnV Group.returnOne
  simp only [List.getElem?_nil, h, hold, if_neg hm]
  rfl

end

theorem Group.kept_writeP (g : Group) (p : Pend) (n : Nat) (m : DWord) (f : Nat → Bool) : g.Kept (g.writeP n m f) p :=
  ⟨rfl, rfl, fun _ => rfl, fun _ => rfl⟩

theorem Group.kept_returnOne (g : Group) (p : Pend) (e : Nat) (mask : DWord) (val : Nat → Word) (shows : Nat → Bool) :
    g.Kept (g.returnOne p e mask val shows) p := by
  rw [Group.returnOne_eq]
  refine Group.Kept.setBank ?_ _ _
  cases h : p.vdst[e]? with
  | none =>
    rcases g.returnV_none p e mask val shows h with hv | hv <;> rw [hv]
    · exact .refl g p
    · exact g.kept_writeP ..
  | some d =>
    obtain ⟨n, live⟩ := d
    by_cases hd : g.mapped n = false ∨ live &&& mask = 0
    · rw [g.returnV_dead p e mask val shows h hd]
      exact .refl g p
    · obtain ⟨hmap, hm⟩ := not_or.mp hd
      obtain ⟨old, hold⟩ := Option.isSome_iff_exists.mp (Bool.not_eq_false _ ▸ hmap : (nth g.v n none).isSome = true)
      rw [g.returnV_live p e mask val shows h hold hm]
      exact Group.kept_putLanes hold ..

theorem Group.kept_returned (g : Group) (p : Pend) (l : List (Nat × DWord × List Word)) (shows : Nat → Nat → Bool) :
    g.Kept (g.returned p l shows) p := by
  induction l generalizing g with
  | nil => exact .refl g p
  | cons x l ih => exact (g.kept_returnOne ..).trans (ih _)

/-- A place of a return writes a lane of a v register: the name is mapped, and the lane is due and live. -/
def Pend.putsV (p : Pend) (g : Group) (e : Nat) (mask : DWord) (n l : Nat) : Prop :=
  mask.getLsbD l = true ∧ g.mapped n = true ∧ ∃ live, p.vdst[e]? = some (n, live) ∧ live.getLsbD l = true

/-- A lane after a return at one place: the value returned, or what stood there, which a later return is still to write. -/
theorem Group.vLane_returnOne (g : Group) (p : Pend) (e : Nat) (mask : DWord) (val : Nat → Word) (shows : Nat → Bool)
    (n l : Nat) (hl : l < 64) :
    (p.putsV g e mask n l ∧ ((g.returnOne p e mask val shows).vLane n l = val l ∨
      ((g.laterLanes p n).getLsbD l = true ∧ (g.returnOne p e mask val shows).vLane n l = g.vLane n l))) ∨
    (¬ p.putsV g e mask n l ∧ (g.returnOne p e mask val shows).vLane n l = g.vLane n l) := by
  rw [Group.returnOne_eq, Group.vLane_setBank]
  cases h : p.vdst[e]? with
  | none =>
    have hno : ¬ p.putsV g e mask n l := by
      rintro ⟨-, -, live, hs, -⟩
      rw [h] at hs
      exact absurd hs (by simp)
    rcases g.returnV_none p e mask val shows h with hv | hv <;> rw [hv] <;> exact .inr ⟨hno, rfl⟩
  | some d =>
    obtain ⟨k, live⟩ := d
    by_cases hd : g.mapped k = false ∨ live &&& mask = 0
    · have hno : ¬ p.putsV g e mask n l := by
        rintro ⟨hmask, hmap, live', hs, hlive⟩
        obtain ⟨rfl, rfl⟩ := Prod.mk.inj (Option.some.inj (h.symm.trans hs))
        rcases hd with hd | hd
        · exact absurd hmap (by simp [hd])
        · have hbit : (live &&& mask).getLsbD l = true := by simp [hlive, hmask]
          rw [hd] at hbit
          exact absurd hbit (by simp)
      rw [g.returnV_dead p e mask val shows h hd]
      exact .inr ⟨hno, rfl⟩
    · obtain ⟨hmap, hm⟩ := not_or.mp hd
      have hmap : g.mapped k = true := by simpa using hmap
      obtain ⟨old, hold⟩ := Option.isSome_iff_exists.mp hmap
      rw [g.returnV_live p e mask val shows h hold hm, Group.vLane_putLanes hold _ _ _ _ _ _ hl]
      by_cases hw : n = k ∧ (live &&& mask).getLsbD l = true
      · obtain ⟨rfl, hbit⟩ := hw
        have hbits : live.getLsbD l = true ∧ mask.getLsbD l = true := by simpa using hbit
        refine .inl ⟨⟨hbits.2, hmap, live, h, hbits.1⟩, ?_⟩
        by_cases hs : (shownLanes (g.laterLanes p n) (live &&& mask) shows).getLsbD l = true
        · rw [if_pos ⟨rfl, hs⟩]
          exact .inl rfl
        · rw [if_neg (fun c => hs c.2)]
          exact .inr ⟨(shownLanes_bit hbit hl).resolve_left hs, rfl⟩
      · refine .inr ⟨?_, if_neg (fun c => hw ⟨c.1, shownLanes_subset c.2⟩)⟩
        rintro ⟨hmask, -, live', hs, hlive⟩
        obtain ⟨rfl, rfl⟩ := Prod.mk.inj (Option.some.inj (h.symm.trans hs))
        exact hw ⟨rfl, by simp [hlive, hmask]⟩

/-- What stands at the places of a return, and the registers that they write. -/
theorem Group.vLane_returned (p : Pend) (l : List (Nat × DWord × List Word)) (shows : Nat → Nat → Bool) (g : Group)
    (n i : Nat) (hi : i < 64) :
    (∃ x ∈ l, p.putsV g x.1 x.2.1 n i ∧ ((g.returned p l shows).vLane n i = nth x.2.2 i 0 ∨
      ((g.laterLanes p n).getLsbD i = true ∧ (g.returned p l shows).vLane n i = g.vLane n i))) ∨
    ((∀ x ∈ l, ¬ p.putsV g x.1 x.2.1 n i) ∧ (g.returned p l shows).vLane n i = g.vLane n i) := by
  induction l generalizing g with
  | nil => exact .inr ⟨by simp, rfl⟩
  | cons x l ih =>
    have hkept := g.kept_returnOne p x.1 x.2.1 (fun l => nth x.2.2 l 0) (shows x.1)
    have hputs : ∀ e m, p.putsV (g.returnOne p x.1 x.2.1 (fun l => nth x.2.2 l 0) (shows x.1)) e m n i ↔ p.putsV g e m n i := by
      intro e m
      unfold Pend.putsV
      rw [hkept.mapped]
    have hone := g.vLane_returnOne p x.1 x.2.1 (fun l => nth x.2.2 l 0) (shows x.1) n i hi
    have hrest := ih (g.returnOne p x.1 x.2.1 (fun l => nth x.2.2 l 0) (shows x.1))
    simp only [hputs, hkept.later] at hrest
    change (∃ y ∈ l, _ ∧ ((g.returned p (x :: l) shows).vLane n i = _ ∨ (_ ∧ (g.returned p (x :: l) shows).vLane n i = _))) ∨
      (_ ∧ (g.returned p (x :: l) shows).vLane n i = _) at hrest
    rcases hrest with ⟨y, hy, hputs, hval | ⟨hlater, hsame⟩⟩ | ⟨hnone, hsame⟩
    · exact .inl ⟨y, List.mem_cons_of_mem _ hy, hputs, .inl hval⟩
    · rw [hsame]
      rcases hone with ⟨hx, hval | ⟨-, hsame'⟩⟩ | ⟨-, hsame'⟩
      · exact .inl ⟨x, List.mem_cons_self, hx, .inl hval⟩
      · exact .inl ⟨x, List.mem_cons_self, hx, .inr ⟨hlater, hsame'⟩⟩
      · exact .inl ⟨y, List.mem_cons_of_mem _ hy, hputs, .inr ⟨hlater, hsame'⟩⟩
    · rw [hsame]
      rcases hone with ⟨hx, h⟩ | ⟨hx, hsame'⟩
      · exact .inl ⟨x, List.mem_cons_self, hx, h⟩
      · refine .inr ⟨fun y hy => ?_, hsame'⟩
        rcases List.mem_cons.mp hy with rfl | hy
        · exact hx
        · exact hnone y hy

/-- A place of a return writes an s register: the lowest lane of the mask is due. -/
def Pend.putsS (p : Pend) (e : Nat) (mask : DWord) (n : Nat) : Prop :=
  mask.getLsbD (lowestLane p.lmask) = true ∧ p.sdst[e]? = some n

theorem Bank.sreg_returnS (b : Bank) (p : Pend) (e : Nat) (mask : DWord) (val : Nat → Word) (n : Nat) :
    (p.putsS e mask n ∧ (b.returnS p e mask val).sreg n = val (lowestLane p.lmask)) ∨
      (¬ p.putsS e mask n ∧ (b.returnS p e mask val).sreg n = b.sreg n) := by
  unfold Bank.returnS Pend.putsS
  cases p.sdst[e]? with
  | none => exact .inr ⟨by simp, rfl⟩
  | some k =>
    dsimp only
    split
    · next hm =>
      rw [Bank.sreg_writeS]
      by_cases hk : n = k
      · exact .inl ⟨⟨hm, by rw [hk]⟩, if_pos hk⟩
      · exact .inr ⟨fun c => hk (Option.some.inj c.2).symm, if_neg hk⟩
    · next hm => exact .inr ⟨fun c => hm c.1, rfl⟩

theorem Group.sreg_returned (p : Pend) (l : List (Nat × DWord × List Word)) (shows : Nat → Nat → Bool) (g : Group)
    (n : Nat) :
    (∃ x ∈ l, p.putsS x.1 x.2.1 n ∧
      ((g.returned p l shows).bank p.half).sreg n = nth x.2.2 (lowestLane p.lmask) 0) ∨
    ((∀ x ∈ l, ¬ p.putsS x.1 x.2.1 n) ∧ ((g.returned p l shows).bank p.half).sreg n = (g.bank p.half).sreg n) := by
  rw [Group.bank_returned]
  generalize g.bank p.half = b
  induction l generalizing b with
  | nil => exact .inr ⟨by simp, rfl⟩
  | cons x l ih =>
    rw [List.foldl_cons]
    rcases ih (b.returnS p x.1 x.2.1 (fun l => nth x.2.2 l 0)) with ⟨y, hy, hputs, hval⟩ | ⟨hnone, hsame⟩
    · exact .inl ⟨y, List.mem_cons_of_mem _ hy, hputs, hval⟩
    · rw [hsame]
      rcases b.sreg_returnS p x.1 x.2.1 (fun l => nth x.2.2 l 0) n with ⟨hx, hval⟩ | ⟨hx, hsame'⟩
      · exact .inl ⟨x, List.mem_cons_self, hx, hval⟩
      · refine .inr ⟨fun y hy => ?_, hsame'⟩
        rcases List.mem_cons.mp hy with rfl | hy
        · exact hx
        · exact hnone y hy

/-! ### A quad returned -/

theorem lowestLane_lt_64 (m : DWord) : lowestLane m < 64 := by
  by_cases h : m = 0
  · subst h
    decide
  · exact lowestLane_lt h

theorem maskFrom_bit (l : List Nat) {i : Nat} (hi : i < 64) : (maskFrom l).getLsbD i = l.contains i := maskOf_bit _ i hi

/-- The destinations of a quad: four s registers in a row (R155, R182). -/
def quadRegs (d : SQuad) : List Nat := (upto 4).map (fun i => 4 * d.val + i)

theorem Bank.returnS_quad (b : Bank) {p : Pend} {d : SQuad} (hs : p.sdst = quadRegs d) {i : Nat} (hi : i < 4) (w : Word) :
    b.returnS p i (maskFrom [lowestLane p.lmask]) (fun l => nth (List.replicate 64 w) l 0) = b.writeS (4 * d.val + i) w := by
  have hlow := lowestLane_lt_64 p.lmask
  have hdst : p.sdst[i]? = some (4 * d.val + i) := by
    rw [hs]
    simp [quadRegs, upto, hi]
  have hw : nth (List.replicate 64 w) (lowestLane p.lmask) 0 = w := by
    unfold nth
    rw [List.getElem?_replicate, if_pos hlow]
    rfl
  unfold Bank.returnS
  rw [hdst]
  dsimp only
  rw [if_pos (by rw [maskFrom_bit _ hlow]; simp), hw]

/-- The half's scalar state after a quad is returned: its four words in their registers, and its tag cleared. -/
theorem Group.bank_returned_quad (g : Group) {p : Pend} {d : SQuad} (hs : p.sdst = quadRegs d) (q : QWord)
    (shows : Nat → Nat → Bool) :
    (g.returned p (((upto 4).zip (capWords q)).map (fun e => (e.1, maskFrom [lowestLane p.lmask], List.replicate 64 e.2)))
      shows).bank p.half = (g.bank p.half).writeSList (4 * d.val) (capWords q) := by
  rw [Group.bank_returned]
  show List.foldl _ _ [(0, _, _), (1, _, _), (2, _, _), (3, _, _)] = _
  simp only [List.foldl_cons, List.foldl_nil]
  rw [Bank.returnS_quad _ hs (by omega), Bank.returnS_quad _ hs (by omega), Bank.returnS_quad _ hs (by omega),
    Bank.returnS_quad _ hs (by omega)]
  rfl

theorem Bank.sreg_writeSList (l : List Word) (b : Bank) (n k : Nat) :
    (b.writeSList n l).sreg k = if n ≤ k ∧ k < n + l.length then nth l (k - n) 0 else b.sreg k := by
  induction l generalizing b n with
  | nil => rw [if_neg (by simp)]; rfl
  | cons w l ih =>
    rw [Bank.writeSList, ih, Bank.sreg_writeS, List.length_cons]
    by_cases hk : k = n
    · subst hk
      rw [if_neg (by omega), if_pos rfl, if_pos (by omega), Nat.sub_self]
      rfl
    · by_cases hin : n + 1 ≤ k ∧ k < n + 1 + l.length
      · rw [if_pos hin, if_pos (by omega), show k - n = k - (n + 1) + 1 by omega]
        rfl
      · rw [if_neg hin, if_neg hk, if_neg (by omega)]

theorem Bank.sreg_writeSList_quad (b : Bank) (d : SQuad) (q : QWord) (i : Nat) (hi : i < 4) :
    (b.writeSList (4 * d.val) (capWords q)).sreg (4 * d.val + i) = nth (capWords q) i 0 := by
  have hlen : (capWords q).length = 4 := rfl
  rw [Bank.sreg_writeSList, if_pos (by omega), Nat.add_sub_cancel_left]

theorem Bank.quadTag_writeSList_quad (b : Bank) (d : SQuad) (q : QWord) :
    (b.writeSList (4 * d.val) (capWords q)).quadTag d.val = false := by
  unfold capWords
  simp only [Bank.writeSList, Bank.quadTag_writeS]
  simp

/-- The tag bit of a returned quad (R155). -/
theorem Group.tagReturned_quad (g : Group) {p : Pend} {d : SQuad} (hs : p.sdst = quadRegs d) :
    ((g.tagReturned p).bank p.half).quadTag d.val = (p.dueTag || (g.bank p.half).quadTag d.val) := by
  have hcons : p.sdst = 4 * d.val :: [4 * d.val + 1, 4 * d.val + 2, 4 * d.val + 3] := hs
  unfold Group.tagReturned
  rw [hcons]
  dsimp only
  split
  · next ht =>
    rw [Group.bank_setBank_self, ht]
    unfold Bank.quadTag
    rw [Nat.mul_div_cancel_left _ (by omega), nth_putNth, if_pos rfl]
    rfl
  · next ht =>
    rw [Bool.not_eq_true] at ht
    rw [ht, Bool.false_or]

/-- A quad returned to its registers: the instruction leaves its group, the four words and the tag stand in the quad, and memory
and its tags are as they were. -/
theorem State.returnQuad_gives {s : State} {g : Group} {p : Pend} {d : SQuad} (hg : (s.group? g.id).isSome)
    (hs : p.sdst = quadRegs d) (q : QWord) (tag : Bool) :
    (s.returnQuad g p q tag 0).mem = s.mem ∧ (s.returnQuad g p q tag 0).tags = s.tags ∧
      ∀ G, (s.returnQuad g p q tag 0).group? g.id = some G → G.pend? p.id = none ∧
        (G.bank p.half).quadTag d.val = tag ∧ ∀ i, i < 4 → (G.bank p.half).sreg (4 * d.val + i) = nth (capWords q) i 0 := by
  have hreturn : s.returnQuad g p q tag 0 = s.nextFree.progress
      (g.returned { p with
        todo := [], dueTag := tag
        due := ((upto 4).zip (capWords q)).map (fun e => (e.1, maskFrom [lowestLane p.lmask], List.replicate 64 e.2)) }
        (((upto 4).zip (capWords q)).map (fun e => (e.1, maskFrom [lowestLane p.lmask], List.replicate 64 e.2))) s.shows)
      { p with todo := [], dueTag := tag, due := [] } := State.deliver_whole ..
  generalize hp' : ({ p with
        todo := [], dueTag := tag
        due := ((upto 4).zip (capWords q)).map (fun e => (e.1, maskFrom [lowestLane p.lmask], List.replicate 64 e.2)) } :
          Pend) = p' at hreturn
  have hs' : p'.sdst = quadRegs d := by rw [← hp']; exact hs
  have hmask : p'.lmask = p.lmask := by rw [← hp']
  have hhalf : p'.half = p.half := by rw [← hp']
  have hkept := g.kept_returned p'
    (((upto 4).zip (capWords q)).map (fun e => (e.1, maskFrom [lowestLane p.lmask], List.replicate 64 e.2))) s.shows
  have hbank := g.bank_returned_quad hs' q s.shows
  rw [hmask, hhalf] at hbank
  generalize g.returned p' _ s.shows = g' at hreturn hkept hbank
  obtain ⟨hmem, htags⟩ := State.progress_mem_tags s.nextFree g' { p with todo := [], dueTag := tag, due := [] }
  rw [hreturn]
  refine ⟨hmem, htags, fun G hG => ?_⟩
  rw [← hkept.id] at hG
  obtain ⟨hgone, -, hregs⟩ := State.progress_last_group (p := { p with todo := [], dueTag := tag, due := [] }) rfl rfl
    (by rw [hkept.id]; exact hg) hG
  refine ⟨hgone, ?_, fun i hi => ?_⟩
  · rw [(hregs p.half d.val).2, Group.tagReturned_quad (p := { p with todo := [], dueTag := tag, due := [] }) _ hs, hbank,
      Bank.quadTag_writeSList_quad, Bool.or_false]
  · rw [(hregs p.half (4 * d.val + i)).1, Group.tagReturned_sreg _ { p with todo := [], dueTag := tag, due := [] }, hbank,
      Bank.sreg_writeSList_quad _ _ _ _ hi]

/-! ### Capability and tag words return -/

/-- Where no place is poisoned no lane reads a poisoned one. -/
theorem State.poisonedLanes_of_clean {s : State} (h : s.poison = []) (p : Pend) : s.poisonedLanes p = [] := by
  have hruns : ∀ l, s.runsPoisoned l = false := by
    intro l
    unfold State.runsPoisoned State.poisoned
    refine List.any_eq_false.mpr (fun r _ => ?_)
    rw [h]
    cases r.pa <;> simp
  unfold State.poisonedLanes
  simp [hruns]

section
variable {s : State} {g : Group} {p : Pend} (hg : s.group? g.id = some g) (hp : g.pend? p.id = some p)
  (hst : p.status = .inFlight) (hdue : p.due = []) (hwait : s.accessWaits g p = false) (hmay : g.mayPerform p = true)
include hg hp hst hdue hwait hmay

/-- An LDC of a slot returns what the context's table holds there (R155, R182). -/
theorem exec_return_ldcTable {u : Bool} {d : SQuad} {a : Src} {c : Context} (hi : p.instr = .ldcTable u d a)
    (hc : s.contextOf g = some c) (sector : Nat) : exec (.loadSectorReturn g.id p.id ⟨sector, 0⟩) s =
      .next (s.returnQuad g p (c.slot (p.opc g 0).toNat).1 (c.slot (p.opc g 0).toNat).2 0) := by
  have hact : p.active = true := decide_eq_true hst
  simp only [exec, execLoadSectorReturn, hg, hp, sendLoads_of_mayPerform hmay, hdue, hact, hmay, hwait, hi, hc,
    List.isEmpty_nil, Bool.not_true, Bool.or_false, Bool.false_eq_true, if_false, Option.map_some, Option.getD_some]

/-- An LDC of memory returns 16 bytes, and a tag where it asks for one granule (R154, R182; log 68). -/
theorem exec_return_ldcMemory {u : Bool} {d : SQuad} {x : Fin 8} {a : Src} {r : Run} {pa : Nat} {y : LaneAccess}
    (hi : p.instr = .ldcMemory u d x a) (hpoison : s.poison = []) (hlanes : p.lanes = [y]) (hruns : y.runs = [r])
    (hpa : r.pa = some pa) (hdrain : s.drained g p [r] = true) (sector : Nat) :
    exec (.loadSectorReturn g.id p.id ⟨sector, 0⟩) s =
      .next (((s.chargeAccess g (runSectors [r])).readL2 g.core [r]).2.returnQuad g p
        (BitVec.ofNat 128 (leValue ((s.chargeAccess g (runSectors [r])).readRuns [r])))
        (decide (pa % 16 = 0) && hasPerm (p.xcap.getD {}).perm permK && s.tagAt pa) 0) := by
  have hact : p.active = true := decide_eq_true hst
  have hclean : s.poisonedLanes p = [] := State.poisonedLanes_of_clean hpoison p
  simp only [exec, execLoadSectorReturn, hg, hp, sendLoads_of_mayPerform hmay, hdue, hact, hmay, hwait, hi, hlanes, hruns,
    hpa, hdrain, hclean, List.isEmpty_nil, Bool.not_true, Bool.or_false, Bool.false_eq_true, if_false, List.head?_cons,
    Option.map_some, Option.getD_some]
  rfl

/-- A MINT returns its parent narrowed as the descriptor says, tagged (R157, R185). -/
theorem exec_return_mint {u : Bool} {d qa qb : SQuad} (hi : p.instr = .mint u d qa qb) (sector : Nat) :
    exec (.loadSectorReturn g.id p.id ⟨sector, 0⟩) s =
      .next (s.returnQuad g p (mkCap ((p.opc g 7).extractLsb' 16 8)
        (BitVec.ofNat 40 (bits (p.opc g 7).toNat 7 0 * 2 ^ 32 + (p.opc g 6).toNat)) ((p.opc g 7).extractLsb' 8 8)
        (capBase (quadBits [p.opc g 0, p.opc g 1, p.opc g 2, p.opc g 3]) +
          BitVec.ofNat 56 (bits (p.opc g 5).toNat 23 0 * 2 ^ 32 + (p.opc g 4).toNat))) true 0) := by
  have hact : p.active = true := decide_eq_true hst
  simp only [exec, execLoadSectorReturn, hg, hp, sendLoads_of_mayPerform hmay, hdue, hact, hmay, hwait, hi,
    List.isEmpty_nil, Bool.not_true, Bool.or_false, Bool.false_eq_true, if_false]
  rfl

/-- A TLOOK in its turn returns the lowest tag of each lane's range that holds its key (R186). -/
theorem exec_return_tlook {u : Bool} {dst : Dst} {a b : Src} {tm : Team} (hi : p.instr = .tlook u dst a b)
    (htm : s.team? g.team = some tm) (hturn : s.tagTurn g p = true) (sector : Nat) :
    exec (.loadSectorReturn g.id p.id ⟨sector, 0⟩) s =
      .next ((s.setGroup g).returnAll g.id p 0 (fun _ lane => tagSearch tm (p.op g (.typed (modeType p.mode)) 0 lane)
        (bits (p.op g .control 1 lane).toNat 10 0) (bits (p.op g .control 1 lane).toNat 21 16 + 1))) := by
  have hact : p.active = true := decide_eq_true hst
  simp only [exec, execLoadSectorReturn, hg, hp, sendLoads_of_mayPerform hmay, hdue, hact, hmay, hwait, hi, htm, hturn,
    List.isEmpty_nil, Bool.not_true, Bool.or_false, Bool.false_eq_true, if_false]

omit hdue

/-- A TSET of one lane in its turn writes its entry, or erases it (R167, R187). -/
theorem exec_performed_tset {u : Bool} {a b : Src} {tm : Team} {lane : Nat} (hi : p.instr = .tset u a b)
    (htm : s.team? g.team = some tm) (hturn : s.tagTurn g p = true) (hlane : p.accessLanes = [lane]) :
    exec (.storePerformed g.id p.id) s =
      let hi := p.op g .control 2 lane
      let e : DWord := (hi.extractLsb' 31 1) ++ (0 : BitVec 23) ++ (hi.extractLsb' 0 8) ++ p.op g (.typed (modeType p.mode)) 1 lane
      let i := (p.op g .control 0 lane).toNat
      .next (((s.setGroup g).setTeam { tm with
        tagTab := if e = 0 then assocErase i tm.tagTab else assocSet i e tm.tagTab }).completePend g.id p.id) := by
  have hact : p.active = true := decide_eq_true hst
  simp only [exec, execStorePerformed, hg, hp, sendLoads_of_mayPerform hmay, hact, hmay, hwait, hi, htm, hturn, hlane,
    Bool.not_true, Bool.or_false, Bool.false_eq_true, if_false, List.foldl_cons, List.foldl_nil]

omit hmay

/-- An XLAT writes its translation register (R184). -/
theorem exec_performed_xlat {u : Bool} {n : Fin 8} {qa : SQuad} {c : Context} (hi : p.instr = .xlat u n qa)
    (hc : s.contextOf g = some c) (hb : g.xlatBefore p n = false) (hd : s.dieHeld (g.core / 64) = false) :
    exec (.storePerformed g.id p.id) s = .next (s.landed ((g.setBank p.half { g.bank p.half with
      x := putNth {} (g.bank p.half).x n.val
        (s.xlatOf c (quadBits [p.opc g 0, p.opc g 1, p.opc g 2, p.opc g 3])) }).complete p.id)) := by
  have hact : p.active = true := decide_eq_true hst
  simp only [exec, execStorePerformed, hg, hp, hact, hwait, hi, hc, hb, hd, Bool.not_true, Bool.or_false,
    Bool.false_eq_true, if_false]
  rfl

/-- An XLAT waits behind an earlier one of its group to the same register (R14), and for a link of its die. -/
theorem exec_performed_xlat_waits {u : Bool} {n : Fin 8} {qa : SQuad} (hi : p.instr = .xlat u n qa)
    (h : g.xlatBefore p n = true ∨ s.dieHeld (g.core / 64) = true) : exec (.storePerformed g.id p.id) s = .next s := by
  have hact : p.active = true := decide_eq_true hst
  have hor : (g.xlatBefore p n || s.dieHeld (g.core / 64)) = true := by simpa using h
  simp only [exec, execStorePerformed, hg, hp, hact, hwait, hi, hor, Bool.not_true, Bool.or_false, Bool.false_eq_true,
    if_false, if_true]

end

/-- Of the machine only read caches have changed (R188). -/
structure State.CachesOnly (s t : State) : Prop where
  rest : t = { s with cores := t.cores }
  length : t.cores.length = s.cores.length
  cores : ∀ k, k < s.cores.length → t.coreAt k = { s.coreAt k with readCache := (t.coreAt k).readCache }

theorem State.CachesOnly.refl (s : State) : s.CachesOnly s := ⟨rfl, rfl, fun _ _ => rfl⟩

theorem State.CachesOnly.trans {s t u : State} (h : s.CachesOnly t) (h' : t.CachesOnly u) : s.CachesOnly u where
  rest := by
    rw [h'.rest, h.rest]
  length := h'.length.trans h.length
  cores := fun k hk => by
    rw [h'.cores k (by rw [h.length]; exact hk), h.cores k hk]

theorem State.CachesOnly.foldl {α : Type} {f : State → α → State} (hf : ∀ s a, State.CachesOnly s (f s a)) (l : List α)
    (s : State) : s.CachesOnly (l.foldl f s) := by
  induction l generalizing s with
  | nil => exact .refl s
  | cons a l ih => exact (hf s a).trans (ih _)

theorem length_setNth {α : Type} (l : List α) (n : Nat) (a : α) : (setNth l n a).length = l.length := by
  induction l generalizing n with
  | nil => rfl
  | cons b l ih =>
    cases n with
    | zero => rfl
    | succ n => exact congrArg (· + 1) (ih n)

theorem State.coreAt_setCore (s : State) (n k : Nat) (c : Core) :
    (s.setCore n c).coreAt k = if k = n ∧ n < s.cores.length then c else s.coreAt k := nth_setNth ..

theorem State.cachesOnly_fill (s : State) (core sector : Nat) (b : List Byte) :
    s.CachesOnly (s.setCore core ((s.coreAt core).fill sector b)) where
  rest := rfl
  length := length_setNth ..
  cores := fun k _ => by
    rw [State.coreAt_setCore]
    split
    · next h => rw [h.1]; rfl
    · rfl

theorem State.cachesOnly_prefetchLine (s : State) (g : Group) (c : Context) (x : XReg) (o : Nat) :
    s.CachesOnly (s.prefetchLine g c x o) := by
  unfold State.prefetchLine
  split
  · exact .refl s
  · split
    · split
      · split
        · exact .refl s
        · exact .foldl (fun s i => s.cachesOnly_fill ..) ..
      · exact .refl s
    · exact .refl s
    · exact .refl s

/-- A PREF completes, and changes no more than read caches (R188). -/
theorem exec_performed_pref {s : State} {g : Group} {p : Pend} {u : Bool} {x : Fin 8} {pk : PrefKind} {a : Src}
    (hg : s.group? g.id = some g) (hp : g.pend? p.id = some p) (hst : p.status = .inFlight)
    (hwait : s.accessWaits g p = false) (hi : p.instr = .pref u x pk a) :
    ∃ s' : State, exec (.storePerformed g.id p.id) s = .next (s'.completePend g.id p.id) ∧ s.CachesOnly s' := by
  have hact : p.active = true := decide_eq_true hst
  simp only [exec, execStorePerformed, hg, hp, hact, hwait, hi, Bool.not_true, Bool.or_false, Bool.false_eq_true, if_false]
  refine ⟨_, rfl, ?_⟩
  split
  · exact .foldl (fun s l => s.cachesOnly_prefetchLine ..) ..
  · exact .refl s

/-- Settles O39: each word by the lemma of its return or completion; the quads by `State.returnQuad_gives`. -/
theorem capabilityAndTagWordsReturn : Obligations.CapabilityAndTagWordsReturn := by
  unfold Obligations.CapabilityAndTagWordsReturn
  intro s g p c tm u d qa qb x n a b dst pk sector hg hp hst hdue hwait hmay hc htm
  have hsend : s.sendLoads g p = g := sendLoads_of_mayPerform hmay
  have hsome : (s.group? g.id).isSome := by rw [hg]; rfl
  dsimp only
  rw [hsend]
  refine ⟨fun hi hq => ?_, fun r pa y hi hq hpoison hlanes hruns hpa hdrain => ?_, fun hi hq => ?_, fun hi hb hd => ?_,
    fun hi h => exec_performed_xlat_waits hg hp hst hwait hi h,
    fun hturn hi => exec_return_tlook hg hp hst hdue hwait hmay hi htm hturn sector,
    fun lane hturn hi hlane => exec_performed_tset hg hp hst hwait hmay hi htm hturn hlane, fun hi => ?_⟩
  · exact ⟨_, exec_return_ldcTable hg hp hst hdue hwait hmay hi hc sector, State.returnQuad_gives hsome hq.2 _ _⟩
  · have hsame := (s.sameStore_chargeAccess g (runSectors [r])).trans (State.sameStore_readL2 _ g.core [r])
    have hbytes : (s.chargeAccess g (runSectors [r])).readRuns [r] = s.readPhys pa r.len := by
      unfold State.readRuns State.readRuns State.readPhys
      rw [hpa, (s.sameStore_chargeAccess g (runSectors [r])).mem, List.append_nil]
    refine ⟨_, exec_return_ldcMemory hg hp hst hdue hwait hmay hi hpoison hlanes hruns hpa hdrain sector, ?_⟩
    rw [hbytes]
    obtain ⟨hmem, htags, hregs⟩ := State.returnQuad_gives
      (s := ((s.chargeAccess g (runSectors [r])).readL2 g.core [r]).2) (by rw [hsame.group?]; exact hsome) hq.2
      (BitVec.ofNat 128 (leValue (s.readPhys pa r.len)))
      (decide (pa % 16 = 0) && hasPerm (p.xcap.getD {}).perm permK && s.tagAt pa)
    exact ⟨hmem.trans hsame.mem, htags.trans hsame.tags, hregs⟩
  · exact ⟨_, exec_return_mint hg hp hst hdue hwait hmay hi sector, State.returnQuad_gives hsome hq.2 _ _⟩
  · exact exec_performed_xlat hg hp hst hwait hi hc hb hd
  · obtain ⟨s', hexec, hrest, hlength, hcores⟩ := exec_performed_pref hg hp hst hwait hi
    exact ⟨s', hexec, hrest, hlength, hcores⟩
end Sys2Proof.Machine
end

section
/-! What a load reads, and what it returns: the bytes of memory, extended to the registers (R173, R175, R177). Under O35. -/
namespace Sys2Proof.Machine

/-! ### The bytes that a core reads -/

/-- What memory holds at an address of a run; a discarded page reads zero (R164). -/
def State.byteAt (s : State) : Option Nat → Byte
  | none => 0
  | some a => memGet s.mem a

theorem memRead_eq_map (m : List Host.Cell) (a n : Nat) : memRead m a n = (upto n).map (fun i => memGet m (a + i)) := by
  induction n generalizing a with
  | zero => rfl
  | succ n ih =>
    unfold upto at ih ⊢
    rw [memRead, ih, List.range_succ_eq_map, List.map_cons, List.map_map]
    congr 1
    refine List.map_congr_left (fun i _ => ?_)
    show memGet m (a + 1 + i) = memGet m (a + (i + 1))
    congr 1
    omega

/-- The bytes of runs are those at the addresses of the runs. -/
theorem State.readRuns_eq_map (s : State) (l : List Run) : s.readRuns l = (runAddresses l).map s.byteAt := by
  induction l with
  | nil => rfl
  | cons r l ih =>
    unfold State.readRuns runAddresses
    rw [List.map_append, ih]
    congr 1
    split
    · rw [List.map_replicate]
      rfl
    · rw [List.map_map]
      exact memRead_eq_map ..

/-- The core has no store on its way, and what its read cache holds is what memory holds. -/
structure State.Reads (s : State) (core : Nat) : Prop where
  buffer : (s.coreAt core).buffer = []
  cache : ∀ e ∈ (s.coreAt core).readCache, e.2 = s.readPhys (32 * e.1) 32

theorem State.Reads.sectorSeen {s : State} {core : Nat} (h : s.Reads core) (sector : Nat) :
    s.sectorSeen core sector = s.readPhys (32 * sector) 32 := by
  unfold State.sectorSeen
  rw [h.buffer]
  rfl

theorem State.Reads.setCore {s : State} {core : Nat} (h : s.Reads core) {k : Core} (hb : k.buffer = [])
    (hc : ∀ e ∈ k.readCache, e.2 = s.readPhys (32 * e.1) 32) : (s.setCore core k).Reads core := by
  refine ⟨?_, ?_⟩ <;> rw [State.coreAt_setCore] <;> split
  · exact hb
  · exact h.buffer
  · exact hc
  · exact h.cache

/-- A sector filled as it is read stays what memory holds. -/
theorem State.Reads.fill {s : State} {core : Nat} (h : s.Reads core) (sector : Nat) :
    (s.setCore core ((s.coreAt core).fill sector (s.sectorSeen core sector))).Reads core := by
  refine h.setCore h.buffer (fun e he => ?_)
  rcases List.mem_cons.mp he with rfl | he
  · exact h.sectorSeen sector
  · exact h.cache e (List.mem_of_mem_filter he)

theorem State.Reads.refresh {s : State} {core : Nat} (h : s.Reads core) (sector : Nat) :
    (s.setCore core ((s.coreAt core).refresh sector (s.sectorSeen core sector))).Reads core := by
  unfold Core.refresh
  split
  · exact h.fill sector
  · exact h.setCore h.buffer h.cache

theorem State.Reads.nextFree {s : State} {core : Nat} (h : s.Reads core) : s.nextFree.Reads core := ⟨h.buffer, h.cache⟩

/-- A load of the core receives a sector as memory holds it, from its read cache or from the L2. -/
theorem State.Reads.loadSector {s : State} {core : Nat} (h : s.Reads core) (sector : Nat) (cacheable : Bool) :
    (s.loadSector core sector cacheable).1 = s.readPhys (32 * sector) 32 ∧
      (s.loadSector core sector cacheable).2.Reads core := by
  unfold State.loadSector
  dsimp only
  split
  · next e he =>
    split
    · refine ⟨?_, h.nextFree⟩
      have hsector : e.1 = sector := by simpa using List.find?_some he
      rw [← hsector]
      exact h.cache e (List.mem_of_find?_eq_some he)
    · exact ⟨h.sectorSeen sector, (h.refresh sector).nextFree⟩
  · refine ⟨h.sectorSeen sector, ?_⟩
    dsimp only
    split
    · exact h.fill sector
    · exact h

theorem State.Reads.loadSectors {s : State} {core : Nat} (h : s.Reads core) (cacheable : Bool) (l : List Nat) :
    (s.loadSectors core cacheable l).1 = l.map (fun x => (x, s.readPhys (32 * x) 32)) := by
  induction l generalizing s with
  | nil => rfl
  | cons x l ih =>
    obtain ⟨hbytes, hnext⟩ := h.loadSector x cacheable
    have hmem : ∀ y, (s.loadSector core x cacheable).2.readPhys (32 * y) 32 = s.readPhys (32 * y) 32 := by
      intro y
      unfold State.readPhys
      rw [(s.sameStore_loadSector core x cacheable).mem]
    show (x, (s.loadSector core x cacheable).1) :: ((s.loadSector core x cacheable).2.loadSectors core cacheable l).1 = _
    rw [ih hnext, hbytes, List.map_cons]
    simp only [hmem]

theorem State.cores_chargeAccess (s : State) (g : Group) (secs : List Nat) :
    (s.chargeAccess g secs).cores = s.cores ∧ (s.chargeAccess g secs).poison = s.poison := by
  unfold State.chargeAccess State.charge
  split
  · exact ⟨rfl, rfl⟩
  · split
    · exact ⟨rfl, rfl⟩
    · split
      · exact ⟨rfl, rfl⟩
      · split <;> exact ⟨rfl, rfl⟩

/-- A core with an empty buffer and an empty read cache reads memory, also once an access is charged. -/
theorem State.reads_chargeAccess {s : State} {core : Nat} (hb : (s.coreAt core).buffer = [])
    (hc : (s.coreAt core).readCache = []) (g : Group) (secs : List Nat) : (s.chargeAccess g secs).Reads core := by
  have hcore : (s.chargeAccess g secs).coreAt core = s.coreAt core := by
    unfold State.coreAt
    rw [(s.cores_chargeAccess g secs).1]
  refine ⟨hcore ▸ hb, fun e he => ?_⟩
  rw [hcore, hc] at he
  exact absurd he (by simp)

theorem mem_distinct {x : Nat} {l : List Nat} : x ∈ distinct l ↔ x ∈ l := by
  induction l with
  | nil => rfl
  | cons y l ih =>
    unfold distinct
    simp only [List.mem_cons, List.mem_filter, ih, decide_eq_true_eq]
    by_cases h : x = y <;> simp [h]

theorem assoc_map_pair {β : Type} {k : Nat} {l : List Nat} (h : k ∈ l) (f : Nat → β) (d : β) :
    assoc (l.map (fun x => (x, f x))) k d = f k := by
  induction l with
  | nil => exact absurd h (by simp)
  | cons x l ih =>
    rw [List.map_cons, assoc]
    by_cases hx : x = k
    · rw [if_pos hx, hx]
    · rw [if_neg hx, ih ((List.mem_cons.mp h).resolve_left (Ne.symm hx))]

/-- No store of the group stands before the load: none of its queued stores supplies a byte. -/
theorem Group.forwarded_of_no_store {g : Group} {p : Pend} (h : (g.before p).all (fun r => !writesV r.instr) = true)
    (a : Nat) : g.forwarded p a = none := by
  unfold Group.forwarded
  revert h
  generalize g.before p = l
  intro h
  induction l with
  | nil => rfl
  | cons q l ih =>
    rw [List.all_cons, Bool.and_eq_true] at h
    obtain ⟨hq, hl⟩ := h
    rw [List.foldl_cons]
    rw [if_neg]
    · exact ih hl
    · split
      · next hi => exact absurd hq (by rw [hi]; simp [writesV])
      · next hi => exact absurd hq (by rw [hi]; simp [writesV])
      · simp

/-- A byte that a load returns is the byte in memory, where its sector was read and no store of the group stands before it. -/
theorem Group.loadByte_eq {s : State} {g : Group} {p : Pend} {l : List Nat}
    (h : (g.before p).all (fun r => !writesV r.instr) = true) {a : Option Nat} (ha : ∀ x, a = some x → sectorOf x ∈ l) :
    g.loadByte p (l.map (fun x => (x, s.readPhys (32 * x) 32))) a = s.byteAt a := by
  cases a with
  | none => rfl
  | some a =>
    show (g.forwarded p a).getD _ = memGet s.mem a
    rw [Group.forwarded_of_no_store h, Option.getD_none, assoc_map_pair (ha a rfl) (fun x => s.readPhys (32 * x) 32)]
    unfold State.readPhys
    rw [nth_memRead, if_pos (Nat.mod_lt _ (by omega))]
    congr 1
    unfold sectorOf
    omega

/-! ### The words of a load -/

/-- A word of a load rests on the four bytes of its element. -/
theorem loadWord_congr {sz : MemSize} {b c : List Byte} {e : Nat} (he : e < sz.regs)
    (h : (b.drop (4 * e)).take 4 = (c.drop (4 * e)).take 4) : loadWord sz b e = loadWord sz c e := by
  have hzero : sz.regs = 1 → b.take 4 = c.take 4 := by
    intro h1
    obtain rfl : e = 0 := by omega
    simpa using h
  have htwo : sz.regs = 1 → b.take 2 = c.take 2 := by
    intro h1
    have h2 := congrArg (List.take 2) (hzero h1)
    rwa [List.take_take, List.take_take] at h2
  have hone : sz.regs = 1 → nth b 0 0 = nth c 0 0 := by
    intro h1
    have h2 := congrArg (fun l : List Byte => nth l 0 0) (hzero h1)
    simpa [nth] using h2
  cases sz with
  | i8 => exact congrArg (BitVec.signExtend 32) (hone rfl)
  | n8 => exact congrArg (BitVec.zeroExtend 32) (hone rfl)
  | i16 => exact congrArg (fun l => BitVec.ofInt 32 (toSigned 16 (leValue l))) (htwo rfl)
  | n16 => exact congrArg (fun l => BitVec.ofNat 32 (leValue l)) (htwo rfl)
  | w32 => exact congrArg (fun l => BitVec.ofNat 32 (leValue l)) (hzero rfl)
  | w64 => exact congrArg (fun l => BitVec.ofNat 32 (leValue l)) h
  | w128 => exact congrArg (fun l => BitVec.ofNat 32 (leValue l)) h

/-- An element of a lane whose sectors were read is the element in memory. -/
theorem loadWord_loadByte {s : State} {g : Group} {p : Pend} {l : List Nat} {sz : MemSize} {y : LaneAccess} {e : Nat}
    (h : (g.before p).all (fun r => !writesV r.instr) = true) (he : e < sz.regs)
    (hl : ∀ x ∈ elementSectors y e, x ∈ l) :
    loadWord sz ((runAddresses y.runs).map (g.loadByte p (l.map (fun x => (x, s.readPhys (32 * x) 32))))) e =
      loadWord sz (s.readRuns y.runs) e := by
  refine loadWord_congr he ?_
  rw [State.readRuns_eq_map, ← List.map_drop, ← List.map_take, ← List.map_drop, ← List.map_take]
  refine List.map_congr_left (fun a ha => Group.loadByte_eq h (fun x hx => hl _ ?_))
  exact List.mem_filterMap.mpr ⟨a, ha, by rw [hx]; rfl⟩

/-! ### What a load's elements are, by register -/

theorem getLsbD_foldl_or (l : List Nat) (f : Nat → DWord) (m : DWord) (i : Nat) :
    (l.foldl (fun m l => m ||| f l) m).getLsbD i = true ↔ m.getLsbD i = true ∨ ∃ x ∈ l, (f x).getLsbD i = true := by
  induction l generalizing m with
  | nil => simp
  | cons x l ih =>
    rw [List.foldl_cons, ih]
    simp only [BitVec.getLsbD_or, Bool.or_eq_true, List.mem_cons, exists_eq_or_imp, or_assoc]

theorem Pend.receives_of_uniform {p : Pend} (h : p.instr.uniform = true) (lane : Nat) : p.receives lane = p.lmask := if_pos h

theorem Pend.receives_self {p : Pend} (h : p.instr.uniform = false) {lane i : Nat} (hi : i < 64)
    (hr : (p.receives lane).getLsbD i = true) : lane = i := by
  unfold Pend.receives at hr
  rw [h, if_neg (by simp), maskFrom_bit _ hi] at hr
  simpa [eq_comm] using hr

section
variable {p : Pend} {sz : MemSize} {here : List (Nat × Nat)} {bytes : Nat → List Byte}

/-- What a load returns for a register comes from elements read: each lane's word is one that the lane receives. -/
theorem Pend.loaded_gives {x : Nat × DWord × List Word} (hx : x ∈ p.loaded sz here bytes) {i : Nat} (hi : i < 64)
    (hbit : x.2.1.getLsbD i = true) : ∃ t ∈ here, t.2 = x.1 ∧ t.2 < sz.regs ∧ (p.receives t.1).getLsbD i = true ∧
      nth x.2.2 i 0 = loadWord sz (bytes t.1) t.2 := by
  obtain ⟨e, he, hsome⟩ := List.mem_filterMap.mp hx
  have hreg : e < sz.regs := List.mem_range.mp he
  have hlane : ∀ l ∈ (here.filter (fun t => t.2 = e)).map (fun t => t.1), (l, e) ∈ here := by
    intro l hl
    obtain ⟨t, ht, rfl⟩ := List.mem_map.mp hl
    obtain ⟨hin, heq⟩ := List.mem_filter.mp ht
    rwa [← (of_decide_eq_true heq : t.2 = e)]
  dsimp only at hsome
  generalize (here.filter (fun t => t.2 = e)).map (fun t => t.1) = lanes at hsome hlane
  cases lanes with
  | nil => exact absurd hsome (by simp)
  | cons l0 ls =>
    obtain rfl := Option.some.inj hsome
    obtain ⟨l, hl, hr⟩ := ((getLsbD_foldl_or _ _ _ _).mp hbit).resolve_left (by simp)
    simp only [nth_tabulate, if_pos hi]
    cases hu : p.instr.uniform with
    | true =>
      rw [Pend.receives_of_uniform hu] at hr
      refine ⟨(l0, e), hlane l0 List.mem_cons_self, rfl, hreg, ?_, rfl⟩
      rwa [Pend.receives_of_uniform hu]
    | false =>
      obtain rfl := Pend.receives_self hu hi hr
      exact ⟨(l, e), hlane l hl, rfl, hreg, hr, rfl⟩

/-- Every element read is returned, in the lanes that receive it. -/
theorem Pend.loaded_of_mem {t : Nat × Nat} (ht : t ∈ here) (hreg : t.2 < sz.regs) :
    ∃ x ∈ p.loaded sz here bytes, x.1 = t.2 ∧ ∀ i, (p.receives t.1).getLsbD i = true → x.2.1.getLsbD i = true := by
  have hlane : t.1 ∈ (here.filter (fun u => u.2 = t.2)).map (fun u => u.1) :=
    List.mem_map.mpr ⟨t, List.mem_filter.mpr ⟨ht, decide_eq_true rfl⟩, rfl⟩
  unfold Pend.loaded
  simp only [List.mem_filterMap]
  generalize hlanes : (here.filter (fun u => u.2 = t.2)).map (fun u => u.1) = lanes at hlane
  cases lanes with
  | nil => exact absurd hlane (by simp)
  | cons l0 ls =>
    refine ⟨_, ⟨t.2, List.mem_range.mpr hreg, by rw [hlanes]⟩, rfl, fun i hi => ?_⟩
    exact (getLsbD_foldl_or _ _ _ _).mpr (.inr ⟨t.1, hlane, hi⟩)

end

end Sys2Proof.Machine
end

section
/-! Settles O35: a part of a load, from the sectors that it reads to the registers that it writes. -/
namespace Sys2Proof.Machine

/-! ### A part of a return -/

/-- All that is due written to its registers: the group has the registers that are written, memory is as it was, and the
instruction is there as long as something is left of it (R22). -/
theorem State.deliver_gives {s : State} {g : Group} {p q : Pend} (hg : (s.group? g.id).isSome)
    (hq : g.pend? p.id = some q) :
    (s.deliver g p 0).mem = s.mem ∧ ∀ h, (s.deliver g p 0).group? g.id = some h →
      (∀ n l, h.vLane n l = (g.returned p p.due s.shows).vLane n l) ∧
      (∀ n, (h.bank p.half).sreg n = ((g.returned p p.due s.shows).bank p.half).sreg n) ∧
      (p.todo = [] → h.pend? p.id = none) ∧ (p.todo ≠ [] → ∃ r, h.pend? p.id = some r ∧ r.todo = p.todo) := by
  have hkept := g.kept_returned p p.due s.shows
  rw [State.deliver_whole]
  generalize g.returned p p.due s.shows = g' at hkept
  refine ⟨(State.progress_mem_tags ..).1, fun h hh => ?_⟩
  rw [← hkept.id] at hg hh
  obtain ⟨q', hq', -⟩ := Group.pend?_of_parts hkept.parts hq
  have hlanes : h.v = g'.v → ∀ n l, h.vLane n l = g'.vLane n l := by
    intro hv n l
    unfold Group.vLane
    rw [hv]
  by_cases ht : p.todo = []
  · obtain ⟨hgone, hv, hbank⟩ := State.progress_last_group (s := s.nextFree) (p := { p with due := [] }) ht rfl hg hh
    exact ⟨hlanes hv, fun n => (hbank p.half n).1.trans (Group.tagReturned_sreg g' { p with due := [] } n), fun _ => hgone,
      fun hne => absurd ht hne⟩
  · obtain ⟨hstays, hv, hbank⟩ := State.progress_more_group (s := s.nextFree) (p := { p with due := [] }) ht hq' hg hh
    exact ⟨hlanes hv, fun n => hbank p.half n, fun hnil => absurd hnil ht, fun _ => hstays⟩

/-! ### A part of a load -/

/-- The elements that the return of a sector writes (R173). -/
def Pend.inSector (p : Pend) (sector : Nat) : List (Nat × Nat) :=
  p.todo.filter (fun t =>
    match p.lanes.find? (fun a => a.lane = t.1) with
    | none => true
    | some a => (match elementSector a t.2 with
        | none => true
        | some x => x = sector))

/-- The sectors that hold some elements. -/
def Pend.sectorsOf (p : Pend) (here : List (Nat × Nat)) : List Nat :=
  distinct (here.flatMap (fun t =>
    ((p.lanes.find? (fun a => a.lane = t.1)).map (fun a => elementSectors a t.2)).getD []))

/-- The bytes of a lane of a load, from sectors read. -/
def Pend.laneBytes (p : Pend) (g : Group) (seen : List (Nat × List Byte)) (l : Nat) : List Byte :=
  match p.lanes.find? (fun a => a.lane = l) with
  | none => []
  | some a => (runAddresses a.runs).map (g.loadByte p seen)

/-- Where nothing is poisoned, a load's part reads its sectors and returns its elements. -/
theorem State.returnLoad_of_clean {s : State} (h : s.poison = []) (g : Group) (p : Pend) (sz : MemSize) (cacheable : Bool)
    (sector part : Nat) : ∃ cached, s.returnLoad g p sz cacheable sector part =
      (s.loadSectors g.core cached (p.sectorsOf (p.inSector sector))).2.deliver g
        { p with
          todo := p.todo.filter (fun t => !(p.inSector sector).contains t)
          due := p.due ++ p.loaded sz (p.inSector sector)
            (p.laneBytes g (s.loadSectors g.core cached (p.sectorsOf (p.inSector sector))).1) } part := by
  refine ⟨cacheable && p.lanes.all (fun a => a.runs.all (fun r => r.mtype = 0)), ?_⟩
  unfold State.returnLoad
  rw [State.poisonedLanes_of_clean h]
  rfl

theorem State.readRuns_congr {s t : State} (h : t.mem = s.mem) (l : List Run) : t.readRuns l = s.readRuns l := by
  have hbyte : t.byteAt = s.byteAt := by
    funext a
    cases a with
    | none => rfl
    | some a => exact congrArg (memGet · a) h
  rw [State.readRuns_eq_map, State.readRuns_eq_map, hbyte]

/-- An element of a part, from the sectors that the part reads: the element in memory. -/
theorem Pend.loadWord_laneBytes {s : State} {g : Group} {p : Pend} {sz : MemSize} {here : List (Nat × Nat)} {t : Nat × Nat}
    {y : LaneAccess} (h : (g.before p).all (fun r => !writesV r.instr) = true) (ht : t ∈ here) (hreg : t.2 < sz.regs)
    (hy : p.lanes.find? (fun a => a.lane = t.1) = some y) :
    loadWord sz (p.laneBytes g ((p.sectorsOf here).map (fun x => (x, s.readPhys (32 * x) 32))) t.1) t.2 =
      loadWord sz (s.readRuns y.runs) t.2 := by
  unfold Pend.laneBytes
  rw [hy]
  refine loadWord_loadByte h hreg (fun x hx => mem_distinct.mpr (List.mem_flatMap.mpr ⟨t, ht, ?_⟩))
  rw [hy]
  exact hx

/-- A load in its turn, not of the register window, is charged for its sector and returns that sector's elements (R173). -/
theorem exec_return_ld {s : State} {g : Group} {p : Pend} {u : Bool} {d : Dst} {x : Fin 8} {sz : MemSize} {hint : Hint}
    {a : Src} (hg : s.group? g.id = some g) (hp : g.pend? p.id = some p) (hi : p.instr = .ld u d x sz hint a)
    (hst : p.status = .inFlight) (hdue : p.due = []) (hmay : g.mayPerform p = true) (hwait : s.accessWaits g p = false)
    (hwindow : (p.xcap.getD {}).type ≠ 4) (sector : Nat) : exec (.loadSectorReturn g.id p.id ⟨sector, 0⟩) s =
      .next ((s.chargeAccess g [sector]).returnLoad g p sz (decide (hint ≠ .bypass)) sector 0) := by
  have hact : p.active = true := decide_eq_true hst
  simp only [exec, execLoadSectorReturn, hg, hp, sendLoads_of_mayPerform hmay, hdue, hact, hmay, hwait, hi, if_neg hwindow,
    List.isEmpty_nil, Bool.not_true, Bool.or_false, Bool.false_eq_true, if_false]

section
variable {s : State} {g : Group} {p : Pend} {sz : MemSize} {here : List (Nat × Nat)} {bytes : Nat → List Byte}
  {val : Nat × Nat → Word → Prop} (hval : ∀ t ∈ here, t.2 < sz.regs → val t (loadWord sz (bytes t.1) t.2))
include hval

/-- A v register's lane after the elements of a load are written: the word of an element that the lane receives, or what stood
there, where no element writes it or a later return is still to. -/
theorem Group.vLane_returned_loaded (shows : Nat → Nat → Bool) (n l : Nat) (hl : l < 64) :
    (∃ t ∈ here, (t.2 < sz.regs ∧ p.putsV g t.2 (p.receives t.1) n l) ∧
      (val t ((g.returned p (p.loaded sz here bytes) shows).vLane n l) ∨ ((g.laterLanes p n).getLsbD l = true ∧
        (g.returned p (p.loaded sz here bytes) shows).vLane n l = g.vLane n l))) ∨
    ((∀ t ∈ here, ¬ (t.2 < sz.regs ∧ p.putsV g t.2 (p.receives t.1) n l)) ∧
      (g.returned p (p.loaded sz here bytes) shows).vLane n l = g.vLane n l) := by
  rcases g.vLane_returned p (p.loaded sz here bytes) shows n l hl with ⟨x, hx, ⟨hmask, hput⟩, hw⟩ | ⟨hnone, hsame⟩
  · obtain ⟨t, ht, he, hreg, hreceives, hword⟩ := Pend.loaded_gives hx hl hmask
    rw [hword] at hw
    rw [← he] at hput
    exact .inl ⟨t, ht, ⟨hreg, hreceives, hput⟩, hw.imp_left (fun e => by rw [e]; exact hval t ht hreg)⟩
  · refine .inr ⟨fun t ht hhit => ?_, hsame⟩
    obtain ⟨hreg, hreceives, hput⟩ := hhit
    obtain ⟨x, hx, he, hbits⟩ := Pend.loaded_of_mem (bytes := bytes) ht hreg
    exact hnone x hx ⟨hbits l hreceives, by rw [he]; exact hput⟩

/-- An s register after the elements of a load are written. -/
theorem Group.sreg_returned_loaded (shows : Nat → Nat → Bool) (n : Nat) :
    (∃ t ∈ here, (t.2 < sz.regs ∧ p.putsS t.2 (p.receives t.1) n) ∧
      val t (((g.returned p (p.loaded sz here bytes) shows).bank p.half).sreg n)) ∨
    ((∀ t ∈ here, ¬ (t.2 < sz.regs ∧ p.putsS t.2 (p.receives t.1) n)) ∧
      ((g.returned p (p.loaded sz here bytes) shows).bank p.half).sreg n = (g.bank p.half).sreg n) := by
  rcases g.sreg_returned p (p.loaded sz here bytes) shows n with ⟨x, hx, ⟨hmask, hput⟩, hw⟩ | ⟨hnone, hsame⟩
  · obtain ⟨t, ht, he, hreg, hreceives, hword⟩ := Pend.loaded_gives hx (lowestLane_lt_64 _) hmask
    rw [hword] at hw
    rw [← he] at hput
    exact .inl ⟨t, ht, ⟨hreg, hreceives, hput⟩, by rw [hw]; exact hval t ht hreg⟩
  · refine .inr ⟨fun t ht hhit => ?_, hsame⟩
    obtain ⟨hreg, hreceives, hput⟩ := hhit
    obtain ⟨x, hx, he, hbits⟩ := Pend.loaded_of_mem (bytes := bytes) ht hreg
    exact hnone x hx ⟨hbits _ hreceives, by rw [he]; exact hput⟩

end

/-- Settles O35: the part reads its sectors as memory holds them (`State.Reads.loadSectors`), an element's word is then that of
memory (`Pend.loadWord_laneBytes`), and it stands in the lanes that receive it (`Group.vLane_returned_loaded`). -/
theorem loadReturnsTheBytesOfMemory : Obligations.LoadReturnsTheBytesOfMemory := by
  unfold Obligations.LoadReturnsTheBytesOfMemory
  intro s g p sector u d x sz hint a hg hp hi hst hdue hmay hwait hwindow hpoison hbuffer hcache hstores access haccess here rest
    word hits hitsS
  have hexec := exec_return_ld hg hp hi hst hdue hmay hwait hwindow sector
  have hreads := State.reads_chargeAccess hbuffer hcache g [sector]
  have hclean : (s.chargeAccess g [sector]).poison = [] := (s.cores_chargeAccess g [sector]).2.trans hpoison
  have hcharge := s.sameStore_chargeAccess g [sector]
  generalize s.chargeAccess g [sector] = s1 at hexec hreads hclean hcharge
  obtain ⟨cached, hload⟩ := State.returnLoad_of_clean hclean g p sz (decide (hint ≠ .bypass)) sector 0
  have hsame := hcharge.trans (s1.sameStore_loadSectors g.core cached (p.sectorsOf (p.inSector sector)))
  rw [hreads.loadSectors, hdue, List.nil_append] at hload
  generalize (s1.loadSectors g.core cached (p.sectorsOf (p.inSector sector))).2 = s2 at hload hsame
  have hwords : ∀ t ∈ here, t.2 < sz.regs → word t (loadWord sz (p.laneBytes g
      ((p.sectorsOf here).map (fun x => (x, s1.readPhys (32 * x) 32))) t.1) t.2) := by
    intro t ht hreg
    obtain ⟨y, hy⟩ := Option.isSome_iff_exists.mp (haccess t (List.mem_of_mem_filter ht))
    refine ⟨y, hy, ?_⟩
    rw [Pend.loadWord_laneBytes hstores ht hreg hy, State.readRuns_congr hcharge.mem]
  have hsome : (s2.group? g.id).isSome := by
    rw [hsame.group?, hg]
    rfl
  obtain ⟨hmem, hgroup⟩ := State.deliver_gives (s := s2) (p := { p with
    todo := rest
    due := p.loaded sz here (p.laneBytes g ((p.sectorsOf here).map (fun x => (x, s1.readPhys (32 * x) 32)))) }) hsome hp
  refine ⟨_, hload ▸ hexec, hmem.trans hsame.mem, fun h hh => ?_⟩
  obtain ⟨hlanes, hsregs, hlast, hmore⟩ := hgroup h hh
  refine ⟨fun n l hl => ?_, fun n => ?_, hlast, hmore⟩
  · rw [hlanes]
    exact Group.vLane_returned_loaded hwords s2.shows n l hl
  · rw [hsregs]
    exact Group.sreg_returned_loaded hwords s2.shows n

end Sys2Proof.Machine
end

section
/-! Integer results and the words put together from them (R51, Tables 2.12, 3.5). Under O2. -/
namespace Sys2Proof.Machine

/-! ### The low bits of an integer -/

/-- The low bits as an integer: the residue that is not negative. -/
theorem cast_ofInt (w : Nat) (x : Int) : (ofInt w x : Int) = x % ((2 ^ w : Nat) : Int) :=
  Int.toNat_of_nonneg (Int.emod_nonneg x (Int.natCast_ne_zero.mpr (Nat.two_pow_pos w).ne'))

theorem ofInt_lt (w : Nat) (x : Int) : ofInt w x < 2 ^ w :=
  Int.ofNat_lt.mp (cast_ofInt w x ▸ Int.emod_lt_of_pos x (Int.natCast_pos.mpr (Nat.two_pow_pos w)))

/-! ### The clamp -/

/-- The range of an element is not empty, so that a result is on one side of it at most. -/
theorem intMin_le_intMax (sg : Bool) (w : Nat) : intMin sg w ≤ intMax sg w := by
  have hhalf := Nat.two_pow_pos (w - 1)
  have hfull := Nat.two_pow_pos w
  cases sg
  · simp only [intMin, intMax, Bool.false_eq_true, if_false]
    omega
  · simp only [intMin, intMax, if_true]
    omega

@[simp] theorem narrow_unsaturated (sg : Bool) (w : Nat) (x : Int) : narrow sg w false x = (ofInt w x, 0) := rfl

theorem narrow_of_lt_intMin {sg : Bool} {w : Nat} {x : Int} (h : x < intMin sg w) :
    narrow sg w true x = (ofInt w (intMin sg w), flSATD) := by
  simp [narrow, h]

theorem narrow_of_intMax_lt {sg : Bool} {w : Nat} {x : Int} (h : intMax sg w < x) :
    narrow sg w true x = (ofInt w (intMax sg w), flSATD) := by
  have hmin : ¬ x < intMin sg w := ((intMin_le_intMax sg w).trans h.le).not_gt
  simp [narrow, h, hmin]

theorem narrow_of_fits {sg : Bool} {w : Nat} {x : Int} (hmin : intMin sg w ≤ x) (hmax : x ≤ intMax sg w) (sat : Bool) :
    narrow sg w sat x = (ofInt w x, 0) := by
  simp [narrow, hmin.not_gt, hmax.not_gt]

/-! ### A word from its elements -/

/-- The number that a list of elements makes: its digits in base 2^w are the elements' low bits. -/
theorem ofElems_eq_ofDigits (w : Nat) (l : List Nat) :
    ofElems w l = BitVec.ofNat 32 (Nat.ofDigits (2 ^ w) (l.map (fun x => x % 2 ^ w))) := by
  rw [ofElems, Nat.ofDigits_eq_foldr, List.foldr_map]
  simp only [Nat.cast_id, Nat.mul_comm, Nat.add_comm]

/-- An element that has its place in the word reads back as its low bits. -/
theorem elemNat_ofElems {w e : Nat} {l : List Nat} (hw : 0 < w) (hl : w * l.length ≤ 32) (he : e < l.length) :
    elemNat (ofElems w l) w e = l[e] % 2 ^ w := by
  have hbase : 1 < 2 ^ w := Nat.one_lt_two_pow hw.ne'
  have hdigits : ∀ d ∈ l.map (fun x => x % 2 ^ w), d < 2 ^ w := by
    intro d hd
    obtain ⟨x, -, rfl⟩ := List.mem_map.mp hd
    exact Nat.mod_lt x (Nat.two_pow_pos w)
  have hfits : Nat.ofDigits (2 ^ w) (l.map (fun x => x % 2 ^ w)) < 2 ^ 32 := by
    have hlt := Nat.ofDigits_lt_base_pow_length hbase hdigits
    rw [List.length_map, ← Nat.pow_mul] at hlt
    exact hlt.trans_le (Nat.pow_le_pow_right Nat.two_pos hl)
  have he' : e < (l.map (fun x => x % 2 ^ w)).length := by simpa using he
  rw [elemNat, ofElems_eq_ofDigits, BitVec.toNat_ofNat, Nat.mod_eq_of_lt hfits, Nat.pow_mul,
    Nat.ofDigits_div_pow_eq_ofDigits_drop e (Nat.two_pow_pos w) _ hdigits, List.drop_eq_getElem_cons he',
    Nat.ofDigits_cons, Nat.add_mul_mod_self_left, List.getElem_map, Nat.mod_mod]

/-- Element e of a word of results is the e-th result, at every width that has a place for it. -/
theorem elemNat_perElem {w e : Nat} (f : Nat → Nat × FFlags) (hw : 0 < w) (he : e < 32 / w) :
    elemNat (perElem w f).1 w e = (f e).1 % 2 ^ w := by
  have hlen : (((upto (32 / w)).map f).map (fun r => r.1)).length = 32 / w := by simp [upto]
  have hplace := elemNat_ofElems hw (hlen ▸ Nat.mul_div_le 32 w) (hlen ▸ he)
  simpa [perElem, upto] using hplace

/-- The value of a signed element lies a full range lower from half of it on. -/
theorem elemVal_eq (sg : Bool) (w : Nat) (x : Word) (e : Nat) :
    elemVal sg w x e = if sg = true ∧ 2 ^ (w - 1) ≤ elemNat x w e then
      (elemNat x w e : Int) - ((2 ^ w : Nat) : Int) else (elemNat x w e : Int) := by
  cases sg
  · simp [elemVal]
  · by_cases hhalf : elemNat x w e < 2 ^ (w - 1)
    · simp [elemVal, toSigned, hhalf, hhalf.not_ge]
    · simp [elemVal, toSigned, hhalf, Nat.le_of_not_gt hhalf]

/-- Settles O2: the clamp by the side of the range on which the result lies (`narrow_of_fits`, `narrow_of_lt_intMin`,
`narrow_of_intMax_lt`), a word's elements as its digits in base 2^w (`elemNat_perElem`), the tables by evaluation. -/
theorem integerResultFitsElement : Obligations.IntegerResultFitsElement := by
  refine ⟨fun sg w x _ => ⟨⟨?_, ofInt_lt w x, rfl⟩, fun hmin hmax => ?_, narrow_of_lt_intMin, narrow_of_intMax_lt⟩,
    fun w f e hw he => elemNat_perElem f (by omega) he, fun _ _ _ => rfl, fun x sg w e => elemVal_eq sg w x e,
    rfl, by decide, by decide⟩
  · rw [narrow_unsaturated, cast_ofInt, Int.emod_emod]
  · rw [narrow_of_fits hmin hmax, narrow_unsaturated]

end Sys2Proof.Machine
end

section
/-! Words that compute on integers: arithmetic (O1), logic and immediates (O3), shifts, fields and counts (O4), compare,
select and move (O5), and the types that they need (O6). -/
namespace Sys2Proof.Machine

/-! ### The type of an integer or float word -/

section
variable {i : Instr} {s : State} {c : Issue} {cl : ClauseState} {u : Bool} {d : Dst} {sg : Bool} {w : Nat}

theorem Issue.withInt_of_intType (h : intType (modeType c.p.mode) = some (sg, w)) (k : Bool → Nat → Delivery → Eff) :
    c.withInt k = k sg w c.intTyped := by
  unfold Issue.withInt
  rw [h]
  rfl

theorem Issue.withInt_of_none (h : intType (modeType c.p.mode) = none) (k : Bool → Nat → Delivery → Eff) :
    c.withInt k = .raise trIlltype := by
  unfold Issue.withInt
  rw [h]

theorem Issue.withFloat_of_none (h : floatType (modeType c.p.mode) = none) (k : FFmt → Delivery → Eff) :
    c.withFloat k = .raise trIlltype := by
  unfold Issue.withFloat
  rw [h]

/-- Per-element integer arithmetic, from its operation on elements (R61). -/
theorem Issuing.intArith_results (h : Issuing i s c cl) (ht : intType (modeType c.p.mode) = some (sg, w)) {a b : Src}
    {op : Bool → Nat → Bool → Int → Int → Int → Nat × FFlags} (he : exec i s = intArith i u d a b op s) :
    c.Results i s u d (fun l => perElem w (fun e =>
      op sg w (modeSat c.p.mode) (c.val sg w a l e) (c.val sg w b l e) (c.val sg w d.asSrc l e))) :=
  h.results he (Issue.withInt_of_intType ht _)

/-- A whole-word integer instruction, from its operation on words (R62). -/
theorem Issuing.intWord_results (h : Issuing i s c cl) (ht : intType (modeType c.p.mode) = some (sg, w))
    {f : Issue → Bool → Nat → Delivery → Nat → Word} (he : exec i s = intWord i u d f s) :
    c.Results i s u d (fun l => (f c sg w c.intTyped l, 0)) :=
  h.results he (Issue.withInt_of_intType ht _)

end

/-! ### Arithmetic (Tables 4.1 and 4.3) -/

theorem abs_eq_ite (x : Int) : (if x < 0 then -x else x) = |x| := by
  split
  · exact (abs_of_neg ‹_›).symm
  · exact (abs_of_nonneg (Int.not_lt.mp ‹_›)).symm

section
variable (s : State) (u : Bool) (d : Dst) (a b : Src) (imm : Half)

theorem exec_iadd : exec (.iadd u d a b) s =
    intArith (.iadd u d a b) u d a b (fun sg w sat x y _ => narrow sg w sat (x + y)) s := rfl

theorem exec_isub : exec (.isub u d a b) s =
    intArith (.isub u d a b) u d a b (fun sg w sat x y _ => narrow sg w sat (x - y)) s := rfl

theorem exec_imul : exec (.imul u d a b) s =
    intArith (.imul u d a b) u d a b (fun sg w sat x y _ => narrow sg w sat (x * y)) s := rfl

theorem exec_imulh : exec (.imulh u d a b) s =
    intArith (.imulh u d a b) u d a b (fun _ w _ x y _ => (ofInt w (x * y / ((2 ^ w : Nat) : Int)), 0)) s := rfl

theorem exec_imad : exec (.imad u d a b) s =
    intArith (.imad u d a b) u d a b (fun sg w sat x y z => narrow sg w sat (z + x * y)) s := rfl

theorem exec_imin : exec (.imin u d a b) s =
    intArith (.imin u d a b) u d a b (fun _ w _ x y _ => (ofInt w (min x y), 0)) s := rfl

theorem exec_imax : exec (.imax u d a b) s =
    intArith (.imax u d a b) u d a b (fun _ w _ x y _ => (ofInt w (max x y), 0)) s := rfl

theorem exec_iabs : exec (.iabs u d a) s =
    intArith (.iabs u d a) u d a a (fun sg w sat x _ _ => narrow sg w sat |x|) s := by
  simp only [← abs_eq_ite]
  rfl

theorem exec_iaddi : exec (.iaddi u d imm) s =
    intArith (.iaddi u d imm) u d d.asSrc d.asSrc (fun sg w sat _ _ z => narrow sg w sat (z + imm.toInt)) s := rfl

theorem exec_imuli : exec (.imuli u d imm) s =
    intArith (.imuli u d imm) u d d.asSrc d.asSrc (fun sg w sat _ _ z => narrow sg w sat (z * imm.toInt)) s := rfl

end

/-- Settles O1: each word is `intArith` with the operation of its table row. -/
theorem integerArithmeticByElement : Obligations.IntegerArithmeticByElement := by
  intro s c cl u d a b imm sg w ht
  exact ⟨fun h => h.intArith_results ht (exec_iadd s u d a b),
    fun h => h.intArith_results ht (exec_isub s u d a b),
    fun h => h.intArith_results ht (exec_imul s u d a b),
    fun h => h.intArith_results ht (exec_imulh s u d a b),
    fun h => h.intArith_results ht (exec_imad s u d a b),
    fun h => h.intArith_results ht (exec_imin s u d a b),
    fun h => h.intArith_results ht (exec_imax s u d a b),
    fun h => h.intArith_results ht (exec_iabs s u d a),
    fun h => h.intArith_results ht (exec_iaddi s u d imm),
    fun h => h.intArith_results ht (exec_imuli s u d imm)⟩

/-! ### Logic, shifts and bits -/

/-- MOVHI puts its immediate above the low half (Table 4.3). -/
theorem append_low_half (h : Half) (x : Word) :
    h ++ x.extractLsb' 0 16 = BitVec.ofNat 32 (h.toNat * 65536 + x.toNat % 65536) := by
  apply BitVec.eq_of_toNat_eq
  rw [BitVec.toNat_append, BitVec.extractLsb'_toNat, BitVec.toNat_ofNat, ← Nat.shiftLeft_add_eq_or_of_lt (by omega),
    Nat.shiftLeft_eq, Nat.shiftRight_zero]
  have := h.isLt
  omega

/-- Settles O3: each word is `intWord` with its operation, MOVHI's word as a number (`append_low_half`). -/
theorem logicActsOnWholeWords : Obligations.LogicActsOnWholeWords := by
  intro s c cl u d a b imm ⟨sg, w⟩ ht
  refine ⟨fun h => h.intWord_results ht rfl, fun h => h.intWord_results ht rfl, fun h => h.intWord_results ht rfl,
    fun h => h.intWord_results ht rfl, fun h => h.intWord_results ht rfl, fun h => ?_,
    fun h => h.intWord_results ht rfl, fun h => h.intWord_results ht rfl, fun h => h.intWord_results ht rfl⟩
  have hmovhi := h.intWord_results ht rfl
  simpa only [append_low_half] using hmovhi

theorem popcount_eq_length_filter (n x : Nat) : popcount n x = ((upto n).filter (fun i => x.testBit i)).length := by
  have count : ∀ (l : List Nat) (a : Nat),
      l.foldl (fun acc i => if x.testBit i then acc + 1 else acc) a = a + (l.filter (fun i => x.testBit i)).length := by
    intro l
    induction l with
    | nil => exact fun _ => rfl
    | cons i l ih =>
      intro a
      by_cases hi : x.testBit i <;> simp [hi, ih, Nat.add_assoc, Nat.add_comm 1]
  exact (count (upto n) 0).trans (Nat.zero_add _)

/-- Settles O4: each word is `intWord` with its operation, POPC's count as a length (`popcount_eq_length_filter`). -/
theorem shiftsAndBitFields : Obligations.ShiftsAndBitFields := by
  intro s c cl u d a b sg w ht
  refine ⟨fun h => h.intWord_results ht rfl, fun h => h.intWord_results ht rfl, fun h => h.intWord_results ht rfl,
    fun h => h.intWord_results ht rfl, fun h => h.intWord_results ht rfl, fun h => h.intWord_results ht rfl, fun h => ?_,
    fun h => h.intWord_results ht rfl, fun h => h.intWord_results ht rfl⟩
  have hpopc := h.intWord_results ht rfl
  simpa only [popcount_eq_length_filter, Issue.elem] using hpopc

/-! ### Compare, select, move -/

/-- SEL of the mode has three bits (R30). -/
theorem modeSel_lt (m : Half) : modeSel m < 8 := (m.extractLsb' 12 3).isLt

/-- Settles O5: ICMP sets a predicate from its type's elements; SEL and MOV need no type. -/
theorem compareSelectMove : Obligations.CompareSelectMove := by
  intro s c cl u d p cd a b
  refine ⟨fun sg w ht h => h.sets rfl (Issue.withInt_of_intType ht _), fun h => h.results rfl ?_,
    fun h => h.results rfl rfl⟩
  simp only [Issue.pbits, Nat.mod_eq_of_lt (modeSel_lt _)]
  rfl

/-- Settles O6: each of these words is a continuation of `withInt` or `withFloat`, which raises ILLTYPE first. -/
theorem wrongTypeRaisesIlltype : Obligations.WrongTypeRaisesIlltype := by
  intro i s c cl h
  refine ⟨fun ht hi => ?_, fun ht hi => ?_⟩
  · cases i with
    | iadd | isub | imul | imulh | imad | imin | imax | iabs | and | or | xor | andn | shl | shr | sar | rol | bfe | bfi
    | popc | clz | brev | icmp | iaddi | movi | movhi | andi | ori | xori | imuli =>
      exact h.raises rfl (Issue.withInt_of_none ht _)
    | _ => exact hi.elim
  · cases i with
    | fadd | fsub | fmul | ffma | fmin | fmax | fabs | fneg | fcmp | frcp | frsq | fsqrt | fexp2 | flog2 | fsin | fcos
    | frnd | ffrac | fdot2 | fclass | fmulb => exact h.raises rfl (Issue.withFloat_of_none ht _)
    | _ => exact hi.elim

end Sys2Proof.Machine
end

section
/-! Words that change their path (O14), transfers (O17) and their misaligned targets (O18). -/
namespace Sys2Proof.Machine

/-! ### What a word's reads leave -/

section
variable {c : Issue} {i : Instr} {m : DWord} {val : Dst → Nat → Word}

/-- The registers of an issue whose sources count as read, and nothing else (R27, R108). -/
theorem Stage1.reads : Stage1 c ((c.noteReads (i.reads c.p.mode)).releaseReads (i.reads c.p.mode) []) [] m val
    (c.lastReads i []) (c.readsUnmapped i) 0 c.pbits :=
  (Stage1.note m val (i.reads c.p.mode)).releaseReads (i.reads c.p.mode)

/-- A word without a v source leaves the registers as they are. -/
theorem Stage1.refl_of_noV (hv : (i.reads c.p.mode).flatMap vNames = []) (hl : (i.reads c.p.mode).flatMap lastNames = []) :
    Stage1 c c [] m val (c.lastReads i []) (c.readsUnmapped i) 0 c.pbits := by
  have hlast : c.lastReads i [] = fun _ => false := by
    funext n
    simp only [Issue.lastReads, hl, List.contains_nil, Bool.and_false, Bool.false_and]
  have hunmapped : c.readsUnmapped i = false := by
    rw [Issue.readsUnmapped, List.any_eq_false]
    intro e he
    rw [List.flatMap_eq_nil_iff.mp hv e he]
    exact Bool.false_ne_true
  rw [hlast, hunmapped]
  exact Stage1.refl c m val

end

/-! ### Words that go on, and words that go elsewhere -/

section
variable {i : Instr} {s : State} {c c' : Issue} {cl : ClauseState} {body : Issue → Eff} {ds : List Dst}
  {val : Dst → Nat → Word}

theorem Issuing.running (h : Issuing i s c cl) : c.p.park = .running := by
  obtain ⟨-, -, -, -, hpark, -⟩ := State.issue?_spec h.path
  exact hpark

/-- A word that changes its path by `F` and goes on with the next word (R71). -/
theorem Issuing.goesOn (h : Issuing i s c cl) (he : exec i s = issue i body s) {F : Path → Path}
    (hF : (F c.p).park = .running) (hb : body c = .done { c' with p := F c'.p })
    (d : Stage1 c c' ds c.p.mask val (c.lastReads i ds) (c.readsUnmapped i) 0 c.pbits) :
    c.Leaves i s ds val (F c.p).advance (fun b => b) :=
  h.leaves he d (ended := (F c.p).advance.clause.isNone) hF rfl (by rw [hb, Group.setBank_bank, ← d.k, ← d.p]; rfl)

/-- A word that sends its path to a header (R72). -/
theorem Issuing.goesTo (h : Issuing i s c cl) (he : exec i s = issue i body s) {pc : Word} (hb : body c = .goto c' pc)
    (d : Stage1 c c' ds c.p.mask val (c.lastReads i ds) (c.readsUnmapped i) 0 c.pbits) :
    c.Leaves i s ds val (c.p.toHeader pc) (fun b => b) :=
  h.leaves he d (ended := true) h.running rfl (by rw [hb, Group.setBank_bank, ← d.k, ← d.p]; rfl)

end

/-- Settles O14: each word is a change of its path's record, after its reads (`Issuing.goesOn`). -/
theorem pathWordsChangeTheirPath : Obligations.PathWordsChangeTheirPath := by
  intro s c cl imm off u a
  refine ⟨fun h => ?_, fun h => ?_, fun hj h => ?_, fun h => ?_⟩
  · exact h.goesOn (F := fun p => p) rfl h.running rfl (Stage1.refl_of_noV rfl rfl)
  · exact h.goesOn (F := fun p => { p with mode := imm }) rfl h.running rfl (Stage1.refl_of_noV rfl rfl)
  · exact h.goesOn (F := fun p => { p with pjoin := some (jumpTarget c.p.pc off.toInt) }) rfl h.running (by rw [hj])
      (Stage1.refl_of_noV rfl rfl)
  · have hs := State.issue?_s h.path
    subst hs
    exact h.goesOn (F := fun p => { p with drain := c.textureReads }) rfl h.running rfl Stage1.reads

/-! ### Transfers -/

section
variable (c : Issue) (neg : Bool) (p : Fin 8) {l : Nat} (hl : l < 64)

/-- The lane's predicate bit, against the sense of the branch (R73). -/
def Issue.taken (l : Nat) : Bool := c.pbits p l != neg

include hl

/-- The taken set holds the lanes of the mask whose predicate bit the branch asks for (R73). -/
theorem Issue.split_taken : (c.split neg p).1.getLsbD l = (c.p.mask.getLsbD l && c.taken neg p l) := by
  unfold Issue.split Issue.taken Issue.pbits Group.pbit
  cases neg <;> simp [hl]

/-- The other set holds the rest of the mask (R73). -/
theorem Issue.split_rest : (c.split neg p).2.getLsbD l = (c.p.mask.getLsbD l && !c.taken neg p l) := by
  have hrest : (c.split neg p).2 = c.p.mask &&& ~~~(c.split neg p).1 := rfl
  rw [hrest, BitVec.getLsbD_and, BitVec.getLsbD_not, c.split_taken neg p hl]
  cases c.p.mask.getLsbD l <;> simp [hl]

end

/-- A mask that holds the lanes of another one where a test is true. -/
theorem lanesIn_any_iff {m t : DWord} {f : Nat → Bool} (ht : ∀ l, l < 64 → t.getLsbD l = (m.getLsbD l && f l)) :
    (lanesIn m).any f = true ↔ t ≠ 0 := by
  rw [Ne, ← lanesIn_eq_nil, List.eq_nil_iff_forall_not_mem, not_forall_not, List.any_eq_true]
  refine exists_congr fun l => ?_
  rw [mem_lanesIn, mem_lanesIn, and_assoc]
  refine and_congr_right fun hl => ?_
  rw [ht l hl, Bool.and_eq_true]

/-- BC's condition on its two sets, lane by lane (R73). -/
theorem Issue.branches_iff (c : Issue) (neg : Bool) (p : Fin 8) (all : Bool) :
    (if all then (c.split neg p).2 = 0 else (c.split neg p).1 ≠ 0) ↔
      (if all then (lanesIn c.p.mask).all (c.taken neg p) else (lanesIn c.p.mask).any (c.taken neg p)) = true := by
  cases all with
  | false => exact (lanesIn_any_iff (fun _ hl => c.split_taken neg p hl)).symm
  | true =>
    have hrest := lanesIn_any_iff (fun _ hl => c.split_rest neg p hl)
    simp only [if_true, List.all_eq_not_any_not, Bool.not_eq_true', ← Bool.not_eq_true, hrest, not_not]

/-- BRX and CALLX read their target before they go (R75). -/
theorem Issue.target_of_aligned {c : Issue} {a : Src} (h : (c.control a c.p.mask).toNat % 4 = 0) (i : Instr)
    (k : Issue → Word → Eff) : c.target i a k =
      k ((c.noteReads (i.reads c.p.mode)).releaseReads (i.reads c.p.mode) []) (c.control a c.p.mask) :=
  if_neg (not_not_intro h)

/-- A misaligned target (R76). -/
theorem Issue.target_of_misaligned {c : Issue} {a : Src} (h : (c.control a c.p.mask).toNat % 4 ≠ 0) (i : Instr)
    (k : Issue → Word → Eff) : c.target i a k = .raise (mkTrap .misalign) := if_pos h

/-- The link register holds the place after the word (R74). -/
theorem Stage1.link {c0 c : Issue} {m val rel um fl pv} (d : Stage1 c0 c [] m val rel um fl pv)
    (hval : val (.s 63) (lowestLane m) = c0.p.pc + 4) : Stage1 c0 c.link [.s 63] m val rel um fl pv := by
  have := d.writeS 63
  rw [hval, ← d.p] at this
  exact this

/-- Settles O17: each transfer goes to its target (`Issuing.goesTo`), CALL and CALLX after writing the link. -/
theorem transfersGoToTheirTarget : Obligations.TransfersGoToTheirTarget := by
  intro s c cl off off19 neg all p a
  refine ⟨fun h => ?_, fun h => ?_, fun h => ?_, fun hal h => ?_, fun hal h => ?_, fun hal h => ?_⟩
  · exact h.goesTo rfl rfl (Stage1.refl_of_noV rfl rfl)
  · exact h.goesTo rfl (congrArg (Eff.goto c) (if_congr (c.branches_iff neg p all) rfl rfl))
      (Stage1.refl_of_noV rfl rfl)
  · exact h.goesTo rfl rfl ((Stage1.refl_of_noV rfl rfl).link rfl)
  · exact h.goesTo rfl (if_neg (not_not_intro hal)) (Stage1.refl_of_noV rfl rfl)
  · exact h.goesTo rfl (Issue.target_of_aligned hal _ _) Stage1.reads
  · exact h.goesTo rfl (Issue.target_of_aligned hal _ _) (Stage1.reads.link rfl)

/-- Settles O18: the test of the target comes before any other effect. -/
theorem misalignedTargetRaisesMisalign : Obligations.MisalignedTargetRaisesMisalign := by
  intro s c cl a
  refine ⟨fun hmis h => h.raises rfl (if_pos hmis), fun hmis => ⟨fun h => ?_, fun h => ?_⟩⟩
  · exact h.raises rfl (Issue.target_of_misaligned hmis _ _)
  · exact h.raises rfl (Issue.target_of_misaligned hmis _ _)

end Sys2Proof.Machine
end

section
/-! YIELD (O26), and an EXIT that changes another group (O25, refuted). -/
namespace Sys2Proof.Machine

/-! ### A word that leaves its group with groups to wait for -/

theorem Group.owed_own (g : Group) (k : Nat) : (g.own k).owed = g.owed := by
  unfold Group.own Group.disown Group.setSlot
  split <;> rfl

/-- A list of owed groups without the group itself is no shorter for a clause that the group ends (R113). -/
theorem filter_owed_eq_self {l : List (Nat × Bool × Bool)} {n : Nat} (h : ∀ e ∈ l, e.1 ≠ n) (k : Nat) :
    l.filter (fun e => !(e.1 = n && (if k = 0 then e.2.1 else e.2.2))) = l := by
  rw [List.filter_eq_self]
  intro e he
  simp [h e he]

/-- A word that ends its clause, of a group whose path runs and that does not wait for itself: the group, the others, the
rest (R18, R112, R113). -/
theorem Issue.commit_moves_owed {c : Issue} {G : Group} {k : Nat} {p : Path} (hk : G.slot k = some p)
    (hp : p.park = .running) (hs : (c.s.group? G.id).isSome) (howed : ∀ e ∈ G.owed, e.1 ≠ G.id) :
    Moves c.s k G (c.commit G true) := by
  let s' : State := { c.s with issues := c.s.issues + 1 }
  let g : Group := G.counted c.s.issues
  obtain ⟨hsettle, hown, hid⟩ := State.settle_running (s := s') (g := g) hk hp hs
  have howed' : (g.joins 80).owed = G.owed := by
    rw [← Group.owed_own _ k, hown, Group.owed_own]
    rfl
  have hself : (s'.setGroup (g.joins 80)).group? G.id = some (g.joins 80) :=
    hid ▸ State.group?_setGroup_self (s := s') (g := g.joins 80) (hid ▸ hs)
  have hcommit : c.commit G true = (s'.setGroup (g.joins 80)).clauseIssued G.id c.k :=
    congrArg (·.clauseIssued G.id c.k) hsettle
  rw [hcommit]
  refine ⟨rfl, ⟨g.joins 80, ?_, hown⟩, fun n hn => ?_⟩
  · rw [State.group?_clauseIssued, hself, Option.map_some, howed', filter_owed_eq_self howed, ← howed']
  · rw [State.group?_clauseIssued, State.group?_setGroup_other (by rw [hid]; exact hn), Option.map_map]
    rfl

theorem Group.noJoin_setSlot {g : Group} (h : g.noJoin = true) {q : Path} (hq : q.atJoin = none) (k : Nat) :
    (g.setSlot k (some q)).noJoin = true := by
  unfold Group.noJoin at h ⊢
  unfold Group.setSlot
  rw [List.all_append, Bool.and_eq_true] at h
  split
  · simp [hq, h.2]
  · simp [hq, h.1]

/-- A group that waits for others waits with every word (R113). -/
theorem Issue.holds_of_owed {c : Issue} (h : c.g.owed ≠ []) (i : Instr) (cl : ClauseState) : c.holds i cl = true := by
  have howed : (!c.g.owed.isEmpty) = true := by rwa [Bool.not_eq_true', List.isEmpty_eq_false_iff]
  simp only [Issue.holds, howed, Bool.or_true, Bool.true_or]

/-- Settles O26: the group is committed at the next header with the others in its list, which it is not in itself. -/
theorem yieldOwesTheOthersAClause : Obligations.YieldOwesTheOthersAClause := by
  constructor
  · intro s c cl h others G
    obtain ⟨hs, -, hg, -, hrun, -⟩ := State.issue?_spec h.path
    subst hs
    have hid : G.id = c.g.id := Group.setSlot_id ..
    have hsome : (c.s.group? G.id).isSome := by rw [hid, hg]; rfl
    have hslot : G.slot c.k = some (c.p.toHeader (c.p.pc + 4)) := Group.slot_setSlot_self ..
    have howed : ∀ e ∈ G.owed, e.1 ≠ G.id := by
      intro e he
      rw [Group.setSlot_owed, List.mem_map] at he
      obtain ⟨x, hx, rfl⟩ := he
      have hother := (List.mem_filter.mp hx).2
      simp only [Bool.and_eq_true, decide_eq_true_eq] at hother
      rw [hid]
      exact hother.1.1.2
    have hnot : (c.p.toHeader (c.p.pc + 4)).atJoin = none := Path.atJoin_of_running hrun
    have hexec : exec .yield_ c.s = .next (c.commit G true) := issue_of_issuing h _
    refine ⟨⟨_, hexec, Issue.commit_moves_owed hslot hrun hsome howed⟩, fun hjoin => ⟨_, hexec, ?_⟩⟩
    have hjoin' : ({ c.g with owed := others.map (fun x => (x.id, false, false)) } : Group).noJoin = true := hjoin
    exact Issue.commit_becomes hslot (Group.noJoin_setSlot hjoin' hnot c.k) hsome howed
  · exact fun c cl i _ howed => c.holds_of_owed howed i cl

/-! ### An EXIT that changes another group -/

/-- A sheaf that nothing but its group's record of it keeps. -/
def exitSheaf : Sheaf where
  id := 9
  ctx := 0
  grid := 1
  v := []
  s := []
  stag := []
  p := []
  x := []
  mode := 0
  pjoin := none
  mask := 0
  trapvec := 0
  lines := 0
  scratch := []
  depth := 1
  start := 0
  imageCap := 0

/-- Group 3 stands at its EXIT and holds sheaf 9 as its nested one; register v0 of the resident group 4 is shared with it. -/
def exitState : State :=
  let s := State.reset.placeWord 0
  { s with
    sheaves := [exitSheaf]
    groups := s.groups.flatMap (fun g => [{ g with nested := some 9 },
      { g with id := 4, pos := 1, v := putNth none g.v 0 (some { lanes := [], sheaf := some 9 }) }]) }

/-- The sheaf that register v0 of group 4 is shared with. -/
def State.sharedBy4 (s : State) : Option Nat :=
  ((s.group? 4).map Group.plain).bind (fun g => (nth g.v 0 none).bind VMap.sheaf)

/-- The same after an outcome. -/
def sharedAfter : Result → Option Nat
  | .next t => t.sharedBy4
  | .fault _ => none
  | .refused _ => none

/-- EXIT issues there for group 3, as its last word. -/
theorem exitState_exits : ∃ c cl, Issuing .exit exitState c cl ∧ c.g.id = 3 ∧ c.g.slot (1 - c.k) = none ∧
    c.bank.spill = [] ∧ c.g.bank0.spill = [] ∧ c.g.bank1.spill = [] ∧ c.g.pend = [] ∧
    c.g.bank0.raised = [] ∧ c.g.bank1.raised = [] := by
  have h : exitState.issue?.any (fun c => c.p.clause.any (fun cl => decide (
      Instr.exit.wf = true ∧ misplaced .exit cl = false ∧ c.mustStop .exit = false ∧ c.holds .exit cl = false ∧
      c.meetsPoison .exit = false ∧ c.g.id = 3 ∧
      c.g.slot (1 - c.k) = none ∧ c.bank.spill = [] ∧ c.g.bank0.spill = [] ∧ c.g.bank1.spill = [] ∧ c.g.pend = [] ∧
      c.g.bank0.raised = [] ∧ c.g.bank1.raised = []))) = true := by decide +kernel
  obtain ⟨c, hpath, h⟩ := (Option.any_eq_true _ _).mp h
  obtain ⟨cl, hclause, h⟩ := (Option.any_eq_true _ _).mp h
  obtain ⟨hwf, hposition, hruns, hfree, hclean, hlast⟩ := of_decide_eq_true h
  exact ⟨c, cl, ⟨hpath, hclause, hwf, hposition, hruns, hfree, hclean⟩, hlast⟩

theorem exitState_shared : exitState.sharedBy4 = some 9 := by decide +kernel

theorem exitState_unshared_after_exit : sharedAfter (exec .exit exitState) = none := by decide +kernel

/-- Refutes O25: its last clause leaves every other group as it was, but for the lists of R113. Where the group that ends
holds a sheaf as its nested one, the sheaf is discarded with it, and a register that another resident group shares with the
sheaf is that group's own from then on (`State.dropSheaves`, R151): in `exitState`, register v0 of group 4. -/
theorem not_exitEndsThePath : ¬ Obligations.ExitEndsThePath := by
  intro h
  obtain ⟨c, cl, hissuing, hid, hslot, hspill, hspill0, hspill1, hpend, hraised0, hraised1⟩ := exitState_exits
  obtain ⟨-, -, -, hends⟩ := h exitState c cl hissuing
  obtain ⟨t, ht, -, -, -, hothers⟩ := hends hslot hspill hspill0 hspill1 hpend hraised0 hraised1
  have hkept : t.sharedBy4 = exitState.sharedBy4 :=
    congrArg (fun o => o.bind (fun g : Group => (nth g.v 0 none).bind VMap.sheaf)) (hothers 4 (by rw [hid]; decide))
  have hunshared : t.sharedBy4 = none := by
    have hafter := exitState_unshared_after_exit
    rw [ht] at hafter
    exact hafter
  rw [hkept, exitState_shared] at hunshared
  cases hunshared

end Sys2Proof.Machine
end

section
/-! Taking a trap (O47). -/
namespace Sys2Proof.Machine

/-! ### User traps that a frame does not report -/

/-- A fold whose every step leaves its value. -/
theorem foldl_eq_self_of_mem {α β : Type} {f : α → β → α} {a : α} {l : List β} (h : ∀ b ∈ l, f a b = a) :
    l.foldl f a = a := by
  induction l with
  | nil => rfl
  | cons b l ih =>
    rw [List.foldl_cons, h b List.mem_cons_self]
    exact ih fun x hx => h x (List.mem_cons_of_mem b hx)

/-- Where the frame reports every user trap of the half, no path goes back (R79). -/
theorem Group.unraise_of_reported {g : Group} {half seq : Nat}
    (h : ∀ r ∈ (g.bank half).raised, r.user = none ∨ r.seq = seq) : g.unraise half seq = g := by
  refine foldl_eq_self_of_mem fun r hr => ?_
  rcases h r hr with hnone | hseq
  · simp only [hnone]
  · simp only [hseq, if_true]
    split <;> rfl

/-- The path of a user trap that no frame reports stands at the TRAP again, in its clause (R79). -/
theorem Group.unraise_of_user {g : Group} {half k seq : Nat} {t : Trap} {cl : ClauseState}
    (hraised : (g.bank half).raised = [t]) (huser : t.user = some (k, cl)) (hseq : t.seq ≠ seq) :
    g.unraise half seq = g.mapSlot k (fun p => { p with pc := t.pc, clause := some cl }) := by
  simp only [Group.unraise, hraised, List.foldl_cons, List.foldl_nil, huser, if_neg hseq]

@[simp] theorem Group.bank_mapSlot (g : Group) (k : Nat) (f : Path → Path) (half : Nat) :
    (g.mapSlot k f).bank half = g.bank half := Group.bank_setSlot ..

/-! ### A half that is ready -/

section
variable {s : State} {g : Group} {half : Nat} {tr : Trap}

/-- A ready half of a resident group takes its trap (R304). -/
theorem exec_trapDelivery_of_ready (hg : s.group? g.id = some g) (hres : g.resident = true)
    (hready : g.readyFrame half = true) (hheld : s.dieHeld (g.core / 64) = false) :
    exec (.trapDelivery g.id half) s = .next (s.takeTrap encode g half) := by
  show execTrapDelivery g.id half s = _
  simp only [execTrapDelivery, hg, hres, hready, hheld, Bool.not_false, Bool.and_self, if_true]

variable (hfirst : g.firstTrap half = some tr) (hreported : ∀ r ∈ (g.bank half).raised, r.user = none ∨ r.seq = tr.seq)
include hfirst hreported

/-- A fault under a handler (R307). -/
theorem State.takeTrap_of_live (word : Instr → Word) {l : LiveFrame} (hlive : (g.bank half).live = some l) :
    s.takeTrap word g half = s.doubleFault g l.trap tr := by
  simp only [State.takeTrap, hfirst, Option.map_some, Option.getD_some, Group.unraise_of_reported hreported, hlive]

/-- A fault without a handler (R307). -/
theorem State.takeTrap_of_noHandler (word : Instr → Word) (hlive : (g.bank half).live = none)
    (hvec : (g.bank half).trapvec = noHandler) : s.takeTrap word g half = s.doubleFault g tr tr := by
  simp only [State.takeTrap, hfirst, Option.map_some, Option.getD_some, Group.unraise_of_reported hreported, hlive, hvec,
    if_true]

end

/-! ### The frame and the handler -/

/-- The records that the frame of a half holds, and the paths of its header: a half of a ganged group is path 0 (R306). -/
def Group.framePaths (g : Group) (half : Nat) : Option Path × Option Path :=
  if g.ganged then (g.slot half, none) else (g.slot0, g.slot1)

/-- The half's unfinished instructions, as the replay queue holds them (R305). -/
def Group.replayed (g : Group) (half : Nat) : List Pend :=
  (g.pend.filter (fun p => decide (p.half = half) && !p.isFetch)).map Pend.queue

/-- The registers that the frame saves for the handler (Table 21.3). -/
def Bank.saved (b : Bank) : List Word := [b.sreg 60, b.sreg 61, b.sreg 62, b.sreg 63]

/-- The bytes of a frame, by their offsets in slot 1 (R306 to R308). -/
def Group.trapPieces (g : Group) (word : Instr → Word) (half : Nat) (tr : Trap) : List (Nat × List Byte) :=
  let b := g.bank half
  let mine := g.replayed half
  let blocks := mine.flatMap Pend.blocks
  let header := frameHeader tr none b.spill.length mine.length blocks.length (g.framePaths half).1 (g.framePaths half).2
    b.saved (b.quadTag 15)
  (framePieces header (layEntries g.ganged word mine 0) blocks).map (fun e => (16384 * b.trapframe.toNat + e.1, e.2))

/-- What the half keeps of its frame while the handler runs (R309). -/
def Group.liveFrame (g : Group) (half : Nat) (tr : Trap) : LiveFrame :=
  let b := g.bank half
  let paths := g.framePaths half
  { frame := b.trapframe.toNat, trap := tr, entries := g.replayed half, ssave := b.saved, stag := b.quadTag 15,
    spillDepth := b.spill.length,
    drains := ((paths.1.map Path.drain).getD [], (paths.2.map Path.drain).getD []),
    joined := ((paths.1.map Path.waitsAtJoin).getD false, (paths.2.map Path.waitsAtJoin).getD false) }

/-- The group with the half's handler as its only path (R305). -/
def Group.inHandler (g : Group) (half : Nat) (tr : Trap) : Group :=
  let b := g.bank half
  let handler : Path := { pc := b.trapvec, mask := g.fullMask half, flags := List.replicate 12 0 }
  let h := ({ g with pend := g.pend.filter (fun p => p.half ≠ half), demote := none } : Group).setBank half
    { b with raised := [], live := some (g.liveFrame half tr) }
  if g.ganged then h.setSlot half (some handler) else (h.setSlot 0 (some handler)).setSlot 1 none

/-- With a handler, the frame is written, and the handler starts where that succeeds (R305 to R307). -/
theorem State.takeTrap_of_handler {s : State} {g : Group} {half : Nat} {tr : Trap} (hfirst : g.firstTrap half = some tr)
    (hreported : ∀ r ∈ (g.bank half).raised, r.user = none ∨ r.seq = tr.seq) (word : Instr → Word) {c : Context}
    {x : XReg} (hctx : s.contextOf g = some c) (hcap : s.frameCap c = some x)
    (hhalf : half = 0 ∨ half = 1 ∧ g.ganged = true)
    (hlive : (g.bank half).live = none) (hvec : (g.bank half).trapvec ≠ noHandler) :
    s.takeTrap word g half = match s.writeThrough g.core c x (g.trapPieces word half tr) with
      | .error e => s.doubleFault g tr { e with pc := tr.pc }
      | .ok s' => s'.setGroup (g.inHandler half tr) := by
  simp only [State.takeTrap, hfirst, Option.map_some, Option.getD_some, Group.unraise_of_reported hreported, hlive,
    if_neg hvec, hctx, hcap]
  have hpaths : g.framePaths half = (if g.ganged then g.slot half else g.slot0, if g.ganged then none else g.slot1) := by
    unfold Group.framePaths
    split <;> rfl
  simp only [Group.inHandler, Group.liveFrame, Group.trapPieces, hpaths, Group.setBank_ganged]
  -- At either half, the half's scalar state and the list of instructions are fields apart.
  rcases hhalf with rfl | ⟨rfl, -⟩
  · rfl
  · rfl

/-- Settles O47: a delivery to a ready half is `takeTrap`, by whether it is under a handler, has none, or has one
(`State.takeTrap_of_handler`); an unreported user trap by what `unraise` does to its path. -/
theorem takingATrap : Obligations.TakingATrap := by
  refine ⟨?_, fun _ _ _ _ => rfl, fun g half k seq t cl p hraised huser hseq hk hslot => ?_⟩
  · intro s g half tr c x hg hres hready hheld hfirst hctx hcap hhalf hreported b mine paths ssave blocks header pieces i
    have hexec : exec i s = _ := exec_trapDelivery_of_ready hg hres hready hheld
    rw [hexec]
    refine ⟨fun l hlive => ?_, fun hlive hvec => ?_, fun e hlive hvec hwrite => ?_, fun s' hlive hvec hwrite => ?_⟩
    · rw [State.takeTrap_of_live hfirst hreported encode hlive]
    · rw [State.takeTrap_of_noHandler hfirst hreported encode hlive hvec]
    · change s.writeThrough g.core c x (g.trapPieces encode half tr) = _ at hwrite
      rw [State.takeTrap_of_handler hfirst hreported encode hctx hcap hhalf hlive hvec, hwrite]
    · change s.writeThrough g.core c x (g.trapPieces encode half tr) = _ at hwrite
      rw [State.takeTrap_of_handler hfirst hreported encode hctx hcap hhalf hlive hvec, hwrite]
      rfl
  · rw [Group.unraise_of_user hraised huser hseq]
    refine ⟨?_, ?_, Group.pend_mapSlot .., Group.bank_mapSlot ..⟩
    · rw [Group.slot_mapSlot_self, hslot]
      rfl
    · exact Group.slot_setSlot_other' ..

end Sys2Proof.Machine
end

section
/-! Float words: arithmetic (O7), functions of one operand (O8), compare and dot product (O9); and conversions between
element types (O10). -/
namespace Sys2Proof.Machine

/-! ### Words in the mode's float format -/

section
variable {i : Instr} {s : State} {c : Issue} {cl : ClauseState} {u : Bool} {d : Dst} {f : FFmt}

theorem Issue.withFloat_of_floatType (h : floatType (modeType c.p.mode) = some f) (k : FFmt → Delivery → Eff) :
    c.withFloat k = k f c.typed := by
  unfold Issue.withFloat
  rw [h]
  rfl

/-- Per-element float arithmetic, from its operation on the encodings of elements (R82). -/
theorem Issuing.floatOp_results (h : Issuing i s c cl) (hf : floatType (modeType c.p.mode) = some f) (a b : Src)
    (op : FFmt → Nat → Bool → Nat → Nat → Nat → Nat × FFlags) (he : exec i s = floatOp i u d a b op s) :
    c.Results i s u d (fun l => perElem f.width (fun e => op f (modeRnd c.p.mode) (modeSat c.p.mode)
      (c.elem c.typed f.width a l e) (c.elem c.typed f.width b l e) (c.elem c.typed f.width d.asSrc l e))) :=
  h.results he (Issue.withFloat_of_floatType hf _)

end

/-- Settles O7: each word is `floatOp` with the operation of its table row. -/
theorem floatArithmetic : Obligations.FloatArithmetic := by
  intro s c cl u d a b imm f hf
  exact ⟨fun h => h.floatOp_results hf a b (fun f r sat x y _ => addVal f r sat (f.value x) (f.value y)) rfl,
    fun h => h.floatOp_results hf a b (fun f r sat x y _ => addVal f r sat (f.value x) (f.value y).neg) rfl,
    fun h => h.floatOp_results hf a b (fun f r sat x y _ => mulVal f r sat (f.value x) (f.value y)) rfl,
    fun h => h.floatOp_results hf a b (fun f r sat x y z => fmaVal f r sat (f.value x) (f.value y) (f.value z)) rfl,
    fun h => h.floatOp_results hf a b (fun f _ _ x y _ => minEnc f x y) rfl,
    fun h => h.floatOp_results hf a b (fun f _ _ x y _ => maxEnc f x y) rfl,
    fun h => h.floatOp_results hf a a (fun f _ _ x _ _ => (x % f.signBit, 0)) rfl,
    fun h => h.floatOp_results hf a a (fun f _ _ x _ _ => ((x + f.signBit) % 2 ^ f.width, 0)) rfl,
    fun h => h.floatOp_results hf d.asSrc d.asSrc
      (fun f r sat _ _ z => mulVal f r sat (f.value z) (FFmt.bf16.value imm.toNat)) rfl⟩

/-- Settles O8: each word is `floatOp` with the function of its one operand, in the place of both. -/
theorem floatFunctions : Obligations.FloatFunctions := by
  intro s c cl u d a f hf
  exact ⟨fun h => h.floatOp_results hf a a (fun f r sat x _ _ => rcpVal f r sat (f.value x)) rfl,
    fun h => h.floatOp_results hf a a (fun f r sat x _ _ => rsqVal f r sat (f.value x)) rfl,
    fun h => h.floatOp_results hf a a (fun f r sat x _ _ => sqrtVal f r sat (f.value x)) rfl,
    fun h => h.floatOp_results hf a a (fun f r sat x _ _ => exp2Val f r sat x) rfl,
    fun h => h.floatOp_results hf a a (fun f r sat x _ _ => log2Val f r sat x) rfl,
    fun h => h.floatOp_results hf a a (fun f r sat x _ _ => sinVal f r sat x) rfl,
    fun h => h.floatOp_results hf a a (fun f r sat x _ _ => cosVal f r sat x) rfl,
    fun h => h.floatOp_results hf a a (fun f r _ x _ _ => rndVal f r (f.value x)) rfl,
    fun h => h.floatOp_results hf a a (fun f r sat x _ _ => fracVal f r sat (f.value x)) rfl,
    fun h => h.floatOp_results hf a a (fun f _ _ x _ _ => (classOf f x, 0)) rfl⟩

/-- Settles O9: FCMP's pairs of elements are read as two sources; FDOT2 has the two packed formats only. -/
theorem floatCompareAndDot : Obligations.FloatCompareAndDot := by
  intro s c cl u d p cd a b f hf
  refine ⟨fun h => ?_, fun h => ?_⟩
  · have hfcmp := h.sets rfl (Issue.withFloat_of_floatType hf _)
    simp only [List.all_map, List.any_map] at hfcmp
    exact hfcmp
  · by_cases hwide : f = .fp32
    · rw [if_pos hwide]
      exact h.raises rfl ((Issue.withFloat_of_floatType hf _).trans (if_pos hwide))
    · rw [if_neg hwide]
      exact h.results rfl ((Issue.withFloat_of_floatType hf _).trans (if_neg hwide))

/-! ### Conversions -/

/-- CVT's word element by element (R93): the choice between filling a part of d and reading a part of a, made per element. -/
theorem cvtWord_eq_perElem (src dst : ElemType) (pos rnd : Nat) (sat : Bool) (x old : Word) :
    cvtWord src dst pos rnd sat x old = perElem (elemKind dst).bits (fun e =>
      if src.elems < dst.elems then
        (if pos * src.elems ≤ e ∧ e < pos * src.elems + src.elems then
          convElem (elemKind src) (elemKind dst) rnd sat (elemNat x (elemKind src).bits (e - pos * src.elems))
          else (elemNat old (elemKind dst).bits e, 0))
      else if e < dst.elems then
        convElem (elemKind src) (elemKind dst) rnd sat (elemNat x (elemKind src).bits (pos * dst.elems + e))
      else (0, 0)) := by
  by_cases hfewer : src.elems < dst.elems
  · simp only [cvtWord, if_pos hfewer]
  · simp only [cvtWord, if_neg hfewer]

/-- Settles O10: CVT by whether its types have the position (`cvtWord_eq_perElem` where they have), PACK and UNPK by whether
the mode's type has a wide type, UNPK of nibbles by whether it has bytes. -/
theorem conversionsByElement : Obligations.ConversionsByElement := by
  intro s c cl u d a b pos dst i4 hi
  refine ⟨fun h => ?_, fun h => ?_, fun h => ?_⟩
  · by_cases hpos : pos.val < max (modeType c.p.mode).elems dst.elems / min (modeType c.p.mode).elems dst.elems
    · simp only [if_neg hpos.not_ge, ← cvtWord_eq_perElem]
      exact h.results rfl (if_pos hpos)
    · simp only [if_pos (Nat.le_of_not_lt hpos)]
      exact h.raises rfl (if_neg hpos)
  · cases hwide : wideType (modeType c.p.mode) with
    | none => exact h.raises rfl (by simp only [hwide])
    | some wt => exact h.results rfl (by simp only [hwide] <;> rfl)
  · cases i4 with
    | true =>
      by_cases hbytes : modeType c.p.mode = .i8x4 ∨ modeType c.p.mode = .n8x4
      · simp only [if_pos hbytes]
        exact h.results rfl (if_pos hbytes)
      · simp only [if_neg hbytes]
        exact h.raises rfl (if_neg hbytes)
    | false =>
      cases hwide : wideType (modeType c.p.mode) with
      | none => exact h.raises rfl (by simp only [hwide] <;> rfl)
      | some wt => exact h.results rfl (by simp only [hwide] <;> rfl)

end Sys2Proof.Machine
end

section
/-! Words that park their path (O28). -/
namespace Sys2Proof.Machine

/-- What a word leaves in flight stands last among its group's instructions. -/
theorem Issue.fly_setLast (c : Issue) (i : Instr) (m : DWord) (edit : Issue → Pend → Pend) :
    (c.fly i m edit).1.g.setLast (c.fly i m edit).2 = (c.fly i m edit).1.g := by
  obtain ⟨c1, -, hfly⟩ := c.fly_stage i m edit
  rw [hfly]
  simp [Group.setLast]

section
variable {i : Instr} {s : State} {c : Issue} {cl : ClauseState}

/-- A word that flies leaves the machine as it was but for the number that it takes, and its group's place (R19). -/
theorem Issuing.fly_keeps (h : Issuing i s c cl) (m : DWord) (edit : Issue → Pend → Pend) :
    (c.fly i m edit).1.s = s.numbered ∧ (c.fly i m edit).1.p.park = .running ∧
      ∃ (G : Group) (l : List Pend), (c.fly i m edit).1.g = { G with pend := l } ∧ ∀ b, G.frame b = c.g.frame b := by
  obtain ⟨c1, d, hfly⟩ := c.fly_stage i m edit
  obtain ⟨hs, -, -, -, hpark, -⟩ := State.issue?_spec h.path
  rw [hfly]
  refine ⟨?_, ?_, c1.g, _, rfl, d.did.frame⟩
  · show ({ c1.s with fresh := c1.s.fresh + 1 } : State) = _
    rw [d.s, hs]
    rfl
  · show (c1.p.rise _).park = _
    rw [d.p]
    unfold Path.rise
    split <;> exact hpark

/-- A word whose path parks on it, unless its checks fault (R101, R133, R191). -/
theorem Issuing.parks (h : Issuing i s c cl) {park : Nat → Park} (he : exec i s = flyParked i park s)
    (hp : ∀ a n, park a ≠ .join n) (hm : c.emask ≠ 0) :
    let r := s.numbered.checkPend c.g (c.flown i c.emask)
    c.Flies i s r.1 r.2 (if r.1.isFaulted then .running else park r.1.id) := by
  intro r
  obtain ⟨hs, hrun, G, l, hg, hframe⟩ := h.fly_keeps c.emask (captureCap i)
  obtain ⟨hgroups, hmask, hflag⟩ := State.checkPend_keeps s.numbered c.g (c.flown i c.emask)
  have hr : (c.fly i c.emask (captureCap i)).1.s.checkPend (c.fly i c.emask (captureCap i)).1.g
      (c.fly i c.emask (captureCap i)).2 = r := by
    rw [hs, hg, State.checkPend_congr hframe]
    rfl
  refine h.flies he (edit := captureCap i) (m := c.emask) ?_ (hmask.trans (c.flown_lmask i _)) hflag hgroups ?_
  · simp only [if_neg hm, hr]
    cases r.1.isFaulted with
    | true => simp only [if_true, ← hrun]
    | false => rfl
  · intro n
    split
    · exact Park.noConfusion
    · exact hp _ n

end

/-- What REPACK tests of its barrier it reads from its team and the other groups of the team (R275). -/
theorem State.repackFault_congr {g G : Group} (h : ∀ b, G.frame b = g.frame b) (s : State) (l : List Pend) (k n : Nat) :
    s.repackFault { G with pend := l } k n = s.repackFault g k n := by
  have hid : G.id = g.id := (congrArg Group.id (h g.bank0) :)
  have hteam : G.team = g.team := (congrArg Group.team (h g.bank0) :)
  unfold State.repackFault
  rw [hid, hteam]

section
variable {s : State} {c : Issue} {cl : ClauseState} {k m : Fin 16} {d e : Fin 64}
  (h : Issuing (.repack k m d e) s c cl)
include h

/-- REPACK with another path, a spilled set or in a ganged group (R275). -/
theorem Issuing.repack_illegal (hnot : c.g.ganged = true ∨ c.other.isSome ∨ c.bank.spill ≠ []) :
    exec (.repack k m d e) s = .next (c.raise trIllegal) :=
  h.raises rfl (if_pos (by simpa [or_assoc] using hnot))

/-- A REPACK over some lanes in a native group of one path and no spilled set flies: it faults on a barrier that it may not
use, and otherwise parks its path in a barrier wait (R275). -/
theorem Issuing.repack_flies (halone : ¬ (c.g.ganged = true ∨ c.other.isSome ∨ c.bank.spill ≠ []))
    (hm : c.emask ≠ 0) :
    let q := c.flown (.repack k m d e) c.emask
    if s.numbered.repackFault c.g k.val m.val then
      c.Flies (.repack k m d e) s { q with status := .faulted { cause := .barrier, pc := c.p.pc, seq := s.fresh + 1 } }
        s.numbered.numbered .running
    else c.Flies (.repack k m d e) s q s.numbered (.barrier q.id) := by
  intro q
  have hfly : (c.fly (.repack k m d e) c.emask (fun _ p => p)).2 = q := rfl
  obtain ⟨hs, hrun, G, l, hg, hframe⟩ := h.fly_keeps c.emask (fun _ p => p)
  have halone' : ¬ (c.g.ganged || c.other.isSome || !c.bank.spill.isEmpty) = true := by simpa [or_assoc] using halone
  have hfault : s.numbered.repackFault (c.fly (.repack k m d e) c.emask (fun _ p => p)).1.g k.val m.val =
      s.numbered.repackFault c.g k.val m.val := by
    rw [hg, State.repackFault_congr hframe]
  split
  · next hbad =>
    refine h.flies rfl (edit := fun _ p => p) (m := c.emask) ?_ (c.flown_lmask _ _) rfl rfl (fun _ => Park.noConfusion)
    simp only [if_neg halone', if_neg hm, hs, hfault, hbad, if_true, ← hrun]
    rfl
  · next hgood =>
    refine h.flies rfl (edit := fun _ p => p) (m := c.emask) ?_ (c.flown_lmask _ _) rfl rfl (fun _ => Park.noConfusion)
    simp only [if_neg halone', if_neg hm, hs, hfault, if_neg hgood, ← hfly, Issue.fly_setLast]

end

/-- Settles O28: LNCH .w and WAITA are `flyParked` (`Issuing.parks`); REPACK by its form, its mask and its barrier. -/
theorem parkingWordsParkTheirPath : Obligations.ParkingWordsParkTheirPath := by
  intro s c cl u ne x a sc sp n k m d e parks
  refine ⟨fun h => ⟨fun hm => ?_, fun hm => ?_⟩, fun h => ⟨fun hm => ?_, fun hm => ?_⟩, fun h => ?_⟩
  · exact h.idles rfl (if_pos hm)
  · exact h.parks rfl (fun _ _ => Park.noConfusion) hm
  · exact h.idles rfl (if_pos hm)
  · exact h.parks rfl (fun _ _ => Park.noConfusion) hm
  · dsimp only
    split
    · next hnot => exact h.repack_illegal hnot
    · next halone =>
      split
      · next hm =>
        exact h.idles rfl ((if_neg (by simpa [or_assoc] using halone)).trans (if_pos hm))
      · next hm => exact h.repack_flies halone hm

end Sys2Proof.Machine
end

section
/-! Starts of teams and steals (O44). -/
namespace Sys2Proof.Machine

/-! ### The order of records (R313) -/

/-- Ranks come in the order of a dictionary. -/
theorem rankBefore_iff (a b : List Nat) : rankBefore a b = true ↔ a < b := by
  induction a generalizing b with
  | nil => cases b <;> simp [rankBefore]
  | cons x a ih =>
    cases b with
    | nil => simp [rankBefore]
    | cons y b => simp [rankBefore, ih, List.cons_lt_cons_iff]

theorem rankBefore_eq_false_iff (a b : List Nat) : rankBefore a b = false ↔ b ≤ a := by
  rw [← Bool.not_eq_true, rankBefore_iff, not_lt]

/-- A record with its rank and the place where it stands. -/
abbrev RankedRecord := List Nat × RecordPlace × Nat × DequeRecord

/-- A record is put before the first that its rank does not come after. -/
theorem insertRanked_eq_orderedInsert (e : RankedRecord) (l : List RankedRecord) :
    insertRanked e l = l.orderedInsert (fun e f : RankedRecord => e.1 ≤ f.1) e := by
  induction l with
  | nil => rfl
  | cons f l ih =>
    rw [insertRanked, List.orderedInsert_cons, ih]
    cases hf : rankBefore f.1 e.1 with
    | true => rw [if_pos rfl, if_neg (not_le.mpr ((rankBefore_iff ..).mp hf))]
    | false => rw [if_neg Bool.false_ne_true, if_pos ((rankBefore_eq_false_iff ..).mp hf)]

/-- Records put in their order one by one are an insertion sort. -/
theorem foldr_insertRanked (l : List RankedRecord) :
    l.foldr insertRanked [] = l.insertionSort (fun e f : RankedRecord => e.1 ≤ f.1) :=
  congrArg (fun f => l.foldr f []) (funext fun e => funext fun l => insertRanked_eq_orderedInsert e l)

/-- The records of a core come in the order of their rank. -/
theorem State.startable_sorted (s : State) (core : Nat) :
    (s.startable core).Pairwise (fun e f => rankBefore f.1 e.1 = false) := by
  have : Std.Total (fun e f : RankedRecord => e.1 ≤ f.1) := ⟨fun e f => le_total e.1 f.1⟩
  have : IsTrans RankedRecord (fun e f : RankedRecord => e.1 ≤ f.1) := ⟨fun e f g => le_trans⟩
  simp only [rankBefore_eq_false_iff]
  unfold State.startable
  rw [foldr_insertRanked]
  exact List.pairwise_insertionSort _ _

/-- A member of a list stands beside its place. -/
theorem mem_zip_upto {α : Type} {l : List α} {n : Nat} {a : α} (h : l[n]? = some a) :
    (n, a) ∈ (upto l.length).zip l := by
  obtain ⟨hn, rfl⟩ := List.getElem?_eq_some_iff.mp h
  rw [List.mem_iff_getElem]
  refine ⟨n, by simpa [upto] using hn, by simp [upto]⟩

/-- The records of a core's deque are among those that it may start. -/
theorem State.mem_startable_of_deque (s : State) {core n : Nat} {r : DequeRecord} (h : (s.coreAt core).deque[n]? = some r) :
    (((s.grid? r.grid).map s.rank).getD [], RecordPlace.deque, n, r) ∈ s.startable core := by
  unfold State.startable
  rw [foldr_insertRanked, List.mem_insertionSort]
  exact List.mem_append_left _ (List.mem_append_left _ (List.mem_map.mpr ⟨_, mem_zip_upto h, rfl⟩))

/-- So are those that the management cores hold. -/
theorem State.mem_startable_of_placements (s : State) {core n : Nat} {r : DequeRecord} (h : s.placements[n]? = some r) :
    (((s.grid? r.grid).map s.rank).getD [], RecordPlace.placements, n, r) ∈ s.startable core := by
  unfold State.startable
  rw [foldr_insertRanked, List.mem_insertionSort]
  exact List.mem_append_left _ (List.mem_append_right _ (List.mem_map.mpr ⟨_, mem_zip_upto h, rfl⟩))

/-- Reserved queues rank by the end of their period, other work by its launch. -/
theorem State.rank_eq {s : State} {d : Grid} {c : Context} {q : Queue} (hc : s.context? d.ctx = some c)
    (hq : c.queues.find? (fun q => q.id = d.lpb.queue) = some q) :
    s.rank d = if q.period ≠ 0 ∧ q.overrun = false ∧ q.consumed < 1000 * q.budget.toNat
      then [0, q.deadline s.clock.toNat, d.ctx, d.lpb.queue] else [1, d.launch] := by
  unfold State.rank
  simp only [hc, Option.bind_some, hq, Queue.reserved, Bool.and_eq_true, Bool.not_eq_true', decide_eq_true_eq, and_assoc]

/-! ### What keeps a record from starting -/

/-- A draw's record may start on the die that owns it, and any other on every die (R324). -/
theorem onDie_iff (die : Option Nat) (n : Nat) :
    (die.map (fun x => decide (x = n))).getD true = true ↔ die = none ∨ die = some n := by
  cases die <;> simp

/-- A core's rectangle, where every team fits (R99). -/
theorem State.rectangleFor_eq_some_iff {s : State} {core : Nat} {d : Grid} {cs : List Nat} :
    s.rectangleFor core d = some cs ↔ rectangle core d.lpb = some cs ∧ ∀ k ∈ cs, s.fits k d = true := by
  simp only [State.rectangleFor, Option.bind_eq_some_iff, Option.ite_none_right_eq_some, Option.some.injEq, List.all_eq_true]
  constructor
  · rintro ⟨l, hl, hfits, rfl⟩
    exact ⟨hl, hfits⟩
  · rintro ⟨hl, hfits⟩
    exact ⟨cs, hl, hfits, rfl⟩

theorem State.rectangleFor_eq_none_iff {s : State} {core : Nat} {d : Grid} :
    s.rectangleFor core d = none ↔ ¬ ∃ cs, rectangle core d.lpb = some cs ∧ ∀ k ∈ cs, s.fits k d = true := by
  simp only [← State.rectangleFor_eq_some_iff, Option.eq_none_iff_forall_ne_some, not_exists, ne_eq]

/-- The state without the n-th record of a place, in whose stead others stand there. -/
def State.withoutRecord (s : State) (core : Nat) (place : RecordPlace) (n : Nat) (new : List DequeRecord) : State :=
  match place with
  | .deque => s.setCore core { s.coreAt core with deque := replaceNth n new (s.coreAt core).deque }
  | .placements => { s with placements := replaceNth n new s.placements }
  | .overflow ctx => match s.context? ctx with
    | some c => s.setContext { c with overflow := replaceNth n new c.overflow }
    | none => s

/-- What starts a record of a grid that is there (R98, R99, R313, R324, R325). -/
theorem State.startRecord_eq {s : State} {core n : Nat} {rank : List Nat} {place : RecordPlace} {r : DequeRecord} {d : Grid}
    (hd : s.grid? r.grid = some d) : s.startRecord core (rank, place, n, r) = (s.rectangleFor core d).bind (fun cs =>
      if (r.die = none ∨ r.die = some (core / 64)) ∧ s.tileTurn d (core / 64) r.first = true ∧
          s.savedFirst core rank = false then
        some ((s.withoutRecord core place n r.rest).startCluster d r.first cs) else none) := by
  unfold State.startRecord
  simp only [hd]
  cases s.rectangleFor core d with
  | none => rfl
  | some cs =>
    simp only [Option.bind_some, ← onDie_iff, Bool.and_eq_true, Bool.not_eq_true', and_assoc]
    cases place <;> rfl

theorem State.startRecord_eq_none_iff {s : State} {core n : Nat} {rank : List Nat} {place : RecordPlace} {r : DequeRecord}
    {d : Grid} (hd : s.grid? r.grid = some d) : s.startRecord core (rank, place, n, r) = none ↔
      ¬ (∃ cs, rectangle core d.lpb = some cs ∧ ∀ k ∈ cs, s.fits k d = true) ∨
        (r.die ≠ none ∧ r.die ≠ some (core / 64)) ∨
        s.tileTurn d (core / 64) r.first = false ∨ s.savedFirst core rank = true := by
  rw [State.startRecord_eq hd, ← State.rectangleFor_eq_none_iff]
  cases s.rectangleFor core d with
  | none => simp
  | some cs => simp [imp_iff_not_or, not_or]

/-- The first record in rank that can start is the one that starts. -/
theorem exec_teamStart_of_first {s t : State} {core : Nat} {before after : List RankedRecord} {e : RankedRecord}
    (hl : s.startable core = before ++ e :: after) (hbefore : ∀ f ∈ before, s.startRecord core f = none)
    (he : s.startRecord core e = some t) : exec (.teamStart core) s = .next t := by
  have hfirst : (s.startable core).findSome? (s.startRecord core) = some t := by
    rw [hl, List.findSome?_append, List.findSome?_eq_none_iff.mpr hbefore, Option.none_or, List.findSome?_cons, he]
  show execTeamStart core s = _
  rw [execTeamStart, hfirst]
  rfl

theorem exec_teamStart_of_none {s : State} {core : Nat} (h : ∀ e ∈ s.startable core, s.startRecord core e = none) :
    exec (.teamStart core) s = .next s := by
  show execTeamStart core s = _
  rw [execTeamStart, List.findSome?_eq_none_iff.mpr h]
  rfl

/-! ### A team started on a core -/

/-- Memory, the teams and the cores' deques are as they were. -/
structure State.SameWork (s t : State) : Prop where
  mem : t.mem = s.mem
  teams : t.teams = s.teams
  deques : ∀ k, (t.coreAt k).deque = (s.coreAt k).deque

theorem State.SameWork.refl (s : State) : s.SameWork s := ⟨rfl, rfl, fun _ => rfl⟩

theorem State.SameWork.trans {s t u : State} (h : s.SameWork t) (h' : t.SameWork u) : s.SameWork u :=
  ⟨h'.mem.trans h.mem, h'.teams.trans h.teams, fun k => (h'.deques k).trans (h.deques k)⟩

theorem State.SameWork.foldl {α : Type} {f : State → α → State} (hf : ∀ s a, State.SameWork s (f s a)) (l : List α)
    (s : State) : s.SameWork (l.foldl f s) :=
  l.foldlRecOn f (.refl s) fun t ht a _ => ht.trans (hf t a)

/-- A core replaced by one with the same deque. -/
theorem State.sameWork_setCore (s : State) (core : Nat) {k : Core} (h : k.deque = (s.coreAt core).deque) :
    s.SameWork (s.setCore core k) where
  mem := rfl
  teams := rfl
  deques n := by
    rw [State.coreAt_setCore]
    split
    · next hn => rw [h, hn.1]
    · rfl

theorem State.sameWork_invalidate (s : State) (core : Nat) : s.SameWork (s.invalidate core) := s.sameWork_setCore core rfl

theorem State.sameWork_useSheaf (s : State) (core sheaf : Nat) : s.SameWork (s.useSheaf core sheaf) := by
  unfold State.useSheaf
  dsimp only
  split
  · exact s.sameWork_setCore core rfl
  · exact .refl s

theorem State.sameWork_addGroup (s : State) (d : Grid) (t : Team) (index : Nat) (sheaf : Option Sheaf) :
    s.SameWork (s.addGroup d t index sheaf) := by
  cases sheaf with
  | none => exact ⟨rfl, rfl, fun _ => rfl⟩
  | some k =>
    have hgroups : ∀ l, s.SameWork { s.newId.2 with groups := l } := fun _ => ⟨rfl, rfl, fun _ => rfl⟩
    exact (hgroups _).trans (State.sameWork_useSheaf ..)

theorem State.sameWork_addGroups (s : State) (d : Grid) (t : Team) (n : Nat) (sheaf : Option Sheaf) :
    s.SameWork (s.addGroups d t n sheaf) := .foldl (fun s i => s.sameWork_addGroup d t i sheaf) ..

theorem State.sameWork_dropTexture (s : State) (within : Nat → Bool) : s.SameWork (s.dropTexture within) where
  mem := rfl
  teams := rfl
  deques k := by
    unfold State.dropTexture State.coreAt nth upto
    by_cases hk : k < s.cores.length
    · simp only [List.length_map, List.length_zip, List.length_range, min_self, hk, getElem?_pos, List.getElem_map,
        List.getElem_zip, List.getElem_range, Option.getD_some]
      split <;> rfl
    · simp [hk]

/-- A grid opened: its caches dropped, and no number taken. -/
theorem State.sameWork_openGrid (s : State) (d : Grid) : s.SameWork (s.openGrid d) ∧ (s.openGrid d).fresh = s.fresh := by
  unfold State.openGrid
  split
  · exact ⟨.refl s, rfl⟩
  · have hdies : (s.dropTexture (fun _ => true)).SameWork
        (((s.dropTexture (fun _ => true)).dropRidge (fun _ => true)).dropComposer (fun _ => true)) :=
      ⟨rfl, rfl, fun _ => rfl⟩
    exact ⟨(s.sameWork_dropTexture _).trans hdies, rfl⟩

/-- One team of a cluster with its first groups (R98, R141). -/
def State.openTeam (s : State) (d : Grid) (core gx gy gz : Nat) (sheaf : Option Sheaf) : State :=
  let r := s.addTeam d core gx gy gz (if d.prologue then none else sheaf)
  if d.prologue then (r.2.invalidate core).addGroup d r.1 0 none else (r.2.invalidate core).addGroups d r.1 0 sheaf

/-- A cluster of one team started is one team opened in the opened grid. -/
theorem State.startCluster_singleton (s : State) (d : Grid) (ci core : Nat) : ∃ l gx gy gz sheaf,
    s.startCluster d ci [core] = (State.openTeam { s.openGrid d with clusters := l } d core gx gy gz sheaf).setGrid
      { d with waiting := d.waiting - 1 } :=
  ⟨_, _, _, _, _, rfl⟩

/-- A team opened stands last, under the next number; memory and the deques are as they were. -/
theorem State.openTeam_spec (s : State) (d : Grid) (core gx gy gz : Nat) (sheaf : Option Sheaf) :
    ∃ tm : Team, tm.grid = d.id ∧ tm.core = core ∧ tm.id = s.fresh ∧
      State.SameWork { s with teams := s.teams ++ [tm] } (s.openTeam d core gx gy gz sheaf) := by
  have hadd : ∀ frozen, State.SameWork { s with teams := s.teams ++ [(s.addTeam d core gx gy gz frozen).1] }
      ((s.addTeam d core gx gy gz frozen).2.invalidate core) := by
    intro frozen
    have hteams : State.SameWork { s with teams := s.teams ++ [(s.addTeam d core gx gy gz frozen).1] }
        (s.addTeam d core gx gy gz frozen).2 := ⟨rfl, rfl, fun _ => rfl⟩
    exact hteams.trans (State.sameWork_invalidate ..)
  refine ⟨(s.addTeam d core gx gy gz (if d.prologue then none else sheaf)).1, rfl, rfl, rfl, ?_⟩
  unfold State.openTeam
  dsimp only
  split
  · exact (hadd _).trans (State.sameWork_addGroup ..)
  · exact (hadd _).trans (State.sameWork_addGroups ..)

/-- A cluster of one team started: its team stands on the core under the next number (R98); memory and the deques are as they
were. -/
theorem State.startCluster_singleton_spec (s : State) (d : Grid) (ci core : Nat) : ∃ tm : Team,
    tm ∈ (s.startCluster d ci [core]).teams ∧ tm.grid = d.id ∧ tm.core = core ∧ tm.id = s.fresh ∧
      (s.startCluster d ci [core]).mem = s.mem ∧
      ∀ k, ((s.startCluster d ci [core]).coreAt k).deque = (s.coreAt k).deque := by
  obtain ⟨hopen, hfresh⟩ := s.sameWork_openGrid d
  obtain ⟨l, gx, gy, gz, sheaf, heq⟩ := s.startCluster_singleton d ci core
  obtain ⟨tm, hgrid, hcore, hid, hteam⟩ := State.openTeam_spec { s.openGrid d with clusters := l } d core gx gy gz sheaf
  rw [heq]
  refine ⟨tm, ?_, hgrid, hcore, hid.trans hfresh, hteam.mem.trans hopen.mem,
    fun k => (hteam.deques k).trans (hopen.deques k)⟩
  rw [State.setGrid_teams, hteam.teams]
  exact List.mem_append_right _ (List.mem_singleton_self tm)

/-! ### Steals (R135) -/

/-- The victim keeps the lower half of a record, rounded up. -/
theorem splitRecord_eq (r : DequeRecord) : splitRecord r = if r.count ≤ 1 then (none, r)
    else (some { r with count := (r.count + 1) / 2 },
      { r with first := r.first + (r.count + 1) / 2, count := r.count - (r.count + 1) / 2 }) := rfl

/-- Cores without records are passed over. -/
theorem State.stealFrom_append_of_empty (s : State) (core : Nat) {before : List Nat} (l : List Nat)
    (h : ∀ x ∈ before, (s.coreAt x).deque = []) : s.stealFrom core (before ++ l) = s.stealFrom core l := by
  induction before with
  | nil => rfl
  | cons v before ih =>
    rw [List.cons_append, State.stealFrom, h v List.mem_cons_self]
    exact ih fun x hx => h x (List.mem_cons_of_mem v hx)

/-- The first victim whose tail record may be stolen is robbed of its upper half. -/
theorem State.stealFrom_cons_of_stealable {s : State} {core v : Nat} {l : List Nat} {r : DequeRecord}
    (hr : (s.coreAt v).deque.getLast? = some r) (habsent : (s.coreAt v).absent = false)
    (hsteal : s.stealable core r = true) :
    s.stealFrom core (v :: l) =
      let s' := s.setCore v { s.coreAt v with deque := (s.coreAt v).deque.dropLast ++ (splitRecord r).1.toList }
      some (s'.setCore core { s'.coreAt core with deque := (splitRecord r).2 :: (s'.coreAt core).deque }) := by
  rw [State.stealFrom]
  simp only [hr, habsent, hsteal, Bool.not_false, Bool.and_self, if_true]

/-- An idle core that is there steals. -/
theorem exec_steal_of_idle {s t : State} {core : Nat} (hidle : (s.coreAt core).deque = [])
    (habsent : (s.coreAt core).absent = false) (hfrom : s.stealFrom core (stealOrder core) = some t) :
    exec (.steal core) s = .next t := by
  show execSteal core s = _
  simp only [execSteal, hidle, habsent, List.isEmpty_nil, Bool.not_false, Bool.and_self, if_true, hfrom]

/-- A core with records of its own does not. -/
theorem exec_steal_of_busy {s : State} {core : Nat} (h : (s.coreAt core).deque ≠ []) : exec (.steal core) s = .next s := by
  show execSteal core s = _
  have hbusy : (s.coreAt core).deque.isEmpty = false := by simpa using h
  simp only [execSteal, hbusy, Bool.false_and, Bool.false_eq_true, if_false]

/-- Settles O44: a start is that of the first record that can start (`exec_teamStart_of_first`), from the place where it
stands; the order of the records is an insertion sort by rank; a steal splits the first victim's tail record. -/
theorem teamsStartAndAreStolen : Obligations.TeamsStartAndAreStolen := by
  refine ⟨?_, fun s core => exec_teamStart_of_none, fun s core n rank place r d => State.startRecord_eq_none_iff,
    fun s core =>
      ⟨s.startable_sorted core, fun n r => s.mem_startable_of_deque, fun n r => s.mem_startable_of_placements⟩,
    fun s d c q => State.rank_eq, ?_, fun s core => exec_steal_of_busy⟩
  · intro s core n rank place r d cs before after hl hbefore hd hrect hfits hdie hturn hsaved left cut
    have hstart : exec (.teamStart core) s = .next ((s.withoutRecord core place n r.rest).startCluster d r.first cs) := by
      refine exec_teamStart_of_first hl hbefore ?_
      rw [State.startRecord_eq hd, State.rectangleFor_eq_some_iff.mpr ⟨hrect, hfits⟩]
      exact if_pos ⟨hdie, hturn, hsaved⟩
    refine ⟨?_, ?_, ?_, ?_⟩
    · rintro rfl
      exact hstart
    · rintro rfl
      exact hstart
    · rintro c rfl hc
      simp only [State.withoutRecord, hc] at hstart
      exact hstart
    · rintro rfl rfl hcore
      obtain ⟨tm, hmem, hgrid, hon, hid, hsame, hdeque⟩ :=
        State.startCluster_singleton_spec (s.withoutRecord core .deque n r.rest) d r.first core
      refine ⟨_, tm, hstart, hsame, hmem, hgrid, hon, hid, (hdeque core).trans ?_⟩
      unfold State.withoutRecord
      rw [State.coreAt_setCore, if_pos ⟨rfl, hcore⟩]
      rfl
  · intro s core v before after r hidle habsent hl hbefore hr habsent' hsteal kept taken s'
    refine exec_steal_of_idle hidle habsent ?_
    rw [hl, State.stealFrom_append_of_empty s core _ hbefore, State.stealFrom_cons_of_stealable hr habsent' hsteal]
    have hsplit : (splitRecord r).1.toList = kept ∧ (splitRecord r).2 = taken := by
      unfold kept taken
      rw [splitRecord_eq]
      split <;> exact ⟨rfl, rfl⟩
    rw [hsplit.1, hsplit.2]

end Sys2Proof.Machine
end

section
/-! Groups and teams that change places (O45). -/
namespace Sys2Proof.Machine

/-! ### Exchanges (R112) -/

/-- A group in a long wait changes places with the oldest pending one that can issue. -/
theorem exec_groupExchange_of_longWait {s : State} {g h : Group} (hg : s.group? g.id = some g)
    (hold : s.oldestPending g.core (g.index % 4) = some h) (hres : g.res = .active) (hlong : s.longWait g = true) :
    exec (.groupExchange g.id h.id) s = .next (s.exchange g.id h.id) := by
  show execGroupExchange g.id h.id s = _
  simp only [execGroupExchange, hg, hold, hres, hlong, and_self, if_true]

/-- A starving group takes the place of the stalest active one. -/
theorem exec_starvationTimeout_of_pending {s : State} {g h : Group} (hg : s.group? g.id = some g) (hres : g.res = .pending)
    (hcan : s.hasEligible g = true)
    (hstale : stalest ((s.slotGroups g.core (g.index % 4)).filter (fun h => h.res = .active)) = some h) :
    exec (.starvationTimeout g.id) s = .next (s.exchange h.id g.id) := by
  show execStarvationTimeout g.id s = _
  simp only [execStarvationTimeout, hg, hres, hcan, and_self, if_true, hstale]

/-! ### Groups saved (R109) -/

/-- A group that is saved stands where its saving puts it. -/
theorem State.res_of_saveGroup {s : State} {n away : Nat} {res : Residency} {h : Group}
    (hh : (s.saveGroup n res away).group? n = some h) : h.res = res := by
  unfold State.saveGroup at hh
  extract_lets s1 s2 at hh
  have hmap := find?_map_id s2.groups
    (fun g => if g.id = n then { g with res := res, awayUntil := away, hungry := false } else g)
    (fun g => by split <;> rfl) n
  obtain ⟨x, hx, rfl⟩ := Option.map_eq_some_iff.mp (hmap.symm.trans hh)
  have hid : x.id = n := State.group?_id hx
  simp only [if_pos hid]

theorem exec_groupEvict_of_poolVictim {s : State} {core slot : Nat} {g : Group} (h : s.poolVictim core slot = some g) :
    exec (.groupEvict core slot) s = .next (s.saveGroup g.id .evicted 0) := by
  show execGroupEvict core slot s = _
  simp only [execGroupEvict, h]

/-! ### Groups placed again (R109, R151, R314) -/

/-- The same groups and teams, whatever has become of memory and the caches. -/
structure State.SameUnits (s t : State) : Prop where
  groups : t.groups = s.groups
  teams : t.teams = s.teams

theorem State.SameUnits.refl (s : State) : s.SameUnits s := ⟨rfl, rfl⟩

theorem State.SameUnits.trans {s t u : State} (h : s.SameUnits t) (h' : t.SameUnits u) : s.SameUnits u :=
  ⟨h'.groups.trans h.groups, h'.teams.trans h.teams⟩

theorem State.SameUnits.foldl {α : Type} {f : State → α → State} (hf : ∀ s a, State.SameUnits s (f s a)) (l : List α)
    (s : State) : s.SameUnits (l.foldl f s) :=
  l.foldlRecOn f (.refl s) fun t ht a _ => ht.trans (hf t a)

theorem State.SameUnits.ite {c : Prop} [Decidable c] {s t u : State} (ht : s.SameUnits t) (hu : s.SameUnits u) :
    s.SameUnits (if c then t else u) := by
  split
  · exact ht
  · exact hu

theorem State.sameUnits_markLeaves (s : State) (core ctx : Nat) (dirty : Bool) (l : List (Nat × Nat)) :
    s.SameUnits (s.markLeaves core ctx dirty l) := by
  unfold State.markLeaves
  refine .foldl (fun s e => ?_) l s
  have hleaf : s.SameUnits (s.markLeaf e.1 dirty) := by
    unfold State.markLeaf
    exact .ite (.refl s) ⟨rfl, rfl⟩
  exact hleaf.trans ⟨rfl, rfl⟩

theorem State.sameUnits_markCheck (s : State) (core ctx : Nat) (writes : Bool) (r : LaneCheck) :
    s.SameUnits (s.markCheck core ctx writes r) := by
  cases r with
  | ok => exact s.sameUnits_markLeaves ..
  | bad => exact .ite (s.sameUnits_markLeaves ..) (.ite (s.sameUnits_markLeaves ..) (.refl s))

/-- The checks of an instruction mark page tables and TLBs, and give numbers. -/
theorem State.sameUnits_checkPend (s : State) (g : Group) (p : Pend) : s.SameUnits (s.checkPend g p).2 := by
  have hpoison : ∀ t, s.SameUnits (s.notePoison g t) := fun t => .ite ⟨rfl, rfl⟩ (.refl s)
  have hlanes : ∀ core ctx writes l, s.SameUnits (s.markLanes core ctx writes l) := by
    intro core ctx writes l
    unfold State.markLanes
    exact .foldl (fun s e => s.sameUnits_markCheck ..) l s
  unfold State.checkPend
  dsimp only
  split
  · split <;> exact (hlanes ..).trans ⟨rfl, rfl⟩
  · split
    · exact .refl s
    · exact ⟨rfl, rfl⟩
    · exact (hpoison _).trans ⟨rfl, rfl⟩
    · split <;> exact ⟨rfl, rfl⟩
  · split
    · split_ifs <;> exact ⟨rfl, rfl⟩
    · split <;> exact ⟨rfl, rfl⟩
    · split <;> exact ⟨rfl, rfl⟩
    · split <;> exact ⟨rfl, rfl⟩
    · split <;> exact ⟨rfl, rfl⟩
    · exact .refl s

theorem State.sameUnits_useSheaf (s : State) (core sheaf : Nat) : s.SameUnits (s.useSheaf core sheaf) :=
  .ite ⟨rfl, rfl⟩ (.refl s)

/-- A group on the same core and in the same set, with the registers and the paths of another. -/
structure Group.SameOnCore (g h : Group) : Prop where
  id : h.id = g.id
  core : h.core = g.core
  res : h.res = g.res
  v : h.v = g.v
  p : h.p = g.p
  path0 : h.slot0.isSome = g.slot0.isSome
  path1 : h.slot1.isSome = g.slot1.isSome

theorem Group.SameOnCore.refl (g : Group) : g.SameOnCore g := ⟨rfl, rfl, rfl, rfl, rfl, rfl, rfl⟩

theorem Group.SameOnCore.trans {g h i : Group} (e : g.SameOnCore h) (e' : h.SameOnCore i) : g.SameOnCore i :=
  ⟨e'.id.trans e.id, e'.core.trans e.core, e'.res.trans e.res, e'.v.trans e.v, e'.p.trans e.p, e'.path0.trans e.path0,
    e'.path1.trans e.path1⟩

theorem Group.sameOnCore_mapSlot (g : Group) (k : Nat) (f : Path → Path) : g.SameOnCore (g.mapSlot k f) := by
  unfold Group.mapSlot Group.setSlot Group.slot
  split <;> exact ⟨rfl, rfl, rfl, rfl, rfl, by simp, by simp⟩

theorem State.sameOnCore_missSheaf (s : State) (g : Group) : g.SameOnCore (s.missSheaf g) := by
  unfold State.missSheaf
  split
  · exact .refl g
  · have hmissing : g.SameOnCore { g with missing := true } := ⟨rfl, rfl, rfl, rfl, rfl, rfl, rfl⟩
    exact (hmissing.trans (Group.sameOnCore_mapSlot ..)).trans (Group.sameOnCore_mapSlot ..)

/-- The checks made again of the unfinished instructions of a group. -/
theorem State.recheckAll_spec (s : State) (g : Group) (l : List Pend) :
    g.SameOnCore (s.recheckAll g l).1 ∧ s.SameUnits (s.recheckAll g l).2 := by
  induction l generalizing s g with
  | nil => exact ⟨.refl g, .refl s⟩
  | cons p l ih =>
    unfold State.recheckAll
    split
    · have hpend : ∀ q, g.SameOnCore (g.setPend q) := fun q => ⟨rfl, rfl, rfl, rfl, rfl, rfl, rfl⟩
      obtain ⟨hg, hs⟩ := ih (s.checkPend g p.remainder).2 (g.setPend (p.remainder.keepTodo (s.checkPend g p.remainder).1))
      exact ⟨(hpend _).trans hg, (s.sameUnits_checkPend ..).trans hs⟩
    · exact ih s g

/-- A saved group as its new core takes it, before its sheaves and its instructions are looked at. -/
def State.placed (s : State) (g : Group) (core : Nat) (res : Residency) : Group :=
  { g with core := core, pos := s.freePos core (g.index % 4), res := res, awayUntil := 0, roomFor := 0,
           v := s.shareMap core (g.index % 4) g.v }

/-- A group placed again is written back, and the groups that waited for it are told where its paths are all parked. -/
theorem State.restoreGroup_spec (s : State) (g : Group) (core : Nat) (res : Residency) :
    ∃ t h, s.SameUnits t ∧ (s.placed g core res).SameOnCore h ∧
      (s.restoreGroup g core res = t.setGroup h ∨ s.restoreGroup g core res = (t.setGroup h).leaveOwed h.id) := by
  let s1 := (s.placed g core res).sheaves.foldl (fun (s : State) k => s.useSheaf core k) (s.invalidate core)
  have hs1 : s.SameUnits s1 :=
    (show s.SameUnits (s.invalidate core) from ⟨rfl, rfl⟩).trans (.foldl (fun s k => s.sameUnits_useSheaf ..) ..)
  let g1 := s1.missSheaf (s.placed g core res)
  obtain ⟨hg, hs⟩ := s1.recheckAll_spec g1 g1.pend
  refine ⟨_, _, hs1.trans hs, (s1.sameOnCore_missSheaf _).trans hg, ?_⟩
  have heq : s.restoreGroup g core res = if (s1.recheckAll g1 g1.pend).1.allParked then
      ((s1.recheckAll g1 g1.pend).2.setGroup (s1.recheckAll g1 g1.pend).1).leaveOwed (s1.recheckAll g1 g1.pend).1.id
    else (s1.recheckAll g1 g1.pend).2.setGroup (s1.recheckAll g1 g1.pend).1 := rfl
  rw [heq]
  split
  · exact .inr rfl
  · exact .inl rfl

/-- The names that a group shares with sheaves are mapped to other registers, with the same lanes. -/
theorem State.lanes_shareMap (s : State) (core slot : Nat) (v : List (Option VMap)) (n : Nat) :
    (nth (s.shareMap core slot v) n none).map VMap.lanes = (nth v n none).map VMap.lanes := by
  unfold State.shareMap nth upto
  by_cases hn : n < v.length
  · simp only [Option.getD_map, List.length_map, List.length_zip, List.length_range, min_self, hn, getElem?_pos,
      List.getElem_map, List.getElem_zip, List.getElem_range, Option.getD_some, Option.map_map]
    congr 1
    funext m
    simp only [Function.comp]
    split
    · rfl
    · split <;> rfl
  · simp [hn]

theorem State.vLane_placed (s : State) (g : Group) (core : Nat) (res : Residency) (n l : Nat) :
    (s.placed g core res).vLane n l = g.vLane n l := by
  have hlanes : ∀ (h : Group), h.vLane n l = (((nth h.v n none).map VMap.lanes).map (fun b => nth b l 0)).getD 0 := by
    intro h
    unfold Group.vLane
    cases nth h.v n none <;> rfl
  rw [hlanes, hlanes]
  exact congrArg (fun o : Option (List Word) => (o.map (fun b => nth b l 0)).getD 0) (s.lanes_shareMap ..)

/-- A group placed again stands on its core with its paths and its registers. -/
theorem State.group?_restoreGroup {s : State} {g : Group} (hg : s.group? g.id = some g) (core : Nat) (res : Residency) :
    ∃ h, (s.restoreGroup g core res).group? g.id = some h ∧ h.res = res ∧ h.core = core ∧ h.p = g.p ∧
      h.slot0.isSome = g.slot0.isSome ∧ h.slot1.isSome = g.slot1.isSome ∧ ∀ n l, h.vLane n l = g.vLane n l := by
  obtain ⟨t, h, hs, hsame, heq⟩ := s.restoreGroup_spec g core res
  have hid : h.id = g.id := hsame.id
  have hlanes : ∀ n l, h.vLane n l = g.vLane n l := by
    intro n l
    rw [← s.vLane_placed g core res n l]
    unfold Group.vLane
    rw [hsame.v]
  have hput : (t.setGroup h).group? g.id = some h := by
    rw [← hid]
    refine State.group?_setGroup_self ?_
    rw [hid, State.group?, hs.groups]
    exact Option.isSome_iff_exists.mpr ⟨g, hg⟩
  rcases heq with heq | heq
  · exact ⟨h, by rw [heq, hput], hsame.res, hsame.core, hsame.p, hsame.path0, hsame.path1, hlanes⟩
  · refine ⟨{ h with owed := h.owed.filter (fun e => e.1 ≠ h.id) }, ?_, hsame.res, hsame.core, hsame.p, hsame.path0,
      hsame.path1, hlanes⟩
    rw [heq, State.group?_leaveOwed, hput]
    rfl

theorem State.teams_restoreGroup (s : State) (g : Group) (core : Nat) (res : Residency) :
    (s.restoreGroup g core res).teams = s.teams := by
  obtain ⟨t, h, hs, -, heq | heq⟩ := s.restoreGroup_spec g core res
  · rw [heq, State.setGroup_teams, hs.teams]
  · rw [heq, State.leaveOwed_teams, State.setGroup_teams, hs.teams]

/-- An evicted group returns to its core once it may and there is room. -/
theorem exec_groupReturn_of_room {s : State} {g : Group} {tm : Team} (hg : s.group? g.id = some g)
    (htm : s.team? g.team = some tm) (haway : g.resident = false) (hteam : tm.preempted = false)
    (huntil : g.awayUntil ≤ s.clock.toNat) (hcore : (s.coreAt g.core).absent = false) (hroom : s.roomFor g g.core = true) :
    exec (.groupReturn g.id) s = .next (s.restoreGroup g g.core .pending) := by
  show execGroupReturn g.id s = _
  simp only [execGroupReturn, hg, htm, haway, hteam, huntil, hcore, hroom, Bool.not_false, decide_true, Bool.and_self,
    if_true]

/-! ### Sheaves (R144, R150) -/

theorem State.outside_wakeSheaf (s : State) (n : Nat) : (s.wakeSheaf n).outside = s.outside := by
  unfold State.wakeSheaf
  split
  · rfl
  · split <;> rfl

/-- Groups that run again change nothing but themselves. -/
theorem State.outside_wakeSheaves (s : State) (l : List Nat) : (l.foldl State.wakeSheaf s).outside = s.outside :=
  l.foldlRecOn (motive := fun t : State => t.outside = s.outside) _ rfl fun t ht n _ => (t.outside_wakeSheaf n).trans ht

/-- A sheaf that a core's store lacks and has room for is put in front of it. -/
theorem State.installSheaf_of_room {s : State} {core sheaf : Nat} (hroom : (s.coreAt core).store.length < 8)
    (hnew : (s.coreAt core).store.contains sheaf = false) :
    s.installSheaf core sheaf = some (s.setCore core { s.coreAt core with store := sheaf :: (s.coreAt core).store }) := by
  simp only [State.installSheaf, hnew, hroom, Bool.false_eq_true, if_false, if_true]

/-- A sheaf that a group misses is put into its core's store, and memory stays. -/
theorem exec_sheafMiss_of_room {s : State} {core sheaf : Nat} (hsheaf : (s.sheaf? sheaf).isSome)
    (hcore : core < s.cores.length) (hroom : (s.coreAt core).store.length < 8)
    (hnew : (s.coreAt core).store.contains sheaf = false) :
    ∃ t, exec (.sheafMiss core sheaf) s = .next t ∧ t.mem = s.mem ∧
      (t.coreAt core).store = sheaf :: (s.coreAt core).store := by
  obtain ⟨k, hk⟩ := Option.isSome_iff_exists.mp hsheaf
  let s1 := s.setCore core { s.coreAt core with store := sheaf :: (s.coreAt core).store }
  let l := (s1.groups.filter (fun g => g.core = core && g.sheaves.contains sheaf)).map Group.id
  have hexec : exec (.sheafMiss core sheaf) s = .next (l.foldl State.wakeSheaf s1) := by
    show execSheafMiss core sheaf s = _
    simp only [execSheafMiss, hk, State.installSheaf_of_room hroom hnew]
    rfl
  have hout := s1.outside_wakeSheaves l
  have hkept : (l.foldl State.wakeSheaf s1).coreAt core = s1.coreAt core :=
    (congrArg (fun u : State => u.coreAt core) hout :)
  refine ⟨_, hexec, (congrArg State.mem hout :), ?_⟩
  rw [hkept, State.coreAt_setCore, if_pos ⟨rfl, hcore⟩]

/-! ### Pre-emption (R313, R314) -/

theorem exec_preempt_of_victims {s : State} {core : Nat} {w : Incoming} {gs ts : List Nat} (hcore : core < 256)
    (hw : w ∈ s.incoming core) (hv : s.victims core w = some (gs, ts)) :
    exec (.preempt gs ts) s = .next (ts.foldl State.saveTeam (gs.foldl (fun s n => s.saveGroup n .preempted 0) s)) := by
  refine if_pos (List.any_eq_true.mpr ⟨core, List.mem_range.mpr hcore, List.any_eq_true.mpr ⟨w, hw, ?_⟩⟩)
  exact decide_eq_true hv

theorem exec_preempt_of_no_victims {s : State} {gs ts : List Nat}
    (h : ∀ core, core < 256 → ∀ w ∈ s.incoming core, s.victims core w ≠ some (gs, ts)) :
    exec (.preempt gs ts) s = .next s := by
  refine if_neg fun hany => ?_
  obtain ⟨core, hcore, hany⟩ := List.any_eq_true.mp hany
  obtain ⟨w, hw, hv⟩ := List.any_eq_true.mp hany
  exact h core (List.mem_range.mp hcore) w hw (of_decide_eq_true hv)

/-- A team resident on a core, whose grid's work comes after a rank. -/
structure State.RanksBehind (s : State) (core : Nat) (rank : List Nat) (tm : Team) : Prop where
  mem : tm ∈ s.teams
  core : tm.core = core
  saved : tm.preempted = false
  ended : tm.ended = false
  after : ∃ d, s.grid? tm.grid = some d ∧ rankBefore rank (s.rank d) = true

theorem State.mem_insertVictim (s : State) (t u : Team) (l : List Team) : u ∈ s.insertVictim t l ↔ u = t ∨ u ∈ l := by
  induction l with
  | nil => simp [State.insertVictim]
  | cons x l ih =>
    unfold State.insertVictim
    extract_lets a b younger first
    split
    · simp only [List.mem_cons]
    · simp only [List.mem_cons, ih]
      tauto

/-- Only a reserved queue's work takes a core, and only from teams that rank behind it. -/
theorem State.of_mem_victimOrder {s : State} {core : Nat} {w : Incoming} {tm : Team} (h : tm ∈ s.victimOrder core w) :
    isReserved w.rank = true ∧ s.RanksBehind core w.rank tm := by
  have hsort : ∀ l : List Team, tm ∈ l.foldr s.insertVictim [] → tm ∈ l := by
    intro l
    induction l with
    | nil => exact id
    | cons x l ih =>
      rw [List.foldr_cons, State.mem_insertVictim, List.mem_cons]
      exact Or.imp_right ih
  unfold State.victimOrder at h
  split at h
  · next hres =>
    obtain ⟨hmem, htest⟩ := List.mem_filter.mp (hsort _ h)
    simp only [Bool.and_eq_true, decide_eq_true_eq, Bool.not_eq_true', Option.getD_eq_iff, Option.map_eq_some_iff,
      Bool.false_eq_true, and_false, or_false] at htest
    obtain ⟨⟨⟨hcore, hsaved⟩, hended⟩, hafter⟩ := htest
    exact ⟨hres, hmem, hcore, hsaved, hended, hafter⟩
  · exact absurd h List.not_mem_nil

/-- Teams are taken from those that are offered; a group that is still resident then is as it was. -/
theorem State.teamVictims_spec (s : State) (core : Nat) (w : Incoming) (l : List Team) :
    (∀ n ∈ (s.teamVictims core w l).1, ∃ t ∈ l, t.id = n) ∧
      ∀ g ∈ (s.teamVictims core w l).2.groups, g.resident = true → g ∈ s.groups := by
  induction l generalizing s with
  | nil => exact ⟨fun n hn => absurd hn List.not_mem_nil, fun g hg _ => hg⟩
  | cons t l ih =>
    unfold State.teamVictims
    split
    · obtain ⟨hids, hgroups⟩ := ih (s.without t)
      refine ⟨fun n hn => ?_, fun g hg hres => ?_⟩
      · rcases List.mem_cons.mp hn with rfl | hn
        · exact ⟨t, List.mem_cons_self, rfl⟩
        · obtain ⟨u, hu, hid⟩ := hids n hn
          exact ⟨u, List.mem_cons_of_mem t hu, hid⟩
      · obtain ⟨x, hx, hxg⟩ := List.mem_map.mp (hgroups g hg hres)
        split at hxg
        · subst hxg
          exact absurd hres (by simp [Group.resident])
        · exact hxg ▸ hx
    · obtain ⟨hids, hgroups⟩ := ih s
      refine ⟨fun n hn => ?_, hgroups⟩
      obtain ⟨u, hu, hid⟩ := hids n hn
      exact ⟨u, List.mem_cons_of_mem t hu, hid⟩

/-- Groups are taken from those that are offered. -/
theorem State.groupVictims_spec (s : State) (core : Nat) (w : Incoming) (l : List Group) :
    ∀ n ∈ (s.groupVictims core w l).1, ∃ g ∈ l, g.id = n := by
  induction l generalizing s with
  | nil => exact fun n hn => absurd hn List.not_mem_nil
  | cons g l ih =>
    unfold State.groupVictims
    intro n hn
    split at hn
    · obtain ⟨h, hh, hid⟩ := ih s n hn
      exact ⟨h, List.mem_cons_of_mem g hh, hid⟩
    · rcases List.mem_cons.mp hn with rfl | hn
      · exact ⟨g, List.mem_cons_self, rfl⟩
      · obtain ⟨h, hh, hid⟩ := ih _ n hn
        exact ⟨h, List.mem_cons_of_mem g hh, hid⟩

/-- What incoming work takes of a core: groups and teams that rank behind it, for work of a reserved queue alone. -/
theorem State.victims_spec {s : State} {core : Nat} {w : Incoming} {gs ts : List Nat}
    (h : s.victims core w = some (gs, ts)) :
    (gs ≠ [] ∨ ts ≠ []) ∧
      (∀ n ∈ ts, ∃ tm ∈ s.victimOrder core w, tm.id = n) ∧
      ∀ n ∈ gs, ∃ g ∈ s.groups, g.id = n ∧ g.resident = true ∧ ∃ tm ∈ s.victimOrder core w, g.team = tm.id := by
  unfold State.victims at h
  extract_lets order at h
  obtain ⟨hids, hgroups⟩ := s.teamVictims_spec core w order
  split at h
  next teams s1 hteams =>
  rw [hteams] at hids hgroups
  extract_lets offered at h
  have hgs := s1.groupVictims_spec core w offered
  split at h
  next groups s2 hvictims =>
  rw [hvictims] at hgs
  split at h
  · next hfits =>
    obtain ⟨rfl, rfl⟩ : groups = gs ∧ teams = ts := by simpa using h
    refine ⟨?_, hids, fun n hn => ?_⟩
    · simp only [Bool.and_eq_true, Bool.not_eq_true', Bool.and_eq_false_iff, List.isEmpty_eq_false_iff] at hfits
      exact hfits.2
    · obtain ⟨g, hg, hid⟩ := hgs n hn
      obtain ⟨tm, htm, hof⟩ := List.mem_flatMap.mp hg
      obtain ⟨hmem, hown⟩ := List.mem_filter.mp (List.mem_reverse.mp hof)
      simp only [Bool.and_eq_true, decide_eq_true_eq] at hown
      exact ⟨g, hgroups g hmem hown.2, hid, hown.2, tm, (List.mem_filter.mp htm).1, hown.1⟩
  · cases h

/-! ### Teams saved and placed again (R314, R315) -/

theorem State.team?_id {s : State} {n : Nat} {t : Team} (h : s.team? n = some t) : t.id = n := by
  have := List.find?_some h
  simpa using this

theorem State.team?_setTeam_self {s : State} {t : Team} (h : (s.team? t.id).isSome) : (s.setTeam t).team? t.id = some t := by
  obtain ⟨u, hu⟩ := Option.isSome_iff_exists.mp h
  have hid : u.id = t.id := State.team?_id hu
  unfold State.team? State.setTeam at *
  have hkeep : ((fun x : Team => decide (x.id = t.id)) ∘ fun x => if x.id = t.id then t else x) =
      fun x => decide (x.id = t.id) := by
    funext x
    by_cases hx : x.id = t.id <;> simp [hx]
  rw [List.find?_map, hkeep, hu, Option.map_some, if_pos hid]

/-- A team saved while nothing of it is on its way keeps all that it has. -/
theorem State.saveTeam_of_quiet {s : State} {n : Nat} {tm : Team} (htm : s.team? n = some tm) (hq : s.quiet = true) :
    ∃ image, s.saveTeam n = { s.nextFree.setTeam { tm with preempted := true, image := image } with
      groups := s.groups.map (fun g => if g.team = n then
        { g with res := if g.resident then .preempted else .evicted, hungry := false } else g) } := by
  unfold State.saveTeam
  rw [land_all_of_quiet hq]
  simp only [htm, flushCore_of_quiet hq]
  exact ⟨_, rfl⟩

theorem State.teams_restoreTeam (s : State) (tm : Team) (core : Nat) : (s.restoreTeam tm core).teams =
    (s.setTeam { tm with core := core, preempted := false, keeps := false, image := none }).teams := by
  unfold State.restoreTeam
  refine List.foldlRecOn (motive := fun u : State => u.teams = _) _ _ rfl fun u hu g _ => ?_
  split
  · exact hu
  · split
    · exact (State.teams_restoreGroup ..).trans hu
    · split <;> exact hu

/-- A team placed again is there on its core. -/
theorem State.team?_restoreTeam {s : State} {n : Nat} {tm : Team} (htm : s.team? n = some tm) (core : Nat) :
    (s.restoreTeam tm core).team? n = some { tm with core := core, preempted := false, keeps := false, image := none } := by
  obtain rfl : tm.id = n := State.team?_id htm
  rw [State.team?, State.teams_restoreTeam]
  exact State.team?_setTeam_self (t := { tm with core := core, preempted := false, keeps := false, image := none })
    (Option.isSome_iff_exists.mpr ⟨tm, htm⟩)

section
variable {s : State} {n k : Nat} {tm : Team} {d : Grid} (htm : s.team? n = some tm) (hsaved : tm.preempted = true)
  (hplaces : s.placesFor tm = some [(tm, k)]) (hd : s.grid? tm.grid = some d)
include htm hsaved hplaces hd

/-- A saved team that has a place comes back to it, where no work of an earlier rank could start there (R313, R315). -/
theorem exec_switchIn_of_place : exec (.switchIn n) s = .next (
    if ∃ w ∈ s.incoming k, rankBefore w.rank (s.rank d) = true ∧ s.fitsBut k w.grid w.frozen w.but = true then s
    else s.restoreTeam tm k) := by
  show execSwitchIn n s = _
  simp only [execSwitchIn, htm, hsaved, hplaces, hd, if_true, List.any_cons, List.any_nil, Bool.or_false, List.any_eq_true,
    Bool.and_eq_true, List.foldl_cons, List.foldl_nil]
  split <;> rfl

end

/-- Settles O45: exchanges, evictions and returns by their conditions; the victims of a pre-emption come from an order that
holds only teams behind a reserved queue's work (`State.victims_spec`); a saved team's state stays with it. -/
theorem groupsAndTeamsChangePlaces : Obligations.GroupsAndTeamsChangePlaces := by
  refine ⟨fun s g h => exec_groupExchange_of_longWait, fun s g h => exec_starvationTimeout_of_pending, ?_, ?_,
    fun s core sheaf => exec_sheafMiss_of_room, fun s core w gs ts => exec_preempt_of_victims,
    fun s gs ts => exec_preempt_of_no_victims, ?_, fun s n hq => saveGroup_of_quiet hq n .preempted 0, ?_, ?_⟩
  · intro s core slot g hvictim
    have hexec := exec_groupEvict_of_poolVictim hvictim
    exact ⟨⟨_, hexec, fun h => State.res_of_saveGroup⟩, fun hq => by rw [hexec, saveGroup_of_quiet hq]⟩
  · intro s g tm hg htm haway hteam huntil hcore hplaces hregs hsectors
    have hroom : s.roomFor g g.core = true := by simp [State.roomFor, hplaces, hregs, hsectors]
    have hexec := exec_groupReturn_of_room hg htm haway hteam huntil hcore hroom
    obtain ⟨h, hback⟩ := State.group?_restoreGroup hg g.core .pending
    exact ⟨hexec, _, h, hexec, hback⟩
  · intro s core w gs ts hv after
    obtain ⟨hsome, hteams, hgroups⟩ := State.victims_spec hv
    have hafter : ∀ tm ∈ s.victimOrder core w, tm ∈ s.teams ∧ after tm := fun tm htm =>
      have hbehind := (State.of_mem_victimOrder htm).2
      ⟨hbehind.mem, hbehind.core, hbehind.saved, hbehind.ended, hbehind.after⟩
    refine ⟨?_, hsome, fun n hn => ?_, fun n hn => ?_⟩
    · obtain ⟨tm, htm⟩ : ∃ tm, tm ∈ s.victimOrder core w := by
        rcases hsome with hgs | hts
        · obtain ⟨n, hn⟩ := List.exists_mem_of_ne_nil gs hgs
          obtain ⟨g, -, -, -, tm, htm, -⟩ := hgroups n hn
          exact ⟨tm, htm⟩
        · obtain ⟨n, hn⟩ := List.exists_mem_of_ne_nil ts hts
          obtain ⟨tm, htm, -⟩ := hteams n hn
          exact ⟨tm, htm⟩
      exact of_decide_eq_true (State.of_mem_victimOrder htm).1
    · obtain ⟨tm, htm, hid⟩ := hteams n hn
      exact ⟨tm, (hafter tm htm).1, hid, (hafter tm htm).2⟩
    · obtain ⟨g, hg, hid, hres, tm, htm, hof⟩ := hgroups n hn
      exact ⟨g, hg, hid, hres, tm, (hafter tm htm).1, hof, (hafter tm htm).2⟩
  · intro s n tm htm hq
    obtain ⟨image, hsave⟩ := State.saveTeam_of_quiet htm hq
    rw [hsave]
    obtain rfl : tm.id = n := State.team?_id htm
    refine ⟨rfl, { tm with preempted := true, image := image }, ?_, rfl, rfl, rfl, rfl, rfl⟩
    exact State.team?_setTeam_self (s := s.nextFree) (t := { tm with preempted := true, image := image })
      (Option.isSome_iff_exists.mpr ⟨tm, htm⟩)
  · intro s n k tm d htm hsaved hplaces hd first
    have hexec := exec_switchIn_of_place htm hsaved hplaces hd
    refine ⟨fun hfirst => by rw [hexec, if_pos hfirst], fun hnone => ?_⟩
    have hback : exec (.switchIn n) s = .next (s.restoreTeam tm k) := by
      rw [hexec, if_neg]
      rintro ⟨w, hw, hfirst⟩
      exact hnone w hw hfirst
    exact ⟨hback, _, _, hback, State.team?_restoreTeam htm k, rfl, rfl⟩

end Sys2Proof.Machine
end

section
/-! Watchdog, queue periods, stops and services (O46). -/
namespace Sys2Proof.Machine

/-! ### The watchdog (R114, R316) -/

/-- The busiest group of a slot reported, and a new period of the slot begun. -/
def State.watchdogReport (s : State) (c : Context) (d : Grid) (core slot : Nat) (g : Group) : State :=
  ({ s with log := s.log ++ [.watchdog c.id d.lpb.queue core slot g.id s.clock] } : State).newPeriod core slot

/-- A slot that starves a group: its busiest group is reported, and the context's action applies. -/
theorem exec_watchdog_of_starved {s : State} {core slot : Nat} {g : Group} {d : Grid} {c : Context}
    (hbusy : busiest (s.slotGroups core slot) = some g) (hd : s.grid? g.grid = some d) (hc : s.contextOf g = some c)
    (hstarved : (s.slotGroups core slot).any (fun h => h.hungry && decide (h.issued = 0) && s.hasEligible h) = true) :
    exec (.watchdog core slot g.id) s = .next (
      if c.watchdogAction = 1 then
        (s.watchdogReport c d core slot g).saveGroup g.id .evicted (s.clock.toNat + 1000000 * c.watchdogMs)
      else if c.watchdogAction = 2 then (s.watchdogReport c d core slot g).endGrid g.grid 2
      else s.watchdogReport c d core slot g) := by
  show execWatchdog core slot g.id s = _
  simp only [execWatchdog, hbusy, hd, hc, hstarved, decide_true, Bool.and_self, if_true]
  split
  · next h => rw [if_pos h]; rfl
  · next h => rw [if_neg (by omega), if_pos h]; rfl
  · next h1 h2 => rw [if_neg h1, if_neg h2]; rfl

/-- Before a step, no group counts as starved that is away or has no eligible path. -/
theorem State.sated_eq (s : State) : s.sated = { s with groups := s.groups.map (fun h =>
    if h.hungry = true ∧ ¬ (h.resident = true ∧ s.hasEligible h = true) then { h with hungry := false } else h) } := by
  unfold State.sated
  split
  · simp only [Bool.and_eq_true, Bool.not_eq_true', ← Bool.not_eq_true]
  · next hnone =>
    have hsame : ∀ h ∈ s.groups, (if h.hungry = true ∧ ¬ (h.resident = true ∧ s.hasEligible h = true)
        then { h with hungry := false } else h) = h := fun h hh =>
      if_neg fun hungry => hnone (List.any_eq_true.mpr ⟨h, hh, hungry.1⟩)
    rw [List.map_congr_left hsame, List.map_id']

/-! ### Periods and budgets of queues (R313) -/

/-- A free choice from a list is one of its members, or the default of an empty list. -/
theorem nth_mod_mem {α : Type} (l : List α) (n : Nat) (d : α) :
    nth l (n % l.length) d ∈ l ∨ l = [] ∧ nth l (n % l.length) d = d := by
  by_cases hl : l = []
  · subst hl
    exact .inr ⟨rfl, rfl⟩
  · have hlt : n % l.length < l.length := Nat.mod_lt _ (List.length_pos_iff.mpr hl)
    left
    rw [nth, List.getElem?_eq_getElem hlt]
    exact List.getElem_mem hlt

/-- The cores of a queue are those on which a team of it is resident. -/
theorem State.mem_queueCores_iff (s : State) (ctx queue k : Nat) : k ∈ s.queueCores ctx queue ↔
    ∃ tm d, tm ∈ s.teams ∧ tm.core = k ∧ tm.ended = false ∧ tm.preempted = false ∧
      s.grid? tm.grid = some d ∧ d.ctx = ctx ∧ d.lpb.queue = queue := by
  rw [State.queueCores, mem_distinct, List.mem_map]
  refine exists_congr fun tm => ?_
  rw [List.mem_filter]
  cases s.grid? tm.grid with
  | none => simp
  | some d =>
    simp only [Bool.and_eq_true, Bool.not_eq_true', decide_eq_true_eq, Option.some.injEq, exists_and_left, exists_eq_left']
    tauto

theorem Queue.over_iff (q : Queue) : q.over = true ↔ q.period ≠ 0 ∧ 1000 * q.budget.toNat < q.consumed := by
  simp [Queue.over]

/-- A queue past its budget for the first time in its period overruns, on a core that has teams of it (R313, R316). -/
theorem exec_overrun_of_over {s : State} {ctx queue : Nat} {q : Queue} (hq : s.queue? ctx queue = some q)
    (hover : q.over = true) (hfirst : q.overrun = false) :
    let core := nth (s.queueCores ctx queue) (Config.freeNat s.freeCount % (s.queueCores ctx queue).length) 0
    exec (.overrun ctx queue) s = .next (({ s.nextFree with log := s.log ++ [.overrun ctx queue (core / 64) core s.clock] } :
      State).mapQueue ctx queue (fun q => { q with overrun := true })) := by
  intro core
  show execOverrun ctx queue s = _
  simp only [execOverrun, hq, hover, hfirst, Bool.not_false, Bool.and_self, if_true]
  rfl

theorem exec_overrun_of_not_over {s : State} {ctx queue : Nat} {q : Queue} (hq : s.queue? ctx queue = some q)
    (h : (q.over && !q.overrun) = false) : exec (.overrun ctx queue) s = .next s := by
  show execOverrun ctx queue s = _
  simp only [execOverrun, hq, h, Bool.false_eq_true, if_false]

/-- A write of a period that is 0 or 10 to 1,000,000, or of a budget, which stays within 256 periods (Table 21.8). -/
theorem exec_queueWrite (ctx queue : Nat) (budget : Bool) (value : Word) (s : State) :
    exec (.queueWrite ctx queue budget value) s = .next (s.mapQueue ctx queue (fun q =>
      let period :=
        if budget = false ∧ (value = 0 ∨ (10 ≤ value.toNat ∧ value.toNat ≤ 1000000)) then value else q.period
      { q with
        period := period
        budget := BitVec.ofNat 32 (min (if budget then value else q.budget).toNat (256 * period.toNat)) })) := by
  show execQueueWrite ctx queue budget value s = _
  cases budget <;> simp only [execQueueWrite, periodOf, budgetOf, Bool.false_eq_true, if_false, if_true, true_and, false_and,
    Bool.true_eq_false]

/-! ### Stops (R304) -/

theorem exec_pathStopTimeout {s : State} {g : Group} (hg : s.group? g.id = some g) (slot : Nat) :
    exec (.pathStopTimeout g.id slot) s = if g.faulting (g.half slot) then
      .next (s.setGroup (g.mapSlot slot (fun p => { p with stopped := true }))) else .next s := by
  show execPathStopTimeout g.id slot s = _
  simp only [execPathStopTimeout, hg]

/-! ### Services (R301, R302) -/

section
variable {s : State} {g : Group} {p : Pend}

/-- An answer to an instruction that waits for a service. -/
theorem exec_serviceResponse {c : Context} {t : Trap} (hg : s.group? g.id = some g) (hp : g.pend? p.id = some p)
    (hc : s.contextOf g = some c) (ht : p.status = .service t) (a : ServiceAnswer) :
    exec (.serviceResponse g.id p.id a) s = .next ((s.answered c t a).1.answerPend g p t (s.answered c t a).2) := by
  show execServiceResponse g.id p.id a s = _
  simp only [execServiceResponse, hg, hp, hc, ht]

/-- The checks that a replay makes of an instruction whose service has been answered. -/
def State.replayed (s : State) (g : Group) (p : Pend) (t : Trap) : Pend × State :=
  s.checkPend g { p with status := .inFlight, served := some t }

variable (hfetch : p.isFetch = false)
include hfetch

/-- An access that its service answers is replayed with its checks. -/
theorem State.answerPend_of_replayed {t : Trap} (hagain : t.againIn (s.replayed g p t).1.status = false)
    (hsound : (s.replayed g p t).1.isFaulted = false) :
    s.answerPend g p t true = (s.replayed g p t).2.setGroup (g.setPend (p.keepTodo (s.replayed g p t).1)) := by
  unfold State.replayed at *
  simp only [State.answerPend, hfetch, hagain, hsound, Bool.not_true, Bool.false_eq_true, if_false]

/-- A trap that its service declines, or that the replay meets again, is forwarded. -/
theorem State.answerPend_of_declined {t : Trap} {replay : Bool}
    (h : replay = false ∨ t.againIn (s.replayed g p t).1.status = true) : s.answerPend g p t replay = s.forward g p t := by
  unfold State.answerPend
  cases replay with
  | false => rfl
  | true =>
    have hagain := h.resolve_left Bool.noConfusion
    unfold State.replayed at hagain
    simp only [hfetch, hagain, Bool.not_true, Bool.false_eq_true, if_false, if_true]

/-- What is forwarded faults with subcode 0xFF, and the management log records it. -/
theorem State.forward_of_access (t : Trap) :
    s.forward g p t = ({ s with
        fresh := s.fresh + 1, log := s.log ++ [.forwarded g.id { t with sub := 0xFF, seq := s.fresh }] } : State).setGroup
      ((g.wake p.id).setPend { p with status := .faulted { t with sub := 0xFF, seq := s.fresh } }) := by
  simp only [State.forward, hfetch, Bool.false_eq_true, if_false, Trap.unserviced]

end

/-- Settles O46: each event by whether its condition holds; an answered access is replayed or forwarded
(`State.answerPend`). -/
theorem timersAndServices : Obligations.TimersAndServices := by
  refine ⟨?_, ?_, fun s ctx queue budget value => exec_queueWrite .., fun s => s.sated_eq, ?_, ?_⟩
  · intro s core slot g d c hbusy hd hc hstarved s1 s2
    have hexec := exec_watchdog_of_starved hbusy hd hc hstarved
    exact ⟨fun h => by rw [hexec, h]; rfl, fun h => by rw [hexec, h]; rfl, fun h => by rw [hexec, h]; rfl⟩
  · intro s ctx queue q hq
    refine ⟨fun hperiod hover hfirst => ?_, fun h => exec_overrun_of_not_over hq ?_, rfl, s.mem_queueCores_iff ctx queue⟩
    · refine ⟨_, _, exec_overrun_of_over hq (q.over_iff.mpr ⟨hperiod, hover⟩) hfirst, nth_mod_mem .., rfl, rfl, rfl⟩
    · rw [Bool.and_eq_false_iff, Bool.not_eq_false', ← Bool.not_eq_true, q.over_iff]
      rcases h with h | h | h
      · exact .inl fun hover => hover.1 h
      · exact .inl fun hover => absurd hover.2 h.not_gt
      · exact .inr h
  · intro s g slot hg
    rw [exec_pathStopTimeout hg slot]
    exact ⟨fun h => if_pos h, fun h => if_neg (Bool.eq_false_iff.mp h)⟩
  · intro s g p c tr a hg hp hc ht hnop htret
    have hfetch : p.isFetch = false := by simp [Pend.isFetch, hnop, htret]
    rw [exec_serviceResponse hg hp hc ht a]
    refine ⟨fun hreplay => ?_, ?_⟩
    · intro r hagain hsound
      rw [hreplay, State.answerPend_of_replayed hfetch hagain hsound]
      rfl
    · intro s' hdeclined tr'
      rw [State.answerPend_of_declined hfetch hdeclined, State.forward_of_access hfetch]

end Sys2Proof.Machine
end

section
/-! Lane words: shuffles (O11), votes and elections (O12), reductions and scans (O13). -/
namespace Sys2Proof.Machine

/-! ### Shuffles (R124) -/

/-- What a shuffle delivers to a lane: its source from lane index x of the half, where that lane is in the effective mask, else
its own. -/
def Issue.shuffled (c : Issue) (a : Src) (l : Nat) : Option Nat → Word
  | some x => if c.emask.getLsbD (c.g.laneBase c.half + x) then c.src c.typed a (c.g.laneBase c.half + x) else c.src c.typed a l
  | none => c.src c.typed a l

/-- A shuffle completes with what its lanes take from their source lanes. -/
theorem Issuing.shuffle_results {i : Instr} {s : State} {c : Issue} {cl : ClauseState} {d : Dst} {a b : Src}
    {from_ : Nat → Nat → Nat → Option Nat} (h : Issuing i s c cl) (he : exec i s = shuffle i d a b from_ s) :
    c.Results i s false d (fun l =>
      (c.shuffled a l (from_ c.g.width (l - c.g.laneBase c.half) (c.src .control b l).toNat), 0)) := by
  refine h.results he (congrArg (c.fixed i false d) (funext fun l => ?_))
  dsimp only
  cases from_ c.g.width (l - c.g.laneBase c.half) (c.src .control b l).toNat with
  | none => rfl
  | some x => exact (apply_ite (fun w : Word => (w, (0 : FFlags))) _ _ _).symm

section
variable (d : Dst) (a b : Src) (s : State)

theorem exec_shfl : exec (.shfl d a b) s = shuffle (.shfl d a b) d a b (fun w _ n => some (n % w)) s := rfl

theorem exec_shflx : exec (.shflx d a b) s = shuffle (.shflx d a b) d a b (fun w l n => some (l ^^^ (n % w))) s := rfl

theorem exec_shflup : exec (.shflup d a b) s =
    shuffle (.shflup d a b) d a b (fun _ l n => if n ≤ l then some (l - n) else none) s := rfl

end

/-- Settles O11: each word is `shuffle` with the source lane of its table row; SHFLUP has none below lane 0 of the half. -/
theorem shufflesReadAnotherLane : Obligations.ShufflesReadAnotherLane := by
  intro s c cl d a b base n pick
  refine ⟨fun h => h.shuffle_results (exec_shfl d a b s), fun h => h.shuffle_results (exec_shflx d a b s), fun h => ?_⟩
  have hup := h.shuffle_results (exec_shflup d a b s)
  have hlane : ∀ l, (c.shuffled a l (if n l ≤ l - base then some (l - base - n l) else none), (0 : FFlags)) =
      if n l ≤ l - base then pick l (l - base - n l) else (c.src c.typed a l, 0) := by
    intro l
    split <;> rfl
  rwa [funext hlane] at hup

/-! ### Votes and elections (R125, R127) -/

/-- A vote over the words of the lanes of a mask, lane by lane (R125). -/
theorem voteBit_lanesIn (k : VoteKind) (m : DWord) (f : Nat → Word) : voteBit k ((lanesIn m).map f) =
    match k with
    | .any => (lanesIn m).any (fun l => decide (f l ≠ 0))
    | .all => (lanesIn m).all (fun l => decide (f l ≠ 0))
    | .eq => (lanesIn m).all (fun l => decide (f l = f (lowestLane m)))
    | .ballot => false := by
  cases k with
  | any => exact List.any_map
  | all => exact List.all_map
  | ballot => rfl
  | eq =>
    unfold voteBit lowestLane
    cases lanesIn m with
    | nil => rfl
    | cons l ls => exact List.all_map

theorem Dst.next_zero (d : Dst) : d.next 0 = d := by
  cases d with
  | v n => exact congrArg Dst.v (Fin.ext (Nat.mod_eq_of_lt n.isLt))
  | s n => exact congrArg Dst.s (Fin.ext (Nat.mod_eq_of_lt n.isLt))

theorem Dst.next_one_ne (d : Dst) : d.next 1 ≠ d := by
  cases d with
  | v n =>
    intro h
    have := Fin.val_eq_of_eq (Dst.v.inj h)
    dsimp only at this
    omega
  | s n =>
    intro h
    have := Fin.val_eq_of_eq (Dst.s.inj h)
    dsimp only at this
    omega

/-- The words of a pair of registers: the first register's is the low half. -/
def pairWord (d : Dst) (t : DWord) (x : Dst) (_ : Nat) : Word :=
  if x = d.next 0 then t.extractLsb' 0 32 else t.extractLsb' 32 32

/-- The registers of an issue that reads its sources and writes a pair (R125). -/
theorem Stage1.writesPair (c : Issue) (i : Instr) (d : Dst) (t m : DWord) :
    Stage1 c ((((c.noteReads (i.reads c.p.mode)).write d m (fun _ => t.extractLsb' 0 32)).write (d.next 1) m
        (fun _ => t.extractLsb' 32 32)).releaseReads (i.reads c.p.mode) (vRegs (d.range 2))) (d.range 2) m (pairWord d t)
      (c.lastReads i (d.range 2)) (c.readsUnmapped i) 0 c.pbits := by
  have hlo : pairWord d t d = fun _ => t.extractLsb' 0 32 := funext fun _ => if_pos (Dst.next_zero d).symm
  have hhi : pairWord d t (d.next 1) = fun _ => t.extractLsb' 32 32 :=
    funext fun _ => if_neg (by rw [Dst.next_zero]; exact Dst.next_one_ne d)
  have hrange : d.range 2 = [] ++ [d] ++ [d.next 1] := by
    change [d.next 0, d.next 1] = _
    rw [Dst.next_zero]
    rfl
  have hwrites := ((Stage1.note (c := c) m (pairWord d t) (i.reads c.p.mode)).write d).write (d.next 1)
  rw [hlo, hhi, ← hrange] at hwrites
  exact hwrites.releaseReads (i.reads c.p.mode)

section
variable {s : State} {c : Issue} {cl : ClauseState} {d : Dst} {a : Src}

theorem bne_zero_eq_decide (w : Word) : (w != 0) = decide (w ≠ 0) := by
  rw [bne, Bool.beq_eq_decide_eq, decide_not]

/-- A ballot completes with the mask of the lanes that vote, in a pair of registers (R125). -/
theorem Issuing.ballot_gives (h : Issuing (.vote (.reg d) a .ballot) s c cl) :
    c.Gives (.vote (.reg d) a .ballot) s (if c.emask = 0 then [] else d.range 2) c.emask
      (pairWord d (maskOf (fun x => c.emask.getLsbD (c.g.laneBase c.half + x) &&
        decide (c.src c.typed a (c.g.laneBase c.half + x) ≠ 0)))) 0 c.pbits := by
  by_cases hm : c.emask = 0
  · rw [if_pos hm]
    obtain ⟨c', hidle, d'⟩ := c.idle_stage (.vote (.reg d) a .ballot) c.emask (pairWord d _)
    exact h.gives rfl ((if_pos hm).trans hidle) d'
  · rw [if_neg hm]
    simp only [← bne_zero_eq_decide]
    exact h.gives rfl (if_neg hm) (Stage1.writesPair c _ d _ c.emask)

end

/-- Settles O12: a vote is `voteBit` over the words of the lanes (`voteBit_lanesIn`), a ballot a pair of registers. -/
theorem votesAndElections : Obligations.VotesAndElections := by
  intro s c cl d p n a k
  refine ⟨fun hk h => ?_, fun hk h => ?_, fun h => h.ballot_gives, fun h => h.sets rfl rfl,
    fun h => h.results rfl rfl, fun h => h.results rfl rfl, rfl⟩
  · refine h.sets rfl (congrArg (c.fixedP _ false p) ?_)
    funext l
    rw [voteBit_lanesIn]
    rfl
  · refine h.results rfl ((if_neg hk).trans (congrArg (c.fixed _ false d) ?_))
    funext l
    rw [voteBit_lanesIn]
    rfl

/-! ### Reductions and scans (R126, R59) -/

/-- Settles O13: the tree is `Issue.tree` of the type that the operation works in; LRED takes its value over the whole width,
LSCAN that of each lane. -/
theorem reductionsAndScans : Obligations.ReductionsAndScans := by
  intro s c cl d a op ex
  cases ht : redType op (modeType c.p.mode) with
  | none =>
    exact ⟨fun h => h.raises rfl (by rw [ht]), fun h => h.raises rfl (by rw [ht])⟩
  | some t =>
    exact ⟨fun h => h.results rfl (by rw [ht]; rfl), fun h => h.results rfl (by rw [ht]; rfl)⟩

end Sys2Proof.Machine
end

section
/-! Table 7.1: what the JOIN test of a path does, row by row (O24). -/
namespace Sys2Proof.Machine

/-! ### The top of the spill stack -/

section
variable {g : Group} {half : Nat} {pj : Word} {l : List SpillEntry}

theorem Group.matching_of_top {e : PathSet} (hs : (g.bank half).spill = .pathSet e :: l) (he : e.pjoin = some pj) :
    g.matching half pj = some e := by
  unfold Group.matching
  rw [hs]
  exact if_pos he

theorem Group.top_of_matching {e : PathSet} (h : g.matching half pj = some e) :
    (g.bank half).spill.head? = some (.pathSet e) ∧ e.pjoin = some pj := by
  unfold Group.matching at h
  split at h
  · split at h
    · cases h
      exact ⟨‹_›, ‹_›⟩
    · cases h
  · cases h
  · cases h

theorem Group.matching_eq_none (h : ∀ e, (g.bank half).spill.head? = some (.pathSet e) → e.pjoin ≠ some pj) :
    g.matching half pj = none := by
  rw [Option.eq_none_iff_forall_ne_some]
  intro e he
  obtain ⟨htop, hpj⟩ := Group.top_of_matching he
  exact h e htop hpj

theorem Group.pop_of_top {e : SpillEntry} (hs : (g.bank half).spill = e :: l) :
    g.pop half = g.setBank half { g.bank half with spill := l } := by
  unfold Group.pop
  rw [hs]
  rfl

theorem Group.setBank_setBank (g : Group) (half : Nat) (a b : Bank) : (g.setBank half a).setBank half b = g.setBank half b := by
  unfold Group.setBank
  split <;> rfl

/-- The top replaced. -/
theorem Group.push_pop_of_top {e : SpillEntry} (hs : (g.bank half).spill = e :: l) (x : SpillEntry) :
    (g.pop half).push half x = g.setBank half { g.bank half with spill := x :: l } := by
  unfold Group.push
  rw [Group.pop_of_top hs, Group.setBank_setBank, Group.bank_setBank_self]

end

theorem Group.rival_of_native {g : Group} (h : g.ganged = false) (k : Nat) : g.rival k = g.slot (1 - k) := by
  unfold Group.rival
  rw [h]
  rfl

theorem Group.rival_of_ganged {g : Group} (h : g.ganged = true) (k : Nat) : g.rival k = none := by
  unfold Group.rival
  rw [h]
  rfl

/-! ### The rows -/

section
variable {g : Group} {k since : Nat} {p q : Path} {pj : Word} {e : PathSet}

section
variable (hp : p.pjoin = some pj)
include hp

/-- Row 1. -/
theorem Group.joinRow_of_set_at_join (hm : g.matching (g.half k) pj = some e) (hpc : e.pc = pj) :
    g.joinRow k p since = some (g.joinSet k p e) := by
  unfold Group.joinRow
  rw [hp]
  dsimp only
  rw [hm]
  cases g.rival k with
  | none => exact if_pos hpc
  | some q => exact if_pos hpc

/-- Rows 2 and 4: the other path has the same join; the two are one once it stands there. -/
theorem Group.joinRow_of_pair (hm : ∀ e, g.matching (g.half k) pj = some e → e.pc ≠ pj) (hr : g.rival k = some q)
    (hq : q.pjoin = some pj) : g.joinRow k p since = q.atJoin.map (g.joinPaths p q since) := by
  unfold Group.joinRow
  rw [hp]
  dsimp only
  rw [hr]
  cases hmatch : g.matching (g.half k) pj with
  | none => exact if_pos hq
  | some e => exact (if_neg (hm e hmatch)).trans (if_pos hq)

/-- Row 3. -/
theorem Group.joinRow_of_free_slot (hm : g.matching (g.half k) pj = some e) (hpc : e.pc ≠ pj) (hg : g.ganged = false)
    (hr : g.rival k = none) : g.joinRow k p since = some ((g.pop (g.half k)).startSet (1 - k) e) := by
  unfold Group.joinRow
  rw [hp]
  dsimp only
  rw [hm, hr]
  exact (if_neg hpc).trans (if_neg (by rw [hg]; exact Bool.false_ne_true))

/-- Row 5. -/
theorem Group.joinRow_of_no_slot (hm : g.matching (g.half k) pj = some e) (hpc : e.pc ≠ pj)
    (hr : g.ganged = true ∨ ∃ q, g.rival k = some q ∧ q.pjoin ≠ some pj) :
    g.joinRow k p since = g.joinSwap k p pj e := by
  unfold Group.joinRow
  rw [hp]
  dsimp only
  rw [hm]
  rcases hr with hg | ⟨q, hr, hq⟩
  · rw [Group.rival_of_ganged hg]
    exact (if_neg hpc).trans (if_pos hg)
  · rw [hr]
    exact (if_neg hpc).trans (if_neg hq)

/-- Row 6. -/
theorem Group.joinRow_of_other_join (hm : g.matching (g.half k) pj = none) (hr : g.rival k = some q)
    (hq : q.pjoin ≠ some pj) : g.joinRow k p since = none := by
  unfold Group.joinRow
  rw [hp]
  dsimp only
  rw [hm, hr]
  exact if_neg hq

/-- Row 7. -/
theorem Group.joinRow_of_alone (hm : g.matching (g.half k) pj = none) (hr : g.rival k = none) :
    g.joinRow k p since = some (g.joinDone k p pj) := by
  unfold Group.joinRow
  rw [hp]
  dsimp only
  rw [hm, hr]

end

/-- Row 5 with the stack that it leaves. -/
theorem Group.joinSwap_of_top {l : List SpillEntry} (hs : (g.bank (g.half k)).spill = .pathSet e :: l) :
    g.joinSwap k p pj e = if p.flagsZero then some (((g.setBank (g.half k) { g.bank (g.half k) with
      spill := .pathSet { pc := pj, pjoin := some pj, mask := p.mask, mode := p.mode, owns := g.ownedBy k, drain := p.drain } :: l
      }).disown k).startSet k e) else none := by
  unfold Group.joinSwap
  dsimp only
  rw [Group.push_pop_of_top hs]

/-- Row 7 with a saved join on top, and without one. -/
theorem Group.joinDone_eq (g : Group) (k : Nat) (p : Path) (pj : Word) : g.joinDone k p pj =
    match (g.bank (g.half k)).spill with
    | .savedJoin j :: l => (g.setBank (g.half k) { g.bank (g.half k) with spill := l }).setSlot k
        (some { p with pc := pj, pjoin := some j, park := .running, clause := none })
    | _ => g.setSlot k (some { p with pc := pj, pjoin := none, park := .running, clause := none }) := by
  unfold Group.joinDone
  dsimp only
  cases hs : (g.bank (g.half k)).spill with
  | nil => rfl
  | cons e l =>
    cases e with
    | pathSet e => rfl
    | savedJoin j => exact congrArg (fun G : Group => G.setSlot k _) (Group.pop_of_top hs)

end

/-- A merged flag counts the instructions of both paths (R105). -/
theorem countFlag_merged (l : List Pend) (f : Nat) :
    countFlag ((l.map (fun r => { r with owner0 := r.owner0 || r.owner1, owner1 := false })).filter (fun r => r.owner0)) f =
      countFlag (l.filter (fun r => r.owner0 || r.owner1)) f := by
  unfold countFlag
  rw [List.filter_map, List.filter_map, List.length_map]
  rfl

/-- Settles O24: each row by its lemma, with what the row does to the stack written out. -/
theorem joinTableRows : Obligations.JoinTableRows := by
  intro g k p since pj hp b parked popped starts
  refine ⟨fun e l hs hpj hpc => ?_, fun q qs hs hg hslot hq hat => ?_, fun e l hs hpj hpc hg hslot => ?_,
    fun e l hs hpj hpc hr => ?_, fun e l q hs hpj hpc hg hslot hq hat => ?_, fun q hs hg hslot hq => ?_,
    fun hs hr => ?_⟩
  · rw [Group.joinRow_of_set_at_join hp (Group.matching_of_top hs hpj) hpc]
    unfold Group.joinSet
    rw [Group.pop_of_top hs]
  · have hpair := Group.joinRow_of_pair (g := g) (k := k) (since := since) hp
      (fun e he => hs e (Group.top_of_matching he).1 (Group.top_of_matching he).2)
      ((Group.rival_of_native hg k).trans hslot) hq
    rw [hat] at hpair
    refine ⟨_, _, hpair, rfl, rfl, rfl, hp, ?_, ?_, rfl⟩
    · exact apply_ite Path.mode _ _ _
    · exact List.map_congr_left fun f _ => congrArg (BitVec.ofNat 6) (countFlag_merged g.pend f)
  · rw [Group.joinRow_of_free_slot hp (Group.matching_of_top hs hpj) hpc hg ((Group.rival_of_native hg k).trans hslot),
      Group.pop_of_top hs]
    rfl
  · have hr' : g.ganged = true ∨ ∃ q, g.rival k = some q ∧ q.pjoin ≠ some pj := by
      cases hg : g.ganged with
      | true => exact .inl rfl
      | false =>
        rw [Group.rival_of_native hg]
        exact .inr (hr.resolve_left (by rw [hg]; exact Bool.false_ne_true))
    rw [Group.joinRow_of_no_slot hp (Group.matching_of_top hs hpj) hpc hr', Group.joinSwap_of_top hs]
    rfl
  · have hm := Group.matching_of_top (pj := pj) hs hpj
    rw [Group.joinRow_of_pair hp (by rw [hm]; rintro _ ⟨⟩; exact hpc) ((Group.rival_of_native hg k).trans hslot) hq, hat]
    rfl
  · have hr := (Group.rival_of_native hg k).trans hslot
    have hm := Group.matching_eq_none hs
    by_cases hsame : q.pjoin = some pj
    · rw [Group.joinRow_of_pair hp (by rw [hm]; rintro _ ⟨⟩) hr hsame, hq.resolve_left (not_not_intro hsame)]
      rfl
    · exact Group.joinRow_of_other_join hp hm hr hsame
  · have hr' : g.rival k = none := by
      cases hg : g.ganged with
      | true => exact Group.rival_of_ganged hg k
      | false => rw [Group.rival_of_native hg, hr.resolve_left (by rw [hg]; exact Bool.false_ne_true)]
    rw [Group.joinRow_of_alone hp (Group.matching_eq_none hs) hr']
    exact congrArg some (g.joinDone_eq k p pj)

end Sys2Proof.Machine
end

section
/-! Words that split and join paths: BDIV (O21), SETJ (O22), JOIN (O23). -/
namespace Sys2Proof.Machine

/-! ### A group written back as it is -/

theorem State.reap_of_slot {s : State} {n k : Nat} {g : Group} {p : Path} (hg : s.group? n = some g) (hk : g.slot k = some p) :
    s.reap n = s := by
  unfold State.reap
  rw [hg]
  exact if_pos (by rw [Group.not_ended_of_slot hk]; rfl)

/-- A group h stands in its place in t, and s is otherwise as it was, but for the lists of R113. -/
structure State.Settled (s : State) (h : Group) (t : State) : Prop where
  rest : t = { s with groups := t.groups }
  here : t.group? h.id = some h
  others : ∀ n, n ≠ h.id → (t.group? n).map Group.plain = (s.group? n).map Group.plain

/-- A group with a path, for which the JOIN tests end in h, written back (R121, R113, R77). -/
theorem State.settle_of_joins {s : State} {g h : Group} {k : Nat} {p : Path} (hj : g.joins 80 = h) (hk : h.slot k = some p)
    (hs : (s.group? h.id).isSome) (hO : h.owed = []) : s.Settled h (s.settle g) := by
  have hput : (s.setGroup h).group? h.id = some h := State.group?_setGroup_self hs
  have hother : ∀ n, n ≠ h.id → (s.setGroup h).group? n = s.group? n := fun n hn => State.group?_setGroup_other hn
  unfold State.settle
  dsimp only
  rw [hj]
  split
  · have hleave : ((s.setGroup h).leaveOwed h.id).group? h.id = some h := by
      rw [State.group?_leaveOwed, hput, Option.map_some, hO, List.filter_nil, ← hO]
    rw [State.reap_of_slot hleave hk]
    refine ⟨rfl, hleave, fun n hn => ?_⟩
    rw [State.group?_leaveOwed, hother n hn, Option.map_map]
    rfl
  · rw [State.reap_of_slot hput hk]
    exact ⟨rfl, hput, fun n hn => by rw [hother n hn]⟩

/-- The end of a clause leaves a group that waits for none as it is (R113). -/
theorem State.Settled.clauseIssued {s t : State} {h : Group} (d : s.Settled h t) (hO : h.owed = []) (n k : Nat) :
    s.Settled h (t.clauseIssued n k) where
  rest := by
    rw [d.rest]
    rfl
  here := by rw [State.group?_clauseIssued, d.here, Option.map_some, hO, List.filter_nil, ← hO]
  others := fun m hm => by
    rw [← d.others m hm, State.group?_clauseIssued, Option.map_map]
    rfl

/-- A word commits a group with a path, for which the JOIN tests end in H: exactly H. -/
theorem Issue.commit_becomes_of_joins {c : Issue} {G H : Group} {k : Nat} {p : Path} (ended : Bool)
    (hj : (G.counted c.s.issues).joins 80 = H.counted c.s.issues) (hk : H.slot k = some p)
    (hs : (c.s.group? H.id).isSome) (hO : H.owed = []) : Becomes c.s H (c.commit G ended) := by
  have hsettled := State.settle_of_joins (s := { c.s with issues := c.s.issues + 1 }) (k := k) (p := p) hj hk hs hO
  have hcommitted : State.Settled { c.s with issues := c.s.issues + 1 } (H.counted c.s.issues) (c.commit G ended) := by
    cases ended with
    | false => exact hsettled
    | true => exact hsettled.clauseIssued hO G.id c.k
  exact ⟨hcommitted.rest, hcommitted.here, hcommitted.others⟩

section
variable {i : Instr} {s : State} {c : Issue} {cl : ClauseState} {body : Issue → Eff} (h : Issuing i s c cl)
include h

/-- A word whose effect commits a group for which the JOIN tests end in H. -/
theorem Issuing.becomes_of_joins (he : exec i s = issue i body s) {c' : Issue} {G H : Group} {P : Path} (ended : Bool)
    (hb : (body c).apply c = c'.commit G ended) (hs : c'.s = c.s)
    (hj : (G.counted s.issues).joins 80 = H.counted s.issues) (hid : H.id = c.g.id)
    (howed : H.owed = c.g.owed) (hk : H.slot c.k = some P) : ∃ t, exec i s = .next t ∧ Becomes s H t := by
  obtain ⟨hcs, -, hg, -⟩ := State.issue?_spec h.path
  have hs' : c'.s = s := hs.trans hcs
  refine ⟨_, by rw [he, issue_of_issuing h, hb], ?_⟩
  have hb := Issue.commit_becomes_of_joins (c := c') (G := G) ended (by rw [hs']; exact hj) hk
    (by rw [hs', hid, hg]; rfl) (howed.trans h.owed)
  rwa [hs'] at hb

/-- A word whose effect commits a group without a path at JOIN. -/
theorem Issuing.becomes (he : exec i s = issue i body s) {c' : Issue} {G : Group} {P : Path} (ended : Bool)
    (hb : (body c).apply c = c'.commit G ended) (hs : c'.s = c.s) (hj : G.noJoin = true) (hid : G.id = c.g.id)
    (howed : G.owed = c.g.owed) (hk : G.slot c.k = some P) : ∃ t, exec i s = .next t ∧ Becomes s G t :=
  h.becomes_of_joins he ended hb hs (Group.joins_none (g := G.counted s.issues) hj 80) hid howed hk

theorem Issuing.not_atJoin : c.p.atJoin = none := Path.atJoin_of_running h.running

end

/-- A group whose two slots hold no path at JOIN. -/
theorem Group.noJoin_of_slots {g : Group} (k : Nat) (h : ∀ q, g.slot k = some q → q.atJoin = none)
    (h' : ∀ q, g.slot (1 - k) = some q → q.atJoin = none) : g.noJoin = true := by
  have hall : ∀ {o : Option Path}, (∀ q, o = some q → q.atJoin = none) → o.toList.all (fun q => q.atJoin.isNone) = true := by
    intro o ho
    cases o with
    | none => rfl
    | some q => simp [ho q rfl]
  unfold Group.noJoin
  rw [List.all_append, Bool.and_eq_true]
  by_cases hk : k = 0
  · subst hk
    exact ⟨hall h, hall h'⟩
  · have hk' : 1 - k = 0 := by omega
    rw [hk'] at h'
    exact ⟨hall h', hall (by simpa [Group.slot, hk] using h)⟩

/-! ### BDIV (R120) -/

section
variable {s : State} {c : Issue} {cl : ClauseState} {neg : Bool} {p : Fin 8} {off : BitVec 19}

/-- The taken set as the lanes of the mask that take the branch. -/
theorem Issue.split_eq (c : Issue) (neg : Bool) (p : Fin 8) :
    c.p.mask &&& maskOf (fun l => c.pbits p l != neg) = (c.split neg p).1 := by
  refine BitVec.eq_of_getLsbD_eq fun l hl => ?_
  rw [c.split_taken neg p hl, BitVec.getLsbD_and, maskOf_bit _ l hl]
  rfl

/-- The taken set as it goes to the stack (Table 6.3). -/
def Issue.takenSet (c : Issue) (neg : Bool) (p : Fin 8) (off : BitVec 19) : PathSet where
  pc := jumpTarget c.p.pc off.toInt
  pjoin := c.p.pjoin
  mask := (c.split neg p).1
  mode := c.p.mode
  owns := c.g.ownedBy c.k
  drain := c.p.drain

variable (h : Issuing (.bdiv neg p off) s c cl) (ht : (c.split neg p).1 ≠ 0) (hf : (c.split neg p).2 ≠ 0)
include h ht hf

/-- The taken set runs in the other slot; both paths own what their path had in flight. -/
theorem Issuing.bdiv_takes_slot (hfree : c.g.otherFree c.k = true) :
    ∃ t, exec (.bdiv neg p off) s = .next t ∧ Becomes s
      ((({ c.g with pend := c.g.pend.map (fun (r : Pend) =>
        if r.owner c.k then { r with owner0 := true, owner1 := true } else r) }).setSlot (1 - c.k)
          (some { c.p with pc := jumpTarget c.p.pc off.toInt, mask := (c.split neg p).1, clause := none })).setSlot c.k
        (some { c.p with pc := c.p.pc + 4, mask := (c.split neg p).2, clause := none })) t := by
  refine h.becomes rfl true (c' := { c with g := _, p := { c.p with mask := (c.split neg p).2 } })
    (congrArg (Eff.apply c) ((if_neg ht).trans ((if_neg hf).trans (if_pos hfree)))) rfl ?_ ?_ ?_ (Group.slot_setSlot_self ..)
  · refine Group.noJoin_of_slots c.k (fun q hq => ?_) (fun q hq => ?_)
    · rw [Group.slot_setSlot_self] at hq
      cases hq
      exact h.not_atJoin
    · rw [Group.slot_setSlot_other', Group.slot_setSlot_self] at hq
      cases hq
      exact h.not_atJoin
  · rw [Group.setSlot_id, Group.setSlot_id]
  · rw [Group.setSlot_owed, Group.setSlot_owed]

variable (hfree : c.g.otherFree c.k = false)
include hfree

/-- The taken set goes to the spill stack. -/
theorem Issuing.bdiv_spills (hroom : 0 < c.g.spillRoom c.half) (hj : c.g.noJoin = true) :
    ∃ t, exec (.bdiv neg p off) s = .next t ∧ Becomes s
      ((c.g.push c.half (.pathSet (c.takenSet neg p off))).setSlot c.k
        (some { c.p with pc := c.p.pc + 4, mask := (c.split neg p).2, clause := none })) t := by
  have hfree' : ¬ c.g.otherFree c.k = true := by rw [hfree]; exact Bool.false_ne_true
  refine h.becomes rfl true (c' := { c with g := _, p := { c.p with mask := (c.split neg p).2 } })
    (congrArg (Eff.apply c) ((if_neg ht).trans ((if_neg hf).trans ((if_neg hfree').trans (if_neg (by omega)))))) rfl
    (Group.noJoin_setSlot ?_ ?_ _) ?_ ?_ (Group.slot_setSlot_self ..)
  · unfold Group.push Group.setBank
    split <;> exact hj
  · exact h.not_atJoin
  · rw [Group.setSlot_id]
    exact Group.setBank_id' ..
  · rw [Group.setSlot_owed]
    exact Group.setBank_owed' ..

/-- A full stack (R120). -/
theorem Issuing.bdiv_raises (hroom : c.g.spillRoom c.half = 0) :
    exec (.bdiv neg p off) s = .next (c.raise (mkTrap .spill)) := by
  have hfree' : ¬ c.g.otherFree c.k = true := by rw [hfree]; exact Bool.false_ne_true
  exact h.raises rfl ((if_neg ht).trans ((if_neg hf).trans ((if_neg hfree').trans (if_pos hroom))))

end

/-- Settles O21: lanes that all go one way go as with BRA; else the taken set has the other slot or the stack. -/
theorem bdivSplitsThePath : Obligations.BdivSplitsThePath := by
  intro s c cl neg p off i taken rest target spilled h
  have htaken : taken = (c.split neg p).1 := c.split_eq neg p
  have hrest : rest = (c.split neg p).2 := congrArg (fun t => c.p.mask &&& ~~~t) htaken
  clear_value taken rest
  subst htaken hrest
  refine ⟨fun ht => ?_, fun ht hf => ?_, fun ht hf hfree => h.bdiv_takes_slot ht hf hfree,
    fun ht hf hfree hroom hj => h.bdiv_spills ht hf hfree hroom hj,
    fun ht hf hfree hroom => h.bdiv_raises ht hf hfree hroom⟩
  · exact h.goesTo rfl (if_pos ht) (Stage1.refl_of_noV rfl rfl)
  · exact h.goesTo rfl ((if_neg ht).trans (if_pos hf)) (Stage1.refl_of_noV rfl rfl)

/-! ### SETJ (R119) -/

/-- The place of a join that a SETJ sets, from its word (R119). -/
def Issue.joinAt (c : Issue) (off : BitVec 24) : Option Word := some (jumpTarget c.p.pc off.toInt)

/-- A group whose other path is demoted below a saved join, written field by field. -/
theorem Group.demoted_eq (g : Group) (k half : Nat) (e x : SpillEntry) :
    ({ ((((g.push half e).setSlot (1 - k) none).push half x).disown (1 - k)) with demote := none } : Group) =
      ({ g with
        demote := none
        pend := g.pend.map (fun (r : Pend) => if k = 0 then { r with owner1 := false } else { r with owner0 := false }) }.setBank
          half { g.bank half with spill := x :: e :: (g.bank half).spill }).setSlot (1 - k) none := by
  unfold Group.disown Group.push Group.setBank Group.setSlot Group.bank
  by_cases hk : k = 0
  · subst hk
    by_cases hh : half = 0 <;> simp [hh]
  · have hk' : 1 - k = 0 := by omega
    by_cases hh : half = 0 <;> simp [hk, hk', hh]

section
variable {s : State} {c : Issue} {cl : ClauseState} {off : BitVec 24} {j : Word} {q : Path}
  (h : Issuing (.setj off) s c cl) (hj : c.p.pjoin = some j)
include hj

/-- The effect of SETJ over a pending join in a group without another path to demote. -/
theorem execSetj_alone (ho : c.other = none) : ∃ body, exec (.setj off) s = issue (.setj off) body s ∧ body c =
    if c.g.spillRoom c.half < 1 then .raise (mkTrap .spill)
    else .done { c with
      g := ({ c.g with demote := none } : Group).push c.half (.savedJoin j)
      p := { c.p with pjoin := c.joinAt off } } := by
  refine ⟨_, rfl, ?_⟩
  dsimp only
  rw [hj, ho]
  rfl

/-- The effect of SETJ over a pending join beside another path. -/
theorem execSetj_beside (ho : c.other = some q) : ∃ body, exec (.setj off) s = issue (.setj off) body s ∧ body c =
    if c.g.spillRoom c.half < 2 then .raise (mkTrap .spill)
    else if !q.demotable then .wait { c.g with demote := some c.k }
    else .done { c with
      g := { ((((c.g.push c.half (.pathSet { q.asSet with owns := c.g.ownedBy (1 - c.k) })).setSlot (1 - c.k) none).push c.half
        (.savedJoin j)).disown (1 - c.k)) with demote := none }
      p := { c.p with pjoin := c.joinAt off } } := by
  refine ⟨_, rfl, ?_⟩
  dsimp only
  rw [hj, ho]
  rfl

include h

/-- The pending join is saved on the stack. -/
theorem Issuing.setj_saves (ho : c.other = none) (hroom : 1 ≤ c.g.spillRoom c.half) (hn : c.g.noJoin = true) :
    ∃ t, exec (.setj off) s = .next t ∧ Becomes s
      ((({ c.g with demote := none } : Group).setBank c.half
        { c.bank with spill := .savedJoin j :: c.bank.spill }).setSlot c.k
          (some { c.p.advance with pjoin := c.joinAt off })) t := by
  obtain ⟨body, he, hb⟩ := execSetj_alone (s := s) (off := off) hj ho
  rw [if_neg (by omega)] at hb
  refine h.becomes he (P := { c.p.advance with pjoin := c.joinAt off }) c.p.advance.clause.isNone
    (congrArg (Eff.apply c) hb) rfl (Group.noJoin_setSlot ?_ ?_ _) ?_ ?_ (Group.slot_setSlot_self ..)
  · unfold Group.setBank
    split <;> exact hn
  · exact h.not_atJoin
  · rw [Group.setSlot_id, Group.setBank_id']
  · rw [Group.setSlot_owed, Group.setBank_owed']

/-- The other path goes to the stack, below the pending join. -/
theorem Issuing.setj_demotes (ho : c.other = some q) (hroom : 2 ≤ c.g.spillRoom c.half) (hd : q.demotable = true) :
    ∃ t, exec (.setj off) s = .next t ∧ Becomes s
      (((({ c.g with
        demote := none
        pend := c.g.pend.map (fun (r : Pend) => if c.k = 0 then { r with owner1 := false } else { r with owner0 := false }) }).setBank
          c.half { c.bank with spill := .savedJoin j :: .pathSet { q.asSet with owns := c.g.ownedBy (1 - c.k) } :: c.bank.spill }).setSlot
            (1 - c.k) none).setSlot c.k (some { c.p.advance with pjoin := c.joinAt off })) t := by
  obtain ⟨body, he, hb⟩ := execSetj_beside (s := s) (off := off) hj ho
  rw [if_neg (by omega), if_neg (by rw [hd]; exact Bool.false_ne_true), Group.demoted_eq] at hb
  refine h.becomes he (P := { c.p.advance with pjoin := c.joinAt off }) c.p.advance.clause.isNone
    (congrArg (Eff.apply c) hb) rfl ?_ ?_ ?_ (Group.slot_setSlot_self ..)
  · refine Group.noJoin_of_slots c.k (fun q hq => ?_) (fun q hq => ?_)
    · rw [Group.slot_setSlot_self] at hq
      cases hq
      exact h.not_atJoin
    · rw [Group.slot_setSlot_other', Group.slot_setSlot_self] at hq
      cases hq
  · rw [Group.setSlot_id, Group.setSlot_id, Group.setBank_id']
  · rw [Group.setSlot_owed, Group.setSlot_owed, Group.setBank_owed']

/-- A path that may not be demoted yet holds SETJ, and its group records the demotion. -/
theorem Issuing.setj_waits (ho : c.other = some q) (hroom : 2 ≤ c.g.spillRoom c.half) (hd : q.demotable = false) :
    ∃ t, exec (.setj off) s = .next t ∧ Puts s { c.g with demote := some c.k } t := by
  obtain ⟨body, he, hb⟩ := execSetj_beside (s := s) (off := off) hj ho
  rw [if_neg (by omega), if_pos (by rw [hd]; rfl)] at hb
  obtain ⟨hs, -, hg, -⟩ := State.issue?_spec h.path
  refine ⟨_, by rw [he, issue_of_issuing h, hb], ?_⟩
  have hsome : (c.s.group? c.g.id).isSome := by rw [hs, hg]; rfl
  have hputs := State.setGroup_puts (s := c.s) (G := { c.g with demote := some c.k }) hsome
  rw [hs] at hputs
  rw [← hs] at hputs ⊢
  exact hputs

end

/-- Settles O22: by whether there is another path to demote, room for what goes on the stack, and leave to demote it. -/
theorem setjSavesThePendingJoin : Obligations.SetjSavesThePendingJoin := by
  intro s c cl off j hj i P room h
  refine ⟨fun ho hroom hn => h.setj_saves hj ho hroom hn, fun ho hroom => ?_, fun q ho => ⟨fun hroom => ?_,
    fun hroom hd => h.setj_waits hj ho hroom hd, fun hroom hd => h.setj_demotes hj ho hroom hd⟩⟩
  · obtain ⟨body, he, hb⟩ := execSetj_alone (s := s) (off := off) hj ho
    exact h.raises he (hb.trans (if_pos (show room < 1 by omega)))
  · obtain ⟨body, he, hb⟩ := execSetj_beside (s := s) (off := off) hj ho
    exact h.raises he (hb.trans (if_pos hroom))

/-! ### JOIN (R121) -/

/-- In a native group the slots are 0 and any other number, also for Table 7.1. -/
theorem Group.joinRow_of_ne_zero {g : Group} {k : Nat} (hk : k ≠ 0) (hg : g.ganged = false) (p : Path) (since : Nat) :
    g.joinRow k p since = g.joinRow 1 p since := by
  have hother : 1 - k = 1 - 1 := by omega
  simp only [Group.joinRow, Group.half, Group.rival, Group.joinSet, Group.joinSwap, Group.joinDone, Group.startSet,
    Group.setSlot, Group.adopt, Group.disown, Group.ownedBy, Pend.owner, hk, hg, hother, one_ne_zero, Bool.false_eq_true, if_false]

/-- Where only the path of slot k of a native group stands at JOIN, the JOIN tests begin with its row. -/
theorem Group.joins_succ_of_native {g : Group} {k since : Nat} {p : Path} (hg : g.ganged = false) (hk : g.slot k = some p)
    (hp : p.atJoin = some since) (ho : ∀ q, g.slot (1 - k) = some q → q.atJoin = none) (n : Nat) :
    g.joins (n + 1) = ((g.joinRow k p since).map (Group.joins n)).getD g := by
  have hother : g.tryJoin (1 - k) = none := by
    unfold Group.tryJoin
    cases hq : g.slot (1 - k) with
    | none => rfl
    | some q => simp only [ho q hq]
  have hrow : ∀ j, g.slot j = some p → g.tryJoin j = g.joinRow j p since := by
    intro j hj
    unfold Group.tryJoin
    simp only [hj, hp]
  unfold Group.joins
  by_cases h0 : k = 0
  · subst h0
    rw [hrow 0 hk, hother]
    cases g.joinRow 0 p since <;> rfl
  · have h1 : 1 - k = 0 := by omega
    have hk1 : g.slot 1 = some p := by rw [← hk]; simp [Group.slot, h0]
    rw [h1] at hother
    rw [hother, hrow 1 hk1, Group.joinRow_of_ne_zero h0 hg]
    cases g.joinRow 1 p since <;> rfl

/-- When the path parks: after the other path, where that stands at JOIN already (Table 7.1). -/
def Issue.joinTurn (c : Issue) : Nat :=
  match c.other with
  | some q => (match q.atJoin with
      | some n => n + 1
      | none => 0)
  | none => 0

theorem Issue.joinTurn_of_other {c : Issue} {q : Path} (ho : c.other = some q) (hq : q.atJoin = none) : c.joinTurn = 0 := by
  unfold Issue.joinTurn
  simp only [ho, hq]

/-- The path as it stands at its JOIN. -/
def Issue.parked (c : Issue) : Path := { c.p with park := .join c.joinTurn, clause := none }

/-- The group as a JOIN leaves it to the JOIN tests. -/
def Issue.atJoin (c : Issue) : Group := c.g.setSlot c.k (some c.parked)

theorem exec_join (s : State) : exec .join s = issue .join (fun c => match c.p.pjoin with
    | none => .raise trIllegal
    | some _ => .final c c.atJoin) s := rfl

section
variable (c : Issue) (n : Nat)

theorem Group.setSlot_counted (g : Group) (k n : Nat) (p : Option Path) :
    (g.counted n).setSlot k p = (g.setSlot k p).counted n := by
  unfold Group.counted Group.setSlot
  split <;> rfl

theorem Group.setBank_counted (g : Group) (half n : Nat) (b : Bank) :
    (g.counted n).setBank half b = (g.setBank half b).counted n := by
  unfold Group.counted Group.setBank
  split <;> rfl

theorem Issue.ganged_atJoin : (c.atJoin.counted n).ganged = c.g.ganged := Group.setSlot_ganged ..

theorem Issue.half_atJoin : (c.atJoin.counted n).half c.k = c.half := Group.half_setSlot ..

theorem Issue.bank_atJoin : (c.atJoin.counted n).bank c.half = c.bank := Group.bank_setSlot ..

theorem Issue.slot_atJoin : (c.atJoin.counted n).slot c.k = some c.parked := Group.slot_setSlot_self ..

theorem Issue.other_atJoin : (c.atJoin.counted n).slot (1 - c.k) = c.g.slot (1 - c.k) := Group.slot_setSlot_other' ..

theorem Issue.matching_atJoin {pj : Word} (h : ∀ e, c.bank.spill.head? = some (.pathSet e) → e.pjoin ≠ some pj) :
    (c.atJoin.counted n).matching ((c.atJoin.counted n).half c.k) pj = none := by
  refine Group.matching_eq_none ?_
  rw [c.half_atJoin, c.bank_atJoin]
  exact h

end

section
variable {s : State} {c : Issue} {cl : ClauseState} {pj : Word} (h : Issuing .join s c cl) (hpj : c.p.pjoin = some pj)
  (hg : c.g.ganged = false)

include h in
/-- A path that goes on from its JOIN is as it was, but for its place and its pending join. -/
theorem Issuing.resumed (o : Option Word) :
    ({ c.parked with pc := pj, pjoin := o, park := .running, clause := none } : Path) =
      { c.p with pc := pj, pjoin := o, clause := none } := by
  rw [← h.running]
  rfl

include h hpj hg

/-- JOIN in a native group whose other path is not at JOIN, from what the row of its path gives. -/
theorem Issuing.join_becomes {H : Group} {P : Path} (ho : ∀ q, c.g.slot (1 - c.k) = some q → q.atJoin = none)
    (hrow : (((c.atJoin.counted s.issues).joinRow c.k c.parked c.joinTurn).map (Group.joins 79)).getD
      (c.atJoin.counted s.issues) = H.counted s.issues)
    (hid : H.id = c.g.id) (howed : H.owed = c.g.owed) (hk : H.slot c.k = some P) :
    ∃ t, exec .join s = .next t ∧ Becomes s H t := by
  refine h.becomes_of_joins (exec_join s) (G := c.atJoin) (c' := c) true (by simp only [hpj]; rfl) rfl ?_ hid howed hk
  rw [← hrow]
  exact Group.joins_succ_of_native ((c.ganged_atJoin _).trans hg) (c.slot_atJoin _) rfl (by rwa [c.other_atJoin]) 79

/-- A path alone at its join goes on after it, and H is its group with what row 7 does to the stack. -/
theorem Issuing.join_goes_on (ho : c.g.slot (1 - c.k) = none) (htop : ∀ e, c.bank.spill.head? ≠ some (.pathSet e))
    {H : Group} {o : Option Word} (hslot : H.slot (1 - c.k) = none) (hid : H.id = c.g.id) (howed : H.owed = c.g.owed)
    (hdone : (c.atJoin.counted s.issues).joinDone c.k c.parked pj =
      (H.counted s.issues).setSlot c.k (some { c.parked with pc := pj, pjoin := o, park := .running, clause := none })) :
    ∃ t, exec .join s = .next t ∧ Becomes s (H.setSlot c.k (some { c.p with pc := pj, pjoin := o, clause := none })) t := by
  refine h.join_becomes hpj hg (by rw [ho]; rintro _ ⟨⟩) ?_ ((Group.setSlot_id ..).trans hid) ((Group.setSlot_owed ..).trans howed)
    (Group.slot_setSlot_self ..)
  have hrow : (c.atJoin.counted s.issues).joinRow c.k c.parked c.joinTurn =
      some ((c.atJoin.counted s.issues).joinDone c.k c.parked pj) :=
    Group.joinRow_of_alone (p := c.parked) hpj (c.matching_atJoin _ fun e he => absurd he (htop e))
      ((Group.rival_of_native ((c.ganged_atJoin _).trans hg) _).trans ((c.other_atJoin _).trans ho))
  rw [hrow, hdone, h.resumed, Group.setSlot_counted]
  refine Group.joins_none (g := Group.counted _ _) (Group.noJoin_of_slots (g := H.setSlot c.k _) c.k ?_ ?_) 79
  · rw [Group.slot_setSlot_self]
    rintro _ ⟨⟩
    exact h.not_atJoin
  · rw [Group.slot_setSlot_other', hslot]
    rintro _ ⟨⟩

end

/-- Settles O23: without a join ILLEGAL; else row 7 of Table 7.1 where the path is alone, with or without a saved join, and
row 4 where the other path has still to come. -/
theorem joinParksAndReconverges : Obligations.JoinParksAndReconverges := by
  intro s c cl h
  refine ⟨fun hpj => h.raises (exec_join s) (by simp only [hpj]), fun pj hpj => ⟨fun hg ho hs => ?_,
    fun j l hg ho hs => ?_, fun q hg ho hq hat hs => ?_⟩⟩
  · refine h.join_goes_on hpj hg ho (by rw [hs]; rintro _ ⟨⟩) ho rfl rfl ?_
    rw [Group.joinDone_eq, c.half_atJoin, c.bank_atJoin, hs]
    simp only [Issue.atJoin, Group.setSlot_counted, Group.setSlot_setSlot]
  · refine h.join_goes_on hpj hg ho (by rw [hs]; rintro _ ⟨⟩) ((Group.slot_setBank ..).trans ho) (Group.setBank_id' ..)
      (Group.setBank_owed' ..) ?_
    rw [Group.joinDone_eq, c.half_atJoin, c.bank_atJoin, hs]
    simp only [Issue.atJoin, Group.setSlot_counted, Group.setBank_counted, Group.setBank_setSlot, Group.setSlot_setSlot]
  · have hother : c.other = some q := (if_neg (by rw [hg]; exact Bool.false_ne_true)).trans ho
    have hparked : c.parked = { c.p with park := .join 0, clause := none } := by
      rw [Issue.parked, Issue.joinTurn_of_other hother hat]
    have hrow : (c.atJoin.counted s.issues).joinRow c.k c.parked c.joinTurn = none := by
      have hm := c.matching_atJoin s.issues (pj := pj) (by rw [hs]; rintro _ ⟨⟩)
      rw [Group.joinRow_of_pair (p := c.parked) hpj (by rw [hm]; rintro _ ⟨⟩)
        ((Group.rival_of_native ((c.ganged_atJoin _).trans hg) _).trans ((c.other_atJoin _).trans ho)) hq, hat]
      rfl
    have hgroup : c.atJoin = c.g.setSlot c.k (some { c.p with park := .join 0, clause := none }) := by
      rw [Issue.atJoin, hparked]
    rw [← hgroup]
    refine h.join_becomes hpj hg (by rw [ho]; rintro _ ⟨⟩; exact hat) ?_ (Group.setSlot_id ..) (Group.setSlot_owed ..)
      (Group.slot_setSlot_self ..)
    rw [hrow]
    rfl

end Sys2Proof.Machine
end

section
/-! Barriers: a wait (O33), and an arrival in a handler, which releases what its own group's frame holds (O32, refuted). -/
namespace Sys2Proof.Machine

/-! ### A wait at a barrier (R128) -/

section
variable {s : State} {g : Group} {tm : Team} {idx : Nat} (htm : s.team? g.team = some tm)

theorem barOk_wait_iff : barOk tm idx none = true ↔ idx < 36 ∧ (32 ≤ idx ∨ idx < tm.nbar) := by
  simp [barOk]

include htm

theorem State.waitBar_faults (h : ¬ (idx < 36 ∧ (32 ≤ idx ∨ idx < tm.nbar)) ∨ nth g.bars idx none = none) :
    s.waitBar g idx = .fault := by
  unfold State.waitBar
  rw [htm]
  dsimp only
  split
  · rfl
  · next hok =>
    rw [h.resolve_left (not_not_intro (barOk_wait_iff.mp (by simpa using hok)))]

variable (hidx : idx < 36 ∧ (32 ≤ idx ∨ idx < tm.nbar))
include hidx

theorem State.waitBar_waits {ph : Bool} (h : nth g.bars idx none = some (ph, false)) :
    s.waitBar g idx = .waits s g idx ph := by
  unfold State.waitBar
  rw [htm]
  dsimp only
  rw [barOk_wait_iff.mpr hidx, h]
  rfl

theorem State.waitBar_completes {ph : Bool} (h : nth g.bars idx none = some (ph, true)) :
    s.waitBar g idx = .complete (s.acquireBar tm idx) g := by
  unfold State.waitBar
  rw [htm]
  dsimp only
  rw [barOk_wait_iff.mpr hidx, h]
  rfl

end

theorem State.acquireBar_groups (s : State) (t : Team) (idx : Nat) : (s.acquireBar t idx).groups = s.groups := by
  unfold State.acquireBar
  split
  · rfl
  · generalize s.clusterTeams t = l
    induction l generalizing s with
    | nil => rfl
    | cons u l ih => exact (ih _).trans rfl

section
variable {i : Instr} {s s' : State} {c : Issue} {cl : ClauseState} {body : Issue → Eff} {m : DWord}
  {edit : Issue → Pend → Pend}

/-- A word that flies and completes at once: nothing stays in flight, its flag rises and falls, and of the machine what is not
the groups is that of s'. -/
theorem Issuing.flies_and_completes (h : Issuing i s c cl) (he : exec i s = issue i body s)
    (hb : body c = .done { (c.fly i m edit).1 with
      s := s'
      p := (c.fly i m edit).1.p.fall (c.fly i m edit).2.flag
      g := { (c.fly i m edit).1.g with pend := (c.fly i m edit).1.g.pend.dropLast } })
    (hg : s'.groups = s.groups) :
    ∃ t G, exec i s = .next t ∧
      Moves s' c.k (G.setSlot c.k (some ((c.p.rise (c.fly i m edit).2.flag).fall (c.fly i m edit).2.flag).advance)) t ∧
      Wrote c i (renamed i) m c.held 0 c.pbits G := by
  obtain ⟨c1, d, hfly⟩ := c.fly_stage i m edit
  obtain ⟨-, -, hgroup, -, hpark, -⟩ := State.issue?_spec h.path
  generalize hflag : (c.fly i m edit).2.flag = f at hb ⊢
  rw [hfly, hflag] at hb
  simp only [List.dropLast_concat] at hb
  have hrun : (((c.p.rise f).fall f).advance).park = .running := by
    cases f <;> exact hpark
  refine ⟨_, c1.g.setSlot c1.k (some c1.p.advance), by rw [he, issue_of_issuing h, hb], ?_, d.wrote⟩
  rw [d.k, d.p, Group.setSlot_setSlot]
  refine Issue.commit_moves (c := { s := s', g := c1.g, k := c.k, p := (c.p.rise f).fall f }) (Group.slot_setSlot_self ..) hrun
    ?_ ?_
  · rw [Group.setSlot_id, d.id]
    unfold State.group? at hgroup ⊢
    rw [hg, hgroup]
    rfl
  · rw [Group.setSlot_owed, d.owed, h.owed]

end

/-- The effect of a BAR from what its barrier answers: c as the word issues, c1 and p as it has flown. -/
def Issue.barEff (c c1 : Issue) (p : Pend) : BarRes → Eff
  | .fault => .done { c1 with
      s := { c1.s with fresh := c1.s.fresh + 1 }
      g := c1.g.setLast { p with status := .faulted { cause := .barrier, pc := c.p.pc, seq := c1.s.fresh } } }
  | .complete s g => .done { c1 with s := s, p := c1.p.fall p.flag, g := { g with pend := g.pend.dropLast } }
  | .waits s g idx ph => .done { c1 with
      s := s
      g := g.setLast { p with aux := [idx, if ph then 1 else 0], stage := .atCore }
      p := { c1.p with park := .barrier p.id } }

/-- A BAR wait as it has flown. -/
def Issue.barWaiting (c : Issue) (a : Src) : Issue := (c.fly (.barWait a) c.p.mask (fun _ p => p)).1

theorem exec_barWait (a : Src) (s : State) : exec (.barWait a) s = issue (.barWait a) (fun c =>
    c.barEff (c.barWaiting a) (c.flown (.barWait a) c.p.mask)
      ((c.barWaiting a).s.waitBar (c.barWaiting a).g (c.src .control a (lowestLane c.p.mask)).toNat)) s := rfl

/-- Settles O33: by what `State.waitBar` answers for the group as it was, whose team and records issue does not change. -/
theorem barrierWaitsForItsPhase : Obligations.BarrierWaitsForItsPhase := by
  intro s c cl a tm htm i idx inRange q h
  obtain ⟨hs, hrun, G, l, hg, hframe⟩ := h.fly_keeps c.p.mask (fun _ p => p)
  have hteam : s.numbered.team? (c.barWaiting a).g.team = some tm := by
    rw [Issue.barWaiting, hg]
    exact (congrArg (fun x : Group => s.team? x.team) (hframe c.g.bank0)).trans htm
  have hbars : (c.barWaiting a).g.bars = c.g.bars := by
    rw [Issue.barWaiting, hg]
    exact (congrArg Group.bars (hframe c.g.bank0) :)
  rw [← hbars]
  have heff : ∀ {r}, s.numbered.waitBar (c.barWaiting a).g idx = r →
      c.barEff (c.barWaiting a) q ((c.barWaiting a).s.waitBar (c.barWaiting a).g idx) = c.barEff (c.barWaiting a) q r := by
    intro r hr
    rw [Issue.barWaiting, hs]
    exact congrArg _ hr
  refine ⟨fun hbad => ?_, fun ph hidx hrec => ?_, fun ph hidx hrec => ?_⟩
  · refine h.flies (exec_barWait a s) (edit := fun _ p => p) (m := c.p.mask)
      ((heff (State.waitBar_faults hteam hbad)).trans ?_) (c.flown_lmask _ _) rfl rfl (fun _ => Park.noConfusion)
    rw [Issue.barEff, Issue.barWaiting, ← hrun, hs]
    rfl
  · refine h.flies (exec_barWait a s) (edit := fun _ p => p) (m := c.p.mask)
      ((heff (State.waitBar_waits hteam hidx hrec)).trans ?_) (c.flown_lmask _ _) rfl rfl (fun _ => Park.noConfusion)
    rfl
  · exact h.flies_and_completes (exec_barWait a s) (edit := fun _ p => p) (m := c.p.mask)
      (heff (State.waitBar_completes hteam hidx hrec)) (State.acquireBar_groups ..)

/-! ### An arrival that releases a wait of its own group's frame -/

/-- A BAR wait on barrier 3 in its phase 0, which a trap has taken out of flight. -/
def framedWait : Pend where
  id := 9
  instr := .barWait (.const 3)
  pc := 0
  mode := 0
  lmask := 1
  half := 0
  owner0 := true
  owner1 := false
  flag := none
  stage := .atCore
  aux := [3, 0]

/-- The frame of a handler that came between. -/
def waitFrame : LiveFrame where
  frame := 0
  trap := mkTrap (.trap 1)
  entries := [framedWait]
  ssave := []
  stag := false
  spillDepth := 0

/-- Group 3 is in that handler, and its team has four barriers. -/
def handlerState : State :=
  let s := State.reset.placeWord 0
  { s with
    teams := s.teams.map (fun t => { t with nbar := 4 })
    groups := s.groups.map (fun g => { g with bank0 := { g.bank0 with live := some waitFrame } }) }

/-- What the frame's entries of a group wait for. -/
def Group.framedAux (g : Group) : Option (List (List Nat)) := g.bank0.live.map (fun l => l.entries.map Pend.aux)

/-- The same of group 3 after an outcome. -/
def framedAuxAfter : Result → Option (Option (List (List Nat)))
  | .next t => (t.group? 3).map Group.framedAux
  | .fault _ => none
  | .refused _ => none

/-- The handler's BAR arrive is the one arrival of barrier 3's phase. -/
theorem handlerState_arrives : ∃ c cl tm, Issuing (.barArrive (.const 3) (.const 1)) handlerState c cl ∧
    handlerState.team? c.g.team = some tm ∧ c.g.id = 3 ∧ c.half = 0 ∧ c.g.pend = [] ∧ c.g.framedAux = some [[3, 0]] ∧
    (c.src .control (.const 3) (lowestLane c.p.mask)).toNat = 3 ∧
    (c.src .control (.const 1) (lowestLane c.p.mask)).toNat = 1 ∧ tm.nbar = 4 ∧
    handlerState.numbered.barrierAt tm 3 = {} := by
  have h : handlerState.issue?.any (fun c => c.p.clause.any (fun cl => (handlerState.team? c.g.team).any (fun tm => decide (
      (Instr.barArrive (.const 3) (.const 1)).wf = true ∧ misplaced (.barArrive (.const 3) (.const 1)) cl = false ∧
      c.mustStop (.barArrive (.const 3) (.const 1)) = false ∧ c.holds (.barArrive (.const 3) (.const 1)) cl = false ∧
      c.meetsPoison (.barArrive (.const 3) (.const 1)) = false ∧
      c.g.id = 3 ∧ c.half = 0 ∧ c.g.pend = [] ∧ c.g.framedAux = some [[3, 0]] ∧
      (c.src .control (.const 3) (lowestLane c.p.mask)).toNat = 3 ∧
      (c.src .control (.const 1) (lowestLane c.p.mask)).toNat = 1 ∧ tm.nbar = 4 ∧
      handlerState.numbered.barrierAt tm 3 = {})))) = true := by decide +kernel
  obtain ⟨c, hpath, h⟩ := (Option.any_eq_true _ _).mp h
  obtain ⟨cl, hclause, h⟩ := (Option.any_eq_true _ _).mp h
  obtain ⟨tm, hteam, h⟩ := (Option.any_eq_true _ _).mp h
  obtain ⟨hwf, hposition, hruns, hfree, hclean, hlast⟩ := of_decide_eq_true h
  exact ⟨c, cl, tm, ⟨hpath, hclause, hwf, hposition, hruns, hfree, hclean⟩, hteam, hlast⟩

/-- The model releases the framed wait: replay finds it released. -/
theorem handlerState_released :
    framedAuxAfter (exec (.barArrive (.const 3) (.const 1)) handlerState) = some (some [[3, 0, 1]]) := by
  decide +kernel

theorem Group.framedAux_own (g : Group) (k : Nat) : (g.own k).framedAux = g.framedAux := by
  unfold Group.own Group.disown Group.setSlot
  split <;> rfl

theorem Group.framedAux_setSlot (g : Group) (k : Nat) (p : Option Path) : (g.setSlot k p).framedAux = g.framedAux := by
  unfold Group.setSlot
  split <;> rfl

/-- A register-only word of half 0 leaves the frame of its half, and the number of its group. -/
theorem Wrote.framedAux {c : Issue} {i : Instr} {ds : List Dst} {m : DWord} {val : Dst → Nat → Word} {fl : BitVec 6}
    {pv : Fin 8 → Nat → Bool} {G : Group} (w : Wrote c i ds m val fl pv G) (hhalf : c.half = 0) :
    G.framedAux = c.g.framedAux ∧ G.id = c.g.id := by
  have hothers := w.half
  rw [Issue.bank, hhalf] at hothers
  have hlive : G.bank0.live = c.g.bank0.live := (congrArg Bank.live hothers :)
  have hframe : G.id = (c.g.setSlot c.k (some c.p.advance)).id := (congrArg Group.id (w.frame c.bank) :)
  exact ⟨congrArg (Option.map _) hlive, hframe.trans (Group.setSlot_id ..)⟩

/-- Refutes O32: the last arrival of a phase also releases the waits that stand in a live frame, those of its own group among
them (R128, R305), which the statement leaves as they were: its clause asks of the group's instructions in flight alone that
none waits for the phase. In `handlerState` a handler arrives at the barrier for which the frame under it holds a wait. -/
theorem not_barrierArrivalsAreCounted : ¬ Obligations.BarrierArrivalsAreCounted := by
  intro h
  obtain ⟨c, cl, tm, hissuing, hteam, hid, hhalf, hpend, haux, hidx, hcount, hnbar, hbar⟩ := handlerState_arrives
  obtain ⟨-, -, hlast⟩ := h handlerState c cl (.const 3) (.const 1) tm hteam
  rw [hidx, hcount, hbar, hnbar, hpend] at hlast
  obtain ⟨harrive, -⟩ := hlast (by decide) rfl rfl
  obtain ⟨t, G, ht, ⟨-, ⟨H, hH, hown⟩, -⟩, hwrote⟩ := harrive hissuing
  obtain ⟨hG, hGid⟩ := hwrote.framedAux hhalf
  have hkept : H.framedAux = some [[3, 0]] := by
    rw [← Group.framedAux_own H c.k, hown, Group.framedAux_own]
    exact (Group.framedAux_setSlot ..).trans (hG.trans haux)
  rw [Group.setSlot_id] at hH
  have hat3 : t.group? 3 = some H := (hGid.trans hid) ▸ hH
  have hreleased := handlerState_released
  rw [ht, framedAuxAfter, hat3, Option.map_some, hkept] at hreleased
  exact absurd hreleased (by decide)

end Sys2Proof.Machine
end

section
/-! Fences, waits and launches complete (O40). -/
namespace Sys2Proof.Machine

/-! ### A fence's turn (R189, R190, R217) -/

/-- The stores that a core has on their way, by number. -/
def State.onWay (s : State) (core : Nat) : List Nat := ((s.coreAt core).buffer).map CoreWrite.pend

/-- How a fence ends: once it is ready, and where it drains once none of the stores is left that were on their way then. -/
def State.FenceEnds (s : State) (g : Group) (p : Pend) (ready drain : Bool) (t : State) : Prop :=
  (ready = false → exec (.storePerformed g.id p.id) s = .next s) ∧
  (ready = true → drain = false ∨ s.onWay g.core = [] ∨ (p.aux ≠ [] ∧ ∀ n ∈ p.aux, n ∉ s.onWay g.core) →
    exec (.storePerformed g.id p.id) s = .next (t.completePend g.id p.id)) ∧
  (ready = true → drain = true → s.onWay g.core ≠ [] → p.aux = [] →
    exec (.storePerformed g.id p.id) s = .next (s.setGroup (g.setPend { p with aux := s.onWay g.core }))) ∧
  (ready = true → drain = true → (∃ n ∈ p.aux, n ∈ s.onWay g.core) → exec (.storePerformed g.id p.id) s = .next s)

/-- A fence whose completion is its turn ends as a fence does. -/
theorem State.fenceEnds_of_turn {s t : State} {g : Group} {p : Pend} {ready drain : Bool} {finish : State → State}
    (he : exec (.storePerformed g.id p.id) s = .next (s.fenceTurn g p ready drain finish))
    (hf : finish s = t.completePend g.id p.id) : s.FenceEnds g p ready drain t := by
  have hturn : s.fenceTurn g p ready drain finish =
      if !ready then s
      else if !drain || (s.onWay g.core).isEmpty then finish s
      else if p.aux.isEmpty then s.setGroup (g.setPend { p with aux := s.onWay g.core })
      else if p.aux.any (s.onWay g.core).contains then s else finish s := rfl
  have hleft : p.aux.any (s.onWay g.core).contains = true ↔ ∃ n ∈ p.aux, n ∈ s.onWay g.core := by simp
  unfold State.FenceEnds
  rw [he, hturn, hf]
  refine ⟨fun hr => by rw [hr]; rfl, fun hr hend => ?_, fun hr hd hway haux => ?_, fun hr hd hstays => ?_⟩
  · rcases hend with hd | hway | ⟨haux, hgone⟩
    · rw [hr, hd]
      rfl
    · rw [hr, hway, List.isEmpty_nil, Bool.or_true]
      rfl
    · have hnone : ¬ p.aux.any (s.onWay g.core).contains = true := by
        rw [hleft]
        rintro ⟨n, hn, hin⟩
        exact hgone n hn hin
      rw [hr, if_neg (show ¬ p.aux.isEmpty = true by simpa using haux), if_neg hnone, ite_self]
      rfl
  · rw [hr, hd, haux]
    exact congrArg _ (if_neg (show ¬ (s.onWay g.core).isEmpty = true by simpa using hway))
  · obtain ⟨n, hn, hin⟩ := hstays
    have haux : ¬ p.aux.isEmpty = true := by
      rw [List.isEmpty_iff]
      exact List.ne_nil_of_mem hn
    have hway : ¬ (s.onWay g.core).isEmpty = true := by
      rw [List.isEmpty_iff]
      exact List.ne_nil_of_mem hin
    rw [hr, hd, if_neg haux, if_pos (hleft.mpr ⟨n, hn, hin⟩)]
    exact congrArg _ (if_neg hway)

/-- What a FENCE does where it completes: an acquire empties the core's read cache at core scope or wider (R170, R189). -/
def State.afterFence (s : State) (g : Group) (k : FenceKind) (sc : Scope) : State :=
  match k with
  | .rel => s
  | .acq => s.acquire g.core sc
  | .full => s.acquire g.core sc

theorem State.afterFence_eq (s : State) (g : Group) (k : FenceKind) (sc : Scope) :
    s.afterFence g k sc = if k ≠ .rel ∧ 3 ≤ scopeNat sc then s.invalidate g.core else s := by
  cases k <;> simp [State.afterFence, State.acquire]

/-- What an XFENCE does where it completes, by its class after (R190, R195). -/
def State.afterXfence (s : State) (g : Group) (k : FenceKind) (ca : PathClass) (sc : Scope) : State :=
  match ca with
  | .v => s.afterFence g k sc
  | .t => s.dropTexture (s.sharesScope sc g)
  | .y => if scopeNat sc < 6 then s else s.dropRidge (fun d => decide (d = g.core / 64) || decide (6 < scopeNat sc))
  | .k => if scopeNat sc < 6 then s else s.dropComposer (fun d => decide (d = g.core / 64) || decide (6 < scopeNat sc))
  | _ => s

section
variable {s : State} {g : Group} {p : Pend} (hg : s.group? g.id = some g) (hp : g.pend? p.id = some p)
include hg hp

section
variable (hwait : s.accessWaits g p = false) (hst : p.status = .inFlight)
include hwait hst

theorem exec_performed_fence {k : FenceKind} {sc : Scope} (hi : p.instr = .fence k sc) :
    s.FenceEnds g p (fenceDone k sc g p) (drains k .v sc) (s.afterFence g k sc) := by
  have hact : p.active = true := decide_eq_true hst
  refine State.fenceEnds_of_turn (finish := fun s => (s.afterFence g k sc).completePend g.id p.id) ?_ rfl
  simp only [exec, execStorePerformed, hg, hp, hact, hwait, hi, Bool.not_true, Bool.or_false, Bool.false_eq_true, if_false]
  rfl

theorem exec_performed_xfence {k : FenceKind} {ca cb : PathClass} {sc : Scope} (hi : p.instr = .xfence k ca cb sc) :
    s.FenceEnds g p (classDone s cb ca k sc g p && (decide (ca ≠ .t) || s.texturesDone g sc)) (drains k ca sc)
      (s.afterXfence g k ca sc) := by
  have hact : p.active = true := decide_eq_true hst
  refine State.fenceEnds_of_turn (finish := fun s => (s.afterXfence g k ca sc).completePend g.id p.id) ?_ rfl
  simp only [exec, execStorePerformed, hg, hp, hact, hwait, hi, Bool.not_true, Bool.or_false, Bool.false_eq_true, if_false]
  cases k <;> cases ca <;> rfl

/-- An XFENCE before another class than the T path waits for no texture unit. -/
theorem exec_performed_xfence_of_ne {k : FenceKind} {ca cb : PathClass} {sc : Scope} (hi : p.instr = .xfence k ca cb sc)
    (hca : ca ≠ .t) : s.FenceEnds g p (classDone s cb ca k sc g p) (drains k ca sc) (s.afterXfence g k ca sc) := by
  have h := exec_performed_xfence hg hp hwait hst hi
  rwa [decide_eq_true hca, Bool.true_or, Bool.and_true] at h

end

/-! ### WAITA (R191) -/

/-- A WAITA that reads its word goes on where the condition no longer holds. -/
theorem exec_waitaReread {u ne : Bool} {sc : Scope} {sp : WaitSpace} {a : Fin 64} {m : Word} {s' : State}
    (hst : p.status = .inFlight ∨ p.status = .waitOnly) (hmay : g.mayPerform p = true) (hi : p.instr = .waita u ne sc sp a)
    (hword : s.waitaWord g p = (some m, s')) : exec (.waitaReread g.id p.id) s =
      if decide (m = p.opc g 1) ≠ ne then .next s' else .next ((s'.acquire g.core sc).completePend g.id p.id) := by
  have hact : (p.active || decide (p.status = .waitOnly)) = true := by
    rcases hst with h | h <;> simp [Pend.active, h]
  simp only [exec, execWaitaReread, hg, hp, hi, hact, hmay, hword, Bool.and_self, if_true, bne_iff_ne]

/-! ### Launches (R130, R133, R136) -/

section
variable {ids : List Nat} {h : Group} {t : State} (hturn : s.launchTurn g p = true) (hdrain : s.launchDrained g p = true)
  (hclean : s.poison = []) (hok : (s.markNodes g p).launch g p = .ok (ids, h, t))
include hturn hdrain hclean hok

variable (hwait : s.accessWaits g p = false) (hst : p.status = .inFlight)
include hwait hst

/-- A launch that waits for no grid completes as it is pushed. -/
theorem exec_performed_launch {u : Bool} {x : Fin 8} {a : Src} (hi : p.instr = .lnchN u x a ∨ p.instr = .enq u x a) :
    exec (.storePerformed g.id p.id) s = .next (t.landed (h.complete p.id)) := by
  have hact : p.active = true := decide_eq_true hst
  rcases hi with hi | hi <;>
    simp only [exec, execStorePerformed, State.launchNow, hg, hp, hact, hwait, hi, hturn, hdrain, hok,
      State.poisonedLanes_of_clean hclean, List.isEmpty_nil, Bool.not_true, Bool.or_false, Bool.false_eq_true, if_false]

/-- LNCH .w waits for the grids that it has pushed. -/
theorem exec_performed_lnchW {u : Bool} {x : Fin 8} {a : Src} (hi : p.instr = .lnchW u x a) (hstage : p.stage = .queued) :
    exec (.storePerformed g.id p.id) s = .next (t.setGroup (h.setPend { p with stage := .atCore, aux := ids })) := by
  have hact : p.active = true := decide_eq_true hst
  simp only [exec, execStorePerformed, State.launchNow, hg, hp, hact, hwait, hi, hstage, hturn, hdrain, hok,
    State.poisonedLanes_of_clean hclean, List.isEmpty_nil, Bool.not_true, Bool.or_false, Bool.false_eq_true, if_false, if_true]

end

/-- LNCH .w ends once each of its grids has. -/
theorem exec_launchWaitComplete {u : Bool} {x : Fin 8} {a : Src} (hi : p.instr = .lnchW u x a) (hstage : p.stage = .atCore)
    (hst : p.status = .inFlight ∨ p.status = .waitOnly)
    (hended : ∀ n ∈ p.aux, ∀ d, s.grid? n = some d → d.completed = true) :
    exec (.launchWaitComplete g.id p.id) s = .next ((s.invalidate g.core).completePend g.id p.id) := by
  have hact : (p.active || decide (p.status = .waitOnly)) = true := by
    rcases hst with h | h <;> simp [Pend.active, h]
  have hall : (p.aux.all fun n => match s.grid? n with
      | none => true
      | some d => d.completed) = true := by
    rw [List.all_eq_true]
    intro n hn
    cases hd : s.grid? n with
    | none => rfl
    | some d => exact hended n hn d hd
  simp only [exec, execLaunchWaitComplete, hg, hp, hi, hstage, hact, decide_true, Bool.true_and]
  exact if_pos hall

end

/-- Settles O40: fences by their turn (`State.fenceEnds_of_turn`), with what each class after does where it completes; WAITA and
launches by their equations. -/
theorem waitsFencesAndLaunchesComplete : Obligations.WaitsFencesAndLaunchesComplete := by
  intro s g p hg hp hwait done onWay ends wide fresh
  have hfresh : ∀ k sc, fresh k sc = s.afterFence g k sc := fun k sc => (s.afterFence_eq g k sc).symm
  have hwide : ∀ k ca sc, ca = .v ∨ ca = .h ∨ ca = .p → wide k sc = drains k ca sc := by
    rintro k ca sc (rfl | rfl | rfl) <;> simp [wide, drains]
  have hdrains : ∀ k ca sc, (decide (ca = .v) || decide (ca = .h) || decide (ca = .p)) = false → drains k ca sc = true := by
    intro k ca sc hca
    rw [drains, hca, Bool.not_false, Bool.or_true]
  refine ⟨fun k sc hst hi => ?_, fun k cb sc hst hi => ?_, fun k ca cb sc hst hi hca => ?_, fun k ca cb sc hst hi hca => ?_,
    fun k cb sc hst hi => ?_, fun k ca cb sc hst hi hca => ?_,
    fun u ne sc sp a m s' hst hmay hi hword => exec_waitaReread hg hp hst hmay hi hword,
    fun u x a ids h t hst hturn hdrain hclean hok => ⟨fun hi => ?_, fun hi => ?_, fun hi hstage => ?_⟩,
    fun u x a hi hstage hst hended => exec_launchWaitComplete hg hp hi hstage hst hended⟩
  · rw [hwide k .v sc (.inl rfl), hfresh]
    exact exec_performed_fence hg hp hwait hst hi
  · rw [hwide k .v sc (.inl rfl), hfresh]
    exact exec_performed_xfence_of_ne hg hp hwait hst hi (by decide)
  · rw [hwide k ca sc (.inr hca)]
    have h := exec_performed_xfence_of_ne hg hp hwait hst hi (by rcases hca with rfl | rfl <;> decide)
    rcases hca with rfl | rfl <;> exact h
  · have h := exec_performed_xfence_of_ne hg hp hwait hst hi (by rcases hca with rfl | rfl <;> decide)
    rw [hdrains k ca sc (by rcases hca with rfl | rfl <;> decide)] at h
    rcases hca with rfl | rfl <;> exact h
  · have h := exec_performed_xfence hg hp hwait hst hi
    rwa [hdrains k .t sc (by decide), decide_eq_false (not_not_intro rfl), Bool.false_or] at h
  · have h := exec_performed_xfence_of_ne hg hp hwait hst hi (by rcases hca with rfl | rfl <;> decide)
    rw [hdrains k ca sc (by rcases hca with rfl | rfl <;> decide)] at h
    rcases hca with rfl | rfl <;> exact h
  · exact exec_performed_launch hg hp hturn hdrain hclean hok hwait hst (.inl hi)
  · exact exec_performed_launch hg hp hturn hdrain hclean hok hwait hst (.inr hi)
  · exact exec_performed_lnchW hg hp hturn hdrain hclean hok hwait hst hi hstage

end Sys2Proof.Machine
end

section
/-! FREEZE (O49): its faults, the sheaf that it captures, and what becomes of the group, or of the grid of a prologue. -/
namespace Sys2Proof.Machine

/-! ### A group after its word's reads -/

/-- The issue of a word whose sources count as read (R27, R108). -/
def Issue.afterReads (c : Issue) (i : Instr) : Issue :=
  (c.noteReads (i.reads c.p.mode)).releaseReads (i.reads c.p.mode) []

/-- Released names are unmapped, and every other name is as it was. -/
theorem Group.nth_v_releases (l : List Nat) (g : Group) (r : Nat) :
    nth (l.foldl Group.release g).v r none = if r ∈ l then none else nth g.v r none := by
  induction l generalizing g with
  | nil => rfl
  | cons n l ih =>
    have hone : nth (g.release n).v r none = if r = n then none else nth g.v r none := nth_putNth ..
    rw [List.foldl_cons, ih, hone, ← ite_or]
    exact if_congr (by rw [List.mem_cons, or_comm]) rfl rfl

/-- A release changes the register map, the lanes that instructions in flight still write, and poison alone. -/
theorem Group.releases_eq (l : List Nat) (g : Group) : ∃ v pend poisonV,
    l.foldl Group.release g = { g with v := v, pend := pend, poisonV := poisonV } :=
  l.foldlRecOn (motive := fun h : Group => ∃ v pend poisonV, h = { g with v := v, pend := pend, poisonV := poisonV })
    _ ⟨_, _, _, rfl⟩ fun _ ⟨_, _, _, hh⟩ _ _ => hh ▸ ⟨_, _, _, rfl⟩

theorem Issue.afterReads_s (c : Issue) (i : Instr) : (c.afterReads i).s = c.s := by
  rw [Issue.afterReads, Issue.releaseReads_s, Issue.noteReads_s]

/-- A lane is one of the words of its name's mapping (R26, R108). -/
theorem Group.vLane_eq_lanes (g : Group) (r l : Nat) :
    g.vLane r l = nth (((nth g.v r none).map VMap.lanes).getD []) l 0 := by
  unfold Group.vLane
  cases nth g.v r none <;> rfl

/-- A name that is as it was, or is gone, lane by lane. -/
theorem Group.vLane_of_nth {g h : Group} {r : Nat} {gone : Bool}
    (hr : nth h.v r none = if gone = true then none else nth g.v r none) (l : Nat) :
    h.vLane r l = if gone = true then 0 else g.vLane r l := by
  rw [Group.vLane_eq_lanes, Group.vLane_eq_lanes, hr]
  cases gone <;> rfl

/-- In a native group a word's reads set UNMAPPED and release names, and change nothing else that matters to the group (R108). -/
theorem Issue.afterReads_eq {c : Issue} (hnative : c.g.ganged = false) (i : Instr) : ∃ unmapped v pend poisonV,
    c.afterReads i = { c with g := { c.g with
      bank0 := { c.g.bank0 with unmapped := unmapped }, v := v, pend := pend, poisonV := poisonV } } ∧
    ∀ r, nth v r none = if c.lastReads i [] r = true then none else nth c.g.v r none := by
  have hnote : ∃ unmapped, c.noteReads (i.reads c.p.mode) =
      { c with g := { c.g with bank0 := { c.g.bank0 with unmapped := unmapped } } } := by
    unfold Issue.noteReads
    split
    · exact ⟨true, by simp [Issue.setBank, Issue.bank, Issue.half, Group.half, hnative, Group.setBank, Group.bank]⟩
    · exact ⟨c.g.bank0.unmapped, rfl⟩
  obtain ⟨unmapped, hnote⟩ := hnote
  unfold Issue.afterReads Issue.releaseReads
  rw [hnote]
  have hhon : ({ c.g with bank0 := { c.g.bank0 with unmapped := unmapped } } : Group).honoursLast c.k =
    c.g.honoursLast c.k := rfl
  dsimp only
  rw [hhon]
  split
  · next hh =>
    let names := ((i.reads c.p.mode).flatMap lastNames).filter (fun n => !([] : List Nat).contains n)
    obtain ⟨v, pend, poisonV, hg⟩ :=
      Group.releases_eq names { c.g with bank0 := { c.g.bank0 with unmapped := unmapped } }
    refine ⟨unmapped, v, pend, poisonV, by rw [← hg], fun r => ?_⟩
    have hv := Group.nth_v_releases names { c.g with bank0 := { c.g.bank0 with unmapped := unmapped } } r
    rw [hg] at hv
    exact hv.trans (if_congr (by simp [names, Issue.lastReads, hh, vRegs]) rfl rfl)
  · next hh =>
    refine ⟨unmapped, c.g.v, c.g.pend, c.g.poisonV, rfl, fun r => ?_⟩
    rw [if_neg (by simp [Issue.lastReads, hh])]

/-! ### The sheaf captured -/

theorem memWrite_eq_memWriteList (m : List Host.Cell) (a : Nat) (l : List Byte) :
    memWrite m a l = memWriteList m (withAddresses a l) := by
  induction l generalizing m a with
  | nil => rfl
  | cons b l ih => exact ih ..

/-- Bytes of a window, copied to the place of the first one. -/
theorem memGet_scratchCopy (s : State) (t : Team) {n o : Nat} (ho : o < n) :
    memGet (memWrite [] 0 (s.scratchRead t 0 n)) o = s.scratchByte t o := by
  have hlen : (s.scratchRead t 0 n).length = n := by simp [State.scratchRead, upto]
  rw [memWrite_eq_memWriteList, memGet_writeBytes nil_wf, if_pos (by omega)]
  simp [State.scratchRead, upto, nth, ho]

/-- The sheaf that a FREEZE of n bytes captures, its reads done. -/
def Issue.capture (c : Issue) (d : Grid) (n : Nat) : Sheaf :=
  captureSheaf c.s.newId.2 c.g c.p d.ctx (ceilDiv n 128) (c.p.pc + 4) c.s.fresh

/-- The group holds the sheaf's registers by reference (R143). -/
def Issue.sharing (c : Issue) (d : Grid) (n : Nat) : Group := { c.g with v := (c.capture d n).v }

/-- The names of the sheaf are the group's, with their registers and values. -/
theorem Issue.nth_capture_v (c : Issue) (d : Grid) (n r : Nat) : nth (c.capture d n).v r none =
    (nth c.g.v r none).map (fun m => { m with sheaf := some c.s.fresh }) := by
  show nth (c.g.v.map _) r none = _
  unfold nth
  rw [List.getElem?_map]
  cases c.g.v[r]? <;> rfl

theorem Issue.lanes_capture (c : Issue) (d : Grid) (n r : Nat) :
    (nth (c.capture d n).v r none).map VMap.lanes = (nth c.g.v r none).map VMap.lanes := by
  rw [c.nth_capture_v, Option.map_map]
  rfl

theorem Issue.vLane_sharing (c : Issue) (d : Grid) (n r l : Nat) : (c.sharing d n).vLane r l = c.g.vLane r l := by
  have hr : (nth (c.sharing d n).v r none).map VMap.lanes = (nth c.g.v r none).map VMap.lanes := c.lanes_capture d n r
  rw [Group.vLane_eq_lanes, hr, ← Group.vLane_eq_lanes]

theorem Issue.memGet_capture {c : Issue} {tm : Team} (ht : c.s.team? c.g.team = some tm) (d : Grid) (n : Nat) {o : Nat}
    (ho : o < 128 * ceilDiv n 128) : memGet (c.capture d n).scratch o = c.s.scratchByte tm o := by
  have hscratch : (c.capture d n).scratch = memWrite [] 0 (c.s.newId.2.scratchRead tm 0 (128 * ceilDiv n 128)) := by
    have ht' : c.s.newId.2.team? c.g.team = some tm := ht
    simp only [Issue.capture, captureSheaf, ht']
  rw [hscratch, memGet_scratchCopy _ _ ho]
  rfl

theorem Issue.mem_capture_poisonWords {c : Issue} {tm : Team} (ht : c.s.team? c.g.team = some tm) (d : Grid) (n w : Nat) :
    w ∈ (c.capture d n).poisonWords ↔ w ∈ tm.poisonWords ∧ 4 * w < 128 * ceilDiv n 128 := by
  have ht' : c.s.newId.2.team? c.g.team = some tm := ht
  simp only [Issue.capture, captureSheaf, ht', Option.map_some, Option.getD_some, List.mem_filter, decide_eq_true_eq]
  exact and_congr_right fun _ => by omega

/-- The machine once a sheaf has its number and its place in the core's store (R149, R150). -/
def State.withSheaf (s : State) (core : Nat) (k : Sheaf) : State :=
  let t : State := { s.newId.2 with sheaves := s.sheaves ++ [k] }
  (t.installSheaf core k.id).getD t

/-- Of the machine the count of numbers, the sheaves and the cores' stores have changed. -/
theorem State.withSheaf_eq (s : State) (core : Nat) (k : Sheaf) : ∃ cores, s.withSheaf core k =
    { s with fresh := s.fresh + 1, sheaves := s.sheaves ++ [k], cores := cores } := by
  unfold State.withSheaf State.installSheaf
  dsimp only
  split
  · exact ⟨_, rfl⟩
  · split
    · exact ⟨_, rfl⟩
    · split <;> exact ⟨_, rfl⟩

/-! ### Faults -/

/-- The group is native, the path is its only one, and no set is spilled (R138). -/
def Issue.Alone (c : Issue) : Prop := c.g.ganged = false ∧ c.g.slot (1 - c.k) = none ∧ c.bank.spill = []

theorem Issue.Alone.native {c : Issue} (h : c.Alone) : c.g.ganged = false := h.1

/-- A native group has the scalar state of its first half alone (R110). -/
theorem Issue.Alone.bank_eq {c : Issue} (h : c.Alone) : c.bank = c.g.bank0 := by
  simp [Issue.bank, Issue.half, Group.half, Group.bank, h.native]

/-- FREEZE's first test (R138). -/
theorem Issue.crowded_iff (c : Issue) :
    (c.g.ganged || (c.g.slot (1 - c.k)).isSome || !c.bank.spill.isEmpty) = true ↔ ¬ c.Alone := by
  simp only [Issue.Alone, not_and_or, Bool.or_eq_true, Bool.not_eq_false, Bool.not_eq_true', or_assoc,
    ← Option.not_isSome_iff_eq_none, not_not, List.isEmpty_eq_false_iff, ne_eq]

section
variable {c : Issue} {a : Src} {tm : Team} {d : Grid} (ht : c.s.team? c.g.team = some tm)
  (hd : c.s.grid? c.g.grid = some d)
include ht hd

/-- The causes in their order (R138). -/
theorem Issue.freezeFault_eq : c.freezeFault a =
    if c.g.ganged || (c.g.slot (1 - c.k)).isSome || !c.bank.spill.isEmpty then some trIllegal
    else if 65536 < (c.control a c.p.mask).toNat ∨ tm.scratchSize < (c.control a c.p.mask).toNat then some (mkTrap .template 2)
    else if c.g.depth = 4 then some (mkTrap .template 1)
    else none := by
  simp only [Issue.freezeFault, Issue.team?, Issue.grid?, ht, hd]

theorem Issue.freezeFault_of_crowded (h : ¬ c.Alone) : c.freezeFault a = some trIllegal := by
  rw [Issue.freezeFault_eq ht hd, if_pos (c.crowded_iff.mpr h)]

theorem Issue.freezeFault_of_size (h : c.Alone)
    (hn : 65536 < (c.control a c.p.mask).toNat ∨ tm.scratchSize < (c.control a c.p.mask).toNat) :
    c.freezeFault a = some (mkTrap .template 2) := by
  rw [Issue.freezeFault_eq ht hd, if_neg (fun hc => c.crowded_iff.mp hc h), if_pos hn]

section
variable (h : c.Alone) (hn : (c.control a c.p.mask).toNat ≤ 65536) (hsize : (c.control a c.p.mask).toNat ≤ tm.scratchSize)
include h hn hsize

theorem Issue.freezeFault_of_depth (hdepth : c.g.depth = 4) : c.freezeFault a = some (mkTrap .template 1) := by
  rw [Issue.freezeFault_eq ht hd, if_neg (fun hc => c.crowded_iff.mp hc h), if_neg (by omega), if_pos hdepth]

theorem Issue.freezeFault_of_legal (hdepth : c.g.depth ≠ 4) : c.freezeFault a = none := by
  rw [Issue.freezeFault_eq ht hd, if_neg (fun hc => c.crowded_iff.mp hc h), if_neg (by omega), if_neg hdepth]

end
end

/-- A FREEZE that issues without a fault has nothing in flight beside it: its own hold waits for that (R138). -/
theorem Issuing.freeze_pend {a : Src} {s : State} {c : Issue} {cl : ClauseState} (h : Issuing (.freeze a) s c cl)
    (hf : c.freezeFault a = none) : c.g.pend.isEmpty = true := by
  have hfree := h.free
  unfold Issue.holds at hfree
  have hown : ((c.freezeFault a).isNone && (!c.g.pend.isEmpty || !(c.s.coreAt c.g.core).buffer.isEmpty)) = false :=
    (Bool.or_eq_false_iff.mp hfree).2
  rw [hf] at hown
  simpa using (Bool.or_eq_false_iff.mp hown).1

/-- A FREEZE that raises a fault. -/
theorem Issuing.freeze_raises {a : Src} {s : State} {c : Issue} {cl : ClauseState} {t : Trap} (h : Issuing (.freeze a) s c cl)
    (hf : c.freezeFault a = some t) : exec (.freeze a) s = .next (c.raise t) :=
  h.raises rfl (by simp only [hf])

/-! ### Sheaves discarded -/

/-- Two groups are the same but for the sheaves that their names are shared with. -/
structure Group.SameLanes (g h : Group) : Prop where
  rest : h = { g with v := h.v }
  lanes : ∀ r, (nth h.v r none).map VMap.lanes = (nth g.v r none).map VMap.lanes

theorem Group.SameLanes.vLane {g h : Group} (e : g.SameLanes h) (r l : Nat) : h.vLane r l = g.vLane r l := by
  rw [Group.vLane_eq_lanes, e.lanes, ← Group.vLane_eq_lanes]

/-- A group whose names are its own from now on, where the sheaf that they were shared with is gone (R151). -/
def Group.unshared (gone : List Nat) (g : Group) : Group :=
  { g with v := g.v.map (fun m => m.map (fun x => if gone.any (fun k => x.sheaf = some k) then { x with sheaf := none } else x)) }

theorem Group.sameLanes_unshared (gone : List Nat) (g : Group) : g.SameLanes (g.unshared gone) := by
  refine ⟨rfl, fun r => ?_⟩
  unfold Group.unshared nth
  rw [List.getElem?_map]
  cases g.v[r]? with
  | none => rfl
  | some m =>
    cases m with
    | none => rfl
    | some x => simp only [Option.map_some, Option.getD_some]; split <;> rfl

/-- A group found is found again, its names perhaps its own (R151). -/
theorem State.group?_dropSheaves {s : State} {n : Nat} {g : Group} (hg : s.group? n = some g) :
    ∃ h, s.dropSheaves.group? n = some h ∧ g.SameLanes h := by
  unfold State.dropSheaves
  extract_lets live gone
  split
  · exact ⟨g, hg, rfl, fun _ => rfl⟩
  · exact ⟨g.unshared gone, (find?_map_id s.groups (Group.unshared gone) (fun _ => rfl) n).trans (congrArg _ hg),
      g.sameLanes_unshared gone⟩

/-- A sheaf that a group needs is kept (R151). -/
theorem State.mem_sheaves_dropSheaves {s : State} {k : Sheaf} (hk : k ∈ s.sheaves) {g : Group} (hg : g ∈ s.groups)
    (hn : g.needsSheaf k.id = true) : k ∈ s.dropSheaves.sheaves := by
  unfold State.dropSheaves
  extract_lets live gone
  split
  · exact hk
  · refine List.mem_filter.mpr ⟨hk, ?_⟩
    have hany : s.groups.any (fun g => g.needsSheaf k.id) = true := List.any_eq_true.mpr ⟨g, hg, hn⟩
    simp only [live, hany, Bool.or_true, Bool.true_or]

/-! ### Groups stamped in a prologue -/

/-- Groups and teams are stamped, caches emptied and records pushed: memory, grids and sheaves stay, numbers are only taken, and no
group is lost. -/
structure State.Grows (s t : State) : Prop where
  mem : t.mem = s.mem
  grids : t.grids = s.grids
  sheaves : t.sheaves = s.sheaves
  fresh : s.fresh ≤ t.fresh
  found : ∀ n, (s.group? n).isSome → (t.group? n).isSome

theorem State.Grows.refl (s : State) : s.Grows s := ⟨rfl, rfl, rfl, le_rfl, fun _ => id⟩

theorem State.Grows.trans {s t u : State} (h : s.Grows t) (h' : t.Grows u) : s.Grows u :=
  ⟨h'.mem.trans h.mem, h'.grids.trans h.grids, h'.sheaves.trans h.sheaves, h.fresh.trans h'.fresh,
    fun n hn => h'.found n (h.found n hn)⟩

theorem State.Grows.foldl {α : Type} {f : State → α → State} (hf : ∀ s a, State.Grows s (f s a)) (l : List α)
    (s : State) : s.Grows (l.foldl f s) :=
  l.foldlRecOn f (.refl s) fun t ht a _ => ht.trans (hf t a)

theorem State.Grows.ite {p : Prop} [Decidable p] {s t u : State} (ht : s.Grows t) (hu : s.Grows u) :
    s.Grows (if p then t else u) := by
  split
  · exact ht
  · exact hu

/-- A state with the same groups. -/
theorem State.Grows.of_groups {s t : State} (hmem : t.mem = s.mem) (hgrids : t.grids = s.grids)
    (hsheaves : t.sheaves = s.sheaves) (hfresh : t.fresh = s.fresh) (hgroups : t.groups = s.groups) : s.Grows t :=
  ⟨hmem, hgrids, hsheaves, hfresh.ge, fun n hn => by rwa [State.group?, hgroups]⟩

theorem State.grows_invalidate (s : State) (core : Nat) : s.Grows (s.invalidate core) := .of_groups rfl rfl rfl rfl rfl

theorem State.grows_setTeam (s : State) (t : Team) : s.Grows (s.setTeam t) := .of_groups rfl rfl rfl rfl rfl

theorem State.grows_useSheaf (s : State) (core sheaf : Nat) : s.Grows (s.useSheaf core sheaf) := by
  unfold State.useSheaf
  dsimp only
  split
  · exact .of_groups rfl rfl rfl rfl rfl
  · exact .refl s

/-- A group with a new number is put after the others. -/
theorem State.grows_append (s : State) (g : Group) : s.Grows { s.newId.2 with groups := s.groups ++ [g] } where
  mem := rfl
  grids := rfl
  sheaves := rfl
  fresh := Nat.le_succ _
  found n hn := by
    show ((s.groups ++ [g]).find? _).isSome
    rw [List.find?_append, Option.isSome_or, Bool.or_eq_true]
    exact .inl hn

theorem State.grows_addGroup (s : State) (d : Grid) (t : Team) (index : Nat) (sheaf : Option Sheaf) :
    s.Grows (s.addGroup d t index sheaf) := by
  cases sheaf with
  | none => exact s.grows_append _
  | some k => exact (s.grows_append _).trans (State.grows_useSheaf ..)

theorem State.grows_addGroups (s : State) (d : Grid) (t : Team) (n : Nat) (sheaf : Option Sheaf) :
    s.Grows (s.addGroups d t n sheaf) := .foldl (fun s i => s.grows_addGroup d t i sheaf) ..

theorem State.grows_pushRecord (s : State) (core ctx : Nat) (r : DequeRecord) : s.Grows (s.pushRecord core ctx r) := by
  unfold State.pushRecord
  dsimp only
  split
  · exact .of_groups rfl rfl rfl rfl rfl
  · split
    · exact .of_groups rfl rfl rfl rfl rfl
    · split <;> exact .of_groups rfl rfl rfl rfl rfl

/-- The grid of a prologue that has frozen: the sheaf is its own, and its other clusters start (R141). -/
def Grid.stampedFrom (d : Grid) (sheaf : Nat) : Grid :=
  { d with prologue := false, sheaf := some sheaf, waiting := d.lpb.clusters - 1 }

theorem State.grid?_setGrid_self {s : State} {d e : Grid} (h : s.grid? d.id = some e) :
    (s.setGrid d).grid? d.id = some d := by
  have hid : (fun x : Grid => decide ((if x.id = d.id then d else x).id = d.id)) = fun x : Grid => decide (x.id = d.id) := by
    funext x
    split
    · next hx => simp [hx]
    · rfl
  have hfind : (s.setGrid d).grid? d.id = (s.grid? d.id).map (fun x => if x.id = d.id then d else x) := by
    unfold State.grid? State.setGrid
    rw [List.find?_map]
    exact congrArg _ (congrArg (fun p => s.grids.find? p) hid)
  have he : e.id = d.id := by simpa using List.find?_some h
  rw [hfind, h, Option.map_some, if_pos he]

/-! ### The machine with the sheaf in its place -/

/-- A group needs its nested sheaf (R147). -/
theorem Group.needsSheaf_of_nested {g : Group} {k : Nat} (h : g.nested = some k) : g.needsSheaf k = true := by
  simp [Group.needsSheaf, h]

/-- The sheaf that a group held before is discarded (R147). -/
def State.dropNested (s : State) (old : Option Nat) : State :=
  { s with sheaves := s.sheaves.map (fun k => if old = some k.id then { k with dropped := true } else k) }

/-- A sheaf stays, marked or not. -/
theorem State.mem_sheaves_dropNested {s : State} {k : Sheaf} (hk : k ∈ s.sheaves) (old : Option Nat) :
    ∃ b, { k with dropped := b } ∈ (s.dropNested old).sheaves := by
  by_cases h : old = some k.id
  · exact ⟨true, List.mem_map.mpr ⟨k, hk, if_pos h⟩⟩
  · exact ⟨k.dropped, List.mem_map.mpr ⟨k, hk, if_neg h⟩⟩

/-- The machine once the sheaf is the group's nested one, and the one of before is discarded (R147, R151). -/
def Issue.nestedIn (e : Issue) (d : Grid) (n : Nat) : State :=
  (((e.s.withSheaf e.g.core (e.capture d n)).dropNested e.g.nested).setGroup
    { e.sharing d n with nested := some e.s.fresh }).dropSheaves

/-- The machine once the sheaf is the grid's (R141). -/
def Issue.frozenFor (e : Issue) (d : Grid) (n : Nat) : State :=
  ((e.s.withSheaf e.g.core (e.capture d n)).setGrid (d.stampedFrom e.s.fresh)).setGroup (e.sharing d n)

/-- A sheaf captured is among the machine's, and memory is as it was. -/
def Issue.CapturedIn (e : Issue) (d : Grid) (n : Nat) (t : State) : Prop :=
  t.mem = e.s.mem ∧ ∃ b, { e.capture d n with dropped := b } ∈ t.sheaves

section
variable {e : Issue} (d : Grid) (n : Nat)

theorem Issue.fresh_nestedIn : (e.nestedIn d n).fresh = e.s.fresh + 1 := by
  obtain ⟨cores, hs⟩ := e.s.withSheaf_eq e.g.core (e.capture d n)
  unfold Issue.nestedIn
  rw [hs]
  exact (congrArg State.fresh (State.outside_dropSheaves _) :)

theorem Issue.fresh_frozenFor : (e.frozenFor d n).fresh = e.s.fresh + 1 := by
  obtain ⟨cores, hs⟩ := e.s.withSheaf_eq e.g.core (e.capture d n)
  unfold Issue.frozenFor
  rw [hs]
  rfl

theorem Issue.capturedIn_frozenFor : e.CapturedIn d n (e.frozenFor d n) := by
  obtain ⟨cores, hs⟩ := e.s.withSheaf_eq e.g.core (e.capture d n)
  unfold Issue.frozenFor
  rw [hs]
  exact ⟨rfl, false, List.mem_append_right _ (List.mem_singleton_self _)⟩

theorem Issue.grid?_frozenFor {d' : Grid} (hd : e.s.grid? d.id = some d') :
    (e.frozenFor d n).grid? d.id = some (d.stampedFrom e.s.fresh) := by
  obtain ⟨cores, hs⟩ := e.s.withSheaf_eq e.g.core (e.capture d n)
  unfold Issue.frozenFor
  rw [hs]
  exact State.grid?_setGrid_self (d := d.stampedFrom e.s.fresh) hd

variable (hfound : (e.s.group? e.g.id).isSome)
include hfound

/-- The new sheaf, which the group needs, is kept, whatever became of the sheaves of before. -/
theorem Issue.capturedIn_nestedIn : e.CapturedIn d n (e.nestedIn d n) := by
  obtain ⟨cores, hs⟩ := e.s.withSheaf_eq e.g.core (e.capture d n)
  have hnew : e.capture d n ∈ (e.s.withSheaf e.g.core (e.capture d n)).sheaves := by rw [hs]; simp
  obtain ⟨b, hb⟩ := State.mem_sheaves_dropNested hnew e.g.nested
  have hg : (((e.s.withSheaf e.g.core (e.capture d n)).dropNested e.g.nested).setGroup
      { e.sharing d n with nested := some e.s.fresh }).group? e.g.id = some { e.sharing d n with nested := some e.s.fresh } :=
    State.group?_setGroup_self (by rw [hs]; exact hfound)
  refine ⟨?_, b, State.mem_sheaves_dropSheaves hb (List.mem_of_find?_eq_some hg) (Group.needsSheaf_of_nested rfl)⟩
  unfold Issue.nestedIn
  rw [hs]
  exact (congrArg State.mem (State.outside_dropSheaves _) :)

theorem Issue.group?_nestedIn : ∃ h, (e.nestedIn d n).group? e.g.id = some h ∧
    Group.SameLanes { e.sharing d n with nested := some e.s.fresh } h := by
  obtain ⟨cores, hs⟩ := e.s.withSheaf_eq e.g.core (e.capture d n)
  exact State.group?_dropSheaves (State.group?_setGroup_self (by rw [hs]; exact hfound))

theorem Issue.group?_frozenFor : (e.frozenFor d n).group? e.g.id = some (e.sharing d n) := by
  obtain ⟨cores, hs⟩ := e.s.withSheaf_eq e.g.core (e.capture d n)
  unfold Issue.frozenFor
  rw [hs]
  exact State.group?_setGroup_self hfound

end

/-! ### The effect -/

/-- The machine once the path of an issue is committed at a header (R72). -/
def Issue.jumped (c : Issue) (pc : Word) : State := c.commit (c.g.setSlot c.k (some (c.p.toHeader pc))) true

/-- The issue's path runs and is its group's only one, and the group stands in its place and waits for no other. -/
structure Issue.Sole (e : Issue) : Prop where
  runs : e.p.park = .running
  other : e.g.slot (1 - e.k) = none
  found : (e.s.group? e.g.id).isSome
  owed : e.g.owed = []

/-- A group whose only path jumps: exactly that group, at the header. -/
theorem Issue.Sole.jumped {e : Issue} (h : e.Sole) (pc : Word) :
    Becomes e.s (e.g.setSlot e.k (some (e.p.toHeader pc))) (e.jumped pc) := by
  have hslot := e.g.slot_setSlot_self e.k (some (e.p.toHeader pc))
  refine Issue.commit_becomes hslot (Group.noJoin_of_slots e.k (fun q hq => ?_) (fun q hq => ?_))
    (by rw [Group.setSlot_id]; exact h.found) (by simp [Group.setSlot_owed, h.owed])
  · rw [hslot] at hq
    cases hq
    exact Path.atJoin_of_running h.runs
  · rw [Group.slot_setSlot_other', h.other] at hq
    cases hq

section
variable {i : Instr} {s : State} {c : Issue} {cl : ClauseState} {body : Issue → Eff} {pc : Word} (h : Issuing i s c cl)
  (he : exec i s = issue i body s)
include h he

/-- A word that sends its path to a header is committed there (R72). -/
theorem Issuing.jumps {c' : Issue} (hb : body c = .goto c' pc) : exec i s = .next (c'.jumped pc) := by
  rw [he, issue_of_issuing h, hb]
  rfl

/-- The same for a word that leaves the machine in some state that P holds of. -/
theorem Issuing.jumps_exists {f : State → Issue} {P : State → Prop} (hb : ∃ t, P t ∧ body c = .goto (f t) pc) :
    ∃ t, P t ∧ exec i s = .next ((f t).jumped pc) :=
  hb.imp fun _ ⟨hP, hgoto⟩ => ⟨hP, h.jumps he hgoto⟩

end

theorem Issue.CapturedIn.of_eq {e : Issue} {d : Grid} {n : Nat} {t u : State} (h : e.CapturedIn d n t)
    (hmem : u.mem = t.mem) (hsheaves : u.sheaves = t.sheaves) : e.CapturedIn d n u := by
  unfold Issue.CapturedIn
  rw [hmem, hsheaves]
  exact h

/-- The reads of a word leave the only path of a native group its only one. -/
theorem Issuing.sole_afterReads {i : Instr} {s : State} {c : Issue} {cl : ClauseState} (h : Issuing i s c cl)
    (hal : c.Alone) : (c.afterReads i).Sole := by
  obtain ⟨hnative, hother, -⟩ := hal
  obtain ⟨hs, -, hfound, -, -, -⟩ := State.issue?_spec h.path
  obtain ⟨unmapped, v, pend, poisonV, he, -⟩ := Issue.afterReads_eq hnative i
  rw [he]
  exact ⟨h.running, hother, by rw [hs]; exact Option.isSome_of_mem hfound, h.owed⟩

section
variable {a : Src} {s : State} {c e : Issue} {cl : ClauseState} {tm : Team} {d : Grid} {n : Nat}
  (h : Issuing (.freeze a) s c cl) (ht : c.s.team? c.g.team = some tm) (hd : c.s.grid? c.g.grid = some d)
  (hf : c.freezeFault a = none) (he : c.afterReads (.freeze a) = e) (hn : (c.control a c.p.mask).toNat = n)
include h ht hd hf he hn

/-- What a FREEZE of n bytes outside a prologue does, its reads done. -/
theorem Issuing.exec_freeze_nested (hp : d.prologue = false) : exec (.freeze a) s = .next (({ e with
    s := e.nestedIn d n, g := ((e.nestedIn d n).group? e.g.id).getD (e.sharing d n) } : Issue).jumped (e.p.pc + 4)) := by
  have ht' : c.team? = some tm := ht
  have hd' : c.grid? = some d := hd
  subst he hn
  refine h.jumps rfl ?_
  simp -zeta only [hf, ht', hd']
  rw [if_neg (by simp [h.freeze_pend hf])]
  extract_lets
  exact if_neg (by simp [hp])

/-- What a FREEZE in a prologue does: the grid's other groups are stamped and its other teams start from the sheaf (R141, R142). -/
theorem Issuing.exec_freeze_prologue (hp : d.prologue = true) : ∃ t, (e.frozenFor d n).Grows t ∧
    exec (.freeze a) s = .next (({ e with s := t, g := e.sharing d n } : Issue).jumped (e.p.pc + 4)) := by
  have ht' : c.team? = some tm := ht
  have hd' : c.grid? = some d := hd
  subst he hn
  refine h.jumps_exists rfl ?_
  simp -zeta only [hf, ht', hd']
  rw [if_neg (by simp [h.freeze_pend hf])]
  extract_lets _ lines k s1 s2 _ g d' s3 s4 s5 others s6 s7
  -- the rest of the group's own team, the other teams of its cluster, and the record of the other clusters
  have hfirst : s4.Grows s5 := (s4.grows_invalidate tm.core).trans (State.grows_addGroups ..)
  have hothers : s5.Grows s6 := .foldl (fun v w =>
    ((v.grows_setTeam _).trans (State.grows_invalidate ..)).trans (State.grows_addGroups ..)) others s5
  have hrecord : s6.Grows s7 := .ite (State.grows_pushRecord ..) (.refl s6)
  exact ⟨s7, (hfirst.trans hothers).trans hrecord, if_pos hp⟩

variable (hsole : e.Sole)
include hsole

/-- Outside a prologue the sheaf is the group's nested one, and the group is at the next header with what its reads have left. -/
theorem Issuing.freeze_nests (hp : d.prologue = false) : ∃ t g, exec (.freeze a) s = .next t ∧ e.CapturedIn d n t ∧
    t.fresh = e.s.fresh + 1 ∧ t.group? e.g.id = some g ∧ g.nested = some e.s.fresh ∧
    g.slot e.k = some (e.p.toHeader (e.p.pc + 4)) ∧ ∀ r l, g.vLane r l = e.g.vLane r l := by
  have hexec := h.exec_freeze_nested ht hd hf he hn hp
  obtain ⟨g, hg, hsame⟩ := Issue.group?_nestedIn d n hsole.found
  rw [hg, Option.getD_some] at hexec
  have hid : g.id = e.g.id := State.group?_id hg
  have hsole' : Issue.Sole { e with s := e.nestedIn d n, g := g } :=
    ⟨hsole.runs, by rw [hsame.rest]; exact hsole.other, by rw [hid, hg]; rfl, by rw [hsame.rest]; exact hsole.owed⟩
  obtain ⟨hrest, hhere, -⟩ := hsole'.jumped (e.p.pc + 4)
  rw [Group.setSlot_id, hid] at hhere
  refine ⟨_, _, hexec, (Issue.capturedIn_nestedIn d n hsole.found).of_eq (by rw [hrest]) (by rw [hrest]),
    ?_, hhere, ?_, Group.slot_setSlot_self .., fun r l => ?_⟩
  · rw [hrest]
    exact Issue.fresh_nestedIn d n
  · show (g.setSlot _ _).nested = _
    rw [Group.setSlot_nested, hsame.rest]
  · show (g.setSlot _ _).vLane r l = _
    rw [Group.vLane_eq_lanes, Group.setSlot_v, ← Group.vLane_eq_lanes]
    exact (hsame.vLane r l).trans (e.vLane_sharing d n r l)

/-- In a prologue the sheaf is the grid's, and the prologue is over. -/
theorem Issuing.freeze_stamps (hp : d.prologue = true) : ∃ t, exec (.freeze a) s = .next t ∧ e.CapturedIn d n t ∧
    e.s.fresh < t.fresh ∧ t.grid? c.g.grid = some (d.stampedFrom e.s.fresh) := by
  obtain ⟨u, hgrows, hexec⟩ := h.exec_freeze_prologue ht hd hf he hn hp
  have hfound := Issue.group?_frozenFor d n hsole.found
  have hsole' : Issue.Sole { e with s := u, g := e.sharing d n } :=
    ⟨hsole.runs, hsole.other, hgrows.found _ (Option.isSome_of_mem hfound), hsole.owed⟩
  obtain ⟨hrest, -, -⟩ := hsole'.jumped (e.p.pc + 4)
  refine ⟨_, hexec, (Issue.capturedIn_frozenFor d n).of_eq ?_ ?_, ?_, ?_⟩
  · rw [hrest]; exact hgrows.mem
  · rw [hrest]; exact hgrows.sheaves
  · rw [hrest]
    have hfresh := hgrows.fresh
    rw [Issue.fresh_frozenFor] at hfresh
    exact hfresh
  · have hid : d.id = c.g.grid := by simpa using List.find?_some hd
    have hs : e.s = c.s := he ▸ c.afterReads_s (.freeze a)
    rw [hrest, ← hid]
    show u.grids.find? _ = _
    rw [hgrows.grids]
    exact Issue.grid?_frozenFor d n (by rw [hs, hid]; exact hd)

/-- A FREEZE without a fault captures its sheaf. -/
theorem Issuing.freeze_captures : ∃ t, exec (.freeze a) s = .next t ∧ e.CapturedIn d n t := by
  cases hp : d.prologue with
  | false =>
    obtain ⟨t, -, hexec, hcap, -⟩ := h.freeze_nests ht hd hf he hn hsole hp
    exact ⟨t, hexec, hcap⟩
  | true =>
    obtain ⟨t, hexec, hcap, -⟩ := h.freeze_stamps ht hd hf he hn hsole hp
    exact ⟨t, hexec, hcap⟩

end

/-- Settles O49: the faults in their order (`Issuing.freeze_raises`); without one, the sheaf is `Issue.capture` of the group after
its reads, which `Issuing.freeze_nests` and `Issuing.freeze_stamps` put in its place. -/
theorem freezeCapturesASheaf : Obligations.FreezeCapturesASheaf := by
  intro s c cl a tm d h ht hd i n alone
  have hs := State.issue?_s h.path
  subst hs
  refine ⟨fun hc => h.freeze_raises (Issue.freezeFault_of_crowded ht hd hc),
    fun hal hn => h.freeze_raises (Issue.freezeFault_of_size ht hd hal hn),
    fun hal hn hsize hdepth => h.freeze_raises (Issue.freezeFault_of_depth ht hd hal hn hsize hdepth),
    fun hal hn hsize hdepth => ?_, fun hal hn hsize hdepth hp => ?_, fun hal hn hsize hdepth hp => ?_⟩
  all_goals
    have hal : c.Alone := hal
    have hf := Issue.freezeFault_of_legal ht hd hal hn hsize hdepth
    obtain ⟨unmapped, v, pend, poisonV, he, hv⟩ := Issue.afterReads_eq hal.native (.freeze a)
    have hsole := h.sole_afterReads hal
    rw [he] at hsole
  · obtain ⟨t, hexec, hmem, b, hk⟩ := h.freeze_captures ht hd hf he rfl hsole
    refine ⟨t, _, hexec, hmem, hk, rfl, rfl, rfl, rfl, rfl, rfl, rfl, rfl, rfl, ?_, ?_, rfl, ?_, ?_, fun r => ?_, fun r m hm => ?_,
      fun o ho => Issue.memGet_capture ht d n ho, fun w => Issue.mem_capture_poisonWords ht d n w⟩
    · rw [hal.bank_eq]; rfl
    · rw [hal.bank_eq]; rfl
    · rw [hal.bank_eq]; rfl
    · rw [hal.bank_eq]; rfl
    · exact ((Issue.lanes_capture _ d n r).trans (congrArg (Option.map VMap.lanes) (hv r))).trans (apply_ite ..)
    · obtain ⟨x, hx, rfl⟩ := Option.map_eq_some_iff.mp ((Issue.nth_capture_v _ d n r).symm.trans hm)
      obtain ⟨-, hx'⟩ := Option.ite_none_left_eq_some.mp ((hv r).symm.trans hx)
      exact ⟨rfl, by rw [hx']; rfl⟩
  · obtain ⟨t, g, hexec, -, hfresh, hg, hnested, hslot, hlanes⟩ := h.freeze_nests ht hd hf he rfl hsole hp
    exact ⟨t, g, hexec, hfresh, hg, hnested, hslot, fun r l _ => (hlanes r l).trans (Group.vLane_of_nth (hv r) l)⟩
  · obtain ⟨t, hexec, -, hfresh, hgrid⟩ := h.freeze_stamps ht hd hf he rfl hsole hp
    exact ⟨t, _, hexec, hfresh, hgrid, rfl, rfl⟩

end Sys2Proof.Machine
end

section
/-! Stores (O36): from the group's queue to the core's buffer, and from there to memory. -/
namespace Sys2Proof.Machine

/-! ### What listed bytes leave in memory -/

/-- A byte after listed bytes are written: the last that is listed for its address, or what stood there. -/
theorem memGet_memWriteList {m : List Host.Cell} (h : Memory.wf m = true) (l : List (Nat × Byte)) (n : Nat) :
    memGet (memWriteList m l) n = ((l.reverse.find? (fun e => decide (e.1 = n))).map Prod.snd).getD (memGet m n) := by
  induction l generalizing m with
  | nil => rfl
  | cons e l ih =>
    rw [memWriteList, ih (memSet_wf h _ _), memGet_memSet h, List.reverse_cons, List.find?_append]
    cases l.reverse.find? (fun e => decide (e.1 = n)) with
    | some f => rfl
    | none =>
      by_cases he : n = e.1
      · simp [he]
      · simp [he, Ne.symm he]

/-- Tags set change no byte. -/
theorem State.setTags_mem (s : State) (l : List Nat) : (l.foldl (fun s a => s.setTag a) s).mem = s.mem :=
  l.foldlRecOn (motive := fun u : State => u.mem = s.mem) _ rfl fun _ hu _ _ => hu

/-- Tags set change no group. -/
theorem State.setTags_groups (s : State) (l : List Nat) : (l.foldl (fun s a => s.setTag a) s).groups = s.groups :=
  l.foldlRecOn (motive := fun u : State => u.groups = s.groups) _ rfl fun _ hu _ _ => hu

/-! ### A group that is at rest -/

/-- A group without a path that has not ended is written back as it is. -/
theorem State.landed_of_noPath {s : State} {g : Group} (hg : (s.group? g.id).isSome) (h0 : g.slot0 = none) (h1 : g.slot1 = none)
    (hend : g.ended = false) : s.landed g = (s.setGroup g).leaveOwed g.id := by
  have hleave : ∀ k, g.mayLeave k = false := fun k => by
    unfold Group.mayLeave Group.slot
    split
    · rfl
    · next hk => split at hk <;> simp_all
  have hexits : g.exits = g := by simp [Group.exits, hleave]
  have hjoins : g.joins 80 = g := Group.joins_none (by simp [Group.noJoin, h0, h1]) 80
  have hparked : g.allParked = true := by simp [Group.allParked, h0, h1]
  unfold State.landed State.settle
  simp only [hexits, hjoins, hparked, if_true]
  unfold State.reap
  rw [State.group?_leaveOwed, State.group?_setGroup_self hg]
  exact if_pos (by rw [Bool.not_eq_true']; exact hend)

/-- A group at rest that has not ended is written back as it is (R113). -/
theorem State.landed_of_atRest {s : State} {g : Group} (hg : (s.group? g.id).isSome) (hrest : g.atRest = true)
    (hend : g.ended = false) : s.landed g = s.setGroup g ∨ s.landed g = (s.setGroup g).leaveOwed g.id := by
  cases h0 : g.slot0 with
  | some p => exact State.landed_rest (k := 0) hg hrest h0
  | none =>
    cases h1 : g.slot1 with
    | some p => exact State.landed_rest (k := 1) hg hrest h1
    | none => exact .inr (State.landed_of_noPath hg h0 h1 hend)

/-- The groups after a group at rest is written back: that group, and every other as it was, but for the lists of R113. -/
theorem State.group?_landed_of_atRest {s : State} {g : Group} (hg : (s.group? g.id).isSome) (hrest : g.atRest = true)
    (hend : g.ended = false) : ((s.landed g).group? g.id).map Group.plain = some g.plain ∧
      ∀ n, n ≠ g.id → ((s.landed g).group? n).map Group.plain = (s.group? n).map Group.plain := by
  have hplain : ∀ n, ((s.landed g).group? n).map Group.plain = ((s.setGroup g).group? n).map Group.plain := by
    intro n
    rcases State.landed_of_atRest hg hrest hend with h | h <;> rw [h]
    rw [State.group?_leaveOwed, Option.map_map]
    rfl
  refine ⟨?_, fun n hn => ?_⟩
  · rw [hplain, State.group?_setGroup_self hg]
    rfl
  · rw [hplain, State.group?_setGroup_other hn]

/-! ### A store's two stages -/

/-- The stores of a group: ST and STC. -/
def isStore : Instr → Prop
  | .st _ _ _ _ _ _ => True
  | .stc _ _ _ _ => True
  | _ => False

/-- A store goes from its core to memory, or, where the order of R216 lets it, from its group to its core. -/
theorem exec_performed_store {s : State} {g : Group} {p : Pend} (hg : s.group? g.id = some g) (hp : g.pend? p.id = some p)
    (hst : p.status = .inFlight) (hwait : s.accessWaits g p = false) (hi : isStore p.instr) :
    exec (.storePerformed g.id p.id) s = .next (
      if p.stage = .atCore then s.storeToMemory g p
      else if (s.sendLoads g p).mayPerform p && !s.readAhead g.core p then s.storeToCore (s.sendLoads g p) p else s) := by
  have hact : p.active = true := decide_eq_true hst
  simp only [exec, execStorePerformed, hg, hp, hact, hwait, Bool.not_true, Bool.or_false, Bool.false_eq_true, if_false]
  unfold isStore at hi
  split at hi
  · next he =>
    simp only [he, ← apply_ite Host.Outcome.next]
  · next he =>
    simp only [he, ← apply_ite Host.Outcome.next]
  · exact hi.elim

/-- Loads sent ahead are in flight under their numbers. -/
theorem kept_sendLoads (s : State) (g : Group) (p : Pend) : (s.sendLoads g p).kept = g.kept := by
  unfold State.sendLoads
  refine (g.before p).foldlRecOn (motive := fun h : Group => h.kept = g.kept) _ rfl fun h hh q _ => ?_
  split
  · exact (h.kept_setPend _).trans hh
  · exact hh

/-- The group with its store at core scope: its paths are as they were, and it has not ended. -/
theorem Group.storeSent {s : State} {g : Group} {p : Pend} (hp : g.pend? p.id = some p) (q : Pend) :
    ((s.sendLoads g p).setPend q).id = g.id ∧ ((s.sendLoads g p).setPend q).atRest = g.atRest ∧
      ((s.sendLoads g p).setPend q).ended = false := by
  have hkept : ((s.sendLoads g p).setPend q).kept = g.kept := (Group.kept_setPend ..).trans (kept_sendLoads s g p)
  have hids : ((s.sendLoads g p).setPend q).pend.map Pend.id = g.pend.map Pend.id := congrArg Prod.snd hkept
  have hflying : ((s.sendLoads g p).setPend q).pend ≠ [] := by
    intro hnil
    rw [hnil, List.map_nil, eq_comm, List.map_eq_nil_iff] at hids
    rw [Group.pend?, hids] at hp
    cases hp
  refine ⟨congrArg (fun x : Group × List Nat => x.1.id) hkept, ?_, ?_⟩
  · rw [sendLoads_eq]
    rfl
  · have hpend : ((s.sendLoads g p).setPend q).pend.isEmpty = false := by simpa using hflying
    unfold Group.ended
    rw [hpend]
    simp only [Bool.and_false, Bool.false_and]

/-- A store of no register window stands in the core's buffer, over the copies that the core holds (R170, R178). -/
theorem State.storeToCore_spec {s : State} {g : Group} {p : Pend} (hg : s.group? g.id = some g) (hp : g.pend? p.id = some p)
    (hwindow : (p.xcap.getD {}).type ≠ 4) (hrest : g.atRest = true) (hcore : g.core < s.cores.length) :
    ∃ w : CoreWrite, w.group = g.id ∧ w.pend = p.id ∧ w.bytes = p.storeBytes (s.sendLoads g p) ∧
      (s.storeToCore (s.sendLoads g p) p).mem = s.mem ∧ (s.storeToCore (s.sendLoads g p) p).tags = s.tags ∧
      (s.storeToCore (s.sendLoads g p) p).coreAt g.core =
        { (s.coreAt g.core).update w.bytes with buffer := (s.coreAt g.core).buffer ++ [w] } ∧
      ((s.storeToCore (s.sendLoads g p) p).group? g.id).map Group.plain =
        some ((s.sendLoads g p).setPend { p with stage := .atCore }).plain ∧
      ∀ n, n ≠ g.id → ((s.storeToCore (s.sendLoads g p) p).group? n).map Group.plain = (s.group? n).map Group.plain := by
  obtain ⟨hid, hresting, hend⟩ := Group.storeSent (s := s) hp { p with stage := .atCore }
  have hsent : (s.sendLoads g p).id = g.id ∧ (s.sendLoads g p).core = g.core := by
    rw [sendLoads_eq]
    exact ⟨rfl, rfl⟩
  unfold State.storeToCore
  extract_lets x bytes k tagged w
  rw [if_neg hwindow]
  have hk : k = s.coreAt g.core := congrArg s.coreAt hsent.2
  clear_value k
  subst hk
  have hout := State.outside_landed (s.setCore (s.sendLoads g p).core { (s.coreAt g.core).update bytes with
    buffer := (s.coreAt g.core).buffer ++ [w] }) ((s.sendLoads g p).setPend { p with stage := .atCore })
  obtain ⟨hhere, hothers⟩ := State.group?_landed_of_atRest (s := s.setCore (s.sendLoads g p).core
    { (s.coreAt g.core).update bytes with buffer := (s.coreAt g.core).buffer ++ [w] })
    (g := (s.sendLoads g p).setPend { p with stage := .atCore }) (by rw [hid]; exact Option.isSome_of_eq_some hg)
    (hresting.trans hrest) hend
  rw [hid] at hhere hothers
  refine ⟨w, hsent.1, rfl, rfl, (congrArg State.mem hout :), (congrArg State.tags hout :), ?_, hhere, hothers⟩
  refine (congrArg (fun u : State => u.coreAt g.core) hout : ).trans ?_
  refine (State.coreAt_setCore ..).trans (if_pos ⟨hsent.2.symm, ?_⟩)
  rw [hsent.2]
  exact hcore

/-- An earlier store of the core to a sector of a store is on its way (R178, R221). -/
def Core.storeBlocked (k : Core) (mine : CoreWrite → Bool) (w : CoreWrite) : Bool :=
  (k.buffer.takeWhile (fun v => !mine v)).any (fun v =>
    v.bytes.any (fun e => (w.bytes.map (fun b => sectorOf b.1)).contains (sectorOf e.1)))

/-- A store behind an earlier one stays; any other is performed, and completes (R178, R221). -/
theorem State.storeToMemory_spec {s : State} {g : Group} {p : Pend} {w : CoreWrite} (hg : s.group? g.id = some g)
    (hw : (s.coreAt g.core).buffer.find? (fun v => decide (v.group = g.id) && decide (v.pend = p.id)) = some w) :
    ((s.coreAt g.core).storeBlocked (fun v => decide (v.group = g.id) && decide (v.pend = p.id)) w = true →
      s.storeToMemory g p = s) ∧
    ((s.coreAt g.core).storeBlocked (fun v => decide (v.group = g.id) && decide (v.pend = p.id)) w = false →
      (s.storeToMemory g p).mem = memWriteList s.mem w.bytes ∧
      ∀ h, (s.storeToMemory g p).group? g.id = some h → h.pend? p.id = none) := by
  unfold State.storeToMemory Core.storeBlocked
  extract_lets k mine
  rw [hw]
  dsimp only
  refine ⟨fun hb => if_pos hb, fun hb => ?_⟩
  rw [if_neg (by rw [hb]; exact Bool.false_ne_true)]
  have hcharge := State.sameStore_chargeAccess (s.writePhys w.bytes) g (distinct (w.bytes.map (fun e => sectorOf e.1)))
  refine ⟨?_, fun h hh => ?_⟩
  · rw [State.mem_landed]
    exact (State.setTags_mem ..).trans hcharge.mem
  · refine (State.landed_complete ?_ hh).1
    unfold State.group?
    rw [State.setCore_groups, State.setTags_groups, hcharge.groups]
    exact Option.isSome_of_eq_some hg

/-- Settles O36: a store's turn by the order of its group (`exec_performed_store`), its place in the core's buffer
(`State.storeToCore_spec`), and its bytes in memory behind the earlier stores of the core (`State.storeToMemory_spec`). -/
theorem storeReachesMemory : Obligations.StoreReachesMemory := by
  unfold Obligations.StoreReachesMemory
  intro s g p hg hp hst hwait hwindow hi hrest k i sent
  have hexec := exec_performed_store hg hp hst hwait hi
  refine ⟨fun hstage hheld => ?_, fun hstage hmay hahead hcore => ?_, ?_⟩
  · have hturn : (sent.mayPerform p && !s.readAhead g.core p) = false := by
      rcases hheld with h | h <;> simp [h]
    rw [hexec, hstage, if_neg (by decide), if_neg (by rw [hturn]; exact Bool.false_ne_true)]
  · have hturn : (sent.mayPerform p && !s.readAhead g.core p) = true := by simp [hmay, hahead]
    rw [hstage, if_neg (by decide), if_pos hturn] at hexec
    obtain ⟨w, hgroup, hpend, hbytes, hmem, htags, hcoreAt, hhere, hothers⟩ :=
      State.storeToCore_spec hg hp hwindow hrest hcore
    refine ⟨_, w, hexec, hmem, htags, hgroup, hpend, hbytes, ?_, ?_, sendLoads_eq s g p, hhere, hothers⟩
    · rw [hcoreAt]
    · rw [hcoreAt]
      rfl
  · intro w hstage hw blocked
    rw [hstage, if_pos rfl] at hexec
    obtain ⟨hstays, hperformed⟩ := State.storeToMemory_spec hg hw
    refine ⟨fun hb => hexec.trans (congrArg Host.Outcome.next (hstays hb)), fun hb hwf => ?_⟩
    obtain ⟨hmem, hgone⟩ := hperformed hb
    refine ⟨_, hexec, fun n => ?_, hgone⟩
    rw [hmem, memGet_memWriteList hwf]
    cases w.bytes.reverse.find? (fun e => decide (e.1 = n)) <;> rfl

end Sys2Proof.Machine
end
section
/-! Scratchpad accesses (O38): each acts on the window that `State.scratchTarget` gives, and completes. -/
namespace Sys2Proof.Machine

/-- The bytes of the window that a lane of an access reads (R165). -/
def State.windowBytes (s : State) (g : Group) (p : Pend) (sp : Space) (n lane : Nat) : List Byte :=
  match s.scratchTarget g sp (p.offset g lane) n with
  | none => []
  | some (tm, o) => s.scratchRead tm o n

/-- The lanes of a store written to the window, one after another (R181). -/
def State.writeLanes (s : State) (g : Group) (p : Pend) (sp : Space) (n : Nat) : State :=
  p.todo.foldl (fun s e => match s.scratchTarget g sp (p.offset g e.1) n with
    | none => s
    | some (tm, o) => s.scratchWrite tm.id o (p.storeData g e.1)) s

section
variable {s : State} {g : Group} {p : Pend} {sp : Space} {sz : MemSize} {op : AtomOp} {w : Bool}
  (hg : s.group? g.id = some g) (hp : g.pend? p.id = some p) (hst : p.status = .inFlight)
  (hwait : s.accessWaits g p = false) (hmay : g.mayPerform p = true)

/-- A load of scratchpad whose words are clean reads every lane at one moment (R181). -/
theorem State.performLds_of_clean (hclean : s.scratchPoison g p sp sz.bytes = []) (part : Nat) :
    s.performLds g p sp sz part = s.deliver g { p with
      todo := []
      due := p.loaded sz (p.todo.flatMap (fun e => (upto sz.regs).map (fun j => (e.1, j)))) (s.windowBytes g p sp sz.bytes) } part := by
  unfold State.performLds
  rw [hclean]
  rfl

/-- An atomic of one lane whose words are clean writes the new value over the one that it found (R180). -/
theorem State.performAtoms_of_lane {lane o : Nat} {tm : Team} (htodo : p.todo = [(lane, 0)])
    (hclean : s.scratchPoison g p sp (if w then 8 else 4) = [])
    (htarget : s.scratchTarget g sp (p.offset g lane) (if w then 8 else 4) = some (tm, o)) (part : Nat) :
    s.performAtoms g p sp op w part =
      (s.scratchWrite tm.id o (leBytes (if w then 8 else 4) (atomNew op w
        (leValue (s.scratchRead tm o (if w then 8 else 4))) (p.atomArgs g op w lane).1 (p.atomArgs g op w lane).2))).deliver g
        { p with
          todo := []
          due := p.oldValues w [(lane, leValue (s.scratchRead tm o (if w then 8 else 4)))] } part := by
  unfold State.performAtoms
  dsimp only
  rw [hclean, htodo, List.foldl_cons, List.foldl_nil, htarget]
  rfl

include hg hp hst hwait hmay

theorem exec_return_lds {u : Bool} {d : Dst} {a : Src} (hdue : p.due = []) (hi : p.instr = .lds u d sp sz a) (sector : Nat) :
    exec (.loadSectorReturn g.id p.id ⟨sector, 0⟩) s = .next (s.performLds g p sp sz 0) := by
  have hact : p.active = true := decide_eq_true hst
  simp only [exec, execLoadSectorReturn, hg, hp, sendLoads_of_mayPerform hmay, hdue, hact, hmay, hwait, hi,
    List.isEmpty_nil, Bool.not_true, Bool.or_false, Bool.false_eq_true, if_false]

/-- A store to scratchpad that its reserve holds writes its lanes in order (R146, R181). -/
theorem exec_performed_sts {u : Bool} {src a : Src} (hi : p.instr = .sts u src sp sz a)
    (hcow : s.lateTcopy g p sp sz.bytes = none) : exec (.storePerformed g.id p.id) s =
      .next ((s.writeLanes g p sp sz.bytes).progress g { p with todo := [] }) := by
  have hact : p.active = true := decide_eq_true hst
  simp only [exec, execStorePerformed, hg, hp, sendLoads_of_mayPerform hmay, hact, hmay, hwait, hi, hcow,
    Bool.not_true, Bool.or_false, Bool.false_eq_true, if_false]
  rfl

/-- An atomic on scratchpad that its reserve holds is performed, whether it returns or not (R146, R180). -/
theorem exec_return_atoms {u : Bool} {d : Dst} {a : Src} (hdue : p.due = []) (hi : p.instr = .atoms u d sp op w a)
    (hcow : s.lateTcopy g p sp (if w then 8 else 4) = none) (sector : Nat) :
    exec (.loadSectorReturn g.id p.id ⟨sector, 0⟩) s = .next (s.performAtoms g p sp op w 0) := by
  have hact : p.active = true := decide_eq_true hst
  simp only [exec, execLoadSectorReturn, hg, hp, sendLoads_of_mayPerform hmay, hdue, hact, hmay, hwait, hi, hcow,
    List.isEmpty_nil, Bool.not_true, Bool.or_false, Bool.false_eq_true, if_false]

theorem exec_performed_atoms {u : Bool} {a : Src} (hi : p.instr = .atomsNoreturn u sp op w a)
    (hcow : s.lateTcopy g p sp (if w then 8 else 4) = none) :
    exec (.storePerformed g.id p.id) s = .next (s.performAtoms g p sp op w 0) := by
  have hact : p.active = true := decide_eq_true hst
  simp only [exec, execStorePerformed, hg, hp, sendLoads_of_mayPerform hmay, hact, hmay, hwait, hi, hcow,
    Bool.not_true, Bool.or_false, Bool.false_eq_true, if_false]

end

/-- Settles O38: an access that may be performed has no load to send ahead (`sendLoads_of_mayPerform`), so that it acts on the
window as its group finds it. -/
theorem scratchpadAccessesActOnTheWindow : Obligations.ScratchpadAccessesActOnTheWindow := by
  unfold Obligations.ScratchpadAccessesActOnTheWindow
  intro s g p u w d src a sp sz op sector hg hp hst hdue hwait hmay h target bytes parts
  have hh : h = g := sendLoads_of_mayPerform hmay
  clear_value h
  subst hh
  refine ⟨fun hi hclean => ?_, fun hi hcow => exec_performed_sts hg hp hst hwait hmay hi hcow, ?_⟩
  · rw [exec_return_lds hg hp hst hwait hmay hdue hi sector, State.performLds_of_clean hclean]
    rfl
  · intro lane tm o htodo hcow hclean htarget m cv s' t
    have hone : s.performAtoms h p sp op w 0 = t := State.performAtoms_of_lane htodo hclean htarget 0
    refine ⟨fun hi => ?_, fun hi => ?_⟩
    · rw [exec_return_atoms hg hp hst hwait hmay hdue hi hcow, hone]
    · rw [exec_performed_atoms hg hp hst hwait hmay hi hcow, hone]

end Sys2Proof.Machine
end
section
/-! The host, peers and the pages that they share with the device (O51). -/
namespace Sys2Proof.Machine

/-! ### Shoot-downs (R162) -/

/-- A run that still meets the page after a cut is empty. -/
theorem XReg.extent_cut {page : Nat} {x : XReg}
    (h : meetsPage (x.cut page).base.toNat ((x.cut page).base.toNat + (x.cut page).extent.toNat) page = true) :
    (x.cut page).extent = 0 := by
  unfold XReg.cut at h ⊢
  split
  · rfl
  · next hmiss =>
    rw [if_neg hmiss] at h
    exact absurd h hmiss

/-- No translation of the page is held after its shoot-down. -/
theorem State.tlb_shoot (s : State) (ctx page : Nat) :
    (∀ k ∈ (s.shoot ctx page).cores, ∀ e ∈ k.tlb, ¬ (e.ctx = ctx ∧ e.page = page)) ∧
      ∀ d ∈ (s.shoot ctx page).dies, ∀ e ∈ d.tlb, ¬ (e.ctx = ctx ∧ e.page = page) := by
  have hkeep : ∀ (l : List TlbEntry), ∀ e ∈ l.filter (fun t => !(t.ctx = ctx && t.page = page)),
      ¬ (e.ctx = ctx ∧ e.page = page) := by
    intro l e he
    simpa only [Bool.not_eq_true', Bool.and_eq_false_iff, decide_eq_false_iff_not, not_and_or] using (List.mem_filter.mp he).2
  constructor
  · intro k hk
    obtain ⟨c, -, rfl⟩ := List.mem_map.mp hk
    exact hkeep c.tlb
  · intro d hd
    obtain ⟨c, -, rfl⟩ := List.mem_map.mp hd
    exact hkeep c.tlb

/-- No run of a register of the context meets the page after its shoot-down. -/
theorem State.runs_shoot {s : State} {ctx page : Nat} {g : Group} (hg : g ∈ (s.shoot ctx page).groups)
    (hctx : (s.shoot ctx page).inContext ctx g = true) {x : XReg} (hx : x ∈ g.bank0.x ++ g.bank1.x)
    (hmeets : meetsPage x.base.toNat (x.base.toNat + x.extent.toNat) page = true) : x.extent = 0 := by
  obtain ⟨h, -, rfl⟩ := List.mem_map.mp hg
  by_cases hin : s.inContext ctx h = true
  · rw [if_pos hin] at hx
    have hcut : x ∈ (h.bank0.x ++ h.bank1.x).map (XReg.cut page) := by
      rw [List.map_append]
      exact hx
    obtain ⟨y, -, rfl⟩ := List.mem_map.mp hcut
    exact XReg.extent_cut hmeets
  · rw [if_neg hin] at hctx
    exact absurd hctx hin

theorem exec_shootDown_of_quiet {s : State} {ctx page : Nat} (h : s.pageQuiet ctx page = true) :
    exec (.shootDown ctx page) s = .next (s.shoot ctx page) := if_pos h

theorem exec_shootDown_of_busy {s : State} {ctx page : Nat} (h : s.pageQuiet ctx page = false) :
    exec (.shootDown ctx page) s = .next s := if_neg (by simp [h])

/-! ### Ranges (R330) -/

section
variable {s : State} {ctx range : Nat} {c : Context} (hc : s.context? ctx = some c)
include hc

/-- A range whose accesses are performed is given to the host, where it is not the host's already. -/
theorem exec_rangeRelease : exec (.rangeRelease ctx range) s =
    if s.pageQuiet ctx range && !c.hostRanges.contains range then
      .next ((s.shoot ctx range).setContext { c with hostRanges := insertRising range c.hostRanges })
    else .next s := by
  show execRangeRelease ctx range s = _
  rw [execRangeRelease, hc]

/-- A range that the host holds comes back, and every read cache is empty. -/
theorem exec_rangeAcquire (h : c.hostRanges.contains range = true) : exec (.rangeAcquire ctx range) s =
    .next { s.setContext { c with hostRanges := removeNat range c.hostRanges } with
      cores := s.cores.map (fun k => { k with readCache := [] }) } := by
  show execRangeAcquire ctx range s = _
  rw [execRangeAcquire, hc]
  exact if_pos h

end

/-! ### Accesses from outside (R328, R331) -/

/-- Bytes outside device memory wait for no channel. -/
theorem State.placesHeld_of_outside (s : State) {pa : Nat} (n : Nat) (h : deviceMemoryEnd ≤ pa) :
    s.placesHeld pa n = false := by
  have hfree : ∀ i, s.channelBusy (pa + i) = false := by
    intro i
    have hout : ¬ pa + i < deviceMemoryEnd := by omega
    unfold State.channelBusy
    rw [decide_eq_false hout, Bool.false_and]
  unfold State.placesHeld
  simp [hfree]

/-- An access to memory that waits for no channel is served. -/
theorem exec_hostAccess_of_free {s : State} {pa : Nat} {a : OutsideAccess}
    (hmem : (inDevice pa (outsideLen a) || inHost pa (outsideLen a)) = true) (hfree : s.placesHeld pa (outsideLen a) = false) :
    exec (.hostAccess pa a) s = .next (s.serve pa a) := by
  show execHostAccess pa a s = _
  rw [execHostAccess, if_pos hmem, hfree]
  exact if_neg Bool.false_ne_true

theorem exec_hostAccess_of_noMemory {s : State} {pa : Nat} {a : OutsideAccess}
    (hmem : (inDevice pa (outsideLen a) || inHost pa (outsideLen a)) = false) :
    exec (.hostAccess pa a) s = .fault (.noSuchAddress pa) := by
  show execHostAccess pa a s = _
  rw [execHostAccess, hmem]
  exact if_neg Bool.false_ne_true

/-- An access of another member of the domain, to memory whose device has not left, is served at its home. -/
theorem exec_peerAccess_of_member {s : State} {peer pa : Nat} {a : OutsideAccess} (hdomain : s.domain.isSome = true)
    (hpeer : s.members.contains peer = true) (hother : s.domain ≠ some peer)
    (hmem : (inDevice pa (outsideLen a) || inPeer pa (outsideLen a)) = true) (hthere : s.peerGone pa = false)
    (hfree : s.placesHeld (s.homeAddress pa) (outsideLen a) = false) :
    exec (.peerAccess peer pa a) s = .next (s.serve (s.homeAddress pa) a) := by
  have hmay : (s.domain.isNone || !s.members.contains peer || decide (s.domain = some peer)) = false := by
    rw [hpeer, decide_eq_false hother, ← Option.not_isSome, hdomain]
    rfl
  show execPeerAccess peer pa a s = _
  rw [execPeerAccess, hmay, if_neg Bool.false_ne_true, if_pos hmem, hthere, hfree]
  exact if_neg Bool.false_ne_true

/-- An address of device memory is its own home, and belongs to no peer. -/
theorem State.home_of_inDevice (s : State) {pa : Nat} (h : pa ≤ deviceMemoryEnd) :
    s.homeAddress pa = pa ∧ s.peerGone pa = false := by
  have hlow : ¬ 0x800000000000 ≤ pa := by
    unfold deviceMemoryEnd at h
    omega
  exact ⟨if_neg fun hin => hlow hin.1, by rw [State.peerGone, decide_eq_false hlow, Bool.false_and, Bool.false_and]⟩

/-! ### The domain (R331, R332) -/

/-- An instruction in flight of a device that has left, still queued, accesses nothing of it. -/
theorem Pend.toPeer_peerLeft {peer seq : Nat} {p : Pend} (hst : (p.peerLeft peer seq).status = .inFlight)
    (hstage : (p.peerLeft peer seq).stage = .queued) : ∀ a ∈ (p.peerLeft peer seq).lanes, a.toPeer peer = false := by
  unfold Pend.peerLeft at *
  split
  · next hnone =>
    intro a ha
    simpa using List.filter_eq_nil_iff.mp hnone a ha
  · next hlanes =>
    rw [hlanes] at hst hstage
    dsimp only at hst hstage
    split at hst
    · cases hst
    · next hfree =>
      rw [if_neg hfree] at hstage
      exact absurd (by simp [Pend.active, hst, hstage]) hfree

theorem exec_deviceLeavesDomain {s : State} {peer : Nat} (hpeer : s.members.contains peer = true)
    (hother : s.domain ≠ some peer) : exec (.deviceLeavesDomain peer) s = .next { s with
      members := removeNat peer s.members
      fresh := s.fresh + 1
      groups := s.groups.map (fun g => { g with pend := g.pend.map (Pend.peerLeft peer s.fresh) }) } :=
  if_pos (by rw [hpeer, decide_eq_true hother]; rfl)

/-- Settles O51: a shoot-down by what it cuts (`State.tlb_shoot`, `State.runs_shoot`), ranges by their equations, and accesses
from outside by where their bytes lie. -/
theorem coherenceWithTheHostAndPeers : Obligations.CoherenceWithTheHostAndPeers := by
  unfold Obligations.CoherenceWithTheHostAndPeers
  refine ⟨fun s ctx page => ⟨exec_shootDown_of_busy, fun hq => ?_⟩, fun s ctx range c hc => ⟨fun hq hown => ?_, fun hq => ?_,
    fun hown => ?_⟩, fun s pa l hwf hin hfree => ⟨?_, ?_, fun peer own hdomain hpeer hother => ?_⟩,
    fun s peer pa l hdomain hpeer hother hlow hhigh hin hthere hfree => ?_, fun s pa l hlow hhigh => ?_,
    fun s pa n hn hdevice hhost => ?_, fun s own count => ⟨fun hown hcount => if_pos ⟨hown, hcount⟩, fun hbad => if_neg ?_⟩,
    fun s peer hpeer hother => ?_⟩
  · obtain ⟨hcores, hdies⟩ := s.tlb_shoot ctx page
    exact ⟨_, exec_shootDown_of_quiet hq, rfl, hcores, hdies, fun g hg hctx x hx => State.runs_shoot hg hctx hx⟩
  · rw [exec_rangeRelease hc, hq, hown]
    rfl
  · rw [exec_rangeRelease hc, hq]
    rfl
  · refine ⟨_, exec_rangeAcquire hc hown, fun k hk => ?_, rfl⟩
    obtain ⟨c, -, rfl⟩ := List.mem_map.mp hk
    rfl
  · have hmem : (inDevice pa l.length || inHost pa l.length) = true := by simp [inDevice, hin]
    exact ⟨_, exec_hostAccess_of_free (a := .write l) hmem hfree, memGet_writeBytes hwf pa l⟩
  · have hmem : (inDevice pa l.length || inHost pa l.length) = true := by simp [inDevice, hin]
    exact exec_hostAccess_of_free (a := .read l.length) hmem hfree
  · obtain ⟨hhome, hthere⟩ := s.home_of_inDevice (pa := pa) (by omega)
    have hmem : (inDevice pa l.length || inPeer pa l.length) = true := by simp [inDevice, hin]
    have hexec := exec_peerAccess_of_member (a := .write l) (by rw [hdomain]; rfl) hpeer
      (by rw [hdomain]; exact fun h => hother (Option.some.inj h).symm) hmem hthere (by rw [hhome]; exact hfree)
    rw [hhome] at hexec
    exact hexec
  · have hmem : (inDevice pa l.length || inPeer pa l.length) = true := by
      unfold inPeer
      rw [decide_eq_true hlow, decide_eq_true hhigh, decide_eq_true hin]
      simp
    exact exec_peerAccess_of_member (a := .write l) hdomain hpeer hother hmem hthere hfree
  · have hmem : (inDevice pa l.length || inHost pa l.length) = true := by
      unfold inHost
      rw [decide_eq_true hlow, decide_eq_true hhigh]
      simp
    exact exec_hostAccess_of_free (a := .write l) hmem
      (s.placesHeld_of_outside _ ((show deviceMemoryEnd ≤ 0x400000000000 by decide).trans hlow))
  · refine exec_hostAccess_of_noMemory ?_
    have hnot : ¬ pa + n ≤ deviceMemoryEnd ∧ ¬ 0x400000000000 ≤ pa := by omega
    unfold inDevice inHost outsideLen
    rw [decide_eq_false hnot.1, decide_eq_false hnot.2]
    rfl
  · omega
  · refine ⟨_, exec_deviceLeavesDomain hpeer hother, rfl, rfl, fun g hg p hp hst hstage => ?_⟩
    obtain ⟨h, -, rfl⟩ := List.mem_map.mp hg
    obtain ⟨q, -, rfl⟩ := List.mem_map.mp hp
    exact Pend.toPeer_peerLeft hst hstage

end Sys2Proof.Machine
end
section
/-! What of a device tells which of its cores are there: left alone by returns, stores, saves and ends of grids. Under O52. -/
namespace Sys2Proof.Machine

/-! ### The cores that a device has -/

/-- The device has the same cores: the same dies and health record, and the same cores are absent (R333, R335). -/
structure State.SameSpares (s t : State) : Prop where
  dies : t.dies = s.dies
  health : t.health = s.health
  length : t.cores.length = s.cores.length
  absent : ∀ k, (t.coreAt k).absent = (s.coreAt k).absent

theorem State.SameSpares.refl (s : State) : s.SameSpares s := ⟨rfl, rfl, rfl, fun _ => rfl⟩

theorem State.SameSpares.trans {s t u : State} (h : s.SameSpares t) (h' : t.SameSpares u) : s.SameSpares u :=
  ⟨h'.dies.trans h.dies, h'.health.trans h.health, h'.length.trans h.length, fun k => (h'.absent k).trans (h.absent k)⟩

theorem State.SameSpares.foldl {α : Type} {f : State → α → State} (hf : ∀ s a, State.SameSpares s (f s a)) (l : List α)
    (s : State) : s.SameSpares (l.foldl f s) :=
  l.foldlRecOn f (.refl s) fun t ht a _ => ht.trans (hf t a)

theorem State.SameSpares.ite {c : Prop} [Decidable c] {s t u : State} (ht : s.SameSpares t) (hu : s.SameSpares u) :
    s.SameSpares (if c then t else u) := by
  split
  · exact ht
  · exact hu

/-- What changes neither dies, health record nor cores. -/
theorem State.SameSpares.of_cores {s t : State} (hd : t.dies = s.dies) (hh : t.health = s.health) (hc : t.cores = s.cores) :
    s.SameSpares t :=
  ⟨hd, hh, congrArg List.length hc, fun k => congrArg (fun l : List Core => (nth l k {}).absent) hc⟩

/-- What changes groups, and what ends with them, alone. -/
theorem State.SameSpares.of_outside {s t : State} (h : t.outside = s.outside) : s.SameSpares t :=
  .of_cores (congrArg State.dies h :) (congrArg State.health h :) (congrArg State.cores h :)

/-- A core replaced by one that is there where it was. -/
theorem State.sameSpares_setCore (s : State) (core : Nat) {k : Core} (h : k.absent = (s.coreAt core).absent) :
    s.SameSpares (s.setCore core k) where
  dies := rfl
  health := rfl
  length := length_setNth ..
  absent n := by
    rw [State.coreAt_setCore]
    split
    · next hn => rw [h, hn.1]
    · rfl

/-- Every core replaced by one that is there where it was. -/
theorem State.sameSpares_mapCores (s : State) {f : Core → Core} (h : ∀ k, (f k).absent = k.absent) :
    s.SameSpares { s with cores := s.cores.map f } where
  dies := rfl
  health := rfl
  length := List.length_map ..
  absent n := by
    show (nth (s.cores.map f) n {}).absent = (nth s.cores n {}).absent
    unfold nth
    rw [List.getElem?_map]
    cases s.cores[n]? with
    | none => rfl
    | some k => exact h k

/-! ### Returns -/

theorem State.sameSpares_landed (s : State) (g : Group) : s.SameSpares (s.landed g) := .of_outside (s.outside_landed g)

theorem State.sameSpares_gutter (s : State) (core ctx id : Nat) (w : GutterWant) : s.SameSpares (s.gutter core ctx id w) := by
  unfold State.gutter
  split
  · exact .refl s
  · next c _ =>
    have hput : ∀ c' k', k'.absent = (s.coreAt core).absent → s.SameSpares ((s.setContext c').setCore core k') :=
      fun c' k' h => State.SameSpares.trans (t := s.setContext c') (.of_cores rfl rfl rfl) (State.sameSpares_setCore _ core h)
    exact .ite (.refl s) (.ite (.of_cores rfl rfl rfl) (hput _ _ rfl))

theorem State.sameSpares_putGutters (s : State) (g : Group) (p : Pend) : s.SameSpares (s.putGutters g p) := by
  unfold State.putGutters
  refine .ite (.refl s) ?_
  split
  · exact .refl s
  · exact .foldl (fun s w => s.sameSpares_gutter ..) ..

theorem State.sameSpares_deliver (s : State) (g : Group) (p : Pend) (part : Nat) : s.SameSpares (s.deliver g p part) := by
  have hprogress : ∀ (s : State) (g : Group) (p : Pend), s.SameSpares (s.progress g p) := fun s g p =>
    .ite ((s.sameSpares_putGutters g p).trans (State.sameSpares_landed ..)) (s.sameSpares_landed _)
  have hnext : s.SameSpares s.nextFree := .of_cores rfl rfl rfl
  exact hnext.trans (hprogress ..)

theorem State.sameSpares_loadSector (s : State) (core sector : Nat) (cacheable : Bool) :
    s.SameSpares (s.loadSector core sector cacheable).2 := by
  have hfill : ∀ b, s.SameSpares (s.setCore core ((s.coreAt core).fill sector b)) := fun b => s.sameSpares_setCore core rfl
  have hrefresh : ∀ b, s.SameSpares (s.setCore core ((s.coreAt core).refresh sector b)).nextFree := by
    intro b
    have hcore : s.SameSpares (s.setCore core ((s.coreAt core).refresh sector b)) := by
      refine s.sameSpares_setCore core ?_
      unfold Core.refresh
      split <;> rfl
    exact hcore.trans (.of_cores rfl rfl rfl)
  unfold State.loadSector
  extract_lets k seen
  split
  · split
    · exact .of_cores rfl rfl rfl
    · exact hrefresh seen
  · exact .ite (hfill seen) (.refl s)

theorem State.sameSpares_loadSectors (s : State) (core : Nat) (cacheable : Bool) (l : List Nat) :
    s.SameSpares (s.loadSectors core cacheable l).2 := by
  induction l generalizing s with
  | nil => exact .refl s
  | cons x l ih => exact (s.sameSpares_loadSector core x cacheable).trans (ih _)

theorem State.sameSpares_poisonPend (s : State) (g : Group) (p : Pend) : s.SameSpares (s.poisonPend g p) := by
  unfold State.poisonPend
  extract_lets bad t
  refine .ite ?_ (.of_cores rfl rfl rfl)
  unfold State.forward
  exact .ite (.of_cores rfl rfl rfl) (.of_cores rfl rfl rfl)

theorem State.sameSpares_returnLoad (s : State) (g : Group) (p : Pend) (sz : MemSize) (cacheable : Bool)
    (sector part : Nat) : s.SameSpares (s.returnLoad g p sz cacheable sector part) := by
  unfold State.returnLoad
  exact .ite (s.sameSpares_poisonPend g p) ((s.sameSpares_loadSectors ..).trans (State.sameSpares_deliver ..))

theorem State.sameSpares_landLoad (gid id n : Nat) (s : State) : s.SameSpares (State.landLoad gid id n s) := by
  induction n generalizing s with
  | zero => exact .refl s
  | succ n ih =>
    unfold State.landLoad
    split
    · exact .refl s
    · split
      · exact .refl s
      · split
        · exact .ite ((s.sameSpares_returnLoad ..).trans (ih _)) (.refl s)
        · exact .refl s

theorem State.sameSpares_landDue (gid : Nat) (s : State) (id : Nat) : s.SameSpares (State.landDue gid s id) := by
  unfold State.landDue
  split
  · exact .refl s
  · split
    · exact .refl s
    · exact .ite (.refl s) (s.sameSpares_deliver ..)

theorem State.sameSpares_land (s : State) (gid : Nat) : s.SameSpares (s.land gid) := by
  unfold State.land
  split
  · exact .refl s
  · extract_lets s1 s2
    have h1 : s.SameSpares s1 := .of_cores rfl rfl rfl
    exact (h1.trans (.foldl (fun s p => s.sameSpares_landLoad ..) ..)).trans (.foldl (State.sameSpares_landDue gid) ..)

/-! ### Stores that reach memory -/

theorem State.sameSpares_chargeAccess (s : State) (g : Group) (secs : List Nat) : s.SameSpares (s.chargeAccess g secs) := by
  unfold State.chargeAccess State.charge
  split
  · exact .refl s
  · refine .ite (.refl s) ?_
    split
    · exact .refl s
    · exact .ite (.refl s) (.of_cores rfl rfl rfl)

theorem State.sameSpares_setTags (s : State) (l : List Nat) : s.SameSpares (l.foldl (fun s a => s.setTag a) s) :=
  .foldl (f := fun (s : State) a => s.setTag a) (fun _ _ => .of_cores rfl rfl rfl) l s

/-- The core of a store loses it from its buffer, when memory has it. -/
theorem State.sameSpares_storeToMemory (s : State) (g : Group) (p : Pend) : s.SameSpares (s.storeToMemory g p) := by
  unfold State.storeToMemory
  extract_lets k mine earlier
  split
  · exact s.sameSpares_landed _
  · next w _ =>
    extract_lets secs s1 s2 s3
    have hwrite : s.SameSpares (s.writePhys w.bytes) := .of_cores rfl rfl rfl
    have h1 : s.SameSpares s1 := hwrite.trans (State.sameSpares_chargeAccess ..)
    have h2 : s.SameSpares s2 := h1.trans (s1.sameSpares_setTags w.tagged)
    have h3 : s.SameSpares s3 := h2.trans (s2.sameSpares_setCore g.core (h2.absent g.core).symm)
    exact .ite (.refl s) (h3.trans (State.sameSpares_landed ..))

theorem State.sameSpares_flushOne (s : State) (core : Nat) : s.SameSpares (s.flushOne core) := by
  unfold State.flushOne
  split
  · exact .refl s
  · next w l _ =>
    split
    · exact s.sameSpares_storeToMemory ..
    · have hwrite : s.SameSpares (w.tagged.foldl (fun s a => s.setTag a) (s.writePhys w.bytes)) :=
        State.SameSpares.trans (t := s.writePhys w.bytes) (.of_cores rfl rfl rfl) (State.sameSpares_setTags ..)
      exact hwrite.trans (State.sameSpares_setCore _ core (hwrite.absent core).symm)

theorem State.sameSpares_flushCore (s : State) (core : Nat) : s.SameSpares (s.flushCore core) :=
  .foldl (fun s _ => s.sameSpares_flushOne core) ..

/-! ### Saves, ends and records -/

theorem State.sameSpares_saveTeam (s : State) (tid : Nat) : s.SameSpares (s.saveTeam tid) := by
  unfold State.saveTeam
  extract_lets s1
  have h1 : s.SameSpares s1 := .foldl State.sameSpares_land ..
  split
  · exact h1
  · next t _ => exact (h1.trans (s1.sameSpares_flushCore t.core)).trans (.of_cores rfl rfl rfl)

theorem State.sameSpares_saveTeams (s : State) (l : List Nat) : s.SameSpares (l.foldl State.saveTeam s) :=
  .foldl State.sameSpares_saveTeam ..

theorem State.sameSpares_endGrid (s : State) (gid status : Nat) : s.SameSpares (s.endGrid gid status) := by
  unfold State.endGrid
  split
  · exact .refl s
  · extract_lets s1 s2 mine
    have h2 : s1.SameSpares s2 :=
      (s1.sameSpares_mapCores (f := fun k => { k with deque := k.deque.filter (fun r => r.grid ≠ gid) }) fun _ => rfl).trans
        (.of_cores rfl rfl rfl)
    have h1 : s.SameSpares s1 := .of_cores rfl rfl rfl
    exact ((h1.trans h2).trans (.foldl (fun s n => .of_outside (s.outside_reap n)) ..)).trans
      (.of_outside (State.outside_closeGrid ..))

theorem State.sameSpares_dropCopyReq (s : State) (core : Nat) (r : CopyReq) : s.SameSpares (s.dropCopyReq core r) :=
  (s.sameSpares_setCore core (k := { s.coreAt core with copies := (s.coreAt core).copies.filter (fun q => q.id ≠ r.id) })
    rfl).trans (.of_outside (State.outside_closeTeam ..))

theorem State.sameSpares_pushRecord (s : State) (core ctx : Nat) (r : DequeRecord) :
    s.SameSpares (s.pushRecord core ctx r) := by
  have hcore : ∀ l, s.SameSpares (s.setCore core { s.coreAt core with deque := l }) := fun l => s.sameSpares_setCore core rfl
  unfold State.pushRecord
  refine .ite (.of_cores rfl rfl rfl) (.ite (hcore _) ?_)
  extract_lets tail s1
  split
  · exact hcore _
  · exact (hcore _).trans (.of_cores rfl rfl rfl)

theorem State.sameSpares_rehome (s : State) (core : Nat) : s.SameSpares (s.rehome core) := by
  unfold State.rehome
  extract_lets l k s1
  have h1 : s.SameSpares s1 := s.sameSpares_setCore core rfl
  refine h1.trans (.foldl (fun u r => ?_) ..)
  split
  · exact .refl u
  · have hnext : u.SameSpares u.nextFree := .of_cores rfl rfl rfl
    exact hnext.trans (State.sameSpares_pushRecord ..)

end Sys2Proof.Machine
end
section
/-! Ends of grids: what becomes of the groups and the grids of a device where groups and grids end. Under O52. -/
namespace Sys2Proof.Machine

/-! ### Groups that stay -/

/-- A group that stays in its place where groups end; one that has ended already stays so. -/
structure Group.Stays (g h : Group) : Prop where
  id : h.id = g.id
  grid : h.grid = g.grid
  core : h.core = g.core
  res : h.res = g.res
  ended : g.ended = true → h.ended = true

theorem Group.Stays.refl (g : Group) : g.Stays g := ⟨rfl, rfl, rfl, rfl, fun h => h⟩

theorem Group.Stays.trans {g h k : Group} (a : g.Stays h) (b : h.Stays k) : g.Stays k :=
  ⟨b.id.trans a.id, b.grid.trans a.grid, b.core.trans a.core, b.res.trans a.res, b.ended ∘ a.ended⟩

/-- A killed group has no path; where nothing of it was in flight, it has ended (R77, R307). -/
theorem Group.stays_kill (g : Group) : g.Stays g.kill where
  id := rfl
  grid := rfl
  core := rfl
  res := rfl
  ended h := by
    have hpend : g.pend = [] := by
      unfold Group.ended at h
      simp only [Bool.and_eq_true, List.isEmpty_iff] at h
      obtain ⟨⟨⟨-, hpend⟩, -⟩, -⟩ := h
      exact hpend
    unfold Group.ended Group.kill
    rw [hpend]
    rfl

/-- Groups end: those that are left were there (R77). -/
structure State.Fewer (s t : State) : Prop where
  stays : ∀ h ∈ t.groups, ∃ g ∈ s.groups, g.Stays h

theorem State.Fewer.of_eq {s t : State} (h : t.groups = s.groups) : s.Fewer t :=
  ⟨fun g hg => ⟨g, h ▸ hg, .refl g⟩⟩

theorem State.Fewer.refl (s : State) : s.Fewer s := .of_eq rfl

theorem State.Fewer.trans {s t u : State} (a : s.Fewer t) (b : t.Fewer u) : s.Fewer u := by
  refine ⟨fun k hk => ?_⟩
  obtain ⟨h, hh, hstays⟩ := b.stays k hk
  obtain ⟨g, hg, hstays'⟩ := a.stays h hh
  exact ⟨g, hg, hstays'.trans hstays⟩

theorem State.Fewer.foldl {α : Type} {f : State → α → State} (hf : ∀ s a, State.Fewer s (f s a)) (l : List α) (s : State) :
    s.Fewer (l.foldl f s) :=
  l.foldlRecOn f (.refl s) fun t ht a _ => ht.trans (hf t a)

theorem State.Fewer.of_map {s t : State} {f : Group → Group} (hf : ∀ g : Group, g.Stays (f g))
    (h : t.groups = s.groups.map f) : s.Fewer t := by
  refine ⟨fun x hx => ?_⟩
  rw [h] at hx
  obtain ⟨g, hg, rfl⟩ := List.mem_map.mp hx
  exact ⟨g, hg, hf g⟩

theorem State.fewer_dropSheaves (s : State) : s.Fewer s.dropSheaves := by
  unfold State.dropSheaves
  extract_lets live gone
  split
  · exact .refl s
  · exact .of_map (f := Group.unshared gone) (fun _ => ⟨rfl, rfl, rfl, rfl, fun h => h⟩) rfl

theorem State.fewer_closeGrid (s : State) (n : Nat) : s.Fewer (s.closeGrid n) := by
  unfold State.closeGrid
  split
  · exact .refl s
  · extract_lets s1 busy s2
    have h2 : s.Fewer s2 := .of_eq rfl
    split
    · exact h2.trans s2.fewer_dropSheaves
    · exact .refl s

theorem State.fewer_reap (s : State) (n : Nat) : s.Fewer (s.reap n) := by
  unfold State.reap
  split
  · exact .refl s
  · extract_lets s1
    split
    · exact .refl s
    · have h1 : s.Fewer s1 := by
        refine ⟨fun h hh => ?_⟩
        obtain ⟨g, hg, rfl⟩ := List.mem_map.mp hh
        exact ⟨g, (List.mem_filter.mp hg).1, ⟨rfl, rfl, rfl, rfl, fun h => h⟩⟩
      exact ((h1.trans s1.fewer_dropSheaves).trans (.of_eq (State.closeTeam_groups ..))).trans (State.fewer_closeGrid ..)

/-- A group that has ended is gone once it is reaped. -/
theorem State.ne_of_mem_reap {s : State} {n : Nat} (hend : ∀ g ∈ s.groups, g.id = n → g.ended = true) :
    ∀ h ∈ (s.reap n).groups, h.id ≠ n := by
  unfold State.reap
  split
  · next hnone =>
    intro h hh hid
    exact List.find?_eq_none.mp hnone h hh (by simpa using hid)
  · next g hg =>
    extract_lets s1
    have hended : g.ended = true := hend g (List.mem_of_find?_eq_some hg) (State.group?_id hg)
    rw [if_neg (by rw [hended]; exact Bool.false_ne_true)]
    have hleft : ∀ h ∈ s1.groups, h.id ≠ n := by
      intro h hh
      obtain ⟨x, hx, rfl⟩ := List.mem_map.mp hh
      simpa using (List.mem_filter.mp hx).2
    have hfewer : s1.Fewer ((s1.dropSheaves.closeTeam g.team).closeGrid g.grid) :=
      (s1.fewer_dropSheaves.trans (.of_eq (State.closeTeam_groups ..))).trans (State.fewer_closeGrid ..)
    intro h hh
    obtain ⟨x, hx, hstays⟩ := hfewer.stays h hh
    rw [hstays.id]
    exact hleft x hx

/-- Every group of a number is of a grid, and has ended. -/
def State.Doomed (s : State) (n d : Nat) : Prop := ∀ g ∈ s.groups, g.id = n → g.grid = d ∧ g.ended = true

theorem State.Doomed.mono {s t : State} {n d : Nat} (h : s.Doomed n d) (hfewer : s.Fewer t) : t.Doomed n d := by
  intro x hx hid
  obtain ⟨g, hg, hstays⟩ := hfewer.stays x hx
  obtain ⟨hgrid, hend⟩ := h g hg (hstays.id.symm.trans hid)
  exact ⟨hstays.grid.trans hgrid, hstays.ended hend⟩

/-- A number that no group has is not taken where groups end. -/
theorem State.Fewer.absent {s t : State} {n : Nat} (hfewer : s.Fewer t) (h : ∀ g ∈ s.groups, g.id ≠ n) :
    ∀ g ∈ t.groups, g.id ≠ n := by
  intro x hx
  obtain ⟨g, hg, hstays⟩ := hfewer.stays x hx
  rw [hstays.id]
  exact h g hg

/-- Of some groups that are reaped those that have ended are gone. -/
theorem State.ne_of_mem_reaps {n d : Nat} (l : List Nat) (hl : n ∈ l) {s : State} (hend : s.Doomed n d) :
    ∀ h ∈ (l.foldl State.reap s).groups, h.id ≠ n := by
  induction l generalizing s with
  | nil => cases hl
  | cons m l ih =>
    rw [List.foldl_cons]
    rcases List.mem_cons.mp hl with rfl | hl
    · exact (State.Fewer.foldl State.fewer_reap l _).absent (State.ne_of_mem_reap fun g hg hid => (hend g hg hid).2)
    · exact ih hl (hend.mono (s.fewer_reap m))

/-! ### Grids that stay -/

/-- A grid that stays where groups end: it may complete, and nothing of it waits to start again (R133, R141). -/
structure Grid.Stays (d e : Grid) : Prop where
  id : e.id = d.id
  status : e.status = d.status
  waiting : d.waiting = 0 → e.waiting = 0
  completed : d.completed = true → e.completed = true

theorem Grid.Stays.refl (d : Grid) : d.Stays d := ⟨rfl, rfl, fun h => h, fun h => h⟩

theorem Grid.Stays.trans {d e f : Grid} (a : d.Stays e) (b : e.Stays f) : d.Stays f :=
  ⟨b.id.trans a.id, b.status.trans a.status, b.waiting ∘ a.waiting, b.completed ∘ a.completed⟩

/-- Grids may complete, and every one stays. -/
structure State.KeepsGrids (s t : State) : Prop where
  stays : ∀ n d, s.grid? n = some d → ∃ e, t.grid? n = some e ∧ d.Stays e

theorem State.KeepsGrids.of_eq {s t : State} (h : t.grids = s.grids) : s.KeepsGrids t :=
  ⟨fun n d hd => ⟨d, (congrArg (List.find? _) h : t.grid? n = s.grid? n).trans hd, .refl d⟩⟩

theorem State.KeepsGrids.refl (s : State) : s.KeepsGrids s := .of_eq rfl

theorem State.KeepsGrids.trans {s t u : State} (a : s.KeepsGrids t) (b : t.KeepsGrids u) : s.KeepsGrids u := by
  refine ⟨fun n d hd => ?_⟩
  obtain ⟨e, he, hstays⟩ := a.stays n d hd
  obtain ⟨f, hf, hstays'⟩ := b.stays n e he
  exact ⟨f, hf, hstays.trans hstays'⟩

theorem State.KeepsGrids.foldl {α : Type} {f : State → α → State} (hf : ∀ s a, State.KeepsGrids s (f s a)) (l : List α)
    (s : State) : s.KeepsGrids (l.foldl f s) :=
  l.foldlRecOn f (.refl s) fun t ht a _ => ht.trans (hf t a)

theorem State.grid?_id {s : State} {n : Nat} {d : Grid} (h : s.grid? n = some d) : d.id = n := by
  simpa using List.find?_some h

theorem State.grid?_setGrid (s : State) (e : Grid) (n : Nat) :
    (s.setGrid e).grid? n = (s.grid? n).map (fun d => if n = e.id then e else d) := by
  unfold State.grid? State.setGrid
  dsimp only
  induction s.grids with
  | nil => rfl
  | cons d l ih =>
    rw [List.map_cons, List.find?_cons, List.find?_cons]
    by_cases hd : d.id = n
    · subst hd
      by_cases he : d.id = e.id <;> simp [he]
    · by_cases he : d.id = e.id
      · have hne : e.id ≠ n := he ▸ hd
        simp [he, hne, ih]
      · simp [he, hd, ih]

theorem State.keepsGrids_dropSheaves (s : State) : s.KeepsGrids s.dropSheaves := by
  unfold State.dropSheaves
  extract_lets live gone
  split
  · exact .refl s
  · exact .of_eq rfl

theorem State.keepsGrids_closeTeam (s : State) (n : Nat) : s.KeepsGrids (s.closeTeam n) := by
  unfold State.closeTeam
  split
  · exact .refl s
  · extract_lets alive waits s1 gone ids busy
    split
    · exact .refl s
    · split <;> exact .of_eq rfl

/-- A grid replaced by one that stays. -/
theorem State.keepsGrids_setGrid {s : State} {n : Nat} {d e : Grid} (hd : s.grid? n = some d) (he : d.Stays e) :
    s.KeepsGrids (s.setGrid e) := by
  refine ⟨fun m f hf => ?_⟩
  rw [State.grid?_setGrid, hf]
  refine ⟨_, rfl, ?_⟩
  split
  · next hm =>
    obtain rfl : m = n := (hm.trans he.id).trans (State.grid?_id hd)
    obtain rfl := Option.some.inj (hf.symm.trans hd)
    exact he
  · exact .refl f

theorem State.keepsGrids_closeGrid (s : State) (n : Nat) : s.KeepsGrids (s.closeGrid n) := by
  unfold State.closeGrid
  split
  · exact .refl s
  · next d hd =>
    extract_lets s1 busy s2
    have h1 : s.KeepsGrids s1 := State.keepsGrids_setGrid hd ⟨rfl, rfl, fun _ => rfl, fun _ => rfl⟩
    have h2 : s1.KeepsGrids s2 := .of_eq rfl
    split
    · exact (h1.trans h2).trans s2.keepsGrids_dropSheaves
    · exact .refl s

theorem State.keepsGrids_reap (s : State) (n : Nat) : s.KeepsGrids (s.reap n) := by
  unfold State.reap
  split
  · exact .refl s
  · extract_lets s1
    split
    · exact .refl s
    · have h1 : s.KeepsGrids s1 := .of_eq rfl
      exact ((h1.trans s1.keepsGrids_dropSheaves).trans (State.keepsGrids_closeTeam ..)).trans (State.keepsGrids_closeGrid ..)

/-- A grid that has ended is marked complete, and its sheaf is dropped (R141, R151). -/
theorem State.closeGrid_of_ended {s : State} {n : Nat} {d : Grid} (hd : s.grid? n = some d) (hdone : d.completed = false)
    (hended : s.gridEnded d = true) : ∃ u : State,
      u.grids = (s.setGrid { d with completed := true, waiting := 0, prologue := false }).grids ∧
      s.closeGrid n = u.dropSheaves := by
  unfold State.closeGrid
  rw [hd]
  dsimp only
  rw [if_pos (by rw [hdone, hended]; rfl)]
  refine ⟨_, ?_, rfl⟩
  rfl

/-- A grid of which nothing waits to start and no group is left completes (R133). -/
theorem State.completed_closeGrid {s : State} {n : Nat} {d : Grid} (hd : s.grid? n = some d) (hwaiting : d.waiting = 0)
    (hnone : ∀ g ∈ s.groups, g.grid ≠ n) : ∃ e, (s.closeGrid n).grid? n = some e ∧ e.completed = true := by
  have hid : d.id = n := State.grid?_id hd
  cases hdone : d.completed with
  | true =>
    obtain ⟨e, he, hstays⟩ := (s.keepsGrids_closeGrid n).stays n d hd
    exact ⟨e, he, hstays.completed hdone⟩
  | false =>
    have hended : s.gridEnded d = true := by
      unfold State.gridEnded
      rw [hid, decide_eq_true hwaiting, Bool.true_or, Bool.true_and, Bool.not_eq_true']
      exact List.any_eq_false.mpr fun g hg => by simpa using hnone g hg
    obtain ⟨u, hgrids, hclose⟩ := State.closeGrid_of_ended hd hdone hended
    have hset : u.grid? n = some { d with completed := true, waiting := 0, prologue := false } := by
      have hfind := s.grid?_setGrid { d with completed := true, waiting := 0, prologue := false } n
      rw [hd, Option.map_some, if_pos hid.symm] at hfind
      exact (congrArg (List.find? _) hgrids).trans hfind
    obtain ⟨e, he, hstays⟩ := u.keepsGrids_dropSheaves.stays n _ hset
    exact ⟨e, hclose ▸ he, hstays.completed rfl⟩

/-! ### The end of a grid (R307, R316, R334) -/

/-- The device as a grid ends, with its groups still to be reaped. -/
def State.killGrid (s : State) (d : Grid) (gid status : Nat) : State :=
  let s : State := s.setGrid { d with status := status, waiting := 0, prologue := false }
  { s with
    cores := s.cores.map (fun k => { k with deque := k.deque.filter (fun r => r.grid ≠ gid) })
    placements := s.placements.filter (fun r => r.grid ≠ gid)
    contexts := s.contexts.map (fun c => { c with overflow := c.overflow.filter (fun r => r.grid ≠ gid) })
    groups := s.groups.map (fun g => if g.grid = gid then g.kill else g) }

/-- The numbers of a grid's groups. -/
def State.groupsOf (s : State) (gid : Nat) : List Nat := (s.groups.filter (fun g => g.grid = gid)).map (fun g => g.id)

theorem State.endGrid_of_some {s : State} {gid : Nat} {d : Grid} (hd : s.grid? gid = some d) (status : Nat) :
    s.endGrid gid status = (((s.killGrid d gid status).groupsOf gid).foldl State.reap (s.killGrid d gid status)).closeGrid gid := by
  unfold State.endGrid
  rw [hd]
  rfl

theorem State.fewer_killGrid (s : State) (d : Grid) (gid status : Nat) : s.Fewer (s.killGrid d gid status) := by
  refine .of_map (f := fun g => if g.grid = gid then g.kill else g) (fun g => ?_) rfl
  split
  · exact g.stays_kill
  · exact .refl g

theorem State.fewer_endGrid (s : State) (gid status : Nat) : s.Fewer (s.endGrid gid status) := by
  cases hd : s.grid? gid with
  | none =>
    unfold State.endGrid
    rw [hd]
    exact .refl s
  | some d =>
    rw [State.endGrid_of_some hd]
    exact ((s.fewer_killGrid d gid status).trans (.foldl State.fewer_reap ..)).trans (State.fewer_closeGrid ..)

/-- A group that had ended is gone with its grid. -/
theorem State.ne_of_mem_endGrid {s : State} {gid n : Nat} (hsome : (s.grid? gid).isSome) (status : Nat)
    (hend : s.Doomed n gid) : ∀ h ∈ (s.endGrid gid status).groups, h.id ≠ n := by
  obtain ⟨d, hd⟩ := Option.isSome_iff_exists.mp hsome
  have hkill := s.fewer_killGrid d gid status
  have hdoomed := hend.mono hkill
  rw [State.endGrid_of_some hd]
  intro h hh hid
  obtain ⟨x, hx, hstays⟩ := (State.fewer_closeGrid _ gid).stays h hh
  obtain ⟨g, hg, hstays'⟩ := (State.Fewer.foldl State.fewer_reap _ _).stays x hx
  have hgid : g.id = n := hstays'.id.symm.trans (hstays.id.symm.trans hid)
  have hmem : n ∈ (s.killGrid d gid status).groupsOf gid :=
    List.mem_map.mpr ⟨g, List.mem_filter.mpr ⟨hg, decide_eq_true (hdoomed g hg hgid).1⟩, hgid⟩
  exact State.ne_of_mem_reaps _ hmem hdoomed x hx (hstays.id.symm.trans hid)

/-- Another grid stays where a grid ends. -/
theorem State.grid?_endGrid_other {s : State} {gid n : Nat} {d : Grid} (hn : n ≠ gid) (status : Nat)
    (hd : s.grid? n = some d) : ∃ e, (s.endGrid gid status).grid? n = some e ∧ d.Stays e := by
  cases hgid : s.grid? gid with
  | none =>
    unfold State.endGrid
    rw [hgid]
    exact ⟨d, hd, .refl d⟩
  | some f =>
    have hkill : (s.killGrid f gid status).grid? n = some d := by
      have hset := s.grid?_setGrid { f with status := status, waiting := 0, prologue := false } n
      rw [hd, Option.map_some, if_neg (show n ≠ f.id from State.grid?_id hgid ▸ hn)] at hset
      exact hset
    rw [State.endGrid_of_some hgid]
    exact (State.KeepsGrids.trans (.foldl State.keepsGrids_reap ..) (State.keepsGrids_closeGrid _ gid)).stays n d hkill

/-- Every group of a grid has ended, and no group of another has the number of one of them. -/
def State.AllDoomed (s : State) (gid : Nat) : Prop := ∀ g ∈ s.groups, g.grid = gid → s.Doomed g.id gid

theorem State.AllDoomed.mono {s t : State} {gid : Nat} (h : s.AllDoomed gid) (hfewer : s.Fewer t) : t.AllDoomed gid := by
  intro x hx hgrid
  obtain ⟨g, hg, hstays⟩ := hfewer.stays x hx
  rw [hstays.id]
  exact (h g hg (hstays.grid.symm.trans hgrid)).mono hfewer

/-- A grid that ends has its status, and nothing of it waits to start; where its groups had all ended, it completes. -/
theorem State.grid?_endGrid_self {s : State} {gid : Nat} (hsome : (s.grid? gid).isSome) (status : Nat) :
    ∃ e, (s.endGrid gid status).grid? gid = some e ∧ e.status = status ∧ e.waiting = 0 ∧
      (s.AllDoomed gid → e.completed = true) := by
  obtain ⟨d, hd⟩ := Option.isSome_iff_exists.mp hsome
  have hkill : (s.killGrid d gid status).grid? gid = some { d with status := status, waiting := 0, prologue := false } := by
    have hset := s.grid?_setGrid { d with status := status, waiting := 0, prologue := false } gid
    rw [hd, Option.map_some, if_pos (State.grid?_id hd).symm] at hset
    exact hset
  have hfewer := s.fewer_killGrid d gid status
  rw [State.endGrid_of_some hd]
  obtain ⟨f, hf, hstays⟩ :=
    (State.KeepsGrids.foldl State.keepsGrids_reap ((s.killGrid d gid status).groupsOf gid) _).stays gid _ hkill
  have hwaiting : f.waiting = 0 := hstays.waiting rfl
  obtain ⟨e, he, hstays'⟩ := (State.keepsGrids_closeGrid _ gid).stays gid f hf
  refine ⟨e, he, hstays'.status.trans hstays.status, hstays'.waiting hwaiting, fun hall => ?_⟩
  have hnone : ∀ g ∈ (((s.killGrid d gid status).groupsOf gid).foldl State.reap (s.killGrid d gid status)).groups,
      g.grid ≠ gid := by
    intro x hx hgrid
    obtain ⟨g, hg, hleft⟩ := (State.Fewer.foldl State.fewer_reap _ _).stays x hx
    have hgrid' : g.grid = gid := hleft.grid.symm.trans hgrid
    have hmem : g.id ∈ (s.killGrid d gid status).groupsOf gid :=
      List.mem_map.mpr ⟨g, List.mem_filter.mpr ⟨hg, decide_eq_true hgrid'⟩, rfl⟩
    exact State.ne_of_mem_reaps _ hmem (hall.mono hfewer g hg hgrid') x hx hleft.id
  obtain ⟨e', he', hdone⟩ := State.completed_closeGrid hf hwaiting hnone
  obtain rfl := Option.some.inj (he.symm.trans he')
  exact hdone

/-! ### Several grids that end -/

theorem State.fewer_endGrids (s : State) (l : List Nat) (status : Nat) :
    s.Fewer (l.foldl (fun (s : State) d => s.endGrid d status) s) :=
  .foldl (f := fun (s : State) d => s.endGrid d status) (fun s d => s.fewer_endGrid d status) l s

theorem State.isSome_grid?_endGrid {s : State} {n : Nat} (hsome : (s.grid? n).isSome) (gid status : Nat) :
    ((s.endGrid gid status).grid? n).isSome := by
  by_cases hn : n = gid
  · subst hn
    obtain ⟨e, he, -⟩ := State.grid?_endGrid_self hsome status
    exact Option.isSome_of_eq_some he
  · obtain ⟨d, hd⟩ := Option.isSome_iff_exists.mp hsome
    obtain ⟨e, he, -⟩ := State.grid?_endGrid_other hn status hd
    exact Option.isSome_of_eq_some he

/-- A group that had ended is gone with its grid, one of those that end. -/
theorem State.ne_of_mem_endGrids {n gid status : Nat} (l : List Nat) (hl : gid ∈ l) {s : State}
    (hsome : (s.grid? gid).isSome) (hend : s.Doomed n gid) :
    ∀ h ∈ (l.foldl (fun (s : State) d => s.endGrid d status) s).groups, h.id ≠ n := by
  induction l generalizing s with
  | nil => cases hl
  | cons d l ih =>
    rw [List.foldl_cons]
    rcases List.mem_cons.mp hl with rfl | hl
    · exact (State.fewer_endGrids _ l status).absent (State.ne_of_mem_endGrid hsome status hend)
    · exact ih hl (State.isSome_grid?_endGrid hsome d status) (hend.mono (s.fewer_endGrid d status))

/-- A grid has ended with a status; under a condition it has completed. -/
def State.EndedWith (s : State) (gid status : Nat) (done : Prop) : Prop :=
  ∃ e, s.grid? gid = some e ∧ e.status = status ∧ e.waiting = 0 ∧ (done → e.completed = true)

/-- A grid that has ended stays so where another ends, or it itself once more. -/
theorem State.EndedWith.endGrid {s : State} {gid status : Nat} {done : Prop} (h : s.EndedWith gid status done)
    (hall : done → s.AllDoomed gid) (d : Nat) : (s.endGrid d status).EndedWith gid status done := by
  obtain ⟨e, he, hstatus, hwaiting, hdone⟩ := h
  by_cases hd : gid = d
  · subst hd
    obtain ⟨f, hf, hstatus, hwaiting, hdone⟩ := State.grid?_endGrid_self (Option.isSome_of_eq_some he) status
    exact ⟨f, hf, hstatus, hwaiting, fun c => hdone (hall c)⟩
  · obtain ⟨f, hf, hstays⟩ := State.grid?_endGrid_other hd status he
    exact ⟨f, hf, hstays.status.trans hstatus, hstays.waiting hwaiting, fun c => hstays.completed (hdone c)⟩

theorem State.EndedWith.endGrids {gid status : Nat} {done : Prop} (l : List Nat) {s : State}
    (h : s.EndedWith gid status done) (hall : done → s.AllDoomed gid) :
    (l.foldl (fun (s : State) d => s.endGrid d status) s).EndedWith gid status done := by
  induction l generalizing s with
  | nil => exact h
  | cons d l ih => exact ih (h.endGrid hall d) fun c => (hall c).mono (s.fewer_endGrid d status)

/-- Each of several grids that end has ended. -/
theorem State.endedWith_endGrids {gid status : Nat} {done : Prop} (l : List Nat) (hl : gid ∈ l) {s : State}
    (hsome : (s.grid? gid).isSome) (hall : done → s.AllDoomed gid) :
    (l.foldl (fun (s : State) d => s.endGrid d status) s).EndedWith gid status done := by
  induction l generalizing s with
  | nil => cases hl
  | cons d l ih =>
    rw [List.foldl_cons]
    have hall' : done → (s.endGrid d status).AllDoomed gid := fun c => (hall c).mono (s.fewer_endGrid d status)
    rcases List.mem_cons.mp hl with rfl | hl
    · obtain ⟨e, he, hstatus, hwaiting, hdone⟩ := State.grid?_endGrid_self hsome status
      exact State.EndedWith.endGrids l ⟨e, he, hstatus, hwaiting, fun c => hdone (hall c)⟩ hall'
    · exact ih hl (State.isSome_grid?_endGrid hsome d status) hall'

end Sys2Proof.Machine
end
section
/-! Links, spare channels and cores, lost cores and uncorrectable errors (O52). -/
namespace Sys2Proof.Machine

/-! ### Links and channels (R322, R323, R336) -/

/-- A link retrains for a failed lane (R323). -/
theorem exec_linkRetrain_of_failed (s : State) (link dir : Nat) : exec (.linkRetrain link dir true) s =
    .next (s.setLink link { (nth s.links link {}).failLane dir with retraining := true, retries := 0 }) := rfl

/-- Without a failed lane it retrains after more than 8 flits sent again (R323). -/
theorem exec_linkRetrain_of_retries (s : State) (link dir : Nat) : exec (.linkRetrain link dir false) s =
    if 8 < (nth s.links link {}).retries then
      .next (s.setLink link { nth s.links link {} with retraining := true, retries := 0 }) else .next s := rfl

/-- A failed channel takes a spare of its stack, and is copied (R336). -/
theorem exec_channelSpare_of_spare {s : State} {stack channel : Nat} (hstack : stack < 8) (hchannel : channel < 128)
    (hspare : nth s.health.chspare stack 0 < 8) (hfree : s.channelCopies.contains (stack, channel) = false) :
    exec (.channelSpare stack channel) s = .next { s with
      channelCopies := s.channelCopies ++ [(stack, channel)]
      health := { s.health with chspare := setNth s.health.chspare stack (nth s.health.chspare stack 0 + 1) } } :=
  if_pos ⟨hstack, hchannel, hspare, by rw [hfree]; rfl⟩

/-! ### A core replaced (R333, R335) -/

theorem State.dieAt_setDie (s : State) (n k : Nat) (d : Die) :
    (s.setDie n d).dieAt k = if k = n ∧ n < s.dies.length then d else s.dieAt k := nth_setNth ..

theorem State.SameSpares.dieAt {s t : State} (h : s.SameSpares t) (die : Nat) : t.dieAt die = s.dieAt die :=
  congrArg (fun l : List Die => nth l die {}) h.dies

/-- A core that is there takes a spare of its die, where one is left. -/
theorem State.replaceCore_of_spare {s : State} {core : Nat} (hspare : (s.dieAt (core / 64)).sparesUsed < 4)
    (hcore : core < s.cores.length) (hdie : core / 64 < s.dies.length) :
    ((s.replaceCore core).coreAt core).remapped = true ∧
      ((s.replaceCore core).coreAt core).absent = (s.coreAt core).absent ∧
      ((s.replaceCore core).dieAt (core / 64)).sparesUsed = (s.dieAt (core / 64)).sparesUsed + 1 ∧
      (s.replaceCore core).mem = s.mem ∧ (s.replaceCore core).teams = s.teams := by
  unfold State.replaceCore
  extract_lets die d k k' u lost u'
  rw [if_pos hspare]
  have hcoreAt : u.coreAt core = { k' with remapped := true } := (nth_setNth ..).trans (if_pos ⟨rfl, hcore⟩)
  have hdieAt : u.dieAt die = { d with sparesUsed := d.sparesUsed + 1 } := (nth_setNth ..).trans (if_pos ⟨rfl, hdie⟩)
  exact ⟨(congrArg Core.remapped hcoreAt :), (congrArg Core.absent hcoreAt :), (congrArg Die.sparesUsed hdieAt :), rfl, rfl⟩

/-- With no spare left it is absent, and counted among the lost cores of its die (R335, R337). -/
theorem State.replaceCore_of_noSpare {s : State} {core : Nat} (hspare : (s.dieAt (core / 64)).sparesUsed = 4)
    (hcore : core < s.cores.length) (hdie : core / 64 < s.health.coresLost.length) :
    ((s.replaceCore core).coreAt core).absent = true ∧ ((s.replaceCore core).dieAt (core / 64)).sparesUsed = 4 ∧
      nth (s.replaceCore core).health.coresLost (core / 64) 0 = nth s.health.coresLost (core / 64) 0 + 1 := by
  unfold State.replaceCore
  extract_lets die d k k' u lost u'
  rw [if_neg (by rw [hspare]; decide)]
  have hsame := State.sameSpares_rehome
    { u' with health := { u'.health with coresLost := setNth u'.health.coresLost die (nth u'.health.coresLost die 0 + 1) } } core
  have hcoreAt : u'.coreAt core = { k' with absent := true } := (nth_setNth ..).trans (if_pos ⟨rfl, hcore⟩)
  refine ⟨(hsame.absent core).trans (congrArg Core.absent hcoreAt :), ?_, ?_⟩
  · rw [hsame.dieAt]
    exact hspare
  · rw [hsame.health]
    exact (nth_setNth ..).trans (if_pos ⟨rfl, hdie⟩)

/-- Groups and grids stay where a core's records are given to others. -/
theorem State.rehome_units (s : State) (core : Nat) :
    (s.rehome core).groups = s.groups ∧ (s.rehome core).grids = s.grids := by
  have hpush : ∀ (u : State) (core ctx : Nat) (r : DequeRecord),
      (u.pushRecord core ctx r).groups = u.groups ∧ (u.pushRecord core ctx r).grids = u.grids := by
    intro u core ctx r
    unfold State.pushRecord
    extract_lets k tail u'
    split
    · exact ⟨rfl, rfl⟩
    · split
      · exact ⟨rfl, rfl⟩
      · split <;> exact ⟨rfl, rfl⟩
  unfold State.rehome
  extract_lets l k u
  refine List.foldlRecOn (motive := fun v : State => v.groups = s.groups ∧ v.grids = s.grids) _ _ ⟨rfl, rfl⟩ fun v hv r _ => ?_
  split
  · exact hv
  · next d _ =>
    obtain ⟨hgroups, hgrids⟩ := hpush v.nextFree (v.chosenCore d.lpb.opclass
      (if d.draw then (upto 64).map (fun i => 64 * (core / 64) + i) else upto 256)) d.ctx r
    exact ⟨hgroups.trans hv.1, hgrids.trans hv.2⟩

theorem State.replaceCore_units (s : State) (core : Nat) :
    (s.replaceCore core).groups = s.groups ∧ (s.replaceCore core).grids = s.grids := by
  unfold State.replaceCore
  extract_lets die d k k' u lost u'
  split
  · exact ⟨rfl, rfl⟩
  · exact State.rehome_units ..

/-! ### A core that takes a spare (R333) -/

/-- The teams of a core saved; they keep their places where a spare is left. -/
def State.saveTeamsOn (s : State) (core : Nat) : State :=
  let mine := s.teamsOn core
  let spare := decide ((s.dieAt (core / 64)).sparesUsed < 4)
  let u := mine.foldl State.saveTeam s
  { u with teams := u.teams.map (fun t => if mine.contains t.id then { t with keeps := spare } else t) }

theorem exec_coreSpare {s : State} {core : Nat} (hcore : core < 256) (hthere : (s.coreAt core).absent = false) :
    exec (.coreSpare core) s = .next ((s.saveTeamsOn core).replaceCore core) :=
  if_pos ⟨hcore, by rw [hthere]; rfl⟩

theorem State.sameSpares_saveTeamsOn (s : State) (core : Nat) : s.SameSpares (s.saveTeamsOn core) :=
  (s.sameSpares_saveTeams (s.teamsOn core)).trans (.of_cores rfl rfl rfl)

/-- Teams saved while nothing is on its way: memory is as it was, and every team is saved, or is one that was there and is none of
them (R314). -/
structure State.SavedQuietly (s t : State) (l : List Nat) : Prop where
  quiet : t.quiet = true
  mem : t.mem = s.mem
  teams : ∀ tm ∈ t.teams, tm.preempted = true ∨ (tm ∈ s.teams ∧ tm.id ∉ l)

theorem State.savedQuietly_saveTeam {s : State} (h : s.quiet = true) (n : Nat) : s.SavedQuietly (s.saveTeam n) [n] := by
  cases htm : s.team? n with
  | none =>
    have hsame : s.saveTeam n = s := by
      unfold State.saveTeam
      rw [land_all_of_quiet h]
      simp only [htm]
    rw [hsame]
    refine ⟨h, rfl, fun tm hmem => .inr ⟨hmem, fun hid => ?_⟩⟩
    exact List.find?_eq_none.mp htm tm hmem (decide_eq_true (List.mem_singleton.mp hid))
  | some tm =>
    obtain rfl : tm.id = n := State.team?_id htm
    obtain ⟨image, hsave⟩ := State.saveTeam_of_quiet htm h
    rw [hsave]
    refine ⟨?_, rfl, fun x hx => ?_⟩
    · simp only [State.quiet, Bool.and_eq_true, List.all_eq_true, List.mem_map] at h ⊢
      refine ⟨?_, h.2⟩
      rintro x ⟨g, hg, rfl⟩
      have hpend := h.1 g hg
      split <;> exact hpend
    · obtain ⟨y, hy, rfl⟩ := List.mem_map.mp hx
      split
      · exact .inl rfl
      · next hid => exact .inr ⟨hy, fun hmem => hid (List.mem_singleton.mp hmem)⟩

theorem State.savedQuietly_saveTeams (l : List Nat) {s : State} (h : s.quiet = true) :
    s.SavedQuietly (l.foldl State.saveTeam s) l := by
  induction l generalizing s with
  | nil => exact ⟨h, rfl, fun tm htm => .inr ⟨htm, List.not_mem_nil⟩⟩
  | cons n l ih =>
    have hone := State.savedQuietly_saveTeam h n
    have hrest := ih hone.quiet
    refine ⟨hrest.quiet, hrest.mem.trans hone.mem, fun tm htm => ?_⟩
    rcases hrest.teams tm htm with hsaved | ⟨hmem, hl⟩
    · exact .inl hsaved
    · refine (hone.teams tm hmem).imp_right fun ⟨hin, hn⟩ => ⟨hin, fun hid => ?_⟩
      rcases List.mem_cons.mp hid with hid | hid
      · exact hn (List.mem_singleton.mpr hid)
      · exact hl hid

/-- The teams of a core are saved where nothing is on its way, and memory is as it was. -/
theorem State.saveTeamsOn_of_quiet {s : State} (h : s.quiet = true) (core : Nat) :
    (s.saveTeamsOn core).mem = s.mem ∧
      ∀ tm ∈ (s.saveTeamsOn core).teams, tm.core = core → tm.ended = false → tm.preempted = true := by
  have hsaved := State.savedQuietly_saveTeams (s.teamsOn core) h
  refine ⟨hsaved.mem, fun x hx hcore hend => ?_⟩
  obtain ⟨tm, htm, hxtm⟩ := List.mem_map.mp hx
  have hsame : x.core = tm.core ∧ x.ended = tm.ended ∧ x.preempted = tm.preempted := by
    rw [← hxtm]
    split <;> exact ⟨rfl, rfl, rfl⟩
  obtain ⟨hcore', hend', hpre⟩ := hsame
  rw [hpre]
  rcases hsaved.teams tm htm with hdone | ⟨hmem, hnot⟩
  · exact hdone
  · by_contra hfree
    refine hnot (List.mem_map.mpr ⟨tm, List.mem_filter.mpr ⟨hmem, ?_⟩, rfl⟩)
    rw [decide_eq_true (hcore'.symm.trans hcore), ← hend', hend, Bool.eq_false_of_not_eq_true hfree]
    rfl

/-! ### A core that is lost (R334) -/

/-- A group is resident on a core. -/
def Group.isOn (g : Group) (core : Nat) : Bool := g.core = core && g.resident

/-- The grids that a lost core ends: those of its groups and of its teams. -/
def State.gridsOn (s : State) (core : Nat) : List Nat :=
  distinct ((s.groups.filter (fun g => g.isOn core)).map Group.grid ++
    (s.teams.filter (fun t => t.core = core && !t.preempted && !t.ended)).map Team.grid)

/-- The groups of a lost core as they end: nothing of them is in flight. -/
def State.killOn (s : State) (core : Nat) : State :=
  { s with groups := s.groups.map (fun g => if g.isOn core then { g.kill with pend := [] } else g) }

/-- Neither a copy request nor a store of the core is left. -/
def State.dropEngine (s : State) (core : Nat) : State :=
  let u := (s.coreAt core).copies.foldl (fun (s : State) r => s.dropCopyReq core r) s
  u.setCore core { u.coreAt core with buffer := [] }

/-- A lost core before it is replaced: its groups end, and their grids with status 3. -/
def State.loseCore (s : State) (core : Nat) : State :=
  (s.gridsOn core).foldl (fun (s : State) d => s.endGrid d 3) ((s.killOn core).dropEngine core)

theorem exec_coreLost {s : State} {core : Nat} (hcore : core < 256) (hthere : (s.coreAt core).absent = false) :
    exec (.coreLost core) s = .next ((s.loseCore core).replaceCore core) :=
  if_pos ⟨hcore, by rw [hthere]; rfl⟩

/-- Requests dropped leave groups and grids alone. -/
theorem State.dropEngine_units (s : State) (core : Nat) :
    (s.dropEngine core).groups = s.groups ∧ s.KeepsGrids (s.dropEngine core) := by
  have hdrop : ∀ u : State, ∀ r, (u.dropCopyReq core r).groups = u.groups ∧ u.KeepsGrids (u.dropCopyReq core r) := by
    intro u r
    have hcore : u.KeepsGrids (u.setCore core { u.coreAt core with
      copies := (u.coreAt core).copies.filter (fun q => q.id ≠ r.id) }) := .of_eq rfl
    exact ⟨State.closeTeam_groups .., hcore.trans (State.keepsGrids_closeTeam _ r.team)⟩
  unfold State.dropEngine
  extract_lets u
  have hu : u.groups = s.groups ∧ s.KeepsGrids u := by
    refine List.foldlRecOn (motive := fun v : State => v.groups = s.groups ∧ s.KeepsGrids v) _ _ ⟨rfl, .refl s⟩ fun v hv r _ => ?_
    obtain ⟨hgroups, hgrids⟩ := hdrop v r
    exact ⟨hgroups.trans hv.1, hv.2.trans hgrids⟩
  exact ⟨hu.1, hu.2.trans (.of_eq rfl)⟩

theorem State.sameSpares_loseCore (s : State) (core : Nat) : s.SameSpares (s.loseCore core) := by
  have hkill : s.SameSpares (s.killOn core) := .of_cores rfl rfl rfl
  have hdrop : (s.killOn core).SameSpares ((s.killOn core).dropEngine core) := by
    unfold State.dropEngine
    extract_lets u
    have hu : (s.killOn core).SameSpares u := .foldl (fun s r => s.sameSpares_dropCopyReq core r) ..
    exact hu.trans (u.sameSpares_setCore core rfl)
  exact (hkill.trans hdrop).trans (.foldl (fun s d => s.sameSpares_endGrid d 3) ..)

/-- A group of a lost core has ended, in its grid; its number is its own. -/
theorem State.doomed_killOn {s : State} {core : Nat} (hids : (s.groups.map Group.id).Nodup) {g : Group} (hg : g ∈ s.groups)
    (hon : g.isOn core = true) : (s.killOn core).Doomed g.id g.grid := by
  intro x hx hid
  obtain ⟨y, hy, rfl⟩ := List.mem_map.mp hx
  have hyid : y.id = g.id := by
    rw [← hid]
    split <;> rfl
  obtain rfl : y = g := List.inj_on_of_nodup_map hids hy hg hyid
  rw [if_pos hon]
  exact ⟨rfl, rfl⟩

section
variable {s : State} {core : Nat} (hids : (s.groups.map Group.id).Nodup)
  (hgrids : ∀ g ∈ s.groups, (s.grid? g.grid).isSome = true)
include hids hgrids

/-- No group of a lost core is left on it. -/
theorem State.notOn_of_mem_loseCore {h : Group} (hh : h ∈ (s.loseCore core).groups) (hcore : h.core = core) :
    h.resident = false := by
  obtain ⟨hgroups, hkeeps⟩ := (s.killOn core).dropEngine_units core
  have hfewer : (s.killOn core).Fewer (s.loseCore core) :=
    (State.Fewer.of_eq hgroups).trans (State.fewer_endGrids _ (s.gridsOn core) 3)
  obtain ⟨x, hx, hstays⟩ := hfewer.stays h hh
  obtain ⟨g, hg, hgx⟩ := List.mem_map.mp hx
  have hsame : x.id = g.id ∧ x.core = g.core ∧ x.res = g.res := by
    rw [← hgx]
    split <;> exact ⟨rfl, rfl, rfl⟩
  obtain ⟨hid, hxcore, hres⟩ := hsame
  by_contra hresident
  have hon : g.isOn core = true := by
    have hresident : h.resident = true := Bool.not_eq_false _ ▸ hresident
    unfold Group.isOn
    unfold Group.resident at hresident ⊢
    rw [hstays.res, hres] at hresident
    rw [hresident, decide_eq_true (hxcore.symm.trans (hstays.core.symm.trans hcore))]
    rfl
  have hmem : g.grid ∈ s.gridsOn core :=
    mem_distinct.mpr (List.mem_append_left _ (List.mem_map.mpr ⟨g, List.mem_filter.mpr ⟨hg, hon⟩, rfl⟩))
  obtain ⟨d, hd⟩ := Option.isSome_iff_exists.mp (hgrids g hg)
  obtain ⟨e, he, -⟩ := hkeeps.stays g.grid d hd
  have hdoomed := (State.doomed_killOn hids hg hon).mono (.of_eq hgroups)
  exact State.ne_of_mem_endGrids _ hmem (Option.isSome_of_eq_some he) hdoomed h hh (hstays.id.trans hid)

omit hgrids in
/-- A grid that had a group or a team on a lost core has ended with status 3; one of which every group was there has completed. -/
theorem State.endedWith_loseCore {n : Nat} (hsome : (s.grid? n).isSome) (hmem : n ∈ s.gridsOn core) :
    (s.loseCore core).EndedWith n 3 (∀ g ∈ s.groups, g.grid = n → g.isOn core = true) := by
  obtain ⟨hgroups, hkeeps⟩ := (s.killOn core).dropEngine_units core
  obtain ⟨d, hd⟩ := Option.isSome_iff_exists.mp hsome
  obtain ⟨e, he, -⟩ := hkeeps.stays n d hd
  refine State.endedWith_endGrids _ hmem (Option.isSome_of_eq_some he) fun hall => ?_
  have hkilled : (s.killOn core).AllDoomed n := by
    intro x hx hgrid
    obtain ⟨g, hg, hgx⟩ := List.mem_map.mp hx
    have hsame : x.id = g.id ∧ x.grid = g.grid := by
      rw [← hgx]
      split <;> exact ⟨rfl, rfl⟩
    have hgn : g.grid = n := hsame.2.symm.trans hgrid
    rw [hsame.1, ← hgn]
    exact State.doomed_killOn hids hg (hall g hg hgn)
  exact hkilled.mono (.of_eq hgroups)

end

/-! ### Uncorrectable errors (R172, R346) -/

theorem mem_insertRising (x : Nat) (l : List Nat) : x ∈ insertRising x l := by
  induction l with
  | nil => exact List.mem_singleton_self x
  | cons y l ih =>
    unfold insertRising
    split
    · exact List.mem_cons_self
    · split
      · next h => exact h ▸ List.mem_cons_self
      · exact List.mem_cons_of_mem y ih

/-- The place of an error is poisoned; memory and the sections are as they were. -/
theorem State.poisonPlace_spec (s : State) (place : ErrorPlace) :
    (s.poisonPlace place).mem = s.mem ∧ (s.poisonPlace place).sections = s.sections ∧
      match place with
      | .memory sector => sector ∈ (s.poisonPlace place).poison
      | .scratchWord n off => ∀ tm, (s.poisonPlace place).team? n = some tm → off / 4 ∈ tm.poisonWords
      | .vWord n r lane => ∀ g, (s.poisonPlace place).group? n = some g → (r.val, lane) ∈ g.poisonV := by
  cases place with
  | memory sector => exact ⟨rfl, rfl, mem_insertRising sector s.poison⟩
  | scratchWord n off =>
    cases htm : s.team? n with
    | none =>
      have hplace : s.poisonPlace (.scratchWord n off) = s := by simp only [State.poisonPlace, htm]
      rw [hplace]
      exact ⟨rfl, rfl, fun tm h => absurd (h.symm.trans htm) (Option.some_ne_none tm)⟩
    | some t =>
      obtain rfl : t.id = n := State.team?_id htm
      have hplace : s.poisonPlace (.scratchWord t.id off) =
          s.setTeam { t with poisonWords := insertRising (off / 4) t.poisonWords } := by
        simp only [State.poisonPlace, htm]
      rw [hplace]
      refine ⟨rfl, rfl, fun tm h => ?_⟩
      have hself := State.team?_setTeam_self (s := s) (t := { t with poisonWords := insertRising (off / 4) t.poisonWords })
        (Option.isSome_of_eq_some htm)
      obtain rfl := Option.some.inj (hself.symm.trans h)
      exact mem_insertRising ..
  | vWord n r lane =>
    cases hg : s.group? n with
    | none =>
      have hplace : s.poisonPlace (.vWord n r lane) = s := by simp only [State.poisonPlace, hg]
      rw [hplace]
      exact ⟨rfl, rfl, fun g h => absurd (h.symm.trans hg) (Option.some_ne_none g)⟩
    | some g =>
      obtain rfl : g.id = n := State.group?_id hg
      have hplace : s.poisonPlace (.vWord g.id r lane) =
          s.setGroup { g with poisonV := (r.val, lane) :: g.poisonV.filter (fun e => e ≠ (r.val, lane)) } := by
        simp only [State.poisonPlace, hg]
      rw [hplace]
      refine ⟨rfl, rfl, fun h hh => ?_⟩
      have hself := State.group?_setGroup_self (s := s) (g := { g with
        poisonV := (r.val, lane) :: g.poisonV.filter (fun e => e ≠ (r.val, lane)) }) (Option.isSome_of_eq_some hg)
      obtain rfl := Option.some.inj (hself.symm.trans hh)
      exact List.mem_cons_self

/-- A section that is replaced is read back; the others are as they were. -/
theorem State.sections_setSection (s : State) (sec : Nat) (x : Section) (n : Nat) : nth (s.setSection sec x).sections n {} =
    if n = sec ∧ sec < s.sections.length then x else nth s.sections n {} := nth_setNth ..

/-- Settles O52: links and channels by their equations; a core that is replaced by what its die has left
(`State.replaceCore_of_spare`, `State.replaceCore_of_noSpare`), which neither saves nor ends of grids change; the grids of a lost
core by their ends (`State.notOn_of_mem_loseCore`, `State.endedWith_loseCore`). -/
theorem linksAndSparesKeepTheDeviceRunning : Obligations.LinksAndSparesKeepTheDeviceRunning := by
  unfold Obligations.LinksAndSparesKeepTheDeviceRunning
  refine ⟨?_, fun s => rfl, fun s stack channel hstack hchannel => ⟨exec_channelSpare_of_spare hstack hchannel, rfl⟩, ?_, ?_,
    fun s core habsent => ⟨if_neg fun h => ?_, if_neg fun h => ?_⟩, ?_, ?_, ?_⟩
  · intro s link dir l put
    refine ⟨rfl, fun h => if_pos h, fun h => if_neg h.not_gt, rfl, rfl, rfl⟩
  · intro s core hcore hthere hspare hcores hdies
    have hsame := s.sameSpares_saveTeamsOn core
    obtain ⟨hremapped, habsent, hused, hmem, hteams⟩ := State.replaceCore_of_spare (s := s.saveTeamsOn core) (core := core)
      (by rw [hsame.dieAt]; exact hspare) (by rw [hsame.length]; omega) (by rw [hsame.dies]; omega)
    refine ⟨_, exec_coreSpare hcore hthere, hremapped, ?_, ?_, fun hq => ?_⟩
    · rw [habsent, hsame.absent, hthere]
    · rw [hused, hsame.dieAt]
    · obtain ⟨hmem', hsaved⟩ := State.saveTeamsOn_of_quiet hq core
      exact ⟨hmem.trans hmem', hteams ▸ hsaved⟩
  · intro s core hcore hthere hspare hcores hlost gone
    have hgone : ∀ u, s.SameSpares u → gone (u.replaceCore core) := by
      intro u hsame
      obtain ⟨habsent, hused, hcount⟩ := State.replaceCore_of_noSpare (s := u) (core := core)
        (by rw [hsame.dieAt]; exact hspare) (by rw [hsame.length]; omega) (by rw [hsame.health]; omega)
      exact ⟨habsent, hused, hcount.trans (by rw [hsame.health])⟩
    exact ⟨⟨_, exec_coreSpare hcore hthere, hgone _ (s.sameSpares_saveTeamsOn core)⟩,
      ⟨_, exec_coreLost hcore hthere, hgone _ (s.sameSpares_loseCore core)⟩⟩
  · simp [habsent] at h
  · simp [habsent] at h
  · intro s core hcore hthere hgrids hids
    obtain ⟨hgroups, hkept⟩ := (s.loseCore core).replaceCore_units core
    refine ⟨_, exec_coreLost hcore hthere, fun g hg hon => ?_, fun d hd hhad => ?_⟩
    · exact State.notOn_of_mem_loseCore hids hgrids (hgroups ▸ hg) hon
    · have hmem : d.id ∈ s.gridsOn core := by
        refine mem_distinct.mpr (List.mem_append.mpr (hhad.imp ?_ ?_))
        · rintro ⟨g, hg, hcore, hres, hgrid⟩
          exact List.mem_map.mpr ⟨g, List.mem_filter.mpr ⟨hg, by simp [Group.isOn, hcore, hres]⟩, hgrid⟩
        · rintro ⟨tm, htm, hcore, hpre, hend, hgrid⟩
          exact List.mem_map.mpr ⟨tm, List.mem_filter.mpr ⟨htm, by simp [hcore, hpre, hend]⟩, hgrid⟩
      obtain ⟨e, he, hstatus, hwaiting, hdone⟩ := State.endedWith_loseCore hids (Option.isSome_of_eq_some hd) hmem
      refine ⟨e, (congrArg (List.find? _) hkept).trans he, hstatus, hwaiting, fun hall => hdone fun g hg hgrid => ?_⟩
      obtain ⟨hcore, hres⟩ := hall g hg hgrid
      simp [Group.isOn, hcore, hres]
  · intro s g p u x a hg hp hi hstage hst hended
    refine exec_launchWaitComplete hg hp hi hstage (.inl hst) fun n hn d hd => ?_
    obtain ⟨e, he, hdone, -⟩ := hended n hn
    obtain rfl := Option.some.inj (he.symm.trans hd)
    exact hdone
  · intro s sec place hsec
    obtain ⟨hmem, hsections, hplace⟩ := s.poisonPlace_spec place
    have hself := (s.poisonPlace place).sections_setSection sec ((s.poisonPlace place).sectionAt sec).afterError
    have hsec' : sec < (s.poisonPlace place).sections.length := by rwa [hsections]
    have hat : (s.poisonPlace place).sectionAt sec = nth s.sections sec {} :=
      congrArg (fun l : List Section => nth l sec {}) hsections
    have hat' := (hself sec).trans (if_pos ⟨rfl, hsec'⟩)
    refine ⟨_, rfl, hmem, ?_, ?_, ?_, fun n hn => ?_, ?_⟩
    · exact (congrArg Section.ramping hat' :)
    · exact (congrArg Section.supply hat' :).trans (congrArg (fun x : Section => nominalSupply x.cls) hat)
    · exact (congrArg Section.floor hat' :).trans (congrArg (fun x : Section => min (nominalSupply x.cls) (x.floor + 10)) hat)
    · exact ((hself n).trans (if_neg fun h => hn h.1)).trans (congrArg (fun l : List Section => nth l n {}) hsections)
    · cases place <;> exact hplace

end Sys2Proof.Machine
end

section
/-! Control registers: CSRR (O15), CSRW and MSCALE (O16). -/
namespace Sys2Proof.Machine

/-! ### What CSRR reads (Table 2.4) -/

/-- STATUS as a number (Table 2.5). -/
theorem Issue.statusWord_eq (c : Issue) : c.statusWord =
    BitVec.ofNat 32 ((if c.bank.unmapped then 1 else 0) + (if c.g.ganged then 2 else 0) + 4 * c.g.opclass.toNat) := by
  have hfields : ∀ (unmapped ganged : Bool) (o : BitVec 2),
      ((0 : BitVec 28) ++ o ++ (if ganged then (1 : BitVec 1) else 0) ++ (if unmapped then (1 : BitVec 1) else 0) : Word) =
        BitVec.ofNat 32 ((if unmapped then 1 else 0) + (if ganged then 2 else 0) + 4 * o.toNat) := by decide
  exact hfields c.bank.unmapped c.g.ganged c.g.opclass

/-- FPSTAT as a word (Table 3.4). -/
theorem Bank.fpstatWord_eq (b : Bank) : b.fpstatWord = b.fpstat.zeroExtend 32 := by
  unfold Bank.fpstatWord
  exact BitVec.setWidth_eq_append (by decide) |>.symm

/-- A register is read in its low half. -/
theorem extractLsb'_zeroExtend_word (w : Word) : (w.zeroExtend 64).extractLsb' 0 32 = w := by
  simp [BitVec.extractLsb'_setWidth_of_le]

theorem extractLsb'_zeroExtend_field (x : BitVec 24) : (x.zeroExtend 64).extractLsb' 0 32 = x.zeroExtend 32 := by
  apply BitVec.eq_of_toNat_eq
  simp

theorem extractLsb'_ofNat_word (x : Nat) : (BitVec.ofNat 64 x).extractLsb' 0 32 = BitVec.ofNat 32 x := by
  apply BitVec.eq_of_toNat_eq
  simp

/-- What CSRR writes of a register other than CLOCK (Table 2.4). -/
theorem Issue.csr_low (c : Issue) (n : Nat) :
    let x := c.s.contextOf c.g
    n ≠ 4 → (c.csr n).extractLsb' 0 32 = match n with
      | 0 => BitVec.ofNat 32 ((if c.bank.unmapped then 1 else 0) + (if c.g.ganged then 2 else 0) + 4 * c.g.opclass.toNat)
      | 1 => c.bank.fpstat.zeroExtend 32
      | 2 => c.bank.trapvec
      | 3 => c.bank.trapframe.zeroExtend 32
      | 5 => BitVec.ofNat 32 ((x.map Context.ctxid).getD 0)
      | 6 => (x.map Context.energy).getD 0
      | 7 => (x.map Context.feature).getD 0
      | _ => (x.map Context.miggen).getD 0 := by
  intro x h
  match n with
  | 0 => exact (extractLsb'_zeroExtend_word _).trans c.statusWord_eq
  | 1 => exact (extractLsb'_zeroExtend_word _).trans c.bank.fpstatWord_eq
  | 2 => exact extractLsb'_zeroExtend_word _
  | 3 => exact extractLsb'_zeroExtend_field _
  | 4 => exact absurd rfl h
  | 5 => exact extractLsb'_ofNat_word _
  | 6 => exact extractLsb'_zeroExtend_word _
  | 7 => exact extractLsb'_zeroExtend_word _
  | _ + 8 => exact extractLsb'_zeroExtend_word _

/-! ### A word that ends in another state than it began in -/

/-- A word without sources reads no unmapped name and releases none. -/
theorem Stage1.of_noReads {c c' : Issue} {i ds m val fl pv} (hreads : i.reads c.p.mode = [])
    (d : Stage1 c c' ds m val (fun _ => false) false fl pv) :
    Stage1 c c' ds m val (c.lastReads i ds) (c.readsUnmapped i) fl pv := by
  have hlast : c.lastReads i ds = fun _ => false := by
    funext n
    simp [Issue.lastReads, hreads]
  have hunmapped : c.readsUnmapped i = false := by simp [Issue.readsUnmapped, hreads]
  rw [hlast, hunmapped]
  exact d

/-- A word that goes on from an issue whose group stands in its state: its group, the others, the rest (R18, R112, R113). -/
theorem Stage1.moves {c0 c : Issue} {ds m val rel um fl pv} (d : Stage1 c0 c ds m val rel um fl pv)
    (hrun : c0.p.park = .running) (hgroup : (c0.s.group? c0.g.id).isSome) (howed : c0.g.owed = []) (c1 : Issue) :
    Moves c0.s c0.k (c.g.setSlot c.k (some c.p.advance)) ((Eff.done c).apply c1) := by
  rw [← d.s, ← d.k]
  refine Issue.commit_moves (Group.slot_setSlot_self ..) ?_ ?_ ?_
  · show c.p.park = _
    rw [d.p, hrun]
  · rw [Group.setSlot_id, d.id, d.s, hgroup]
  · rw [Group.setSlot_owed, d.owed, howed]

/-- The state of an issue has no part in what its word writes to the registers. -/
theorem Wrote.of_state {c : Issue} {t : State} {i ds m val fl pv} {G : Group}
    (w : Wrote { c with s := t } i ds m val fl pv G) : Wrote c i ds m val fl pv G where
  vreg := w.vreg
  mapped := w.mapped
  sreg := w.sreg
  tags := w.tags
  pbits := w.pbits
  unmapped := w.unmapped
  fpstat := w.fpstat
  half := w.half
  otherHalf := w.otherHalf
  flying := w.flying
  frame := w.frame

section
variable {s : State} {c : Issue} {cl : ClauseState} {u : Bool} {d : Dst} {n : BitVec 12}

/-- A CSRR of any register but CLOCK writes the register's value (R192). -/
theorem Issuing.csrr_gives (h : Issuing (.csrr u d n) s c cl) (hn : n.toNat ≠ 4) :
    c.Gives (.csrr u d n) s [d] c.p.mask (fun _ _ => (c.csr n.toNat).extractLsb' 0 32) 0 c.pbits := by
  have hn' : ¬ n = 4 := fun e => hn (congrArg BitVec.toNat e)
  have hstage := (Stage1.refl c c.p.mask fun _ _ => (c.csr n.toNat).extractLsb' 0 32).write d
  refine h.gives rfl ?_ (hstage.of_noReads rfl)
  simp only [if_neg hn']

/-- A CSRR of CLOCK lets time pass, and fills a pair with it (R16, R192). -/
theorem Issuing.csrr_clock (h : Issuing (.csrr u d n) s c cl) (hn : n.toNat = 4) :
    ∃ t G, exec (.csrr u d n) s = .next t ∧ Moves s.tick c.k G t ∧
      Wrote c (.csrr u d n) [d, d.next 1] c.p.mask (fun e _ =>
        if e = d then s.tick.clock.extractLsb' 0 32 else s.tick.clock.extractLsb' 32 32) 0 c.pbits G := by
  obtain ⟨hs, -, hgroup, -, hrun, -⟩ := State.issue?_spec h.path
  subst hs
  have hn' : n = 4 := BitVec.eq_of_toNat_eq hn
  let val : Dst → Nat → Word := fun e _ =>
    if e = d then c.s.tick.clock.extractLsb' 0 32 else c.s.tick.clock.extractLsb' 32 32
  let c0 : Issue := { c with s := c.s.tick }
  have hlow : val d = fun _ => c.s.tick.clock.extractLsb' 0 32 := funext fun _ => if_pos rfl
  have hhigh : val (d.next 1) = fun _ => c.s.tick.clock.extractLsb' 32 32 := funext fun _ => if_neg (Dst.next_one_ne d)
  have hexec : exec (.csrr u d n) c.s =
      .next ((Eff.done ((c0.write d c.p.mask (val d)).write (d.next 1) c.p.mask (val (d.next 1)))).apply c) := by
    refine (issue_of_issuing h _).trans ?_
    subst hn'
    rw [hlow, hhigh]
    rfl
  have hstage := ((Stage1.refl c0 c.p.mask val).write d).write (d.next 1)
  exact ⟨_, _, hexec, hstage.moves hrun (Option.isSome_of_eq_some hgroup) h.owed c,
    (Stage1.wrote (hstage.of_noReads rfl)).of_state⟩

end

/-- Settles O15: CLOCK is the one register whose read moves time and fills a pair. -/
theorem csrrReadsTheRegister : Obligations.CsrrReadsTheRegister := by
  intro s c cl u d n h x value
  refine ⟨fun hn => ?_, h.csrr_clock⟩
  have hs := State.issue?_s h.path
  subst hs
  have hvalue : (c.csr n.toNat).extractLsb' 0 32 = value := c.csr_low n.toNat hn
  exact hvalue ▸ h.csrr_gives hn

/-! ### CSRW and MSCALE -/

/-- A word that changes the scalar state of its half and goes on. -/
theorem Issuing.setsBank {i : Instr} {s : State} {c c' : Issue} {cl : ClauseState} {body : Issue → Eff} {ds : List Dst}
    {val : Dst → Nat → Word} {F : Bank → Bank} (h : Issuing i s c cl) (he : exec i s = issue i body s)
    (hb : body c = .done (c'.setBank (F c'.bank)))
    (d : Stage1 c c' ds c.p.mask val (c.lastReads i ds) (c.readsUnmapped i) 0 c.pbits) :
    c.Leaves i s ds val c.p.advance F := by
  refine h.leaves he d (ended := c.p.advance.clause.isNone) h.running rfl ?_
  rw [hb, ← d.k, ← d.p, ← d.half]
  rfl

/-- What CSRW makes of the scalar state of its half (Tables 2.4, 2.5, 3.4, 21.2). -/
theorem Issue.setCsr_eq (c : Issue) (n : Nat) (w : Word) : c.setCsr n w = c.setBank (match n with
    | 0 => { c.bank with unmapped := w.getLsbD 0 }
    | 1 => { c.bank with fpstat := w.extractLsb' 0 6 }
    | 2 => { c.bank with trapvec := w &&& 0xFFFFFFFC }
    | _ => { c.bank with trapframe := w.extractLsb' 0 24 }) := by
  match n with
  | 0 | 1 | 2 | _ + 3 => rfl

/-- Settles O16: both are a change of their half's scalar state, after their reads (`Issuing.setsBank`). -/
theorem csrwAndMscaleWriteTheHalf : Obligations.CsrwAndMscaleWriteTheHalf := by
  intro s c cl u a n q w
  refine ⟨fun h => ?_, fun h => ?_⟩
  · exact h.setsBank rfl (congrArg Eff.done (Issue.setCsr_eq _ _ w)) Stage1.reads
  · exact h.setsBank (F := fun b => { b with q := putNth 0 b.q q.val w }) rfl rfl Stage1.reads

end Sys2Proof.Machine
end

section
/-! Fences, commands to the engines and copy kicks take their place in flight (O29). -/
namespace Sys2Proof.Machine

/-- A word that is not checked at issue flies as it was captured (R19, R303). -/
theorem Issuing.fliesUnchecked {i : Instr} {s : State} {c : Issue} {cl : ClauseState} {body : Issue → Eff} {m : DWord}
    {edit : Issue → Pend → Pend} {q : Pend} (h : Issuing i s c cl) (he : exec i s = issue i body s)
    (hb : body c = .done (c.fly i m edit).1) (hq : (c.fly i m edit).2 = q) (hm : q.lmask = m) :
    c.Flies i s q s.numbered .running := by
  subst hq
  obtain ⟨hs, hrun, -⟩ := h.fly_keeps m edit
  refine h.flies he (edit := edit) (hb.trans ?_) hm rfl rfl (fun _ => Park.noConfusion)
  rw [Issue.fly_setLast, ← hs, ← hrun]

/-- Settles O29: each command flies as it was captured (`Issuing.fliesUnchecked`); MLOOP, MDRAINV and CKICK capture one value
more than `Issue.flown`. -/
theorem commandsTakeTheirPlace : Obligations.CommandsTakeTheirPlace := by
  intro s c cl i h
  cases i with
  | fence | xfence | mloadb | mdrain | mzero | compose | visb | mloop | mdrainv => exact h.fliesUnchecked rfl rfl rfl rfl
  | ckick => exact ⟨fun hm => h.idles rfl (if_pos hm), fun hm => h.fliesUnchecked rfl (if_neg hm) rfl rfl⟩
  | _ => trivial

end Sys2Proof.Machine
end

section
/-! Atomics on memory (O37): the lanes of one sector, one after another, and the values that they found (R179, R180). -/
namespace Sys2Proof.Machine

/-! ### One lane of an atomic -/

/-- The runs of memory that a lane of an instruction accesses. -/
def Pend.laneRuns (p : Pend) (lane : Nat) : List Run :=
  ((p.lanes.find? (fun e => e.lane = lane)).map LaneAccess.runs).getD []

/-- The sector in which a lane's access begins; none when it has no physical address. -/
def Pend.laneSector (p : Pend) (lane : Nat) : Option Nat := ((p.laneRuns lane).head?.bind Run.pa).map sectorOf

/-- The lanes that an atomic performs next: those of the sector of its first lane left (R180). -/
def Pend.atomHere (p : Pend) : List (Nat × Nat) :=
  p.todo.filter (fun e => p.laneSector e.1 = p.todo.head?.bind (fun f => p.laneSector f.1))

/-- An operand of an atomic in a lane: the j-th source, or under .w64 the pair that it begins (R179). -/
def Pend.atomOperand (p : Pend) (g : Group) (w : Bool) (j lane : Nat) : Nat :=
  if w then (p.op g .control j lane).toNat + (p.op g .control (j + 1) lane).toNat * 2 ^ 32
  else (p.op g .control j lane).toNat

/-- CAS has a compare value before its operand; the other operations have none (Table 10.2). -/
theorem Pend.atomArgs_eq (p : Pend) (g : Group) (op : AtomOp) (w : Bool) (lane : Nat) : p.atomArgs g op w lane =
    (if op = .cas then p.atomOperand g w 1 lane else 0,
      if op = .cas then p.atomOperand g w (if w then 3 else 2) lane else p.atomOperand g w 1 lane) := by
  unfold Pend.atomArgs
  by_cases hop : op = .cas
  · rw [if_pos hop, if_pos hop, if_pos hop]
    cases w <;> rfl
  · rw [if_neg hop, if_neg hop, if_neg hop]
    rfl

/-- The value that a lane of an atomic finds. -/
def State.atomFinds (s : State) (p : Pend) (lane : Nat) : Nat := leValue (s.readRuns (p.laneRuns lane))

/-- One lane of an atomic performed in memory: the new value over the one that it finds (R179). -/
def State.atomLane (s : State) (g : Group) (p : Pend) (op : AtomOp) (w : Bool) (lane : Nat) : State :=
  s.writeRuns (p.laneRuns lane) (leBytes (if w then 8 else 4)
    (atomNew op w (s.atomFinds p lane) (p.atomArgs g op w lane).1 (p.atomArgs g op w lane).2))

/-- Some lanes of an atomic performed, one after another (R180). -/
def State.atomLanes (s : State) (g : Group) (p : Pend) (op : AtomOp) (w : Bool) (l : List (Nat × Nat)) : State :=
  l.foldl (fun s e => s.atomLane g p op w e.1) s

/-- Some lanes of an atomic performed, with the value that each found beside those found before. -/
def atomFold (g : Group) (p : Pend) (op : AtomOp) (w : Bool) (l : List (Nat × Nat)) (acc : List (Nat × Nat) × State) :
    List (Nat × Nat) × State :=
  l.foldl (fun acc e => (acc.1 ++ [(e.1, acc.2.atomFinds p e.1)], acc.2.atomLane g p op w e.1)) acc

theorem atomFold_state (g : Group) (p : Pend) (op : AtomOp) (w : Bool) (l : List (Nat × Nat))
    (acc : List (Nat × Nat) × State) : (atomFold g p op w l acc).2 = acc.2.atomLanes g p op w l := by
  induction l generalizing acc with
  | nil => rfl
  | cons e l ih => exact ih _

theorem State.atomLanes_groups (s : State) (g : Group) (p : Pend) (op : AtomOp) (w : Bool) (l : List (Nat × Nat)) :
    (s.atomLanes g p op w l).groups = s.groups := by
  induction l generalizing s with
  | nil => rfl
  | cons e l ih => exact ih _

/-- What an atomic leaves in memory comes from memory alone. -/
theorem State.atomLanes_mem_congr {s t : State} (h : t.mem = s.mem) (g : Group) (p : Pend) (op : AtomOp) (w : Bool)
    (l : List (Nat × Nat)) : (t.atomLanes g p op w l).mem = (s.atomLanes g p op w l).mem := by
  induction l generalizing s t with
  | nil => exact h
  | cons e l ih =>
    refine ih (s := s.atomLane g p op w e.1) (t := t.atomLane g p op w e.1) ?_
    unfold State.atomLane State.atomFinds State.writeRuns
    rw [State.readRuns_congr h, State.writePhys_mem, State.writePhys_mem, h]

/-! ### The lanes of one sector -/

section
variable {s : State} {g : Group} {p : Pend} {op : AtomOp} {w : Bool}

/-- The model's lane by lane performance of an atomic, where every lane has an access. -/
theorem atomFold_eq {l : List (Nat × Nat)}
    (h : ∀ e ∈ l, (p.lanes.find? (fun (y : LaneAccess) => y.lane = e.1)).isSome = true) (acc : List (Nat × Nat) × State) :
    l.foldl (fun (acc : List (Nat × Nat) × State) t =>
      match p.lanes.find? (fun a => a.lane = t.1) with
      | none => acc
      | some a => (acc.1 ++ [(t.1, leValue (acc.2.readRuns a.runs))], acc.2.writeRuns a.runs (leBytes (if w then 8 else 4)
          (atomNew op w (leValue (acc.2.readRuns a.runs)) (p.atomArgs g op w t.1).1 (p.atomArgs g op w t.1).2)))) acc =
      atomFold g p op w l acc := by
  refine List.foldl_ext _ _ _ fun acc e he => ?_
  obtain ⟨y, hy⟩ := Option.isSome_iff_exists.mp (h e he)
  unfold State.atomFinds State.atomLane State.atomFinds Pend.laneRuns
  rw [hy]
  rfl

theorem Pend.laneSector_eq (p : Pend) (lane : Nat) : p.laneSector lane =
    ((p.lanes.find? (fun a => a.lane = lane)).bind (fun a => a.runs.head?.bind Run.pa)).map sectorOf := by
  unfold Pend.laneSector Pend.laneRuns
  cases p.lanes.find? (fun a => decide (a.lane = lane)) <;> rfl

/-- Where nothing is poisoned, an atomic performs its next lanes in memory and returns what they found (R180). -/
theorem State.performAtom_of_clean (hclean : s.poison = [])
    (hfound : ∀ e ∈ p.todo, (p.lanes.find? (fun (y : LaneAccess) => y.lane = e.1)).isSome = true) (part : Nat) :
    ∃ u : State, u.groups = s.groups ∧ u.mem = (s.atomLanes g p op w p.atomHere).mem ∧ s.performAtom g p op w part =
      u.deliver g { p with
        todo := p.todo.filter (fun t => !p.atomHere.contains t)
        due := p.due ++ p.oldValues w (atomFold g p op w p.atomHere ([], s)).1 } part := by
  have hhere : p.todo.filter (fun t => ((p.lanes.find? (fun a => a.lane = t.1)).bind (fun a =>
      a.runs.head?.bind Run.pa)).map sectorOf = p.todo.head?.bind (fun t =>
        ((p.lanes.find? (fun a => a.lane = t.1)).bind (fun a => a.runs.head?.bind Run.pa)).map sectorOf)) = p.atomHere := by
    simp only [← Pend.laneSector_eq]
    rfl
  have hfold := atomFold_eq (g := g) (op := op) (w := w) (fun e he => hfound e (List.mem_of_mem_filter he))
    (l := p.atomHere) ([], s)
  have hkeeps : ∀ (l : List Nat) (t : State), t.SameStore (l.foldl (fun t x => t.refreshSector g.core x) t) :=
    State.SameStore.foldl fun _ _ => ⟨rfl, rfl, rfl⟩
  unfold State.performAtom
  extract_lets n sectorOfLane first here secs
  have hhere' : here = p.atomHere := hhere
  clear_value here
  subst hhere'
  rw [State.poisonedLanes_of_clean hclean]
  refine ⟨secs.foldl (fun t x => t.refreshSector g.core x) (atomFold g p op w p.atomHere ([], s)).2, ?_, ?_, ?_⟩
  · rw [(hkeeps ..).groups, atomFold_state, State.atomLanes_groups]
  · rw [(hkeeps ..).mem, atomFold_state]
  · rw [← hfold]
    rfl

end

/-! ### The values found, in the destination -/

section
variable {g : Group} {p : Pend} {w : Bool} {lane m : Nat}

/-- The lanes that receive what a lane of an atomic found receive just that (R175, R180). -/
theorem Pend.oldValue_of_receives {l : Nat} (hl : l < 64) (h : (p.receives lane).getLsbD l = true) :
    (if p.instr.uniform then m else assoc [(lane, m)] l 0) = m := by
  unfold Pend.receives at h
  split
  · rfl
  · next hu =>
    rw [if_neg hu, maskFrom_bit _ hl] at h
    rw [assoc, if_pos (by simpa [eq_comm] using h)]

/-- What an atomic of one lane returns: at the first place the low word of what it found, and nothing else there. -/
theorem Pend.oldValues_of_lane (h : p.vdst ≠ []) : ∃ rest,
    p.oldValues w [(lane, m)] = (0, p.receives lane, tabulate (fun l =>
      BitVec.ofNat 32 (if p.instr.uniform then m else assoc [(lane, m)] l 0))) :: rest ∧ ∀ x ∈ rest, x.1 = 1 := by
  have hdst : (p.vdst.isEmpty && p.sdst.isEmpty) = false := by simp [h]
  unfold Pend.oldValues
  rw [hdst]
  refine ⟨_, congrArg₂ List.cons (congrArg (Prod.mk 0) (congrArg (Prod.mk · _) (BitVec.zero_or ..))) rfl, fun x hx => ?_⟩
  cases w with
  | false => exact absurd hx (List.not_mem_nil)
  | true => rw [List.mem_singleton.mp hx]

/-- The first destination of an atomic of one lane holds what the lane found, where no later return is to be written. -/
theorem Group.vLane_returned_oldValues {r l : Nat} {live : DWord} (hr : p.vdst[0]? = some (r, live))
    (hmap : g.mapped r = true) (hsecond : ∀ r', p.vdst[1]? = some r' → r'.1 ≠ r) (hl : l < 64)
    (hbit : (live &&& p.receives lane).getLsbD l = true) (hlater : (g.laterLanes p r).getLsbD l = false)
    (shows : Nat → Nat → Bool) :
    (g.returned p (p.oldValues w [(lane, m)]) shows).vLane r l = BitVec.ofNat 32 m := by
  have hbits : live.getLsbD l = true ∧ (p.receives lane).getLsbD l = true := by simpa using hbit
  obtain ⟨rest, hold, hrest⟩ := Pend.oldValues_of_lane (p := p) (w := w) (lane := lane) (m := m)
    (by rintro hnil; simp [hnil] at hr)
  have hfirst : p.putsV g 0 (p.receives lane) r l := ⟨hbits.2, hmap, live, hr, hbits.1⟩
  rw [hold]
  rcases g.vLane_returned p _ shows r l hl with ⟨x, hx, hput, hval | ⟨hlate, -⟩⟩ | ⟨hnone, -⟩
  · rcases List.mem_cons.mp hx with rfl | hx
    · rw [hval, nth_tabulate, if_pos hl, Pend.oldValue_of_receives hl hbits.2]
    · obtain ⟨-, -, live', hdst, -⟩ := hput
      rw [hrest x hx] at hdst
      exact absurd rfl (hsecond _ hdst)
  · exact absurd hlate (by simp [hlater])
  · exact absurd hfirst (hnone _ List.mem_cons_self)

end

/-! ### The two forms of an atomic on memory -/

section
variable {s : State} {g : Group} {p : Pend} {op : AtomOp} {w u : Bool} {x : Fin 8} {a : Src}
  (hg : s.group? g.id = some g) (hp : g.pend? p.id = some p) (hst : p.status = .inFlight)
  (hwait : s.accessWaits g p = false) (hmay : g.mayPerform p = true)
  (hdrained : s.drained g p (p.lanes.map LaneAccess.runs).flatten = true) (hahead : s.readAhead g.core p = false)
include hg hp hst hwait hmay hdrained hahead

/-- An atomic without return is performed by its one event (R179). -/
theorem exec_performed_atom (hi : p.instr = .atomNoreturn u x op w a) : exec (.storePerformed g.id p.id) s =
    .next ((s.chargeAccess g (runSectors p.runs)).performAtom g p op w 0) := by
  have hact : p.active = true := decide_eq_true hst
  simp only [exec, execStorePerformed, hg, hp, sendLoads_of_mayPerform hmay, hact, hmay, hwait, hi, hdrained, hahead,
    Bool.not_true, Bool.not_false, Bool.and_self, Bool.or_false, Bool.false_eq_true, if_false, if_true]

/-- An atomic that returns is performed by its return (R179). -/
theorem exec_return_atom {d : Dst} (hdue : p.due = []) (hi : p.instr = .atom u d x op w a) (sector : Nat) :
    exec (.loadSectorReturn g.id p.id ⟨sector, 0⟩) s =
      .next ((s.chargeAccess g (runSectors p.runs)).performAtom g p op w 0) := by
  have hact : p.active = true := decide_eq_true hst
  simp only [exec, execLoadSectorReturn, hg, hp, sendLoads_of_mayPerform hmay, hdue, hact, hmay, hwait, hi, hdrained, hahead,
    List.isEmpty_nil, Bool.not_true, Bool.not_false, Bool.and_self, Bool.or_false, Bool.false_eq_true, if_false, if_true]

end

/-- An atomic whose turn it is, charged for its sectors: memory after its lanes, and in its group the registers that its values
are written to (R180). -/
theorem State.performAtom_charged {s : State} {g : Group} {p : Pend} (hg : s.group? g.id = some g) (hp : g.pend? p.id = some p)
    (hdue : p.due = []) (hclean : s.poison = [])
    (hfound : ∀ e ∈ p.todo, (p.lanes.find? (fun (y : LaneAccess) => y.lane = e.1)).isSome = true) (op : AtomOp) (w : Bool)
    (secs : List Nat) :
    ((s.chargeAccess g secs).performAtom g p op w 0).mem = (s.atomLanes g p op w p.atomHere).mem ∧
      ∀ h, ((s.chargeAccess g secs).performAtom g p op w 0).group? g.id = some h → ∃ shows, ∀ r l, h.vLane r l =
        (g.returned p (p.oldValues w (atomFold g p op w p.atomHere ([], s.chargeAccess g secs)).1) shows).vLane r l := by
  have hcharge := s.sameStore_chargeAccess g secs
  obtain ⟨v, hgroups, hmem, hperform⟩ := State.performAtom_of_clean (g := g) (op := op) (w := w)
    ((s.cores_chargeAccess g secs).2.trans hclean) hfound 0
  have hsome : (v.group? g.id).isSome := by
    unfold State.group? at hg ⊢
    rw [hgroups, hcharge.groups, hg]
    rfl
  rw [hdue, List.nil_append] at hperform
  obtain ⟨hkept, hregs⟩ := State.deliver_gives (s := v) (p := { p with
    todo := p.todo.filter (fun t => !p.atomHere.contains t)
    due := p.oldValues w (atomFold g p op w p.atomHere ([], s.chargeAccess g secs)).1 }) hsome hp
  rw [hperform]
  exact ⟨hkept.trans (hmem.trans (State.atomLanes_mem_congr hcharge.mem ..)), fun h hh => ⟨v.shows, (hregs h hh).1⟩⟩

/-- Settles O37: both forms perform the lanes of their next sector in order (`State.performAtom_charged`); without a destination
no register changes, and a lane that is alone in its sector finds what its first destination then holds. -/
theorem atomicReadsAndWritesMemory : Obligations.AtomicReadsAndWritesMemory := by
  unfold Obligations.AtomicReadsAndWritesMemory
  intro s g p op w u d x a sector hg hp hst hdue hwait hclean hmay hdrained hahead n runs at_ here val arg new s1 hfound
  have hargs : ∀ lane, p.atomArgs g op w lane = (if op = .cas then val 1 lane else 0, arg lane) := p.atomArgs_eq g op w
  clear_value arg val
  have hnew : ∀ m lane, new m lane = atomNew op w m (p.atomArgs g op w lane).1 (p.atomArgs g op w lane).2 := by
    intro m lane
    rw [hargs]
    cases op <;> rfl
  have hbytes : n / 8 = if w then 8 else 4 := by unfold n; split <;> rfl
  have hs1 : s1 = s.atomLanes g p op w p.atomHere := by
    unfold s1
    simp only [hnew, hbytes]
    rfl
  obtain ⟨hmem, hregs⟩ := State.performAtom_charged hg hp hdue hclean hfound op w (runSectors p.runs)
  rw [← hs1] at hmem
  refine ⟨fun hi => ⟨_, exec_performed_atom hg hp hst hwait hmay hdrained hahead hi, hmem, ?_⟩,
    fun hi => ⟨_, exec_return_atom hg hp hst hwait hmay hdrained hahead hdue hi sector, hmem, ?_⟩⟩
  · intro h hh r l _ hv hs
    obtain ⟨shows, hlanes⟩ := hregs h hh
    rw [hlanes, Pend.oldValues, hv, hs]
    rfl
  · intro h lane r live hh hone hr hmap hsecond l hl hbit hlater
    obtain ⟨shows, hlanes⟩ := hregs h hh
    have hhere : p.atomHere = [(lane, 0)] := hone
    rw [hlanes, hhere]
    refine (Group.vLane_returned_oldValues hr hmap hsecond hl hbit hlater shows).trans ?_
    show BitVec.ofNat 32 (leValue (State.readRuns _ _)) = _
    rw [State.readRuns_congr (s.sameStore_chargeAccess g (runSectors p.runs)).mem]
    rfl

end Sys2Proof.Machine
end

section
/-! The gutter (O43): entries that are performed, and the management cores' writes of its three counts (R199, R200). -/
namespace Sys2Proof.Machine

/-! ### An entry that is performed -/

/-- The oldest pending entry of a core is the first one that names it. -/
theorem find?_pendingOfCore {core id : Nat} {q : QWord} {before rest : List (Nat × Nat × QWord)}
    (hbefore : ∀ e ∈ before, e.2.1 ≠ core) :
    (before ++ (id, core, q) :: rest).find? (fun e => e.2.1 = core) = some (id, core, q) := by
  have hnone : before.find? (fun e => decide (e.2.1 = core)) = none :=
    List.find?_eq_none.mpr fun e he => by simpa using hbefore e he
  rw [List.find?_append, hnone, Option.none_or, List.find?_cons_of_pos (by simp)]

/-- What stands before the oldest entry of a core names other cores, so that the entry goes and nothing else does. -/
theorem erase_pendingOfCore {core id : Nat} {q : QWord} {before rest : List (Nat × Nat × QWord)}
    (hbefore : ∀ e ∈ before, e.2.1 ≠ core) :
    (before ++ (id, core, q) :: rest).erase (id, core, q) = before ++ rest := by
  have hmem : (id, core, q) ∉ before := fun h => hbefore _ h rfl
  rw [List.erase_append_right _ hmem, List.erase_cons_head]

section
variable {s : State} {ctx core : Nat} {c : Context}

theorem exec_gutterEntryPerformed_of_oldest {id : Nat} {q : QWord} {before rest : List (Nat × Nat × QWord)}
    (hc : s.context? ctx = some c) (hpending : c.gutPending = before ++ (id, core, q) :: rest)
    (hbefore : ∀ e ∈ before, e.2.1 ≠ core) (hheld : s.dieHeld (core / 64) = false) :
    exec (.gutterEntryPerformed ⟨ctx, core⟩) s =
      .next ((s.writeBytes (c.gutBase + 16 * (c.guthead.toNat % c.gutSize))
        (leBytes 16 (q ||| BitVec.ofNat 128 (c.guthead.toNat % 65536 * 2 ^ 112)).toNat)).setContext
          { c with gutPending := before ++ rest, guthead := c.guthead + 1 }) := by
  change execGutterEntryPerformed ⟨ctx, core⟩ s = _
  simp only [execGutterEntryPerformed, hc, hpending, find?_pendingOfCore hbefore, erase_pendingOfCore hbefore, hheld,
    Bool.false_eq_true, if_false]

theorem exec_gutterEntryPerformed_of_none (hc : s.context? ctx = some c) (hnone : ∀ e ∈ c.gutPending, e.2.1 ≠ core) :
    exec (.gutterEntryPerformed ⟨ctx, core⟩) s = .next s := by
  have hfind : c.gutPending.find? (fun e => decide (e.2.1 = core)) = none :=
    List.find?_eq_none.mpr fun e he => by simpa using hnone e he
  change execGutterEntryPerformed ⟨ctx, core⟩ s = _
  simp only [execGutterEntryPerformed, hc, hfind]

/-! ### Writes of the counts (Table 11.4) -/

/-- No core's filter holds a key of a context any more (R200). -/
def State.forgetKeys (s : State) (ctx : Nat) : State :=
  { s with cores := s.cores.map (fun k => { k with filter := k.filter.filter (fun f => f.ctx ≠ ctx) }) }

theorem exec_guttail (hc : s.context? ctx = some c) (v : Word) : exec (.guttail ctx v) s =
    if c.gutSize < (c.guthead - v).toNat then .next s else .next ((s.setContext { c with guttail := v }).forgetKeys ctx) := by
  change execGuttail ctx v s = _
  simp only [execGuttail, hc]
  rfl

theorem exec_guthead (hc : s.context? ctx = some c) (v : Word) : exec (.guthead ctx v) s =
    if c.guthead = c.guttail ∧ c.gutPending = [] then .next (s.setContext { c with guthead := v }) else .next s := by
  change execGuthead ctx v s = _
  simp only [execGuthead, hc]

theorem exec_gutovf (hc : s.context? ctx = some c) (v : Word) :
    exec (.gutovf ctx v) s = .next (s.setContext { c with gutovf := v }) := by
  change execGutovf ctx v s = _
  simp only [execGutovf, hc]
end

/-- Settles O43: the entry performed is the first that names its core; each count by whether its write takes effect. -/
theorem gutterEntriesAndItsCounts : Obligations.GutterEntriesAndItsCounts := by
  intro s ctx core c v hc
  refine ⟨fun before id q rest => exec_gutterEntryPerformed_of_oldest hc, exec_gutterEntryPerformed_of_none hc,
    fun hover => ?_, fun hroom => ?_, fun heq hnone => ?_, fun hbusy => ?_, exec_gutovf hc v⟩
  · rw [exec_guttail hc, if_pos hover]
  · exact ⟨_, (exec_guttail hc v).trans (if_neg hroom.not_gt), rfl, rfl⟩
  · rw [exec_guthead hc, if_pos ⟨heq, hnone⟩]
  · rw [exec_guthead hc, if_neg (not_and_or.mpr hbusy)]

end Sys2Proof.Machine
end

section
/-! Reset (O59, O55): the state that it leaves, and the sequence of R348 step by step. -/
namespace Sys2Proof.Machine

/-- Settles O59: each part of `State.reset` is the value that R348 gives it, and its empty lists are in canonical form. -/
theorem resetState : Obligations.ResetState := by
  refine ⟨rfl, rfl, rfl, fun a _ => rfl, rfl, rfl, rfl, rfl, rfl, rfl, rfl, rfl, rfl, rfl,
    List.length_replicate, List.length_replicate, List.length_replicate, ?_, ?_, ?_, ?_⟩
  case refine_1 =>
    intro k hk
    obtain rfl := List.eq_of_mem_replicate hk
    exact ⟨rfl, rfl, rfl, rfl, rfl, rfl, rfl, rfl⟩
  case refine_2 =>
    intro d hd
    obtain rfl := List.eq_of_mem_replicate hd
    exact ⟨rfl, rfl, rfl, rfl⟩
  case refine_3 =>
    intro x hx
    obtain rfl := List.eq_of_mem_replicate hx
    exact ⟨rfl, rfl, rfl, rfl⟩
  case refine_4 => exact ⟨rfl, fun _ h => absurd h List.not_mem_nil, fun _ h => absurd h List.not_mem_nil⟩

/-! ### The sequence of reset -/

/-- Memory with its device's own bytes left out reads zero there, and elsewhere as before. -/
theorem memGet_filter_le (b : Nat) (m : List Host.Cell) (a : Nat) :
    memGet (m.filter (fun c => decide (b ≤ c.1))) a = if a < b then 0 else memGet m a := by
  induction m with
  | nil => simp only [List.filter_nil, memGet, unlisted, ite_self]
  | cons e m ih =>
    obtain ⟨k, x⟩ := e
    by_cases hk : b ≤ k
    · rw [List.filter_cons_of_pos (by simpa using hk)]
      by_cases ha : k = a
      · subst ha; rw [memGet, if_pos rfl, if_neg hk.not_gt, memGet, if_pos rfl]
      · rw [memGet, if_neg ha, ih, memGet, if_neg ha]
    · rw [List.filter_cons_of_neg (by simpa using hk), ih]
      by_cases ha : a < b
      · rw [if_pos ha, if_pos ha]
      · rw [if_neg ha, if_neg ha, memGet, if_neg (by omega)]

/-- No step of the sequence brings back a context, or changes which step is to fail; only the last one makes the device ready. -/
theorem State.resetStep_keeps (s : State) (spec : ResetSpec) (n : Nat) :
    (s.resetStep spec n).contexts = s.contexts ∧ (s.resetStep spec n).resetFail = s.resetFail ∧
      (n ≠ 12 → (s.resetStep spec n).ready = s.ready) ∧ (s.resetStep spec n).health.rststep = s.health.rststep ∧
      (n ≠ 10 → (s.resetStep spec n).firmware = s.firmware) := by
  unfold State.resetStep
  split <;> simp

/-- The steps n to n + k − 1, one after the other. -/
def State.resetRun (s : State) (spec : ResetSpec) (n k : Nat) : State :=
  (List.range' n k).foldl (fun s n => s.resetStep spec n) s

theorem State.resetRun_succ (s : State) (spec : ResetSpec) (n k : Nat) :
    s.resetRun spec n (k + 1) = (s.resetStep spec n).resetRun spec (n + 1) k := rfl

/-- The sequence stopped at step n, whose number it writes to RSTSTEP. -/
def State.stoppedAt (s : State) (n : Nat) : State := { s with health := { s.health with rststep := n } }

/-- The sequence runs its steps up to the one that fails, and writes that one's number. -/
theorem State.resetSteps_eq (s : State) (spec : ResetSpec) (n k : Nat) :
    (s.resetFail < n ∨ n + k ≤ s.resetFail → s.resetSteps spec n k = s.resetRun spec n k) ∧
    ∀ j, j < k → s.resetFail = n + j → s.resetSteps spec n k = (s.resetRun spec n j).stoppedAt (n + j) := by
  induction k generalizing s n with
  | zero => exact ⟨fun _ => rfl, fun j hj => absurd hj (Nat.not_lt_zero j)⟩
  | succ k ih =>
    obtain ⟨-, hfail, -⟩ := s.resetStep_keeps spec n
    obtain ⟨hruns, hstops⟩ := ih (s.resetStep spec n) (n + 1)
    rw [hfail] at hruns hstops
    refine ⟨fun h => ?_, fun j hj h => ?_⟩
    · rw [State.resetSteps, if_neg (by omega), hruns (by omega), State.resetRun_succ]
    · cases j with
      | zero => rw [State.resetSteps, if_pos (show s.resetFail = n from h)]; rfl
      | succ j =>
        rw [State.resetSteps, if_neg (by omega), hstops j (by omega) (by omega), State.resetRun_succ,
          Nat.add_right_comm n 1 j, Nat.add_assoc n j 1]

/-- What no run of steps below 12 changes. -/
theorem State.resetRun_keeps (s : State) (spec : ResetSpec) (n k : Nat) (hk : n + k ≤ 12) :
    (s.resetRun spec n k).contexts = s.contexts ∧ (s.resetRun spec n k).resetFail = s.resetFail ∧
      (s.resetRun spec n k).ready = s.ready ∧ (s.resetRun spec n k).health.rststep = s.health.rststep ∧
      ((n + k ≤ 10) → (s.resetRun spec n k).firmware = s.firmware) := by
  induction k generalizing s n with
  | zero => exact ⟨rfl, rfl, rfl, rfl, fun _ => rfl⟩
  | succ k ih =>
    obtain ⟨hctx, hfail, hready, hstep, hfirm⟩ := s.resetStep_keeps spec n
    obtain ⟨hctx', hfail', hready', hstep', hfirm'⟩ := ih (s.resetStep spec n) (n + 1) (by omega)
    rw [State.resetRun_succ]
    exact ⟨hctx'.trans hctx, hfail'.trans hfail, hready'.trans (hready (by omega)), hstep'.trans hstep,
      fun h => (hfirm' (by omega)).trans (hfirm (by omega))⟩

/-- The state that waits for the firmware, where no step before it fails. -/
def State.awaitsFirmware (s : State) (spec : ResetSpec) : State :=
  (s.resetBegin ((spec.failAt.map Fin.val).getD 0)).resetRun spec 1 9

/-- Step 6 leaves the tags and the poison of what is not the device's own memory. -/
theorem State.notDevice_awaitsFirmware (s : State) (spec : ResetSpec) :
    (∀ n ∈ (s.awaitsFirmware spec).tags, deviceMemoryEnd ≤ 16 * n) ∧
      ∀ n ∈ (s.awaitsFirmware spec).poison, deviceMemoryEnd ≤ 32 * n := by
  have htags : (s.awaitsFirmware spec).tags = s.tags.filter (fun g => decide (deviceMemoryEnd ≤ 16 * g)) := rfl
  have hpoison : (s.awaitsFirmware spec).poison = s.poison.filter (fun x => decide (deviceMemoryEnd ≤ 32 * x)) := rfl
  rw [htags, hpoison]
  exact ⟨fun n h => by simpa using (List.mem_filter.mp h).2, fun n h => by simpa using (List.mem_filter.mp h).2⟩

theorem exec_reset_of_runs {s : State} {spec : ResetSpec} {n : Nat} (hn : (spec.failAt.map Fin.val).getD 0 = n)
    (h : n = 0 ∨ 10 ≤ n) : exec (.reset spec) s = .next (s.awaitsFirmware spec) := by
  change Host.Outcome.next _ = _
  rw [((s.resetBegin _).resetSteps_eq spec 1 9).1 (by simp only [State.resetBegin, hn]; omega)]
  rfl

/-- The firmware's load begins nothing where the device is ready, holds its firmware or has stopped at a step. -/
theorem exec_managementFirmwareLoad_of_done {s : State} (good : Bool) (h : s.ready = true ∨ s.firmware = true ∨
    s.health.rststep ≠ 0) : exec (.managementFirmwareLoad good) s = .next s :=
  if_pos (by simpa [or_assoc] using h)

theorem exec_managementFirmwareLoad_of_waiting {s : State} (good : Bool) (hready : s.ready = false) (hfirm : s.firmware = false)
    (hstep : s.health.rststep = 0) : exec (.managementFirmwareLoad good) s =
      .next ((if good then s else { s with resetFail := 10 } : State).resetSteps
        { failAt := none, spareCores := [], spareChannels := [], spareLanes := [] } 10 3) :=
  if_neg (by simp [hready, hfirm, hstep])

theorem State.awaitsFirmware_keeps (s : State) (spec : ResetSpec) :
    (s.awaitsFirmware spec).contexts = [] ∧ (s.awaitsFirmware spec).resetFail = (spec.failAt.map Fin.val).getD 0 ∧
      (s.awaitsFirmware spec).ready = false ∧ (s.awaitsFirmware spec).health.rststep = 0 ∧
      (s.awaitsFirmware spec).firmware = false := by
  obtain ⟨hctx, hfail, hready, hstep, hfirm⟩ := (s.resetBegin ((spec.failAt.map Fin.val).getD 0)).resetRun_keeps spec 1 9
    (by decide)
  exact ⟨hctx, hfail, hready, hstep, hfirm (by decide)⟩

/-- From where no step is left to fail, a good image makes the device ready (steps 10 to 12), and a bad one fails step 10. -/
theorem exec_managementFirmwareLoad_of_noFailure {t : State} (hready : t.ready = false) (hfirm : t.firmware = false)
    (hstep : t.health.rststep = 0) (hfail : t.resetFail = 0) :
    exec (.managementFirmwareLoad true) t = .next { t with firmware := true, ready := true } ∧
    exec (.managementFirmwareLoad false) t = .next (State.stoppedAt { t with resetFail := 10 } 10) := by
  refine ⟨?_, ?_⟩
  · rw [exec_managementFirmwareLoad_of_waiting true hready hfirm hstep, if_pos rfl,
      (t.resetSteps_eq _ 10 3).1 (.inl (by omega))]
    rfl
  · rw [exec_managementFirmwareLoad_of_waiting false hready hfirm hstep, if_neg Bool.false_ne_true,
      (State.resetSteps_eq _ _ 10 3).2 0 (by decide) rfl]
    rfl

/-- A step after the firmware's load that fails stops the sequence, and no further image is taken. -/
theorem exec_managementFirmwareLoad_of_failure {t : State} (hready : t.ready = false) (hfirm : t.firmware = false)
    (hstep : t.health.rststep = 0) {j : Nat} (hj : j < 3) (hfail : t.resetFail = 10 + j) :
    ∃ u, exec (.managementFirmwareLoad true) t = .next u ∧ u.health.rststep = 10 + j ∧ u.ready = false ∧
      (u.firmware = true ↔ 10 + j ≠ 10) ∧ exec (.managementFirmwareLoad true) u = .next u := by
  let spec : ResetSpec := { failAt := none, spareCores := [], spareChannels := [], spareLanes := [] }
  obtain ⟨-, -, hready', -, -⟩ := t.resetRun_keeps spec 10 j (by omega)
  refine ⟨(t.resetRun spec 10 j).stoppedAt (10 + j), ?_, rfl, hready'.trans hready, ?_,
    exec_managementFirmwareLoad_of_done true (.inr (.inr (show 10 + j ≠ 0 by omega)))⟩
  · rw [exec_managementFirmwareLoad_of_waiting true hready hfirm hstep, if_pos rfl,
      (t.resetSteps_eq _ 10 3).2 j hj hfail]
  · have hfirmware : (t.resetRun spec 10 j).firmware = decide (j ≠ 0) := by
      match j, hj with
      | 0, _ => exact hfirm
      | 1, _ => rfl
      | 2, _ => rfl
    change (t.resetRun spec 10 j).firmware = true ↔ _
    rw [hfirmware]
    simp

/-- Settles O55: reset runs its steps up to the one that fails (`State.resetSteps_eq`), and the firmware's load the rest, from
the state that awaits it. -/
theorem resetRunsItsSteps : Obligations.ResetRunsItsSteps := by
  refine ⟨fun s spec hspec => ?_, fun s spec n hspec hlo hhi => ?_, fun s spec n hspec hlo => ?_,
    fun s good hready => exec_managementFirmwareLoad_of_done good (.inl hready)⟩
  case refine_1 =>
    have hn : (spec.failAt.map Fin.val).getD 0 = 0 := by rw [hspec]; rfl
    obtain ⟨hctx, hfail, hready, hstep, hfirm⟩ := s.awaitsFirmware_keeps spec
    obtain ⟨hgood, hbad⟩ := exec_managementFirmwareLoad_of_noFailure hready hfirm hstep (hfail.trans hn)
    obtain ⟨htags, hpoison⟩ := s.notDevice_awaitsFirmware spec
    refine ⟨_, exec_reset_of_runs hn (.inl rfl), memGet_filter_le deviceMemoryEnd s.mem, htags, hpoison, rfl, hctx, rfl, rfl, rfl, hready, hfirm, hstep,
      rfl, rfl, fun n hn => ?_, fun n hn => ?_, _, hgood, rfl, rfl, hstep, rfl, _, hbad, hready, rfl⟩
    · interval_cases n <;> rfl
    · interval_cases n <;> rfl
  case refine_2 =>
    have hn : (spec.failAt.map Fin.val).getD 0 = n.val := by rw [hspec]; rfl
    let b := s.resetBegin ((spec.failAt.map Fin.val).getD 0)
    obtain ⟨hctx, -, hready, -, -⟩ := b.resetRun_keeps spec 1 (n.val - 1) (by omega)
    have hrun : exec (.reset spec) s = .next ((b.resetRun spec 1 (n.val - 1)).stoppedAt (1 + (n.val - 1))) :=
      congrArg Host.Outcome.next ((b.resetSteps_eq spec 1 9).2 (n.val - 1) (by omega) (hn.trans (by omega)))
    rw [Nat.add_sub_cancel' hlo] at hrun
    exact ⟨_, hrun, rfl, hready, hctx,
      exec_managementFirmwareLoad_of_done true (.inr (.inr (Nat.ne_of_gt hlo)))⟩
  case refine_3 =>
    have hn : (spec.failAt.map Fin.val).getD 0 = n.val := by rw [hspec]; rfl
    obtain ⟨-, hfail, hready, hstep, hfirm⟩ := s.awaitsFirmware_keeps spec
    obtain ⟨u, hload, hrst, hnot, hiff, hagain⟩ := exec_managementFirmwareLoad_of_failure hready hfirm hstep
      (j := n.val - 10) (by omega) (by rw [hfail, hn]; omega)
    rw [Nat.add_sub_cancel' hlo] at hrst hiff
    exact ⟨_, u, exec_reset_of_runs hn (.inr hlo), hstep, hready, hload, hrst, hnot, hiff, hagain⟩

end Sys2Proof.Machine
end

section
/-! Sections (O53): what saves of teams leave of the sections and of the cores' temperatures, a change of class, the events of a
section's limits, and a sample of the temperatures (R341 to R347). -/
namespace Sys2Proof.Machine

/-! ### Sections and temperatures through saves of teams -/

/-- The sections of a device and the temperatures of its cores. -/
def State.thermal (s : State) : List Section × List Nat := (s.sections, s.cores.map Core.temp)

theorem State.thermal_foldl {α : Type} {f : State → α → State} (hf : ∀ s a, (f s a).thermal = s.thermal) (l : List α)
    (s : State) : (l.foldl f s).thermal = s.thermal :=
  l.foldlRecOn (motive := fun t => t.thermal = s.thermal) f rfl fun t ht a _ => (hf t a).trans ht

theorem map_setNth {α β : Type} (f : α → β) (l : List α) (n : Nat) (a : α) :
    (setNth l n a).map f = setNth (l.map f) n (f a) := by
  induction l generalizing n with
  | nil => rfl
  | cons b l ih =>
    cases n with
    | zero => rfl
    | succ n => exact congrArg (f b :: ·) (ih n)

theorem setNth_nth_self {α : Type} (l : List α) (n : Nat) (d : α) : setNth l n (nth l n d) = l := by
  induction l generalizing n with
  | nil => rfl
  | cons b l ih =>
    cases n with
    | zero => rfl
    | succ n => exact congrArg (b :: ·) (ih n)

theorem State.nth_temps (s : State) (n : Nat) : nth (s.cores.map Core.temp) n 0 = (s.coreAt n).temp := by
  unfold State.coreAt nth
  rw [List.getElem?_map]
  cases s.cores[n]? <;> rfl

/-- A core replaced by one of its temperature. -/
theorem State.thermal_setCore (s : State) (n : Nat) {k : Core} (h : k.temp = (s.coreAt n).temp) :
    (s.setCore n k).thermal = s.thermal := by
  refine Prod.ext rfl ?_
  show (setNth s.cores n k).map Core.temp = s.cores.map Core.temp
  rw [map_setNth, h, ← s.nth_temps, setNth_nth_self]

@[simp] theorem State.thermal_landed (s : State) (g : Group) : (s.landed g).thermal = s.thermal :=
  show (s.landed g).outside.thermal = s.outside.thermal by rw [s.outside_landed g]

@[simp] theorem State.thermal_gutter (s : State) (core ctx id : Nat) (w : GutterWant) :
    (s.gutter core ctx id w).thermal = s.thermal := by
  unfold State.gutter
  split
  · rfl
  · next c _ =>
    extract_lets k key
    split
    · rfl
    · split
      · rfl
      · exact State.thermal_setCore _ core rfl

@[simp] theorem State.thermal_putGutters (s : State) (g : Group) (p : Pend) : (s.putGutters g p).thermal = s.thermal := by
  unfold State.putGutters
  split
  · rfl
  · split
    · rfl
    · exact State.thermal_foldl (fun s w => s.thermal_gutter ..) ..

@[simp] theorem State.thermal_deliver (s : State) (g : Group) (p : Pend) (part : Nat) :
    (s.deliver g p part).thermal = s.thermal := by
  have hprogress : ∀ (s : State) (g : Group) (p : Pend), (s.progress g p).thermal = s.thermal := by
    intro s g p
    unfold State.progress
    split <;> simp
  exact hprogress s.nextFree _ _

theorem State.thermal_loadSector (s : State) (core sector : Nat) (cacheable : Bool) :
    (s.loadSector core sector cacheable).2.thermal = s.thermal := by
  have hrefresh : ∀ b, ((s.coreAt core).refresh sector b).temp = (s.coreAt core).temp := by
    intro b
    unfold Core.refresh
    split <;> rfl
  unfold State.loadSector
  extract_lets k seen
  split
  · split
    · rfl
    · exact s.thermal_setCore core (hrefresh seen)
  · split
    · exact s.thermal_setCore core rfl
    · rfl

@[simp] theorem State.thermal_loadSectors (s : State) (core : Nat) (cacheable : Bool) (l : List Nat) :
    (s.loadSectors core cacheable l).2.thermal = s.thermal := by
  induction l generalizing s with
  | nil => rfl
  | cons x l ih => exact (ih _).trans (s.thermal_loadSector core x cacheable)

@[simp] theorem State.thermal_poisonPend (s : State) (g : Group) (p : Pend) : (s.poisonPend g p).thermal = s.thermal := by
  unfold State.poisonPend State.forward
  extract_lets bad t
  split
  · split <;> rfl
  · rfl

@[simp] theorem State.thermal_returnLoad (s : State) (g : Group) (p : Pend) (sz : MemSize) (cacheable : Bool)
    (sector part : Nat) : (s.returnLoad g p sz cacheable sector part).thermal = s.thermal := by
  unfold State.returnLoad
  extract_lets
  split <;> simp

theorem State.thermal_landLoad (gid id n : Nat) (s : State) : (State.landLoad gid id n s).thermal = s.thermal := by
  induction n generalizing s with
  | zero => rfl
  | succ n ih =>
    unfold State.landLoad
    repeat' split
    all_goals simp [ih]

theorem State.thermal_landDue (gid : Nat) (s : State) (id : Nat) : (State.landDue gid s id).thermal = s.thermal := by
  unfold State.landDue
  repeat' split
  all_goals simp

theorem State.thermal_land (s : State) (gid : Nat) : (s.land gid).thermal = s.thermal := by
  unfold State.land
  split
  · rfl
  · extract_lets s1 s2
    have h2 : s2.thermal = s.thermal := State.thermal_foldl (fun s (p : Pend) => State.thermal_landLoad gid p.id _ s) _ s1
    exact (State.thermal_foldl (State.thermal_landDue gid) _ s2).trans h2

@[simp] theorem State.thermal_chargeAccess (s : State) (g : Group) (secs : List Nat) :
    (s.chargeAccess g secs).thermal = s.thermal := by
  unfold State.chargeAccess State.charge
  repeat' split
  all_goals rfl

@[simp] theorem State.thermal_setTags (s : State) (l : List Nat) : (l.foldl (fun s a => s.setTag a) s).thermal = s.thermal :=
  State.thermal_foldl (f := fun (s : State) a => s.setTag a) (fun _ _ => rfl) l s

@[simp] theorem State.thermal_storeToMemory (s : State) (g : Group) (p : Pend) : (s.storeToMemory g p).thermal = s.thermal := by
  have hsame : ∀ {u : State} {k : Core}, u.thermal = s.thermal → k.temp = (s.coreAt g.core).temp →
      (u.setCore g.core k).thermal = s.thermal := by
    intro u k hu hk
    refine (u.thermal_setCore g.core ?_).trans hu
    rw [hk, ← u.nth_temps, ← s.nth_temps]
    exact congrArg (fun x : List Section × List Nat => nth x.2 g.core 0) hu.symm
  unfold State.storeToMemory
  extract_lets k mine earlier
  split
  · simp
  · extract_lets secs s1 s2 s3
    have h1 : s1.thermal = s.thermal := (State.thermal_chargeAccess ..).trans rfl
    have h2 : s2.thermal = s.thermal := (s1.thermal_setTags _).trans h1
    split
    · rfl
    · exact (s3.thermal_landed _).trans (hsame h2 rfl)

theorem State.thermal_flushOne (s : State) (core : Nat) : (s.flushOne core).thermal = s.thermal := by
  unfold State.flushOne
  split
  · rfl
  · next w l _ =>
    split
    · simp
    · have h := State.thermal_setTags (s.writePhys w.bytes) w.tagged
      refine (State.thermal_setCore _ core ?_).trans h
      rw [← State.nth_temps, ← State.nth_temps]
      exact congrArg (fun x : List Section × List Nat => nth x.2 core 0) h.symm

theorem State.thermal_saveTeam (s : State) (tid : Nat) : (s.saveTeam tid).thermal = s.thermal := by
  unfold State.saveTeam
  extract_lets s1
  have h1 : s1.thermal = s.thermal := State.thermal_foldl State.thermal_land _ s
  split
  · exact h1
  · next t _ => exact (State.thermal_foldl (fun s _ => s.thermal_flushOne t.core) _ s1).trans h1

theorem State.thermal_saveTeams (s : State) (l : List Nat) : (l.foldl State.saveTeam s).thermal = s.thermal :=
  State.thermal_foldl State.thermal_saveTeam l s

theorem State.sections_saveTeams (s : State) (l : List Nat) : (l.foldl State.saveTeam s).sections = s.sections :=
  congrArg (fun x : List Section × List Nat => x.1) (s.thermal_saveTeams l)

/-! ### Another class (R342, R347) -/

/-- A section cleared while nothing is on its way: its teams are saved, and memory is as it was. -/
theorem State.clearSection_of_quiet {s : State} (h : s.quiet = true) (sec : Nat) : (s.clearSection sec).quiet = true ∧
    (s.clearSection sec).mem = s.mem ∧
    ∀ tm ∈ (s.clearSection sec).teams, tm.core / 32 = sec → tm.ended = false → tm.preempted = true := by
  have hsaved := State.savedQuietly_saveTeams ((s.teams.filter (fun t => t.core / 32 = sec && !t.preempted &&
    (!t.ended || (s.clusterTeams t).any (fun u => !u.ended)))).map Team.id) h
  refine ⟨hsaved.quiet, hsaved.mem, fun tm htm hsec hend => ?_⟩
  rcases hsaved.teams tm htm with hdone | ⟨hmem, hnot⟩
  · exact hdone
  · by_contra hfree
    refine hnot (List.mem_map.mpr ⟨tm, List.mem_filter.mpr ⟨hmem, ?_⟩, rfl⟩)
    simp [hsec, hend, Bool.eq_false_of_not_eq_true hfree]

theorem State.sections_clearSection (s : State) (sec : Nat) : (s.clearSection sec).sections = s.sections :=
  s.sections_saveTeams _

section
variable {s : State} {sec cls : Nat}

theorem exec_sectionReassign_of_allowed (hsec : sec < 8) (hcls : cls ≤ 2) (hne : cls ≠ (s.sectionAt sec).cls)
    (hdwell : 200 ≤ (s.sectionAt sec).dwell) (hheat : (s.sectionAt sec).dropped = 0 ∨
      heatLevel cls < heatLevel (s.sectionAt sec).cls ∨ s.sectionCool sec = true) :
    exec (.sectionReassign sec cls) s = .next ((s.clearSection sec).setSection sec
      ((s.sectionAt sec).toClass cls ((s.sectionAt sec).stillDropped cls))) :=
  if_pos ⟨hsec, hcls, hne, hdwell, hheat⟩

theorem exec_sectionReassign_of_barred (h : cls = (s.sectionAt sec).cls ∨ (s.sectionAt sec).dwell < 200 ∨
    ((s.sectionAt sec).dropped ≠ 0 ∧ heatLevel (s.sectionAt sec).cls ≤ heatLevel cls ∧ ¬ s.sectionCool sec = true)) :
    exec (.sectionReassign sec cls) s = .next s := by
  refine if_neg fun ⟨_, _, hne, hdwell, hheat⟩ => ?_
  rcases h with h | h | ⟨hdropped, hlevel, hcool⟩
  · exact hne h
  · exact hdwell.not_gt h
  · exact hheat.elim hdropped fun h => h.elim hlevel.not_gt hcool

theorem exec_sectionGrant (hsec : sec < 8) (grant : Nat) : exec (.sectionGrant sec grant) s =
    if 2 ≤ grant ∧ grant ≤ 8 then .next (s.setSection sec { s.sectionAt sec with grant := grant }) else .next s := by
  change execSectionGrant sec grant s = _
  simp only [execSectionGrant, hsec, true_and]

end

/-! ### Heat (R347) -/

/-- What the migrations and drops of a sample leave of a device: as many sections, the cores' temperatures, and, where nothing
is on its way, memory. -/
structure State.Reheated (s t : State) : Prop where
  sections : t.sections.length = s.sections.length
  temps : t.cores.map Core.temp = s.cores.map Core.temp
  quiet : s.quiet = true → t.quiet = true ∧ t.mem = s.mem

theorem State.Reheated.refl (s : State) : s.Reheated s := ⟨rfl, rfl, fun h => ⟨h, rfl⟩⟩

theorem State.Reheated.trans {s t u : State} (h : s.Reheated t) (h' : t.Reheated u) : s.Reheated u where
  sections := h'.sections.trans h.sections
  temps := h'.temps.trans h.temps
  quiet hq := by
    obtain ⟨hqt, hmem⟩ := h.quiet hq
    obtain ⟨hqu, hmem'⟩ := h'.quiet hqt
    exact ⟨hqu, hmem'.trans hmem⟩

theorem State.Reheated.foldl {α : Type} {f : State → α → State} (hf : ∀ s a, State.Reheated s (f s a)) (l : List α)
    (s : State) : s.Reheated (l.foldl f s) :=
  l.foldlRecOn f (.refl s) fun t ht a _ => ht.trans (hf t a)

theorem State.reheated_saveTeam (s : State) (tid : Nat) : s.Reheated (s.saveTeam tid) where
  sections := congrArg (fun x : List Section × List Nat => x.1.length) (s.thermal_saveTeam tid)
  temps := congrArg (fun x : List Section × List Nat => x.2) (s.thermal_saveTeam tid)
  quiet hq := ⟨(State.savedQuietly_saveTeam hq tid).quiet, (State.savedQuietly_saveTeam hq tid).mem⟩

theorem State.reheated_setTeam (s : State) (t : Team) : s.Reheated (s.setTeam t) := ⟨rfl, rfl, fun h => ⟨h, rfl⟩⟩

theorem State.reheated_setSection (s : State) (sec : Nat) (x : Section) : s.Reheated (s.setSection sec x) :=
  ⟨length_setNth .., rfl, fun h => ⟨h, rfl⟩⟩

theorem State.reheated_moveTeam (s : State) (target tid : Nat) : s.Reheated (s.moveTeam target tid) := by
  unfold State.moveTeam
  split
  · exact .refl s
  · refine .foldl (fun u e => ?_) ..
    extract_lets v
    have hv : u.Reheated v := by
      unfold v
      split
      · exact .refl u
      · exact u.reheated_saveTeam _
    split
    · exact hv
    · exact hv.trans (v.reheated_setTeam _)

theorem State.reheated_heatCore (a : State × List Nat) (core : Nat) : a.1.Reheated (State.heatCore a core).1 := by
  obtain ⟨s, taken⟩ := a
  simp only [State.heatCore]
  split
  · exact .refl s
  · split
    · exact .foldl (fun u (t : Team) => u.reheated_moveTeam _ t.id) ..
    · split
      · exact .refl s
      · split
        · exact (State.Reheated.foldl State.reheated_saveTeam _ s).trans (State.reheated_setSection ..)
        · exact .refl s

theorem State.reheated_heatCores (l : List Nat) (a : State × List Nat) : a.1.Reheated (l.foldl State.heatCore a).1 :=
  l.foldlRecOn (motive := fun b => a.1.Reheated b.1) State.heatCore (.refl a.1)
    fun b hb core _ => hb.trans (State.reheated_heatCore b core)

theorem nth_map_zip_upto {α : Type} (f : Nat × α → α) (l : List α) (d : α) {n : Nat} (hn : n < l.length) :
    nth (((upto l.length).zip l).map f) n d = f (n, nth l n d) := by
  unfold nth upto
  rw [List.getElem?_map, List.getElem?_eq_getElem (by simpa using hn), List.getElem?_eq_getElem hn, List.getElem_zip]
  simp

/-- A section above 105 degrees is stopped, and one below 100 is not. -/
theorem State.heatStops_hot (s : State) (sec : Nat) (x : Section) :
    (105 < s.sectionTemp sec → (s.heatStops sec x).hot = true) ∧ (s.sectionTemp sec < 100 → (s.heatStops sec x).hot = false) := by
  unfold State.heatStops
  refine ⟨fun h => by simp only [if_pos h], fun h => ?_⟩
  simp only [if_neg (show ¬ 105 < s.sectionTemp sec by omega), if_pos h]

/-- The sensors are read (R347), and what counts samples goes on. -/
def State.sampled (s : State) (temps : List Nat) : State :=
  { s with
    cores := ((upto s.cores.length).zip s.cores).map (fun e => { e.2 with temp := nth temps e.1 e.2.temp })
    teams := s.teams.map (fun t => { t with cool := min 200 (t.cool + 1) })
    sections := s.sections.map (fun x => { x with dwell := min 200 (x.dwell + 1) }) }

/-- The device after the migrations and drops of a sample. Irreducible, so that no unification walks through all cores. -/
@[irreducible] def State.cooled (s : State) (temps : List Nat) : State := ((upto 256).foldl State.heatCore (s.sampled temps, [])).1

theorem State.reheated_cooled (s : State) (temps : List Nat) : (s.sampled temps).Reheated (s.cooled temps) := by
  unfold State.cooled
  exact State.reheated_heatCores (upto 256) (s.sampled temps, [])

theorem exec_thermalSample (s : State) (temps : List Nat) : exec (.thermalSample temps) s = .next { s.cooled temps with
    sections := ((upto (s.cooled temps).sections.length).zip (s.cooled temps).sections).map
      (fun e => (s.cooled temps).heatStops e.1 e.2) } := by
  change execThermalSample temps s = _
  unfold execThermalSample State.cooled State.sampled
  rfl

theorem State.quiet_sampled {s : State} (h : s.quiet = true) (temps : List Nat) : (s.sampled temps).quiet = true := by
  simp only [State.quiet, Bool.and_eq_true] at h ⊢
  refine ⟨h.1, ?_⟩
  simp only [State.sampled, List.all_map, List.all_eq_true, Function.comp] at h ⊢
  exact fun e he => h.2 e.2 (List.of_mem_zip he).2

theorem State.temp_sampled (s : State) (temps : List Nat) {n : Nat} (hn : n < s.cores.length) :
    ((s.sampled temps).coreAt n).temp = nth temps n (s.coreAt n).temp := by
  have hread := nth_map_zip_upto (fun e : Nat × Core => { e.2 with temp := nth temps e.1 e.2.temp }) s.cores {} hn
  exact congrArg Core.temp hread

/-- Settles O53: a section's events by their conditions, a change of class behind the saves of its teams
(`State.sections_clearSection`), and a sample by what it does after its migrations and drops (`State.reheated_heatCores`). -/
theorem sectionsFollowTheirLimits : Obligations.SectionsFollowTheirLimits := by
  refine ⟨fun s sec cls hsec hlength hcls => ?_, fun s sec => ⟨rfl, rfl⟩, fun s steps h => if_neg h.not_gt,
    fun s steps h => ⟨_, if_pos h, rfl, rfl, rfl⟩, fun s temps hcores hsections => ?_⟩
  case refine_1 =>
    intro x cool level
    refine ⟨fun hne hdwell hheat => ?_, exec_sectionReassign_of_barred, rfl, fun grant => ⟨fun hlo hhi => ?_, fun hout => ?_⟩⟩
    · have hread := fun n => (s.clearSection sec).sections_setSection sec
        ((s.sectionAt sec).toClass cls ((s.sectionAt sec).stillDropped cls)) n
      have hself := (hread sec).trans (if_pos ⟨rfl, by rw [s.sections_clearSection, hlength]; exact hsec⟩)
      refine ⟨_, exec_sectionReassign_of_allowed hsec hcls hne hdwell hheat, by rw [hself]; rfl, by rw [hself]; rfl,
        by rw [hself]; rfl, by rw [hself]; rfl, by rw [hself]; rfl, fun n hn => ?_, fun hq => ?_⟩
      · rw [hread, if_neg (fun h => hn h.1), s.sections_clearSection]
      · exact (State.clearSection_of_quiet hq sec).2
    · rw [exec_sectionGrant hsec, if_pos ⟨hlo, hhi⟩]
      rfl
    · rw [exec_sectionGrant hsec, if_neg (by omega)]
  case refine_2 =>
    have hheated := s.reheated_cooled temps
    have hlength : (s.cooled temps).sections.length = 8 :=
      hheated.sections.trans ((List.length_map ..).trans hsections)
    refine ⟨_, exec_thermalSample s temps, fun hq => (hheated.quiet (State.quiet_sampled hq temps)).2, fun n hn => ?_,
      fun sec hsec => ?_⟩
    · show ((s.cooled temps).coreAt n).temp = _
      rw [← State.nth_temps, hheated.temps, State.nth_temps, s.temp_sampled temps (hcores ▸ hn)]
    · have hread := nth_map_zip_upto (fun e => (s.cooled temps).heatStops e.1 e.2) (s.cooled temps).sections {}
        (hlength.symm ▸ hsec)
      show (105 < (s.cooled temps).sectionTemp sec → _) ∧ ((s.cooled temps).sectionTemp sec < 100 → _)
      rw [hread]
      exact (s.cooled temps).heatStops_hot sec _

end Sys2Proof.Machine
end

section
/-! Faults of a path (O19): what a precise fault and a user trap write back (R304, R305, R79). -/
namespace Sys2Proof.Machine

/-- A half's scalar state replaced, and a path, keep the group's place. -/
theorem Group.id_setBank_setSlot (g : Group) (half k : Nat) (b : Bank) (p : Option Path) :
    ((g.setBank half b).setSlot k p).id = g.id := by
  rw [Group.setSlot_id, Group.setBank_id']

/-- A group put back for an issue whose fault took a number. -/
theorem Issue.puts_numbered {s : State} {c : Issue} (h : s.issue? = some c) {G : Group} (hid : G.id = c.g.id) :
    Puts { s with fresh := s.fresh + 1 } G (State.setGroup { s with fresh := s.fresh + 1 } G) := by
  obtain ⟨-, -, hg, -⟩ := State.issue?_spec h
  exact State.setGroup_puts (Option.isSome_of_eq_some (hid ▸ hg))

/-- Settles O19: a precise fault puts back its group with the path stopped at the word (`Issue.raise`); TRAP does so with the path
at the next word, and a record of the clause that it stands in. -/
theorem preciseFaultStopsItsPath : Obligations.PreciseFaultStopsItsPath := by
  refine ⟨fun s c tr h => ?_, fun s c cl n h => ?_⟩
  · obtain ⟨hs, -⟩ := State.issue?_spec h
    subst hs
    exact Issue.puts_numbered h (Group.id_setBank_setSlot ..)
  · obtain ⟨hs, -⟩ := State.issue?_spec h.path
    subst hs
    refine ⟨_, issue_of_issuing h _, ?_⟩
    have huser : c.p.clause.map (fun cl => (c.k, cl)) = some (c.k, cl) := by rw [h.clause]; rfl
    simp only [Eff.apply, huser]
    exact Issue.puts_numbered h.path (Group.id_setBank_setSlot ..)

end Sys2Proof.Machine
end

section
/-! TRET (O48): what it does by what it reads of its live frame (R302, R309, R311). -/
namespace Sys2Proof.Machine

/-- A fault that a word's read meets, by whether it goes to the management cores first (R302). -/
theorem Issue.fetchFault_eq (c : Issue) (i : Instr) (t : Trap) : c.fetchFault i t = match pendFault t with
    | .service u => c.serviceFetch i u
    | _ => c.raise t := by
  have hfault : ∀ u, pendFault t = .faulted u → u = t := by
    intro u
    unfold pendFault
    repeat' split
    all_goals simp [eq_comm]
  unfold Issue.fetchFault
  cases h : pendFault t with
  | faulted u => simp only [hfault u h]
  | _ => rfl

/-- Where a restored path waits (R122, R311). -/
theorem Path.restored_eq (x : Path) (joined : Bool) (drain : List Nat) : x.restored joined drain = { x with
    drain := drain, park := if joined = true ∧ x.clause = none ∧ x.pjoin = some x.pc then .join 0 else .running } := by
  have hiff : (joined && x.clause.isNone && decide (x.pjoin = some x.pc)) = true ↔
      joined = true ∧ x.clause = none ∧ x.pjoin = some x.pc := by
    simp [and_assoc]
  unfold Path.restored
  simp only [hiff]

/-- The half that TRET restores: s60 to s63 from the frame, with the tag that the live frame leaves their quad, and
no live frame (R309, R311). -/
def LiveFrame.bankAfter (l : LiveFrame) (b : Bank) (ss : List Word) : Bank :=
  { b.writeSList 60 ss with stag := putNth false (b.writeSList 60 ss).stag 15 (l.tagAfter ss), live := none }

/-- A group with the paths that TRET restores: of a ganged one the half's, of a native one both (R110, R311). -/
def Group.withPaths (g : Group) (ganged : Bool) (half : Nat) (q0 q1 : Option Path) : Group :=
  if ganged then g.setSlot half q0 else (g.setSlot 0 q0).setSlot 1 q1

theorem Group.withPaths_eq (g : Group) (ganged : Bool) (half : Nat) (q0 q1 : Option Path) : g.withPaths ganged half q0 q1 =
    if ganged then g.setSlot half q0 else { g with slot0 := q0, slot1 := q1 } := rfl

section
variable {s : State} {c : Issue} {cl : ClauseState} (hi : Issuing .tret s c cl)
include hi

theorem exec_tret_of_noFrame (h : c.bank.live = none) : exec .tret s = .next (c.raise trIllegal) :=
  hi.raises rfl (by simp only [h])

variable {l : LiveFrame} {ctx : Context} (hl : c.bank.live = some l) (hctx : s.contextOf c.g = some ctx)
include hl hctx

theorem exec_tret_of_unlike (h : c.other.isSome = true ∨ c.bank.spill.length ≠ l.spillDepth) :
    exec .tret s = .next (c.raise trIllegal) := by
  obtain ⟨rfl, -⟩ := State.issue?_spec hi.path
  refine hi.raises rfl ?_
  simp only [hl, hctx]
  exact if_pos (by simpa using h)

variable (hother : c.other = none) (hdepth : c.bank.spill.length = l.spillDepth)
include hother hdepth

/-- A read of the frame that meets a fault. -/
theorem exec_tret_of_error {tr : Trap} {s' : State} (hread : s.readFrame c.g c.half ctx l = (.error tr, s')) :
    exec .tret s = .next (({ c with s := s' } : Issue).fetchFault .tret tr) := by
  obtain ⟨rfl, -⟩ := State.issue?_spec hi.path
  refine (issue_of_issuing hi _).trans (congrArg Host.Outcome.next ?_)
  simp only [hl, hctx, hother, hdepth, hread, Option.isSome_none, ne_eq, not_true_eq_false, decide_false, Bool.or_false,
    Bool.false_eq_true, if_false]
  rfl

variable {h : Nat} {es : List Pend} {s' : State} (hread : s.readFrame c.g c.half ctx l = (.ok (h, es), s'))
include hread

theorem exec_tret_of_malformed (hpaths : headerPaths (c.g.fullMask c.half) c.g.ganged h = none) :
    exec .tret s = .next (c.raise trIllegal) := by
  obtain ⟨rfl, -⟩ := State.issue?_spec hi.path
  refine hi.raises rfl ?_
  simp only [hl, hctx, hother, hdepth, hread, hpaths, Option.isSome_none, ne_eq, not_true_eq_false, decide_false,
    Bool.or_false, Bool.false_eq_true, if_false]

/-- A frame that passes the checks of R311: its paths are restored, and its instructions issue again. -/
theorem exec_tret_of_frame {p0 p1 : Option Path} (hpaths : headerPaths (c.g.fullMask c.half) c.g.ganged h = some (p0, p1))
    (hsome : p0.isSome = true ∨ p1.isSome = true)
    (howners : es.all (fun p => if c.g.ganged then p0.isSome else (!p.owner0 || p0.isSome) && (!p.owner1 || p1.isSome)) = true) :
    let g := (c.g.setBank c.half (l.bankAfter c.bank (headerSsave h))).withPaths c.g.ganged c.half
      (p0.map (fun x => x.restored l.joined.1 l.drains.1)) (p1.map (fun x => x.restored l.joined.2 l.drains.2))
    let r := s'.reissueAll g es
    exec .tret s = .next (({ c with s := r.2, g := r.1 } : Issue).commit r.1 true) := by
  obtain ⟨rfl, -⟩ := State.issue?_spec hi.path
  refine (issue_of_issuing hi _).trans (congrArg Host.Outcome.next ?_)
  have hleft : ((p0.map (fun x => x.restored l.joined.1 l.drains.1)).isNone &&
      (p1.map (fun x => x.restored l.joined.2 l.drains.2)).isNone) = false := by
    cases p0 <;> cases p1 <;> simp_all
  simp only [hl, hctx, hother, hdepth, hread, hpaths, howners, hleft, Option.isSome_none, ne_eq, not_true_eq_false, decide_false,
    Bool.or_false, Bool.false_eq_true, if_false, Bool.not_true, Group.setBank_ganged, Group.withPaths_eq]
  rfl

end

/-- Settles O48: by whether there is a live frame like the path (`exec_tret_of_noFrame`, `exec_tret_of_unlike`), and by what the
read of it gives: a fault, a malformed header, or paths and instructions (`exec_tret_of_frame`). -/
theorem tretReturnsFromTheHandler : Obligations.TretReturnsFromTheHandler := by
  intro s c cl hi
  refine ⟨exec_tret_of_noFrame hi, fun l ctx hl hctx => ⟨exec_tret_of_unlike hi hl hctx, fun hother hdepth => ⟨fun hcap => ?_,
    fun tr s' hread => ?_, fun h es s' hread => ⟨exec_tret_of_malformed hi hl hctx hother hdepth hread,
      fun p0 p1 hpaths hsome howners => ?_⟩⟩⟩⟩
  · have hread : s.readFrame c.g c.half ctx l = (.error (mkTrap .bounds), s) := by
      simp only [State.readFrame, hcap]
    obtain ⟨rfl, -⟩ := State.issue?_spec hi.path
    exact exec_tret_of_error hi hl hctx hother hdepth hread
  · rw [exec_tret_of_error hi hl hctx hother hdepth hread, Issue.fetchFault_eq] <;> rfl
  · have hframe := exec_tret_of_frame hi hl hctx hother hdepth hread hpaths hsome howners
    simp only [Path.restored_eq] at hframe
    exact hframe

end Sys2Proof.Machine
end

section
/-! Host queues (O50): doorbells, reports of grids that have ended, records of ordered draws, and rings (R325, R329). -/
namespace Sys2Proof.Machine

/-! ### The low bytes of what memory holds -/

/-- A byte written leaves the others, whatever the list. -/
theorem memGet_memSet_of_ne (m : List Host.Cell) {a x : Nat} (b : Byte) (h : x ≠ a) : memGet (memSet a b m) x = memGet m x := by
  induction m with
  | nil =>
    unfold memSet
    split
    · rfl
    · simp only [memGet, if_neg h.symm]
  | cons e m ih =>
    obtain ⟨k, c⟩ := e
    unfold memSet
    split
    · split
      · rfl
      · exact if_neg h.symm
    · split
      · next hak =>
        subst hak
        split
        · exact (if_neg h.symm).symm
        · simp only [memGet, if_neg h.symm]
      · simp only [memGet, ih]

theorem memGet_memWriteList_of_ne (m : List Host.Cell) (l : List (Nat × Byte)) {x : Nat} (h : ∀ e ∈ l, e.1 ≠ x) :
    memGet (memWriteList m l) x = memGet m x := by
  induction l generalizing m with
  | nil => rfl
  | cons e l ih =>
    rw [memWriteList, ih _ fun f hf => h f (List.mem_cons_of_mem e hf),
      memGet_memSet_of_ne m e.2 (h e List.mem_cons_self).symm]

/-- Bytes before what is written read as before. -/
theorem State.readPhys_writeBytes_before (s : State) {pa n at_ : Nat} (l : List Byte) (h : pa + n ≤ at_) :
    (s.writeBytes at_ l).readPhys pa n = s.readPhys pa n := by
  show memRead (memWriteList s.mem (withAddresses at_ l)) pa n = memRead s.mem pa n
  rw [memRead_eq_map, memRead_eq_map]
  refine List.map_congr_left fun i hi => memGet_memWriteList_of_ne _ _ fun e he => ?_
  obtain ⟨hlo, -⟩ := withAddresses_fst he
  have hi : i < n := List.mem_range.mp hi
  omega

theorem leValue_append (l m : List Byte) : leValue (l ++ m) = leValue l + 256 ^ l.length * leValue m := by
  induction l with
  | nil => simp [leValue]
  | cons b l ih =>
    show leValue (l ++ m) * 256 + b.toNat = leValue l * 256 + b.toNat + 256 ^ (l.length + 1) * leValue m
    rw [ih, Nat.pow_succ]
    ring

theorem leValue_lt (l : List Byte) : leValue l < 256 ^ l.length := by
  induction l with
  | nil => exact Nat.one_pos
  | cons b l ih =>
    show leValue l * 256 + b.toNat < 256 ^ (l.length + 1)
    have hb := b.isLt
    rw [Nat.pow_succ]
    omega

theorem memRead_add (m : List Host.Cell) (a n k : Nat) : memRead m a (n + k) = memRead m a n ++ memRead m (a + n) k := by
  induction n generalizing a with
  | zero => rw [Nat.zero_add]; rfl
  | succ n ih => rw [Nat.add_right_comm, memRead, memRead, ih, Nat.add_right_comm a 1 n]; rfl

/-- Bits 55 to 0 of what 128 bytes hold are those of the first 7 bytes. -/
theorem State.bits_physValue_address (s : State) (pa : Nat) : bits (s.physValue pa 128) 55 0 = leValue (s.readPhys pa 7) := by
  have hlength : (memRead s.mem pa 7).length = 7 := by rw [memRead_eq_map, List.length_map]; exact List.length_range
  have hlt := leValue_lt (memRead s.mem pa 7)
  rw [hlength] at hlt
  unfold State.physValue State.readPhys bits
  rw [memRead_add s.mem pa 7 121, leValue_append, hlength, Nat.pow_zero, Nat.div_one,
    show 2 ^ (55 + 1 - 0) = 256 ^ 7 from rfl, Nat.add_mul_mod_self_left, Nat.mod_eq_of_lt hlt]

/-! ### Doorbells -/

section
variable {s : State} {ctx queue : Nat} {c : Context} {q : Queue}

/-- An entry that a doorbell announces waits for no channel's copy. -/
def State.entriesFree (s : State) (q : Queue) (n : Nat) : Prop := ∀ i, i < n → s.placesHeld (q.entryAt (q.next + i)) 128 = false

theorem State.entriesFree_iff (s : State) (q : Queue) (n : Nat) :
    (upto n).any (fun i => s.placesHeld (q.entryAt (q.next + i)) 128) = false ↔ s.entriesFree q n := by
  simp [State.entriesFree, upto]

theorem exec_doorbell_of_free {tail : Nat} (hc : s.context? ctx = some c) (hq : s.queue? ctx queue = some q)
    (hhost : q.host = true) (htail : q.next < tail) (hfree : s.entriesFree q (min (tail - q.next) q.size)) :
    exec (.doorbell ctx queue tail) s =
      .next (((upto (min (tail - q.next) q.size)).foldl (fun s i => s.launchEntry c q (q.next + i)) s).mapQueue ctx queue
        (fun k => { k with tail := tail, next := q.next + min (tail - q.next) q.size })) := by
  change execDoorbell ctx queue tail s = _
  simp only [execDoorbell, hc, hq]
  exact if_pos (by rw [hhost, decide_eq_true htail, (s.entriesFree_iff q _).mpr hfree]; rfl)

theorem exec_doorbell_of_idle {tail : Nat} (hc : s.context? ctx = some c) (hq : s.queue? ctx queue = some q)
    (h : q.host = false ∨ tail ≤ q.next ∨ ¬ s.entriesFree q (min (tail - q.next) q.size)) :
    exec (.doorbell ctx queue tail) s = .next s := by
  change execDoorbell ctx queue tail s = _
  simp only [execDoorbell, hc, hq]
  refine if_neg fun hall => ?_
  simp only [Bool.and_eq_true, decide_eq_true_eq, Bool.not_eq_true'] at hall
  obtain ⟨⟨hhost, htail⟩, hfree⟩ := hall
  rcases h with h | h | h
  · exact Bool.false_ne_true (h.symm.trans hhost)
  · exact h.not_gt htail
  · exact h ((s.entriesFree_iff q _).mp hfree)

end

/-! ### Reports of grids that have ended -/

section
variable {s : State} {d : Grid}

theorem exec_gridCompletion_of_waiting (hd : s.grid? d.id = some d) (h : d.completed = false ∨ s.reportHeld d = true) :
    exec (.gridCompletion d.id) s = .next s := by
  change execGridCompletion d.id s = _
  simp only [execGridCompletion, hd]
  refine if_neg fun hall => ?_
  simp only [Bool.and_eq_true, Bool.not_eq_true'] at hall
  rcases h with h | h
  · exact Bool.false_ne_true (h.symm.trans hall.1)
  · exact Bool.false_ne_true (hall.2.symm.trans h)

/-- A write of the grid that its core has still to perform holds its report. -/
theorem State.reportHeld_of_write {k : Core} {w : CoreWrite} (hk : k ∈ s.cores) (hw : w ∈ k.buffer) (hgrid : w.grid = d.id) :
    s.reportHeld d = true := by
  have hany : s.cores.any (fun k => k.buffer.any (fun w => w.grid = d.id)) = true :=
    List.any_eq_true.mpr ⟨k, hk, List.any_eq_true.mpr ⟨w, hw, decide_eq_true hgrid⟩⟩
  unfold State.reportHeld
  rw [hany]
  rfl

/-- A copy request of one of the grid's teams holds its report. -/
theorem State.reportHeld_of_copy {k : Core} {r : CopyReq} {tm : Team} (hk : k ∈ s.cores) (hr : r ∈ k.copies)
    (htm : tm ∈ s.teams) (hteam : r.team = tm.id) (hgrid : tm.grid = d.id) : s.reportHeld d = true := by
  have hcopying : s.copying tm.id = true :=
    List.any_eq_true.mpr ⟨k, hk, List.any_eq_true.mpr ⟨r, hr, decide_eq_true hteam⟩⟩
  have hany : s.teams.any (fun t => t.grid = d.id && s.copying t.id) = true :=
    List.any_eq_true.mpr ⟨tm, htm, by rw [decide_eq_true hgrid, hcopying]; rfl⟩
  unfold State.reportHeld
  rw [hany, Bool.or_true]
  rfl

theorem State.placesHeld_of_noCopy (h : s.channelCopies = []) (pa n : Nat) : s.placesHeld pa n = false := by
  unfold State.placesHeld
  rw [h]
  rfl

theorem State.rangeHeld_of_noCopy (hcopies : s.channelCopies = []) (hlinks : s.links.any Link.retraining = false) (core : Nat)
    (c : Context) (x : XReg) (o n : Nat) : s.rangeHeld core c x o n = false := by
  unfold State.rangeHeld
  rw [hcopies, hlinks]
  rfl

/-- Nothing else holds a report but a channel or a link. -/
theorem State.reportHeld_of_performed (hcores : ∀ k ∈ s.cores, (∀ w ∈ k.buffer, w.grid ≠ d.id) ∧
      ∀ r ∈ k.copies, ∀ tm ∈ s.teams, r.team = tm.id → tm.grid ≠ d.id)
    (hcopies : s.channelCopies = []) (hlinks : s.links.any Link.retraining = false) : s.reportHeld d = false := by
  have hwrites : s.cores.any (fun k => k.buffer.any (fun w => w.grid = d.id)) = false := by
    simp only [List.any_eq_false, decide_eq_true_eq, Bool.not_eq_true]
    exact fun k hk w hw => (hcores k hk).1 w hw
  have hreqs : s.teams.any (fun t => t.grid = d.id && s.copying t.id) = false := by
    simp only [State.copying, List.any_eq_false, Bool.and_eq_true, List.any_eq_true, decide_eq_true_eq, not_and, not_exists]
    exact fun tm htm hgrid k hk r hr hteam => (hcores k hk).2 r hr tm htm hteam hgrid
  unfold State.reportHeld
  rw [hwrites, hreqs]
  cases d.launcher with
  | program g n w => rfl
  | hostQueue ctx queue n =>
    simp only [State.placesHeld_of_noCopy hcopies, State.rangeHeld_of_noCopy hcopies hlinks]
    split <;> rfl

/-- A grid is reported to what launched it. -/
def State.reported (s : State) (d : Grid) : State :=
  match d.launcher with
  | .program _ _ _ => s
  | .hostQueue ctx queue n =>
    match s.context? ctx, s.queue? ctx queue with
    | some c, some q => s.writeDone c q n d.status
    | _, _ => s

theorem exec_gridCompletion_of_done (hd : s.grid? d.id = some d) (hdone : d.completed = true) (hheld : s.reportHeld d = false) :
    exec (.gridCompletion d.id) s =
      .next { s.reported d with grids := (s.reported d).grids.filter (fun e => e.id ≠ d.id) } := by
  change execGridCompletion d.id s = _
  simp only [execGridCompletion, hd, hdone, hheld, Bool.not_false, Bool.and_self, if_true]
  rfl

/-- Without a DONE_ADDR the report is the entry's STATUS alone (Table 23.4). -/
theorem State.writeDone_of_noAddress {c : Context} {q : Queue} {n : Nat} (status : Nat)
    (h : bits (s.physValue (q.entryAt n + 128) 128) 55 0 = 0) :
    s.writeDone c q n status = s.writeBytes (q.entryAt n + 148) (leBytes 4 status) := by
  have hbase : ((s.writeBytes (q.entryAt n + 148) (leBytes 4 status)).doneWord q n).base = 0 := by
    unfold State.doneWord
    rw [State.bits_physValue_address] at h ⊢
    rw [s.readPhys_writeBytes_before _ (by omega), h]
    rfl
  unfold State.writeDone
  simp only [hbase, if_true]

end

/-! ### Records and rings -/

theorem exec_drawRecord {s : State} {die ctx queue n : Nat} {q : Queue} {d : Grid} (hq : s.queue? ctx queue = some q)
    (hdie : die < 4) (hheld : s.recordsHeld die = false) (hfirst : firstRecord (s.recordsTo ctx q die) = some (n, d)) :
    exec (.drawRecord die ctx queue) s = .next ((if d.completed then s else s.pushDraw d die).mapQueue ctx queue (fun k =>
      { k with dieSeq := setNth k.dieSeq die (n + 1) })) := by
  change execDrawRecord die ctx queue s = _
  simp only [execDrawRecord, hq, hdie, hheld, hfirst, Bool.not_false, and_self, if_true]

theorem State.context?_id {s : State} {n : Nat} {c : Context} (h : s.context? n = some c) : c.id = n :=
  of_decide_eq_true (List.find?_some (p := fun x : Context => decide (x.id = n)) h)

/-- A context that is replaced is the one found. -/
theorem State.context?_setContext_self {s : State} {c c' : Context} (h : s.context? c'.id = some c) :
    (s.setContext c').context? c'.id = some c' := by
  unfold State.context? State.setContext at *
  revert h
  induction s.contexts with
  | nil => exact fun h => nomatch h
  | cons x l ih =>
    intro h
    by_cases hx : x.id = c'.id
    · rw [List.map_cons, if_pos hx, List.find?_cons_of_pos (by simp)]
    · rw [List.find?_cons_of_neg (by simpa using hx)] at h
      rw [List.map_cons, if_neg hx, List.find?_cons_of_neg (by simpa using hx)]
      exact ih h

/-- The ring of a queue of a context (R329): empty, with the records of every die from the first. -/
def Context.ring (c : Context) (spec : QueueSpec) : Queue :=
  { (c.queues.find? (fun q => q.id = spec.queue)).getD { id := spec.queue } with
    host := true, base := spec.base, size := spec.size, ordered := spec.ordered, tail := 0, next := 0, dieSeq := [0, 0, 0, 0] }

theorem Context.ring_id (c : Context) (spec : QueueSpec) : (c.ring spec).id = spec.queue := by
  show ((c.queues.find? (fun q => q.id = spec.queue)).getD { id := spec.queue }).id = spec.queue
  cases h : c.queues.find? (fun q => q.id = spec.queue) with
  | none => rfl
  | some q => exact of_decide_eq_true (List.find?_some (p := fun q : Queue => decide (q.id = spec.queue)) h)

/-- A context with a queue's ring created. -/
def Context.withRing (c : Context) (spec : QueueSpec) : Context :=
  { c with queues := c.queues.filter (fun x => x.id ≠ spec.queue) ++ [c.ring spec] }

theorem ringSizeOk_iff (n : Nat) : ringSizeOk n = true ↔ 16 ≤ n ∧ n ≤ 65536 ∧ n = 2 ^ Nat.log2 n := by
  simp [ringSizeOk, and_assoc]

theorem exec_queueCreate {s : State} {spec : QueueSpec} {c : Context} (hc : s.context? spec.ctxid = some c) :
    exec (.queueCreate spec) s =
      if 16 ≤ spec.size ∧ spec.size ≤ 65536 ∧ spec.size = 2 ^ Nat.log2 spec.size ∧ spec.queue ≤ 63 then
        .next (s.setContext (c.withRing spec))
      else .next s := by
  have hlegal : (ringSizeOk spec.size && decide (spec.queue ≤ 63)) = true ↔
      16 ≤ spec.size ∧ spec.size ≤ 65536 ∧ spec.size = 2 ^ Nat.log2 spec.size ∧ spec.queue ≤ 63 := by
    rw [Bool.and_eq_true, ringSizeOk_iff, decide_eq_true_eq, and_assoc, and_assoc]
  change execQueueCreate spec s = _
  simp only [execQueueCreate, hc, hlegal]
  rfl

/-- Settles O50: a doorbell, a report, a record and a ring each by their conditions; the STATUS that a report writes stands behind
DONE_ADDR (`State.writeDone_of_noAddress`). -/
theorem hostQueuesLaunchAndReport : Obligations.HostQueuesLaunchAndReport := by
  refine ⟨fun s ctx queue tail c q hc hq => ⟨exec_doorbell_of_free hc hq, fun h => exec_doorbell_of_idle hc hq ?_⟩,
    fun s d hd => ⟨exec_gridCompletion_of_waiting hd, fun ⟨k, hk, w, hw, h⟩ => State.reportHeld_of_write hk hw h,
      fun ⟨k, hk, r, hr, tm, htm, hteam, h⟩ => State.reportHeld_of_copy hk hr htm hteam h, State.reportHeld_of_performed,
      fun g n w hdone hheld hl => ?_, fun ctx queue n c q hdone hheld hl hc hq => ?_⟩,
    fun s die ctx queue n q d => exec_drawRecord, fun s spec c hc => ?_⟩
  case refine_1 =>
    refine h.imp_right (Or.imp_right fun ⟨i, hi, hheld⟩ hfree => ?_)
    exact Bool.false_ne_true ((hfree i hi).symm.trans hheld)
  case refine_2 =>
    have hreport : s.reported d = s := by simp only [State.reported, hl]
    rw [exec_gridCompletion_of_done hd hdone hheld, hreport]
  case refine_3 =>
    intro entry s' hnone
    have hreport : s.reported d = s' := by
      simp only [State.reported, hl, hc, hq]
      exact State.writeDone_of_noAddress d.status hnone
    rw [exec_gridCompletion_of_done hd hdone hheld, hreport]
  case refine_4 =>
    intro legal
    refine ⟨fun h => (exec_queueCreate hc).trans (if_neg h), fun h => ⟨_, c.withRing spec, (exec_queueCreate hc).trans (if_pos h), ?_,
      c.ring spec, List.mem_append_right _ (List.mem_singleton_self _), c.ring_id spec, rfl, rfl, rfl, rfl, rfl, rfl⟩⟩
    have hid := State.context?_id hc
    rw [← hid] at hc ⊢
    exact State.context?_setContext_self hc

end Sys2Proof.Machine
end

section
/-! The copy engine (O42): the fetch of a list, the pieces of a request, its completion, and periods of budgets (R235 to R242). -/
namespace Sys2Proof.Machine

/-! ### The fetch of a list (R237, R241) -/

/-- The fault that the fetch of a list meets, in the first executing lane, at a place of it. -/
def State.listFault (s : State) (g : Group) (p : Pend) (cs : Cause) (sub : Byte) (place : Nat) : State :=
  s.faultPend g p { cause := cs, sub := sub, fmask := maskFrom [lowestLane p.lmask], faddr := BitVec.ofNat 64 place }

/-- The requests of a list of n at an offset of the window (R236). -/
def State.listRequests (s : State) (g : Group) (p : Pend) (tm : Team) (c : Context) (off n : Nat) : List CopyReq :=
  (upto n).map (fun i =>
    let x : BitVec 512 := BitVec.ofNat 512 (leValue (s.scratchRead tm (off + 64 * i) 64))
    { id := s.fresh + i, ctx := c.id, grid := g.grid, team := tm.id, group := g.id, half := p.half, offset := off + 64 * i,
      bits := x, src := (c.slot (bits x.toNat 15 0)).1, dst := (c.slot (bits x.toNat 63 48)).1,
      gaps := [(0, (bits x.toNat 143 128 + 1) * (bits x.toNat 159 144 + 1) * bits x.toNat 127 96)] })

/-- What becomes of a list that is read: its first fate (R241), or its requests in the core's engine. -/
def State.listRead (s : State) (g : Group) (p : Pend) (tm : Team) (c : Context) (off n : Nat) : Result :=
  match kickFate c tm 0 (s.listRequests g p tm c off n) with
  | some (cs, i) => .next (s.listFault g p cs 0 i)
  | none => .next (({ s.setCore g.core { s.coreAt g.core with
      copies := (s.coreAt g.core).copies ++ s.listRequests g p tm c off n } with fresh := s.fresh + n } :
        State).completePend g.id p.id)

section
variable {s : State} {g : Group} {p : Pend} {tm : Team} {c : Context} {u : Bool} {a b : Src}
  (hg : s.group? g.id = some g) (hp : g.pend? p.id = some p) (hst : p.status = .inFlight) (htm : s.team? g.team = some tm)
  (hc : s.contextOf g = some c) (hi : p.instr = .ckick u a b) (hturn : g.mayPerform p = true)
include hg hp hst htm hc hi hturn

/-- The fetch of a list, by the checks of R237 in their order. -/
theorem exec_copyRequestFetch {off n : Nat} (hoff : (p.opc g 0).toNat = off) (hn : (p.opc g 1).toNat = n) :
    exec (.copyRequestFetch g.id p.id) s =
      if off % 64 ≠ 0 then .next (s.listFault g p .misalign 0 off)
      else if n = 0 ∨ 64 < n ∨ tm.scratchSize < off + 64 * n then .next (s.listFault g p .bounds 0 off)
      else if tm.poisoned off (64 * n) then .next (s.listFault g p .poison 0xFF off)
      else s.listRead g p tm c off n := by
  have hact : p.active = true := decide_eq_true hst
  change execCopyRequestFetch g.id p.id s = _
  simp only [execCopyRequestFetch, hg, hp, hi, htm, hc, hact, hturn, hoff, hn, Bool.not_true, Bool.or_self, Bool.false_eq_true,
    if_false]
  rfl

end

/-! ### Pieces and completion (R238, R239) -/

section
variable {s : State} {core req : Nat} {r : CopyReq} {c : Context} {tm : Team} (hr : s.copyReq? core req = some r)
  (hc : s.context? r.ctx = some c) (htm : s.team? r.team = some tm)
include hr hc htm

theorem exec_copyRequestPerform : exec (.copyRequestPerform core req) s =
    if r.delivered || r.service.isSome || (s.copyHeld core req && Config.freeNat s.freeCount % 2 = 1) then
      .next (s.nextFree.drainCopy core req)
    else .next (s.nextFree.copyPiece core c tm r) := by
  change execCopyRequestPerform core req s = _
  simp only [execCopyRequestPerform, hr, hc, htm]

/-- A request that is not performed at its scope does not complete. -/
theorem exec_copyCompletion_of_held (part : Nat) (h : s.copyPerformed core r = false) :
    exec (.copyCompletion core req part) s = .next s := by
  change execCopyCompletion core req part s = _
  simp only [execCopyCompletion, hr, hc, htm, h, Bool.not_false, Bool.true_or, if_true]

section
variable (part : Nat) (hperf : s.copyPerformed core r = true) (hserv : r.service = none)
include hperf hserv

/-- The map update comes before the rest (R239). -/
theorem exec_copyCompletion_of_map (hmap : r.map = true) (hdone : r.mapDone = false) :
    exec (.copyCompletion core req part) s = .next (s.mapUpdate core c r) := by
  change execCopyCompletion core req part s = _
  simp only [execCopyCompletion, hr, hc, htm, hperf, hserv, hmap, hdone, Option.isSome_none, Bool.not_true, Bool.or_self,
    Bool.false_eq_true, Bool.not_false, Bool.and_self, if_false, if_true]

variable (hmap : (r.map && !r.mapDone) = false)
include hmap

/-- A request with a signal word stores it. -/
theorem exec_copyCompletion_of_signal (hsig : r.signals = true) (hroom : s.engineTcopy tm r.sigOff 4 = none) :
    exec (.copyCompletion core req part) s =
      .next ((s.scratchWrite tm.id r.sigOff (leBytes 4 (r.f 351 320))).dropCopyReq core r) := by
  change execCopyCompletion core req part s = _
  simp only [execCopyCompletion, hr, hc, htm, hperf, hserv, hmap, hsig, hroom, Option.isSome_none, Bool.not_true, Bool.or_self,
    Bool.false_and, Bool.false_eq_true, if_false, if_true]

variable (hsig : r.signals = false) (hroom : s.engineTcopy tm r.sigOff 12 = none)
include hsig hroom

/-- A poisoned barrier object stops the request (R310, R346). -/
theorem exec_copyCompletion_of_poison (hpoison : tm.poisoned r.sigOff 12 = true) : exec (.copyCompletion core req part) s =
    .next (s.stopCopy core r { cause := .poison, sub := 0xFF, faddr := BitVec.ofNat 64 r.sigOff }) := by
  change execCopyCompletion core req part s = _
  simp only [execCopyCompletion, hr, hc, htm, hperf, hserv, hmap, hsig, hroom, hpoison, Option.isSome_none, Bool.not_true,
    Bool.or_self, Bool.false_eq_true, Bool.not_false, Bool.and_self, if_false, if_true]

/-- A part of the count; with the last one the request leaves its engine. -/
theorem exec_copyCompletion_of_count (hclean : tm.poisoned r.sigOff 12 = false) :
    let left := r.dstBytes r.total - r.counted
    let n := min (max part 1) left
    let s' := s.scratchWrite tm.id r.sigOff (leBytes 12 (countDown (leValue (s.scratchRead tm r.sigOff 12)) n))
    exec (.copyCompletion core req part) s =
      .next (if n = left then s'.dropCopyReq core r else s'.setCopyReq core { r with counted := r.counted + n }) := by
  intro left n s'
  rw [apply_ite Host.Outcome.next]
  change execCopyCompletion core req part s = _
  simp only [execCopyCompletion, hr, hc, htm, hperf, hserv, hmap, hsig, hroom, hclean, Option.isSome_none, Bool.not_true,
    Bool.or_self, Bool.and_false, Bool.false_eq_true, if_false]
  rfl

end
end

theorem State.copyReq?_id {s : State} {core req : Nat} {r : CopyReq} (h : s.copyReq? core req = some r) : r.id = req :=
  of_decide_eq_true (List.find?_some (p := fun r : CopyReq => decide (r.id = req)) h)

/-- A delivered request is performed at core scope, and at a wider one where none of it is on its way (R240). -/
theorem State.copyPerformed_iff {s : State} {core : Nat} {r : CopyReq} (h : r.delivered = true) :
    s.copyPerformed core r = true ↔ r.scope = 3 ∨ s.copyHeld core r.id = false := by
  simp [State.copyPerformed, h]

/-- Settles O42: the fetch by its checks in order, a piece by what the request has delivered and still holds, the completion by
what stands before its last step. -/
theorem copyRequestsArePerformed : Obligations.CopyRequestsArePerformed := by
  refine ⟨fun s g p tm c u a b hg hp hst htm hc hi hturn => ?_, fun s core req part r c tm hr hc htm hserv => ?_,
    fun s => rfl⟩
  case refine_1 =>
    intro i off n fault
    have hfetch := exec_copyRequestFetch hg hp hst htm hc hi hturn (off := off) (n := n) rfl rfl
    refine ⟨fun h => hfetch.trans (if_pos h), fun h hlen => hfetch.trans ((if_neg (not_not.mpr h)).trans (if_pos hlen)),
      fun h hn hmax hfits hpoison => hfetch.trans ?_, fun h hn hmax hfits hclean => ?_⟩
    · exact (if_neg (not_not.mpr h)).trans ((if_neg (by omega)).trans (if_pos hpoison))
    · intro reqs hfate
      have hfate : kickFate c tm 0 (s.listRequests g p tm c off n) = none := hfate
      rw [hfetch, if_neg (not_not.mpr h), if_neg (by omega), if_neg (by rw [hclean]; exact Bool.false_ne_true)]
      simp only [State.listRead, hfate]
      rfl
  case refine_2 =>
    have hperform := exec_copyRequestPerform hr hc htm
    obtain rfl := State.copyReq?_id hr
    refine ⟨fun hdel hheld => ?_, fun hdel hheld => ?_, fun hdel => ?_, ?_⟩
    · rw [hperform, hdel, hserv, hheld]
      rfl
    · rw [hperform]
      split
      · exact .inr rfl
      · exact .inl rfl
    · rw [hperform, hdel]
      rfl
    · intro ended
      have hended : r.delivered = true → ended → s.copyPerformed core r = true := fun h => (State.copyPerformed_iff h).mpr
      have hmap : r.map = false ∨ r.mapDone = true → (r.map && !r.mapDone) = false := by
        rintro (h | h) <;> simp [h]
      refine ⟨fun hdel hnot => exec_copyCompletion_of_held hr hc htm part ?_,
        fun hdel he => exec_copyCompletion_of_map hr hc htm part (hended hdel he) hserv,
        fun hdel he hm => exec_copyCompletion_of_signal hr hc htm part (hended hdel he) hserv (hmap hm),
        fun hdel he hm => exec_copyCompletion_of_poison hr hc htm part (hended hdel he) hserv (hmap hm),
        fun hdel he hm => exec_copyCompletion_of_count hr hc htm part (hended hdel he) hserv (hmap hm)⟩
      exact Bool.eq_false_of_not_eq_true fun h => hnot ((State.copyPerformed_iff hdel).mp h)

end Sys2Proof.Machine
end

section
/-! The composer's optimisations and its passes (R289, R294 to R296): what a write of the optimiser leaves, Listing 19.3 from
Listing 19.2, and the fold of a word. Under O41. -/
namespace Sys2Proof.Machine

/-! ### Writes of an optimisation -/

/-- What a write of a yealm makes of memory rests on memory alone. -/
theorem State.writeYealm_mem_congr {s t : State} (h : t.mem = s.mem) (runs : List Run) (off : Nat) (b : List Byte) :
    (t.writeYealm runs off b).mem = (s.writeYealm runs off b).mem := by
  simp only [State.writeYealm, State.writePhys_mem, h]

theorem State.writeYealm_dies (s : State) (runs : List Run) (off : Nat) (b : List Byte) :
    (s.writeYealm runs off b).dies = s.dies := rfl

theorem State.dieAt_setDie_self {s : State} {die : Nat} (h : die < s.dies.length) (d : Die) :
    (s.setDie die d).dieAt die = d := by
  rw [State.dieAt_setDie, if_pos ⟨rfl, h⟩]

/-- A charge is entered in budgets alone. -/
theorem State.charge_keeps (s : State) (ctx : Nat) (l : List (Resource × Nat)) :
    (s.charge ctx l).mem = s.mem ∧ (s.charge ctx l).dies = s.dies ∧ (s.charge ctx l).yealms = s.yealms := by
  unfold State.charge
  split
  · exact ⟨rfl, rfl, rfl⟩
  · split <;> exact ⟨rfl, rfl, rfl⟩

/-- The optimisation of a die's composer has made these writes of its yealm, and the die's queue is as given. -/
structure State.Optimised (s t : State) (die : Nat) (j : OptJob) (queue : List OptJob) (l : List (Nat × List Byte)) : Prop where
  mem : t.mem = (l.foldl (fun s e => s.writeYealm j.runs e.1 e.2) s).mem
  queue : (t.dieAt die).optQueue = queue

/-- A step that makes these writes, as the instruction that makes it. -/
theorem State.Optimised.of_exec {s t : State} {die : Nat} {j : OptJob} {queue : List OptJob} {l : List (Nat × List Byte)}
    {i : Instr} (h : s.Optimised t die j queue l) (he : exec i s = .next t) : ∃ t, exec i s = .next t ∧
      t.mem = (l.foldl (fun s e => s.writeYealm j.runs e.1 e.2) s).mem ∧ (t.dieAt die).optQueue = queue :=
  ⟨t, he, h.mem, h.queue⟩

section
variable {s u : State} {die : Nat} {j : OptJob} {rest : List OptJob} (hlen : die < s.dies.length)
include hlen

theorem State.optimised_endOptimise (hmem : u.mem = s.mem) (hdies : u.dies = s.dies) (stat : Nat) :
    s.Optimised (u.endOptimise die j rest stat) die j rest [(12, leBytes 4 stat)] where
  mem := State.writeYealm_mem_congr hmem ..
  queue := by
    show ((u.setDie die { u.dieAt die with optQueue := rest }).dieAt die).optQueue = rest
    rw [State.dieAt_setDie_self (hdies ▸ hlen)]

variable {y : Yealm} {body : YealmBody} (hmem : u.mem = s.mem) (hdies : u.dies = s.dies)
include hmem hdies

/-- What one step of an optimisation writes, and what stays queued (R289). -/
theorem State.optimised_optimise :
    let past := body.off + 4 * body.words.length
    let goes := fun (l : List (Nat × List Byte)) =>
      s.Optimised (u.optimise die j rest y body) die j ({ j with step := j.step + 1 } :: rest) l
    (j.step = 0 → past ≤ j.outLen → goes [(body.off, wordBytes body.words)]) ∧
    (j.step = 0 → j.outLen < past → s.Optimised (u.optimise die j rest y body) die j rest [(12, leBytes 4 5)]) ∧
    (j.step = 1 → goes [(4, leBytes 4 (encode (.bra (BitVec.ofNat 24 ((body.off - 4) / 4)))).toNat)]) ∧
    (j.step = 2 → goes [(20, leBytes 4 body.off), (28, leBytes 4 past)]) ∧
    (3 ≤ j.step → s.Optimised (u.optimise die j rest y body) die j rest [(12, leBytes 4 1)]) := by
  dsimp only
  have hlen' : die < u.dies.length := hdies ▸ hlen
  refine ⟨fun h0 hfits => ?_, fun h0 hpast => ?_, fun h1 => ?_, fun h2 => ?_, fun h3 => ?_⟩
  · unfold State.optimise
    rw [h0]
    dsimp only
    rw [if_neg (by omega)]
    exact ⟨State.writeYealm_mem_congr hmem .., congrArg Die.optQueue (State.dieAt_setDie_self hlen' _)⟩
  · unfold State.optimise
    rw [h0]
    dsimp only
    rw [if_pos hpast]
    exact State.optimised_endOptimise hlen hmem hdies 5
  · unfold State.optimise
    rw [h1]
    exact ⟨State.writeYealm_mem_congr hmem .., congrArg Die.optQueue (State.dieAt_setDie_self hlen' _)⟩
  · unfold State.optimise
    rw [h2]
    exact ⟨State.writeYealm_mem_congr (State.writeYealm_mem_congr hmem ..) ..,
      congrArg Die.optQueue (State.dieAt_setDie_self hlen' _)⟩
  · obtain ⟨n, hn⟩ : ∃ n, j.step = n + 3 := ⟨j.step - 3, by omega⟩
    unfold State.optimise
    rw [hn]
    exact State.optimised_endOptimise hlen hmem hdies 1

end

/-- The first step of an optimisation that fits records the composed body with its yealm. -/
theorem State.optimise_records {s : State} {die : Nat} {j : OptJob} {rest : List OptJob} {y : Yealm} {body : YealmBody}
    (h0 : j.step = 0) (hfits : body.off + 4 * body.words.length ≤ j.outLen) (hy : y ∈ s.yealms) :
    ∃ z ∈ (s.optimise die j rest y body).yealms, z.id = y.id ∧ z.comp = some body := by
  refine ⟨{ y with comp := some body }, ?_, rfl, rfl⟩
  unfold State.optimise
  rw [h0]
  dsimp only
  rw [if_neg (by omega)]
  exact List.mem_map.mpr ⟨y, hy, if_pos rfl⟩

section
variable {s : State} {die : Nat} {j : OptJob} {rest : List OptJob} {y : Yealm} (hqueue : (s.dieAt die).optQueue = j :: rest)
include hqueue

section
variable (hy : s.yealms.find? (fun y => y.id = j.yealm) = some y) (hheld : s.dieHeld die = false)
  (hspent : ∀ c ∈ s.contexts, c.id = j.ctx → c.spentOut (.composer die) = false)
include hy hheld hspent

/-- An optimisation whose passes leave a body goes on by a step. -/
theorem exec_composeOptimise_of_body {body : YealmBody}
    (hbody : composedBody y (composeSeed y.vs y.fs y.frags) = some body) : exec (.composeOptimise die) s =
      .next ((if j.step = 0 then s.charge j.ctx [(.composer die, 4 * body.words.length)] else s).optimise die j rest y body) := by
  have hfree : (s.contexts.any fun c => decide (c.id = j.ctx) && c.spentOut (.composer die)) = false := by
    simpa using hspent
  show execComposeOptimise die s = _
  unfold execComposeOptimise
  rw [hqueue]
  simp only [hheld, hfree, hy, hbody, Bool.or_false, Bool.false_eq_true, if_false]

/-- One whose passes leave none ends. -/
theorem exec_composeOptimise_of_noBody (hbody : composedBody y (composeSeed y.vs y.fs y.frags) = none) :
    exec (.composeOptimise die) s = .next (s.endOptimise die j rest 2) := by
  have hfree : (s.contexts.any fun c => decide (c.id = j.ctx) && c.spentOut (.composer die)) = false := by
    simpa using hspent
  show execComposeOptimise die s = _
  unfold execComposeOptimise
  rw [hqueue]
  simp only [hheld, hfree, hy, hbody, Bool.or_false, Bool.false_eq_true, if_false]

end

/-- The bound ends an optimisation that has not begun, unless it is of the request of Listing 19.1. -/
theorem exec_optimiseBoundExpiry (h0 : j.step = 0)
    (hother : ∀ z ∈ s.yealms, z.id = j.yealm → isListing z.vs z.fs z.frags = false) :
    exec (.optimiseBoundExpiry die) s = .next (s.endOptimise die j rest 2) := by
  have hsure : (s.yealms.any fun y => decide (y.id = j.yealm) && isListing y.vs y.fs y.frags) = false := by
    simpa using hother
  show execOptimiseBoundExpiry die s = _
  unfold execOptimiseBoundExpiry
  rw [hqueue]
  simp only [h0, hsure, decide_true, Bool.not_false, Bool.and_self, if_true]

end

/-! ### What the passes make of a word and of vs_col (R295, R296) -/

/-- The code of vs_col keeps no word but its return: it reads no state reference, so that no fragment changes it. -/
theorem composedVertex_listing (f : Fragments) : composedVertex f listingVs (keptSlots listingVs listingFs) =
    ([.clauseStart 0 none none 1, .mode 0x0000, .ret] : List Instr).map encode := by
  have hsame : composedVertex f listingVs (keptSlots listingVs listingFs) =
      composedVertex {} listingVs (keptSlots listingVs listingFs) := rfl
  rw [hsame]
  decide +kernel

/-- A word that is known to give no value stays as it is. -/
theorem foldWord_of_unknown {k : Known} {w : Word} (h : ∀ i, decoded w = some i → k.eval i = none) : foldWord k w = [w] := by
  unfold foldWord
  split
  · rfl
  · next i hi =>
    have hnone := h i hi
    split
    · rfl
    · rfl
    · rw [hnone]

end Sys2Proof.Machine
end

section
/-! The loft and its loads (R243, R249): regions read and written, columns of values aligned, and what MLOADB leaves of every
region. Under O41. -/
namespace Sys2Proof.Machine

/-! ### Lists over positions -/

@[simp] theorem nth_map_upto {α : Type} (f : Nat → α) (n i : Nat) (d : α) :
    nth ((upto n).map f) i d = if i < n then f i else d := by
  unfold nth upto
  by_cases h : i < n <;> simp [h]

theorem map_nth_upto {α : Type} (l : List α) (d : α) {n : Nat} (hl : l.length = n) :
    (upto n).map (fun i => nth l i d) = l := by
  refine List.ext_getElem (by simp [upto, hl]) fun i hi hi' => ?_
  simp [upto, nth, hi']

/-! ### Aligned groups (R56) -/

/-- The exponent of a nonzero finite value's leading bit. -/
def FVal.top : FVal → Option Int
  | .fin _ m e => if m = 0 then none else some (e + (Nat.log2 m : Int))
  | .inf _ => none
  | .nan _ => none

/-- A value aligned to an exponent, with w magnitude bits. -/
def FVal.aligned (w : Nat) (top : Int) : FVal → Int
  | .fin n m e =>
    let sh := e + (w - 1 : Int) - top
    sgn n (if 0 ≤ sh then m * 2 ^ sh.toNat else m / 2 ^ (-sh).toNat)
  | .nan _ => 0
  | .inf _ => 0

theorem FVal.top_eq_some {v : FVal} {t : Int} :
    v.top = some t ↔ ∃ n m e, v = .fin n m e ∧ m ≠ 0 ∧ e + (Nat.log2 m : Int) = t := by
  cases v with
  | nan s => simp [FVal.top]
  | inf n => simp [FVal.top]
  | fin n m e => simp [FVal.top]

theorem dotAlign_snd (w : Nat) (l : List FVal) : (dotAlign w l).2 = l.map (FVal.aligned w (dotAlign w l).1) := by
  unfold dotAlign
  refine List.map_congr_left fun v _ => ?_
  cases v <;> rfl

/-- One value's part in the exponent of its group. -/
def topStep (acc : Option Int) (v : FVal) : Option Int :=
  match v.top, acc with
  | none, acc => acc
  | some t, none => some t
  | some t, some u => some (max t u)

theorem foldl_topStep (l : List FVal) (acc : Option Int) :
    l.foldl topStep acc = (acc.toList ++ l.filterMap FVal.top).max? := by
  induction l generalizing acc with
  | nil => cases acc <;> rfl
  | cons v l ih =>
    rw [List.foldl_cons, ih, List.filterMap_cons]
    unfold topStep
    cases v.top with
    | none => rfl
    | some t =>
      cases acc with
      | none => rfl
      | some u =>
        simp only [Option.toList_some, List.cons_append, List.nil_append, List.max?_cons, Option.elim_some]
        cases (l.filterMap FVal.top).max? with
        | none => exact congrArg some (max_comm t u)
        | some a => exact congrArg some ((max_assoc t u a).trans (max_left_comm t u a))

/-- The exponent of a group is the greatest of its nonzero values'. -/
theorem dotAlign_fst (w : Nat) (l : List FVal) : (dotAlign w l).1 = ((l.filterMap FVal.top).max?).getD 0 := by
  have hstep : (dotAlign w l).1 = (l.foldl topStep none).getD 0 := by
    unfold dotAlign
    dsimp only
    congr 2
    funext acc v
    cases v with
    | nan s => rfl
    | inf n => rfl
    | fin n m e =>
      by_cases hm : m = 0
      · simp [topStep, FVal.top, hm]
      · cases acc <;> simp [topStep, FVal.top, hm]
  rw [hstep, foldl_topStep]
  rfl

theorem le_dotAlign_fst (w : Nat) {l : List FVal} {v : FVal} (hv : v ∈ l) {t : Int} (ht : v.top = some t) :
    t ≤ (dotAlign w l).1 := by
  have hmem : t ∈ l.filterMap FVal.top := List.mem_filterMap.mpr ⟨v, hv, ht⟩
  rw [dotAlign_fst]
  cases hmax : (l.filterMap FVal.top).max? with
  | none => rw [List.max?_eq_none_iff.mp hmax] at hmem; exact absurd hmem List.not_mem_nil
  | some a => exact (List.max?_eq_some_iff.mp hmax).2 t hmem

theorem dotAlign_fst_mem (w : Nat) {l : List FVal} {v : FVal} (hv : v ∈ l) {t : Int} (ht : v.top = some t) :
    ∃ u ∈ l, u.top = some (dotAlign w l).1 := by
  have hmem : t ∈ l.filterMap FVal.top := List.mem_filterMap.mpr ⟨v, hv, ht⟩
  rw [dotAlign_fst]
  cases hmax : (l.filterMap FVal.top).max? with
  | none => rw [List.max?_eq_none_iff.mp hmax] at hmem; exact absurd hmem List.not_mem_nil
  | some a => exact List.mem_filterMap.mp (List.max?_eq_some_iff.mp hmax).1

/-- The exponent of a column of 32 values: no nonzero finite value exceeds it, and one attains it. -/
theorem dotAlign_column (w : Nat) (col : Nat → FVal) :
    (∀ i n v e, i < 32 → col i = .fin n v e → v ≠ 0 → e + (Nat.log2 v : Int) ≤ (dotAlign w ((upto 32).map col)).1) ∧
    ((∃ i n v e, i < 32 ∧ col i = .fin n v e ∧ v ≠ 0) →
      ∃ i n v e, i < 32 ∧ col i = .fin n v e ∧ v ≠ 0 ∧ e + (Nat.log2 v : Int) = (dotAlign w ((upto 32).map col)).1) := by
  have hmem : ∀ i, i < 32 → col i ∈ (upto 32).map col := fun i hi => List.mem_map_of_mem (List.mem_range.mpr hi)
  have htop : ∀ {i n v e}, col i = .fin n v e → v ≠ 0 → (col i).top = some (e + (Nat.log2 v : Int)) :=
    fun hcol hv => FVal.top_eq_some.mpr ⟨_, _, _, hcol, hv, rfl⟩
  refine ⟨fun i n v e hi hcol hv => le_dotAlign_fst w (hmem i hi) (htop hcol hv), ?_⟩
  rintro ⟨i, n, v, e, hi, hcol, hv⟩
  obtain ⟨u, hu, hattained⟩ := dotAlign_fst_mem w (hmem i hi) (htop hcol hv)
  obtain ⟨i', hi', rfl⟩ := List.mem_map.mp hu
  obtain ⟨n', v', e', hcol', hv', he'⟩ := FVal.top_eq_some.mp hattained
  exact ⟨i', n', v', e', List.mem_range.mp hi', hcol', hv', he'⟩

/-! ### Regions -/

theorem Team.region_setRegion (t : Team) (r : LoftRegion) (plane k n : Nat) :
    (t.setRegion r).region plane k n = if r.plane = plane ∧ r.k = k ∧ r.n = n then r else t.region plane k n := by
  unfold Team.region Team.setRegion
  dsimp only
  by_cases h : r.plane = plane ∧ r.k = k ∧ r.n = n
  · rw [if_pos h, List.find?_cons_of_pos (by simpa [and_assoc] using h)]
    rfl
  · rw [if_neg h, List.find?_cons_of_neg (by simpa [and_assoc] using h), List.find?_filter]
    congr 2
    funext q
    by_cases hq : q.plane = plane ∧ q.k = k ∧ q.n = n
    · obtain ⟨rfl, rfl, rfl⟩ := hq
      have hne : (decide (q.plane = r.plane) && decide (q.k = r.k) && decide (q.n = r.n)) = false := by
        rw [Bool.eq_false_iff]
        intro e
        simp only [Bool.and_eq_true, decide_eq_true_eq] at e
        exact h ⟨e.1.1.symm, e.1.2.symm, e.2.symm⟩
      simp [hne]
    · have hfalse : (decide (q.plane = plane) && decide (q.k = k) && decide (q.n = n)) = false := by
        simpa [and_assoc] using hq
      simp [hfalse]

/-- Regions written one after another: each place reads as the region written there, where the list gives no two for it. -/
theorem Team.region_foldl_setRegion {ι : Type} (f : ι → LoftRegion) (plane k n : Nat) (l : List ι) (t : Team) :
    ((∀ i ∈ l, ¬ ((f i).plane = plane ∧ (f i).k = k ∧ (f i).n = n)) →
      (l.foldl (fun u i => u.setRegion (f i)) t).region plane k n = t.region plane k n) ∧
    ∀ r, (∃ i ∈ l, (f i).plane = plane ∧ (f i).k = k ∧ (f i).n = n) →
      (∀ i ∈ l, (f i).plane = plane ∧ (f i).k = k ∧ (f i).n = n → f i = r) →
      (l.foldl (fun u i => u.setRegion (f i)) t).region plane k n = r := by
  induction l generalizing t with
  | nil => exact ⟨fun _ => rfl, fun r h => by simp at h⟩
  | cons i l ih =>
    obtain ⟨hkeep, hget⟩ := ih (t.setRegion (f i))
    refine ⟨fun h => ?_, fun r hex hall => ?_⟩
    · rw [List.foldl_cons, hkeep fun j hj => h j (List.mem_cons_of_mem _ hj), Team.region_setRegion,
        if_neg (h i List.mem_cons_self)]
    · rw [List.foldl_cons]
      by_cases hlater : ∃ j ∈ l, (f j).plane = plane ∧ (f j).k = k ∧ (f j).n = n
      · exact hget r hlater fun j hj => hall j (List.mem_cons_of_mem _ hj)
      · have hhere : (f i).plane = plane ∧ (f i).k = k ∧ (f i).n = n := by
          obtain ⟨j, hj, he⟩ := hex
          rcases List.mem_cons.mp hj with rfl | hj
          · exact he
          · exact absurd ⟨j, hj, he⟩ hlater
        rw [hkeep fun j hj he => hlater ⟨j, hj, he⟩, Team.region_setRegion, if_pos hhere, hall i List.mem_cons_self hhere]

/-! ### A region loaded -/

section
variable (plane k n : Nat) (integer : Bool) (col : Nat → Nat → FVal)

/-- The region of 32 columns of 32 values. -/
def columnsRegion : LoftRegion :=
  loadRegion plane k n integer ((upto 32).map (fun j => (upto 32).map (col j)))

variable {j : Nat} (hj : j < 32)
include hj

theorem columnsRegion_eb : nth (columnsRegion plane k n false col).eb j 0 = (dotAlign 8 ((upto 32).map (col j))).1 := by
  unfold columnsRegion loadRegion
  simp only [List.map_map, nth_map_upto, if_pos hj, Function.comp_apply, Bool.false_eq_true, if_false]

theorem columnsRegion_exceptional : nth (columnsRegion plane k n integer col).exceptional j false =
    (!integer && (upto 32).any (fun i => (col j i).special)) := by
  unfold columnsRegion loadRegion
  simp only [List.map_map, nth_map_upto, if_pos hj, Function.comp_apply, List.any_map]
  rfl

variable {i : Nat} (hi : i < 32)
include hi

theorem columnsRegion_cell : nth (columnsRegion plane k n integer col).cells (32 * i + j) 0 =
    if integer then (col j i).asInt else (col j i).aligned 8 (dotAlign 8 ((upto 32).map (col j))).1 := by
  have hcol : (32 * i + j) % 32 = j := by omega
  have hrow : (32 * i + j) / 32 = i := by omega
  unfold columnsRegion loadRegion
  simp only [List.map_map, nth_map_upto, if_pos (show 32 * i + j < 1024 by omega), hcol, hrow, if_pos hj, Function.comp_apply]
  cases integer with
  | true => simp only [if_true, nth_map_upto, if_pos hi, Function.comp_apply]
  | false =>
    simp only [Bool.false_eq_true, if_false, dotAlign_snd, List.map_map, nth_map_upto, if_pos hi, Function.comp_apply]

end

/-! ### MLOADB -/

/-- The map that passes a command's checks is the one at the offset, and passes the command's own test. -/
theorem State.mapChecks_ok {s : State} {t : Team} {off : Nat} {reads : OpMap → List Nat} {ok : OpMap → Bool} {m : OpMap}
    (h : s.mapChecks t off reads ok = .ok m) : m = opMap (leValue (s.scratchRead t off 32)) ∧ ok m = true := by
  unfold State.mapChecks at h
  split at h
  · cases h
  · split at h
    · cases h
    · dsimp only at h
      split at h
      · split at h
        · cases h
        · split at h
          · cases h
          · next hok =>
            split at h
            · cases h
            · cases h
              exact ⟨rfl, by simpa using hok⟩
      · cases h

/-- The region that MLOADB loads at a pair of a region's row and column, counted from the first. -/
def State.loaded (s : State) (t : Team) (m : OpMap) (plane k0 n0 kcol : Nat) (e : Nat × Nat) : LoftRegion :=
  columnsRegion plane (k0 + e.1) (n0 + e.2) (decide (m.fmt = 6))
    (fun j i => s.mapElem t m (32 * e.2 + j) (32 * (kcol + e.1) + i))

theorem State.mapElem_setRegion (s : State) (t : Team) (r : LoftRegion) (m : OpMap) (a e : Nat) :
    s.mapElem (t.setRegion r) m a e = s.mapElem t m a e := rfl

/-- The loads of a team's regions read its scratchpad, which they leave: each loads what it would load of the first team. -/
theorem State.foldl_setRegion_loaded (s : State) (m : OpMap) (plane k0 n0 kcol : Nat) (l : List (Nat × Nat)) (t : Team) :
    l.foldl (fun u e => u.setRegion (s.loaded u m plane k0 n0 kcol e)) t =
      l.foldl (fun u e => u.setRegion (s.loaded t m plane k0 n0 kcol e)) t := by
  suffices h : ∀ u : Team, (∀ e, s.loaded u m plane k0 n0 kcol e = s.loaded t m plane k0 n0 kcol e) →
      l.foldl (fun u e => u.setRegion (s.loaded u m plane k0 n0 kcol e)) u =
        l.foldl (fun u e => u.setRegion (s.loaded t m plane k0 n0 kcol e)) u from h t fun _ => rfl
  induction l with
  | nil => simp only [List.foldl_nil, implies_true]
  | cons e l ih =>
    intro u hu
    have hnext : ∀ r x, s.loaded (u.setRegion r) m plane k0 n0 kcol x = s.loaded t m plane k0 n0 kcol x := by
      intro r x
      rw [← hu x]
      unfold State.loaded
      simp only [State.mapElem_setRegion]
    show l.foldl _ (u.setRegion (s.loaded u m plane k0 n0 kcol e)) = l.foldl _ (u.setRegion _)
    rw [hu e]
    exact ih _ (hnext _)

/-- The team that an MLOADB leaves (R249). -/
def State.loadedTeam (s : State) (t : Team) (w0 w1 : Word) : Team :=
  (upto (bits w1.toNat 6 4 + 1) ×ˢ upto (bits w1.toNat 15 12 + 1)).foldl
    (fun u e => u.setRegion (s.loaded t (opMap (leValue (s.scratchRead t (bits w0.toNat 18 0) 32))) (bits w1.toNat 16 16)
      (bits w1.toNat 2 0) (bits w1.toNat 11 8) (bits w1.toNat 31 20) e)) t

/-- MLOADB leaves a team whose regions are loaded, one for each pair of its ranges. -/
theorem State.mloadb_ok {s s' : State} {t : Team} {w0 w1 : Word} (h : s.mloadb t w0 w1 = .ok s') :
    s' = s.setTeam (s.loadedTeam t w0 w1) := by
  unfold State.mloadb at h
  dsimp only at h
  split at h
  · cases h
  · next m hm =>
    obtain ⟨rfl, -⟩ := State.mapChecks_ok hm
    unfold State.loadedTeam
    rw [← Except.ok.inj h, ← State.foldl_setRegion_loaded]
    congr 1
    rw [show ∀ a b : List Nat, a ×ˢ b = a.flatMap (fun x => b.map (Prod.mk x)) from fun _ _ => rfl, List.foldl_flatMap]
    simp only [List.foldl_map]
    rfl

theorem Team.id_foldl_setRegion {ι : Type} (f : ι → LoftRegion) (l : List ι) (t : Team) :
    (l.foldl (fun u i => u.setRegion (f i)) t).id = t.id := by
  induction l generalizing t with
  | nil => rfl
  | cons i l ih => exact ih _

/-- Each region after an MLOADB: loaded where the ranges hold it, else as it was. -/
theorem State.region_loadedTeam (s : State) (t : Team) (w0 w1 : Word) (plane k n : Nat) :
    let loads := plane = bits w1.toNat 16 16 ∧ bits w1.toNat 2 0 ≤ k ∧ k ≤ bits w1.toNat 2 0 + bits w1.toNat 6 4 ∧
      bits w1.toNat 11 8 ≤ n ∧ n ≤ bits w1.toNat 11 8 + bits w1.toNat 15 12
    (¬ loads → (s.loadedTeam t w0 w1).region plane k n = t.region plane k n) ∧
    (loads → (s.loadedTeam t w0 w1).region plane k n =
      s.loaded t (opMap (leValue (s.scratchRead t (bits w0.toNat 18 0) 32))) (bits w1.toNat 16 16) (bits w1.toNat 2 0)
        (bits w1.toNat 11 8) (bits w1.toNat 31 20) (k - bits w1.toNat 2 0, n - bits w1.toNat 11 8)) := by
  dsimp only
  generalize hm : opMap (leValue (s.scratchRead t (bits w0.toNat 18 0) 32)) = m
  obtain ⟨hkeep, hget⟩ := Team.region_foldl_setRegion (s.loaded t m (bits w1.toNat 16 16) (bits w1.toNat 2 0)
    (bits w1.toNat 11 8) (bits w1.toNat 31 20)) plane k n (upto (bits w1.toNat 6 4 + 1) ×ˢ upto (bits w1.toNat 15 12 + 1)) t
  unfold State.loadedTeam
  rw [hm]
  have hplace : ∀ e : Nat × Nat, ((s.loaded t m (bits w1.toNat 16 16) (bits w1.toNat 2 0) (bits w1.toNat 11 8)
      (bits w1.toNat 31 20) e).plane = plane ∧ (s.loaded t m (bits w1.toNat 16 16) (bits w1.toNat 2 0) (bits w1.toNat 11 8)
      (bits w1.toNat 31 20) e).k = k ∧ (s.loaded t m (bits w1.toNat 16 16) (bits w1.toNat 2 0) (bits w1.toNat 11 8)
      (bits w1.toNat 31 20) e).n = n) ↔
      (bits w1.toNat 16 16 = plane ∧ bits w1.toNat 2 0 + e.1 = k ∧ bits w1.toNat 11 8 + e.2 = n) := fun e => Iff.rfl
  have hmem : ∀ e : Nat × Nat, e ∈ upto (bits w1.toNat 6 4 + 1) ×ˢ upto (bits w1.toNat 15 12 + 1) ↔
      e.1 < bits w1.toNat 6 4 + 1 ∧ e.2 < bits w1.toNat 15 12 + 1 := by
    intro e
    rw [List.mem_product]
    simp [upto]
  simp only [hplace, hmem] at hkeep hget
  refine ⟨fun hno => hkeep fun e he hat => hno (by omega), fun hloads => hget _ ?_ ?_⟩
  · exact ⟨(k - bits w1.toNat 2 0, n - bits w1.toNat 11 8), ⟨by dsimp only; omega, by dsimp only; omega⟩,
      hloads.1.symm, by dsimp only; omega, by dsimp only; omega⟩
  · rintro ⟨a, b⟩ - ⟨-, ha, hb⟩
    obtain rfl : a = k - bits w1.toNat 2 0 := by dsimp only at ha; omega
    obtain rfl : b = n - bits w1.toNat 11 8 := by dsimp only at hb; omega
    rfl

/-- A value aligned to the exponent of a column of B. -/
theorem FVal.aligned_eight (n : Bool) (v : Nat) (e top : Int) : (FVal.fin n v e).aligned 8 top =
    sgn n (if 0 ≤ e + 7 - top then v * 2 ^ (e + 7 - top).toNat else v / 2 ^ (top - 7 - e).toNat) := by
  have hsh : e + (((8 : Nat) : Int) - 1) - top = e + 7 - top := by omega
  have hneg : -(e + 7 - top) = top - 7 - e := by omega
  unfold FVal.aligned
  dsimp only
  rw [hsh, hneg]

/-- A column of a region that MLOADB loads (R249): integers as they are; else aligned to the greatest exponent of the column, with
a mark where it holds a NaN or an infinity. -/
theorem State.loaded_column (s : State) (t : Team) (m : OpMap) (plane k0 n0 kcol : Nat) (e : Nat × Nat) {j : Nat} (hj : j < 32) :
    let col := fun (i : Nat) => s.mapElem t m (32 * e.2 + j) (32 * (kcol + e.1) + i)
    let r := s.loaded t m plane k0 n0 kcol e
    let top := nth r.eb j 0
    (m.fmt = 6 → ∀ i, i < 32 → nth r.cells (32 * i + j) 0 = (col i).asInt) ∧
    (m.fmt ≠ 6 →
      (nth r.exceptional j false = true ↔ ∃ i, i < 32 ∧ (col i).special = true) ∧
      (∀ i n v x, i < 32 → col i = .fin n v x → v ≠ 0 → x + (Nat.log2 v : Int) ≤ top) ∧
      ((∃ i n v x, i < 32 ∧ col i = .fin n v x ∧ v ≠ 0) →
        ∃ i n v x, i < 32 ∧ col i = .fin n v x ∧ v ≠ 0 ∧ x + (Nat.log2 v : Int) = top) ∧
      ∀ i n v x, i < 32 → col i = .fin n v x → nth r.cells (32 * i + j) 0 =
        sgn n (if 0 ≤ x + 7 - top then v * 2 ^ (x + 7 - top).toNat else v / 2 ^ (top - 7 - x).toNat)) := by
  intro col r top
  refine ⟨fun hm i hi => ?_, fun hm => ?_⟩
  · show nth (s.loaded t m plane k0 n0 kcol e).cells _ _ = _
    rw [State.loaded, columnsRegion_cell _ _ _ _ _ hj hi, if_pos (decide_eq_true hm)]
  · have hr : r = columnsRegion plane (k0 + e.1) (n0 + e.2) false
        (fun j i => s.mapElem t m (32 * e.2 + j) (32 * (kcol + e.1) + i)) := by
      show s.loaded t m plane k0 n0 kcol e = _
      rw [State.loaded, decide_eq_false hm]
    have htop : top = (dotAlign 8 ((upto 32).map col)).1 := by
      show nth r.eb j 0 = _
      rw [hr, columnsRegion_eb _ _ _ _ hj]
    obtain ⟨hle, hattained⟩ := dotAlign_column 8 col
    rw [htop]
    refine ⟨?_, hle, hattained, fun i n v x hi hcol => ?_⟩
    · rw [hr, columnsRegion_exceptional _ _ _ _ _ hj]
      simp [upto, col]
    · have hcol' : s.mapElem t m (32 * e.2 + j) (32 * (kcol + e.1) + i) = .fin n v x := hcol
      rw [hr, columnsRegion_cell _ _ _ _ _ hj hi, if_neg Bool.false_ne_true, hcol', FVal.aligned_eight]

end Sys2Proof.Machine
end

section
/-! The accumulator store and its loops (R245, R250): cells read and written, the sums of a K group, and what MLOOP leaves of every
cell. Under O41. -/
namespace Sys2Proof.Machine

/-! ### Cells -/

theorem assoc_filter_of {β : Type} (f : Nat × β → Bool) (l : List (Nat × β)) {k : Nat} (d : β)
    (h : ∀ b, f (k, b) = true) : assoc (l.filter f) k d = assoc l k d := by
  induction l with
  | nil => rfl
  | cons e l ih =>
    obtain ⟨k', b⟩ := e
    by_cases hk : k' = k
    · subst hk
      rw [List.filter_cons_of_pos (h b)]
      simp [assoc]
    · by_cases hf : f (k', b) = true
      · rw [List.filter_cons_of_pos hf]
        simp only [assoc, if_neg hk, ih]
      · rw [List.filter_cons_of_neg hf]
        simp only [assoc, if_neg hk, ih]

theorem assoc_filter_not {β : Type} (f : Nat × β → Bool) (l : List (Nat × β)) {k : Nat} (d : β)
    (h : ∀ b, f (k, b) = false) : assoc (l.filter f) k d = d := by
  induction l with
  | nil => rfl
  | cons e l ih =>
    obtain ⟨k', b⟩ := e
    by_cases hf : f (k', b) = true
    · have hk : k' ≠ k := by
        rintro rfl
        rw [h b] at hf
        cases hf
      rw [List.filter_cons_of_pos hf]
      simp only [assoc, if_neg hk, ih]
    · rw [List.filter_cons_of_neg hf, ih]

theorem assoc_assocErase {β : Type} (k j : Nat) (l : List (Nat × β)) (d : β) :
    assoc (assocErase k l) j d = if j = k then d else assoc l j d := by
  unfold assocErase
  split
  · next h => exact assoc_filter_not _ _ _ fun b => by simp [h]
  · next h => exact assoc_filter_of _ _ _ fun b => by simp [h]

theorem assoc_assocSet {β : Type} (k j : Nat) (b : β) (l : List (Nat × β)) (d : β) :
    assoc (assocSet k b l) j d = if j = k then b else assoc l j d := by
  induction l with
  | nil => simp [assocSet, assoc, eq_comm]
  | cons e l ih =>
    obtain ⟨k', b'⟩ := e
    unfold assocSet
    split
    · simp [assoc, eq_comm]
    · split
      · next hk =>
        subst hk
        by_cases hj : j = k
        · simp [assoc, hj]
        · simp [assoc, hj, Ne.symm hj]
      · next hk =>
        simp only [assoc, ih]
        by_cases hj : k' = j
        · subst hj
          simp [Ne.symm hk]
        · simp [hj]

theorem Team.accCell_setAcc (t : Team) (row col : Nat) (w : Word) (row' col' : Nat) :
    (t.setAcc row col w).accCell row' col' = if 512 * row' + col' = 512 * row + col then w else t.accCell row' col' := by
  unfold Team.accCell Team.setAcc
  dsimp only
  by_cases hw : w = 0
  · rw [if_pos hw, assoc_assocErase, hw]
  · rw [if_neg hw, assoc_assocSet]

/-- Rows of the accumulator store without their cells (R254). -/
theorem Team.accCell_zeroed (t : Team) (a n : Nat) {row col : Nat} (hcol : col < 512) :
    assoc (t.acc.filter (fun e => !(decide (a ≤ e.1 / 512) && decide (e.1 / 512 < a + n)))) (512 * row + col) 0 =
      if a ≤ row ∧ row < a + n then 0 else t.accCell row col := by
  have hrow : (512 * row + col) / 512 = row := by omega
  split
  · next h => exact assoc_filter_not _ _ _ fun b => by simp [hrow, h]
  · next h =>
    have hout : row < a ∨ a + n ≤ row := by omega
    exact assoc_filter_of _ _ _ fun b => by simpa [hrow] using hout

/-- Cells written one after another, each from what stood there: where no two are one, each is made from its first value, and the
others stay. -/
theorem Team.accCell_foldl_setAcc {ι : Type} (row col : ι → Nat) (upd : ι → Word → Word) (l : List ι) (t : Team)
    (hcol : ∀ i ∈ l, col i < 512) (hnodup : l.Nodup)
    (hinj : ∀ i ∈ l, ∀ j ∈ l, row i = row j → col i = col j → i = j) :
    let u := l.foldl (fun u i => u.setAcc (row i) (col i) (upd i (u.accCell (row i) (col i)))) t
    (∀ r c, c < 512 → (∀ i ∈ l, r ≠ row i ∨ c ≠ col i) → u.accCell r c = t.accCell r c) ∧
    ∀ i ∈ l, u.accCell (row i) (col i) = upd i (t.accCell (row i) (col i)) := by
  induction l generalizing t with
  | nil => exact ⟨fun _ _ _ _ => rfl, fun i hi => absurd hi List.not_mem_nil⟩
  | cons i l ih =>
    obtain ⟨hi, hl⟩ := List.nodup_cons.mp hnodup
    have hnext := fun t => ih t (fun j hj => hcol j (List.mem_cons_of_mem _ hj)) hl
      (fun j hj k hk => hinj j (List.mem_cons_of_mem _ hj) k (List.mem_cons_of_mem _ hk))
    dsimp only at hnext ⊢
    rw [List.foldl_cons]
    obtain ⟨hkeep, hget⟩ := hnext (t.setAcc (row i) (col i) (upd i (t.accCell (row i) (col i))))
    have hci := hcol i List.mem_cons_self
    refine ⟨fun r c hc hno => ?_, fun j hj => ?_⟩
    · rw [hkeep r c hc fun j hj => hno j (List.mem_cons_of_mem _ hj), Team.accCell_setAcc, if_neg]
      rcases hno i List.mem_cons_self with h | h <;> omega
    · have hapart : ∀ k ∈ l, row k ≠ row i ∨ col k ≠ col i := by
        intro k hk
        by_contra hsame
        rw [not_or, not_not, not_not] at hsame
        exact hi (hinj k (List.mem_cons_of_mem _ hk) i List.mem_cons_self hsame.1 hsame.2 ▸ hk)
      rcases List.mem_cons.mp hj with rfl | hj
      · rw [hkeep _ _ hci fun k hk => (hapart k hk).imp Ne.symm Ne.symm, Team.accCell_setAcc, if_pos rfl]
      · have hcj := hcol j (List.mem_cons_of_mem _ hj)
        rw [hget j hj, Team.accCell_setAcc, if_neg]
        rcases hapart j hj with h | h <;> omega

/-! ### Sums of a K group (R56, R57) -/

theorem dotSum_map {ι : Type} (f g : ι → Int) (l : List ι) : dotSum (l.map f) (l.map g) = (l.map (fun i => f i * g i)).sum := by
  induction l with
  | nil => rfl
  | cons i l ih => rw [List.map_cons, List.map_cons, dotSum, ih, List.map_cons, List.sum_cons]

/-- A group against a column. -/
theorem dotSum_upto (l : List Int) {n : Nat} (hl : l.length = n) (g : Nat → Int) :
    dotSum l ((upto n).map g) = ((upto n).map (fun i => nth l i 0 * g i)).sum := by
  rw [← dotSum_map (fun i => nth l i 0) g, map_nth_upto l 0 hl]

theorem dotAlign_length (w : Nat) (l : List FVal) : (dotAlign w l).2.length = l.length := by
  rw [dotAlign_snd, List.length_map]

/-! ### MLOOP -/

/-- The pairs of a step and a row of regions that an MLOOP runs through, in their order. -/
def loopPairs (w2 w3 : Word) : List (Nat × Nat) :=
  (upto (bits w2.toNat 3 0)).flatMap (fun step => (upto (bits w3.toNat 6 4 + 1)).map (fun i => (step, i)))

/-- The column of the accumulator store of a column of an MLOOP, counted from its first. -/
def Team.loopColumn (t : Team) (w3 : Word) (c : Nat) : Nat :=
  if t.loftMode = 2 then 256 * bits w3.toNat 16 16 + (32 * bits w3.toNat 11 8 + c) else 32 * bits w3.toNat 11 8 + c

section
variable (s : State) (t : Team) (m : OpMap) (w2 w3 q : Word)

/-- The elements of A that a row has for a pair, and the region of B. -/
def State.loopValue (r : Nat) (p : Nat × Nat) (i : Nat) : FVal :=
  s.mapElem t m r (32 * (bits w2.toNat 31 16 + p.1 * bits w2.toNat 15 8 + p.2) + i)

/-- The region of B of a pair and a column. -/
def Team.loopRegion (c : Nat) (p : Nat × Nat) : LoftRegion :=
  t.region (bits w3.toNat 16 16) (bits w3.toNat 2 0 + p.1 * (bits w3.toNat 6 4 + 1) + p.2) (bits w3.toNat 11 8 + c / 32)

/-- One K group accumulated in a cell. -/
def State.loopStep (r c : Nat) (v : Word) (p : Nat × Nat) : Word :=
  let a := (upto 32).map (s.loopValue t m w2 r p)
  mloopStep (decide (m.fmt = 6)) (!decide (m.fmt = 6) && a.any FVal.special) m.wBits q v
    (if decide (m.fmt = 6) then (0, a.map FVal.asInt) else dotAlign m.wBits a) (t.loopRegion w3 c p) (c % 32)

/-- A cell of an MLOOP, made from what stood there. -/
def State.loopCell (e : Nat × Nat) (old : Word) : Word :=
  (loopPairs w2 w3).foldl (s.loopStep t m w2 w3 q e.1 e.2) (if w3.getLsbD 20 then old else 0)

/-- The team that an MLOOP leaves. -/
def State.loopedTeam (w1 : Word) : Team :=
  (upto (bits w1.toNat 7 0) ×ˢ upto (32 * (bits w3.toNat 15 12 + 1))).foldl
    (fun u e => u.setAcc (bits w1.toNat 13 8 + e.1) (t.loopColumn w3 e.2)
      (s.loopCell t m w2 w3 q e (u.accCell (bits w1.toNat 13 8 + e.1) (t.loopColumn w3 e.2)))) t

variable {m} (r c : Nat) (v : Word) (p : Nat × Nat)

theorem State.loopStep_integer (hm : m.fmt = 6) : s.loopStep t m w2 w3 q r c v p = BitVec.ofInt 32 (v.toInt +
    ((upto 32).map (fun i => (s.loopValue t m w2 r p i).asInt * nth (t.loopRegion w3 c p).cells (32 * i + c % 32) 0)).sum) := by
  unfold State.loopStep mloopStep
  simp only [hm, decide_true, if_true, List.map_map, dotSum_map, Function.comp_apply]

theorem State.loopStep_float (hm : m.fmt ≠ 6) : s.loopStep t m w2 w3 q r c v p =
    let row := dotAlign m.wBits ((upto 32).map (s.loopValue t m w2 r p))
    let sum := ((upto 32).map (fun i => nth row.2 i 0 * nth (t.loopRegion w3 c p).cells (32 * i + c % 32) 0)).sum
    add32 v (mul32 (if (upto 32).any (fun i => (s.loopValue t m w2 r p i).special) ||
        nth (t.loopRegion w3 c p).exceptional (c % 32) false then 0x7FC00000
      else rne32 (decide (sum < 0)) sum.natAbs (row.1 - m.wBits + 1 + nth (t.loopRegion w3 c p).eb (c % 32) 0 - 7)) q) := by
  have hlen : (dotAlign m.wBits ((upto 32).map (s.loopValue t m w2 r p))).2.length = 32 := by
    rw [dotAlign_length]
    simp [upto]
  unfold State.loopStep mloopStep
  simp only [hm, decide_false, Bool.false_eq_true, if_false, Bool.not_false, Bool.true_and, List.any_map,
    dotSum_upto _ hlen]
  rfl

end

theorem Team.id_foldl_setAcc {ι : Type} (row col : ι → Nat) (upd : ι → Team → Word) (l : List ι) (t : Team) :
    (l.foldl (fun u i => u.setAcc (row i) (col i) (upd i u)) t).id = t.id := by
  induction l generalizing t with
  | nil => rfl
  | cons i l ih => exact ih _

/-- MLOOP leaves a team whose cells have run through its K groups; its columns are those of the store. -/
theorem State.mloop_ok {s s' : State} {t : Team} {w0 w1 w2 w3 q : Word} (h : s.mloop t [w0, w1, w2, w3] q = .ok s') :
    s' = s.setTeam (s.loopedTeam t (opMap (leValue (s.scratchRead t (bits w0.toNat 18 0) 32))) w2 w3 q w1) ∧
      t.rangeOk w3.toNat = true := by
  unfold State.mloop at h
  simp only [nth, List.getElem?_cons_zero, List.getElem?_cons_succ, Option.getD_some] at h
  split at h
  · cases h
  · next m hm =>
    obtain ⟨rfl, hok⟩ := State.mapChecks_ok hm
    simp only [Bool.and_eq_true] at hok
    refine ⟨?_, hok.1.2⟩
    rw [← Except.ok.inj h]
    unfold State.loopedTeam
    have hregion : ∀ n c : Nat, (32 * n + c) / 32 = n + c / 32 := by omega
    have hcolumn : ∀ n c : Nat, (32 * n + c) % 32 = c % 32 := by omega
    congr 1
    rw [show ∀ a b : List Nat, a ×ˢ b = a.flatMap (fun x => b.map (Prod.mk x)) from fun _ _ => rfl, List.foldl_flatMap]
    simp only [List.foldl_map, hregion, hcolumn]
    rfl

/-- A column of an MLOOP in range lies within the store's 512. -/
theorem Team.loopColumn_lt {t : Team} {w3 : Word} (h : t.rangeOk w3.toNat = true) {c : Nat}
    (hc : c < 32 * (bits w3.toNat 15 12 + 1)) : t.loopColumn w3 c < 512 := by
  have hplane : bits w3.toNat 16 16 < 2 := Nat.mod_lt _ (by decide)
  unfold Team.rangeOk at h
  unfold Team.loopColumn
  rw [Bool.and_eq_true, decide_eq_true_eq] at h
  obtain ⟨hrange, -⟩ := h
  split
  · next hmode =>
    rw [if_pos hmode] at hrange
    omega
  · next hmode =>
    rw [if_neg hmode] at hrange
    omega

theorem Team.loopColumn_inj {t : Team} {w3 : Word} {c d : Nat} (h : t.loopColumn w3 c = t.loopColumn w3 d) : c = d := by
  unfold Team.loopColumn at h
  split at h <;> omega

theorem Team.loopColumn_eq (t : Team) (w3 : Word) (c : Nat) : t.loopColumn w3 c =
    (if t.loftMode = 2 then 256 * bits w3.toNat 16 16 else 0) + 32 * bits w3.toNat 11 8 + c := by
  unfold Team.loopColumn
  split <;> omega

/-- Each cell after an MLOOP: accumulated where its rows and columns hold it, else as it was. -/
theorem State.accCell_loopedTeam (s : State) {t : Team} (m : OpMap) (w1 w2 w3 q : Word) (h : t.rangeOk w3.toNat = true) :
    (∀ row col, col < 512 → (∀ r c, r < bits w1.toNat 7 0 → c < 32 * (bits w3.toNat 15 12 + 1) →
      row ≠ bits w1.toNat 13 8 + r ∨ col ≠ t.loopColumn w3 c) →
      (s.loopedTeam t m w2 w3 q w1).accCell row col = t.accCell row col) ∧
    ∀ r c, r < bits w1.toNat 7 0 → c < 32 * (bits w3.toNat 15 12 + 1) →
      (s.loopedTeam t m w2 w3 q w1).accCell (bits w1.toNat 13 8 + r) (t.loopColumn w3 c) =
        s.loopCell t m w2 w3 q (r, c) (t.accCell (bits w1.toNat 13 8 + r) (t.loopColumn w3 c)) := by
  have hmem : ∀ e : Nat × Nat, e ∈ upto (bits w1.toNat 7 0) ×ˢ upto (32 * (bits w3.toNat 15 12 + 1)) ↔
      e.1 < bits w1.toNat 7 0 ∧ e.2 < 32 * (bits w3.toNat 15 12 + 1) := by
    intro e
    rw [List.mem_product]
    simp [upto]
  obtain ⟨hkeep, hget⟩ := Team.accCell_foldl_setAcc (fun e : Nat × Nat => bits w1.toNat 13 8 + e.1)
    (fun e => t.loopColumn w3 e.2) (s.loopCell t m w2 w3 q)
    (upto (bits w1.toNat 7 0) ×ˢ upto (32 * (bits w3.toNat 15 12 + 1))) t
    (fun e he => Team.loopColumn_lt h ((hmem e).mp he).2) (List.Nodup.product List.nodup_range List.nodup_range)
    (fun a _ b _ hr hc => Prod.ext (Nat.add_left_cancel hr) (Team.loopColumn_inj hc))
  exact ⟨fun row col hcol hno => hkeep row col hcol fun e he => hno e.1 e.2 ((hmem e).mp he).1 ((hmem e).mp he).2,
    fun r c hr hc => hget (r, c) ((hmem (r, c)).mpr ⟨hr, hc⟩)⟩

end Sys2Proof.Machine
end

section
/-! A team's window under an engine's writes (R146, R165, R252): bytes read after a write, lines copied first, and what MDRAIN leaves
of every byte. Under O41. -/
namespace Sys2Proof.Machine

/-! ### Writes of a window -/

theorem mem_insertRising_iff {x y : Nat} {l : List Nat} : y ∈ insertRising x l ↔ y = x ∨ y ∈ l := by
  induction l with
  | nil => simp [insertRising]
  | cons z l ih =>
    unfold insertRising
    split
    · simp
    · split
      · next h => simp [h]
      · simp only [List.mem_cons, ih]
        tauto

theorem State.isFrozen_iff (s : State) (t : Team) (o : Nat) : s.isFrozen t o = true ↔
    ∃ k sh, t.frozen = some k ∧ s.sheaf? k = some sh ∧ o / 128 < sh.lines ∧ o / 128 ∉ t.copied := by
  unfold State.isFrozen
  cases hf : t.frozen with
  | none => simp
  | some k => cases hs : s.sheaf? k with
    | none => simp [hs]
    | some sh => simp [hs]

/-- Two teams with the same frozen sheaf, and the same copy of the line, see a byte frozen alike. -/
theorem State.isFrozen_congr (s : State) {t u : Team} {o : Nat} (hf : u.frozen = t.frozen)
    (hc : o / 128 ∈ u.copied ↔ o / 128 ∈ t.copied) : s.isFrozen u o = s.isFrozen t o := by
  rw [Bool.eq_iff_iff, State.isFrozen_iff, State.isFrozen_iff, hf, hc]

theorem State.scratchByte_of_copied (s : State) {t : Team} {o : Nat} (h : o / 128 ∈ t.copied) :
    s.scratchByte t o = memGet t.scratch o := by
  have hnot : s.isFrozen t o = false := by
    rw [Bool.eq_false_iff, Ne, State.isFrozen_iff]
    rintro ⟨k, sh, -, -, -, hno⟩
    exact hno h
  unfold State.scratchByte
  rw [hnot]
  exact if_neg Bool.false_ne_true

/-- A byte is seen alike where its line is copied alike and the scratchpad holds it alike. -/
theorem State.scratchByte_congr (s : State) {t u : Team} {o : Nat} (hf : u.frozen = t.frozen)
    (hc : o / 128 ∈ u.copied ↔ o / 128 ∈ t.copied) (hm : memGet u.scratch o = memGet t.scratch o) :
    s.scratchByte u o = s.scratchByte t o := by
  unfold State.scratchByte
  rw [s.isFrozen_congr hf hc, hf, hm]

theorem memGet_memWrite {m : List Host.Cell} (h : Memory.wf m = true) (a : Nat) (l : List Byte) (x : Nat) :
    memGet (memWrite m a l) x = if a ≤ x ∧ x < a + l.length then nth l (x - a) 0 else memGet m x := by
  rw [memWrite_eq_memWriteList, memGet_writeBytes h]

/-- A team whose window another shows too: of the team itself at most copies and the scratchpad differ. -/
structure Team.SameTeam (t u : Team) : Prop where
  id : u.id = t.id
  acc : u.acc = t.acc
  frozen : u.frozen = t.frozen
  wf : Memory.wf t.scratch = true → Memory.wf u.scratch = true

theorem Team.SameTeam.refl (t : Team) : t.SameTeam t := ⟨rfl, rfl, rfl, fun h => h⟩

theorem Team.SameTeam.trans {t u v : Team} (h : t.SameTeam u) (h' : u.SameTeam v) : t.SameTeam v :=
  ⟨h'.id.trans h.id, h'.acc.trans h.acc, h'.frozen.trans h.frozen, h'.wf ∘ h.wf⟩

/-- One frozen line copied into the reserve. -/
def State.copyLine (s : State) (t : Team) (x : Nat) : Team :=
  { t with scratch := memWrite t.scratch (128 * x) (s.scratchRead t (128 * x) 128), copied := insertRising x t.copied }

theorem State.copyLines_cons (s : State) (t : Team) (x : Nat) (lines : List Nat) :
    s.copyLines t (x :: lines) = s.copyLines (s.copyLine t x) lines := by
  simp only [State.copyLines, State.copyLine, List.foldl_cons]

theorem State.copyLine_scratch (s : State) (t : Team) (x : Nat) :
    (s.copyLine t x).scratch = memWrite t.scratch (128 * x) (s.scratchRead t (128 * x) 128) := by
  simp only [State.copyLine]

theorem State.copyLine_copied (s : State) (t : Team) (x : Nat) : (s.copyLine t x).copied = insertRising x t.copied := by
  simp only [State.copyLine]

theorem State.copyLine_frozen (s : State) (t : Team) (x : Nat) : (s.copyLine t x).frozen = t.frozen := by
  simp only [State.copyLine]

theorem State.sameTeam_copyLine (s : State) (t : Team) (x : Nat) : t.SameTeam (s.copyLine t x) where
  id := by simp only [State.copyLine]
  acc := by simp only [State.copyLine]
  frozen := s.copyLine_frozen t x
  wf := fun h => by rw [State.copyLine_scratch]; exact memWrite_wf h ..

/-- A line copied shows as it did. -/
theorem State.scratchByte_copyLine (s : State) {t : Team} (hwf : Memory.wf t.scratch = true) (x o : Nat) :
    s.scratchByte (s.copyLine t x) o = s.scratchByte t o := by
  have hlen : (s.scratchRead t (128 * x) 128).length = 128 := by simp [State.scratchRead, upto]
  have hcopied : ∀ l, l ∈ (s.copyLine t x).copied ↔ l = x ∨ l ∈ t.copied := by
    rw [State.copyLine_copied]
    exact fun l => mem_insertRising_iff
  have hget : memGet (s.copyLine t x).scratch o = if o / 128 = x then s.scratchByte t o else memGet t.scratch o := by
    rw [State.copyLine_scratch, memGet_memWrite hwf, hlen]
    by_cases ho : o / 128 = x
    · have hlow : 128 * x + (o - 128 * x) = o := by omega
      rw [if_pos ho, if_pos (by omega), State.scratchRead, nth_map_upto, if_pos (by omega), hlow]
    · rw [if_neg ho, if_neg (by omega)]
  by_cases ho : o / 128 = x
  · rw [s.scratchByte_of_copied ((hcopied _).mpr (.inl ho)), hget, if_pos ho]
  · exact s.scratchByte_congr (s.copyLine_frozen t x) ((hcopied _).trans (or_iff_right ho)) (by rw [hget, if_neg ho])

/-- Copying frozen lines changes no byte that the window shows; afterwards the lines are copied. -/
theorem State.copyLines_spec (s : State) (lines : List Nat) {t : Team} (hwf : Memory.wf t.scratch = true) :
    t.SameTeam (s.copyLines t lines) ∧ (∀ o, s.scratchByte (s.copyLines t lines) o = s.scratchByte t o) ∧
      ∀ l, l ∈ (s.copyLines t lines).copied ↔ l ∈ lines ∨ l ∈ t.copied := by
  induction lines generalizing t with
  | nil => exact ⟨.refl t, fun _ => rfl, by simp [State.copyLines]⟩
  | cons x lines ih =>
    have hline := s.sameTeam_copyLine t x
    obtain ⟨hteam, hbytes, hcopied⟩ := ih (hline.wf hwf)
    rw [State.copyLines_cons]
    refine ⟨hline.trans hteam, fun o => (hbytes o).trans (s.scratchByte_copyLine hwf x o), fun l => ?_⟩
    rw [hcopied, State.copyLine_copied, mem_insertRising_iff, List.mem_cons]
    tauto

/-- A team after a write into its window (R146). -/
def State.writtenTeam (s : State) (t : Team) (off : Nat) (l : List Byte) : Team :=
  let u := s.copyLines t (s.linesToCopy t off l.length)
  { u with
    scratch := memWrite u.scratch off l
    poisonWords := u.poisonWords.filter (fun w => !(decide (off ≤ 4 * w) && decide (4 * w + 4 ≤ off + l.length))) }

theorem State.scratchWrite_eq {s : State} {t : Team} (h : s.team? t.id = some t) (off : Nat) (l : List Byte) :
    s.scratchWrite t.id off l = s.setTeam (s.writtenTeam t off l) := by
  unfold State.scratchWrite
  rw [h]
  rfl

/-- A write shows in its bytes and in no other of the window. -/
theorem State.writtenTeam_spec (s : State) {t : Team} (hwf : Memory.wf t.scratch = true) (off : Nat) (l : List Byte) :
    t.SameTeam (s.writtenTeam t off l) ∧ ∀ o, s.scratchByte (s.writtenTeam t off l) o =
      if off ≤ o ∧ o < off + l.length then nth l (o - off) 0 else s.scratchByte t o := by
  obtain ⟨hteam, hbytes, hcopied⟩ := s.copyLines_spec (s.linesToCopy t off l.length) hwf
  have hwf' := hteam.wf hwf
  have hget : ∀ o, memGet (s.writtenTeam t off l).scratch o = if off ≤ o ∧ o < off + l.length then nth l (o - off) 0
      else memGet (s.copyLines t (s.linesToCopy t off l.length)).scratch o := fun o => memGet_memWrite hwf' off l o
  refine ⟨hteam.trans ⟨rfl, rfl, rfl, fun h => memWrite_wf h ..⟩, fun o => ?_⟩
  by_cases ho : off ≤ o ∧ o < off + l.length
  · have hthawed : s.isFrozen (s.writtenTeam t off l) o = false := by
      rw [Bool.eq_false_iff, Ne, State.isFrozen_iff]
      rintro ⟨k, sh, hk, hsh, hlines, hno⟩
      have hline : 128 * (o / 128) / 128 = o / 128 := by omega
      refine hno ((hcopied _).mpr (.inl (List.mem_filter.mpr ⟨mem_distinct.mpr (List.mem_map.mpr
        ⟨o - off, List.mem_range.mpr (by omega), by rw [Nat.add_sub_cancel' ho.1]⟩), (s.isFrozen_iff t _).mpr
          ⟨k, sh, hteam.frozen ▸ hk, hsh, by rw [hline]; exact hlines, ?_⟩⟩)))
      rw [hline]
      exact fun hin => hno ((hcopied _).mpr (.inr hin))
    rw [if_pos ho]
    unfold State.scratchByte
    rw [hthawed, if_neg Bool.false_ne_true, hget, if_pos ho]
  · rw [if_neg ho, ← hbytes o]
    exact s.scratchByte_congr rfl Iff.rfl (by rw [hget, if_neg ho])

/-- A byte of a window rests on the sheaves alone. -/
theorem State.scratchByte_setTeam (s : State) (u t : Team) (o : Nat) : (s.setTeam u).scratchByte t o = s.scratchByte t o := rfl

/-- An engine's writes, one row after another: outside the rows the window shows what it did, and a row shows its bytes where no
two rows meet. -/
theorem State.scratchWrites_spec (rows : List (Nat × List Byte)) {s : State} {t : Team} (h : s.team? t.id = some t)
    (hwf : Memory.wf t.scratch = true) :
    let u := rows.foldl (fun s r => s.scratchWrite t.id r.1 r.2) s
    ∃ t', u.team? t.id = some t' ∧ t.SameTeam t' ∧
      (∀ o, (∀ r ∈ rows, o < r.1 ∨ r.1 + r.2.length ≤ o) → u.scratchByte t' o = s.scratchByte t o) ∧
      (rows.Pairwise (fun a b => a.1 + a.2.length ≤ b.1 ∨ b.1 + b.2.length ≤ a.1) →
        ∀ r ∈ rows, ∀ i, i < r.2.length → u.scratchByte t' (r.1 + i) = nth r.2 i 0) := by
  induction rows generalizing s t with
  | nil => exact ⟨t, h, .refl t, fun _ _ => rfl, fun _ r hr => absurd hr List.not_mem_nil⟩
  | cons a rows ih =>
    obtain ⟨hteam, hbytes⟩ := s.writtenTeam_spec hwf a.1 a.2
    have hput : (s.setTeam (s.writtenTeam t a.1 a.2)).team? (s.writtenTeam t a.1 a.2).id = some (s.writtenTeam t a.1 a.2) :=
      State.team?_setTeam_self (by rw [hteam.id, h]; rfl)
    obtain ⟨t', ht', hsame, hout, hin⟩ := ih hput (hteam.wf hwf)
    rw [hteam.id] at ht' hout hin
    dsimp only
    rw [List.foldl_cons, State.scratchWrite_eq h]
    simp only [State.scratchByte_setTeam, hbytes] at hout
    refine ⟨t', ht', hteam.trans hsame, fun o ho => ?_, fun hpair r hr i hi => ?_⟩
    · rw [hout o fun r hr => ho r (List.mem_cons_of_mem _ hr), if_neg]
      have := ho a List.mem_cons_self
      omega
    · obtain ⟨hapart, hpair⟩ := List.pairwise_cons.mp hpair
      rcases List.mem_cons.mp hr with rfl | hr
      · rw [hout (r.1 + i) fun b hb => by have := hapart b hb; omega, if_pos (by omega), Nat.add_sub_cancel_left]
      · exact hin hpair r hr i hi

/-! ### MDRAIN (R252) -/

theorem nth_leBytes (n v : Nat) {b : Nat} (hb : b < n) : nth (leBytes n v) b 0 = BitVec.ofNat 8 (v / 2 ^ (8 * b)) := by
  induction n generalizing v b with
  | zero => exact absurd hb (Nat.not_lt_zero b)
  | succ n ih =>
    cases b with
    | zero => simp [leBytes, nth]
    | succ b =>
      have hpow : 2 ^ (8 * (b + 1)) = 256 * 2 ^ (8 * b) := by rw [Nat.mul_succ, Nat.pow_add, Nat.mul_comm]
      rw [hpow, ← Nat.div_div_eq_div_mul]
      exact ih (v / 256) (Nat.lt_of_succ_lt_succ hb)

/-- An element of blocks of one length put together. -/
theorem nth_flatMap_upto {α : Type} (f : Nat → List α) (d : α) {n : Nat} (hf : ∀ c, (f c).length = n) {k c b : Nat} (hc : c < k)
    (hb : b < n) : nth ((upto k).flatMap f) (n * c + b) d = nth (f c) b d := by
  induction k with
  | zero => exact absurd hc (Nat.not_lt_zero c)
  | succ k ih =>
    have hlen : ((upto k).flatMap f).length = n * k := by
      rw [length_flatMap_const n _ _ fun a _ => hf a, upto, List.length_range, Nat.mul_comm]
    have hsplit : (upto (k + 1)).flatMap f = (upto k).flatMap f ++ f k := by
      rw [upto, List.range_succ, List.flatMap_append, List.flatMap_singleton]
      rfl
    unfold nth at ih ⊢
    rw [hsplit]
    rcases Nat.lt_succ_iff_lt_or_eq.mp hc with hlt | rfl
    · have hin : n * c + b < n * k := by
        calc n * c + b < n * c + n := by omega
          _ = n * (c + 1) := rfl
          _ ≤ n * k := Nat.mul_le_mul_left n hlt
      rw [List.getElem?_append_left (by rw [hlen]; exact hin), ih hlt]
    · rw [List.getElem?_append_right (by rw [hlen]; omega), hlen, Nat.add_sub_cancel_left]

/-- A drained cell after its conversion. -/
def drainValue (conv : Nat) (sat : Bool) (w : Word) : Nat :=
  match conv with
  | 0 => w.toNat
  | 1 => (toFloat .fp16 0 sat (f32 w)).1
  | 2 => (toFloat .bf16 0 sat (f32 w)).1
  | 3 => (toFloat .e4m3 0 sat (f32 w)).1
  | 4 => (toFloat .e5m2 0 sat (f32 w)).1
  | _ => (toFloat .fp32 0 sat (intVal w.toInt)).1

theorem drainBytes_eq (conv : Nat) (sat : Bool) (w : Word) :
    drainBytes conv sat w = leBytes (drainSize conv) (drainValue conv sat w) := by
  match conv with
  | 0 => rfl
  | 1 => rfl
  | 2 => rfl
  | 3 => rfl
  | 4 => rfl
  | _ + 5 => rfl

/-- The offset and the bytes of a row that an MDRAIN writes. -/
def Team.drainedRow (t : Team) (w0 w1 w2 : Word) (i : Nat) : Nat × List Byte :=
  (bits w0.toNat 18 0 + i * bits w1.toNat 18 0, (upto (32 * (bits w2.toNat 23 20 + 1))).flatMap (fun c =>
    drainBytes (bits w2.toNat 26 24) (w2.toNat.testBit 27) (t.accCell (bits w2.toNat 5 0 + i) (32 * bits w2.toNat 19 16 + c))))

theorem State.mdrain_ok {s s' : State} {t : Team} {w0 w1 w2 : Word} (h : s.mdrain t w0 w1 w2 = .ok s') :
    s' = ((upto (bits w2.toNat 13 8 + 1)).map (t.drainedRow w0 w1 w2)).foldl (fun s r => s.scratchWrite t.id r.1 r.2) s := by
  unfold State.mdrain at h
  dsimp only at h
  split at h
  · cases h
  · split at h
    · cases h
    · split at h
      · cases h
      · unfold State.engineWrites at h
        dsimp only at h
        split at h
        · exact (Except.ok.inj h).symm
        · cases h

section
variable (t : Team) (w0 w1 w2 : Word)

theorem Team.length_drainedRow (i : Nat) : (t.drainedRow w0 w1 w2 i).2.length =
    32 * (bits w2.toNat 23 20 + 1) * drainSize (bits w2.toNat 26 24) := by
  have hcell : ∀ w, (drainBytes (bits w2.toNat 26 24) (w2.toNat.testBit 27) w).length = drainSize (bits w2.toNat 26 24) := by
    intro w
    rw [drainBytes_eq, length_leBytes]
  unfold Team.drainedRow
  rw [length_flatMap_const _ _ _ fun _ _ => hcell _, upto, List.length_range]

/-- A byte of a row: that of its cell. -/
theorem Team.nth_drainedRow (i : Nat) {c b : Nat} (hc : c < 32 * (bits w2.toNat 23 20 + 1))
    (hb : b < drainSize (bits w2.toNat 26 24)) :
    nth (t.drainedRow w0 w1 w2 i).2 (drainSize (bits w2.toNat 26 24) * c + b) 0 =
      BitVec.ofNat 8 (drainValue (bits w2.toNat 26 24) (w2.toNat.testBit 27)
        (t.accCell (bits w2.toNat 5 0 + i) (32 * bits w2.toNat 19 16 + c)) / 2 ^ (8 * b)) := by
  have hcell : ∀ w, (drainBytes (bits w2.toNat 26 24) (w2.toNat.testBit 27) w).length = drainSize (bits w2.toNat 26 24) := by
    intro w
    rw [drainBytes_eq, length_leBytes]
  unfold Team.drainedRow
  rw [nth_flatMap_upto _ _ (fun _ => hcell _) hc hb, drainBytes_eq, nth_leBytes _ _ hb]

/-- No two rows meet where there is one row, or where the stride holds a row. -/
theorem Team.drainedRow_apart (h : bits w2.toNat 13 8 + 1 = 1 ∨
    32 * (bits w2.toNat 23 20 + 1) * drainSize (bits w2.toNat 26 24) ≤ bits w1.toNat 18 0) :
    ((upto (bits w2.toNat 13 8 + 1)).map (t.drainedRow w0 w1 w2)).Pairwise
      (fun a b => a.1 + a.2.length ≤ b.1 ∨ b.1 + b.2.length ≤ a.1) := by
  rw [List.pairwise_map]
  refine List.pairwise_lt_range.imp_of_mem fun {i j} hi hj hij => .inl ?_
  have hj : j < bits w2.toNat 13 8 + 1 := List.mem_range.mp hj
  have hstride := h.resolve_left (by omega)
  rw [t.length_drainedRow]
  show bits w0.toNat 18 0 + i * bits w1.toNat 18 0 + _ ≤ bits w0.toNat 18 0 + j * bits w1.toNat 18 0
  calc bits w0.toNat 18 0 + i * bits w1.toNat 18 0 + 32 * (bits w2.toNat 23 20 + 1) * drainSize (bits w2.toNat 26 24)
      ≤ bits w0.toNat 18 0 + (i * bits w1.toNat 18 0 + bits w1.toNat 18 0) := by omega
    _ = bits w0.toNat 18 0 + (i + 1) * bits w1.toNat 18 0 := by rw [Nat.succ_mul]
    _ ≤ bits w0.toNat 18 0 + j * bits w1.toNat 18 0 := Nat.add_le_add_left (Nat.mul_le_mul_right _ hij) _

end

/-- The window after an MDRAIN whose rows do not meet: the bytes of its rows, and no other, are written. -/
theorem State.mdrain_window {s s' : State} {t : Team} {w0 w1 w2 : Word} (ht : s.team? t.id = some t)
    (hwf : Memory.wf t.scratch = true) (h : s.mdrain t w0 w1 w2 = .ok s')
    (happart : bits w2.toNat 13 8 + 1 = 1 ∨
      32 * (bits w2.toNat 23 20 + 1) * drainSize (bits w2.toNat 26 24) ≤ bits w1.toNat 18 0) :
    let n := drainSize (bits w2.toNat 26 24)
    let cols := 32 * (bits w2.toNat 23 20 + 1)
    let row := fun (i : Nat) => bits w0.toNat 18 0 + i * bits w1.toNat 18 0
    ∃ t', s'.team? t.id = some t' ∧ t'.acc = t.acc ∧
      (∀ i c b, i < bits w2.toNat 13 8 + 1 → c < cols → b < n → s'.scratchByte t' (row i + n * c + b) =
        BitVec.ofNat 8 (drainValue (bits w2.toNat 26 24) (w2.toNat.testBit 27)
          (t.accCell (bits w2.toNat 5 0 + i) (32 * bits w2.toNat 19 16 + c)) / 2 ^ (8 * b))) ∧
      ∀ o, (∀ i, i < bits w2.toNat 13 8 + 1 → o < row i ∨ row i + cols * n ≤ o) → s'.scratchByte t' o = s.scratchByte t o := by
  intro n cols row
  obtain rfl := State.mdrain_ok h
  obtain ⟨t', ht', hsame, hout, hin⟩ :=
    State.scratchWrites_spec ((upto (bits w2.toNat 13 8 + 1)).map (t.drainedRow w0 w1 w2)) ht hwf
  refine ⟨t', ht', hsame.acc, fun i c b hi hc hb => ?_, fun o ho => hout o fun r hr => ?_⟩
  · have hlt : n * c + b < (t.drainedRow w0 w1 w2 i).2.length := by
      rw [t.length_drainedRow]
      calc n * c + b < n * c + n := by omega
        _ = n * (c + 1) := rfl
        _ ≤ n * cols := Nat.mul_le_mul_left n hc
        _ = cols * n := Nat.mul_comm ..
    rw [Nat.add_assoc, ← t.nth_drainedRow w0 w1 w2 i hc hb]
    exact hin (t.drainedRow_apart w0 w1 w2 happart) _ (List.mem_map_of_mem (List.mem_range.mpr hi)) _ hlt
  · obtain ⟨i, hi, rfl⟩ := List.mem_map.mp hr
    rw [t.length_drainedRow]
    exact ho i (List.mem_range.mp hi)

end Sys2Proof.Machine
end

section
/-! Results that leave a group: what a completion leaves of a group at rest and of its team, and a result that is due and is
written whole (R19, R22, R254). Under O41. -/
namespace Sys2Proof.Machine

/-! ### A group at rest -/

theorem Group.atRest_iff (g : Group) : g.atRest = true ↔
    ∀ k, k = 0 ∨ k = 1 → ∀ q, g.slot k = some q → q.atJoin = none ∧ q.park ≠ .exit := by
  unfold Group.atRest
  simp only [List.all_append, Bool.and_eq_true, List.all_eq_true, Option.mem_toList, Option.isNone_iff_eq_none,
    decide_eq_true_eq]
  constructor
  · rintro ⟨h0, h1⟩ k (rfl | rfl) q hq
    · exact h0 q hq
    · exact h1 q hq
  · exact fun h => ⟨fun q hq => h 0 (.inl rfl) q hq, fun q hq => h 1 (.inr rfl) q hq⟩

/-- A path that is parked at JOIN or at EXIT only if another is. -/
def Path.RestsAs (q r : Path) : Prop := (q.atJoin = none → r.atJoin = none) ∧ (r.park = .exit → q.park = .exit)

/-- The group's slots hold paths as the other's, each at rest where that one is. -/
def Group.RestsAs (g h : Group) : Prop :=
  ∀ k, k = 0 ∨ k = 1 → ∃ f : Path → Path, h.slot k = (g.slot k).map f ∧ ∀ q : Path, q.RestsAs (f q)

theorem Group.RestsAs.of_slots {g h : Group} (e : ∀ k, h.slot k = g.slot k) : g.RestsAs h :=
  fun k _ => ⟨fun q => q, by rw [e, Option.map_id'], fun _ => ⟨fun h => h, fun h => h⟩⟩

theorem Group.RestsAs.trans {g h i : Group} (a : g.RestsAs h) (b : h.RestsAs i) : g.RestsAs i := by
  intro k hk
  obtain ⟨f, hf, hfrest⟩ := a k hk
  obtain ⟨f', hf', hfrest'⟩ := b k hk
  refine ⟨f' ∘ f, by rw [hf', hf, Option.map_map], fun q => ?_⟩
  obtain ⟨hj, hp⟩ := hfrest q
  obtain ⟨hj', hp'⟩ := hfrest' (f q)
  exact ⟨hj' ∘ hj, hp ∘ hp'⟩

theorem Group.RestsAs.atRest {g h : Group} (e : g.RestsAs h) (hr : g.atRest = true) : h.atRest = true := by
  rw [Group.atRest_iff] at hr ⊢
  intro k hk r hr'
  obtain ⟨f, hf, hfrest⟩ := e k hk
  rw [hf] at hr'
  obtain ⟨q, hq, rfl⟩ := Option.map_eq_some_iff.mp hr'
  obtain ⟨hjoin, hpark⟩ := hr k hk q hq
  exact ⟨(hfrest q).1 hjoin, fun h => hpark ((hfrest q).2 h)⟩

theorem Group.RestsAs.slot {g h : Group} (e : g.RestsAs h) {k : Nat} (hk : k = 0 ∨ k = 1) {q : Path} (hq : g.slot k = some q) :
    ∃ r, h.slot k = some r := by
  obtain ⟨f, hf, -⟩ := e k hk
  exact ⟨f q, by rw [hf, hq]; rfl⟩

theorem Group.restsAs_wake (g : Group) (id : Nat) : g.RestsAs (g.wake id) := by
  refine fun k hk => ⟨Path.woken id, g.slot_wake id k hk, fun q => ?_⟩
  unfold Path.woken
  split
  · exact ⟨fun _ => rfl, fun h => nomatch h⟩
  · exact ⟨fun h => h, fun h => h⟩

theorem Group.restsAs_complete (g : Group) (id : Nat) : g.RestsAs (g.complete id) := by
  cases hp : g.pend? id with
  | none =>
    have hsame : g.complete id = g := by
      unfold Group.pend? at hp
      simp only [Group.complete, hp]
    rw [hsame]
    exact .of_slots fun _ => rfl
  | some p =>
    obtain rfl : p.id = id := by simpa using List.find?_some hp
    refine fun k hk => ⟨_, Group.slot_complete hp k hk, fun q => ?_⟩
    split
    · unfold Path.fall
      split <;> exact ⟨fun h => h, fun h => h⟩
    · exact ⟨fun h => h, fun h => h⟩

/-- An instruction of a group at rest that holds a path completes: the group stays, and of the machine no team changes. -/
theorem State.landed_done {s : State} {g : Group} {k : Nat} {q : Path} (hg : (s.group? g.id).isSome) (hr : g.atRest = true)
    (hk : k = 0 ∨ k = 1) (hq : g.slot k = some q) (id : Nat) :
    (s.landed ((g.wake id).complete id)).teams = s.teams ∧
      ∃ h, (s.landed ((g.wake id).complete id)).group? g.id = some h := by
  have hrests : g.RestsAs ((g.wake id).complete id) := (g.restsAs_wake id).trans ((g.wake id).restsAs_complete id)
  have hid : ((g.wake id).complete id).id = g.id := by
    have hkept := ((g.wake id).kept_complete id).trans (by rw [Group.kept_wake])
    exact congrArg (fun x : Group × List Nat => x.1.id) hkept
  obtain ⟨r, hr'⟩ := hrests.slot hk hq
  rw [← hid] at hg ⊢
  have hset := State.group?_setGroup_self hg
  rcases State.landed_rest hg (hrests.atRest hr) hr' with h | h <;> rw [h]
  · exact ⟨rfl, _, hset⟩
  · exact ⟨rfl, _, by rw [State.group?_leaveOwed, hset]; rfl⟩

/-! ### Teams at a completion -/

/-- Every team of a number holds these accumulator cells. -/
def State.AccIs (s : State) (n : Nat) (acc : List (Nat × Word)) : Prop := ∀ u ∈ s.teams, u.id = n → u.acc = acc

theorem State.AccIs.of_team? {s : State} {n : Nat} {acc : List (Nat × Word)} (h : s.AccIs n acc) {t : Team}
    (ht : s.team? n = some t) : t.acc = acc := h t (List.mem_of_find?_eq_some ht) (State.team?_id ht)

theorem State.accIs_setTeam (s : State) (t : Team) : (s.setTeam t).AccIs t.id t.acc := by
  intro u hu hid
  obtain ⟨v, -, rfl⟩ := List.mem_map.mp hu
  split
  · rfl
  · next hne =>
    rw [if_neg hne] at hid
    exact absurd hid hne

section
variable {s : State} {n : Nat} {acc : List (Nat × Word)} (h : s.AccIs n acc)
include h

theorem State.AccIs.of_teams {t : State} (e : t.teams = s.teams) : t.AccIs n acc := by
  unfold State.AccIs
  rw [e]
  exact h

theorem State.AccIs.dropSheaves : s.dropSheaves.AccIs n acc := by
  unfold State.dropSheaves
  dsimp only
  split
  · exact h
  · exact h.of_teams rfl

theorem State.AccIs.closeTeam (m : Nat) : (s.closeTeam m).AccIs n acc := by
  unfold State.closeTeam
  split
  · exact h
  · next t ht =>
    have hended : (s.setTeam { t with ended := true }).AccIs n acc := by
      intro u hu hid
      obtain ⟨v, hv, rfl⟩ := List.mem_map.mp hu
      split at hid
      · next hvt =>
        rw [if_pos hvt]
        exact h t (List.mem_of_find?_eq_some ht) hid
      · next hvt =>
        rw [if_neg hvt]
        exact h v hv hid
    dsimp only
    split
    · exact h
    · split
      · exact fun u hu => hended u (List.mem_of_mem_filter hu)
      · exact hended

theorem State.AccIs.closeGrid (m : Nat) : (s.closeGrid m).AccIs n acc := by
  unfold State.closeGrid
  split
  · exact h
  · dsimp only
    split
    · refine State.AccIs.dropSheaves fun u hu hid => ?_
      obtain ⟨v, hv, rfl⟩ := List.mem_map.mp (List.mem_of_mem_filter hu)
      split at hid
      · next hvt =>
        rw [if_pos hvt]
        exact h v hv hid
      · next hvt =>
        rw [if_neg hvt]
        exact h v hv hid
    · exact h

theorem State.AccIs.landed (g : Group) : (s.landed g).AccIs n acc := by
  unfold State.landed State.settle
  dsimp only
  generalize hu : (if (g.exits.joins 80).allParked then
    (s.setGroup (g.exits.joins 80)).leaveOwed (g.exits.joins 80).id else s.setGroup (g.exits.joins 80)) = u
  have hteams : u.teams = s.teams := by
    rw [← hu]
    split <;> rfl
  have hold : u.AccIs n acc := h.of_teams hteams
  unfold State.reap
  split
  · exact hold
  · dsimp only
    split
    · exact hold
    · refine State.AccIs.closeGrid (State.AccIs.closeTeam (State.AccIs.dropSheaves ?_) _) _
      exact hold.of_teams rfl

end

/-! ### MZERO (R254) -/

/-- A team whose accumulator rows a to a + n − 1 are zero. -/
def Team.zeroed (t : Team) (a n : Nat) : Team :=
  { t with acc := t.acc.filter (fun e => !(decide (a ≤ e.1 / 512) && decide (e.1 / 512 < a + n))) }

theorem State.mzero_of_ok (s : State) {t : Team} {a n : Nat} (hn : n ≠ 0) (hin : a + n ≤ t.accrows) :
    s.mzero t a n = .ok (s.setTeam (t.zeroed a n)) := by
  unfold State.mzero
  rw [if_neg (by omega)]
  rfl

theorem Team.accCell_of_zeroed {t u : Team} {a n : Nat} (h : u.acc = (t.zeroed a n).acc) {row col : Nat} (hcol : col < 512) :
    u.accCell row col = if a ≤ row ∧ row < a + n then 0 else t.accCell row col := by
  unfold Team.accCell
  rw [h]
  exact t.accCell_zeroed a n hcol

/-- The accumulator rows of a team after an MZERO completes. -/
theorem State.accCell_completePend_zeroed {s : State} {t u : Team} {a n gid id row col : Nat} (hcol : col < 512)
    (hu : ((s.setTeam (t.zeroed a n)).completePend gid id).team? t.id = some u) :
    u.accCell row col = if a ≤ row ∧ row < a + n then 0 else t.accCell row col := by
  have hacc : ((s.setTeam (t.zeroed a n)).completePend gid id).AccIs t.id (t.zeroed a n).acc := by
    have hset : (s.setTeam (t.zeroed a n)).AccIs t.id (t.zeroed a n).acc := s.accIs_setTeam (t.zeroed a n)
    unfold State.completePend
    split
    · exact hset
    · exact hset.landed _
  exact Team.accCell_of_zeroed (hacc.of_team? hu) hcol

/-- A group at rest stays where an MZERO of it completes, and its team with it. -/
theorem State.completePend_zeroed {s : State} {g : Group} {t : Team} {k : Nat} {q : Path} (hg : s.group? g.id = some g)
    (ht : s.team? t.id = some t) (hr : g.atRest = true) (hk : k = 0 ∨ k = 1) (hq : g.slot k = some q) (a n id : Nat) :
    ((s.setTeam (t.zeroed a n)).completePend g.id id).mem = s.mem ∧
      (∃ h, ((s.setTeam (t.zeroed a n)).completePend g.id id).group? g.id = some h ∧ h.pend? id = none) ∧
      ((s.setTeam (t.zeroed a n)).completePend g.id id).team? t.id = some (t.zeroed a n) := by
  have hg' : (s.setTeam (t.zeroed a n)).group? g.id = some g := hg
  have hsome : ((s.setTeam (t.zeroed a n)).group? g.id).isSome := by rw [hg']; rfl
  obtain ⟨hteams, h, hh⟩ := State.landed_done hsome hr hk hq id
  have hdone : (s.setTeam (t.zeroed a n)).completePend g.id id =
      (s.setTeam (t.zeroed a n)).landed ((g.wake id).complete id) := by
    unfold State.completePend
    rw [hg']
  rw [hdone]
  refine ⟨(State.mem_landed ..).trans rfl, ⟨h, hh, (State.landed_complete hsome hh).1⟩, ?_⟩
  unfold State.team?
  rw [hteams]
  exact State.team?_setTeam_self (t := t.zeroed a n) (by rw [show (t.zeroed a n).id = t.id from rfl, ht]; rfl)

/-! ### A result written whole -/

theorem Group.slot_returnV (g : Group) (p : Pend) (e : Nat) (mask : DWord) (val : Nat → Word) (shows : Nat → Bool) (k : Nat) :
    (g.returnV p e mask val shows).slot k = g.slot k := by
  cases h : p.vdst[e]? with
  | none =>
    rcases g.returnV_none p e mask val shows h with hv | hv
    · exact congrArg (fun h : Group => h.slot k) hv
    · exact (congrArg (fun h : Group => h.slot k) hv).trans rfl
  | some d =>
    obtain ⟨n, live⟩ := d
    by_cases hd : g.mapped n = false ∨ live &&& mask = 0
    · rw [g.returnV_dead p e mask val shows h hd]
    · obtain ⟨hmap, hm⟩ := not_or.mp hd
      obtain ⟨old, hold⟩ := Option.isSome_iff_exists.mp (Bool.not_eq_false _ ▸ hmap : (nth g.v n none).isSome = true)
      rw [g.returnV_live p e mask val shows h hold hm]
      rfl

theorem Group.slot_returned (p : Pend) (l : List (Nat × DWord × List Word)) (shows : Nat → Nat → Bool) (g : Group) (k : Nat) :
    (g.returned p l shows).slot k = g.slot k := by
  induction l generalizing g with
  | nil => rfl
  | cons x l ih =>
    refine (ih _).trans ?_
    dsimp only
    rw [Group.returnOne_eq, Group.slot_setBank, Group.slot_returnV]

theorem Group.slot_tagReturned (g : Group) (p : Pend) (k : Nat) : (g.tagReturned p).slot k = g.slot k := by
  unfold Group.tagReturned
  split
  · rfl
  · split
    · exact Group.slot_setBank ..
    · rfl

/-- A group at rest stays where the last of a result of it is written. -/
theorem State.deliver_done {s : State} {g : Group} {p : Pend} {k : Nat} {q : Path} (hg : s.group? g.id = some g)
    (htodo : p.todo = []) (hr : g.atRest = true) (hk : k = 0 ∨ k = 1) (hq : g.slot k = some q) :
    ∃ h, (s.deliver g p 0).group? g.id = some h := by
  have hkept := g.kept_returned p p.due s.shows
  have hrests : g.RestsAs ((g.returned p p.due s.shows).tagReturned { p with due := [] }) :=
    .of_slots fun k => by rw [Group.slot_tagReturned, Group.slot_returned]
  obtain ⟨r, hr'⟩ := hrests.slot hk hq
  have hid : ((g.returned p p.due s.shows).tagReturned { p with due := [] }).id = g.id :=
    (Group.tagReturned_id ..).trans hkept.id
  rw [State.deliver_whole, State.progress_last (p := { p with due := [] }) htodo rfl, ← hid]
  refine (State.landed_done ?_ (hrests.atRest hr) hk hr' _).2
  rw [hid, (State.sameStore_putGutters ..).group?]
  exact Option.isSome_of_eq_some hg

/-- Where a result is written whole the instruction leaves its group, whose registers are those written. -/
theorem State.deliver_group {s : State} {g h : Group} {p : Pend} (hg : s.group? g.id = some g) (htodo : p.todo = [])
    (hh : (s.deliver g p 0).group? g.id = some h) : h.pend? p.id = none ∧ h.v = (g.returned p p.due s.shows).v ∧
      h.p = (g.returned p p.due s.shows).p := by
  have hkept := g.kept_returned p p.due s.shows
  have htag := Group.tagReturned_id (g.returned p p.due s.shows) { p with due := [] }
  rw [State.deliver_whole, State.progress_last (p := { p with due := [] }) htodo rfl, ← hkept.id, ← htag] at hh
  obtain ⟨hgone, hregs⟩ := State.landed_complete
    (by rw [htag, hkept.id, (State.sameStore_putGutters ..).group?]; exact Option.isSome_of_eq_some hg) hh
  refine ⟨hgone, (congrArg Group.v hregs : ).trans (Group.tagReturned_v ..), (congrArg Group.p hregs : ).trans ?_⟩
  unfold Group.tagReturned
  split
  · rfl
  · split
    · unfold Group.setBank
      split
      · rfl
      · rfl
    · rfl

end Sys2Proof.Machine
end

section
/-! Commands of the engines and results of the units, by their instruction (R248, R266, R275, R283). Under O41. -/
namespace Sys2Proof.Machine

/-- A command has its turn where the group is resident, the team is not saved, and what stands before it has read (R248). -/
theorem State.engineTurn_of_before {s : State} {g : Group} {p : Pend} {tm : Team} (htm : s.team? g.team = some tm)
    (hres : g.resident = true) (hsaved : tm.preempted = false)
    (hbefore : ∀ r ∈ g.before p, r.readDone = true ∨ (isMatrix r.instr = false ∧ isScratch r.instr = false)) :
    s.engineTurn g p = true := by
  have hall : ((g.before p).all fun q => q.readDone || (!isMatrix q.instr && (!isScratch q.instr || isWaita q.instr))) = true := by
    refine List.all_eq_true.mpr fun r hr => ?_
    rcases hbefore r hr with h | ⟨hmatrix, hscratch⟩
    · rw [h, Bool.true_or]
    · rw [hmatrix, hscratch]
      simp
  unfold State.engineTurn
  rw [hres, htm, hall, Option.map_some, hsaved]
  rfl

section
variable {s : State} {g : Group} {p : Pend} (hg : s.group? g.id = some g) (hp : g.pend? p.id = some p)
  (hst : p.status = .inFlight) (hdue : p.due = [])
include hg hp hst hdue

/-! ### Commands in their turn -/

section
variable {tm : Team} (htm : s.team? g.team = some tm) (hturn : s.engineTurn g p = true)
include htm hturn

theorem exec_command_mloadb {a : Fin 64} (hi : p.instr = .mloadb a) : exec (.engineCommandComplete g.id p.id) s =
    .next (s.commandDone g p (s.mloadb tm (p.opc g 0) (p.opc g 1))) := by
  have hact : p.active = true := decide_eq_true hst
  simp only [exec, execEngineCommandComplete, hg, hp, htm, hdue, hact, hturn, hi, List.isEmpty_nil, Bool.not_true,
    Bool.or_false, Bool.false_eq_true, if_false]

/-- An MLOOP that has read no byte before completes, or reads some bytes first (R251). -/
theorem exec_command_mloop {a : Fin 64} (hi : p.instr = .mloop a) (hseen : p.seen = none) :
    exec (.engineCommandComplete g.id p.id) s =
      .next (if Config.freeNat s.freeCount % 2 = 1
        then s.nextFree.setGroup (g.setPend { p with seen := some (tm.scratch, tm.copied) })
        else s.nextFree.commandDone g p ((s.nextFree.mloop tm ((upto 4).map (p.opc g)) p.qcap).map (fun v => v.setScratch tm))) := by
  have hact : p.active = true := decide_eq_true hst
  have hteam : s.mloopTeam tm p = tm := by
    unfold State.mloopTeam
    rw [hseen]
  simp only [exec, execEngineCommandComplete, State.mloopTurn, hteam, hg, hp, htm, hdue, hact, hturn, hi, List.isEmpty_nil,
    Bool.not_true, Bool.or_false, Bool.false_eq_true, if_false]

theorem exec_command_mdrain {a : Fin 64} (hi : p.instr = .mdrain a) : exec (.engineCommandComplete g.id p.id) s =
    .next (s.commandDone g p (s.mdrain tm (p.opc g 0) (p.opc g 1) (p.opc g 2))) := by
  have hact : p.active = true := decide_eq_true hst
  simp only [exec, execEngineCommandComplete, hg, hp, htm, hdue, hact, hturn, hi, List.isEmpty_nil, Bool.not_true,
    Bool.or_false, Bool.false_eq_true, if_false]

/-- An MZERO of rows that the team has completes with them zero (R254). -/
theorem exec_command_mzero {a b : Src} (hi : p.instr = .mzero a b) (hn : (p.opc g 1).toNat ≠ 0)
    (hin : (p.opc g 0).toNat + (p.opc g 1).toNat ≤ tm.accrows) : exec (.engineCommandComplete g.id p.id) s =
      .next ((s.setTeam (tm.zeroed (p.opc g 0).toNat (p.opc g 1).toNat)).completePend g.id p.id) := by
  have hact : p.active = true := decide_eq_true hst
  simp only [exec, execEngineCommandComplete, hg, hp, htm, hdue, hact, hturn, hi, List.isEmpty_nil, Bool.not_true,
    Bool.or_false, Bool.false_eq_true, if_false, s.mzero_of_ok hn hin]
  rfl

/-- An MDRAINV of a column and a row that the team has returns them (R253). -/
theorem exec_command_mdrainv {d : Fin 64} {a b : Src} {lane : Nat} (hi : p.instr = .mdrainv d a b) (haux : p.aux = [lane])
    (hcol : (p.op g .control 0 lane).toNat ≤ 511) (hrow : (p.op g .control 1 lane).toNat < tm.accrows) :
    exec (.engineCommandComplete g.id p.id) s = .next (s.returnAll g.id p (Config.freeNat s.freeCount) (fun _ l =>
      if tm.accrows ≤ (p.op g .control 1 lane).toNat + g.laneIndex l then 0
      else tm.accCell ((p.op g .control 1 lane).toNat + g.laneIndex l) (p.op g .control 0 lane).toNat)) := by
  have hact : p.active = true := decide_eq_true hst
  have hlane : nth p.aux 0 0 = lane := by rw [haux]; rfl
  have hvals : tm.mdrainv (p.op g .control 0 lane).toNat (p.op g .control 1 lane).toNat = .ok (fun l =>
      if tm.accrows ≤ (p.op g .control 1 lane).toNat + l then 0
      else tm.accCell ((p.op g .control 1 lane).toNat + l) (p.op g .control 0 lane).toNat) := by
    unfold Team.mdrainv
    rw [if_neg (by omega)]
  simp only [exec, execEngineCommandComplete, hg, hp, htm, hdue, hact, hturn, hi, hlane, hvals, List.isEmpty_nil, Bool.not_true,
    Bool.or_false, Bool.false_eq_true, if_false]

theorem exec_command_vxm {d a : Fin 64} {l : Bool} {b : Src} (hi : p.instr = .vxm d a l b) (hwait : s.unitWaits g = false) :
    exec (.engineCommandComplete g.id p.id) s = .next (s.vxm g p (Config.freeNat s.freeCount)) := by
  have hact : p.active = true := decide_eq_true hst
  simp only [exec, execEngineCommandComplete, hg, hp, htm, hdue, hact, hturn, hi, hwait, List.isEmpty_nil, Bool.not_true,
    Bool.or_false, Bool.false_eq_true, if_false]

end

/-! ### Results of the units -/

/-- A texture unit's result, where the group is resident. -/
theorem exec_unit_texture (hres : g.resident = true) (hi : isTexture p.instr = true) (part : Nat) :
    exec (.unitResultWritten g.id ⟨p.id, part⟩) s = .next (s.textureResult g p part) := by
  have hact : p.active = true := decide_eq_true hst
  unfold isTexture at hi
  split at hi
  case h_4 => cases hi
  all_goals
    next hinstr =>
    simp only [exec, execUnitResultWritten, hg, hp, hdue, hact, hres, hinstr, List.isEmpty_nil, Bool.not_true, Bool.and_false,
      Bool.false_eq_true, if_false, if_true]

/-- A ridge or coverage unit's result in its turn. -/
theorem exec_unit_ray (hturn : s.unitTurn g p = true) (part : Nat) :
    (∀ m a k d, p.instr = .trace m a k d →
      exec (.unitResultWritten g.id ⟨p.id, part⟩) s = .next (s.traceDone g p part m k)) ∧
    (∀ a d, p.instr = .hitret a d → exec (.unitResultWritten g.id ⟨p.id, part⟩) s = .next (s.hitretDone g p part)) ∧
    (∀ a b, p.instr = .cover a b → exec (.unitResultWritten g.id ⟨p.id, part⟩) s = .next (s.coverDone g p)) ∧
    (∀ cl a m, p.instr = .visb cl a m → exec (.unitResultWritten g.id ⟨p.id, part⟩) s = .next (s.visbDone g p cl m)) := by
  have hact : p.active = true := decide_eq_true hst
  refine ⟨fun m a k d hi => ?_, fun a d hi => ?_, fun a b hi => ?_, fun cl a m hi => ?_⟩
  all_goals
    simp only [exec, execUnitResultWritten, hg, hp, hdue, hact, hturn, hi, List.isEmpty_nil, Bool.not_true, Bool.and_false,
      Bool.false_eq_true, if_false, if_true]

theorem exec_unit_repack {k n : Fin 16} {a b : Fin 64} (hi : p.instr = .repack k n a b) (part : Nat) :
    exec (.unitResultWritten g.id ⟨p.id, part⟩) s = .next (s.repackDone g k.val n.val) := by
  have hact : p.active = true := decide_eq_true hst
  simp only [exec, execUnitResultWritten, hg, hp, hdue, hact, hi, List.isEmpty_nil, Bool.not_true, Bool.and_false,
    Bool.false_eq_true, if_false]

omit hdue

/-- A COMPOSE behind the group's earlier scratchpad accesses, which no budget holds (R283). -/
theorem exec_plainJoinWritten {d : Fin 64} {a : Src} (hi : p.instr = .compose d a) (hwait : s.unitWaits g = false)
    (hspent : s.composerSpent g = false)
    (hbefore : (g.before p).all (fun q => q.readDone || !isScratch q.instr || isWaita q.instr) = true) :
    exec (.plainJoinWritten g.id p.id) s = .next (s.composeDone g p) := by
  have hact : p.active = true := decide_eq_true hst
  simp only [exec, execPlainJoinWritten, hg, hp, hact, hi, hwait, hspent, hbefore, Bool.not_false, Bool.and_self, if_true]

end

/-! ### A unit's result that is due -/

/-- A result that a unit has due is written (R22). -/
theorem exec_unit_due {s : State} {g : Group} {p : Pend} (hg : s.group? g.id = some g) (hp : g.pend? p.id = some p)
    (hi : isRay p.instr = true ∨ isTexture p.instr = true) (hdue : p.due ≠ []) :
    exec (.unitResultWritten g.id ⟨p.id, 0⟩) s = .next (s.deliver g p 0) := by
  have hunit : (isRay p.instr || isTexture p.instr) = true := by simpa using hi
  have hsome : p.due.isEmpty = false := by simpa using hdue
  simp only [exec, execUnitResultWritten, hg, hp, hunit, hsome, Bool.not_false, Bool.and_self, if_true]

/-- A lane of a register that one place of a result writes, where no later instruction is to write it (R22). -/
theorem Group.vLane_returned_one (g : Group) (p : Pend) {e n l : Nat} {m live : DWord} {vals : List Word}
    (shows : Nat → Nat → Bool) (hplace : p.vdst[e]? = some (n, live)) (hmap : g.mapped n = true) (hl : l < 64)
    (hlater : (g.laterLanes p n).getLsbD l = false) : (g.returned p [(e, m, vals)] shows).vLane n l =
      if (live &&& m).getLsbD l then nth vals l 0 else g.vLane n l := by
  have hputs : p.putsV g e m n l ↔ (live &&& m).getLsbD l = true := by
    unfold Pend.putsV
    rw [hplace, BitVec.getLsbD_and, Bool.and_eq_true]
    constructor
    · rintro ⟨hm, -, live', hlive', hbit⟩
      obtain ⟨-, rfl⟩ := Prod.mk.inj (Option.some.inj hlive')
      exact ⟨hbit, hm⟩
    · exact fun h => ⟨h.2, hmap, live, rfl, h.1⟩
  rcases g.vLane_returned p [(e, m, vals)] shows n l hl with ⟨x, hx, hx', hval⟩ | ⟨hno, hsame⟩
  · rw [List.mem_singleton] at hx
    subst hx
    rw [if_pos (hputs.mp hx')]
    exact hval.resolve_right fun h => absurd h.1 (by rw [hlater]; exact Bool.false_ne_true)
  · rw [if_neg fun h => hno _ (List.mem_singleton_self _) (hputs.mpr h), hsame]

end Sys2Proof.Machine
end

section
/-! VXM (R256): what a VXM that meets no fault returns, register by register, and in p6. Under O41. -/
namespace Sys2Proof.Machine

/-! ### What a VXM returns -/

/-- The lanes of a VXM that are not null. -/
def Pend.vxmLanes (p : Pend) (g : Group) : List Nat := (lanesIn p.lmask).filter (fun l => p.vxmOffset g l ≠ 0xFFFFFFFF)

/-- The checks of a VXM's blocks, lane by lane. -/
def State.vxmChecks (s : State) (g : Group) (c : Context) (p : Pend) : List (Nat × LaneCheck) :=
  (p.vxmLanes g).map (fun l =>
    (l, s.checkAccess g.core c (p.xcap.getD {}) .load true 64 2048 (p.vxmOffset g l).toNat))

/-- The inputs of a lane. -/
def Pend.vxmInputs (p : Pend) (g : Group) (l : Nat) : List FVal :=
  (upto 32).map (fun i => FFmt.fp16.value (elemNat (p.op g .control (i / 2) l) 16 (i % 2)))

/-- The outputs of a lane whose weights stand in some runs. -/
def State.vxmOut (s : State) (g : Group) (p : Pend) (l : Nat) (runs : List Run) : List Nat :=
  vxmRow (modeRnd p.mode) (modeSat p.mode) (p.vxmInputs g l)
    ((blocks 2 1024 (s.readRuns runs)).map (fun b => FFmt.fp16.value (leValue b)))

/-- The outputs of the lanes whose checks passed. -/
def State.vxmOuts (s : State) (g : Group) (p : Pend) (checks : List (Nat × LaneCheck)) : List (Nat × List Nat) :=
  checks.filterMap (fun e => match e.2 with
    | .ok runs _ => some (e.1, s.vxmOut g p e.1 runs)
    | .bad _ _ _ _ _ => none)

/-- The word of a register and a lane, from the outputs: zero for a null lane. -/
def vxmWord (outs : List (Nat × List Nat)) (n lane : Nat) : Word :=
  match outs.find? (fun o => o.1 = lane) with
  | none => 0
  | some o => ofElems 16 [nth o.2 (2 * n) 0, nth o.2 (2 * n + 1) 0]

/-- What a VXM has due: its registers, and behind them which lanes were not null. -/
def Pend.vxmDue (p : Pend) (g : Group) (outs : List (Nat × List Nat)) : List (Nat × DWord × List Word) :=
  p.dueAll (vxmWord outs) ++
    [(p.vdst.length, p.lmask, tabulate (fun l => if (p.vxmLanes g).contains l then (1 : Word) else 0))]

theorem laneFault_of_ok {checks : List (Nat × LaneCheck)} (h : ∀ e ∈ checks, ∃ runs leaves, e.2 = .ok runs leaves) :
    laneFault checks = none := by
  unfold laneFault
  dsimp only
  split
  · rfl
  · next b rest hbad =>
    obtain ⟨e, he, hsome⟩ := List.mem_filterMap.mp (hbad ▸ List.mem_cons_self : b ∈ _)
    obtain ⟨runs, leaves, hok⟩ := h e he
    simp [hok] at hsome

theorem State.vxmOuts_congr {s t : State} (h : t.mem = s.mem) (g : Group) (p : Pend) (checks : List (Nat × LaneCheck)) :
    t.vxmOuts g p checks = s.vxmOuts g p checks := by
  unfold State.vxmOuts State.vxmOut
  simp only [State.readRuns_congr h]

/-- A VXM whose lanes all pass their checks has its results due, and delivers them. -/
theorem State.vxm_of_ok {s : State} {g : Group} {p : Pend} {c : Context} (hg : s.group? g.id = some g)
    (hc : s.contextOf g = some c) (hok : ∀ e ∈ s.vxmChecks g c p, ∃ runs leaves, e.2 = .ok runs leaves) (part : Nat) :
    ∃ t : State, t.group? g.id = some g ∧ s.vxm g p part = t.deliver g { p with
      due := p.vxmDue g ((s.markLanes g.core c.id false (s.vxmChecks g c p)).vxmOuts g p (s.vxmChecks g c p)), todo := [] } part := by
  let u := (s.markLanes g.core c.id false (s.vxmChecks g c p)).nextFree
  let t := u.chargeAccess g (runSectors ((s.vxmChecks g c p).flatMap (fun e => match e.2 with
    | .ok runs _ => runs
    | .bad _ _ _ _ _ => [])))
  have hsame : u.SameStore t := u.sameStore_chargeAccess ..
  have hmark : u.group? g.id = some g := by
    unfold State.group?
    rw [show u.groups = s.groups from s.markLanes_groups ..]
    exact hg
  have hgroup : t.group? g.id = some g := (hsame.group? g.id).trans hmark
  refine ⟨t, hgroup, ?_⟩
  rw [← State.vxmOuts_congr (t := t)
    (show t.mem = (s.markLanes g.core c.id false (s.vxmChecks g c p)).mem from hsame.mem)]
  unfold State.vxm
  simp only [hc]
  split
  · next trap hfault => exact absurd ((laneFault_of_ok hok).symm.trans hfault) (Option.some_ne_none _).symm
  · split
    · next hnone => exact absurd (hgroup.symm.trans hnone) (Option.some_ne_none _)
    · next g' hg' =>
      obtain rfl := Option.some.inj (hgroup.symm.trans hg')
      rfl

/-! ### The registers that it writes -/

/-- Places of a result write one name each: a name's place is one. -/
theorem Pend.place_of_nodup {p : Pend} (h : (p.vdst.map (fun e => e.1)).Nodup) {i k n : Nat} {live live' : DWord}
    (hi : p.vdst[i]? = some (n, live)) (hk : p.vdst[k]? = some (n, live')) : i = k := by
  have hlen : i < p.vdst.length := (List.getElem?_eq_some_iff.mp hi).1
  refine (List.getElem?_inj (by rw [List.length_map]; exact hlen) h).mp ?_
  rw [List.getElem?_map, List.getElem?_map, hi, hk]
  rfl

theorem Pend.mem_dueAll {p : Pend} {val : Nat → Nat → Word} {x : Nat × DWord × List Word} :
    x ∈ p.dueAll val ↔ ∃ i, i < max p.vdst.length p.sdst.length ∧ x = (i, p.lmask, tabulate (val i)) := by
  unfold Pend.dueAll upto
  simp only [List.mem_map, List.mem_range, eq_comm]

/-- A lane of a register of a VXM's results, where no later instruction is to write it. -/
theorem Group.vLane_returned_vxm (g : Group) {p p' : Pend} (hv : p'.vdst = p.vdst) (hid : p'.id = p.id)
    (outs : List (Nat × List Nat)) (shows : Nat → Nat → Bool) (hnodup : (p.vdst.map (fun e => e.1)).Nodup) {k n l : Nat}
    {live : DWord} (hplace : p.vdst[k]? = some (n, live)) (hmap : g.mapped n = true) (hl : l < 64)
    (hbit : (live &&& p.lmask).getLsbD l = true) (hlater : (g.laterLanes p n).getLsbD l = false) :
    (g.returned p' (p.vxmDue g outs) shows).vLane n l = vxmWord outs k l := by
  have hlater' : (g.laterLanes p' n).getLsbD l = false := by
    unfold Group.laterLanes at hlater ⊢
    rw [hid]
    exact hlater
  have hbits : live.getLsbD l = true ∧ p.lmask.getLsbD l = true := by simpa using hbit
  have hlen : k < p.vdst.length := (List.getElem?_eq_some_iff.mp hplace).1
  rcases g.vLane_returned p' (p.vxmDue g outs) shows n l hl with ⟨x, hx, ⟨-, -, live', hlive', -⟩, hval⟩ | ⟨hno, -⟩
  · have hx1 : x.1 = k := Pend.place_of_nodup hnodup (hv ▸ hlive') hplace
    rw [hval.resolve_right fun h => absurd h.1 (by rw [hlater']; exact Bool.false_ne_true)]
    rcases List.mem_append.mp hx with hx | hx
    · obtain ⟨i, -, rfl⟩ := Pend.mem_dueAll.mp hx
      rw [← hx1, nth_tabulate, if_pos hl]
    · rw [List.mem_singleton] at hx
      subst hx
      exact absurd hlen (by rw [← hx1]; exact Nat.lt_irrefl _)
  · refine absurd ⟨hbits.2, hmap, live, by rw [hv]; exact hplace, hbits.1⟩
      (hno (k, p.lmask, tabulate (vxmWord outs k)) (List.mem_append_left _ (Pend.mem_dueAll.mpr ⟨k, ?_, rfl⟩)))
    exact lt_of_lt_of_le hlen (le_max_left ..)

/-! ### The predicate register that it writes -/

theorem Group.pbit_writeP (g : Group) (n : Nat) (m : DWord) (f : Nat → Bool) {l : Nat} (hl : l < 64) :
    (g.writeP n m f).pbit n l = if m.getLsbD l then f l else g.pbit n l := by
  unfold Group.writeP Group.pbit
  simp only [nth_putNth, if_true, BitVec.getLsbD_or, BitVec.getLsbD_and, BitVec.getLsbD_not, hl, decide_true, Bool.true_and,
    maskOf_bit f l hl]
  by_cases hm : m.getLsbD l <;> simp [hm]

/-- A place of a result that is a v register leaves the predicates. -/
theorem Group.pbit_returnOne (g : Group) {p : Pend} {e : Nat} {d : Nat × DWord} (he : p.vdst[e]? = some d) (mask : DWord)
    (val : Nat → Word) (shows : Nat → Bool) (n l : Nat) : (g.returnOne p e mask val shows).pbit n l = g.pbit n l := by
  obtain ⟨k, live⟩ := d
  rw [Group.returnOne_eq, Group.pbit_setBank]
  by_cases hd : g.mapped k = false ∨ live &&& mask = 0
  · rw [g.returnV_dead p e mask val shows he hd]
  · obtain ⟨hmap, hm⟩ := not_or.mp hd
    obtain ⟨old, hold⟩ := Option.isSome_iff_exists.mp (Bool.not_eq_false _ ▸ hmap : (nth g.v k none).isSome = true)
    rw [g.returnV_live p e mask val shows he hold hm]
    rfl

theorem Group.pbit_returned {p : Pend} {l : List (Nat × DWord × List Word)} (h : ∀ x ∈ l, ∃ d, p.vdst[x.1]? = some d)
    (shows : Nat → Nat → Bool) (g : Group) (n i : Nat) : (g.returned p l shows).pbit n i = g.pbit n i := by
  induction l generalizing g with
  | nil => rfl
  | cons x l ih =>
    obtain ⟨d, hd⟩ := h x List.mem_cons_self
    refine (ih (fun y hy => h y (List.mem_cons_of_mem _ hy)) _).trans ?_
    exact g.pbit_returnOne hd ..

/-- The place behind a VXM's registers writes p6. -/
theorem Group.pbit_returnOne_vxm (g : Group) {p : Pend} {e : Nat} {d a : Fin 64} {last : Bool} {b : Src}
    (hi : p.instr = .vxm d a last b) (he : p.vdst[e]? = none) (mask : DWord) (val : Nat → Word) (shows : Nat → Bool) {l : Nat}
    (hl : l < 64) : (g.returnOne p e mask val shows).pbit 6 l = if mask.getLsbD l then decide (val l ≠ 0) else g.pbit 6 l := by
  have hwrite : g.returnV p e mask val shows = g.writeP 6 mask (fun l => val l ≠ 0) := by
    unfold Group.returnV Group.returnOne
    simp only [List.getElem?_nil, he, hi]
  rw [Group.returnOne_eq, Group.pbit_setBank, hwrite, g.pbit_writeP 6 mask _ hl]

/-- p6 after a VXM: set in the lanes that are not null (R256). -/
theorem Group.pbit_returned_vxm (g : Group) {p p' : Pend} (hv : p'.vdst = p.vdst) {d a : Fin 64} {last : Bool} {b : Src}
    (hi : p'.instr = .vxm d a last b) (hs : p.sdst = []) (outs : List (Nat × List Nat)) (shows : Nat → Nat → Bool) {l : Nat}
    (hl : l < 64) : (g.returned p' (p.vxmDue g outs) shows).pbit 6 l =
      if p.lmask.getLsbD l then (p.vxmLanes g).contains l else g.pbit 6 l := by
  have hplaces : ∀ x ∈ p.dueAll (vxmWord outs), ∃ d, p'.vdst[x.1]? = some d := by
    intro x hx
    obtain ⟨i, hi, rfl⟩ := Pend.mem_dueAll.mp hx
    rw [hs, List.length_nil, Nat.max_zero] at hi
    exact ⟨_, by rw [hv]; exact List.getElem?_eq_getElem hi⟩
  have hsplit : g.returned p' (p.vxmDue g outs) shows = (g.returned p' (p.dueAll (vxmWord outs)) shows).returnOne p'
      p.vdst.length p.lmask (fun l => nth (tabulate (fun l => if (p.vxmLanes g).contains l then (1 : Word) else 0)) l 0)
      (shows p.vdst.length) := by
    unfold Group.returned Pend.vxmDue
    rw [List.foldl_append, List.foldl_cons, List.foldl_nil]
  rw [hsplit, Group.pbit_returnOne_vxm _ hi (by rw [hv]; simp) _ _ _ hl, Group.pbit_returned hplaces]
  simp only [nth_tabulate, if_pos hl]
  cases (p.vxmLanes g).contains l <;> simp

/-! ### The words that it returns -/

section
variable {s t : State} {g : Group} {c : Context} {p : Pend} {l : Nat}

theorem State.mem_vxmOuts {o : Nat × List Nat} (h : o ∈ t.vxmOuts g p (s.vxmChecks g c p)) :
    ∃ runs leaves, (o.1, .ok runs leaves) ∈ s.vxmChecks g c p ∧ o.2 = t.vxmOut g p o.1 runs := by
  obtain ⟨⟨i, check⟩, he, hsome⟩ := List.mem_filterMap.mp h
  cases check with
  | ok runs leaves =>
    obtain rfl := Option.some.inj hsome
    exact ⟨runs, leaves, he, rfl⟩
  | bad order cause sub faddr leaves => cases hsome

/-- A null lane has no word. -/
theorem vxmWord_of_null (h : l ∉ p.vxmLanes g) (k : Nat) : vxmWord (t.vxmOuts g p (s.vxmChecks g c p)) k l = 0 := by
  have hnone : (t.vxmOuts g p (s.vxmChecks g c p)).find? (fun o => decide (o.1 = l)) = none := by
    refine List.find?_eq_none.mpr fun o ho hol => ?_
    obtain ⟨runs, leaves, he, -⟩ := State.mem_vxmOuts ho
    obtain ⟨i, hi, heq⟩ := List.mem_map.mp he
    obtain ⟨rfl, -⟩ := Prod.mk.inj heq
    exact h (of_decide_eq_true hol ▸ hi)
  unfold vxmWord
  rw [hnone]

/-- A lane with a block has the word of its two outputs. -/
theorem vxmWord_of_ok {runs : List Run} {leaves : List (Nat × Nat)} (h : (l, .ok runs leaves) ∈ s.vxmChecks g c p) (k : Nat) :
    vxmWord (t.vxmOuts g p (s.vxmChecks g c p)) k l =
      ofElems 16 [nth (t.vxmOut g p l runs) (2 * k) 0, nth (t.vxmOut g p l runs) (2 * k + 1) 0] := by
  have hcheck : ∀ check, (l, check) ∈ s.vxmChecks g c p →
      check = s.checkAccess g.core c (p.xcap.getD {}) .load true 64 2048 (p.vxmOffset g l).toNat := by
    intro check hc
    obtain ⟨i, -, heq⟩ := List.mem_map.mp hc
    obtain ⟨rfl, rfl⟩ := Prod.mk.inj heq
    rfl
  unfold vxmWord
  cases hfind : (t.vxmOuts g p (s.vxmChecks g c p)).find? (fun o => decide (o.1 = l)) with
  | none =>
    have hmem : (l, t.vxmOut g p l runs) ∈ t.vxmOuts g p (s.vxmChecks g c p) := List.mem_filterMap.mpr ⟨_, h, rfl⟩
    exact absurd (decide_eq_true rfl) (List.find?_eq_none.mp hfind _ hmem)
  | some o =>
    obtain ⟨runs', leaves', he, hout⟩ := State.mem_vxmOuts (List.mem_of_find?_eq_some hfind)
    obtain rfl : o.1 = l := by simpa using List.find?_some hfind
    obtain ⟨rfl, -⟩ := LaneCheck.ok.inj ((hcheck _ he).trans (hcheck _ h).symm)
    dsimp only
    rw [hout]

end

theorem getElem?_blocks {α : Type} (n fuel i : Nat) (l : List α) (h : i < fuel) :
    (blocks n fuel l)[i]? = some ((l.drop (n * i)).take n) := by
  induction fuel generalizing i l with
  | zero => exact absurd h (Nat.not_lt_zero i)
  | succ fuel ih =>
    cases i with
    | zero => rfl
    | succ i =>
      rw [blocks, List.getElem?_cons_succ, ih _ _ (Nat.lt_of_succ_lt_succ h), List.drop_drop, Nat.mul_succ, Nat.add_comm]

/-- The weights of a column of a lane's block. -/
def vxmColumn (bytes : List Byte) (j : Nat) : List FVal :=
  (upto 32).map (fun i => FFmt.fp16.value (leValue ((bytes.drop (2 * (32 * i + j))).take 2)))

/-- Output j of a lane whose weights stand in some runs: the rounded sum of its products (R256). -/
def State.vxmOutput (s : State) (g : Group) (p : Pend) (l : Nat) (runs : List Run) (j : Nat) : Nat :=
  let x := dotAlign 16 (p.vxmInputs g l)
  let w := dotAlign 8 (vxmColumn (s.readRuns runs) j)
  let sum := ((upto 32).map (fun i => nth x.2 i 0 * nth w.2 i 0)).sum
  if (p.vxmInputs g l).any FVal.special || (vxmColumn (s.readRuns runs) j).any FVal.special then 0x7E00
  else (roundFin .fp16 (modeRnd p.mode) (modeSat p.mode) (decide (sum < 0)) sum.natAbs (x.1 - 15 + (w.1 - 7)) false).1

theorem State.nth_vxmOut (s : State) (g : Group) (p : Pend) (l : Nat) (runs : List Run) {j : Nat} (hj : j < 32) :
    nth (s.vxmOut g p l runs) j 0 = s.vxmOutput g p l runs j := by
  have hcol : (upto 32).map (fun i =>
      nth ((blocks 2 1024 (s.readRuns runs)).map (fun b => FFmt.fp16.value (leValue b))) (32 * i + j) (.fin false 0 0)) =
        vxmColumn (s.readRuns runs) j := by
    refine List.map_congr_left fun i hi => ?_
    have hi : i < 32 := List.mem_range.mp hi
    unfold nth
    rw [List.getElem?_map, getElem?_blocks _ _ _ _ (by omega)]
    rfl
  have hx : (dotAlign 16 (p.vxmInputs g l)).2.length = 32 := by
    rw [dotAlign_length]
    simp [Pend.vxmInputs, upto]
  have hw : (dotAlign 8 (vxmColumn (s.readRuns runs) j)).2.length = 32 := by
    rw [dotAlign_length]
    simp [vxmColumn, upto]
  have hsum : dotSum (dotAlign 16 (p.vxmInputs g l)).2 (dotAlign 8 (vxmColumn (s.readRuns runs) j)).2 =
      ((upto 32).map (fun i => nth (dotAlign 16 (p.vxmInputs g l)).2 i 0 *
        nth (dotAlign 8 (vxmColumn (s.readRuns runs) j)).2 i 0)).sum := by
    rw [← dotSum_upto _ hx, map_nth_upto _ 0 hw]
  have hexp : ∀ a b : Int, a - 16 + 1 + b - 7 = a - 15 + (b - 7) := by omega
  unfold State.vxmOut vxmRow State.vxmOutput
  simp only [nth_map_upto, if_pos hj, hcol, hsum, hexp]

theorem Pend.contains_vxmLanes (p : Pend) (g : Group) {l : Nat} (hl : l < 64) :
    (p.vxmLanes g).contains l = (p.lmask.getLsbD l && decide (¬ p.vxmOffset g l = 0xFFFFFFFF)) := by
  rw [Bool.eq_iff_iff, List.contains_iff_mem, Pend.vxmLanes, List.mem_filter, mem_lanesIn, Bool.and_eq_true]
  exact and_congr_left fun _ => and_iff_right hl

/-- A VXM whose lanes all pass their checks: its lanes in p6, and the words of its registers (R256). -/
theorem State.vxm_gives {s : State} {g h : Group} {p : Pend} {c : Context} {d a : Fin 64} {last : Bool} {b : Src}
    (hg : s.group? g.id = some g) (hi : p.instr = .vxm d a last b) (hs : p.sdst = []) (hc : s.contextOf g = some c)
    (hok : ∀ e ∈ s.vxmChecks g c p, ∃ runs leaves, e.2 = .ok runs leaves) (hnodup : (p.vdst.map (fun e => e.1)).Nodup)
    (hh : (s.vxm g p 0).group? g.id = some h) :
    (∀ l, l < 64 → h.pbit 6 l = if p.lmask.getLsbD l then decide (¬ p.vxmOffset g l = 0xFFFFFFFF) else g.pbit 6 l) ∧
    ∀ k n live l, k < 16 → p.vdst[k]? = some (n, live) → g.mapped n = true → l < 64 → (live &&& p.lmask).getLsbD l = true →
      (g.laterLanes p n).getLsbD l = false →
      (p.vxmOffset g l = 0xFFFFFFFF → h.vLane n l = 0) ∧
      ∀ runs leaves, (l, .ok runs leaves) ∈ s.vxmChecks g c p → h.vLane n l = ofElems 16
        [(s.markLanes g.core c.id false (s.vxmChecks g c p)).vxmOutput g p l runs (2 * k),
          (s.markLanes g.core c.id false (s.vxmChecks g c p)).vxmOutput g p l runs (2 * k + 1)] := by
  obtain ⟨t, ht, hvxm⟩ := State.vxm_of_ok hg hc hok 0
  generalize houts : (s.markLanes g.core c.id false (s.vxmChecks g c p)).vxmOuts g p (s.vxmChecks g c p) = outs at hvxm
  rw [hvxm] at hh
  obtain ⟨-, hv, hpred⟩ := State.deliver_group (p := { p with due := p.vxmDue g outs, todo := [] }) ht rfl hh
  refine ⟨fun l hl => ?_, fun k n live l hk hplace hmap hl hbit hlater => ?_⟩
  · have hp6 : h.pbit 6 l = if p.lmask.getLsbD l then (p.vxmLanes g).contains l else g.pbit 6 l := by
      unfold Group.pbit
      rw [hpred]
      exact g.pbit_returned_vxm (p := p) rfl hi hs outs t.shows hl
    rw [hp6, p.contains_vxmLanes g hl]
    cases p.lmask.getLsbD l <;> rfl
  · have hlane : h.vLane n l = vxmWord outs k l := by
      unfold Group.vLane
      rw [hv]
      exact g.vLane_returned_vxm (p := p) rfl rfl outs t.shows hnodup hplace hmap hl hbit hlater
    rw [hlane, ← houts]
    refine ⟨fun hnull => vxmWord_of_null (fun hin => ?_) k, fun runs leaves hcheck => ?_⟩
    · have hlive := p.contains_vxmLanes g hl
      rw [List.contains_iff_mem.mpr hin, decide_eq_false (not_not_intro hnull), Bool.and_false] at hlive
      cases hlive
    · rw [vxmWord_of_ok hcheck, State.nth_vxmOut _ _ _ _ _ (by omega), State.nth_vxmOut _ _ _ _ _ (by omega)]

end Sys2Proof.Machine
end

section
/-! Settles O41: commands of the engines, results of the units, optimisations and the passes, from the parts before. -/
namespace Sys2Proof.Machine

/-- Settles O41: each command and result by its instruction, what it leaves by the lemma of its unit (`State.region_loadedTeam`,
`State.accCell_loopedTeam`, `State.mdrain_window`, `State.vxm_gives`, `State.optimised_optimise`), and the listing by running
the passes. -/
theorem engineAndUnitResultsComplete : Obligations.EngineAndUnitResultsComplete := by
  unfold Obligations.EngineAndUnitResultsComplete
  refine ⟨fun s g p tm part hg hp hst hdue htm => ?_,
    fun s g p tm q k a b hg hp hst hdue htm hres hsaved hbefore hrest hk hq hi => ?_,
    fun s g p q k e m vals hg hp hi hdue htodo hrest hk hq => ?_, fun s s' tm w0 w1 htm h => ?_,
    fun s s' tm w0 w1 w2 w3 q htm h => ?_,
    fun s s' tm w0 w1 w2 htm hwf h => ?_, fun s g p c d a last b hg hp hi hdue hs hc hrest => ?_,
    fun s die j rest y hlen hqueue hy hheld hspent => ?_, by decide +kernel,
    composedVertex_listing, fun k w h => foldWord_of_unknown h⟩
  · refine ⟨fun hturn => ⟨fun a hi => exec_command_mloadb hg hp hst hdue htm hturn hi, fun a hi hseen => ?_,
      fun a hi => exec_command_mdrain hg hp hst hdue htm hturn hi, fun a b hi _ hn hin => ?_,
      fun d a b lane hi haux hcol hrow => ⟨_, exec_command_mdrainv hg hp hst hdue htm hturn hi haux hcol hrow⟩,
      fun d a l b hi hwait => ⟨_, exec_command_vxm hg hp hst hdue htm hturn hi hwait⟩⟩,
      fun hres => ⟨fun u d sz a hi => exec_unit_texture hg hp hst hdue hres (by rw [hi]; rfl) part,
        fun u d a b hi => exec_unit_texture hg hp hst hdue hres (by rw [hi]; rfl) part,
        fun u d a b hi => exec_unit_texture hg hp hst hdue hres (by rw [hi]; rfl) part⟩,
      fun hturn => exec_unit_ray hg hp hst hdue hturn part, fun k n a b hi => exec_unit_repack hg hp hst hdue hi part,
      fun d a hi hwait hspent hbefore => exec_plainJoinWritten hg hp hst hi hwait hspent hbefore⟩
    · have hexec := exec_command_mloop hg hp hst hdue htm hturn hi hseen
      split at hexec
      · exact .inr hexec
      · exact .inl hexec
    · refine ⟨_, exec_command_mzero hg hp hst hdue htm hturn hi hn hin, fun tm' htm' r c hc => ?_⟩
      exact State.accCell_completePend_zeroed hc ((State.team?_id htm) ▸ htm')
  · -- MZERO of a group at rest
    intro row n hn hin
    have hturn := State.engineTurn_of_before htm hres hsaved hbefore
    have hid := State.team?_id htm
    obtain ⟨hmem, ⟨h, hh, hgone⟩, hteam⟩ := State.completePend_zeroed hg (hid ▸ htm) hrest
      (show k = 0 ∨ k = 1 by omega) hq row n p.id
    exact ⟨_, h, _, exec_command_mzero hg hp hst hdue htm hturn hi (Nat.ne_of_gt hn) hin, hmem, hh, hgone, hid ▸ hteam,
      fun r c hc => Team.accCell_of_zeroed rfl hc⟩
  · -- a result that is due
    obtain ⟨h, hh⟩ := State.deliver_done hg htodo hrest (show k = 0 ∨ k = 1 by omega) hq
    obtain ⟨hgone, hv, -⟩ := State.deliver_group hg htodo hh
    refine ⟨_, h, exec_unit_due hg hp hi (by rw [hdue]; exact List.cons_ne_nil _ _), ?_, hh, hgone,
      fun n live hplace hmap l hl hlater => ?_⟩
    · rw [State.deliver_whole]
      exact (State.progress_mem_tags ..).1
    · have hlane : h.vLane n l = (g.returned p p.due s.shows).vLane n l := by
        unfold Group.vLane
        rw [hv]
      rw [hlane, hdue, g.vLane_returned_one p s.shows hplace hmap hl hlater]
  · -- MLOADB
    obtain rfl := State.mloadb_ok h
    have hid : (s.loadedTeam tm w0 w1).id = tm.id := Team.id_foldl_setRegion ..
    refine ⟨s.loadedTeam tm w0 w1, hid ▸ State.team?_setTeam_self (by rw [hid, htm]; rfl), rfl, fun plane k n => ?_⟩
    obtain ⟨hkeep, hloaded⟩ := s.region_loadedTeam tm w0 w1 plane k n
    refine ⟨hkeep, fun hloads => ?_⟩
    dsimp only
    rw [hloaded hloads]
    exact ⟨rfl, fun j hj => s.loaded_column tm _ _ _ _ _ _ hj⟩
  · -- MLOOP
    obtain ⟨rfl, hrange⟩ := State.mloop_ok h
    generalize hm : opMap (leValue (s.scratchRead tm (bits w0.toNat 18 0) 32)) = m
    have hid : (s.loopedTeam tm m w2 w3 q w1).id = tm.id := Team.id_foldl_setAcc ..
    obtain ⟨hkeep, hcell⟩ := s.accCell_loopedTeam m w1 w2 w3 q hrange
    simp only [Team.loopColumn_eq] at hkeep hcell
    refine ⟨s.loopedTeam tm m w2 w3 q w1, hid ▸ State.team?_setTeam_self (by rw [hid, htm]; rfl), rfl, hkeep,
      fun r c hr hc => ?_⟩
    rw [hcell r c hr hc]
    refine ⟨fun hfmt => ?_, fun hfmt => ?_⟩
    · unfold State.loopCell
      congr 1
      funext v p
      exact s.loopStep_integer tm w2 w3 q r c v p hfmt
    · unfold State.loopCell
      congr 1
      funext v p
      exact s.loopStep_float tm w2 w3 q r c v p hfmt
  · exact fun happart => State.mdrain_window htm hwf h happart
  · exact fun hok hnodup h hh => State.vxm_gives hg hi hs hc hok hnodup hh
  · -- an optimisation
    refine ⟨fun b hb => ?_, fun hb => ?_, fun h0 hother => ?_⟩
    · have hexec := exec_composeOptimise_of_body hqueue hy hheld hspent hb
      generalize hu : (if j.step = 0 then s.charge j.ctx [(.composer die, 4 * b.words.length)] else s) = u at hexec
      obtain ⟨hmem, hdies, hyealms⟩ : u.mem = s.mem ∧ u.dies = s.dies ∧ u.yealms = s.yealms := by
        rw [← hu]
        split
        · exact s.charge_keeps ..
        · exact ⟨rfl, rfl, rfl⟩
      obtain ⟨hfirst, hpast, hsecond, hthird, hlast⟩ :=
        State.optimised_optimise (j := j) (rest := rest) (y := y) (body := b) hlen hmem hdies
      refine ⟨fun h0 hfits => ⟨(hfirst h0 hfits).of_exec hexec, fun t ht => ?_⟩,
        fun h0 hlong => (hpast h0 hlong).of_exec hexec, fun h1 => (hsecond h1).of_exec hexec,
        fun h2 => (hthird h2).of_exec hexec, fun h3 => (hlast h3).of_exec hexec⟩
      obtain rfl := Host.Outcome.next.inj (hexec.symm.trans ht)
      exact State.optimise_records h0 hfits (hyealms ▸ List.mem_of_find?_eq_some hy)
    · exact (State.optimised_endOptimise hlen rfl rfl 2).of_exec (exec_composeOptimise_of_noBody hqueue hy hheld hspent hb)
    · exact (State.optimised_endOptimise hlen rfl rfl 2).of_exec (exec_optimiseBoundExpiry hqueue h0 hother)

end Sys2Proof.Machine
end
